-- ==== Sys2Proof/Word.lean ====
section
/-!
DEFINITION. The word types of the Brynfer B4 (R3, R79): bytes, 32-bit lane and uniform words, 64-bit control words.
-/

namespace Sys2Proof

/-- One byte, the smallest addressable unit (R3). -/
abbrev Byte := BitVec 8

/-- A half word: one predicate register of one lane (R118). -/
abbrev Half := BitVec 16

/-- One lane of a vector register, or one uniform register (R118). -/
abbrev Word := BitVec 32

/-- A 64-bit control word: an `lpc`, a CSR of 64 bits, a table word (R3, R35). -/
abbrev DWord := BitVec 64

end Sys2Proof
end

