-- ==== Sys2Proof/Config.lean ====
section
/-!
DEFINITION. The values that the spec leaves open. Each is a constant without a body: nothing is known of it but its type.
-/

namespace Sys2Proof

/-- The free values of the model: each use applies it to `State.fresh`, which the use advances, so that no two uses are
known to agree. (DESIGN CHOICE, log entry 5) -/
opaque freeNat : Nat → Nat

/-- What a line written under an old key reads as under a new one (R210): a byte for the reader's key generation, the writer's, the
byte's address and the old plaintext of its 16-byte block. (DESIGN CHOICE, log entry 5) -/
opaque staleByte : List Nat → Byte

/-- The response of the SRAM PUF, and the salt and info with which the boot ROM derives the identity key from it (R401).
(DESIGN CHOICE, log entry 5) -/
opaque pufResponse : List Byte
opaque hkdfSalt : List Byte
opaque hkdfInfo : List Byte

/-- The certificate for the public identity key, issued at manufacture (R401). (DESIGN CHOICE, log entry 5) -/
opaque identityCert : List Byte

/-- A target of the boot list (R414). -/
structure BootTarget where
  v6   : Bool
  ip   : Nat
  port : Nat
  nqn  : List Byte
  nsid : Nat
  lba  : Nat
  deriving DecidableEq, Repr, Inhabited

/-- The first target of the boot list in one-time-programmable memory, and those after it (R414). (DESIGN CHOICE, log entry 5) -/
opaque bootFirst : BootTarget
-- DESIGN CHOICE, log entry 5
opaque bootMore : List BootTarget

/-- The hash of the root key that ROM holds (R414). (DESIGN CHOICE, log entry 5) -/
opaque romKeyHash : List Byte

end Sys2Proof
end

