-- ==== Sys2Proof/Machine/Bits.lean ====
section
/-!
DEFINITION. The functions of R8's table: bit fields, extensions, wrapping and saturation, and the little-endian byte
order of R3. Values are unbounded until one of these reduces them.
-/

namespace Sys2Proof

/-- `bits(x, hi, lo)` of R8: bits [hi:lo] of `x` as an unsigned value. -/
def bits (x hi lo : Nat) : Nat := (x >>> lo) % 2 ^ (hi + 1 - lo)

/-- Bit `i` of `x`. -/
def bit (x i : Nat) : Bool := (x >>> i) % 2 == 1

/-- `wrap(x, n)` of R8 for an exact integer. -/
def wrap (x : Int) (n : Nat) : Nat := (x % (2 ^ n : Nat)).toNat

/-- `sext(x, n)` of R8: the low `n` bits as a two's-complement value. -/
def sext (x n : Nat) : Int :=
  let y := x % 2 ^ n
  if y < 2 ^ (n - 1) then (y : Int) else (y : Int) - (2 ^ n : Nat)

/-- `sat(x, lo, hi)` of R8. -/
def sat (x lo hi : Int) : Int := if x < lo then lo else if x > hi then hi else x

/-- `x` with bits [hi:lo] replaced by the low bits of `v`. -/
def putBits (x hi lo v : Nat) : Nat :=
  x - (bits x hi lo) * 2 ^ lo + (v % 2 ^ (hi + 1 - lo)) * 2 ^ lo

/-- The lane numbers of a group, ascending (R28). -/
def laneNums : List Nat :=
  [0, 1, 2, 3, 4, 5, 6, 7, 8, 9, 10, 11, 12, 13, 14, 15,
   16, 17, 18, 19, 20, 21, 22, 23, 24, 25, 26, 27, 28, 29, 30, 31]

/-- A per-lane list built from a function of the lane number. -/
def mkLanes {α : Type} (f : Nat → α) : List α := laneNums.map f

/-- Element `l` of a list, or the default where there is none. -/
def nth {α : Type} (d : α) : List α → Nat → α
  | [], _ => d
  | x :: _, 0 => x
  | _ :: xs, n + 1 => nth d xs n

/-- The list with element `n` replaced; unchanged where there is no such element. -/
def setNth {α : Type} (x : α) : List α → Nat → List α
  | [], _ => []
  | _ :: ys, 0 => x :: ys
  | y :: ys, n + 1 => y :: setNth x ys n

/-- The list without element `n`. -/
def dropNth {α : Type} : List α → Nat → List α
  | [], _ => []
  | _ :: ys, 0 => ys
  | y :: ys, n + 1 => y :: dropNth ys n

/-- Little-endian value of a list of bytes (R3). -/
def leVal : List Byte → Nat
  | [] => 0
  | b :: bs => b.toNat + 256 * leVal bs

/-- The low `n` bytes of a value, least significant first (R3). -/
def leBytes : Nat → Nat → List Byte
  | 0, _ => []
  | n + 1, x => BitVec.ofNat 8 x :: leBytes n (x / 256)

/-- The numbers `a .. a + n - 1`, ascending. -/
def rangeFrom (a : Nat) : Nat → List Nat
  | 0 => []
  | n + 1 => a :: rangeFrom (a + 1) n

/-- The numbers `0 .. n - 1`, ascending. -/
def upto (n : Nat) : List Nat := rangeFrom 0 n

/-- A number put into its place in an ascending list without repeats. -/
def insertNum (n : Nat) : List Nat → List Nat
  | [] => [n]
  | x :: xs => if n < x then n :: x :: xs else if n = x then x :: xs else x :: insertNum n xs

/-- The numbers of a list, ascending, without repeats. -/
def sortNums (ns : List Nat) : List Nat := ns.foldr insertNum []

/-- `⌈a / b⌉`. -/
def ceilDiv (a b : Nat) : Nat := (a + b - 1) / b

/-- `a` rounded up to a multiple of `b`. -/
def roundUp (a b : Nat) : Nat := ceilDiv a b * b

/-- The number whose bits are a list, least significant first. -/
def natOfBits : List Bool → Nat
  | [] => 0
  | b :: bs => b.toNat + 2 * natOfBits bs

/-- The lane mask of a condition on lanes (R8). -/
def mkMask (f : Nat → Bool) : Word := BitVec.ofNat 32 (natOfBits (mkLanes f))

/-- The lowest lane of a mask; 0 for an empty one. -/
def lowLane (m : Word) : Nat := (laneNums.find? fun l => m.getLsbD l).getD 0

/-- The lanes of a mask, ascending. -/
def lanesOf (m : Word) : List Nat := laneNums.filter fun l => m.getLsbD l

end Sys2Proof
end

