-- ==== Sys2Proof/Syntax.lean ====
section
/-!
DEFINITION. The steps of the Brynfer B4: one constructor of `Instr` per row of spec/opcode_table.json. An instruction
that a lane or a sequencer issues carries the decoded fields of its word (R64, R69, R70); an event of the package names
the unit it happens in and, where the spec leaves a choice open, the choice that was made.
-/

namespace Sys2Proof

/-- The three instruction lengths of R55. -/
inductive Len where
  | l64 | l96 | l128
  deriving DecidableEq, Repr

/-- The fields of one instruction: word 0 of R64, IMM32 of R69, PLACE and EXT of R70. The major opcode is the
constructor of `Instr`. -/
structure Fields where
  len : Len := .l64
  g   : BitVec 4 := 15#4
  gn  : Bool := false
  fs  : Bool := false
  d   : BitVec 8 := 0#8
  a   : BitVec 8 := 0#8
  b   : BitVec 8 := 0#8
  c   : BitVec 8 := 0#8
  sub : BitVec 4 := 0#4
  ty  : BitVec 4 := 0#4
  mod : BitVec 4 := 0#4
  ua  : Bool := false
  ub  : Bool := false
  uc  : Bool := false
  bi  : Bool := false
  imm : BitVec 32 := 0#32
  row : BitVec 6 := 0#6
  col : BitVec 6 := 0#6
  ext : BitVec 20 := 0#20
  deriving DecidableEq, Repr

/-- A core site (R5, R11): physical row and column. -/
structure Site where
  row : Nat
  col : Nat
  deriving DecidableEq, Repr

/-- A relocation record (R71): the offset of its instruction, its KIND and the logical coordinates. -/
structure Reloc where
  off  : Nat
  kind : Nat
  row  : Nat
  col  : Nat
  deriving DecidableEq, Repr

/-- A text section with its relocation records, as the loader has it, and whether the `.launch` record of the entry that a node launches holds a
`.frontier` declaration (R306). -/
structure Text where
  base  : Nat
  size  : Nat
  recs  : List Reloc
  front : Bool := true
  deriving DecidableEq, Repr

/-- A placed instance of a text section (R71): its base, the physical site of each position of the cluster, and the frames that firmware found for
its copied pages and its page tables. -/
structure Placed where
  base   : Nat
  sites  : List Nat
  frames : List Nat
  tables : List Nat
  deriving DecidableEq, Repr

/-- A firmware bundle as a fetch brings it (R414): the header, what the header gives (its magic, version, length and root key), the image and the signature, and the address that the fabric table gives this device (R411). -/
structure Bundle where
  header  : List (BitVec 8)
  magic   : List (BitVec 8)
  version : Nat
  length  : Nat
  keyX    : Nat
  keyY    : Nat
  image   : List (BitVec 8)
  sig     : List (BitVec 8)
  faddr   : Nat
  deriving DecidableEq, Repr

/-- A copy that can land bytes in scratchpad: copy `k` of a core's local copy unit, or a copy-engine job. -/
inductive CopyRef where
  | local (core k : Nat)
  | job (id : Nat)
  deriving DecidableEq, Repr

/-- An outstanding long-latency operation: number `k` among a group's own, or among a team's order (R61, R178). -/
inductive OpRef where
  | group (gid k : Nat)
  | team (team k : Nat)
  deriving DecidableEq, Repr

/-- What a read of a protected word finds (R124, R125). -/
inductive EccFinding where
  | clean | corrected | uncorrectable
  deriving DecidableEq, Repr

/-- The registers that firmware and the host write without a row of their own (REGISTER_WRITE): the firmware address
map of R288, R318, R381, R386, R392 and the host's BARs of R403 to R405 and R302. -/
inductive Reg where
  | bindidx
  | bindw (n : Nat)
  | gate (die : Nat)
  | relidx
  | reldata
  | ttbase (ctx : Nat)
  | tvec (ctx : Nat)
  | keyid (ctx : Nat)
  | owner (ctx : Nat)
  | frcmdW1 (die : Nat)
  | frslot (die fid : Nat)
  | prcmdW1
  | dbgPc (core n : Nat)
  | dbgPm (core n : Nat)
  | dbgDa (core n : Nat)
  | dbgDm (core n : Nat)
  | dmode (die : Nat)
  | pest (die : Nat)
  | cecnt (core : Nat)
  | commitLimit
  | mailbox (n : Nat)
  | mbgo
  | mbstat
  | msixMask (vector : Nat)
  | connWord (conn n : Nat)
  | crtail (ctx : Nat)
  | remoteWindow (n : Nat) (base size peer peerBase : Nat)
  /-- Firmware's note that a debugger is attached to a context (R380, R416). -/
  | attach (ctx : Nat)
  /-- Firmware's stores to a placed instance of a text section, for a cluster of width `w` on other sites (R71, R388). -/
  | rewrite (ctx w : Nat) (text : Text) (inst : Placed)
  deriving DecidableEq, Repr

/-- The steps of the machine, one constructor per row of spec/opcode_table.json. -/
inductive Instr where
  /-- NOP (R148): The issuing lanes only step to the sequential successor. -/
  | nop (f : Fields)
  /-- BR (R145): Relative branch: each active lane takes the target, and every other issuing lane steps on. -/
  | br (f : Fields)
  /-- BRC (R145): Relative branch taken by each active lane whose 32-bit source is zero (.z) or nonzero (.nz). -/
  | brc (f : Fields)
  /-- BRX (R146): Indirect transfer of each active lane to the 48-bit address held in a register pair. -/
  | brx (f : Fields)
  /-- CALL (R146): Transfer to a pair or relative target, writing the return address into a vector pair in each active lane. -/
  | call (f : Fields)
  /-- RET (R146): Indirect transfer to a register pair, marked as a return for prediction. -/
  | ret (f : Fields)
  /-- REJOIN (R150): Each active lane records its mask and waits at the rejoin PC. -/
  | rejoin (f : Fields)
  /-- REJOIN_RELEASE (R49): Once every lane named by the recorded masks at a PC is waiting there or has exited, the waiting lanes are released together past the rejoin. -/
  | rejoinRelease (gid pc : Nat)
  /-- EXIT (R149): Each active lane exits, after the trap-fence test of a TF clause. -/
  | exit (f : Fields)
  /-- YIELD (R148): Each active lane receives a yield mark. -/
  | yield (f : Fields)
  /-- VOTE (R151): Combines bit 0 of a predicate over the active lanes of the issuing path as any, all, ballot or elect. -/
  | vote (f : Fields)
  /-- ADD (R133): Integer add with wrap or saturation. -/
  | add (f : Fields)
  /-- SUB (R133): Integer subtract with wrap or saturation. -/
  | sub (f : Fields)
  /-- MUL (R133): Integer multiply, low part. -/
  | mul (f : Fields)
  /-- MULH (R133): Integer multiply, high part by floor division. -/
  | mulh (f : Fields)
  /-- MAD (R133): Integer multiply-add. -/
  | mad (f : Fields)
  /-- MADH (R133): High part of a product plus an addend. -/
  | madh (f : Fields)
  /-- MIN (R133): Integer minimum. -/
  | min (f : Fields)
  /-- MAX (R133): Integer maximum. -/
  | max (f : Fields)
  /-- ABS (R133): Integer absolute value. -/
  | abs (f : Fields)
  /-- NEG (R133): Integer negation. -/
  | neg (f : Fields)
  /-- IDIV (R133): Integer quotient, truncating toward zero; division by zero sets DZ. -/
  | idiv (f : Fields)
  /-- IREM (R133): Integer remainder; division by zero sets DZ. -/
  | irem (f : Fields)
  /-- AND (R134): Bitwise AND. -/
  | and (f : Fields)
  /-- OR (R134): Bitwise OR. -/
  | or (f : Fields)
  /-- XOR (R134): Bitwise XOR. -/
  | xor (f : Fields)
  /-- NOT (R134): Bitwise NOT. -/
  | not (f : Fields)
  /-- ANDN (R134): a AND NOT b. -/
  | andn (f : Fields)
  /-- SHL (R134): Logical shift left. -/
  | shl (f : Fields)
  /-- SHR (R134): Logical shift right. -/
  | shr (f : Fields)
  /-- SAR (R134): Arithmetic shift right. -/
  | sar (f : Fields)
  /-- ROTL (R134): Rotate left by k mod 32. -/
  | rotl (f : Fields)
  /-- CLZ (R134): Count of leading zero bits. -/
  | clz (f : Fields)
  /-- POPC (R134): Count of one bits. -/
  | popc (f : Fields)
  /-- BREV (R134): Bit reversal. -/
  | brev (f : Fields)
  /-- BFX (R136): Extracts a bit field, sign- or zero-extended. -/
  | bfx (f : Fields)
  /-- BFI (R136): Inserts a bit field. -/
  | bfi (f : Fields)
  /-- LEA (R137): Forms a + b·2^C + displacement. -/
  | lea (f : Fields)
  /-- CMP (R138): Integer comparison into a predicate. -/
  | cmp (f : Fields)
  /-- CSEL (R139): Selects between two values by a predicate. -/
  | csel (f : Fields)
  /-- MOV (R140): Moves a vector or uniform value into a vector register. -/
  | mov (f : Fields)
  /-- MOVI (R140): Moves a 32-bit immediate into a vector register. -/
  | movi (f : Fields)
  /-- MOVS (R140): Moves a uniform value or immediate into a uniform register, once. -/
  | movs (f : Fields)
  /-- SHFL (R141): Each active lane reads another lane's register (idx, up, down, xor) as it stood before the cycle. -/
  | shfl (f : Fields)
  /-- RDLANE (R142): Copies one lane's value into a uniform register. -/
  | rdlane (f : Fields)
  /-- LID (R143): Writes each active lane's lane number. -/
  | lid (f : Fields)
  /-- FADD (R156): Floating-point add, correctly rounded. -/
  | fadd (f : Fields)
  /-- FSUB (R156): Floating-point subtract. -/
  | fsub (f : Fields)
  /-- FMUL (R156): Floating-point multiply. -/
  | fmul (f : Fields)
  /-- FFMA (R156): Fused multiply-add with a single rounding. -/
  | ffma (f : Fields)
  /-- FDIV (R156): Floating-point divide. -/
  | fdiv (f : Fields)
  /-- FMIN (R157): Floating-point minimum. -/
  | fmin (f : Fields)
  /-- FMAX (R157): Floating-point maximum. -/
  | fmax (f : Fields)
  /-- FCMP (R159): Floating-point comparison into a predicate. -/
  | fcmp (f : Fields)
  /-- FCLASS (R160): Writes a one-hot class word. -/
  | fclass (f : Fields)
  /-- FCVT (R161): Converts between floating-point, integer and narrow element codes. -/
  | fcvt (f : Fields)
  /-- FRND (R158): Rounds to an integral value in the same format. -/
  | frnd (f : Fields)
  /-- FRCP (R158): Reciprocal. -/
  | frcp (f : Fields)
  /-- FRSQ (R158): Reciprocal square root. -/
  | frsq (f : Fields)
  /-- FEXP2 (R158): 2^a. -/
  | fexp2 (f : Fields)
  /-- FLOG2 (R158): log2(a). -/
  | flog2 (f : Fields)
  /-- HPACK (R162): Rounds two FP32 values into the two 16-bit halves of a word. -/
  | hpack (f : Fields)
  /-- HUNPACK (R162): Widens one 16-bit half to FP32. -/
  | hunpack (f : Fields)
  /-- NBSCALE (R164): Computes the scale word of the block held by the 32 lanes. -/
  | nbscale (f : Fields)
  /-- NBPACK (R165): Packs the 32 lane values into a narrow block image under a given scale word. -/
  | nbpack (f : Fields)
  /-- NBUNPACK (R166): Expands a narrow block image to FP32, one element per lane. -/
  | nbunpack (f : Fields)
  /-- LMV (R168): Per-lane product of a constant-store matrix and a register vector. -/
  | lmv (f : Fields)
  /-- RND (R171): Philox4x32-10 of a counter under the context key. -/
  | rnd (f : Fields)
  /-- SIGN (R181): Active lanes sign a convergence register with the following team operation and wait. -/
  | sign (f : Fields)
  /-- CONVERGENCE_ISSUE_ON_EXIT (R48): When the last missing lane of a declared set exits, the signed operation issues once for the team in a later cycle. -/
  | convergenceIssueOnExit (team cv : Nat)
  /-- MMA (R184): Matrix multiply-accumulate into 64 accumulator rows, with poison carried. -/
  | mma (f : Fields)
  /-- TLD (R186): Loads a tile of a tensor, with padding, poison and TSRC. -/
  | tld (f : Fields)
  /-- TSV (R187): Stores a tile into a tensor under its poison policy. -/
  | tsv (f : Fields)
  /-- TZERO (R188): Zeroes a tile and clears its TSRC. -/
  | tzero (f : Fields)
  /-- TPOIS (R188): Sets or clears named row-poison bits of a tile. -/
  | tpois (f : Fields)
  /-- ACC_LD (R189): Loads n accumulator rows from memory. -/
  | accLd (f : Fields)
  /-- ACC_ST (R189): Stores n accumulator rows to memory. -/
  | accSt (f : Fields)
  /-- ACC_RD (R190): Reads half an accumulator row into lanes, optionally with its poison bit. -/
  | accRd (f : Fields)
  /-- ACC_ZERO (R191): Zeroes accumulator rows and their poison bits. -/
  | accZero (f : Fields)
  /-- MMASK (R192): Writes mask-block bits from predicate registers. -/
  | mmask (f : Fields)
  /-- ROW_MAX (R194): Row maxima into a result row. -/
  | rowMax (f : Fields)
  /-- ROW_SUM (R194): Row sums into a result row. -/
  | rowSum (f : Fields)
  /-- ROW_EXP (R194): 2^(f·(x − m)) of each element. -/
  | rowExp (f : Fields)
  /-- ROW_SCALE (R194): Scales rows by a factor row or an immediate. -/
  | rowScale (f : Fields)
  /-- ROW_ADD (R194): Adds rows element by element. -/
  | rowAdd (f : Fields)
  /-- ROW_CVT (R195): Converts 64 accumulator rows into a tile. -/
  | rowCvt (f : Fields)
  /-- TEAM_OP_START (R178): A queued team operation starts once no earlier operation in the team order still has to touch the state it uses. -/
  | teamOpStart (team k : Nat)
  /-- PAND (R196): Predicate AND. -/
  | pand (f : Fields)
  /-- POR (R196): Predicate OR. -/
  | por (f : Fields)
  /-- PXOR (R196): Predicate XOR. -/
  | pxor (f : Fields)
  /-- PNOT (R196): Predicate NOT. -/
  | pnot (f : Fields)
  /-- PMOV (R196): Predicate move. -/
  | pmov (f : Fields)
  /-- PSET (R196): Sets a predicate from a value. -/
  | pset (f : Fields)
  /-- PGET (R196): Copies a predicate into a vector register. -/
  | pget (f : Fields)
  /-- PBIT (R197): Sets, clears, flips or tests one predicate bit. -/
  | pbit (f : Fields)
  /-- LD (R219): Load from global, scratchpad, cluster scratchpad or constant store. -/
  | ld (f : Fields)
  /-- ST (R220): Store to global, scratchpad or cluster scratchpad, entering the store queue. -/
  | st (f : Fields)
  /-- ST_G_DIRECT (R225): Global store that bypasses the ticket unit. -/
  | stGDirect (f : Fields)
  /-- LD_PROBE (R223): Global load that reports a far-tier page in a predicate instead of trapping. -/
  | ldProbe (f : Fields)
  /-- ATOM (R227): Atomic read-modify-write returning the old word, staged in deterministic mode. -/
  | atom (f : Fields)
  /-- RED (R227): Atomic reduction with no return value. -/
  | red (f : Fields)
  /-- FENCE (R229): Release and acquire at a scope for the active lanes. -/
  | fence (f : Fields)
  /-- FENCE_XP (R230): Waits until earlier lane and matrix-path stores are visible to engine and matrix-path reads. -/
  | fenceXp (f : Fields)
  /-- PF (R231): Prefetches a global line into L2. -/
  | pf (f : Fields)
  /-- CST_LD (R232): Copies global memory into the constant store. -/
  | cstLd (f : Fields)
  /-- AFLUSH (R228): Hands the block's staged atomics over to be applied. -/
  | aflush (f : Fields)
  /-- STAGED_ENTRY_APPLY (R227): Staged atomic and reduction entries are applied in key order and block-index order, and staged atom destinations are written. -/
  | stagedEntryApply (team : Nat)
  /-- STORE_PERFORM (R220): A queued store is performed at its memory and seen by observers under the ordering rules. -/
  | storePerform (core k : Nat)
  /-- RGN (R123): Names the fast-buffer working set, with prefetch and eviction order. -/
  | rgn (f : Fields)
  /-- FAST_BUFFER_FILL (R122): A missing or prefetched register line arrives in the fast buffer, counted in FBMISS. -/
  | fastBufferFill (gid reg : Nat)
  /-- SPILL (R121): Stores a range of vector registers to memory, resumable by a progress count. -/
  | spill (f : Fields)
  /-- FILL (R121): Loads a range of vector registers from memory, resumable by a progress count. -/
  | fill (f : Fields)
  /-- GIVE (R128): Returns line granules to the team pool. -/
  | give (f : Fields)
  /-- CLAIM (R128): Takes line granules from the team pool and reports success. -/
  | claim (f : Fields)
  /-- RDIDX (R121): Reads a vector register named by a per-lane index. -/
  | rdidx (f : Fields)
  /-- WRIDX (R121): Writes a vector register named by a per-lane index. -/
  | wridx (f : Fields)
  /-- FORK (R272): Starts programs on the named sequencers, with a footprint entry. -/
  | fork (f : Fields)
  /-- RDV (R273): Joins ended sequencers and returns their cause bytes. -/
  | rdv (f : Fields)
  /-- JOB (R281): Submits a job card to the copy engines, clearing its tag. -/
  | job (f : Fields)
  /-- CP (R284): Starts a local copy between global memory and scratchpad, clearing its tag. -/
  | cp (f : Fields)
  /-- SPAWN (R267): Appends a task record to the die task queue. -/
  | spawn (f : Fields)
  /-- POST (R266): Combines a value into the result word of the node. -/
  | post (f : Fields)
  /-- EFLAG (R276): Sequencer instruction that sets an event of its fork once its earlier operations complete. -/
  | eflag (f : Fields)
  /-- EVENT_SET (R276): The event bit of an eflag is set once every earlier operation of its sequencer has completed. -/
  | eventSet (core q : Nat)
  /-- EWAIT (R276): Sequencer waits for events or for a number of cycles. -/
  | ewait (f : Fields)
  /-- EWAIT_CYCLES_EXPIRY (R276): The cycle count of an ewait elapses, letting the next instruction issue. -/
  | ewaitCyclesExpiry (core q : Nat)
  /-- ELOOP (R277): Sequencer loop through the loop stack. -/
  | eloop (f : Fields)
  /-- EEND (R276): Stops sequencer fetch. -/
  | eend (f : Fields)
  /-- SEQUENCER_START (R272): The named sequencers start together once every footprint edge of the fork is satisfied. -/
  | sequencerStart (gid : Nat)
  /-- SEQUENCER_END (R271): A sequencer's state becomes ended when eend or a fault stops it and its operations have completed. -/
  | sequencerEnd (core q : Nat)
  /-- SLOT_LD (R334): Reads slot entries. -/
  | slotLd (f : Fields)
  /-- SLOT_SC (R329): Proposes a token and confidence for open slots. -/
  | slotSc (f : Fields)
  /-- SLOT_FIN (R331): Applies a rule word: finalises, reopens, updates the header, advances PASS and releases at dev. -/
  | slotFin (f : Fields)
  /-- COMMIT (R340): Lanes stop here when their speculative context is pending. -/
  | commit (f : Fields)
  /-- PVT (R342): Counts active lanes at or above a pivot, as prefix and total. -/
  | pvt (f : Fields)
  /-- BAR (R356): One arrival at a barrier word; the group then waits. -/
  | bar (f : Fields)
  /-- BAR_EXP (R355): Adds expected bytes to a barrier word. -/
  | barExp (f : Fields)
  /-- COPY_BYTES_LAND (R354): Bytes of a copy land in scratchpad and are subtracted from a barrier word's PEND. -/
  | copyBytesLand (src : CopyRef) (n : Nat)
  /-- TWAIT_ANY (R351): Waits until any tag of a mask is set. -/
  | twaitAny (f : Fields)
  /-- TWAIT_ALL (R351): Waits until every tag of a mask is set. -/
  | twaitAll (f : Fields)
  /-- TFFR (R352): Returns the lowest ready tag of a mask. -/
  | tffr (f : Fields)
  /-- FWAIT (R348): Waits until the named completion flags are clear. -/
  | fwait (f : Fields)
  /-- CSR_R (R375): Reads a CSR into uniform registers. -/
  | csrR (f : Fields)
  /-- CSR_W (R375): Writes a CSR field by field under its access codes. -/
  | csrW (f : Fields)
  /-- FSTAT_WRITE (R93): A write that leaves FSTAT all zero also clears FFIRST. -/
  | fstatWrite (f : Fields)
  /-- CVDEF_WRITE (R47): A write to CVDEF while its register holds signatures raises the convergence-state fault. -/
  | cvdefWrite (f : Fields)
  /-- MERRLOG0_WRITE (R366): Writing 1 to V clears both MERRLOG words. -/
  | merrlog0Write (f : Fields)
  /-- TFENCE (R376): Waits for the flags, then raises the arithmetic trap if FSTAT is nonzero. -/
  | tfence (f : Fields)
  /-- TRET (R379): Restores the lanes from the trap record and leaves the handler. -/
  | tret (f : Fields)
  /-- TRAP (R380): Raises the software trap code 0x1C. -/
  | trap (f : Fields)
  /-- BRK (R380): Raises a breakpoint to firmware. -/
  | brk (f : Fields)
  /-- HALT (R380): The team enters debug halt. -/
  | halt (f : Fields)
  /-- ICACHE_LINE_ARRIVAL (R40): An instruction-cache line arrives and its path becomes eligible again. -/
  | icacheLineArrival (core ctx block : Nat)
  /-- LONG_LATENCY_COMPLETION (R61): A long-latency instruction writes its destinations and completes, decrementing its flag. -/
  | longLatencyCompletion (op : OpRef)
  /-- WALK_COMPLETION (R206): A page-table walk ends, filling the TLBs or faulting every access waiting on it. -/
  | walkCompletion (die k : Nat)
  /-- TRANSLATION_INVALIDATE (R207): Firmware command that drops a context's TLB entries in a range on a die. -/
  | translationInvalidate (die ctx lo hi : Nat)
  /-- INVALIDATE_COMPLETION (R207): The invalidation completes once the entries are dropped and the accesses that used them are performed. -/
  | invalidateCompletion (die k : Nat)
  /-- TRAP_DELIVERY (R370): After draining, the handler trap writes the trap record and enters the handler. -/
  | trapDelivery (gid : Nat)
  /-- FIRMWARE_FAULT_DELIVERY (R373): A privileged fault freezes and drains the group and passes the record to firmware's fault queue. -/
  | firmwareFaultDelivery (gid : Nat)
  /-- TIMER_TRAP (R363): When GTIME reaches GTCMP, GTCMP becomes 0 and a timer trap becomes pending. -/
  | timerTrap (gid : Nat)
  /-- GROUP_END (R35): A group whose lanes have all exited and whose flags have cleared ends; a team ends with its last group, and its storage is released. -/
  | groupEnd (gid : Nat)
  /-- TASK_DISPATCH (R45): Dispatch binds a queued task and writes its argument words. -/
  | taskDispatch (die k : Nat)
  /-- BIND_RECORD_BIND (R290): A waiting bind record binds once its storage is free or evictable and the gate allows it. -/
  | bindRecordBind (idx : Nat)
  /-- BINDW0_COMMIT (R289): Writing BINDW0 commits the record with its staged words, which dispatch then checks. -/
  | bindw0Commit (w0 : DWord)
  /-- POWER_ESTIMATE_UPDATE (R393): Every 16 µs the die estimate is updated, EDIE advances, and the budget gate and throttling act on it. -/
  | powerEstimateUpdate (die : Nat) (est : Half)
  /-- PCAP_WRITE (R393): A cap write that would push the caps above 1380 W in sum is ignored and reported. -/
  | pcapWrite (die : Nat) (v : Word)
  /-- TWDOG_WRITE (R398): Sets the ticket watchdog limit; a write of 0 stores 100. -/
  | twdogWrite (v : Word)
  /-- CYCLE_STRETCH (R390): A droop detector stretches one cycle, counted in DSTRETCH. -/
  | cycleStretch (core : Nat)
  /-- TIMING_VIOLATION (R391): A droop beyond the guard band on a fixed-timing die is reported, and firmware ends its fixed-timing contexts. -/
  | timingViolation (die : Nat)
  /-- MODE_SWITCH_COMPLETE (R392): After 50 µs the die takes its new clock mode and the waiting record binds. -/
  | modeSwitchComplete (die : Nat)
  /-- SCRUB_READ (R125): The scrubber reads a line-store line, correcting or marking its errors. -/
  | scrubRead (core line lane : Nat) (err : EccFinding)
  /-- TICKET_PASS (R254): The ticket passes to the next block, whose held stores are then performed. -/
  | ticketPass (launch : Nat)
  /-- TICKET_WATCHDOG_EXPIRY (R257): The ticket watchdog fires and raises the ticket-stall fault in every group of the holder. -/
  | ticketWatchdogExpiry (launch : Nat)
  /-- COPY_JOB_START (R286): A copy engine starts a job once its footprint edges are satisfied. -/
  | copyJobStart (job : Nat)
  /-- COPY_JOB_COMPLETION (R283): A job writes its completion record, releases at its scope and signals its tag. -/
  | copyJobCompletion (job : Nat)
  /-- LOCAL_COPY_COMPLETION (R284): A cp finishes, releases at team and signals its tag. -/
  | localCopyCompletion (core k : Nat)
  /-- COMMAND_ENTRY_START (R260): The command processor starts the next entry of a queue once its previous entry has completed and the doorbell covers it. -/
  | commandEntryStart (ctx q : Nat)
  /-- CMD_GRAPH (R264): Command entry that runs a launch graph. `texts` are the text sections of its nodes, by node, that the loader relocates. -/
  | cmdGraph (ctx q : Nat) (texts : List (Nat × Text))
  /-- CMD_WAIT (R260): Command entry that waits for another queue's sequence number. -/
  | cmdWait (ctx q : Nat)
  /-- CMD_MARKER (R260): Command entry that completes at once. -/
  | cmdMarker (ctx q : Nat)
  /-- NODE_START (R264): A graph node that has received its NPRED arrivals runs or is skipped. `insts` are the placed instances that firmware makes
  of the text of a grid node for its clusters. -/
  | nodeStart (ctx q node : Nat) (insts : List Placed)
  /-- NODE_COMPLETION (R264): A node completes, evaluates COND and sends arrivals, including back edges. -/
  | nodeCompletion (ctx q node : Nat)
  /-- COMPLETION_RECORD_WRITE (R408): The completion record is written once the ring has room; CRTAIL advances and MSI-X is sent. -/
  | completionRecordWrite (ctx q : Nat)
  /-- POINT_FIRE (R311): A frontier slot fires its lowest ready point. -/
  | pointFire (die fid : Nat)
  /-- POINT_COMPLETION (R312): A point's group ends and its jobs have completed, so its row word is updated. -/
  | pointCompletion (die fid point : Nat)
  /-- FRONTIER_RETIREMENT_EXPIRY (R320): The STOP watchdog expires and pre-emption of every point in flight is requested. -/
  | frontierRetirementExpiry (die fid : Nat)
  /-- MIRROR_UPDATE (R317): A change of an owned row word reaches a halo mirror. -/
  | mirrorUpdate (die fid row : Nat)
  /-- FRONTIER_START (R318): FRCMD START: reads the descriptor and starts a part in a slot. -/
  | frontierStart (die : Nat) (w0 : DWord)
  /-- FRONTIER_STOP (R320): FRCMD STOP: stops firing, withdraws unbound points and starts retirement. -/
  | frontierStop (die : Nat) (w0 : DWord)
  /-- FRONTIER_SAVE (R321): FRCMD SAVE: writes the slot image and frees the slot. -/
  | frontierSave (die : Nat) (w0 : DWord)
  /-- FRONTIER_RESTORE (R322): FRCMD RESTORE: reads an image into a free slot. -/
  | frontierRestore (die : Nat) (w0 : DWord)
  /-- FRONTIER_RESUME (R323): FRCMD RESUME: rebuilds the mirrors and resumes firing. -/
  | frontierResume (die : Nat) (w0 : DWord)
  /-- FRONTIER_RELEASE (R318): FRCMD RELEASE: frees a Complete or Faulted slot. -/
  | frontierRelease (die : Nat) (w0 : DWord)
  /-- STOP (R383): PRCMD STOP: a team is asked to stop at clause boundaries or waits. -/
  | stop (w0 : DWord)
  /-- TEAM_STOPPED (R383): When every group and sequencer of the team has stopped, its storage becomes evictable. -/
  | teamStopped (team : Nat)
  /-- STOP_WATCHDOG_EXPIRY (R383): The stop watchdog expires and firmware is informed. -/
  | stopWatchdogExpiry (team : Nat) (terminate : Bool)
  /-- COMMIT_POINT_SAVE (R339): A pending speculative context is saved when every group has ended or is at a commit point. -/
  | commitPointSave (ctx : Nat)
  /-- COMMIT_WATCHDOG_EXPIRY (R341): The commit watchdog expires and firmware is informed. -/
  | commitWatchdogExpiry (ctx : Nat) (terminate : Bool)
  /-- FLUSH (R386): PRCMD FLUSH: claims every unsaved granule of a team. -/
  | flush (w0 : DWord)
  /-- RESTORE (R388): PRCMD RESTORE: checks capacity and binds a team image. -/
  | restore (w0 : DWord)
  /-- RESUME (R386): PRCMD RESUME: withdraws a stop or ends a debug halt. -/
  | resume (w0 : DWord)
  /-- RESUMEG (R373): PRCMD RESUMEG: continues a frozen group as captured. Before it resumes a group that a tier-miss froze, firmware
  brings the page in to `frame` (R209). -/
  | resumeg (w0 : DWord) (frame : Nat)
  /-- FORWARD (R373): PRCMD FORWARD: delivers a frozen fault to the handler. -/
  | forward (w0 : DWord)
  /-- STREAM_AFTER_FIN (R336): After a slot.fin, the network engine acquires the header and sends the new final prefix, with hold-back. -/
  | streamAfterFin (conn records : Nat)
  /-- SEGMENT_RECEIVE (R303): A received segment or frame is placed in the receive ring for the host. -/
  | segmentReceive (port : Nat) (conn : Option Nat) (bytes : List Byte)
  /-- FIN_ACKED (R303): The FIN of a closing connection is acknowledged, and ST becomes 5. -/
  | finAcked (conn : Nat)
  /-- RST_RECEIVED (R303): A received RST fails the connection. -/
  | rstReceived (conn : Nat)
  /-- RETRANSMISSION_TIMEOUT (R302): A TCP retransmission timer expires, possibly reaching the limit that fails the connection. -/
  | retransmissionTimeout (conn : Nat) (limit : Bool)
  /-- CONNECTION_COMMIT (R303): A host write to w0 of a connection entry commits it, or is ignored and reported. -/
  | connectionCommit (conn : Nat) (w0 : DWord)
  /-- CREATE (R406): Mailbox command that creates a context. -/
  | create (root : Nat)
  /-- DESTROY (R405): Mailbox command that destroys a context. -/
  | destroy
  /-- QUEUE (R405): Mailbox command that sets up or resets a command queue. -/
  | queue
  /-- RULE (R328): Mailbox command that writes a rule word. -/
  | rule
  /-- NETCFG (R409): Mailbox command that installs the network configuration block. -/
  | netcfg
  /-- ATTEST (R402): Mailbox command that writes a signed attestation report. -/
  | attest
  /-- MANIFEST (R400): Mailbox command that compares a manifest and writes the result. -/
  | manifest
  /-- MAP (R405): Mailbox command that maps zeroed pages. -/
  | map (frames tables : List Nat)
  /-- DOORBELL_WRITE (R407): The host advances a queue's TAIL, or the write is ignored if it would overrun. -/
  | doorbellWrite (ctx q : Nat) (tail : Word)
  /-- CRHEAD_WRITE (R408): The host consumes completion records, or the write is ignored if it would overrun. -/
  | crheadWrite (ctx : Nat) (v : Word)
  /-- HOST_APERTURE_READ (R404): A host read through BAR2 is translated under the context's key. -/
  | hostApertureRead (off n : Nat)
  /-- HOST_APERTURE_WRITE (R404): A host posted write through BAR2 is performed at sys or dropped on a fault. -/
  | hostApertureWrite (off : Nat) (bytes : List Byte)
  /-- CONFIG_REQUEST (R403): A PCIe configuration request completes with Retry Status until firmware runs. -/
  | configRequest
  /-- LINK_FAILURE (R411): A Fledenlink link stays unrecovered for 1 ms, and its jobs fail. -/
  | linkFailure (link : Nat)
  /-- EXPANDER_LOSS (R410): Loss of a CXL expander ends the contexts that hold tier pages on it. -/
  | expanderLoss (port : Nat)
  /-- CORE_FAILURE (R13): Firmware reports a failed core, which is marked DOWN and removed from dispatch. -/
  | coreFailure (core : Nat)
  /-- PACKAGE_RESET (R415): Power-on reset starts the boot ROM, identity derivation, self-test and the bundle fetch. -/
  | packageReset (defects : List Site)
  /-- BUNDLE_FETCH_DONE (R414): A bundle fetch ends, and on verification the firmware starts; otherwise the next target is tried. -/
  | bundleFetchDone (bundle : Option Bundle) (expanders : List Nat)
  /-- BOOT_RETRY_EXPIRY (R415): The 1 s wait after a failed round of targets expires, and the list starts again. -/
  | bootRetryExpiry
  /-- REGISTER_WRITE (R6): A write to a register with no row of its own, under its access codes. -/
  | registerWrite (r : Reg) (v : DWord)
  /-- FLEDENLINK_PEER_ACCESS (R412): A copy-engine read or write from a peer device arrives over Fledenlink and is performed on this device's HBM under the carried key identifier. -/
  | fledenlinkPeerAccess (key pa n : Nat) (write : Option (List Byte))
  /-- KEY_INSTALL (R210): Firmware installs an AES-256 key pair under an owner key identifier, after which lines written under any old key no longer read as their plaintext. -/
  | keyInstall (key : Nat) (pair : BitVec 512)
  deriving DecidableEq, Repr

end Sys2Proof
end

