-- ==== Sys2Proof/Machine/OpTable.lean ====
section
/-!
DEFINITION. What the spec's encoding tables say of each instruction word: the major opcode of R72, the accepted lengths
and SUB values, the class of every operand field (R66), the TY and MOD values (R67, R68), and the bits of IMM32, PLACE and
EXT that are Z (R69, R70). From it come the illegal-instruction causes that depend on the word alone (R74) and the
registers that a word names (R121).
-/

namespace Sys2Proof

/-- The class of an operand field (R66), as an instruction's entry states it. -/
inductive FK where
  | z                     -- unused: Z, with its select bit
  | vec (n : Nat)         -- first of `n` vector registers
  | vecOnly               -- a vector register whose select bit must be 0 (cause 0x6, R141)
  | vs (n : Nat)          -- first of `n` vector registers, or uniform ones through the select bit
  | vsi                   -- as `vs 1`, or a BI immediate in field B
  | uni (n : Nat)         -- first of `n` uniform registers
  | unis (n : Nat)        -- as `uni`, with the select bit required (cause 0x6 without it)
  | unii                  -- a uniform register, or a BI immediate
  | unisi                 -- a uniform register through the select bit, or a BI immediate
  | pd                    -- predicate destination, p0 to p14
  | ps                    -- predicate source
  | tile (n : Nat)
  | cv
  | num (lo hi : Nat)     -- a number
  | mask (m : Nat)        -- a number whose bits outside `m` are Z
  | dU                    -- destination of an instruction marked U (R130)
  deriving DecidableEq, Repr

/-- The readings of MOD (R68). -/
inductive ModK where
  | none | satInt | rmSat | rm | mem | memPlain | fence | bar | barExp
  deriving DecidableEq, Repr

/-- The class of a named register, with its code RCL of R371. -/
inductive RegClass where
  | vector | uniform | tile | acc | cv
  deriving DecidableEq, Repr

/-- What the entry of an instruction says of one form of its word. -/
structure Desc where
  ok    : Bool := true               -- SUB and length accepted (cause 0x3)
  d     : FK := .z
  a     : FK := .z
  b     : FK := .z
  c     : FK := .z
  tys   : List Nat := [0]
  mod   : ModK := .none
  long  : Bool := false              -- marked L (R61)
  immZ  : Nat := 0                   -- bits of IMM32 that are Z
  place : Bool := false              -- PLACE names a core
  extZ  : Nat := 0xFFFFF             -- bits of EXT that are Z
  extra : List (Bool × Nat) := []    -- further conditions of the entry that word 0 shows: broken, cause
  far   : List (Bool × Nat) := []    -- those that read IMM32, PLACE or EXT
  regs  : List (RegClass × Nat × Nat) := []   -- registers named other than by a field's class: class, first, count
  deriving DecidableEq, Repr

/-- TY codes 0x0 to 0x6 (R67). -/
def tyInt : List Nat := [0, 1, 2, 3, 4, 5, 6]
/-- TY codes of the IEEE formats and BF16. -/
def tyFp : List Nat := [7, 8, 9]
/-- TY codes of the narrow formats. -/
def tyNb : List Nat := [10, 11, 12]

/-- Whether the form has length `l`. -/
def Fields.is (f : Fields) (l : Len) : Bool := f.len == l

/-- 64 or 96 bits, SUB 0. -/
def Fields.short (f : Fields) : Bool := f.len != .l128 && f.sub == 0#4

/-- 64 bits, SUB 0. -/
def Fields.only64 (f : Fields) : Bool := f.len == .l64 && f.sub == 0#4

/-- B of a form in which IMM32 replaces B (R69). -/
def immB (f : Fields) : FK := if f.len == .l64 then .vsi else .z

/-- The same for floating-point instructions, which take no BI immediate (R152). -/
def immBF (f : Fields) : FK := if f.len == .l64 then .vs 1 else .z

/-- IMM32[31:16] of a 16-bit immediate are Z (R153). -/
def immZF (f : Fields) : Nat := if f.ty == 7#4 then 0 else 0xFFFF0000

/-- Entry of R132: integer arithmetic with sources A and B. -/
def dInt (f : Fields) (m : ModK) : Desc :=
  { ok := f.short, d := .dU, a := .vs 1, b := immB f, tys := tyInt, mod := m }

/-- Entry of R134: logic with sources A and B. -/
def dLogic (f : Fields) : Desc := { ok := f.short, d := .dU, a := .vs 1, b := immB f }

/-- Entry of R134 with the one source A. -/
def dLogic1 (f : Fields) : Desc := { ok := f.only64, d := .dU, a := .vs 1 }

/-- Entry of R155 with sources A and B. -/
def dFp2 (f : Fields) (m : ModK) : Desc :=
  { ok := f.short, d := .dU, a := .vs 1, b := immBF f, tys := tyFp, mod := m, immZ := immZF f }

/-- Entry of R155 with the one source A. -/
def dFp1 (f : Fields) (m : ModK) : Desc :=
  { ok := f.only64, d := .dU, a := .vs 1, tys := tyFp, mod := m }

/-- A 64-bit word in which only G and GN are used. -/
def dBare (f : Fields) : Desc := { ok := f.only64 }

/-- A of a memory address: a pair in global space, one register elsewhere (R214). -/
def addrA (glob : Bool) : FK := .vs (if glob then 2 else 1)

/-- `tld` and `tsv` (R185). -/
def dTile (f : Fields) (long : Bool) : Desc :=
  { ok := f.is .l128 && f.sub == 0#4, d := .tile 1, a := .uni 1, tys := [8, 9, 10, 11, 12], mod := .mem, long := long,
    extZ := 0xFF000 }

/-- `acc.ld` and `acc.st` (R189). -/
def dAcc (f : Fields) (long : Bool) : Desc :=
  { ok := f.len != .l64 && f.sub == 0#4, d := .num 0 255, a := .uni (if f.is .l96 then 2 else 1), b := .num 1 64,
    tys := [7], mod := .mem, long := long, immZ := if f.is .l96 then 3 else 0, extZ := 0xFF000,
    extra := [(f.d.toNat + f.b.toNat > 256, 6)],
    regs := [(.acc, f.d.toNat, f.b.toNat)] }

/-- The row instructions that write `n` destination rows or one result row (R193). -/
def dRow (f : Fields) (ok : Bool) (b : FK) (dn bn : Nat) : Desc :=
  let n := f.c.toNat
  { ok := ok, d := .num 0 255, a := .num 0 255, b := b, c := .num 1 64, tys := [7],
    extra := [(f.a.toNat + n > 256 || f.d.toNat + dn > 256 || f.b.toNat + bn > 256, 6)],
    regs := [(.acc, f.d.toNat, dn), (.acc, f.a.toNat, n)] ++ (if bn = 0 then [] else [(.acc, f.b.toNat, bn)]) }

/-- The registers `rgn` names (R123): the set bits of MASK over the bases. -/
def rgnSet (f : Fields) : List Nat :=
  let m := f.imm.toNat
  if f.len == .l96 then
    ((upto 32).filter (bit m)).map (f.a.toNat + ·)
  else
    let base := fun w => match w with
      | 0 => f.a.toNat | 1 => f.b.toNat | 2 => f.c.toNat | _ => f.ext.toNat % 256
    ((upto 32).filter (bit m)).map fun i => base (i / 8) + i % 8

/-- The CSRs listed as 64 bits wide (R126, R288, R345, R369). -/
def csrWide (n : Nat) : Bool :=
  n == 0x011 || (0x020 ≤ n && n ≤ 0x022) || n == 0x030 || (0x040 ≤ n && n ≤ 0x047) || n == 0x058 || n == 0x05A
    || n == 0x05B || n == 0x060 || n == 0x061 || n == 0x402 || (0x411 ≤ n && n ≤ 0x418) || n == 0x440

/-- The 12-bit CSR number SUB:C of R72. -/
def Fields.csr (f : Fields) : Nat := f.sub.toNat * 256 + f.c.toNat

/-- `ld` and its relatives: length accepted for a space (R218). -/
def ldLen (f : Fields) (cluster : Bool) : Bool := if cluster then f.len == .l128 else f.len != .l128

/-- B of a memory address (R214). -/
def addrB (f : Fields) : FK := if f.len == .l64 then .vsi else .z

/-- A store (R218). -/
def dSt (f : Fields) (ok : Bool) : Desc :=
  { ok := ok, a := addrA (f.sub == 0#4 || f.sub == 8#4), b := addrB f, c := .vs 1, tys := [0, 1, 2, 3, 4, 5, 6, 7, 8, 9],
    mod := .mem, place := true }

/-- `atom` and `red` (R226). -/
def dAtom (f : Fields) (red : Bool) : Desc :=
  let op := f.sub.toNat % 8
  let spad := f.sub.toNat ≥ 8
  { ok := (spad || f.len != .l128) && (!red || op < 6), d := if red then .z else .vec 1, a := addrA (!spad), b := addrB f,
    c := .vs (if op = 7 then 2 else 1), tys := if op ≤ 2 then [1, 2, 7] else [0], mod := .mem, long := !red, place := true }

/-- What the spec's entries say of an instruction's word; `none` for an event, which has no word. -/
def desc : Instr → Option Desc
  | .nop f | .exit f | .yield f | .tfence f | .tret f | .halt f | .commit f | .aflush f | .fenceXp f => some (dBare f)
  | .br f => some { ok := f.is .l96 && f.sub == 0#4 }
  | .brc f => some { ok := f.is .l96 && f.sub.toNat ≤ 1, a := .vs 1 }
  | .brx f | .ret f => some { ok := f.only64, a := .vs 2 }
  | .call f => some { ok := f.short, d := .vec 2, a := if f.is .l64 then .vs 2 else .z }
  | .rejoin f => some { ok := f.short, a := if f.is .l64 then .vs 1 else .z }
  | .vote f => some { ok := f.is .l64 && f.sub.toNat ≤ 3, d := if f.sub == 2#4 then .uni 1 else .pd, a := .ps }
  | .add f | .sub f | .mul f => some (dInt f .satInt)
  | .mulh f | .min f | .max f | .idiv f | .irem f => some (dInt f .none)
  | .mad f => some { dInt f .satInt with c := .vs 1 }
  | .madh f => some { dInt f .none with c := .vs 1 }
  | .abs f => some { ok := f.only64, d := .dU, a := .vs 1, tys := [1, 3, 5], mod := .satInt }
  | .neg f => some { ok := f.only64, d := .dU, a := .vs 1, tys := tyInt, mod := .satInt }
  | .and f | .or f | .xor f | .andn f | .shl f | .shr f | .sar f | .rotl f => some (dLogic f)
  | .not f | .clz f | .popc f | .brev f => some (dLogic1 f)
  | .bfx f => some { ok := f.short, d := .dU, a := .vs 1, c := if f.is .l64 then .vs 1 else .z, tys := [1, 2],
                     immZ := 0xFFFFC0E0 }
  | .bfi f => some { ok := f.short, d := .dU, a := .vs 1, b := .vsi, c := if f.is .l64 then .vs 1 else .z,
                     immZ := 0xFFFFC0E0 }
  | .lea f => some { ok := f.short, d := .dU, a := .vs 1, b := .vsi, c := .num 0 7 }
  | .cmp f => some { ok := f.len != .l128 && f.sub.toNat ≤ 5, d := .pd, a := .vs 1, b := immB f, tys := tyInt }
  | .csel f => some { ok := f.only64, d := .vec 1, a := .vs 1, b := .vsi, c := .ps }
  | .mov f => some { ok := f.only64, d := .vec 1, a := .vs 1 }
  | .movi f => some { ok := f.is .l96 && f.sub == 0#4, d := .vec 1 }
  | .movs f => some { ok := f.short, d := .uni 1, a := if f.is .l64 then .unis 1 else .z }
  | .shfl f => some { ok := f.len != .l128 && f.sub.toNat ≤ 3, d := .vec 1, a := .vecOnly, b := .vsi,
                      immZ := 0xFFFFFFF8, far := [(f.imm.toNat % 8 ≥ 6, 6)] }
  | .rdlane f => some { ok := f.short, d := .uni 1, a := .vec 1, b := if f.is .l64 then .unisi else .z }
  | .lid f => some { ok := f.only64, d := .vec 1 }
  | .fadd f | .fsub f | .fmul f | .fdiv f => some (dFp2 f .rmSat)
  | .ffma f => some { dFp2 f .rmSat with c := .vs 1 }
  | .fmin f | .fmax f => some (dFp2 f .none)
  | .fcmp f => some { dFp2 f .none with ok := f.len != .l128 && f.sub.toNat ≤ 7, d := .pd }
  | .fclass f => some (dFp1 f .none)
  | .fcvt f =>
      let s := f.sub.toNat; let t := f.ty.toNat
      let fp := fun x => 7 ≤ x && x ≤ 9
      let int := fun x => 1 ≤ x && x ≤ 6
      let nb := fun x => 10 ≤ x && x ≤ 12
      let toNb := s == 7 && nb t
      let ofNb := nb s && fp t
      let pair := (fp s && fp t && s != t) || (fp s && int t) || (int s && fp t) || toNb || ofNb
      some { ok := f.is .l64 && s ≤ 12, d := if toNb || ofNb then .vec 1 else .dU, a := .vs 1,
             b := if toNb || ofNb then .vs 1 else .z, tys := if pair then [t] else [],
             mod := if toNb then .none else if int t then .rm else .rmSat }
  | .frnd f => some (dFp1 f .rm)
  | .frcp f | .frsq f | .fexp2 f | .flog2 f => some (dFp1 f .rmSat)
  | .hpack f => some { ok := f.only64, d := .dU, a := .vs 1, b := .vs 1, tys := [8, 9], mod := .rmSat }
  | .hunpack f => some { ok := f.is .l64 && f.sub.toNat ≤ 1, d := .dU, a := .vs 1, tys := [8, 9] }
  | .nbscale f => some { ok := f.only64, d := .uni 1, a := .vs 1, tys := tyNb }
  | .nbpack f => some { ok := f.only64, d := .vec 1, a := .vs 1, b := .uni 1, tys := tyNb }
  | .nbunpack f => some { ok := f.only64, d := .vec 1, a := .vec 1, b := .uni 1, tys := tyNb, mod := .rm }
  | .lmv f =>
      let n := if f.sub == 0#4 then 4 else 8
      let size := if f.ty == 7#4 then 4 else 2
      some { ok := f.is .l96 && f.sub.toNat ≤ 1, d := .vec n, a := .vec n, tys := [7, 9], mod := .rm,
             immZ := 0xFFFF0000 + (n * n * size - 1) }
  | .rnd f => some { ok := f.only64, d := .vec 4, a := .vs 4 }
  | .sign f => some { ok := f.only64, a := .cv }
  | .mma f =>
      let kt := if f.sub == 0#4 then 1 else f.ext.toNat % 8 + 1
      some { ok := (f.is .l64 && f.sub == 0#4) || (f.is .l128 && f.sub == 1#4), d := .num 0 255, a := .tile kt,
             b := if f.sub == 0#4 then .tile 1 else .uni 1, c := .mask 1, tys := [8, 9, 10, 11, 12], long := true,
             immZ := 0xFFFC0003, place := true, extZ := 0xFFFC0,
             extra := [(f.d.toNat % 16 != 0 || f.d.toNat > 192, 6)], far := [(f.c.toNat % 2 = 1 && kt > 1, 4)],
             regs := [(.acc, f.d.toNat, 64)] }
  | .tld f => some (dTile f true)
  | .tsv f => some (dTile f false)
  | .tzero f => some { ok := f.only64, d := .tile 1 }
  | .tpois f => some { ok := f.only64, d := .tile 1, a := .uni 1, b := .uni 1, c := .num 0 1 }
  | .accLd f => some (dAcc f true)
  | .accSt f => some (dAcc f false)
  | .accRd f => some { ok := f.only64, d := .vec 1, a := .num 0 255, b := .mask 0xA0,
                       c := if bit f.b.toNat 7 then .pd else .z, tys := [7], long := true,
                       regs := [(.acc, f.a.toNat, 1)] }
  | .accZero f => some { ok := f.only64, d := .num 0 255, b := .num 1 64, extra := [(f.d.toNat + f.b.toNat > 256, 6)],
                         regs := [(.acc, f.d.toNat, f.b.toNat)] }
  | .mmask f => some { ok := f.is .l96 && f.sub == 0#4, a := .ps, immZ := 0xFFFFFFF0 }
  | .rowMax f | .rowSum f => some (dRow f (f.is .l64) .z 1 0)
  | .rowExp f => some (dRow f (f.len != .l128) (.num 0 255) f.c.toNat 1)
  | .rowScale f => some (dRow f (f.len != .l128) (if f.is .l64 then .num 0 255 else .z) f.c.toNat
                          (if f.is .l64 then 1 else 0))
  | .rowAdd f => some (dRow f (f.is .l64) (.num 0 255) f.c.toNat f.c.toNat)
  | .rowCvt f => some { ok := f.is .l64, d := .tile 1, a := .num 0 192, tys := [8, 9, 10, 11, 12],
                        regs := [(.acc, f.a.toNat, 64)] }
  | .pand f | .por f | .pxor f => some { ok := f.only64, d := .pd, a := .ps, b := .ps }
  | .pnot f | .pmov f => some { ok := f.only64, d := .pd, a := .ps }
  | .pset f => some { ok := f.short, d := .pd, a := if f.is .l64 then .vs 1 else .z, immZ := 0xFFFF0000 }
  | .pget f => some { ok := f.only64, d := .vec 1, a := .ps }
  | .pbit f => some { ok := f.only64, d := .pd, a := .ps, b := .vsi, c := .num 0 3 }
  | .ld f => some { ok := f.sub.toNat ≤ 3 && ldLen f (f.sub == 2#4), d := .vec 1, a := addrA (f.sub == 0#4), b := addrB f,
                    tys := [0, 1, 2, 3, 4, 5, 6, 7, 8, 9], mod := if f.sub == 3#4 then .memPlain else .mem, long := true,
                    place := true }
  | .st f => some (dSt f (f.sub.toNat ≤ 2 && ldLen f (f.sub == 2#4)))
  | .stGDirect f => some (dSt f (f.sub == 8#4 && f.len != .l128))
  | .ldProbe f => some { ok := f.short, d := .vec 1, a := .vs 2, b := addrB f, c := .pd,
                         tys := [0, 1, 2, 3, 4, 5, 6, 7, 8, 9], mod := .mem, long := true }
  | .atom f => some (dAtom f false)
  | .red f => some (dAtom f true)
  | .fence f => some { ok := f.only64, mod := .fence }
  | .pf f => some { ok := f.short, a := .vs 2, b := addrB f }
  | .cstLd f =>
      let off := f.imm.toNat % 65536; let n := bits f.imm.toNat 24 16
      some { ok := f.is .l96 && f.sub == 0#4, a := .unis 2, long := true, immZ := 0xFE000000,
             far := [(off % 128 != 0 || n = 0 || n > 256 || off + 128 * n > 65536, 6)] }
  | .rgn f =>
      some { ok := f.len != .l64 && f.sub == 0#4, a := .vec 0, b := if f.is .l96 then .z else .vec 0,
             c := if f.is .l96 then .z else .vec 0, extZ := 0xFFF00, far := [((rgnSet f).any (· > 255), 6)],
             regs := (rgnSet f).map fun r => (.vector, r, 1) }
  | .spill f => some { ok := f.short, a := .vec f.b.toNat, b := .num 1 32, c := .uni 2 }
  | .fill f => some { ok := f.short, d := .vec f.b.toNat, b := .num 1 32, c := .uni 2, long := true }
  | .give f => some { ok := f.only64, b := .num 1 32 }
  | .claim f => some { ok := f.only64, d := .pd, b := .num 1 32 }
  | .rdidx f => some { ok := f.only64, d := .vec 1, a := .vs 1 }
  | .wridx f => some { ok := f.only64, a := .vs 1, b := .vs 1 }
  | .fork f =>
      let s := f.sub.toNat; let nf := bit f.imm.toNat 31
      some { ok := f.is .l96 && 1 ≤ s && s ≤ 7, a := if bit s 0 then .uni 1 else .z, b := if bit s 1 then .uni 1 else .z,
             c := if bit s 2 then .uni 1 else .z, immZ := if nf then 0x7FFFFFFF else 0x7FFC0000,
             far := [(!nf && f.imm.toNat % 16 != 0, 6)] }
  | .rdv f => some { ok := f.is .l64 && 1 ≤ f.sub.toNat && f.sub.toNat ≤ 7, d := .pd, a := .uni 1 }
  | .job f => some { ok := f.only64, a := .uni 1 }
  | .cp f => some { ok := (f.is .l64 && f.sub.toNat ≤ 1) || (f.is .l96 && f.sub == 0#4), d := .num 0 63, a := .uni 2,
                    b := .uni 1, c := .uni 1, immZ := 0x7FFC0000,
                    far := [(f.is .l96 && !bit f.imm.toNat 31, 5), (f.is .l96 && f.imm.toNat % 8 != 0, 6)] }
  | .spawn f => some { ok := f.only64, a := .uni 2, b := .uni 8 }
  | .post f => some { ok := f.short, a := if f.is .l64 then .uni 1 else .z }
  | .eflag f => some { ok := f.only64, b := .num 0 7 }
  | .ewait f => some { ok := f.short, b := if f.is .l64 then .num 1 255 else .z,
                       far := [(f.is .l96 && f.imm == 0#32, 6)] }
  | .eloop f =>
      let off := f.imm.toNat % 65536
      some { ok := f.is .l96 && f.sub == 0#4,
             far := [(f.imm.toNat / 65536 = 0 || off < 32768 || off % 4 != 0, 6)] }
  | .eend f => some { ok := f.only64 }
  | .slotLd f => some { ok := f.short, d := .vec 2, a := .uni 2, b := .vsi, mod := .mem, long := true }
  | .slotSc f => some { ok := f.only64, d := .pd, a := .uni 2, b := .vsi, c := .vs 2 }
  | .slotFin f => some { ok := f.is .l96 && f.sub == 0#4, d := .uni 1, a := .uni 2, immZ := 0xFFFFFFF0 }
  | .pvt f => some { ok := f.only64, d := .vec 2, a := .vs 1, b := .vsi, tys := [1, 2, 7, 8, 9],
                     extra := [(f.bi && f.ty.toNat ≥ 7, 5)] }
  | .bar f => some { ok := f.short, d := .pd, a := .uni 1, b := .unii, mod := .bar,
                     extra := [(f.bi && (f.b.toNat = 0 || f.b.toNat ≥ 128), 6)] }
  | .barExp f => some { ok := f.short, a := .uni 1, b := if f.is .l64 then .unii else .z, mod := .barExp }
  | .twaitAny f | .twaitAll f => some { ok := f.short, a := if f.is .l64 then .uni 2 else .z,
                                        c := if f.is .l64 then .z else .mask 1 }
  | .tffr f => some { ok := f.only64, d := .uni 1, a := .uni 2 }
  | .fwait f => some { ok := f.only64, b := .num 0 255, c := .mask 15, extra := [(f.b == 0#8 && f.c.toNat % 16 = 0, 6)] }
  | .csrR f => some { ok := f.is .l64, d := .uni (if csrWide f.csr then 2 else 1), c := .num 0 255 }
  | .csrW f | .fstatWrite f | .cvdefWrite f | .merrlog0Write f =>
      some { ok := f.is .l64, a := .uni (if csrWide f.csr then 2 else 1), c := .num 0 255 }
  | .trap f | .brk f => some { ok := f.only64, b := .num 0 255 }
  | _ => none

/-- Whether every source that the form reads is a uniform register or an immediate (R130). -/
def srcUniform : FK → Bool → Bool → Bool
  | .vec _, _, _ | .vecOnly, _, _ => false
  | .vs _, sel, _ => sel
  | .vsi, sel, bi => sel || bi
  | _, _, _ => true

/-- Uniform execution of R130: the destination is marked U and no source is a vector register. -/
def Desc.uniform (k : Desc) (f : Fields) : Bool :=
  k.d == .dU && srcUniform k.a f.ua false && srcUniform k.b f.ub f.bi && srcUniform k.c f.uc false

/-- Conditions of R66 on one field: (a Z bit is set, the number is out of its class's range). -/
def fieldBreaks (k : FK) (v : Nat) (sel bi uniform : Bool) : Bool × Bool :=
  match k with
  | .z => (v != 0 || sel || bi, false)
  | .vec n => (sel || bi, v + n > 256)
  | .vecOnly => (bi, sel)
  | .vs n => (bi, if sel then v + n > 64 else v + n > 256)
  | .vsi => if bi then (sel, false) else (false, sel && v > 63)
  | .uni n => (sel || bi, v + n > 64)
  | .unis n => (bi, !sel || v + n > 64)
  | .unii => if bi then (sel, false) else (sel, v > 63)
  | .unisi => if bi then (sel, false) else (false, !sel || v > 63)
  | .pd => (sel || bi, v > 14)
  | .ps => (sel || bi, v > 15)
  | .tile n => (sel || bi, v + n > 8)
  | .cv => (sel || bi, v > 7)
  | .num lo hi => (sel || bi, v < lo || v > hi)
  | .mask m => (sel || bi || v &&& (255 - m) != 0, false)
  | .dU => (false, uniform && v > 63)

/-- The MOD values that a reading accepts (R68, R129, R152, R229, R355, R356); `.sat` on `.b32` is refused (R132). -/
def modOk (k : ModK) (m ty : Nat) : Bool :=
  match k with
  | .none | .memPlain => m == 0
  | .satInt => m == 0 || (m == 4 && ty != 0)
  | .rmSat => m < 8
  | .rm => m < 4
  | .mem => m == 0 || (8 ≤ m && m ≤ 12)
  | .fence => 8 ≤ m && m ≤ 12
  | .bar => 9 ≤ m && m ≤ 11
  | .barExp => 1 ≤ m && m ≤ 3

/-- The fields of an instruction's word; `none` for an event. -/
def fieldsOf : Instr → Option Fields
  | .nop f | .br f | .brc f | .brx f | .call f | .ret f | .rejoin f | .exit f | .yield f | .vote f | .add f | .sub f
  | .mul f | .mulh f | .mad f | .madh f | .min f | .max f | .abs f | .neg f | .idiv f | .irem f | .and f | .or f | .xor f
  | .not f | .andn f | .shl f | .shr f | .sar f | .rotl f | .clz f | .popc f | .brev f | .bfx f | .bfi f | .lea f | .cmp f
  | .csel f | .mov f | .movi f | .movs f | .shfl f | .rdlane f | .lid f | .fadd f | .fsub f | .fmul f | .ffma f | .fdiv f
  | .fmin f | .fmax f | .fcmp f | .fclass f | .fcvt f | .frnd f | .frcp f | .frsq f | .fexp2 f | .flog2 f | .hpack f
  | .hunpack f | .nbscale f | .nbpack f | .nbunpack f | .lmv f | .rnd f | .sign f | .mma f | .tld f | .tsv f | .tzero f
  | .tpois f | .accLd f | .accSt f | .accRd f | .accZero f | .mmask f | .rowMax f | .rowSum f | .rowExp f | .rowScale f
  | .rowAdd f | .rowCvt f | .pand f | .por f | .pxor f | .pnot f | .pmov f | .pset f | .pget f | .pbit f | .ld f | .st f
  | .stGDirect f | .ldProbe f | .atom f | .red f | .fence f | .fenceXp f | .pf f | .cstLd f | .aflush f | .rgn f | .spill f
  | .fill f | .give f | .claim f | .rdidx f | .wridx f | .fork f | .rdv f | .job f | .cp f | .spawn f | .post f | .eflag f
  | .ewait f | .eloop f | .eend f | .slotLd f | .slotSc f | .slotFin f | .commit f | .pvt f | .bar f | .barExp f
  | .twaitAny f | .twaitAll f | .tffr f | .fwait f | .csrR f | .csrW f | .fstatWrite f | .cvdefWrite f | .merrlog0Write f
  | .tfence f | .tret f | .trap f | .brk f | .halt f => some f
  | _ => none

/-- Cause `n` of R74 where `b` holds. -/
def causeIf (b : Bool) (n : Nat) : List Nat := if b then [n] else []

/-- The causes of R74 that the word alone shows, apart from the opcode itself. -/
def wordCauses (k : Desc) (f : Fields) : List Nat :=
  let u := k.uniform f
  let bd := fieldBreaks k.d f.d.toNat false false u
  let ba := fieldBreaks k.a f.a.toNat f.ua false u
  let bb := fieldBreaks k.b f.b.toNat f.ub f.bi u
  let bc := fieldBreaks k.c f.c.toNat f.uc false u
  let place := f.row != 0#6 || f.col != 0#6
  causeIf (!k.ok) 3
    ++ causeIf (!k.tys.contains f.ty.toNat || !modOk k.mod f.mod.toNat f.ty.toNat || (f.g == 15#4 && f.gn)) 4
    ++ causeIf (bd.1 || ba.1 || bb.1 || bc.1 || f.imm.toNat &&& k.immZ != 0 || (!k.place && place)
        || f.ext.toNat &&& k.extZ != 0) 5
    ++ causeIf (bd.2 || ba.2 || bb.2 || bc.2) 6
    ++ (k.extra ++ k.far).flatMap (fun e => causeIf e.1 e.2)
    ++ causeIf (f.fs && !k.long) 9

/-- The lowest of a list of causes; 0 for none (R74). -/
def lowest : List Nat → Nat
  | [] => 0
  | [c] => c
  | c :: cs => Nat.min c (lowest cs)

/-- The lowest cause of R74 that a word shows whatever its IMM32, PLACE and EXT hold. -/
def nearCause (i : Instr) : Nat :=
  match desc i, fieldsOf i with
  | some k, some f => lowest (wordCauses { k with far := [] } f)
  | _, _ => 0

/-- The lowest cause of R74 that the word alone shows; 0 where the word is an instruction, and 0 for an event. -/
def staticCause (i : Instr) : Nat :=
  match desc i, fieldsOf i with
  | some k, some f => lowest (wordCauses k f)
  | _, _ => 0

/-- The registers that one field names (R121). -/
def fieldRegs (k : FK) (v : Nat) (sel bi uniform : Bool) : List (RegClass × Nat × Nat) :=
  match k with
  | .vec n => if n = 0 then [] else [(.vector, v, n)]
  | .vecOnly => [(.vector, v, 1)]
  | .vs n => [(if sel then .uniform else .vector, v, n)]
  | .vsi | .unii | .unisi => if bi then [] else [(if sel || k != .vsi then .uniform else .vector, v, 1)]
  | .uni n | .unis n => [(.uniform, v, n)]
  | .tile n => [(.tile, v, n)]
  | .cv => [(.cv, v, 1)]
  | .dU => [(if uniform then .uniform else .vector, v, 1)]
  | _ => []

/-- The registers that an instruction's word names, with their classes: the static fields of R121 and R174. -/
def staticRegs (i : Instr) : List (RegClass × Nat × Nat) :=
  match desc i, fieldsOf i with
  | some k, some f =>
      let u := k.uniform f
      fieldRegs k.d f.d.toNat false false u ++ fieldRegs k.a f.a.toNat f.ua false u
        ++ fieldRegs k.b f.b.toNat f.ub f.bi u ++ fieldRegs k.c f.c.toNat f.uc false u ++ k.regs
  | _, _ => []

/-- Whether R72 marks the instruction L. -/
def isLong (i : Instr) : Bool := match desc i with | some k => k.long | none => false

/-- Whether the instruction executes uniformly (R130). -/
def isUniform (i : Instr) : Bool :=
  match desc i, fieldsOf i with
  | some k, some f => k.uniform f
  | _, _ => false

/-- The major opcode of R72, and for the row instructions the SUB value of R193; `none` for an event. -/
def opcodeOf : Instr → Option Nat
  | .nop _ => some 0x01 | .br _ => some 0x02 | .brc _ => some 0x03 | .brx _ => some 0x04 | .call _ => some 0x05
  | .ret _ => some 0x06 | .rejoin _ => some 0x07 | .exit _ => some 0x08 | .yield _ => some 0x09 | .vote _ => some 0x0A
  | .add _ => some 0x20 | .sub _ => some 0x21 | .mul _ => some 0x22 | .mulh _ => some 0x23 | .mad _ => some 0x24
  | .madh _ => some 0x25 | .min _ => some 0x26 | .max _ => some 0x27 | .abs _ => some 0x28 | .neg _ => some 0x29
  | .idiv _ => some 0x2A | .irem _ => some 0x2B | .and _ => some 0x30 | .or _ => some 0x31 | .xor _ => some 0x32
  | .not _ => some 0x33 | .andn _ => some 0x34 | .shl _ => some 0x35 | .shr _ => some 0x36 | .sar _ => some 0x37
  | .rotl _ => some 0x38 | .clz _ => some 0x39 | .popc _ => some 0x3A | .brev _ => some 0x3B | .bfx _ => some 0x3C
  | .bfi _ => some 0x3D | .lea _ => some 0x40 | .cmp _ => some 0x41 | .csel _ => some 0x42 | .mov _ => some 0x43
  | .movi _ => some 0x44 | .movs _ => some 0x45 | .shfl _ => some 0x48 | .rdlane _ => some 0x49 | .lid _ => some 0x4A
  | .fadd _ => some 0x60 | .fsub _ => some 0x61 | .fmul _ => some 0x62 | .ffma _ => some 0x63 | .fmin _ => some 0x64
  | .fmax _ => some 0x65 | .fcmp _ => some 0x66 | .fclass _ => some 0x67 | .fcvt _ => some 0x68 | .frnd _ => some 0x69
  | .frcp _ => some 0x6A | .frsq _ => some 0x6B | .fexp2 _ => some 0x6C | .flog2 _ => some 0x6D | .fdiv _ => some 0x6E
  | .hpack _ => some 0x6F | .hunpack _ => some 0x70 | .nbscale _ => some 0x78 | .nbpack _ => some 0x79
  | .nbunpack _ => some 0x7A | .lmv _ => some 0x80 | .rnd _ => some 0x81
  | .mma _ => some 0x90 | .sign _ => some 0x91 | .tld _ => some 0x92 | .tsv _ => some 0x93 | .tzero _ => some 0x94
  | .tpois _ => some 0x95 | .accLd _ => some 0x96 | .accSt _ => some 0x97 | .accRd _ => some 0x98 | .accZero _ => some 0x99
  | .mmask _ => some 0x9A | .rowMax _ | .rowSum _ | .rowExp _ | .rowScale _ | .rowAdd _ | .rowCvt _ => some 0xA0
  | .pand _ => some 0xA8 | .por _ => some 0xA9 | .pxor _ => some 0xAA | .pnot _ => some 0xAB | .pmov _ => some 0xAC
  | .pset _ => some 0xAD | .pget _ => some 0xAE | .pbit _ => some 0xAF
  | .ld _ => some 0xB0 | .st _ | .stGDirect _ => some 0xB1 | .ldProbe _ => some 0xB2 | .atom _ => some 0xB4
  | .red _ => some 0xB5 | .fence _ => some 0xB8 | .fenceXp _ => some 0xB9 | .pf _ => some 0xBA | .cstLd _ => some 0xBB
  | .aflush _ => some 0xBC | .rgn _ => some 0xC0 | .spill _ => some 0xC1 | .fill _ => some 0xC2 | .give _ => some 0xC3
  | .claim _ => some 0xC4 | .rdidx _ => some 0xC5 | .wridx _ => some 0xC6
  | .fork _ => some 0xD0 | .rdv _ => some 0xD1 | .job _ => some 0xD2 | .cp _ => some 0xD3 | .spawn _ => some 0xD4
  | .post _ => some 0xD5 | .eflag _ => some 0xD8 | .ewait _ => some 0xD9 | .eloop _ => some 0xDA | .eend _ => some 0xDB
  | .slotLd _ => some 0xE0 | .slotSc _ => some 0xE1 | .slotFin _ => some 0xE2 | .commit _ => some 0xE3 | .pvt _ => some 0xE4
  | .bar _ => some 0xE8 | .barExp _ => some 0xE9 | .twaitAny _ => some 0xEA | .twaitAll _ => some 0xEB
  | .tffr _ => some 0xEC | .fwait _ => some 0xED | .csrR _ => some 0xF0
  | .csrW _ | .fstatWrite _ | .cvdefWrite _ | .merrlog0Write _ => some 0xF1
  | .tfence _ => some 0xF2 | .tret _ => some 0xF3 | .trap _ => some 0xF4 | .brk _ => some 0xF5 | .halt _ => some 0xF6
  | _ => none

/-- Whether `.sat` is written (R68). -/
def Fields.sat (f : Fields) : Bool := f.mod.getLsbD 2

/-- The rounding mode MOD[1:0] (R68). -/
def Fields.rm (f : Fields) : Nat := f.mod.toNat % 4

/-- Scope of an ordered store, reduction or atomic (R68). -/
def Fields.scope (f : Fields) : Option Nat := if f.mod.getLsbD 3 then some (f.mod.toNat % 8) else none

/-- TY as a number. -/
def Fields.tyN (f : Fields) : Nat := f.ty.toNat

end Sys2Proof
end

