-- ==== Sys2Proof/WellFormed.lean ====
section
/-!
DEFINITION. Well-formed instructions: those whose word R74 does not refuse. The encoder writes such an instruction, and the
decoder gives nothing else.
-/

namespace Sys2Proof

/-- The fields that a length does not have are zero (R55, R70). -/
def Fields.fits (f : Fields) : Bool :=
  (f.len != .l64 || f.imm == 0#32) && (f.len == .l128 || (f.row == 0#6 && f.col == 0#6 && f.ext == 0#20))

/-- SUB tells the row instructions apart, SUB 8 the direct store, and the CSR number the writes that have a row of
their own in the table (R72, R93, R47, R366). -/
def Instr.kindOk : Instr → Bool
  | .rowMax f => f.sub == 0#4
  | .rowSum f => f.sub == 1#4
  | .rowExp f => f.sub == 2#4
  | .rowScale f => f.sub == 3#4
  | .rowAdd f => f.sub == 4#4
  | .rowCvt f => f.sub == 5#4
  | .fstatWrite f => f.csr == 0x010
  | .cvdefWrite f => 0x040 ≤ f.csr && f.csr ≤ 0x047
  | .merrlog0Write f => f.csr == 0x060
  | .csrW f => f.csr != 0x010 && !(0x040 ≤ f.csr && f.csr ≤ 0x047) && f.csr != 0x060
  | _ => true

/-- An instruction of the spec: it has a word, and R74 names no cause that the word alone shows. -/
def Instr.wf (i : Instr) : Bool :=
  match fieldsOf i with
  | some f => f.fits && i.kindOk && staticCause i == 0
  | none => false

end Sys2Proof
end

