-- ==== Sys2Proof/Decode.lean ====
section
/-!
DEFINITION. The decoder, total on any bits, and the encoder. A word is read as in R55, R58, R64, R69 and R70; what is no
instruction is refused with the lowest cause of R74.
-/

namespace Sys2Proof

/-- A clause header (R58). -/
structure Header where
  tf    : Bool := false
  count : BitVec 5 := 0#5
  bv    : Bool := false
  setb  : BitVec 4 := 0#4
  av    : Bool := false
  seta  : BitVec 4 := 0#4
  wait  : BitVec 12 := 0#12
  deriving DecidableEq, Repr

/-- What a word is: a clause header, an instruction, or neither, with the lowest cause of R74. -/
inductive Decoded where
  | header (h : Header)
  | instr (i : Instr)
  | bad (cause : Nat)
  deriving DecidableEq, Repr

/-- Length in bytes (R55). -/
def Len.bytes : Len → Nat
  | .l64 => 8 | .l96 => 12 | .l128 => 16

/-- LEN of R55; `none` for the illegal value. -/
def lenOf (c : BitVec 2) : Option Len :=
  if c = 1#2 then some .l64 else if c = 2#2 then some .l96 else if c = 3#2 then some .l128 else none

/-- The value of LEN (R55). -/
def Len.code : Len → BitVec 2
  | .l64 => 1#2 | .l96 => 2#2 | .l128 => 3#2

/-- Bits [lo + n - 1 : lo] of a 128-bit word. -/
def field (w : BitVec 128) (lo n : Nat) : BitVec n := w.extractLsb' lo n

/-- Bit `i` of a 128-bit word. -/
def fieldBit (w : BitVec 128) (i : Nat) : Bool := w.getLsbD i

/-- The fields of R64, R69 and R70 of a word of length `l`; those the length does not have are zero. -/
def fieldsOfWord (l : Len) (w : BitVec 128) : Fields :=
  { len := l
    g := field w 10 4, gn := fieldBit w 14, fs := fieldBit w 15
    d := field w 16 8, a := field w 24 8, b := field w 32 8, c := field w 40 8
    sub := field w 48 4, ty := field w 52 4, mod := field w 56 4
    ua := fieldBit w 60, ub := fieldBit w 61, uc := fieldBit w 62, bi := fieldBit w 63
    imm := match l with | .l64 => 0#32 | _ => field w 64 32
    row := match l with | .l128 => field w 96 6 | _ => 0#6
    col := match l with | .l128 => field w 102 6 | _ => 0#6
    ext := match l with | .l128 => field w 108 20 | _ => 0#20 }

/-- The instruction of a major opcode (R72), with the fields that pick among rows of one opcode: the constructor, or the
cause 0x2 of an unassigned opcode, or the cause 0x3 of a SUB that names no row instruction (R193). -/
def instrOf (op : Nat) (f : Fields) : Except Nat Instr :=
  match op with
  | 0x01 => .ok (.nop f) | 0x02 => .ok (.br f) | 0x03 => .ok (.brc f) | 0x04 => .ok (.brx f) | 0x05 => .ok (.call f)
  | 0x06 => .ok (.ret f) | 0x07 => .ok (.rejoin f) | 0x08 => .ok (.exit f) | 0x09 => .ok (.yield f)
  | 0x0A => .ok (.vote f)
  | 0x20 => .ok (.add f) | 0x21 => .ok (.sub f) | 0x22 => .ok (.mul f) | 0x23 => .ok (.mulh f) | 0x24 => .ok (.mad f)
  | 0x25 => .ok (.madh f) | 0x26 => .ok (.min f) | 0x27 => .ok (.max f) | 0x28 => .ok (.abs f) | 0x29 => .ok (.neg f)
  | 0x2A => .ok (.idiv f) | 0x2B => .ok (.irem f)
  | 0x30 => .ok (.and f) | 0x31 => .ok (.or f) | 0x32 => .ok (.xor f) | 0x33 => .ok (.not f) | 0x34 => .ok (.andn f)
  | 0x35 => .ok (.shl f) | 0x36 => .ok (.shr f) | 0x37 => .ok (.sar f) | 0x38 => .ok (.rotl f) | 0x39 => .ok (.clz f)
  | 0x3A => .ok (.popc f) | 0x3B => .ok (.brev f) | 0x3C => .ok (.bfx f) | 0x3D => .ok (.bfi f)
  | 0x40 => .ok (.lea f) | 0x41 => .ok (.cmp f) | 0x42 => .ok (.csel f) | 0x43 => .ok (.mov f) | 0x44 => .ok (.movi f)
  | 0x45 => .ok (.movs f) | 0x48 => .ok (.shfl f) | 0x49 => .ok (.rdlane f) | 0x4A => .ok (.lid f)
  | 0x60 => .ok (.fadd f) | 0x61 => .ok (.fsub f) | 0x62 => .ok (.fmul f) | 0x63 => .ok (.ffma f) | 0x64 => .ok (.fmin f)
  | 0x65 => .ok (.fmax f) | 0x66 => .ok (.fcmp f) | 0x67 => .ok (.fclass f) | 0x68 => .ok (.fcvt f)
  | 0x69 => .ok (.frnd f) | 0x6A => .ok (.frcp f) | 0x6B => .ok (.frsq f) | 0x6C => .ok (.fexp2 f)
  | 0x6D => .ok (.flog2 f) | 0x6E => .ok (.fdiv f) | 0x6F => .ok (.hpack f) | 0x70 => .ok (.hunpack f)
  | 0x78 => .ok (.nbscale f) | 0x79 => .ok (.nbpack f) | 0x7A => .ok (.nbunpack f) | 0x80 => .ok (.lmv f)
  | 0x81 => .ok (.rnd f)
  | 0x90 => .ok (.mma f) | 0x91 => .ok (.sign f) | 0x92 => .ok (.tld f) | 0x93 => .ok (.tsv f) | 0x94 => .ok (.tzero f)
  | 0x95 => .ok (.tpois f) | 0x96 => .ok (.accLd f) | 0x97 => .ok (.accSt f) | 0x98 => .ok (.accRd f)
  | 0x99 => .ok (.accZero f) | 0x9A => .ok (.mmask f)
  | 0xA0 =>
      match f.sub.toNat with
      | 0 => .ok (.rowMax f) | 1 => .ok (.rowSum f) | 2 => .ok (.rowExp f) | 3 => .ok (.rowScale f)
      | 4 => .ok (.rowAdd f) | 5 => .ok (.rowCvt f) | _ => .error 3
  | 0xA8 => .ok (.pand f) | 0xA9 => .ok (.por f) | 0xAA => .ok (.pxor f) | 0xAB => .ok (.pnot f) | 0xAC => .ok (.pmov f)
  | 0xAD => .ok (.pset f) | 0xAE => .ok (.pget f) | 0xAF => .ok (.pbit f)
  | 0xB0 => .ok (.ld f)
  | 0xB1 => if f.sub == 8#4 then .ok (.stGDirect f) else .ok (.st f)
  | 0xB2 => .ok (.ldProbe f) | 0xB4 => .ok (.atom f) | 0xB5 => .ok (.red f) | 0xB8 => .ok (.fence f)
  | 0xB9 => .ok (.fenceXp f) | 0xBA => .ok (.pf f) | 0xBB => .ok (.cstLd f) | 0xBC => .ok (.aflush f)
  | 0xC0 => .ok (.rgn f) | 0xC1 => .ok (.spill f) | 0xC2 => .ok (.fill f) | 0xC3 => .ok (.give f) | 0xC4 => .ok (.claim f)
  | 0xC5 => .ok (.rdidx f) | 0xC6 => .ok (.wridx f)
  | 0xD0 => .ok (.fork f) | 0xD1 => .ok (.rdv f) | 0xD2 => .ok (.job f) | 0xD3 => .ok (.cp f) | 0xD4 => .ok (.spawn f)
  | 0xD5 => .ok (.post f) | 0xD8 => .ok (.eflag f) | 0xD9 => .ok (.ewait f) | 0xDA => .ok (.eloop f)
  | 0xDB => .ok (.eend f)
  | 0xE0 => .ok (.slotLd f) | 0xE1 => .ok (.slotSc f) | 0xE2 => .ok (.slotFin f) | 0xE3 => .ok (.commit f)
  | 0xE4 => .ok (.pvt f) | 0xE8 => .ok (.bar f) | 0xE9 => .ok (.barExp f) | 0xEA => .ok (.twaitAny f)
  | 0xEB => .ok (.twaitAll f) | 0xEC => .ok (.tffr f) | 0xED => .ok (.fwait f)
  | 0xF0 => .ok (.csrR f)
  | 0xF1 =>
      if f.csr == 0x010 then .ok (.fstatWrite f)
      else if 0x040 ≤ f.csr && f.csr ≤ 0x047 then .ok (.cvdefWrite f)
      else if f.csr == 0x060 then .ok (.merrlog0Write f)
      else .ok (.csrW f)
  | 0xF2 => .ok (.tfence f) | 0xF3 => .ok (.tret f) | 0xF4 => .ok (.trap f) | 0xF5 => .ok (.brk f) | 0xF6 => .ok (.halt f)
  | _ => .error 2

/-- The fields of a clause header (R58). -/
def headerOfWord (w : BitVec 128) : Header :=
  { tf := fieldBit w 37, count := field w 32 5, bv := fieldBit w 31, setb := field w 27 4, av := fieldBit w 26
    seta := field w 22 4, wait := field w 10 12 }

/-- Causes of a clause header at offset `off` of its fetch block (R58, R56). -/
def headerCauses (off : Nat) (w : BitVec 128) (h : Header) : List Nat :=
  causeIf (field w 38 26 != 0#26) 5
    ++ causeIf ((h.bv && h.setb.toNat > 11) || (h.av && h.seta.toNat > 11)) 6
    ++ causeIf (off + 8 > 32) 7

/-- The fields that the decoder reads of a word at offset `off` of its fetch block: of one that crosses the boundary those of word 0
(R56). (DEDUCED, log entry 9) -/
def nearFields (off : Nat) (l : Len) (w : BitVec 128) : Fields :=
  if off + l.bytes > 32 then { fieldsOfWord l w with imm := 0#32, row := 0#6, col := 0#6, ext := 0#20 } else fieldsOfWord l w

/-- Causes of an instruction at offset `off` of its fetch block; one that crosses the boundary is tested for what its word 0 shows (R56, R74).
(DEDUCED, log entry 9) -/
def instrCauses (off : Nat) (i : Instr) (l : Len) : List Nat :=
  if off + l.bytes > 32 then
    match desc i, fieldsOf i with
    | some k, some f => wordCauses { k with far := [] } f ++ [7]
    | _, _ => [7]
  else
    match desc i, fieldsOf i with
    | some k, some f => wordCauses k f
    | _, _ => []

/-- The decoder: what the word at offset `off` of its 32-byte fetch block is (R55 to R58, R64 to R72, R74). -/
def decode (off : Nat) (w : BitVec 128) : Decoded :=
  match lenOf (field w 0 2) with
  | none => .bad 1
  | some l =>
      let op := (field w 2 8).toNat
      if op = 0 then
        if l = .l64 then
          let h := headerOfWord w
          match lowest (headerCauses off w h) with
          | 0 => .header h
          | c => .bad c
        else .bad 3
      else
        match instrOf op (nearFields off l w) with
        | .error c => .bad c
        | .ok i =>
            match lowest (instrCauses off i l) with
            | 0 => .instr i
            | c => .bad c

/-- The decoder on the bytes of a fetch block from an instruction's first byte on, in little-endian order (R3); bytes past
the end of the list read as zero. -/
def decodeBytes (off : Nat) (bs : List Byte) : Decoded := decode off (BitVec.ofNat 128 (leVal (bs.take 16)))

/-- The instruction that the decoder reads from the bits `w`, numbered as the opcode table numbers them. (DESIGN CHOICE, log entry 7) -/
def decodeTableWord (nbits w : Nat) : Option Instr :=
  match decodeBytes 0 (leBytes 16 (w % 2 ^ nbits)) with
  | .instr i => some i
  | _ => none

/-- One bit as a vector. -/
def bit1 (b : Bool) : BitVec 1 := BitVec.ofBool b

/-- Word 0 of R64. -/
def word0 (op : BitVec 8) (f : Fields) : BitVec 64 :=
  bit1 f.bi ++ bit1 f.uc ++ bit1 f.ub ++ bit1 f.ua ++ f.mod ++ f.ty ++ f.sub ++ f.c ++ f.b ++ f.a ++ f.d
    ++ bit1 f.fs ++ bit1 f.gn ++ f.g ++ op ++ f.len.code

/-- The encoder: the 128 bits of an instruction's longest form, with the parts that its length does not have zero (R64, R69,
R70); `none` for an event, which has no word. -/
def encode (i : Instr) : Option (BitVec 128) :=
  match opcodeOf i, fieldsOf i with
  | some op, some f => some (f.ext ++ f.col ++ f.row ++ f.imm ++ word0 (BitVec.ofNat 8 op) f)
  | _, _ => none

/-- The word of a clause header (R58). -/
def encodeHeader (h : Header) : BitVec 64 :=
  0#26 ++ bit1 h.tf ++ h.count ++ bit1 h.bv ++ h.setb ++ bit1 h.av ++ h.seta ++ h.wait ++ 0#8 ++ 1#2

end Sys2Proof
end

