-- ==== Sys2Proof/Machine/State.lean ====
section
/-!
DEFINITION. The state of the package as plain data: every register, table, queue and mark that the spec gives the machine,
and the few fields of the model's own that say which agent moves next and which uses of a free value came before.
-/

namespace Sys2Proof.Machine

open Sys2Proof

/-- A table of entries in rising order of their number; a number without an entry has the default the reader names. -/
abbrev Tab (α : Type) := List (Nat × α)

/-- The exited `lpc` (R35). -/
def exitedPc : DWord := BitVec.allOnes 64

/-- Why a lane does not issue (R36, R371). -/
inductive LaneWait where
  | run
  | rejoin (len : Nat)                            -- at a `rejoin` of `len` bytes, with the recorded mask (R49)
  | sign (cv : Nat)                               -- signed `cv` (R48)
  -- at the `bar` `f`, until PH differs from `ph`; whether the lane is active, and the arrival's order number (R356)
  | bar (team off : Nat) (ph : Bool) (f : Fields) (act : Bool) (ord : Nat)
  | commit                                        -- stopped at `commit` (R339)
  deriving DecidableEq, Repr

/-- A lane's place in its current clause (R59): the header's PC, the header, and the instructions issued since. -/
structure Clause where
  hpc  : Nat := 0
  hdr  : Header := {}
  done : Nat := 0
  deriving DecidableEq, Repr

/-- One lane (R35, R36, R41, R49, R59). -/
structure Lane where
  pc      : DWord := exitedPc      -- `lpc`
  wait    : LaneWait := .run
  mask    : Word := 0#32           -- recorded rejoin mask
  mark    : Bool := false          -- yield mark
  clause  : Option Clause := none  -- current clause; none before the first header
  came    : Nat := 0               -- PC of the instruction that led here (PCX of R371)
  jump    : Bool := false          -- that instruction was a transfer which the lane took (R147)
  waitHdr : Bool := false          -- the WAIT mask of the header it passed has not been met yet (R60)
  stopped : Bool := false          -- stopped for a stop request (R383)
  fence   : Option Nat := none     -- PC of the instruction that left a TF clause, while its trap-fence is due (R377)
  miss    : Option Nat := none     -- block of code that its fetch waits for (R36, R40)
  deriving DecidableEq, Repr

/-- The words of a trap record (R371). -/
structure TrapInfo where
  code   : Nat := 0
  pc     : Nat := 0
  ill    : Nat := 0
  pc2    : Nat := 0
  addr   : Nat := 0
  k      : Nat := 0
  gid    : Nat := 0
  rcl    : Nat := 0
  reg    : Nat := 0
  lane   : Nat := 0
  supp   : Bool := false
  info   : Nat := 0
  planes : Word := 0#32
  pcx    : Nat := 0
  deriving DecidableEq, Repr

/-- The trap state of a group (R370 to R373, R379, R257, R363). -/
structure TrapSt where
  inh     : Bool := false
  recva   : Nat := 0
  k       : Nat := 0                    -- progress that a `spill` or `fill` of the lanes `kLanes` resumes at
  kLanes  : Word := 0#32
  planes  : Word := 0#32                -- lanes of the faulting path of the trap delivered last
  supp    : Word := 0#32                -- lanes whose next instruction skips race and debug checks
  atEntry : Word := 0#32                -- lanes live at the delivery
  frozen  : Option TrapInfo := none     -- a trap taken and not yet delivered or ended
  toFw    : Bool := false               -- the frozen trap has been passed to firmware
  stall   : Bool := false               -- a ticket-stall fault is due
  since   : Nat := 0                    -- place in the order of entering (R178) at which the group was frozen or halted last (R420)
  till    : Nat := 0                    -- WTIME before which a tier-miss is not resumed (R209)
  owed    : List (Option Nat × DWord) := [] -- per lane at the delivery: PC of a trap-fence due (R377), and the lane's PC (R372)
  deriving DecidableEq, Repr

/-- The CSRs held per group (R92, R93, R127, R345, R362, R363, R366). -/
structure Csrs where
  fstat    : Word := 0#32
  ffirst   : DWord := 0#64
  gtime    : Nat := 0
  gtcmp    : Nat := 0
  tpend    : Bool := false
  fbmiss   : Nat := 0
  raceuntr : Nat := 0
  barwait  : Nat := 0
  waitcyc  : Nat := 0
  merrlog0 : DWord := 0#64
  merrlog1 : DWord := 0#64
  merrcnt  : Nat := 0
  deriving DecidableEq, Repr

/-- Where an operation comes from (SRC of R93): lanes of a group with the mask that was active, the groups that signed it,
or a sequencer. -/
inductive Src where
  | lanes (act : Word)
  | signed
  | seq (q : Nat)
  deriving DecidableEq, Repr

/-- Kind of a global access (R203). -/
inductive Kind where
  | read | write | both | fetch
  deriving DecidableEq, Repr

/-- Address space of an access (R198), with the team whose window it names. -/
inductive Space where
  | global
  | spad (team : Nat)
  | const
  deriving DecidableEq, Repr

/-- A long-latency instruction of a group's lanes that has not completed (R61). -/
structure Pend where
  i     : Instr
  pc    : Nat
  act   : Word
  flag  : Option Nat                  -- the flag it set
  ord   : Nat                         -- its place in the order of issue
  due   : Nat                         -- first core cycle in which it may complete (R26, R27)
  dueNs : Nat                         -- the same in wall time
  space : Space := .global
  va    : List Nat := []              -- per lane: virtual address or offset
  pa    : List Nat := []              -- per lane: physical address
  val   : List Word := []             -- per lane: operand
  val2  : List Word := []             -- per lane: second operand (`cas`)
  far   : Word := 0#32                -- lanes whose page lies in the far tier (`ld.probe`)
  k     : Nat := 0                    -- progress that a `fill` starts at
  staged : Bool := false              -- a staged `atom`, completed by its entries (R227)
  port  : Nat := 0                    -- 1 for the secondary port (R94)
  deriving DecidableEq, Repr

/-- What a queued store does to its bytes (R220, R227). -/
inductive StKind where
  | plain | direct | spill
  | red (op ty : Nat)
  deriving DecidableEq, Repr

/-- A store of one lane that has been issued and not yet performed, or that the ticket unit holds (R220, R225). -/
structure SqEntry where
  gid   : Nat
  lane  : Nat
  space : Space
  va    : Nat
  pa    : Nat
  bytes : List Byte
  kind  : StKind
  rel   : Option Nat := none          -- scope of a `.rel` store
  ord   : Nat
  whole : Bool := false               -- its instruction writes the whole of its line (R211, R224)
  pois  : Bool := false               -- its line receives POIS (R187)
  by_   : List Nat := []              -- groups that signed the operation which stores it (R180)
  seen  : List Nat := []              -- lanes of other blocks that have read it while it was held (R236): 32·GIDX + lane
  late  : Bool := false               -- held behind staged entries of its lane, which a release waits for (R222, R227)
  deriving DecidableEq, Repr

/-- An entry of the atomic staging buffer (R227, R387). -/
structure Staged where
  gid   : Nat := 0                    -- its group
  role  : Nat
  lane  : Nat
  ord   : Nat                         -- issue order within the lane
  op    : Nat
  ty    : Nat
  space : Space
  va    : Nat
  pa    : Nat
  opnd  : Word
  opnd2 : Word := 0#32
  atom  : Option (Nat × Nat) := none  -- the pending `atom` it completes: group, order number
  pc    : Nat := 0
  block : Nat := 0
  ctx   : Nat := 0
  rel   : Bool := false               -- a release at some scope (R222)
  flush : Nat := 0                    -- the flush point that handed it over
  deriving DecidableEq, Repr

/-- A valid entry of the tensor table (R298). -/
structure Tensor where
  pol    : Nat
  fmt    : Nat
  base   : Nat
  sbase  : Nat
  rows   : Nat
  cols   : Nat
  rpitch : Nat
  tpitch : Nat
  deriving DecidableEq, Repr

/-- An operation in a team's order (R178). -/
structure TeamOp where
  id      : Nat
  i       : Instr
  gid     : Nat                        -- the group it is charged to
  src     : Src
  pc      : Nat
  args    : List Nat := []             -- operand values read at issue
  pages   : List (Nat × Nat) := []     -- translations found at issue: page, physical base
  tensor  : Option Tensor := none      -- the tensor entry it uses
  flags   : List (Nat × Nat) := []     -- flags it set: group, flag
  gids    : List Nat := []             -- groups that issued or signed it
  port    : Nat := 0                   -- 1 for the secondary port (R94)
  started : Bool := false
  due     : Nat := 0
  dueNs   : Nat := 0
  supp    : Bool := false
  rank    : Option Nat := none         -- its place among the operations that issue in the present cycle (R178)
  deriving DecidableEq, Repr

/-- What a sequencer waits for (R276). -/
inductive SeqWait where
  | none
  | events (mask : Nat)
  | cycles (due : Nat)               -- the first cycle in which the next instruction may issue; of a halted one the cycles that remain (R384)
  deriving DecidableEq, Repr

/-- A group's state for one sequencer (R271, R277, R387): 0 idle, 1 running, 2 ended. -/
structure Seq where
  st      : Nat := 0
  cause   : Nat := 0
  pc      : Nat := 0
  clause  : Option Clause := none
  waitHdr : Bool := false              -- the header passed still waits for its WAIT mask
  loops   : List (Nat × Nat) := []     -- loop stack: PC, remaining count; top first
  wait    : SeqWait := .none
  stopping : Bool := false             -- `eend` or a fault has stopped fetch
  eflags  : List (Nat × List Nat) := []-- issued `eflag`s: event, operations still to complete
  started : Bool := false
  halted  : Bool := false              -- stopped for a stop request (R383)
  foot    : Nat := 0                   -- footprint entry of its fork
  deriving DecidableEq, Repr

/-- A resident group (R28, R118, R119, R346). -/
structure Group where
  bound   : Bool := false
  team    : Nat := 0                   -- GIDX of role 0
  role    : Nat := 0
  sched   : Nat := 0
  age     : Nat := 0
  lanes   : List Lane := mkLanes fun _ => {}
  v       : Tab (List Word) := []      -- vector registers: 32 lanes each
  s       : Tab Word := []             -- uniform registers
  p       : Tab (List Half) := []      -- predicate registers
  valloc  : Nat := 0
  vcnt    : Nat := 0
  sregs   : Nat := 0
  rejd    : Nat := 1
  depth   : Nat := 0
  flags   : List Nat := [0, 0, 0, 0, 0, 0, 0, 0, 0, 0, 0, 0]
  flags0  : List Nat := [0, 0, 0, 0, 0, 0, 0, 0, 0, 0, 0, 0]  -- the flags as they stood before the cycle (R346)
  left    : Word := 0#32               -- lanes that exited in this cycle (R48)
  csr     : Csrs := {}
  trap    : TrapSt := {}
  halted  : Bool := false              -- debug halt (R380)
  ops     : List Pend := []
  filter  : List Nat := []             -- write filter: lines, oldest first (R250)
  tfault  : Tab Nat := []              -- pages whose walk ended in a fault that the group has still to take (R206)
  fb      : List Nat := []             -- fast buffer: registers, next to be replaced first (R122)
  fetch   : List (Nat × Nat) := []     -- register lines on their way, with the first cycle they may arrive in
  missed  : List Nat := []             -- those of them that a stalled instruction waits for
  seqs    : List Seq := [{}, {}, {}]
  ev      : Nat := 0                   -- event word (R276)
  bad     : List (Nat × Nat) := []     -- uncorrectable words of the line store: register, lane (R124)
  weak    : List (Nat × Nat) := []     -- words of the line store with one bit in error (R124)
  csrw    : List Nat := []             -- counters that `csr.w` has written in this cycle (R345)
  evs     : Nat := 0                   -- sticky flags that events set in this cycle, and the first event's record (R94)
  evFirst : DWord := 0#64
  evOld   : Word := 0#32               -- FSTAT as it stood before the first of those events
  evRank  : Nat := 0                   -- the place of that event's issuer in the order of R94
  evV     : Bool := false              -- V of FFIRST before the first of those events
  mev     : Option (Nat × DWord × DWord) := none  -- the first contained error of this cycle, with its issuer's place (R367)
  mevV    : Bool := false              -- V of MERRLOG0 before it
  gtOld   : Option Nat := none         -- GTCMP before the `csr.w` of this cycle (R363)
  pcs0    : List DWord := []           -- PCs of the lanes as they stood before the cycle (R345)
  deriving DecidableEq, Repr

/-- An entry descriptor (R33). -/
structure EntryDesc where
  vregs : Nat := 1
  sregs : Nat := 0
  tiles : Nat := 0
  accg  : Nat := 0
  team  : Nat := 0
  cvr   : Nat := 0
  rejd  : Nat := 1
  spad  : Nat := 0
  barw  : Nat := 0
  deriving DecidableEq, Repr

/-- The source record of a tile (R173). -/
structure TSrc where
  tid  : Nat
  row0 : Nat
  col0 : Nat
  deriving DecidableEq, Repr

/-- A tile (R172, R173): element bytes, scale words, row-poison bits, source record, and the elements and scale words with an
uncorrectable error. -/
structure Tile where
  elem  : List Host.Cell := []
  scale : Tab Word := []
  pois  : Nat := 0
  src   : Option TSrc := none
  ue    : List Nat := []               -- 32-bit words of the element area
  ueS   : List Nat := []               -- scale words
  ce    : List Nat := []               -- 32-bit words of the element area with one bit in error
  ceS   : List Nat := []               -- scale words with one bit in error
  deriving DecidableEq, Repr

/-- An accumulator row (R174). -/
structure AccRow where
  e    : List Word := []               -- 64 elements; an absent one is +0
  pois : Bool := false
  ue   : List Nat := []                -- columns with an uncorrectable error
  ce   : List Nat := []                -- columns with one bit in error
  deriving DecidableEq, Repr

/-- A signature (R48, R181): the lane, the flag its clause chose, the address past the operation. -/
structure Sign where
  gid  : Nat
  lane : Nat
  flag : Option Nat
  next : Nat
  opPc : Nat
  supp : Bool := false                 -- it was made without race checks (R372)
  deriving DecidableEq, Repr

/-- A convergence register (R47, R48). -/
structure CvReg where
  cvdef : DWord := 0#64
  word  : Option Instr := none         -- recorded operation word
  signs : List Sign := []
  deriving DecidableEq, Repr

/-- What a team is (R28, R45, R52). -/
inductive Work where
  | block
  | task (pool : Nat)
  | point (pool die fid lin : Nat)
  deriving DecidableEq, Repr

/-- A stop request (R383). -/
structure StopSt where
  image : Nat := 0
  due   : Nat := 0                     -- WTIME at which the watchdog expires
  deriving DecidableEq, Repr

/-- Storage that dispatch gave a team (R34, R289, R290). -/
structure Place where
  slots : Nat × Nat := (0, 0)          -- each a first number and a count
  lines : Nat × Nat := (0, 0)
  cvs   : Nat × Nat := (0, 0)
  spad  : Nat × Nat := (0, 0)          -- units of 256 bytes
  tiles : Nat × Nat := (0, 0)
  acc   : Nat × Nat := (0, 0)          -- granules of 16 rows
  deriving DecidableEq, Repr

/-- An arrival of the present phase of a barrier word (R357 to R361). -/
structure BarArr where
  off  : Nat
  key  : Nat                           -- 16·p + ROLE (R358)
  ord  : Nat                           -- its order number
  wide : Bool                          -- a scope above `team`
  deriving DecidableEq, Repr

/-- An arrival of the present cycle, which is applied at its end: the word, its place among the cycle's arrivals, the group with the number of
participants that it gives, and the trap that it takes where an arrival before it breaks the phase (R356, R357). -/
structure Arrival where
  team : Nat
  off  : Nat
  rank : Nat
  gid  : Nat
  n    : Nat
  arr  : BarArr
  trap : TrapInfo
  deriving DecidableEq, Repr

/-- A `claim` issued in this cycle (R128). -/
structure Claim where
  gid   : Nat
  role  : Nat
  n     : Nat
  d     : Nat
  lanes : Word
  deriving DecidableEq, Repr

/-- A resident team (R28, R34, R128, R176, R227, R353). -/
structure Team where
  bound   : Bool := false
  ctx     : Nat := 0
  ridx    : Nat := 0                   -- bind record
  work    : Work := .block
  block   : Nat := 0
  queue   : Nat := 0
  node    : Nat := 0
  launch  : Nat := 0
  cluster : Nat := 0                   -- equal for the teams of one cluster
  pos     : Nat := 0                   -- i·w + j of R29
  desc    : EntryDesc := {}
  place   : Place := {}
  gone    : Tab Nat := []              -- per role that has ended: lines that it has returned to dispatch (R128)
  pool    : Nat := 0                   -- POOL of R128
  tiles   : Tab Tile := []
  acc     : Tab AccRow := []
  mb      : Tab DWord := []
  spad    : List Host.Cell := []       -- window bytes
  spadUe  : List Nat := []             -- words with an uncorrectable error
  cvs     : List CvReg := []
  order   : List TeamOp := []
  staged  : List Staged := []
  handed  : List Staged := []          -- handed over at a flush point, not yet applied
  held    : List SqEntry := []         -- held by the ticket unit
  claims  : List Claim := []           -- claims of this cycle
  arrs    : List BarArr := []          -- arrivals at the window's barrier words
  lastArr : Tab Nat := []              -- per barrier word and phase parity (2·offset + PH): the key of the last arriver (R358)
  stop    : Option StopSt := none
  done    : Bool := false              -- a team that has ended while programs, copies or jobs of it still use its storage (R35)
  deriving DecidableEq, Repr

/-- A granule of storage that a claim saves (R385): role of a group slot, eight lines of a role, a tile, an accumulator granule, 128
bytes of scratchpad, the constant store. -/
inductive Gran where
  | slot (role : Nat)
  | lines (role k : Nat)
  | tile (n : Nat)
  | acc (n : Nat)
  | spad (n : Nat)
  | kst
  deriving DecidableEq, Repr

/-- A stopped team whose storage is evictable (R383, R385): the residence it left, the team and its groups by role, the image address
and the granules written there so far. -/
structure Parked where
  gid0   : Nat                         -- GIDX of role 0
  team   : Team
  groups : List Group
  image  : Nat
  key    : Nat
  saved  : List Gran := []
  header : Bool := false               -- team state written out
  kst    : Option (List Host.Cell) := none  -- constant store saved with it (CSV)
  deriving DecidableEq, Repr

/-- A TLB entry (R206): context, virtual page base, page size, physical base, permissions. -/
structure TlbE where
  ctx  : Nat
  va   : Nat
  big  : Bool
  pa   : Nat
  r    : Bool
  w    : Bool
  x    : Bool
  tier : Bool
  deriving DecidableEq, Repr

/-- An instruction-cache line (R56, R78, R213). -/
structure IcLine where
  ctx   : Nat
  key   : Nat
  block : Nat
  bytes : List Byte
  deriving DecidableEq, Repr

/-- A running local copy (R284). -/
structure Copy where
  gid   : Nat
  src   : Src
  pc    : Nat
  inn   : Bool
  tag   : Nat
  va    : Nat
  off   : Nat
  n     : Nat
  bar   : Option Nat
  moved : Nat := 0
  id    : Nat := 0
  team  : Nat := 0
  pages : List Nat := []               -- physical bases of its 64 KiB pages
  deriving DecidableEq, Repr

/-- One debug comparator (R381). -/
structure Dbg where
  w : DWord := 0#64
  m : DWord := 0#64
  deriving DecidableEq, Repr

/-- A core (R18, R349, R350, R362, R365). -/
structure CoreSt where
  cycle    : Nat := 0
  dstretch : Nat := 0
  cecnt    : Nat := 0
  cecntW   : Bool := false             -- `csr.w` has written CECNT in this cycle (R345)
  cecnt0   : Nat := 0                  -- CECNT as it stood before the cycle (R345)
  tags     : Tab Nat := []             -- pending counts
  tags0    : Tab Nat := []             -- the pending counts as they stood before the cycle (R350)
  kst      : List Host.Cell := []      -- constant store
  owner    : Option Nat := none        -- launch that holds it
  ic       : List IcLine := []
  icMiss   : List (Nat × Nat) := []    -- context and block of the misses in flight
  tlb      : List TlbE := []
  sq       : List SqEntry := []
  copies   : List Copy := []
  dbgPc    : List Dbg := [{}, {}, {}, {}]
  dbgDa    : List Dbg := [{}, {}, {}, {}]
  elog     : List (DWord × DWord) := []
  ages     : Nat := 0
  turns    : List Nat := []            -- schedulers (0 to 3) and sequencers (4 to 6) that have had their turn in this cycle (R43); 9 where
                                       -- time has passed elsewhere since
  deriving DecidableEq, Repr

/-- A task record in a die task queue (R45, R267). -/
structure Task where
  ctx    : Nat
  queue  : Nat
  node   : Nat
  launch : Nat
  pc     : Nat
  args   : List Word
  depth  : Nat
  deriving DecidableEq, Repr

/-- State of a point in flight (R311, R315). -/
structure Point where
  lin   : Nat
  team  : Option Nat := none           -- team it is bound as
  ended : Bool := false                -- its group has ended
  cimg  : Nat := 0                     -- image of its saved group
  saved : Bool := false
  deriving DecidableEq, Repr

/-- A frontier slot (R308, R316 to R320). -/
structure Front where
  st     : Nat := 0                    -- ST of R319
  cause  : Nat := 0
  ctx    : Nat := 0
  queue  : Nat := 0
  node   : Nat := 0
  launch : Nat := 0
  words  : List DWord := []            -- descriptor words w0 to w5
  rfirst : Nat := 0
  rlast  : Nat := 0
  rows   : Tab Word := []              -- row words of the part
  mirror : Tab Word := []              -- row words of the halo
  pts    : List Point := []            -- points in flight, as they were fired
  due    : Nat := 0                    -- WTIME of the retirement watchdog
  expired : Bool := false
  deriving DecidableEq, Repr

/-- A page-table walk in flight (R206), with the groups that wait on it and the kinds of their accesses. -/
structure Walk where
  ctx    : Nat
  page   : Nat                         -- VA[47:16]
  groups : List (Nat × Kind)
  deriving DecidableEq, Repr

/-- A translation invalidation not yet complete (R207), with the operations that used the old entries. -/
structure Inval where
  ctx : Nat
  lo  : Nat
  hi  : Nat
  ord : Nat
  deriving DecidableEq, Repr

/-- A compute die (R10, R292, R392, R393). -/
structure Die where
  fixed  : Bool := false
  change : Option (Nat × Nat) := none  -- a mode change: bind record waiting, WTIME at which it ends
  pcap   : Nat := 345
  pest   : Nat := 0
  pnext  : Nat := 16000                -- WTIME of the next update of the estimate
  margin : Nat := 0x28
  shut   : Bool := false
  edie   : Nat := 0
  throt  : Bool := false
  tasks  : List Task := []
  fronts : List Front := [{}, {}, {}, {}, {}, {}, {}, {}, {}, {}, {}, {}, {}, {}, {}, {}]
  frcmd  : DWord := 0#64               -- w1 last written
  stlb   : List TlbE := []
  walks  : List Walk := []
  invs   : List Inval := []
  deriving DecidableEq, Repr

/-- State of a graph node (R264). -/
structure Node where
  words   : List DWord := []           -- w0 to w3, and for a frontier launch the words of its descriptor
  taken   : Nat := 0
  skipped : Nat := 0
  st      : Nat := 0                   -- 0 waiting, 1 running, 2 done
  r       : Word := 0#32
  left    : Nat := 0                   -- blocks, tasks or parts that have not ended
  launch  : Nat := 0
  queued  : Nat := 0                   -- task records that have been queued
  text    : Option Text := none        -- its text section, as the loader has it (R71)
  deriving DecidableEq, Repr

/-- A command queue (R258 to R261, R407). -/
structure Queue where
  set    : Bool := false
  log    : Nat := 0
  ring   : Nat := 0
  head   : Nat := 0
  tail   : Nat := 0
  seq    : Nat := 0                    -- entries completed
  cmd    : Nat := 0                    -- CMD of the entry that runs; 0 for none
  words  : List DWord := []
  nodes  : List Node := []
  iters  : Nat := 0
  backs  : List (Nat × Nat) := []      -- taken back edges that wait: source, target
  fail   : Option (Nat × Nat) := none  -- STATUS and node
  done   : Bool := false               -- the entry has completed and its record is to be written
  stopped : Bool := false
  deriving DecidableEq, Repr

/-- A context (R374, R389, R406). -/
structure Ctx where
  live    : Bool := false
  key     : Nat := 0
  mode    : Nat := 0
  spec    : Bool := false
  crbase  : Nat := 0
  crlog   : Nat := 0
  crtail  : Nat := 0
  crhead  : Nat := 0
  rkey    : DWord := 0#64
  ttbase  : Nat := 0
  tvec    : DWord := 0#64
  hapbase : Nat := 0
  root    : Nat := 0
  queues  : Tab Queue := []
  rules   : Tab DWord := []
  maps    : List (Nat × Nat) := []     -- ranges that MAP mapped: first page, pages
  tables  : List Nat := []             -- frames of its page tables
  pending : Option Nat := none         -- pre-emption requested (R339): WTIME of the watchdog
  ttent   : Tab (List DWord) := []     -- tensor entries as a die first read them for a node, by `ttKey` (R298)
  tthash  : List Byte := []            -- tensor table as the most recent node start read it
  started : Bool := false              -- some node has started
  attached : Bool := false             -- a debugger is attached (R380, R416)
  deriving DecidableEq, Repr

/-- A bind record (R289): w0 to w5. -/
structure Bind where
  w   : List DWord := []
  ord : Nat := 0                       -- order of its commit
  restore : Option Nat := none         -- image that it binds in place of an entry (R388)
  deriving DecidableEq, Repr

/-- A copy-engine job (R279, R281). -/
structure Job where
  gid     : Nat                        -- group that issued it
  team    : Nat
  ctx     : Nat
  key     : Nat
  pc      : Nat
  words   : List DWord                 -- the card
  card    : Nat                        -- its offset in the window
  queue   : Nat
  node    : Nat
  launch  : Nat := 0
  tagCore : Nat
  tagTeam : Nat
  idx     : List Nat := []             -- gather and scatter indices
  started : Bool := false
  moved   : Nat := 0                   -- 16-byte units moved, in row order
  status  : Nat := 0
  row     : Nat := 0
  vpage   : Nat := 0
  ended   : Bool := false              -- failed, or every unit moved
  due     : Nat := 0                   -- first cycle of its core in which it may complete, and the wall time
  dueNs   : Nat := 0
  tensor  : Option Tensor := none      -- the tensor whose poison policy it follows
  skipped : Option Nat := none         -- first row that policy 1 skipped
  link    : Option Nat := none         -- Fledenlink link it uses
  deriving DecidableEq, Repr

/-- An entry of the footprint order (R285, R286): a job or a fork. -/
structure Foot where
  id     : Nat
  ctx    : Nat
  core   : Nat
  reads  : List (Nat × Nat)            -- first page, pages
  writes : List (Nat × Nat)
  job    : Option Nat                  -- its job, or the fork of `gid`
  gid    : Nat
  edges  : List Nat
  started : Bool := false
  deriving DecidableEq, Repr

/-- A launch (R199, R254): a running grid, task pool or frontier node, and its ticket. -/
structure Launch where
  ctx    : Nat
  queue  : Nat
  node   : Nat
  det    : Bool
  blocks : Nat
  first  : Nat := 0                    -- first block of this device's share
  holder : Nat := 0
  ended  : List Nat := []              -- blocks ended that the ticket has not passed
  wdog   : Option Nat := none          -- WTIME at which the ticket watchdog fires
  w      : Nat := 1
  h      : Nat := 1
  x      : Nat := 1
  y      : Nat := 1
  pc     : Nat := 0
  staged : List Staged := []           -- global entries of ended blocks that wait for the ticket
  heldOf : List (Nat × SqEntry) := []  -- held stores of ended blocks, with their block
  text   : Option Text := none         -- text section of its blocks, tasks or points, and the placed instances of it (R71)
  insts  : List Placed := []
  deriving DecidableEq, Repr

/-- Side-band word of a line (R211), with the generation of the key that it was written under (R210). -/
structure Side where
  ue   : Bool := false
  pois : Bool := false
  opn  : Bool := false
  gid  : Nat := 0
  key  : Nat := 0
  gen  : Nat := 0
  deriving DecidableEq, Repr

/-- An installed key pair (R210). -/
structure Key where
  pair : BitVec 512
  gen  : Nat
  deriving DecidableEq, Repr

/-- A connection entry (R302): committed words, staged words, and what the engine keeps beside them. -/
structure Conn where
  w      : Tab DWord := []
  staged : Tab DWord := []
  stops  : Option (List (List Nat)) := none  -- stop strings as read at the first record (R338)
  sent   : List Byte := []             -- text given to records for the client
  outq   : List Byte := []             -- bytes of records that the send windows have not let go
  wire   : List Byte := []             -- bytes of the stream as they went out
  fin    : Bool := false               -- FIN is due behind them
  dups   : Nat := 0                    -- duplicate acknowledgements in a row
  due    : Nat := 0                    -- `slot.fin`s on its block that the engine has still to handle (R336)
  hand   : Nat := 0                    -- those that it has handled
  deriving DecidableEq, Repr

/-- A report to firmware: its kind and the numbers that belong to it. -/
structure Report where
  what : String
  args : List Nat
  deriving DecidableEq, Repr

/-- A write that went through a remote window (R412): the window, the key identifier that it carries, the address at the peer, and its bytes, poisoned
or not. -/
structure Sent where
  window : Nat
  key    : Nat
  addr   : Nat
  bytes  : List Byte
  pois   : Bool := false
  deriving DecidableEq, Repr

/-- Stage of boot (R415). -/
inductive Boot where
  | off
  | fetch (target round : Nat)
  | wait (round : Nat) (due : Nat)
  | halted
  | running
  deriving DecidableEq, Repr

/-- The fixed rows of the package that are not per core, die or context. -/
structure Pkg where
  boot     : Boot := .off
  wtime    : Nat := 0                       -- WTIME in ns (R362)
  idkey    : Bool := false                  -- the identity key is in the key store (R401)
  retry    : Bool := true                   -- configuration requests answer Retry Status (R403)
  mailbox  : List DWord := [0#64, 0#64, 0#64, 0#64, 0#64, 0#64, 0#64, 0#64]
  mbBusy   : Bool := false
  mbStatus : Nat := 0
  msixMask : List Nat := upto 64            -- vectors masked (R408)
  msixTab  : Tab Nat := []                  -- MSI-X table: words 0 to 2 of vector v under 4·v to 4·v + 2 (R403)
  msix     : List Nat := []                 -- vectors sent
  bindidx  : Nat := 0
  bindSt   : Tab DWord := []                -- staged BINDW1 to BINDW7
  relidx   : Nat := 0
  l2p      : Tab Nat := []                  -- logical core → 64·column + row (R295)
  site     : Tab Nat := []                  -- physical site: 0 enabled, 1 spare, 2 defective
  down     : List Nat := []                 -- physical sites marked DOWN
  twdog    : Nat := 100                     -- ms (R398)
  commitUs : Nat := 1000                    -- commit watchdog in µs (R341)
  prcmd    : DWord := 0#64                  -- w1 last written (R386)
  keys     : Tab Key := []
  keyGen   : Nat := 0
  faddr    : Nat := 0                       -- own Fledenlink address (R411)
  expand   : List Nat := [0, 0, 0, 0]       -- capacity of the expanders in bytes (R410)
  links    : List Nat := []                 -- failed links (R411)
  windows  : Tab (List Nat) := []           -- remote windows: base, size, peer, peer base (R412)
  peer     : List Sent := []                -- writes sent to peers (R412)
  netcfg   : List Byte := []                -- network configuration block as last accepted (R409)
  netctx   : Nat := 0
  rxTail   : List Nat := [0, 0]             -- frames placed, per port
  fwhash   : List Byte := []
  log      : List Report := []              -- reports to firmware and to the host
  out      : List (List Byte) := []         -- answers to host reads
  deriving DecidableEq, Repr

/-- An error that strikes a stored word or line (R124, R175, R211, R224): one bit, or more than the code corrects. -/
inductive Upset where
  | line (gid reg lane : Nat) (single : Bool)
  | elem (team tile word : Nat) (single : Bool)
  | scale (team tile word : Nat) (single : Bool)
  | acc (team row col : Nat) (single : Bool)
  | spad (team word : Nat)
  | mem (line : Nat)
  deriving DecidableEq, Repr

/-- What firmware does of its own will through the management cores, and reads that have no row of their own: a queued task goes to another die's
queue (R268), a core's error log is read (R367), an entry of a page table is written (R204, R207), firmware or the host reads a register
(R6, R7, R393, R398, R403, R407, R408), the public key and its certificate are read through the management port (R401), or the host reads or writes
at an offset of one of its BARs (R403). -/
inductive Fw where
  | moveTask (src k dst : Nat)
  | readErrors (core : Nat)
  | setEntry (table i : Nat) (e : DWord)
  | readReg (r : Reg)
  | readPcap (die : Nat)
  | readTwdog
  | readDoorbell (ctx q : Nat)
  | readCrhead (ctx : Nat)
  | readIdentity
  | barRead (bar off n : Nat)
  | barWrite (bar off : Nat) (bytes : List Byte)
  deriving DecidableEq, Repr

/-- What one turn of the agenda does: a scheduler of a core, a sequencer of a core, an event, an error of storage, or firmware. -/
inductive Act where
  | issue (core sched : Nat)
  | seq (core q : Nat)
  | event (i : Instr)
  | upset (u : Upset)
  | firmware (f : Fw)
  deriving DecidableEq, Repr

/-- One turn: core cycles and wall time that pass first, then what moves. Cycles pass on one core and on those named beside it. -/
structure Turn where
  core   : Nat := 0
  also   : List Nat := []
  cycles : Nat := 0
  ns     : Nat := 0
  act    : Act
  deriving DecidableEq, Repr

/-- The issue that `exec` acts for: the group, the issuing lanes or sequencer, the instruction's place and its clause. -/
structure Issue where
  gid    : Nat := 0
  src    : Src := .lanes 0#32
  lanes  : Word := 0#32
  pc     : Nat := 0
  len    : Nat := 8
  hdr    : Header := {}
  raw    : BitVec 128 := 0#128
  next   : List Byte := []             -- the bytes at the sequential successor, to the end of their block
  left   : Nat := 0                    -- instructions of a counted clause from this one on; 0 in an uncounted one
  port2  : Bool := false               -- the secondary port
  pc2    : Nat := 0                    -- the other path's PC, 0 for none
  deriving DecidableEq, Repr

/-- A secondary path that issues in the cycle of the primary one (R37, R39): its issue, and the group-wide state as it stood
before the cycle. -/
structure Second where
  issue : Issue
  i     : Instr
  group : Group
  team  : Team
  csr   : Nat := 0                     -- value of the CSR that a secondary `csr.r` reads
  wrote : List Nat := []               -- uniform registers that the primary instruction wrote
  deriving DecidableEq, Repr

/-- The machine. -/
structure State where
  groups   : Tab Group := []
  teams    : Tab Team := []
  cores    : Tab CoreSt := []
  dies     : List Die := [{}, {}, {}, {}]
  ctxs     : Tab Ctx := []
  binds    : Tab Bind := []
  launches : Tab Launch := []
  parked   : List Parked := []
  jobs     : Tab Job := []
  feet     : List Foot := []
  conns    : Tab Conn := []
  mem      : List Host.Cell := []      -- physical bytes
  side     : Tab Side := []            -- side-band words by line
  pkg      : Pkg := {}
  cur      : Issue := {}
  second   : Option Second := none
  agenda   : List Turn := []
  turnAt   : Nat := 0                  -- how far the turns of this cycle have come: 0, 1 + core, or past every core
  bars     : List (Nat × Nat) := []    -- barrier words changed in this cycle: team, offset (R357)
  arrivals : List Arrival := []        -- arrivals at barrier words in this cycle (R357)
  seqno    : Nat := 0                  -- next order number
  fresh    : Nat := 0                  -- uses of a free value so far
  deriving DecidableEq, Repr

/-- Why a run stops. The spec gives every instruction and event an effect, so that no meaning stops. -/
inductive Fault where
  /-- An access to a physical address that nothing backs. No meaning raises it: a walk that would form such an address ends in the table fault
  (R205), and a peer that names one is answered. Safe. -/
  | noMemory (pa : Nat)
  deriving DecidableEq, Repr

/-- Why an instruction has no meaning here. -/
inductive Refusal where
  /-- Raised by an arm of `exec` that has no meaning yet. Safe. -/
  | notModelled (mnemonic : String)
  deriving DecidableEq, Repr

/-- The outcome of a step or of an instruction. -/
abbrev Out := Host.Outcome State Fault Refusal

/-- The machine right after reset: every field at its value of the spec, before the boot of R415.
(DESIGN CHOICE, log entry 4; DEDUCED, log entry 6) -/
def State.reset : State := {}

end Sys2Proof.Machine
end

