-- ==== Sys2Proof/Machine/Ops.lean ====
section
/-!
DEFINITION. The named operations on the state: tables, registers, the frame of an issue (active lanes, the sequential
successor, clause accounting), raising a trap, and the faults of R74 and R75 that an issue meets.
-/

namespace Sys2Proof.Machine

open Sys2Proof

/-! ### Tables -/

/-- The entry of number `n`. -/
def Tab.find {α : Type} : Tab α → Nat → Option α
  | [], _ => none
  | (k, x) :: t, n => if k = n then some x else Tab.find t n

/-- The entry of number `n`, or the default. -/
def Tab.get {α : Type} (d : α) (t : Tab α) (n : Nat) : α := (Tab.find t n).getD d

/-- The table with entry `n` set, numbers rising. -/
def Tab.set {α : Type} : Tab α → Nat → α → Tab α
  | [], n, x => [(n, x)]
  | (k, y) :: t, n, x =>
      if k = n then (n, x) :: t
      else if n < k then (n, x) :: (k, y) :: t
      else (k, y) :: Tab.set t n x

/-- The table without entry `n`. -/
def Tab.drop {α : Type} : Tab α → Nat → Tab α
  | [], _ => []
  | (k, y) :: t, n => if k = n then Tab.drop t n else (k, y) :: Tab.drop t n

/-- The numbers of a table's entries. -/
def Tab.keys {α : Type} (t : Tab α) : List Nat := t.map (·.1)

/-- The lowest number at or above `a`, within the next `n`, that a table does not hold. -/
def Tab.free {α : Type} (t : Tab α) (a : Nat) : Nat → Nat
  | 0 => a
  | n + 1 => if (Tab.find t a).isSome then Tab.free t (a + 1) n else a

/-- A number above every entry of a table. -/
def Tab.next {α : Type} (t : Tab α) : Nat := t.foldl (fun m e => Nat.max m (e.1 + 1)) 0

/-! ### Parts of the state -/

/-- The group with identifier `g` (R31). -/
def State.grp (s : State) (g : Nat) : Group := Tab.get {} s.groups g

/-- The state with one group replaced. -/
def State.setGrp (s : State) (g : Nat) (x : Group) : State := { s with groups := Tab.set s.groups g x }

/-- The team whose role 0 has group identifier `t`. -/
def State.team (s : State) (t : Nat) : Team := Tab.get {} s.teams t

/-- The state with one team replaced. -/
def State.setTeam (s : State) (t : Nat) (x : Team) : State := { s with teams := Tab.set s.teams t x }

/-- The core with a logical core number (R293). -/
def State.core (s : State) (c : Nat) : CoreSt := Tab.get {} s.cores c

/-- The state with one core replaced. -/
def State.setCore (s : State) (c : Nat) (x : CoreSt) : State := { s with cores := Tab.set s.cores c x }

/-- A compute die. -/
def State.die (s : State) (d : Nat) : Die := nth {} s.dies d

/-- The state with one die replaced. -/
def State.setDie (s : State) (d : Nat) (x : Die) : State := { s with dies := setNth x s.dies d }

/-- A context. -/
def State.ctx (s : State) (c : Nat) : Ctx := Tab.get {} s.ctxs c

/-- The state with one context replaced. -/
def State.setCtx (s : State) (c : Nat) (x : Ctx) : State := { s with ctxs := Tab.set s.ctxs c x }

/-- The logical core of a group (R31). -/
def coreOf (gid : Nat) : Nat := gid / 16

/-- The compute die of a logical core (R293): 48 columns, 24 for each die, and 16 rows. -/
def dieOf (core : Nat) : Nat := (core / 48 / 16) * 2 + (core % 48) / 24

/-- The context of a team. -/
def State.ctxOf (s : State) (t : Nat) : Ctx := s.ctx (s.team t).ctx

/-- A speculative context whose pre-emption is requested (R339). -/
def Ctx.committing (c : Ctx) : Bool := c.spec && c.pending.isSome

/-- A new free value's number, and the state that has used it. -/
def State.takeFresh (s : State) : Nat × State := (s.fresh, { s with fresh := s.fresh + 1 })

/-- A report to firmware. (DESIGN CHOICE, log entry 84) -/
def State.report (s : State) (what : String) (args : List Nat) : State :=
  { s with pkg := { s.pkg with log := s.pkg.log ++ [⟨what, args⟩] } }

/-! ### Registers of a group -/

/-- A line of zeros (R120). -/
def zeroLine : List Word := mkLanes fun _ => 0#32

/-- Vector register `n` of lane `l` (R118). -/
def Group.vr (g : Group) (n l : Nat) : Word := nth 0#32 (Tab.get zeroLine g.v n) l

/-- Uniform register `n` (R118). -/
def Group.ur (g : Group) (n : Nat) : Word := Tab.get 0#32 g.s n

/-- Predicate register `n` of lane `l`; `p15` reads as all ones (R118). -/
def Group.pr (g : Group) (n l : Nat) : Half :=
  if n = 15 then BitVec.allOnes 16 else nth 0#16 (Tab.get (mkLanes fun _ => 0#16) g.p n) l

/-- Vector register `n` with the lanes of `m` set. -/
def Group.setV (g : Group) (n : Nat) (m : Word) (x : Nat → Word) : Group :=
  { g with v := Tab.set g.v n (mkLanes fun l => if m.getLsbD l then x l else g.vr n l)
           bad := g.bad.filter fun b => !(b.1 == n && m.getLsbD b.2), weak := g.weak.filter fun b => !(b.1 == n && m.getLsbD b.2) }

/-- Predicate register `n` with the lanes of `m` set. -/
def Group.setP (g : Group) (n : Nat) (m : Word) (x : Nat → Half) : Group :=
  { g with p := Tab.set g.p n (mkLanes fun l => if m.getLsbD l then x l else g.pr n l) }

/-- Uniform register `n` set. -/
def Group.setU (g : Group) (n : Nat) (x : Word) : Group := { g with s := Tab.set g.s n x }

/-- Completion flag `i` is set: every test of a cycle sees the counts as they stood before it (R346). -/
def Group.flagSet (g : Group) (i : Nat) : Bool := nth 0 g.flags0 i != 0

/-- Every completion flag is clear, as the tests of a cycle see it (R346). -/
def Group.flagsClear (g : Group) : Bool := g.flags0.all (· == 0)

/-- No count is above 0, neither before the cycle nor now. -/
def Group.flagsIdle (g : Group) : Bool := g.flagsClear && g.flags.all (· == 0)

/-- Flag `i` counted up or down by one (R346). -/
def Group.flagInc (g : Group) (i : Nat) : Group := { g with flags := setNth (nth 0 g.flags i + 1) g.flags i }
def Group.flagDec (g : Group) (i : Nat) : Group := { g with flags := setNth (nth 0 g.flags i - 1) g.flags i }

/-- Lane `l`. -/
def Group.lane (g : Group) (l : Nat) : Lane := nth {} g.lanes l

/-- Every lane rewritten. -/
def Group.mapLanes (g : Group) (f : Nat → Lane → Lane) : Group := { g with lanes := mkLanes fun l => f l (g.lane l) }

/-- A lane that has not exited (R35). -/
def Lane.live (x : Lane) : Bool := x.pc != exitedPc

/-- A lane that is eligible but for instruction fetch (R36): live, not waiting, not stopped. -/
def Lane.ready (x : Lane) : Bool := x.live && x.wait == .run && !x.stopped

/-- A lane is eligible (R36): ready, and no lane at its PC waits for a miss of its fetch. -/
def Group.eligible (g : Group) (n : Lane) : Bool := n.ready && !(g.lanes.any fun m => m.miss.isSome && m.pc == n.pc)

/-! ### The issue -/

/-- What a lane instruction acts on: its group now, its group as it stood before the cycle (R39), the issuing lanes and the
active ones (R8, R65). -/
structure View where
  gid : Nat
  g   : Group
  w   : Group
  iss : Word
  act : Word
  deriving DecidableEq, Repr

/-- Group-wide state as it stood before the cycle (R39). -/
def State.before (s : State) : Group :=
  match s.second with
  | some x => if s.cur.port2 then x.group else s.grp s.cur.gid
  | none => s.grp s.cur.gid

/-- The lanes whose guard passes (R65). -/
def guardMask (g : Group) (f : Fields) (iss : Word) : Word :=
  mkMask fun l => iss.getLsbD l && ((g.pr f.g.toNat l).getLsbD 0 != f.gn)

/-- The view of the present issue. -/
def State.view (s : State) (f : Fields) : View :=
  let g := s.grp s.cur.gid
  { gid := s.cur.gid, g := g, w := s.before, iss := s.cur.lanes, act := guardMask g f s.cur.lanes }

/-- Whether some lane is active. -/
def View.any (v : View) : Bool := v.act != 0#32

/-- A uniform register written by the present issue: where both ports write it, the primary value remains (R39). -/
def State.writeU (s : State) (n : Nat) (x : Word) : State :=
  let skip := match s.second with
    | some y => s.cur.port2 && y.wrote.contains n
    | none => false
  if skip then s else s.setGrp s.cur.gid ((s.grp s.cur.gid).setU n x)

/-- A vector register written in the lanes of `m`. -/
def State.writeV (s : State) (n : Nat) (m : Word) (x : Nat → Word) : State :=
  s.setGrp s.cur.gid ((s.grp s.cur.gid).setV n m x)

/-- A predicate register written in the lanes of `m`. -/
def State.writeP (s : State) (n : Nat) (m : Word) (x : Nat → Half) : State :=
  s.setGrp s.cur.gid ((s.grp s.cur.gid).setP n m x)

/-- Bit 0 set as given and bits 15:1 clear: the form in which instructions write a predicate. -/
def boolHalf (b : Bool) : Half := if b then 1#16 else 0#16

/-! ### Sequential successor and clause accounting -/

/-- `seq(P, len)` of R144. -/
def seqPc (p len : Nat) : Nat := if (p + len) % 32 = 28 then p + len + 4 else p + len

/-- A code address as the `lpc` of a live lane (R35). -/
def lpcOf (p : Nat) : DWord := BitVec.ofNat 64 (p % 2 ^ 48)

/-- The word at the sequential successor, decoded (R63, R181). -/
def followWord (x : Issue) : Decoded := decodeBytes (seqPc x.pc x.len % 32) x.next

/-- Whether the sequential successor is a clause header (R58, R63). -/
def headerNext (x : Issue) : Bool :=
  !x.next.isEmpty && (match followWord x with | .header _ => true | _ => false)

/-- A lane of an issue after its instruction: the next `lpc`; one more instruction of its clause, or no clause once it has left
it, by a transfer or by the last counted instruction; and the trap-fence that is due when it leaves a TF clause (R59, R63,
R144). -/
def laneAfter (x : Issue) (target : Nat) (taken : Bool) (n : Lane) : Lane :=
  let c := n.clause.getD {}
  let done := c.done + 1
  let out := taken || (c.hdr.count != 0#5 && done ≥ c.hdr.count.toNat) || (c.hdr.tf && c.hdr.count == 0#5 && headerNext x)
  { n with pc := lpcOf target, came := x.pc, jump := taken, clause := if out then none else some { c with done := done }
           waitHdr := false, fence := if c.hdr.tf && out then some x.pc else n.fence, miss := none }

/-- A lane that has waited at its instruction steps past it (R49, R357). -/
def Lane.stepOver (n : Lane) (len : Nat) : Lane :=
  let pc := n.pc.toNat
  let c := n.clause.getD {}
  let done := c.done + 1
  let out := c.hdr.count != 0#5 && done ≥ c.hdr.count.toNat
  { n with pc := lpcOf (seqPc pc len), wait := .run, came := pc, jump := false, waitHdr := false
           clause := if out then none else some { c with done := done }
           fence := if c.hdr.tf && out then some pc else n.fence, miss := none }

/-- All yield marks of a group clear when it has eligible lanes and none of them is unmarked (R41). -/
def Group.clearMarks (g : Group) : Group :=
  if g.lanes.any g.eligible && g.lanes.all (fun n => !g.eligible n || n.mark) then
    g.mapLanes fun _ n => { n with mark := false }
  else g

/-- The lanes of a group after an issue, each rewritten: the issuing lanes have used their suppression and progress (R372), and faults
of walks that the group has not taken are void (R206). -/
def State.moveLanes (s : State) (f : Nat → Lane → Lane) : State :=
  let x := s.cur
  let g := s.grp x.gid
  s.setGrp x.gid { (g.mapLanes f).clearMarks with
    trap := { g.trap with supp := g.trap.supp &&& ~~~x.lanes, kLanes := g.trap.kLanes &&& ~~~x.lanes }, tfault := [] }

/-- The issuing lanes move on: lane `l` to the target that `tgt` gives it, else to the sequential successor (R144). -/
def State.retireTo (s : State) (tgt : Nat → Option Nat) : State :=
  let x := s.cur
  s.moveLanes fun l n => if x.lanes.getLsbD l then laneAfter x ((tgt l).getD (seqPc x.pc x.len)) (tgt l).isSome n else n

/-- The issuing lanes take the sequential successor (R144). -/
def State.retire (s : State) : State := s.retireTo fun _ => none

/-! ### Raising a trap -/

/-- Codes that go to firmware (R368, R369). -/
def toFirmware (code : Nat) : Bool := 0x20 ≤ code

/-- Lanes of a group that have signed withdraw (R370). -/
def withdraw (s : State) (gid : Nat) : State :=
  let g := s.grp gid
  let t := s.team g.team
  let cvs := t.cvs.map fun c =>
    let left := c.signs.filter fun x => x.gid != gid
    { c with signs := left, word := if left.isEmpty then none else c.word }
  (s.setTeam g.team { t with cvs := cvs }).setGrp gid (g.mapLanes fun _ n =>
    match n.wait with | .sign _ => { n with wait := .run } | _ => n)

/-- Taking a trap (R368, R370 step 1, R373): the group freezes with the record's words. The lanes keep `lpc` where the caller left
it; delivery follows as an event of its own. A group that is frozen already keeps its first trap (R423). -/
def raise (s : State) (gid : Nat) (t : TrapInfo) : State :=
  let g := s.grp gid
  if g.trap.frozen.isSome then s
  else
    let till := if t.code = 0x22 then s.pkg.wtime + 1810 else g.trap.till
    withdraw (s.setGrp gid { g with trap := { g.trap with frozen := some t, toFw := false, till := till, since := s.seqno }, tfault := [] }) gid

/-- The record's words that a trap of the present issue shares (R371). -/
def State.trapHere (s : State) (code : Nat) : TrapInfo :=
  { code := code, pc := s.cur.pc, pc2 := s.cur.pc2, planes := s.cur.lanes, lane := lowLane s.cur.lanes }

/-- A trap of the present issue. -/
def State.trapNow (s : State) (t : TrapInfo) : State := raise s s.cur.gid t

/-- A fault that depends on a value, of the lowest lane that meets it (R216, R423). -/
def State.valueFault (s : State) (code lane addr : Nat) : State :=
  s.trapNow { s.trapHere code with lane := lane, addr := addr % 2 ^ 48 }

/-- A sequencer stops with a cause (R274): it issues nothing more. -/
def seqStop (s : State) (gid q cause : Nat) : State :=
  let g := s.grp gid
  let x := nth {} g.seqs q
  (s.setGrp gid { g with seqs := setNth { x with stopping := true, cause := cause } g.seqs q }).report
    "engine-program" [gid, q, cause]

/-! ### Faults of the word at its issue (R74, R75, R121, R174) -/

/-- Bound of a register class for a group (R121, R174). -/
def classBound (s : State) (g : Group) : RegClass → Nat
  | .vector => g.vcnt
  | .uniform => g.sregs
  | .tile => (s.team g.team).desc.tiles
  | .acc => 16 * (s.team g.team).desc.accg
  | .cv => (s.team g.team).desc.cvr

/-- RCL of R371. -/
def rclCode : RegClass → Nat
  | .vector => 0 | .uniform => 1 | .tile => 2 | .acc => 3 | .cv => 4

/-- The first named register at or above its bound, with its class code (R121): of several, the first in the order of fields D, A, B and C, then of
the entry's ranges. (DESIGN CHOICE, log entry 96) -/
def boundBreak (s : State) (g : Group) : List (RegClass × Nat × Nat) → Option (Nat × Nat)
  | [] => none
  | (c, n, k) :: rs =>
      if n + k > classBound s g c then some (rclCode c, Nat.max n (classBound s g c)) else boundBreak s g rs

/-- The flag that FS selects in a clause (R61). -/
def flagOf (h : Header) (fs : Bool) : Option Nat :=
  if fs then (if h.bv then some h.setb.toNat else none) else (if h.av then some h.seta.toNat else none)

/-- Whether an instruction is a team operation (R177). -/
def isTeamOp : Instr → Bool
  | .mma _ | .tld _ | .tsv _ | .tzero _ | .tpois _ | .accLd _ | .accSt _ | .accZero _ | .rowMax _ | .rowSum _
  | .rowExp _ | .rowScale _ | .rowAdd _ | .rowCvt _ => true
  | _ => false

/-- Whether only sequencers run it (R73). -/
def seqOnly : Instr → Bool
  | .eflag _ | .ewait _ | .eloop _ | .eend _ => true
  | _ => false

/-- Whether the major opcode of a word's bytes is that of a team operation (R72, R177). -/
def teamMajor (bs : List Byte) : Bool :=
  let op := bits (leVal (bs.take 2)) 9 2
  op == 0x90 || (0x92 ≤ op && op ≤ 0x97) || op == 0x99 || op == 0xA0

/-- A word whose guard is not G = 15 with GN = 0, seen in its bytes (R181, R270); a header has none. -/
def guardBad (bs : List Byte) : Bool := let w := leVal (bs.take 2); bits w 9 2 != 0 && (bits w 13 10 != 15 || bit w 14)

/-- Cause of `sign` from the word that follows it (R181, R179), the lowest of them (R74); 0 for none. -/
def signCause (x : Issue) : Nat :=
  if x.left == 1 then 3
  else match followWord x with
    | .instr j =>
        if !isTeamOp j then 3
        else match fieldsOf j with
          | some f => if f.g != 15#4 || f.gn then 4 else if isLong j && (flagOf x.hdr f.fs).isNone then 9 else 0
          | none => 3
    | .bad c => if !teamMajor x.next then 3 else if guardBad x.next then Nat.min c 4 else c
    | .header _ => 3

/-- The registers that an issue names: those of its word and, for `sign`, of the word that follows (R121, R179). -/
def issueRegs (i : Instr) (x : Issue) : List (RegClass × Nat × Nat) :=
  match i with
  | .sign _ => staticRegs i ++ (match followWord x with | .instr j => staticRegs j | _ => [])
  | _ => staticRegs i

/-- The cause of R74 that the word, its clause and its issuer show; 0 for none. -/
def issueCause (i : Instr) (x : Issue) : Nat :=
  match fieldsOf i with
  | none => 0
  | some f =>
      lowest (causeIf (isLong i && (flagOf x.hdr f.fs).isNone) 9
        ++ causeIf (seqOnly i) 0xA
        ++ (match i with | .sign _ => causeIf (signCause x != 0) (signCause x) | _ => []))

/-- The cause of a word that a sequencer meets: those of R74 with the guard of R270, then its class (R269), then a register bound
(R274); 0 for none. (DEDUCED, log entries 11, 30) -/
def seqCause (i : Instr) (f : Fields) (inClass : Bool) (s : State) : Nat :=
  let w := lowest (causeIf (isLong i && (flagOf s.cur.hdr f.fs).isNone) 9 ++ causeIf (f.g != 15#4 || f.gn) 4)
  if w != 0 then w
  else if !inClass then 0x11
  else if (boundBreak s (s.grp s.cur.gid) (staticRegs i)).isSome then 0x14 else 0

/-- Whether an instruction reaches a privileged CSR (R375). -/
def privileged : Instr → Bool
  | .csrR f | .csrW f | .fstatWrite f | .cvdefWrite f | .merrlog0Write f => 0x400 ≤ f.csr
  | _ => false

/-- The group of an issue as its register bounds are tested: on the secondary port as it stood before the cycle (R39, R121). -/
def State.boundGroup (s : State) (x : Issue) : Group :=
  match s.second with
  | some y => if x.port2 then y.group else s.grp x.gid
  | none => s.grp x.gid

/-- The fault of R74 or R75 of an instruction at its issue, with the record's words. -/
def staticFault (s : State) (x : Issue) (i : Instr) : Option TrapInfo :=
  let g := s.boundGroup x
  let base : TrapInfo := { pc := x.pc, pc2 := x.pc2, planes := x.lanes, lane := lowLane x.lanes }
  let c := issueCause i x
  if c != 0 then some { base with code := 0x01, ill := c }
  else match boundBreak s g (issueRegs i x) with
    | some (rcl, r) => some { base with code := 0x03, rcl := rcl, reg := r }
    | none =>
        if privileged i && (s.ctxOf g.team).key != 0 then some { base with code := 0x02 } else none

/-- The PC comparator that the issue matches (R382): an issuing lane that is not suppressed lies in its LANES. -/
def pcMatch (s : State) (x : Issue) : Option Nat :=
  let g := s.grp x.gid
  let c := s.core (coreOf x.gid)
  (upto 4).find? fun n =>
    let d := nth {} c.dbgPc n
    d.w.getLsbD 63 && bits d.w.toNat 57 52 == (s.team g.team).ctx && bits d.w.toNat 47 0 == x.pc
      && BitVec.ofNat 32 d.m.toNat &&& x.lanes &&& ~~~g.trap.supp != 0#32

/-- The trap of a PC comparator that the issue matches (R382). -/
def debugFault (s : State) (x : Issue) : Option TrapInfo :=
  (pcMatch s x).map fun n =>
    { code := 0x27, pc := x.pc, pc2 := x.pc2, planes := x.lanes, lane := lowLane x.lanes, info := n, supp := true }

/-! ### Register words with an uncorrectable error (R124) -/

/-- The vector registers that an instruction reads by a source field. -/
def vectorSources (i : Instr) : List Nat :=
  match desc i, fieldsOf i with
  | some k, some f =>
      ((fieldRegs k.a f.a.toNat f.ua false false ++ fieldRegs k.b f.b.toNat f.ub f.bi false
        ++ fieldRegs k.c f.c.toNat f.uc false false).filter (fun r => r.1 == .vector)).flatMap fun r =>
          rangeFrom r.2.1 r.2.2
  | _, _ => []

/-- Lane `l` reads an uncorrectable word of a register of the list. -/
def badWord (g : Group) (regs : List Nat) (l : Nat) : Bool := g.bad.any fun b => b.2 == l && regs.contains b.1

/-- The vector registers that a lane reads in its own position: field A of an instruction across lanes is none of them (R131). -/
def ownSources (i : Instr) : List Nat :=
  match i with
  | .shfl f => if f.ub || f.bi then [] else [f.b.toNat]
  | .rdlane _ | .nbunpack _ => []
  | _ => vectorSources i

end Sys2Proof.Machine
end

