-- ==== Sys2Proof/Machine/Flags.lean ====
section
/-!
DEFINITION. The sticky flags and their first record (R91 to R96), the contained-error record (R366, R367), and the counting of
completion flags at issue and completion (R61, R346).
-/

namespace Sys2Proof.Machine

open Sys2Proof

/-- The sticky flags as bits of FSTAT (R92). -/
def fNV : Nat := 1
def fDZ : Nat := 2
def fOF : Nat := 4
def fNF : Nat := 8
def fUE : Nat := 16

/-- One event: INDEX of R93 and the flags it sets. -/
structure Ev where
  index : Nat
  flags : Nat
  deriving DecidableEq, Repr

/-- The lowest FLAG code of a set of flags (R93, R94). -/
def lowFlag (m : Nat) : Nat :=
  if bit m 0 then 0 else if bit m 1 then 1 else if bit m 2 then 2 else if bit m 3 then 3 else 4

/-- The FFIRST word of an event (R93). -/
def ffirstWord (src flags index pc : Nat) : DWord :=
  BitVec.ofNat 64 (2 ^ 63 + src * 2 ^ 59 + lowFlag flags * 2 ^ 56 + (index % 256) * 2 ^ 48 + pc % 2 ^ 48)

/-- SRC of R93. -/
def Src.code : Src → Nat
  | .lanes _ => 0 | .signed => 1 | .seq _ => 2

/-- The union of a list of events' flags. -/
def allFlags (evs : List Ev) : Nat := evs.foldl (fun m e => m ||| e.flags) 0

/-- The place of an issuer in the order of one cycle (R94): the primary port, the secondary port, the sequencers. -/
def Src.rank (x : Src) (port : Nat) : Nat := match x with | .seq q => 2 + q | _ => port

/-- Events of an issuer of place `rank` set their flags in a group. Where V was 0 before the events of the cycle, FFIRST takes the first of
them in the order of R94 (R93). Events come in rising INDEX. Of two events of equal place the earlier one of the agenda counts: an instruction of
the port before an operation of the port that completes in the cycle. (DESIGN CHOICE, log entry 102) -/
def recordRanked (g : Group) (rank src : Nat) (pc : Nat) (evs : List Ev) : Group :=
  match evs.filter (·.flags != 0) with
  | [] => g
  | e :: es =>
      let all := allFlags (e :: es)
      let none := g.evs == 0
      let v := if none then g.csr.ffirst.getLsbD 63 else g.evV
      let w := if none || rank < g.evRank then ffirstWord src e.flags e.index pc else g.evFirst
      { g with csr := { g.csr with fstat := g.csr.fstat ||| BitVec.ofNat 32 all, ffirst := if v then g.csr.ffirst else w }
               evs := g.evs ||| all
               evFirst := w
               evRank := if none then rank else Nat.min rank g.evRank
               evV := v
               evOld := if none then g.csr.fstat else g.evOld }

/-- The port of the present issue. -/
def State.portHere (s : State) : Nat := s.cur.port2.toNat

/-- Sticky flags of the present lane instruction (R94). -/
def State.laneEvents (s : State) (evs : List Ev) : State :=
  s.setGrp s.cur.gid (recordRanked (s.grp s.cur.gid) s.portHere 0 s.cur.pc evs)

/-- A contained error (R366). -/
structure Contained where
  kind : Nat
  id   : Nat := 0
  posa : Nat := 0
  posb : Nat := 0
  deriving DecidableEq, Repr

/-- The two MERRLOG words (R366). -/
def merrWords (e : Contained) (pc : Nat) : DWord × DWord :=
  (BitVec.ofNat 64 (2 ^ 63 + e.kind * 2 ^ 60 + (e.id % 4096) * 2 ^ 48 + pc % 2 ^ 48),
   BitVec.ofNat 64 ((e.posa % 2 ^ 32) * 2 ^ 32 + e.posb % 2 ^ 32))

/-- A counter of a group changed by an event: one that `csr.w` has written in the same cycle keeps the written value (R345).
(DEDUCED, log entry 17) -/
def Group.count (g : Group) (num old new : Nat) : Nat := if g.csrw.contains num then old else new

/-- A contained error of an issuer of place `rank` is charged to a group: MERRCNT counts it. Where V was 0 before the errors of the cycle,
the record takes the first of them in the order of R94 (R367). -/
def logRanked (g : Group) (rank pc : Nat) (e : Contained) : Group :=
  let v := if g.mev.isNone then g.csr.merrlog0.getLsbD 63 else g.mevV
  let w := match g.mev with
    | some old => if rank < old.1 then (rank, merrWords e pc) else old
    | none => (rank, merrWords e pc)
  { g with mev := some w, mevV := v, csr := { g.csr with
      merrcnt := g.count 0x062 g.csr.merrcnt (Nat.min (g.csr.merrcnt + 1) 0xFFFFFFFF)
      merrlog0 := if v then g.csr.merrlog0 else w.2.1
      merrlog1 := if v then g.csr.merrlog1 else w.2.2 } }

/-- A contained error of the primary port. -/
def logContained (g : Group) (pc : Nat) (e : Contained) : Group := logRanked g 0 pc e

/-- A contained error of a group that may no longer exist: then it goes to the core's log (R367). -/
def State.logError (s : State) (gid rank pc : Nat) (e : Contained) : State :=
  let g := s.grp gid
  if g.bound then s.setGrp gid (logRanked g rank pc e)
  else
    let c := s.core (coreOf gid)
    s.setCore (coreOf gid) { c with elog := c.elog ++ [merrWords e pc] }

/-- The number of a long-latency operation, taken from the order of issue. -/
def State.takeOrd (s : State) : Nat × State := (s.seqno, { s with seqno := s.seqno + 1 })

/-- A long-latency instruction of the lanes is issued: its flag counts up and it joins the group's operations (R61, R346). -/
def State.issueOp (s : State) (gid : Nat) (p : Pend) : State :=
  let g := s.grp gid
  let g := match p.flag with | some i => g.flagInc i | none => g
  { s.setGrp gid { g with ops := g.ops ++ [p] } with seqno := s.seqno + 1 }

/-- The flag that an instruction selects in the present issue (R61). -/
def State.flagHere (s : State) (f : Fields) : Option Nat := flagOf s.cur.hdr f.fs

/-- Whether the selected flag of a long-latency instruction holds 63 (R346). -/
def flagFull (s : State) (i : Instr) : Bool :=
  match fieldsOf i with
  | some f => isLong i && (match s.flagHere f with | some k => nth 0 (s.grp s.cur.gid).flags k ≥ 63 | none => false)
  | none => false

end Sys2Proof.Machine
end

