-- ==== Sys2Proof/Machine/Memory.lean ====
section
/-!
DEFINITION. Memory: cells in canonical form, the lines of global memory with their owner, key and side-band word (R210 to R212), the
page tables and their walk (R200 to R206), and the scratchpad and constant store.
-/

namespace Sys2Proof.Machine

open Sys2Proof

/-! ### Cells -/

/-- A byte of memory; a byte without a cell reads as zero. (DESIGN CHOICE, log entry 3) -/
def readCell : List Host.Cell → Nat → Byte
  | [], _ => 0#8
  | (a, b) :: t, x => if a = x then b else if x < a then 0#8 else readCell t x

/-- Memory with one byte written; a zero byte has no cell. -/
def writeCell : List Host.Cell → Nat → Byte → List Host.Cell
  | [], x, v => if v = 0#8 then [] else [(x, v)]
  | (a, b) :: t, x, v =>
      if a = x then (if v = 0#8 then t else (x, v) :: t)
      else if x < a then (if v = 0#8 then (a, b) :: t else (x, v) :: (a, b) :: t)
      else (a, b) :: writeCell t x v

/-- `n` bytes from an address on. -/
def readCells (m : List Host.Cell) (a n : Nat) : List Byte := (rangeFrom a n).map (readCell m)

/-- Memory with bytes written from an address on. -/
def writeCells (m : List Host.Cell) (a : Nat) : List Byte → List Host.Cell
  | [] => m
  | b :: bs => writeCells (writeCell m a b) (a + 1) bs

/-- Memory with every byte of a range zero. -/
def clearCells (m : List Host.Cell) (a n : Nat) : List Host.Cell := m.filter fun c => c.1 < a || a + n ≤ c.1

/-- Every address is above `a`, addresses rise, and no cell holds zero. -/
def risingFrom (a : Nat) : List Host.Cell → Bool
  | [] => true
  | (x, v) :: t => decide (a < x) && v != 0#8 && risingFrom x t

/-- The canonical form: addresses rise strictly and no cell holds zero. (DESIGN CHOICE, log entry 3) -/
def Memory.wf : List Host.Cell → Bool
  | [] => true
  | (a, v) :: t => v != 0#8 && risingFrom a t

/-! ### Lines, owners and keys (R210 to R212) -/

/-- The side-band word of a line (R211). -/
def State.sideOf (s : State) (line : Nat) : Side := Tab.get {} s.side line

/-- A side-band word set; a line that self-test left has no entry. -/
def State.setSide (s : State) (line : Nat) (x : Side) : State :=
  { s with side := if x = {} then Tab.drop s.side line else Tab.set s.side line x }

/-- Generation of the key installed under an identifier (R210). -/
def State.keyGenOf (s : State) (key : Nat) : Nat :=
  match Tab.find s.pkg.keys key with | some k => k.gen | none => 0

/-- A physical address in a CXL region (R200). -/
def isCxl (pa : Nat) : Bool := 2 ^ 48 ≤ pa

/-- The plaintext of the 16-byte block that holds an address. -/
def State.block16 (s : State) (pa : Nat) : Nat := leVal (readCells s.mem (pa - pa % 16) 16)

/-- A byte as seen under a key identifier: the plaintext for the line's own identifier, zero for another one (R212); a byte that is
free where the line was written under another key than the reader has (R210). (DEDUCED, log entry 21) -/
def State.byteAs (s : State) (key pa : Nat) : Byte :=
  let x := s.sideOf (pa / 64)
  if x.key = key && x.gen = s.keyGenOf key then readCell s.mem pa
  else if x.key ≠ key && !isCxl pa then 0#8
  else staleByte [key, s.keyGenOf key, x.key, x.gen, pa, s.block16 pa]

/-- `n` bytes as seen under a key identifier. -/
def State.bytesAs (s : State) (key pa n : Nat) : List Byte := (rangeFrom pa n).map (s.byteAs key)

/-- The side-band word after a write by identifier `key` (R211, R212): a line of another owner is taken; only a whole line written clears
UE and POIS (DEDUCED, log entry 21). OPEN and GID of a line that is taken become 0: R212 names KEY and the bytes alone. (DESIGN CHOICE, log entry 107) -/
def sideWritten (x : Side) (key gen : Nat) (whole : Bool) : Side :=
  let y : Side := if x.key = key then x else { ue := x.ue, pois := x.pois }
  { y with key := key, gen := gen, ue := y.ue && !whole, pois := y.pois && !whole }

/-- One line written in part or whole: the bytes that the write does not cover are those the writer sees (R212). -/
def State.writeLine (s : State) (key line pa : Nat) (bs : List Byte) : State :=
  let a := 64 * line
  let whole := pa ≤ a && a + 64 ≤ pa + bs.length
  let new := (rangeFrom a 64).map fun x => if pa ≤ x && x < pa + bs.length then nth 0#8 bs (x - pa) else s.byteAs key x
  { s with mem := writeCells s.mem a new }.setSide line (sideWritten (s.sideOf line) key (s.keyGenOf key) whole)

/-- Bytes written from a physical address on under a key identifier. -/
def State.writeAs (s : State) (key pa : Nat) (bs : List Byte) : State :=
  if bs.isEmpty then s
  else (rangeFrom (pa / 64) ((pa + bs.length - 1) / 64 + 1 - pa / 64)).foldl (fun t l => t.writeLine key l pa bs) s

/-- The record of a line closed by a write of a party that is no group (R249). -/
def State.closeLine (s : State) (line : Nat) : State :=
  let x := s.sideOf line
  if x.opn then s.setSide line { x with opn := false } else s

/-- Bytes written by a party that is no group: every line's record closes (R249). -/
def State.writeUnit (s : State) (key pa : Nat) (bs : List Byte) : State :=
  let t := s.writeAs key pa bs
  if bs.isEmpty then t
  else (rangeFrom (pa / 64) ((pa + bs.length - 1) / 64 + 1 - pa / 64)).foldl State.closeLine t

/-- Whole lines written one after another by a party that is no group. -/
def State.writeLines (s : State) (key pa n : Nat) (line : Nat → List Byte) : State :=
  (upto n).foldl (fun t l => t.writeUnit key (pa + 64 * l) (line l)) s

/-- Whether a line is marked POIS or UE (R224). -/
def State.marked (s : State) (pa : Nat) : Bool := (s.sideOf (pa / 64)).pois || (s.sideOf (pa / 64)).ue

/-! ### Page tables (R200 to R205, R296, R297) -/

/-- Whether `n` bytes lie in the backed range of their region (R200). -/
def State.backed (s : State) (pa n : Nat) : Bool :=
  let r := pa / 2 ^ 48
  if r = 0 then pa + n ≤ 512 * 10 ^ 9
  else 4 ≤ r && r ≤ 7 && pa % 2 ^ 48 + n ≤ nth 0 s.pkg.expand (r - 4)

def kindReads : Kind → Bool
  | .read | .both => true
  | _ => false

def kindWrites : Kind → Bool
  | .write | .both => true
  | _ => false

/-- Fault codes of a walk (R368). -/
def fPage : Nat := 0x20
def fProt : Nat := 0x21
def fTier : Nat := 0x22
def fTable : Nat := 0x23

/-- The base of a page-table entry. -/
def pteBase (e : Nat) : Nat := bits e 51 8 * 256

/-- Bytes that a valid entry of a level names: the next table or the page. -/
def pteSpan (lvl : Nat) (leaf : Bool) : Nat :=
  if lvl = 1 then 65536 else if lvl = 2 then (if leaf then 2 ^ 21 else 256) else 65536

/-- A malformed entry (R205, R297). -/
def State.malformed (s : State) (lvl e : Nat) : Bool :=
  let leaf := bit e 1
  bits e 63 52 != 0 || bits e 7 6 != 0
    || (lvl == 1 && leaf) || (lvl == 3 && !leaf)
    || (!leaf && bits e 5 2 != 0)
    || ((lvl == 1 || lvl == 3) && bits e 15 8 != 0)
    || (lvl == 2 && leaf && bits e 20 8 != 0)
    || !s.backed (pteBase e) (pteSpan lvl leaf)
    || (leaf && bit e 5 != isCxl (pteBase e))

/-- The check of R203 of an entry at a level: a fault code, or 0. -/
def State.checkPte (s : State) (lvl e : Nat) : Nat :=
  if bit e 0 && s.malformed lvl e then fTable else if bit e 0 then 0 else fPage

/-- An entry of a table, read under key identifier 0 (R202). -/
def State.pte (s : State) (table i : Nat) : Nat := leVal (s.bytesAs 0 (table + 8 * i) 8)

/-- The translation that a leaf gives. -/
def leafEntry (ctx va e : Nat) (big : Bool) : TlbE :=
  { ctx := ctx, va := if big then va - va % 2 ^ 21 else va - va % 65536, big := big, pa := pteBase e
    r := bit e 2, w := bit e 3, x := bit e 4, tier := bit e 5 }

/-- The walk of R203 down to the leaf: a fault code, or the translation. -/
def State.walk (s : State) (ctx va : Nat) : Except Nat TlbE :=
  let e1 := s.pte (s.ctx ctx).root (bits va 47 34)
  if s.checkPte 1 e1 ≠ 0 then .error (s.checkPte 1 e1)
  else
    let e2 := s.pte (pteBase e1) (bits va 33 21)
    if s.checkPte 2 e2 ≠ 0 then .error (s.checkPte 2 e2)
    else if bit e2 1 then .ok (leafEntry ctx va e2 true)
    else
      let e3 := s.pte (pteBase e2) (bits va 20 16)
      if s.checkPte 3 e3 ≠ 0 then .error (s.checkPte 3 e3) else .ok (leafEntry ctx va e3 false)

/-- Whether a leaf permits a kind of access (R297). -/
def TlbE.permits (e : TlbE) (k : Kind) : Bool :=
  match k with
  | .read => e.r | .write => e.w | .both => e.r && e.w | .fetch => e.x

/-- Whether a translation covers an address of a context. -/
def TlbE.covers (e : TlbE) (ctx va : Nat) : Bool :=
  e.ctx == ctx && e.va == (if e.big then va - va % 2 ^ 21 else va - va % 65536)

/-- The physical address that a translation gives. -/
def TlbE.addr (e : TlbE) (va : Nat) : Nat := e.pa + (if e.big then va % 2 ^ 21 else va % 65536)

/-- The translation of an address that a core finds in its TLB or in its die's (R206). -/
def State.cached (s : State) (core ctx va : Nat) : Option TlbE :=
  match (s.core core).tlb.find? (·.covers ctx va) with
  | some e => some e
  | none => (s.die (dieOf core)).stlb.find? (·.covers ctx va)

/-- What a translation answers. -/
inductive XRes where
  | hit (pa : Nat)
  | tier (pa : Nat)
  | miss
  | fault (code : Nat)
  deriving DecidableEq, Repr

/-- The last two tests of R203 on a translation. -/
def TlbE.answer (e : TlbE) (va : Nat) (k : Kind) : XRes :=
  if !e.permits k then .fault fProt else if e.tier then .tier (e.addr va) else .hit (e.addr va)

/-- A walk's answer to an access (R203). -/
def State.walked (s : State) (ctx va : Nat) (k : Kind) : XRes :=
  match s.walk ctx va with
  | .ok e => e.answer va k
  | .error c => .fault c

/-- Translation for every other access: a cached one, or a walk at once (its time is not modelled). (DEDUCED, log entry 20) -/
def State.xlateNow (s : State) (core ctx va : Nat) (k : Kind) : XRes :=
  match s.cached core ctx va with
  | some e => e.answer va k
  | none => s.walked ctx va k

/-- A walk for the page of an address is in flight on a core's die, and the core has no translation of it (R206). -/
def State.walking (s : State) (core ctx va : Nat) : Bool :=
  (s.cached core ctx va).isNone && (s.die (dieOf core)).walks.any fun w =>
    w.ctx == ctx && w.page == (match s.walk ctx va with | .ok e => e.va / 65536 | .error _ => va / 65536)

/-- Translation for an access that waits while a walk for its page is in flight (R206). (DEDUCED, log entry 20) -/
def State.xlateWait (s : State) (core ctx va : Nat) (k : Kind) : XRes :=
  if s.walking core ctx va then .miss else s.xlateNow core ctx va k

/-- The first 64 KiB page of the page that an address lies in, as the tables map it (R206): what a walk is told apart by. -/
def State.walkPage (s : State) (ctx page : Nat) : Nat :=
  match s.walk ctx (65536 * page) with | .ok e => e.va / 65536 | .error _ => page

/-- Translation for an access of a group's lanes: a cached one, the fault that a walk the group waited for ended in, or a miss. A walk that
met the tier, or a page that does not permit its access, answers each access by its own kind. (DEDUCED, log entry 19) -/
def State.xlate (s : State) (gid va : Nat) (k : Kind) : XRes :=
  let g := s.grp gid
  let ctx := (s.team g.team).ctx
  match s.cached (coreOf gid) ctx va with
  | some e => e.answer va k
  | none => match Tab.find g.tfault (s.walkPage ctx (va / 65536)) with
    | some c => if c = fTier || c = fProt then s.walked ctx va k else .fault c
    | none => .miss

/-- Entries added to a TLB of `n` entries; of a full one the oldest leaves it: which one leaves, the spec does not say.
(DESIGN CHOICE, log entry 101) -/
def tlbAdd (n : Nat) (e : TlbE) (t : List TlbE) : List TlbE :=
  if t.contains e then t else (if t.length < n then t else t.drop 1) ++ [e]

/-- A translation enters the shared TLB of a die and the TLBs of the cores that wait for it. -/
def State.fillTlbs (s : State) (die : Nat) (e : TlbE) (groups : List Nat) : State :=
  let s := s.setDie die { s.die die with stlb := tlbAdd 8192 e (s.die die).stlb }
  (sortNums (groups.map coreOf)).foldl (fun s c => s.setCore c { s.core c with tlb := tlbAdd 128 e (s.core c).tlb }) s

/-- The translation that an access of a core has found by a walk of its own enters the TLBs; a walk that ends in a fault leaves nothing (R206).
(DEDUCED, log entry 20) -/
def State.noteWalk (s : State) (core ctx va : Nat) : State :=
  if (s.cached core ctx va).isSome then s
  else match s.walk ctx va with
    | .ok e => if e.tier then s else s.fillTlbs (dieOf core) e [16 * core]
    | .error _ => s

/-- The translations of an address that a core finds are forgotten, so that an access of it that follows walks again (R204).
(DEDUCED, log entry 19) -/
def State.forgetPage (s : State) (core ctx va : Nat) : State :=
  let keep := fun es : List TlbE => es.filter fun e => !e.covers ctx va
  let s := s.setDie (dieOf core) { s.die (dieOf core) with stlb := keep (s.die (dieOf core)).stlb }
  s.setCore core { s.core core with tlb := keep (s.core core).tlb }

/-- The key identifier of a group's context. -/
def State.keyOf (s : State) (gid : Nat) : Nat := (s.ctxOf (s.grp gid).team).key

/-- The fault of a translation that must not meet the tier (R208); 0 for none. -/
def XRes.code : XRes → Nat
  | .fault c => c
  | .tier _ => fTier
  | _ => 0

/-- The physical address of a translation. -/
def XRes.pa : XRes → Nat
  | .hit a => a
  | .tier a => a
  | _ => 0

/-- A read of virtual bytes by a unit that acts for a context: the first fault, or the bytes under the context's key. The range is
cut at 64 KiB pages. (DEDUCED, log entry 20) -/
def State.readVirt (s : State) (core ctx va n : Nat) : Except Nat (List Byte) :=
  let bad := (rangeFrom (va / 65536) ((va + n - 1) / 65536 + 1 - va / 65536)).find? fun p =>
    (s.xlateNow core ctx (p * 65536 % 2 ^ 48) .read).code != 0
  match bad with
  | some p => .error (s.xlateNow core ctx (p * 65536 % 2 ^ 48) .read).code
  | none => .ok ((rangeFrom va n).map fun a =>
      s.byteAs (s.ctx ctx).key (s.xlateNow core ctx (a % 2 ^ 48) .read).pa)

/-- Pieces of a virtual range that lie in one 64-byte line each: address and length. -/
def linePieces (va n : Nat) : List (Nat × Nat) :=
  if n = 0 then []
  else (rangeFrom (va / 64) ((va + n - 1) / 64 + 1 - va / 64)).map fun l =>
    (Nat.max va (64 * l), Nat.min (va + n) (64 * l + 64) - Nat.max va (64 * l))

/-- A write of virtual bytes by a unit that acts for a context: the first fault, or the new state. (DEDUCED, log entry 20) -/
def State.writeVirt (s : State) (core ctx va : Nat) (bs : List Byte) : Except Nat State :=
  let n := bs.length
  let bad := (rangeFrom (va / 65536) ((va + n - 1) / 65536 + 1 - va / 65536)).find? fun p =>
    (s.xlateNow core ctx (p * 65536 % 2 ^ 48) .write).code != 0
  match bad with
  | some p => .error (s.xlateNow core ctx (p * 65536 % 2 ^ 48) .write).code
  | none => .ok ((linePieces va n).foldl (fun t p =>
      t.writeUnit (s.ctx ctx).key (s.xlateNow core ctx (p.1 % 2 ^ 48) .write).pa ((bs.drop (p.1 - va)).take p.2)) s)

/-! ### Scratchpad and constant store (R213, R199) -/

/-- Bytes of a team's scratchpad window. -/
def State.spadRead (s : State) (team off n : Nat) : List Byte := readCells (s.team team).spad off n

/-- Bytes written into a team's scratchpad window; a whole word written replaces an error in it (R224). -/
def State.spadWrite (s : State) (team off : Nat) (bs : List Byte) : State :=
  let t := s.team team
  s.setTeam team { t with spad := writeCells t.spad off bs
                          spadUe := t.spadUe.filter fun w => !(off ≤ 4 * w && 4 * w + 4 ≤ off + bs.length) }

/-- Whether a word of the bytes has an uncorrectable error. -/
def State.spadBad (s : State) (team off n : Nat) : Bool :=
  (s.team team).spadUe.any fun w => off < 4 * w + 4 && 4 * w < off + n

/-- A free choice: the parity of a free value. -/
def freeBit (n : Nat) : Bool := freeNat n % 2 == 1

/-- The groups of a core. -/
def State.groupsOn (s : State) (c : Nat) : List Nat := (rangeFrom (16 * c) 16).filter fun g => (s.grp g).bound

/-- The physical address of byte `x` of a virtual range that begins at `va`, from the physical addresses of its 64 KiB pages. -/
def pagePa (va : Nat) (pages : List Nat) (x : Nat) : Nat :=
  nth 0 pages ((va + x) / 65536 - va / 65536) + (va + x) % 65536

/-- The byte that an outstanding `cst.ld` of the core would write at an offset (R233), of the last such one where several are outstanding: which of
them a byte shows the spec leaves open. (DESIGN CHOICE, log entry 108) -/
def State.constNew (s : State) (core off : Nat) : Option Byte :=
  (s.groupsOn core).foldl (fun r g => (s.grp g).ops.foldl (fun r p =>
    match p.i with
    | .cstLd f =>
        let c := f.imm.toNat % 65536; let n := 128 * bits f.imm.toNat 24 16
        if p.act ≠ 0#32 && c ≤ off && off < c + n then some (s.byteAs (s.keyOf g) (pagePa (nth 0 p.va 0) p.pa (off - c)))
        else r
    | _ => r) r) none

/-- A byte of the constant store as a read sees it: while a `cst.ld` that writes it is outstanding, the old or the new one, a free
choice for each byte (R233, R169). (DEDUCED, log entry 86) -/
def State.constByte (s : State) (core off : Nat) : Byte :=
  match s.constNew core off with
  | some b => if freeBit (s.fresh + off) then b else readCell (s.core core).kst off
  | none => readCell (s.core core).kst off

/-- A step that has made free choices, each at an address of its own. -/
def State.choicesMade (s : State) : State := { s with fresh := s.fresh + 2 ^ 52 }

end Sys2Proof.Machine
end

