-- ==== Sys2Proof/Machine/Operands.lean ====
section
/-!
DEFINITION. The operand forms of lane instructions: vector, uniform and immediate sources (R66, R69, R129), integer values and
results (R79, R80), register pairs (R146).
-/

namespace Sys2Proof.Machine

open Sys2Proof

/-- A signed 8-bit immediate in field B, as a 32-bit value (R66). -/
def bImm (f : Fields) : Word := BitVec.signExtend 32 f.b

/-- A register source: vector in lane `l`, or uniform as it stood before the cycle (R39, R66). -/
def View.reg (v : View) (uni : Bool) (n l : Nat) : Word := if uni then v.w.ur n else v.g.vr n l

/-- Source A. -/
def View.a (v : View) (f : Fields) (l : Nat) : Word := v.reg f.ua f.a.toNat l

/-- Source B, a register or a BI immediate. -/
def View.breg (v : View) (f : Fields) (l : Nat) : Word := if f.bi then bImm f else v.reg f.ub f.b.toNat l

/-- Source B in a form where IMM32 replaces it (R69). -/
def View.b (v : View) (f : Fields) (l : Nat) : Word := if f.len = .l64 then v.breg f l else f.imm

/-- Source C. -/
def View.c (v : View) (f : Fields) (l : Nat) : Word := v.reg f.uc f.c.toNat l

/-- The number of a 48-bit address held in two words (R146). -/
def pairVal (lo hi : Word) : Nat := lo.toNat + hi.toNat % 2 ^ 16 * 2 ^ 32

/-- The pair that field A names, vector or uniform. -/
def View.pairA (v : View) (f : Fields) (l : Nat) : Nat :=
  pairVal (v.reg f.ua f.a.toNat l) (v.reg f.ua (f.a.toNat + 1) l)

/-- A uniform pair. -/
def View.pairU (v : View) (n : Nat) : Nat := pairVal (v.w.ur n) (v.w.ur (n + 1))

/-- A uniform pair of 64 bits. -/
def View.wideU (v : View) (n : Nat) : Nat := (v.w.ur n).toNat + (v.w.ur (n + 1)).toNat * 2 ^ 32

/-- Segment width of `shfl` (R141). -/
def shflWidth (f : Fields) : Nat := if f.len = .l64 then 32 else 2 ^ (f.imm.toNat % 8)

/-- The lane that lane `l` reads (R141). -/
def shflLane (sub w l b : Nat) : Nat :=
  let base := l - l % w
  let o := l % w
  match sub with
  | 0 => base + b % w
  | 1 => if b ≤ o then l - b else l
  | 2 => if o + b < w then l + b else l
  | _ => base + (o ^^^ b) % w

/-- The lane that `rdlane` reads: the one that B names, or in the 96-bit form the lowest active lane of the mask (R142). -/
def rdlaneSource (f : Fields) (v : View) : Option Nat :=
  if f.len = .l64 then some ((v.breg f 0).toNat % 32) else laneNums.find? fun l => v.act.getLsbD l && f.imm.getLsbD l

/-- Words that an image of 32 narrow codes takes (R163). -/
def nbWords (ty : Nat) : Nat := if ty = 10 then 8 else if ty = 11 then 5 else 3

/-- The words of other lanes, or of its own, that lane `l` reads through a source that crosses lanes (R131, R141, R142, R163). -/
def crossWords (i : Instr) (v : View) (l : Nat) : List (Nat × Nat) :=
  match i with
  | .shfl f => [(f.a.toNat, shflLane f.sub.toNat (shflWidth f) l (v.breg f l).toNat)]
  | .rdlane f => ((rdlaneSource f v).map fun j => (f.a.toNat, j)).toList
  | .nbunpack f => (upto (nbWords f.tyN)).map fun j => (f.a.toNat, j)
  | _ => []

/-- The first register that a transfer begins at: the progress of a resumed one (R372). -/
def startReg (v : View) : Nat := if v.g.trap.kLanes &&& v.iss != 0#32 then v.g.trap.k else 0

/-- The words of the line store that active lane `l` reads (R124, R131); a `spill` that resumes reads none of the registers that it has
stored (R372). -/
def sourceWords (i : Instr) (v : View) (l : Nat) : List (Nat × Nat) :=
  (((match i with | .spill _ => (ownSources i).drop (startReg v) | _ => ownSources i)).map fun r => (r, l)) ++ crossWords i v l

/-- Width of an integer type (R67). -/
def intWidth (ty : Nat) : Nat := if ty ≤ 2 then 32 else if ty ≤ 4 then 16 else 8

/-- Whether an integer type is signed (R67). -/
def intSigned (ty : Nat) : Bool := ty == 1 || ty == 3 || ty == 5

/-- The value that an integer operation reads (R79). -/
def intVal (ty : Nat) (w : Word) : Int :=
  if intSigned ty then sext w.toNat (intWidth ty) else ((w.toNat % 2 ^ intWidth ty : Nat) : Int)

/-- Limits of an integer type (R80). -/
def intLo (ty : Nat) : Int := if intSigned ty then -(2 ^ (intWidth ty - 1) : Nat) else 0
def intHi (ty : Nat) : Int :=
  if intSigned ty then (2 ^ (intWidth ty - 1) : Nat) - 1 else (2 ^ intWidth ty : Nat) - 1

/-- A value of an integer type extended to the 32-bit destination (R79). -/
def intExt (ty : Nat) (x : Nat) : Word :=
  if intSigned ty then BitVec.ofInt 32 (sext x (intWidth ty)) else BitVec.ofNat 32 (x % 2 ^ intWidth ty)

/-- The destination word of an exact integer result, wrapped or saturated (R79, R80). -/
def intResult (ty : Nat) (sat_ : Bool) (r : Int) : Word :=
  intExt ty (wrap (if sat_ then sat r (intLo ty) (intHi ty) else r) (intWidth ty))

end Sys2Proof.Machine
end

