-- ==== Sys2Proof/Machine/Ready.lean ====
section
/-!
DEFINITION. When an instruction that has reached a port is not ready yet (R42 and the entries that say "not ready"), the frame
that every meaning shares, and the writing of results in lane or uniform execution (R130).
-/

namespace Sys2Proof.Machine

open Sys2Proof

/-! ### Waiting -/

/-- The team of the present issue as it stood before the cycle (R39). -/
def State.teamBefore (s : State) (t : Nat) : Team :=
  match s.second with
  | some x => if s.cur.port2 then x.team else s.team t
  | none => s.team t

/-- The flags that `fwait` names (R348). -/
def fwaitMask (f : Fields) : Nat := f.b.toNat + f.c.toNat % 16 * 256

/-- Some flag of a mask is set, as it stood before the cycle (R346, R348). -/
def anyFlag (g : Group) (m : Nat) : Bool := (upto 12).any fun i => bit m i && g.flagSet i

/-- The pending counts of the core's tags as they stood before the cycle (R350). -/
def State.tagsBefore (s : State) : Tab Nat := (s.core (coreOf s.cur.gid)).tags0

/-- TAGS (R350): bit i is 1 exactly when count i is 0. -/
def tagBits (t : Tab Nat) : Nat := natOfBits ((upto 64).map fun i => Tab.get 0 t i == 0)

/-- The tag mask of `twait` and `tffr` (R351). -/
def tagMask (v : View) (f : Fields) : Nat :=
  if f.len = .l64 then v.wideU f.a.toNat else f.imm.toNat * 2 ^ (if f.c.getLsbD 0 then 32 else 0)

/-- The sequencers that SUB names (R272). -/
def seqsNamed (f : Fields) : List Nat := (upto 3).filter fun q => f.sub.getLsbD q

/-- A sequencer is free when no group's state for it is running (R271). -/
def seqFree (s : State) (c q : Nat) : Bool :=
  (s.groupsOn c).all fun g => (nth {} (s.grp g).seqs q).st != 1

/-- A core has a free entry of its 32 footprint entries (R286). -/
def footFree (s : State) (c : Nat) : Bool := (s.feet.filter (·.core == c)).length < 32

/-- Accesses that a lane of a group has made and that have not been performed: queued stores, and long-latency memory
instructions (R222, R229). -/
def laneBusy (s : State) (gid l : Nat) : Bool :=
  (s.core (coreOf gid)).sq.any (fun e => e.gid == gid && e.lane == l)
    || (s.grp gid).ops.any (fun p => p.act.getLsbD l && !p.staged && (match p.i with
        | .ld _ | .ldProbe _ | .atom _ | .fill _ | .slotLd _ => true
        | _ => false))

/-- Matrix-path stores that a group issued or signed and that have not written their memory (R180, R230). -/
def matrixStores (s : State) (gid : Nat) : Bool :=
  (s.team (s.grp gid).team).order.any fun o =>
    o.gids.contains gid && (match o.src with | .seq _ => false | _ => true)
      && (match o.i with | .tsv _ | .accSt _ => true | _ => false)
    || (s.team (s.grp gid).team).held.any (·.by_.contains gid)

/-- Stores, atomics, reductions and spills of a group that have not been performed: queued, pending, held by the ticket unit or
staged (R230). -/
def storesOpen (s : State) (gid : Nat) : Bool :=
  let t := s.team (s.grp gid).team
  (s.core (coreOf gid)).sq.any (fun e => e.gid == gid)
    || (s.grp gid).ops.any (fun p => match p.i with | .atom _ => true | _ => false)
    || t.held.any (fun e => e.gid == gid)
    || (t.staged ++ t.handed).any (fun e => e.role == (s.grp gid).role)

/-- Entries that one store queue holds: the spec gives no figure. (DESIGN CHOICE, log entry 23) -/
def sqCapacity : Nat := 1024

/-- A context in deterministic mode (R389, R396), for a team that is no frontier point (R314). -/
def State.det (s : State) (t : Nat) : Bool := bit (s.ctxOf t).mode 1

/-- Staging entries in use on a core: a flush frees them (R227). -/
def stagedOn (s : State) (c : Nat) : Nat :=
  s.teams.foldl (fun n e => if e.2.bound && coreOf e.1 == c then n + e.2.staged.length else n) 0

/-- Accesses of a lane that are not performed at a scope: those still queued or pending, its staged atomics and reductions, and beyond
`grp` and `team`, whose members see them, the stores that the ticket unit holds (R229, R225, R227). -/
def laneOpen (s : State) (gid l scope : Nat) : Bool :=
  let g := s.grp gid
  let t := s.team g.team
  laneBusy s gid l || (t.staged ++ t.handed).any (fun e => e.role == g.role && e.lane == l)
    || (1 < scope && t.held.any fun e => e.gid == gid && e.lane == l)

/-- The number of active lanes. -/
def lanesIn (m : Word) : Nat := (lanesOf m).length

/-- The column and row of the tag core and the tag of the job card at a window offset (R279). -/
def cardTag (t : Team) (off : Nat) : Nat × Nat × Nat :=
  let w := leVal (readCells t.spad off 8)
  (bits w 47 42, bits w 41 36, bits w 35 30)

/-- The logical core at a physical site that holds an enabled core (R12, R13, R295). -/
def State.coreAt (s : State) (row col : Nat) : Option Nat :=
  if row < 32 && col < 52 then (s.pkg.l2p.find? fun e => e.2 == 64 * col + row).map (·.1) else none

/-- The tag that a `job`'s card names has count 15 (R350). -/
def jobTagFull (s : State) (v : View) (f : Fields) : Bool :=
  let k := cardTag (s.team v.g.team) (v.w.ur f.a.toNat).toNat
  match s.coreAt k.2.1 k.1 with
  | some c => 15 ≤ Tab.get 0 (s.core c).tags k.2.2
  | none => false

/-- A rule word of a team's context (R328). -/
def State.ruleWord (s : State) (t n : Nat) : DWord := Tab.get 0#64 (s.ctxOf t).rules n

/-- Slot instructions of one group reach the slot unit in program order: a `slot.ld` of the group has not read yet (R326).
(DEDUCED, log entry 37) -/
def slotLoads (g : Group) : Bool := g.ops.any fun p => p.act != 0#32 && (match p.i with | .slotLd _ => true | _ => false)

/-- Room that an instruction waits for after its tests, as its entry orders them: the task queue and the stores that a spawn releases
(R267), the sequencers and the footprint order (R272, R281), a tag's count of 15 (R284, R350). A job card's tag is `cardTag`. -/
def waitsLate (i : Instr) (v : View) (s : State) : Bool :=
  let c := coreOf v.gid
  v.any && match i with
    | .spawn _ => 4096 ≤ (s.die (dieOf c)).tasks.length || laneNums.any fun l => laneOpen s v.gid l 3
    | .fork f => !((seqsNamed f).all (seqFree s c) && footFree s c)
    | .cp f => 15 ≤ Tab.get 0 (s.core c).tags f.d.toNat
    | .job f => !footFree s c || jobTagFull s v f
    | _ => false

/-- Whether an instruction that reached a port with active lanes is not ready (R42). (DESIGN CHOICE, log entry 23; DEDUCED, log entry 37) -/
def waits (i : Instr) (v : View) (s : State) : Bool :=
  let c := coreOf v.gid
  flagFull s i || (v.any && match i with
    | .give _ | .tfence _ => !v.w.flagsClear
    | .tret _ => v.g.trap.inh && !v.w.flagsClear
    | .exit _ => s.cur.hdr.tf && !v.w.flagsClear
    | .fwait f => anyFlag v.w (fwaitMask f)
    | .twaitAll f => Nat.land (tagBits s.tagsBefore) (tagMask v f) != tagMask v f
    | .twaitAny f => tagMask v f != 0 && Nat.land (tagBits s.tagsBefore) (tagMask v f) == 0
    | .rdv f => (seqsNamed f).any fun q => (nth {} v.w.seqs q).st == 1
    | .st _ | .stGDirect _ => sqCapacity < (s.core c).sq.length + lanesIn v.act
    | .spill f => sqCapacity < (s.core c).sq.length + f.b.toNat * lanesIn v.act
    | .red _ | .atom _ => if s.det v.g.team then 256 < stagedOn s c + lanesIn v.act else false
    | .fence f => (lanesOf v.act).any fun l => laneOpen s v.gid l (f.mod.toNat % 8)
    | .bar _ => (lanesOf v.act).any (laneBusy s v.gid)
    | .fenceXp _ => storesOpen s v.gid || matrixStores s v.gid
    | .slotSc _ => slotLoads v.g
    | .slotFin f => slotLoads v.g || laneNums.any (laneBusy s v.gid) || storesOpen s v.gid
        || (bits (s.ruleWord v.g.team (f.imm.toNat % 16)).toNat 49 48 != 0 && matrixStores s v.gid)
    | _ => false)

/-- Whether a waiting instruction counts in WAITCYC, stops there for a request, and ends its wait for a ticket-stall fault (R345, R383,
R257). -/
def countsWait : Instr → Bool
  | .fwait _ | .twaitAll _ | .twaitAny _ => true
  | _ => false

/-- An instruction that waits for free entries of the staging buffer: a ticket-stall fault ends that wait too (R227). -/
def stagesFull (i : Instr) (v : View) (s : State) : Bool :=
  s.det v.g.team && !flagFull s i && (match i with | .red _ | .atom _ => true | _ => false)

/-! ### The frame of an instruction's meaning -/

/-- What the tests of one lane answer before an instruction acts: nothing stands in the way, a translation is not there yet (R206),
or a trap, with the contained error it logs. -/
inductive Check where
  | ok
  | miss (page : Nat) (kind : Kind)
  | trap (t : TrapInfo) (log : Option Contained)
  deriving DecidableEq, Repr

/-- The first answer that stands in the way, over lanes in ascending order (R216, R423). -/
def firstCheck (chk : Nat → Check) : List Nat → Check
  | [] => .ok
  | l :: ls => match chk l with
    | .ok => firstCheck chk ls
    | c => c

/-- The record of a fault of a lane (R371). -/
def State.laneTrap (s : State) (code lane addr : Nat) : TrapInfo :=
  { s.trapHere code with lane := lane, addr := addr % 2 ^ 48 }

/-- The tests of a lane: an uncorrectable register word first (R124), then those of the instruction. (DEDUCED, log entry 8) -/
def laneTest (s : State) (i : Instr) (v : View) (chk : Nat → Check) (l : Nat) : Check :=
  if (sourceWords i v l).any v.w.bad.contains then .trap (s.laneTrap 0x24 l 0) none else chk l

/-- A walk for a page starts on the die of the group's core, or the group waits for the one that is in flight (R206). (DEDUCED, log entry 19) -/
def State.startWalk (s : State) (gid at_ : Nat) (kind : Kind) : State :=
  let c := coreOf gid
  let ctx := (s.team (s.grp gid).team).ctx
  let page := s.walkPage ctx at_
  let d := s.die (dieOf c)
  let same := fun w : Walk => w.ctx == ctx && w.page == page
  let join := fun w : Walk => if same w && !w.groups.contains (gid, kind) then { w with groups := w.groups ++ [(gid, kind)] } else w
  let walks := if d.walks.any same then d.walks.map join else d.walks ++ [⟨ctx, page, [(gid, kind)]⟩]
  s.setDie (dieOf c) { d with walks := walks }

/-- A trap with the contained error that it logs (R224, R367). -/
def State.trapLogged (s : State) (t : TrapInfo) (log : Option Contained) : State :=
  (match log with
   | some e => s.setGrp s.cur.gid (logRanked (s.grp s.cur.gid) s.portHere s.cur.pc e)
   | none => s).trapNow t

/-- The sequencer of the present issue steps to the successor; a counted clause ends with its last instruction (R59, R144). -/
def State.seqTo (s : State) (q pc : Nat) (taken : Bool) : State :=
  let g := s.grp s.cur.gid
  let x := nth {} g.seqs q
  let c := x.clause.getD {}
  let out := taken || (c.hdr.count != 0#5 && c.done + 1 ≥ c.hdr.count.toNat)
  let y := { x with pc := pc, waitHdr := false, clause := if out then none else some { c with done := c.done + 1 } }
  s.setGrp s.cur.gid { g with seqs := setNth y g.seqs q }

def State.seqRetire (s : State) (q : Nat) : State := s.seqTo q (seqPc s.cur.pc s.cur.len) false

/-- What an instruction does that sequencer `q` issues: a word that breaks the rules stops the sequencer with its cause (R274); one whose
flag is full is not ready (R346). (DESIGN CHOICE, log entry 2; DEDUCED, log entry 30) -/
def sequenced (i : Instr) (f : Fields) (s : State) (q : Nat) (inClass : Bool) (k : State → State) : Out :=
  let x := nth {} (s.grp s.cur.gid).seqs q
  if x.st != 1 || x.stopping then .next s
  else
    let c := seqCause i f inClass s
    if c != 0 then .next (seqStop s s.cur.gid q c)
    else if flagFull s i then .next s
    else .next (k s)

/-- What an instruction of the lanes does once it reaches a port. Faults of the word come first; an instruction that is not ready changes
nothing; then PC comparators, the lanes' tests, and last its effect (R42, R423). An instruction that a sequencer issues and that is not of its
class stops the sequencer (R269). (DESIGN CHOICE, log entry 2; DEDUCED, log entry 8) -/
def issuedChk (i : Instr) (f : Fields) (s : State) (chk : View → Nat → Check) (k : View → State) : Out :=
  match s.cur.src with
  | .seq q => sequenced i f s q false id
  | _ =>
      if !(s.grp s.cur.gid).bound then .next s
      else match staticFault s s.cur i with
        | some t => .next (s.trapNow t)
        | none =>
            let v := s.view f
            if waits i v s then .next s
            else match debugFault s s.cur with
              | some t => .next (s.trapNow t)
              | none => match firstCheck (laneTest s i v (chk v)) (lanesOf v.act) with
                | .ok => .next (if waitsLate i v s then s else k v)
                | .miss p k => .next (s.startWalk s.cur.gid p k)
                | .trap t log => .next (s.trapLogged t log)

/-- An instruction of the lanes without tests of its own. -/
def issued (i : Instr) (f : Fields) (s : State) (k : View → State) : Out := issuedChk i f s (fun _ _ => .ok) k

/-! ### Results -/

/-- A per-lane result goes to `vD` in the active lanes; in uniform execution the one result goes to `sD` (R130). -/
def State.result (s : State) (i : Instr) (v : View) (f : Fields) (x : Nat → Word) : State :=
  if isUniform i then (if v.any then s.writeU f.d.toNat (x (lowLane v.act)) else s)
  else s.writeV f.d.toNat v.act x

/-- The events of a per-lane flag function: one for each active lane, or in uniform execution one for the lowest (R94, R130). -/
def laneEvs (i : Instr) (v : View) (fl : Nat → Nat) : List Ev :=
  if isUniform i then (if v.any then [⟨lowLane v.act, fl (lowLane v.act)⟩] else [])
  else (lanesOf v.act).map fun l => ⟨l, fl l⟩

/-- A computing instruction: its result, its sticky flags, and the step to the successor (R130, R133). -/
def compute (i : Instr) (f : Fields) (s : State) (x : View → Nat → Word) (fl : View → Nat → Nat) : Out :=
  issued i f s fun v =>
    ((s.result i v f (x v)).laneEvents (laneEvs i v (fl v))).retire

/-- A computing instruction that sets no flag. -/
def computeQuiet (i : Instr) (f : Fields) (s : State) (x : View → Nat → Word) : Out :=
  issued i f s fun v => (s.result i v f (x v)).retire

/-- An instruction that writes a vector register in each active lane. -/
def vectorOnly (i : Instr) (f : Fields) (s : State) (x : View → Nat → Word) : Out :=
  issued i f s fun v => (s.writeV f.d.toNat v.act (x v)).retire

/-- An instruction that writes a predicate in each active lane: bit 0 as given, bits 15:1 clear. -/
def predicateOnly (i : Instr) (f : Fields) (s : State) (x : View → Nat → Half) : Out :=
  issued i f s fun v => (s.writeP f.d.toNat v.act (x v)).retire

end Sys2Proof.Machine
end

