-- ==== Sys2Proof/Machine/Control.lean ====
section
/-!
DEFINITION. Sequential flow, branches, calls, rejoin, exit, yield and vote (R144 to R151), with the rules of rejoin waits and of
rejoin deadlock (R49 to R51).
-/

namespace Sys2Proof.Machine

open Sys2Proof

/-- `nop` (R148), which a sequencer accepts too (R269). -/
def execNop (f : Fields) (s : State) : Out :=
  match s.cur.src with
  | .seq q => sequenced (.nop f) f s q true fun s => s.seqRetire q
  | _ => issued (.nop f) f s fun _ => s.retire

/-- The target of a relative transfer (R145). -/
def relTarget (pc : Nat) (imm : Word) : Nat := wrap ((pc : Int) + sext imm.toNat 32) 48

/-- A transfer of the lanes of `m` to a target each (R145, R146). -/
def State.transfer (s : State) (m : Word) (tgt : Nat → Nat) : State :=
  s.retireTo fun l => if m.getLsbD l then some (tgt l) else none

def execBr (f : Fields) (s : State) : Out :=
  issued (.br f) f s fun v => s.transfer v.act fun _ => relTarget s.cur.pc f.imm

/-- The lanes that take `brc` (R145). -/
def brcTaken (f : Fields) (v : View) : Word :=
  mkMask fun l => v.act.getLsbD l && ((v.a f l == 0#32) == (f.sub == 0#4))

def execBrc (f : Fields) (s : State) : Out :=
  issued (.brc f) f s fun v => s.transfer (brcTaken f v) fun _ => relTarget s.cur.pc f.imm

def execBrx (f : Fields) (s : State) : Out :=
  issued (.brx f) f s fun v => s.transfer v.act fun l => v.pairA f l

def execRet (f : Fields) (s : State) : Out :=
  issued (.ret f) f s fun v => s.transfer v.act fun l => v.pairA f l

/-- The return address in the pair that D names (R146). -/
def State.writeReturn (s : State) (d : Nat) (m : Word) (ra : Nat) : State :=
  (s.writeV d m fun _ => BitVec.ofNat 32 ra).writeV (d + 1) m fun _ => BitVec.ofNat 32 (bits ra 47 32)

def execCall (f : Fields) (s : State) : Out :=
  issued (.call f) f s fun v =>
    (s.writeReturn f.d.toNat v.act (seqPc s.cur.pc s.cur.len)).transfer v.act fun l =>
      if f.len = .l64 then v.pairA f l else relTarget s.cur.pc f.imm

/-! ### Rejoin (R49 to R51) -/

/-- A lane waits at a `rejoin`. -/
def LaneWait.atRejoin : LaneWait → Bool
  | .rejoin _ => true
  | _ => false

/-- The lanes that wait at the `rejoin` at a PC. -/
def Group.rejoiners (g : Group) (pc : Nat) : Word :=
  mkMask fun l => (g.lane l).wait.atRejoin && (g.lane l).pc == lpcOf pc

/-- The rejoin PCs at which lanes wait, without repeats. -/
def Group.rejoinPcs (g : Group) : List Nat :=
  ((g.lanes.filter fun n => n.wait.atRejoin && n.live).map fun n => n.pc.toNat).eraseDups

/-- The release condition at a PC (R49): every lane that a recorded mask there names waits there or has exited. -/
def Group.rejoinMet (g : Group) (pc : Nat) : Bool :=
  let w := g.rejoiners pc
  w != 0#32 && laneNums.all fun k =>
    !(laneNums.any fun l => w.getLsbD l && (g.lane l).mask.getLsbD k) || w.getLsbD k || !(g.lane k).live

/-- Every live lane waits at a `rejoin` and no rejoin PC meets its release condition (R51). -/
def Group.rejoinDead (g : Group) : Bool :=
  g.lanes.any Lane.live && g.lanes.all (fun n => !n.live || n.wait.atRejoin) && !(g.rejoinPcs.any g.rejoinMet)

/-- The lowest of a list of numbers. -/
def least : List Nat → Nat
  | [] => 0
  | [x] => x
  | x :: xs => Nat.min x (least xs)

/-- A lane released from its `rejoin`. -/
def Lane.leaveRejoin (n : Lane) : Lane :=
  match n.wait with
  | .rejoin len => { n.stepOver len with mask := 0#32 }
  | _ => n

/-- The lanes that wait at a PC leave it where the release condition holds (R49). -/
def Group.releaseAt (g : Group) (pc : Nat) : Group :=
  if g.rejoinMet pc then
    let w := g.rejoiners pc
    g.mapLanes fun l n => if w.getLsbD l then n.leaveRejoin else n
  else g

/-- Every rejoin PC whose condition holds releases its lanes: before each cycle, for a group that runs (R49). -/
def Group.releaseRejoins (g : Group) : Group := g.rejoinPcs.foldl Group.releaseAt g

/-- The rejoin-deadlock fault of a group, where it holds (R51). -/
def rejoinCheck (s : State) (gid : Nat) : State :=
  let g := s.grp gid
  if g.bound && g.rejoinDead then
    let pc := least g.rejoinPcs
    raise s gid { code := 0x05, pc := pc, planes := g.rejoiners pc, lane := lowLane (g.rejoiners pc) }
  else s

/-- The active lanes begin to wait with their masks; the other issuing lanes step on (R150). -/
def State.startRejoin (s : State) (v : View) (mask : Nat → Word) : State :=
  let x := s.cur
  s.moveLanes fun l n =>
    if v.act.getLsbD l then { n with wait := .rejoin x.len, mask := mask l, mark := false }
    else if v.iss.getLsbD l then laneAfter x (seqPc x.pc x.len) false n else n

def execRejoin (f : Fields) (s : State) : Out :=
  issued (.rejoin f) f s fun v =>
    if v.any && !v.g.rejoinPcs.contains s.cur.pc && v.g.rejd ≤ v.g.rejoinPcs.length then
      s.valueFault 0x04 (lowLane v.act) 0
    else rejoinCheck (s.startRejoin v fun l => if f.len = .l64 then v.a f l else f.imm) s.cur.gid

/-! ### Exit, yield and vote -/

/-- The active lanes exit; the other issuing lanes step on (R149). The group notes them until the cycle has ended (R48). -/
def State.exitLanes (s : State) (v : View) : State :=
  let x := s.cur
  let t := s.moveLanes fun l n =>
    if v.act.getLsbD l then { n with pc := exitedPc, mark := false, clause := none, waitHdr := false, mask := 0#32 }
    else if v.iss.getLsbD l then laneAfter x (seqPc x.pc x.len) false n else n
  t.setGrp x.gid { t.grp x.gid with left := (t.grp x.gid).left ||| v.act }

/-- The arithmetic trap of a trap-fence (R376, R378), with PC of the record as the fence's location. -/
def State.arithTrap (s : State) (gid pc : Nat) (lanes : Word) : State :=
  raise s gid { s.trapHere 0x1A with pc := pc, planes := lanes, lane := lowLane lanes }

def execExit (f : Fields) (s : State) : Out :=
  issued (.exit f) f s fun v =>
    if v.any && s.cur.hdr.tf && v.w.csr.fstat != 0#32 then s.arithTrap s.cur.gid s.cur.pc s.cur.lanes
    else rejoinCheck (s.exitLanes v) s.cur.gid

def execYield (f : Fields) (s : State) : Out :=
  issued (.yield f) f s fun v =>
    (s.setGrp s.cur.gid (v.g.mapLanes fun l n => if v.act.getLsbD l then { n with mark := true } else n)).retire

/-- The active lanes whose bit 0 of `pA` is 1 (R151). -/
def voters (f : Fields) (v : View) : Word := mkMask fun l => v.act.getLsbD l && (v.g.pr f.a.toNat l).getLsbD 0

def execVote (f : Fields) (s : State) : Out :=
  issued (.vote f) f s fun v =>
    let w := voters f v
    (if !v.any then s
     else match f.sub.toNat with
       | 0 => s.writeP f.d.toNat v.act fun _ => boolHalf (w != 0#32)
       | 1 => s.writeP f.d.toNat v.act fun _ => boolHalf (w == v.act)
       | 2 => s.writeU f.d.toNat w
       | _ => s.writeP f.d.toNat v.act fun l => boolHalf (w != 0#32 && lowLane w == l)).retire

end Sys2Proof.Machine
end

