-- ==== Sys2Proof/Machine/IntegerOps.lean ====
section
/-!
DEFINITION. Integer arithmetic, logic, bit fields, comparison, moves and lane exchange (R129 to R143).
-/

namespace Sys2Proof.Machine

open Sys2Proof

/-- An integer instruction of R132 whose exact result is `r a b c` (R133). -/
def intArith (i : Instr) (f : Fields) (s : State) (r : Int → Int → Int → Int) : Out :=
  computeQuiet i f s fun v l =>
    let t := f.tyN
    intResult t f.sat (r (intVal t (v.a f l)) (intVal t (v.b f l)) (intVal t (v.c f l)))

/-- `floor(a · b / 2^n)` of R132. -/
def mulHigh (f : Fields) (a b : Int) : Int := (a * b) / (2 ^ intWidth f.tyN : Nat)

def execAdd (f : Fields) (s : State) : Out := intArith (.add f) f s fun a b _ => a + b
def execSub (f : Fields) (s : State) : Out := intArith (.sub f) f s fun a b _ => a - b
def execMul (f : Fields) (s : State) : Out := intArith (.mul f) f s fun a b _ => a * b
def execMulh (f : Fields) (s : State) : Out := intArith (.mulh f) f s fun a b _ => mulHigh f a b
def execMad (f : Fields) (s : State) : Out := intArith (.mad f) f s fun a b c => a * b + c
def execMadh (f : Fields) (s : State) : Out := intArith (.madh f) f s fun a b c => mulHigh f a b + c
def execMin (f : Fields) (s : State) : Out := intArith (.min f) f s fun a b _ => if a ≤ b then a else b
def execMax (f : Fields) (s : State) : Out := intArith (.max f) f s fun a b _ => if a ≤ b then b else a
def execAbs (f : Fields) (s : State) : Out := intArith (.abs f) f s fun a _ _ => if a < 0 then -a else a
def execNeg (f : Fields) (s : State) : Out := intArith (.neg f) f s fun a _ _ => -a

/-- The quotient of R81. -/
def divResult (ty : Nat) (a b : Int) : Word :=
  if b = 0 then intExt ty (2 ^ intWidth ty - 1) else intResult ty false (Int.tdiv a b)

/-- The remainder of R81. -/
def remResult (ty : Nat) (a b : Int) : Word :=
  if b = 0 then intResult ty false a else intResult ty false (Int.tmod a b)

/-- DZ of an integer division (R81). -/
def divFlags (f : Fields) (v : View) (l : Nat) : Nat := if intVal f.tyN (v.b f l) = 0 then fDZ else 0

def execIdiv (f : Fields) (s : State) : Out :=
  compute (.idiv f) f s (fun v l => divResult f.tyN (intVal f.tyN (v.a f l)) (intVal f.tyN (v.b f l)))
    (fun v l => divFlags f v l)

def execIrem (f : Fields) (s : State) : Out :=
  compute (.irem f) f s (fun v l => remResult f.tyN (intVal f.tyN (v.a f l)) (intVal f.tyN (v.b f l)))
    (fun v l => divFlags f v l)

/-- A logic instruction of R134. -/
def logic (i : Instr) (f : Fields) (s : State) (r : Word → Word → Word) : Out :=
  computeQuiet i f s fun v l => r (v.a f l) (v.b f l)

/-- The number of one bits among the low `n`. -/
def onesIn (a : Nat) : Nat → Nat
  | 0 => 0
  | n + 1 => (if bit a n then 1 else 0) + onesIn a n

/-- The leading zeros of an `n`-bit value. -/
def leadZeros (a : Nat) : Nat → Nat
  | 0 => 0
  | n + 1 => if bit a n then 0 else 1 + leadZeros a n

/-- The value with its low `n` bits in reverse order. -/
def reverseBits (a : Nat) : Nat → Nat
  | 0 => 0
  | n + 1 => 2 * reverseBits a n + (if bit a n then 1 else 0)

/-- `shl` of R134: 0 for counts of 32 and above. -/
def shlWord (a b : Word) : Word := if b.toNat < 32 then a <<< b.toNat else 0#32
/-- `shr` of R134. -/
def shrWord (a b : Word) : Word := if b.toNat < 32 then a >>> b.toNat else 0#32
/-- `sar` of R134. -/
def sarWord (a b : Word) : Word := BitVec.sshiftRight a (Nat.min b.toNat 31)

def execAnd (f : Fields) (s : State) : Out := logic (.and f) f s fun a b => a &&& b
def execOr (f : Fields) (s : State) : Out := logic (.or f) f s fun a b => a ||| b
def execXor (f : Fields) (s : State) : Out := logic (.xor f) f s fun a b => a ^^^ b
def execNot (f : Fields) (s : State) : Out := logic (.not f) f s fun a _ => ~~~a
def execAndn (f : Fields) (s : State) : Out := logic (.andn f) f s fun a b => a &&& ~~~b
def execShl (f : Fields) (s : State) : Out := logic (.shl f) f s shlWord
def execShr (f : Fields) (s : State) : Out := logic (.shr f) f s shrWord
def execSar (f : Fields) (s : State) : Out := logic (.sar f) f s sarWord
def execRotl (f : Fields) (s : State) : Out := logic (.rotl f) f s fun a b => a.rotateLeft (b.toNat % 32)
def execClz (f : Fields) (s : State) : Out := logic (.clz f) f s fun a _ => BitVec.ofNat 32 (leadZeros a.toNat 32)
def execPopc (f : Fields) (s : State) : Out := logic (.popc f) f s fun a _ => BitVec.ofNat 32 (onesIn a.toNat 32)
def execBrev (f : Fields) (s : State) : Out := logic (.brev f) f s fun a _ => BitVec.ofNat 32 (reverseBits a.toNat 32)

/-- Position and width of a bit-field control word, the width clipped at bit 31 (R136). -/
def fieldPos (ctl : Word) : Nat := bits ctl.toNat 4 0
def fieldWidth (ctl : Word) : Nat := Nat.min (bits ctl.toNat 13 8) (32 - fieldPos ctl)

/-- The control word: `C`, or IMM32 in the 96-bit form (R136). -/
def View.ctl (v : View) (f : Fields) (l : Nat) : Word := if f.len = .l64 then v.c f l else f.imm

/-- `bfx` of R136. -/
def bfxWord (ty : Nat) (a ctl : Word) : Word :=
  let w := fieldWidth ctl
  let x := a.toNat / 2 ^ fieldPos ctl % 2 ^ w
  if w = 0 then 0#32 else if ty = 1 then BitVec.ofInt 32 (sext x w) else BitVec.ofNat 32 x

/-- `bfi` of R136. -/
def bfiWord (a b ctl : Word) : Word :=
  let w := fieldWidth ctl
  let p := fieldPos ctl
  if w = 0 then a else BitVec.ofNat 32 (putBits a.toNat (p + w - 1) p (b.toNat % 2 ^ w))

def execBfx (f : Fields) (s : State) : Out := computeQuiet (.bfx f) f s fun v l => bfxWord f.tyN (v.a f l) (v.ctl f l)

def execBfi (f : Fields) (s : State) : Out :=
  computeQuiet (.bfi f) f s fun v l => bfiWord (v.a f l) (v.breg f l) (v.ctl f l)

def execLea (f : Fields) (s : State) : Out :=
  computeQuiet (.lea f) f s fun v l =>
    v.a f l + v.breg f l * BitVec.ofNat 32 (2 ^ f.c.toNat) + (if f.len = .l64 then 0#32 else f.imm)

/-- The relations of R138. -/
def relation (sub : Nat) (a b : Int) : Bool :=
  match sub with
  | 0 => a = b | 1 => a ≠ b | 2 => a < b | 3 => a ≤ b | 4 => b < a | _ => b ≤ a

def execCmp (f : Fields) (s : State) : Out :=
  predicateOnly (.cmp f) f s fun v l =>
    boolHalf (relation f.sub.toNat (intVal f.tyN (v.a f l)) (intVal f.tyN (v.b f l)))

def execCsel (f : Fields) (s : State) : Out :=
  vectorOnly (.csel f) f s fun v l => if (v.g.pr f.c.toNat l).getLsbD 0 then v.a f l else v.breg f l

def execMov (f : Fields) (s : State) : Out := vectorOnly (.mov f) f s fun v l => v.a f l
def execMovi (f : Fields) (s : State) : Out := vectorOnly (.movi f) f s fun _ _ => f.imm

/-- An instruction that acts once on the group where some lane is active. -/
def onceOnly (i : Instr) (f : Fields) (s : State) (k : View → State) : Out :=
  issued i f s fun v => (if v.any then k v else s).retire

def execMovs (f : Fields) (s : State) : Out :=
  onceOnly (.movs f) f s fun v => s.writeU f.d.toNat (if f.len = .l64 then v.w.ur f.a.toNat else f.imm)

/-- A register of another lane as it stood before the cycle, whatever that lane's state (R131). -/
def View.other (v : View) (n l : Nat) : Word := v.w.vr n l

def execShfl (f : Fields) (s : State) : Out :=
  vectorOnly (.shfl f) f s fun v l =>
    v.other f.a.toNat (shflLane f.sub.toNat (shflWidth f) l (v.breg f l).toNat)

def execRdlane (f : Fields) (s : State) : Out :=
  onceOnly (.rdlane f) f s fun v =>
    match rdlaneSource f v with
      | some j => s.writeU f.d.toNat (v.other f.a.toNat j)
      | none => s

def execLid (f : Fields) (s : State) : Out := vectorOnly (.lid f) f s fun _ l => BitVec.ofNat 32 l

end Sys2Proof.Machine
end

