-- ==== Sys2Proof/Machine/Access.lean ====
section
/-!
DEFINITION. Memory accesses of lanes: their addresses (R214), the tests before them in the order of R423 (R215 to R217, R203, R382, R224,
R249), the shortest time they take (R26, R27), and how a group's pending accesses order one another (R221, R222, R236).
-/

namespace Sys2Proof.Machine

open Sys2Proof

/-- The space that an instruction names. -/
inductive Where where
  | global | own | cluster | const
  deriving DecidableEq, Repr

/-- The space of `ld` and `st` by SUB (R218). -/
def whereLd (f : Fields) : Where :=
  match f.sub.toNat with
  | 1 => .own | 2 => .cluster | 3 => .const | _ => .global

/-- The space of `atom` and `red` (R226). -/
def whereAtom (f : Fields) : Where :=
  if f.sub.toNat < 8 then .global else if f.len = .l128 then .cluster else .own

/-- Access size by type (R217). -/
def accSize (ty : Nat) : Nat := if ty = 5 || ty = 6 then 1 else if ty = 3 || ty = 4 || ty = 8 || ty = 9 then 2 else 4

/-- The offset of an address: field B, or IMM32 in the longer forms (R214). -/
def View.off (v : View) (f : Fields) (l : Nat) : Int := sext (if f.len = .l64 then v.breg f l else f.imm).toNat 32

/-- A global address (R214). -/
def View.gaddr (v : View) (f : Fields) (l : Nat) : Nat := wrap ((v.pairA f l : Int) + v.off f l) 48

/-- A scratchpad or constant-store address, not reduced (R214). -/
def View.laddr (v : View) (f : Fields) (l : Nat) : Int := ((v.a f l).toNat : Int) + v.off f l

/-- The team of a group's cluster on the core that PLACE names (R215); `none` raises the placement fault. -/
def State.placed (s : State) (gid row col : Nat) : Option Nat :=
  let own := s.team (s.grp gid).team
  match s.coreAt row col with
  | none => none
  | some c => ((s.groupsOn c).map fun g => (s.grp g).team).find? fun t =>
      (s.team t).bound && (s.team t).launch == own.launch && (s.team t).cluster == own.cluster

/-- Bytes of a team's window. -/
def State.window (s : State) (t : Nat) : Nat := 256 * (s.team t).desc.spad

/-- What the tests of a memory instruction depend on: space, access size, kind, whether plain (R249), whether it reads a mark (R224),
and whether a tier page is let through (R223). -/
structure AccSpec where
  w      : Where
  k      : Nat
  kind   : Kind
  plain  : Bool := false
  poison : Bool := false
  probe  : Bool := false
  deriving DecidableEq, Repr

/-- The data comparator that an access of lane `l` matches (R382). -/
def dataMatch (s : State) (v : View) (kind : Kind) (l va k : Nat) : Option Nat :=
  let c := s.core (coreOf v.gid)
  (upto 4).find? fun n =>
    let d := nth {} c.dbgDa n
    let len := bits d.m.toNat 39 32
    d.w.getLsbD 63 && len != 0 && bits d.w.toNat 57 52 == (s.team v.g.team).ctx && d.m.getLsbD l
      && !v.g.trap.supp.getLsbD l
      && ((d.w.getLsbD 62 && kindReads kind) || (d.w.getLsbD 61 && kindWrites kind))
      && va < bits d.w.toNat 47 0 + len && bits d.w.toNat 47 0 < va + k

/-- Race detection is on in a group's context (R253). -/
def State.racesOn (s : State) (gid : Nat) : Bool := !bit (s.ctxOf (s.grp gid).team).mode 2

/-- The writer of another group that holds a line open, for a plain access (R249). -/
def raceWith (s : State) (v : View) (l pa : Nat) : Option Nat :=
  let x := s.sideOf (pa / 64)
  if s.racesOn v.gid && x.opn && x.key == s.keyOf v.gid && x.gid != v.gid && !v.g.trap.supp.getLsbD l && !isCxl pa then some x.gid
  else none

/-- The contained error of an uncorrectable global line (R366). -/
def lineError (va : Nat) : Contained := { kind := 5, posa := bits va 47 32, posb := va % 2 ^ 32 }

/-- A store of the lane that is still queued writes the whole of a line or of a scratchpad word, so that the lane's later load finds no mark
there (R221, R224). -/
def ownWrites (s : State) (gid l : Nat) (hit : SqEntry → Bool) : Bool :=
  (s.core (coreOf gid)).sq.any fun e =>
    e.gid == gid && e.lane == l && (match e.kind with | .red _ _ => false | _ => true) && hit e

/-- A global access of a lane meets a mark of its line. -/
def lineMarked (s : State) (gid l pa : Nat) : Bool :=
  s.marked pa && !isCxl pa && !ownWrites s gid l fun e => e.space == .global && e.whole && !e.pois && e.pa / 64 == pa / 64

/-- A scratchpad access of a lane meets an uncorrectable word. -/
def wordMarked (s : State) (gid l t off n : Nat) : Bool :=
  (s.team t).spadUe.any fun w => off < 4 * w + 4 && 4 * w < off + n
    && !ownWrites s gid l fun e => e.space == .spad t && e.va ≤ 4 * w && 4 * w + 4 ≤ e.va + e.bytes.length

/-- The tests of a global access after its translation (R423). -/
def markTests (s : State) (v : View) (a : AccSpec) (l va pa : Nat) : Check :=
  match dataMatch s v a.kind l va a.k with
  | some n => .trap { s.laneTrap 0x27 l va with info := 4 + n, supp := true } none
  | none =>
      if a.poison && lineMarked s v.gid l pa then
        .trap (s.laneTrap 0x10 l va) (if (s.sideOf (pa / 64)).ue then some (lineError va) else none)
      else match (if a.plain then raceWith s v l pa else none) with
        | some g => .trap { s.laneTrap 0x14 l (va - va % 64) with gid := g, supp := true } none
        | none => .ok

/-- The tests of a global access at an address (R423). -/
def globalTests (s : State) (v : View) (a : AccSpec) (l va : Nat) : Check :=
  if va % a.k ≠ 0 then .trap (s.laneTrap 0x0C l va) none
  else match s.xlate v.gid va a.kind with
    | .miss => .miss (va / 65536) a.kind
    | .fault c => .trap (s.laneTrap c l va) none
    | .tier _ =>
        if a.probe then
          (match dataMatch s v a.kind l va a.k with
           | some n => .trap { s.laneTrap 0x27 l va with info := 4 + n, supp := true } none
           | none => .ok)
        else .trap (s.laneTrap fTier l va) none
    | .hit pa => markTests s v a l va pa

/-- The tests of an access of a window of `len` bytes (R215, R217, R224). -/
def localTests (s : State) (gid : Nat) (a : AccSpec) (code : Nat) (len : Nat) (team : Option Nat) (l : Nat) (x : Int) : Check :=
  if x < 0 || (len : Int) < x + a.k then .trap (s.laneTrap code l (wrap x 48)) none
  else if x.toNat % a.k ≠ 0 then .trap (s.laneTrap 0x0C l x.toNat) none
  else match team with
    | some t => if a.poison && wordMarked s gid l t x.toNat a.k then .trap (s.laneTrap 0x10 l x.toNat) none else .ok
    | none => .ok

/-- The tests of lane `l`'s access (R216). -/
def accessTests (f : Fields) (a : AccSpec) (s : State) (v : View) (l : Nat) : Check :=
  match a.w with
  | .global => globalTests s v a l (v.gaddr f l)
  | .own => localTests s v.gid a 0x0D (s.window v.g.team) (some v.g.team) l (v.laddr f l)
  | .const => localTests s v.gid a 0x0E 65536 none l (v.laddr f l)
  | .cluster => match s.placed v.gid f.row.toNat f.col.toNat with
    | none => .trap (s.laneTrap 0x0F l 0) none
    | some t => localTests s v.gid a 0x0D (s.window t) (some t) l (v.laddr f l)

/-- The space of an instruction's accesses once the tests have passed. -/
def spaceOf (f : Fields) (w : Where) (s : State) (v : View) : Space :=
  match w with
  | .global => .global
  | .const => .const
  | .own => .spad v.g.team
  | .cluster => .spad ((s.placed v.gid f.row.toNat f.col.toNat).getD v.g.team)

/-- The address of lane `l`'s access: virtual, or an offset. -/
def View.addr (v : View) (f : Fields) (w : Where) (l : Nat) : Nat :=
  match w with
  | .global => v.gaddr f l
  | _ => (v.laddr f l).toNat

/-! ### Shortest times (R26, R27, R201) -/

/-- The home die of a physical address (R201). -/
def homeDie (pa : Nat) : Nat :=
  if isCxl pa then bits pa 49 48 else ((bits pa 11 9) ^^^ (bits pa 14 12) ^^^ (bits pa 17 15)) / 2

/-- A number of cycles and of nanoseconds that an access takes at least. -/
abbrev Least := Nat × Nat

/-- The larger of two bounds. -/
def Least.max (a b : Least) : Least := (Nat.max a.1 b.1, Nat.max a.2 b.2)

/-- The least time of an access of the L2 of a home die (R26, R27). (DESIGN CHOICE, log entry 82) -/
def l2Least (die pa : Nat) : Least := if homeDie pa = die then (140, 0) else (0, 210)

/-- The least time of a global access from a die. Whether the L2 of the home die holds the line is left open, so the L2's or the HBM's row is
a free choice; the wall times of the cross-domain rows are taken in whole nanoseconds: 210, 400 and 1810 for 209.5, 400 and 1809.5
(R26, R27). (DESIGN CHOICE, log entry 82) -/
def State.globalLeast (s : State) (die pa : Nat) : Least :=
  if isCxl pa then (0, 1810) else if freeBit (s.fresh + pa / 64) then (0, 400) else l2Least die pa

/-- The distance of two values. -/
def apart (a b : Nat) : Nat := (a - b) + (b - a)

/-- Mesh hops between two logical cores (R14). -/
def State.hops (s : State) (a b : Nat) : Nat :=
  let p := (Tab.find s.pkg.l2p a).getD 0
  let q := (Tab.find s.pkg.l2p b).getD 0
  apart (p % 64) (q % 64) + apart (p / 64) (q / 64)

/-- The least time of an access of a space. (DESIGN CHOICE, log entry 82) -/
def spaceLeast (s : State) (gid : Nat) (sp : Space) (pa : Nat) : Least :=
  match sp with
  | .global => s.globalLeast (dieOf (coreOf gid)) pa
  | .const => (8, 0)
  | .spad t => if t = (s.grp gid).team then (16, 0) else (30 + 2 * s.hops (coreOf gid) (coreOf t), 0)

/-- The clock of a group's core and the wall clock, a least time from now. (DESIGN CHOICE, log entry 82) -/
def State.dueAt (s : State) (gid : Nat) (m : Least) : Nat × Nat :=
  ((s.core (coreOf gid)).cycle + m.1, s.pkg.wtime + m.2)

/-- A long-latency operation of the present issue, not before a least time from now. -/
def State.pend (s : State) (i : Instr) (f : Fields) (v : View) (m : Least) : Pend :=
  { i := i, pc := s.cur.pc, act := v.act, flag := s.flagHere f, ord := s.seqno, port := s.portHere
    due := (s.dueAt v.gid (if v.any then m else (1, 0))).1, dueNs := (s.dueAt v.gid (if v.any then m else (1, 0))).2 }

/-! ### What a lane sees (R221, R225, R255) -/

/-- Two ranges of bytes overlap. -/
def overlap (a n b m : Nat) : Bool := a < b + m && b < a + n

/-- The bytes of a stored entry laid over bytes read at `x`. -/
def layOver (x : Nat) (bs : List Byte) (a : Nat) (es : List Byte) : List Byte :=
  (upto bs.length).map fun i => if a ≤ x + i && x + i < a + es.length then nth 0#8 es (x + i - a) else nth 0#8 bs i

/-- The place of an access in its space: its physical address, or its offset. -/
def SqEntry.at (e : SqEntry) : Nat := match e.space with | .global => e.pa | _ => e.va

/-- Blocks of a grid are held back from one another in deterministic mode (R254, R314). -/
def State.heldBlock (s : State) (t : Nat) : Bool := s.det t && (s.team t).work == .block

/-- The block of a team holds the ticket of its launch. -/
def State.holds (s : State) (t : Nat) : Bool :=
  match Tab.find s.launches (s.team t).launch with | some l => l.holder == (s.team t).block | none => true

/-- A plain store of a team opens writer records: not that of a block that waits for the ticket (R254). -/
def State.opens (s : State) (t : Nat) : Bool := !s.heldBlock t || s.holds t

/-- A lane of the package as a reader: its group and its number. -/
def readerOf (gid l : Nat) : Nat := 32 * gid + l

/-- A held store put into its place among others in ascending block index. -/
def insertHeld (e : Nat × SqEntry) : List (Nat × SqEntry) → List (Nat × SqEntry)
  | [] => [e]
  | x :: xs => if e.1 ≤ x.1 then e :: x :: xs else x :: insertHeld e xs

/-- Another running block of a team's launch. -/
def State.rival (s : State) (t : Nat) (e : Nat × Team) : Bool :=
  e.1 != t && e.2.bound && e.2.launch == (s.team t).launch && e.2.work == .block

/-- Stores that the ticket unit holds of the other blocks of a team's launch, running ones and ones that have ended before the ticket has
passed them, in the order in which they are performed. -/
def State.othersHeld (s : State) (t : Nat) : List SqEntry :=
  let run := (s.teams.filter (s.rival t)).flatMap fun e => e.2.held.map fun h => (e.2.block, h)
  let ended := match Tab.find s.launches (s.team t).launch with | some l => l.heldOf | none => []
  ((run ++ ended).foldr insertHeld []).map (·.2)

/-- A reader sees another block's held store rather than the older value: a free choice, and from then on always (R255, R236).
(DEDUCED, log entry 22) -/
def State.seesHeld (s : State) (who : Nat) (e : SqEntry) : Bool :=
  e.seen.contains who || freeBit (s.fresh + 2 ^ 64 * (((e.ord * 2 ^ 52 + e.pa) * 32 + e.lane) * 2 ^ 20 + who + 1))

/-- Global bytes as reader `who` of a team sees them: memory, over it those of other blocks' held stores that it sees, each one whole, and
over them its own block's held stores. (DEDUCED, log entry 22) -/
def State.teamBytes (s : State) (t who key pa n : Nat) : List Byte :=
  let mem := s.bytesAs key pa n
  let base := if s.heldBlock t then
      (s.othersHeld t).foldl (fun bs e => if s.seesHeld who e then layOver pa bs e.pa e.bytes else bs) mem
    else mem
  (s.team t).held.foldl (fun bs e => layOver pa bs e.pa e.bytes) base

/-- A reader that has seen another block's held store in `n` bytes at `pa` sees it from then on (R236). -/
def State.markSeen (s : State) (t who pa n : Nat) : State :=
  if !s.heldBlock t then s
  else
    let mark := fun e : SqEntry => if s.seesHeld who e && overlap e.pa e.bytes.length pa n then { e with seen := e.seen ++ [who] } else e
    { s with
      teams := s.teams.map fun e => if s.rival t e then (e.1, { e.2 with held := e.2.held.map mark }) else e
      launches := s.launches.map fun e => if e.1 = (s.team t).launch then
        (e.1, { e.2 with heldOf := e.2.heldOf.map fun h => (h.1, mark h.2) }) else e }

/-- What is left of a held store once a later write has covered `n` bytes at `pa`: a piece before them and a piece behind. -/
def SqEntry.cut (e : SqEntry) (pa n : Nat) : List SqEntry :=
  if !overlap e.pa e.bytes.length pa n then [e]
  else
    let head := e.bytes.take (pa - e.pa)
    let k := pa + n - e.pa
    (if head.isEmpty then [] else [{ e with bytes := head, whole := false }])
      ++ (if e.bytes.length ≤ k then []
          else [{ e with va := e.va + k, pa := e.pa + k, bytes := e.bytes.drop k, whole := false }])

/-- A write of a block that the ticket unit does not hold comes after the held stores of the block that it covers, and leaves nothing of
them in its bytes (R221, R236, R256). (DEDUCED, log entry 22) -/
def State.overHeld (s : State) (t pa n : Nat) : State :=
  if (s.team t).held.isEmpty then s else s.setTeam t { s.team t with held := (s.team t).held.flatMap (·.cut pa n) }

/-- Bytes that a lane's access of a space reads: what its team sees, and over it the lane's own earlier stores (R221). -/
def State.laneBytes (s : State) (gid l ord : Nat) (sp : Space) (x n : Nat) : List Byte :=
  let t := (s.grp gid).team
  let base := match sp with
    | .global => s.teamBytes t (readerOf gid l) (s.keyOf gid) x n
    | .spad w => s.spadRead w x n
    | .const => (rangeFrom x n).map (s.constByte (coreOf gid))
  (s.core (coreOf gid)).sq.foldl (fun bs e =>
    if e.gid == gid && e.lane == l && e.space == sp && e.ord < ord then layOver x bs e.at e.bytes else bs) base

/-! ### Order among pending accesses -/

/-- Whether a pending operation accesses memory for its lanes (R221). -/
def Pend.accesses (p : Pend) : Bool :=
  !p.staged && match p.i with
    | .ld _ | .ldProbe _ | .atom _ | .fill _ | .slotLd _ => true
    | _ => false

/-- An ordered load or atomic that has not returned its value (R222). -/
def Pend.acquires (p : Pend) : Bool :=
  match p.i with
  | .ld f | .ldProbe f | .atom f | .slotLd f => f.mod.getLsbD 3
  | _ => false

/-- Bytes of a pending lane access; a `fill` moves up to 128 bytes a register. -/
def Pend.size (p : Pend) : Nat :=
  match p.i with
  | .ld f | .ldProbe f => accSize f.tyN
  | .slotLd _ => 8
  | _ => 4

/-- The place of lane `l`'s pending access in its space. -/
def Pend.at (p : Pend) (l : Nat) : Nat := match p.space with | .global => nth 0 p.pa l | _ => nth 0 p.va l

/-- Lane `l` of a pending operation touches bytes of a space. -/
def Pend.touches (p : Pend) (l : Nat) (sp : Space) (x n : Nat) : Bool :=
  match p.i with
  | .fill _ => sp == .global && (rangeFrom p.k (p.pa.length - p.k)).any fun k => overlap (nth 0 p.pa k + 4 * l) 4 x n
  | _ => p.accesses && p.space == sp && overlap (p.at l) p.size x n

/-- A pending access of the lanes that takes part in synchronisation: an ordered load, or an `atom` that acts at memory itself (R240). -/
def Pend.syncs (p : Pend) : Bool := !p.staged && (p.acquires || (match p.i with | .atom _ => true | _ => false))

/-- A queued store that takes part in synchronisation: a release or a reduction (R240). -/
def SqEntry.syncs (e : SqEntry) : Bool := e.rel.isSome || (match e.kind with | .red _ _ => true | _ => false)

/-- Atomics, reductions and ordered accesses of a lane are performed in its program order: none issued before `ord` is left (R240).
(DEDUCED, log entry 22) -/
def syncBefore (s : State) (gid l ord : Nat) : Bool :=
  (s.core (coreOf gid)).sq.all (fun e => e.gid != gid || e.lane != l || ord ≤ e.ord || !e.syncs)
    && (s.grp gid).ops.all (fun p => ord ≤ p.ord || !p.act.getLsbD l || !p.syncs)
    && (s.team (s.grp gid).team).order.all fun o => ord ≤ o.id || !o.gids.contains gid
        || (match o.src, o.i with | .seq _, _ => true | _, .tsv f | _, .accSt f => !f.mod.getLsbD 3 | _, _ => true)

/-- An ordered load on the matrix path (R180). -/
def TeamOp.acquiring (o : TeamOp) : Bool := match o.i with | .tld f | .accLd f => f.mod.getLsbD 3 | _ => false

/-- An ordered load on the matrix path that a group issued or signed (R180). -/
def TeamOp.acquires (o : TeamOp) (gid : Nat) : Bool :=
  o.acquiring && (match o.src with | .seq _ => false | _ => o.gids.contains gid)

/-- No earlier operation of the group stands before an access of lane `l` issued at `ord` to bytes of a space: none that touches
the bytes, and none that acquires. -/
def clearBefore (s : State) (gid l ord : Nat) (sp : Space) (x n : Nat) : Bool :=
  ((s.grp gid).ops.all fun p =>
    ord ≤ p.ord || !p.act.getLsbD l || !(p.acquires || p.touches l sp x n))
  && (s.team (s.grp gid).team).order.all fun o => ord ≤ o.id || !o.acquires gid

/-- Every earlier access of lane `l` but for its staged ones has been performed. -/
def laneQuietBefore (s : State) (gid l ord : Nat) : Bool :=
  (s.core (coreOf gid)).sq.all (fun e => e.gid != gid || e.lane != l || ord ≤ e.ord)
    && (s.grp gid).ops.all (fun p => ord ≤ p.ord || !p.act.getLsbD l || !p.accesses)

/-- Every earlier access of lane `l` has been performed, its staged atomics and reductions among them (R222, R227). -/
def laneDoneBefore (s : State) (gid l ord : Nat) : Bool :=
  let g := s.grp gid
  let t := s.team g.team
  laneQuietBefore s gid l ord && (t.staged ++ t.handed).all fun e => e.role != g.role || e.lane != l || ord ≤ e.ord

/-- No earlier acquire of lane `l` stands before an access issued at `ord` (R222). -/
def acquiredBefore (s : State) (gid l ord : Nat) : Bool :=
  ((s.grp gid).ops.all fun p => ord ≤ p.ord || !p.act.getLsbD l || !(p.acquires && !p.staged))
    && (s.team (s.grp gid).team).order.all fun o => ord ≤ o.id || !o.acquires gid

/-- No earlier queued reduction of the lane, whose bytes are not known yet, touches bytes that it reads. -/
def noRedBefore (s : State) (gid l ord : Nat) (sp : Space) (x n : Nat) : Bool :=
  (s.core (coreOf gid)).sq.all fun e =>
    e.gid != gid || e.lane != l || ord ≤ e.ord || e.space != sp || !overlap e.at e.bytes.length x n
      || (match e.kind with | .red _ _ => false | _ => true)

end Sys2Proof.Machine
end

