-- ==== Sys2Proof/Machine/FloatFormat.lean ====
section
/-!
DEFINITION. The floating-point formats of R82 and their exact arithmetic: values as sign, magnitude and power of two, one rounding
from an exact value to a format (R83, R84), and the results of every operation of R156 to R162 as bits and sticky flags.
-/

namespace Sys2Proof

/-- A floating-point format: exponent and fraction widths (R82). -/
structure Fmt where
  eb : Nat
  fb : Nat
  deriving DecidableEq, Repr

def fp32 : Fmt := ⟨8, 23⟩
def fp16 : Fmt := ⟨5, 10⟩
def bf16 : Fmt := ⟨8, 7⟩

/-- The format of a TY code 0x7 to 0x9 (R67). -/
def fmtOf (ty : Nat) : Fmt := if ty = 7 then fp32 else if ty = 8 then fp16 else bf16

/-- Width in bits. -/
def Fmt.width (f : Fmt) : Nat := 1 + f.eb + f.fb

/-- The exponent of the smallest subnormal. -/
def Fmt.emin (f : Fmt) : Int := 2 - (2 ^ (f.eb - 1) : Nat) - (f.fb : Int)

/-- Bits of +∞, the canonical NaN, the sign and 1.0. -/
def Fmt.inf (f : Fmt) : Nat := (2 ^ f.eb - 1) * 2 ^ f.fb
def Fmt.nan (f : Fmt) : Nat := f.inf + 2 ^ (f.fb - 1)
def Fmt.sign (f : Fmt) : Nat := 2 ^ (f.eb + f.fb)
def Fmt.one (f : Fmt) : Nat := (2 ^ (f.eb - 1) - 1) * 2 ^ f.fb

/-- A value: a NaN (signalling or not), an infinity, or `(-1)^neg · m · 2^e`; `m = 0` is a zero with its sign. -/
inductive FVal where
  | nan (sig : Bool)
  | inf (neg : Bool)
  | fin (neg : Bool) (m : Nat) (e : Int)
  deriving DecidableEq, Repr

/-- The value of a format's bits. -/
def Fmt.val (f : Fmt) (x : Nat) : FVal :=
  let frac := x % 2 ^ f.fb
  let ex := x / 2 ^ f.fb % 2 ^ f.eb
  let neg := bit x (f.eb + f.fb)
  if ex = 2 ^ f.eb - 1 then
    if frac = 0 then .inf neg else .nan (!bit frac (f.fb - 1))
  else if ex = 0 then .fin neg frac f.emin
  else .fin neg (2 ^ f.fb + frac) (f.emin + ex - 1)

/-- A signalling NaN. -/
def FVal.sig : FVal → Bool
  | .nan s => s
  | _ => false

def FVal.isNan : FVal → Bool
  | .nan _ => true
  | _ => false

def FVal.isInf : FVal → Bool
  | .inf _ => true
  | _ => false

/-- A zero of either sign. -/
def FVal.isZero : FVal → Bool
  | .fin _ m _ => m == 0
  | _ => false

def FVal.neg : FVal → Bool
  | .nan _ => false
  | .inf n => n
  | .fin n _ _ => n

/-- The value with its sign turned. -/
def FVal.flip : FVal → FVal
  | .nan s => .nan s
  | .inf n => .inf !n
  | .fin n m e => .fin (!n) m e

/-- A result: the bits, and the flags NV, DZ and OF of the operation (FSTAT positions). -/
structure FRes where
  x  : Nat
  fl : Nat := 0
  deriving DecidableEq, Repr

/-- Whether the rounded magnitude goes up: `n` the truncated one, `r` of `d` the rest (R83). -/
def roundUpBit (rm : Nat) (neg : Bool) (n r d : Nat) : Bool :=
  match rm with
  | 0 => 2 * r > d || (2 * r == d && n % 2 == 1)
  | 1 => false
  | 2 => neg && r != 0
  | _ => !neg && r != 0

/-- `m · 2^e` truncated and rounded to a multiple of `2^q`: the multiple. -/
def roundTo (rm : Nat) (neg : Bool) (m : Nat) (e q : Int) : Nat :=
  if q ≤ e then m * 2 ^ (e - q).toNat
  else
    let d := 2 ^ (q - e).toNat
    m / d + (roundUpBit rm neg (m / d) (m % d) d).toNat

/-- The sign bit of a format. -/
def Fmt.signed (f : Fmt) (neg : Bool) (x : Nat) : Nat := if neg then f.sign + x else x

/-- The result of an overflow (R83). -/
def Fmt.overflow (f : Fmt) (rm : Nat) (neg : Bool) : Nat :=
  let toInf := match rm with
    | 0 => true | 1 => false | 2 => neg | _ => !neg
  f.signed neg (if toInf then f.inf else f.inf - 1)

/-- The exact value `(-1)^neg · m · 2^e` rounded once into a format (R83). -/
def Fmt.round (f : Fmt) (rm : Nat) (neg : Bool) (m : Nat) (e : Int) : FRes :=
  if m = 0 then ⟨f.signed neg 0, 0⟩
  else
    let q := max (e + (Nat.log2 m : Int) - f.fb) f.emin
    let x := (q - f.emin).toNat * 2 ^ f.fb + roundTo rm neg m e q
    if f.inf ≤ x then ⟨f.overflow rm neg, 4⟩ else ⟨f.signed neg x, 0⟩

/-- The canonical NaN, with NV where the operation is invalid. -/
def Fmt.bad (f : Fmt) (nv : Bool) : FRes := ⟨f.nan, nv.toNat⟩

/-- A value rounded into a format (R84). -/
def Fmt.put (f : Fmt) (rm : Nat) : FVal → FRes
  | .nan s => f.bad s
  | .inf n => ⟨f.signed n f.inf, 0⟩
  | .fin n m e => f.round rm n m e

/-- The exact sum of two finite values as an integer over `2^e`. -/
def alignTo (e : Int) : FVal → Int
  | .fin n m x => (if n then -1 else 1) * ((m * 2 ^ (x - e).toNat : Nat) : Int)
  | _ => 0

/-- The exponent of a finite value. -/
def FVal.exp : FVal → Int
  | .fin _ _ e => e
  | _ => 0

/-- A finite value scaled from an exact integer; `zneg` is the sign of an exact zero. -/
def FVal.ofInt (zneg : Bool) (x : Int) (e : Int) : FVal := .fin (if x = 0 then zneg else x < 0) x.natAbs e

/-- The exact sum of two finite values. A zero sum of two zeros of one sign keeps it; else it is −0 only under `.rm` (R83). -/
def addFin (rm : Nat) (a b : FVal) : FVal :=
  let e := min a.exp b.exp
  let zneg := if a.isZero && b.isZero && a.neg == b.neg then a.neg else rm == 2
  FVal.ofInt zneg (alignTo e a + alignTo e b) e

/-- The exact product of two values that are not ±0 and ±∞ (R156). -/
def mulVal : FVal → FVal → FVal
  | .fin n m e, .fin n' m' e' => .fin (n != n') (m * m') (e + e')
  | a, b => .inf (a.neg != b.neg)

/-- ±0 · ±∞. -/
def zeroInf (a b : FVal) : Bool := (a.isZero && b.isInf) || (a.isInf && b.isZero)

/-- The sum of two values that are no NaN (R156). -/
def Fmt.addVal (f : Fmt) (rm : Nat) (a b : FVal) : FRes :=
  match a, b with
  | .inf n, .inf n' => if n == n' then ⟨f.signed n f.inf, 0⟩ else f.bad true
  | .inf n, _ => ⟨f.signed n f.inf, 0⟩
  | _, .inf n => ⟨f.signed n f.inf, 0⟩
  | _, _ => f.put rm (addFin rm a b)

/-- `a + b` (R156). -/
def Fmt.add (f : Fmt) (rm : Nat) (a b : FVal) : FRes :=
  if a.isNan || b.isNan then f.bad (a.sig || b.sig) else f.addVal rm a b

/-- `a − b` (R156). -/
def Fmt.sub (f : Fmt) (rm : Nat) (a b : FVal) : FRes := f.add rm a b.flip

/-- `a · b` (R156). -/
def Fmt.mul (f : Fmt) (rm : Nat) (a b : FVal) : FRes :=
  if a.isNan || b.isNan then f.bad (a.sig || b.sig)
  else if zeroInf a b then f.bad true
  else f.put rm (mulVal a b)

/-- `a · b + c`, rounded once (R156). -/
def Fmt.fma (f : Fmt) (rm : Nat) (a b c : FVal) : FRes :=
  if zeroInf a b then f.bad true
  else if a.isNan || b.isNan || c.isNan then f.bad (a.sig || b.sig || c.sig)
  else f.addVal rm (mulVal a b) c

/-- The quotient of two finite nonzero magnitudes to 64 bits, with a last bit that says whether a rest is left. -/
def divFin (n : Bool) (m m' : Nat) (e e' : Int) : FVal :=
  let q := m * 2 ^ 64 / m'
  .fin n (2 * q + (if m * 2 ^ 64 % m' = 0 then 0 else 1)) (e - e' - 65)

/-- `a / b` (R156). -/
def Fmt.div (f : Fmt) (rm : Nat) (a b : FVal) : FRes :=
  let n := a.neg != b.neg
  if a.isNan || b.isNan then f.bad (a.sig || b.sig)
  else match a, b with
    | .inf _, .inf _ => f.bad true
    | .inf _, _ => ⟨f.signed n f.inf, 0⟩
    | _, .inf _ => ⟨f.signed n 0, 0⟩
    | .fin _ m e, .fin _ m' e' =>
        if m' = 0 then (if m = 0 then f.bad true else ⟨f.signed n f.inf, 2⟩)
        else if m = 0 then ⟨f.signed n 0, 0⟩
        else f.put rm (divFin n m m' e e')
    | _, _ => f.bad false

/-- `a < b` for values that are no NaN, with −0 below +0 when `zeros` is set. -/
def FVal.lt (zeros : Bool) (a b : FVal) : Bool :=
  match a, b with
  | .inf n, .inf n' => n && !n'
  | .inf n, _ => n
  | _, .inf n => !n
  | .fin n m e, .fin n' m' e' =>
      let x := min e e'
      let u := alignTo x (.fin n m e); let v := alignTo x (.fin n' m' e')
      u < v || (zeros && u == v && m == 0 && n && !n')
  | _, _ => false

/-- `fmin` and `fmax` (R157): the bits of the chosen source. -/
def Fmt.pick (f : Fmt) (max : Bool) (x y : Nat) : FRes :=
  let a := f.val x; let b := f.val y
  let nv := (a.sig || b.sig).toNat
  if a.isNan && b.isNan then ⟨f.nan, nv⟩
  else if a.isNan then ⟨y, nv⟩
  else if b.isNan then ⟨x, nv⟩
  else if a.lt true b == max then ⟨y, nv⟩ else ⟨x, nv⟩

/-- The relations of R159. -/
def fpRelation (sub : Nat) (a b : FVal) : Bool :=
  let un := a.isNan || b.isNan
  let lt := !un && a.lt false b
  let gt := !un && b.lt false a
  match sub with
  | 0 => !un && !lt && !gt
  | 1 => un || lt || gt
  | 2 => lt
  | 3 => !un && !gt
  | 4 => gt
  | 5 => !un && !lt
  | 6 => !un
  | _ => un

/-- NV of a comparison (R159). -/
def fpRelationNv (sub : Nat) (a b : FVal) : Bool :=
  a.sig || b.sig || (2 ≤ sub && sub ≤ 5 && (a.isNan || b.isNan))

/-- `fclass` (R160). -/
def Fmt.classify (f : Fmt) (x : Nat) : Nat :=
  let sub := fun m => decide (m < 2 ^ f.fb)
  match f.val x with
  | .nan s => if s then 2 ^ 8 else 2 ^ 9
  | .inf n => if n then 2 ^ 0 else 2 ^ 7
  | .fin n m _ =>
      if m = 0 then (if n then 2 ^ 3 else 2 ^ 4)
      else if sub m then (if n then 2 ^ 2 else 2 ^ 5)
      else (if n then 2 ^ 1 else 2 ^ 6)

/-! ### Functions of one value (R158) -/

/-- The integer square root, by digits from bit `n − 1` down. -/
def isqrtFrom (x r : Nat) : Nat → Nat
  | 0 => r
  | n + 1 => if (r + 2 ^ n) * (r + 2 ^ n) ≤ x then isqrtFrom x (r + 2 ^ n) n else isqrtFrom x r n

/-- The integer square root. -/
def isqrt (x : Nat) : Nat := isqrtFrom x 0 (Nat.log2 x / 2 + 1)

/-- `1/√(m · 2^(2h))` to 64 bits beyond `m`, with a last bit that says whether a rest is left. -/
def rsqFin (m : Nat) (h : Int) : FVal :=
  let q := isqrt (2 ^ 160 / m)
  .fin false (2 * q + (if q * q * m = 2 ^ 160 then 0 else 1)) (-h - 81)

/-- `frcp` (R158). -/
def Fmt.rcp (f : Fmt) (rm : Nat) (a : FVal) : FRes := f.div rm (.fin false 1 0) a

/-- `frsq` (R158). -/
def Fmt.rsq (f : Fmt) (rm : Nat) : FVal → FRes
  | .nan s => f.bad s
  | .inf n => if n then f.bad true else ⟨0, 0⟩
  | .fin n m e =>
      if m = 0 then ⟨f.signed n f.inf, 2⟩
      else if n then f.bad true
      else if e % 2 = 0 then f.put rm (rsqFin m (e / 2)) else f.put rm (rsqFin (2 * m) ((e - 1) / 2))

/-- Fixed-point digits of the working precision of `fexp2` and `flog2`: more than any rounding of R82 can need. -/
def workBits : Nat := 256

/-- The sum of `z^(2k+1) / (2k+1)` in fixed point from a power `p = z^(2k+1)` on, with `zz = z²`. -/
def atanhSum (zz p k : Nat) : Nat → Nat
  | 0 => 0
  | n + 1 => p / (2 * k + 1) + atanhSum zz (p * zz / 2 ^ workBits) (k + 1) n

/-- Half the natural logarithm of `a / b`, `b ≤ a ≤ 2b`, in fixed point: `atanh((a − b)/(a + b))`. -/
def halfLn (a b : Nat) : Nat :=
  let z := (a - b) * 2 ^ workBits / (a + b)
  atanhSum (z * z / 2 ^ workBits) z 0 100

/-- The terms of the exponential series in fixed point, from term `t` number `k` on. -/
def expSum (x t k : Nat) : Nat → Nat
  | 0 => 0
  | n + 1 => t + expSum x (t * x / 2 ^ workBits / (k + 1)) (k + 1) n

/-- `2^(r / 2^workBits)` in fixed point, for a fraction `r`. -/
def exp2Frac (r : Nat) : Nat :=
  expSum (r * (2 * halfLn 2 1) / 2 ^ workBits) (2 ^ workBits) 0 80

/-- `2^a` of a finite `a`. An exponent beyond every format's range stands for itself (R158). -/
def exp2Fin (n : Bool) (m : Nat) (e : Int) : FVal :=
  if m = 0 then .fin false 1 0
  else if e + (Nat.log2 m : Int) ≥ 12 then (if n then .fin false 1 (-4096) else .fin false 1 4096)
  else
    let x : Int := (if n then -1 else 1) *
      (if 0 ≤ e + workBits then ((m * 2 ^ (e + workBits).toNat : Nat) : Int) else ((m / 2 ^ (-(e + workBits)).toNat : Nat) : Int))
    let k := x / (2 ^ workBits : Nat)
    let r := (x % (2 ^ workBits : Nat)).toNat
    if r = 0 then .fin false 1 k else .fin false (2 * exp2Frac r + 1) (k - workBits - 1)

/-- `fexp2` (R158). -/
def Fmt.exp2 (f : Fmt) (rm : Nat) : FVal → FRes
  | .nan s => f.bad s
  | .inf n => ⟨if n then 0 else f.inf, 0⟩
  | .fin n m e => f.put rm (exp2Fin n m e)

/-- `log2(m · 2^e)`, exact for a power of two. -/
def log2Fin (m : Nat) (e : Int) : FVal :=
  let k := Nat.log2 m
  let c : Int := e + k
  if m = 2 ^ k then FVal.ofInt false c 0
  else
    let t : Int := c * (2 ^ workBits : Nat) + ((halfLn m (2 ^ k) * 2 ^ workBits / halfLn 2 1 : Nat) : Int)
    FVal.ofInt false (2 * t + 1) (-(workBits : Int) - 1)

/-- `flog2` (R158). -/
def Fmt.log2 (f : Fmt) (rm : Nat) : FVal → FRes
  | .nan s => f.bad s
  | .inf n => if n then f.bad true else ⟨f.inf, 0⟩
  | .fin n m e =>
      if m = 0 then ⟨f.signed true f.inf, 2⟩
      else if n then f.bad true
      else f.put rm (log2Fin m e)

/-- `frnd` (R158). -/
def Fmt.rnd (f : Fmt) (rm : Nat) : FVal → FRes
  | .nan s => f.bad s
  | .inf n => ⟨f.signed n f.inf, 0⟩
  | .fin n m e => f.round rm n (if 0 ≤ e then m else roundTo rm n m e 0) (max e 0)

/-! ### Conversions (R84) -/

/-- A value rounded to an integer (R84). -/
def FVal.toInt (rm : Nat) : FVal → Int
  | .fin n m e => (if n then -1 else 1) * ((roundTo rm n m e 0 : Nat) : Int)
  | _ => 0

/-- A floating-point value converted to an integer with limits: the integer, and whether NV is set (R84). -/
def toLimits (rm : Nat) (a : FVal) (lo hi : Int) : Int × Bool :=
  match a with
  | .nan _ => (0, true)
  | .inf n => (if n then lo else hi, true)
  | .fin n m e =>
      let x := (FVal.fin n m e).toInt rm
      (sat x lo hi, x < lo || hi < x)

/-- An integer converted to a format. -/
def Fmt.ofInteger (f : Fmt) (rm : Nat) (x : Int) : FRes := f.put rm (FVal.ofInt false x 0)

/-! ### Exact sums (R97, R168, R194) -/

/-- The least exponent of a list of finite values. -/
def leastExp : List FVal → Int
  | [] => 0
  | [x] => x.exp
  | x :: xs => min x.exp (leastExp xs)

/-- The exact sum of finite values, rounded once; a zero sum is −0 where every value is −0 and under `.rm`, else +0: R168 says so of `lmv`, and the
block sums of R97 and R184 take the same sign. (DESIGN CHOICE, log entry 100) -/
def Fmt.sumFin (f : Fmt) (rm : Nat) (xs : List FVal) : FRes :=
  let e := leastExp xs
  let zneg := (!xs.isEmpty && xs.all fun x => x.isZero && x.neg) || rm == 2
  f.put rm (FVal.ofInt zneg (xs.foldl (fun t x => t + alignTo e x) 0) e)

/-- The sum of values with the specials of an exact sum; `nv` says that a term was invalid already. -/
def Fmt.sumVals (f : Fmt) (rm : Nat) (nv : Bool) (xs : List FVal) : FRes :=
  let pos := xs.any fun x => x.isInf && !x.neg
  let neg := xs.any fun x => x.isInf && x.neg
  let sig := xs.any FVal.sig
  if nv || (pos && neg) then f.bad true
  else if xs.any FVal.isNan then f.bad sig
  else if pos || neg then ⟨f.signed neg f.inf, 0⟩
  else f.sumFin rm xs

/-- A product, NaN where a factor is. -/
def mulAny (a b : FVal) : FVal :=
  if a.isNan || b.isNan then .nan (a.sig || b.sig) else if zeroInf a b then .nan false else mulVal a b

/-- The exact sum of products, rounded once (R97, R168). -/
def Fmt.dot (f : Fmt) (rm : Nat) (ps : List (FVal × FVal)) : FRes :=
  f.sumVals rm (ps.any fun p => zeroInf p.1 p.2) (ps.map fun p => mulAny p.1 p.2)

/-! ### Finishing a result -/

/-- `.sat` of R83: into [+0.0, 1.0], a NaN to +0.0. -/
def Fmt.clamp (f : Fmt) (x : Nat) : Nat :=
  if (f.val x).isNan || bit x (f.eb + f.fb) then 0 else Nat.min x f.one

/-- Whether bits are an infinity or a NaN. -/
def Fmt.nonFinite (f : Fmt) (x : Nat) : Bool := x / 2 ^ f.fb % 2 ^ f.eb == 2 ^ f.eb - 1

/-- The written bits and the flags of a result: the clamp, then NF by what is written (R154). -/
def Fmt.finish (f : Fmt) (sat : Bool) (r : FRes) : FRes :=
  let x := if sat then f.clamp r.x else r.x
  ⟨x, r.fl + (if f.nonFinite x then 8 else 0)⟩

end Sys2Proof
end

