-- ==== Sys2Proof/Machine/Stores.lean ====
section
/-!
DEFINITION. Performing stores, reductions and atomics: writer records and write filters (R249, R250), the operations of R226, the store
queue (R220 to R222), staging in deterministic mode (R227) and the blocks' held stores (R254).
-/

namespace Sys2Proof.Machine

open Sys2Proof

/-! ### Writer records -/

/-- A line of the filter of a group closes where its record still names the group (R250). -/
def State.closeOwn (s : State) (gid line : Nat) : State :=
  if (s.sideOf line).gid = gid then s.closeLine line else s

/-- Every line of a group's write filter closes and the filter is emptied (R250). -/
def State.closeFilter (s : State) (gid : Nat) : State :=
  let t := (s.grp gid).filter.foldl (fun t l => t.closeOwn gid l) s
  t.setGrp gid { t.grp gid with filter := [] }

/-- A line enters a group's write filter; the oldest line of a full one closes and RACEUNTR counts it (R250). A line that is in it already keeps
its place. (DESIGN CHOICE, log entry 103) -/
def State.enterFilter (s : State) (gid line : Nat) : State :=
  let g := s.grp gid
  if g.filter.contains line then s
  else match g.filter with
    | o :: rest =>
        if g.filter.length < 2048 then s.setGrp gid { g with filter := g.filter ++ [line] }
        else (s.closeOwn gid o).setGrp gid { g with
          filter := rest ++ [line], csr := { g.csr with raceuntr := g.count 0x051 g.csr.raceuntr (Nat.min (g.csr.raceuntr + 1) 0xFFFFFFFF) } }
    | [] => s.setGrp gid { g with filter := [line] }

/-- The record of a line after a plain store of a group was performed there (R249, R253). (DEDUCED, log entry 21) -/
def State.openLine (s : State) (gid line : Nat) : State :=
  let x := s.sideOf line
  if isCxl (64 * line) then s
  else if !s.racesOn gid then s.setSide line { x with opn := false }
  else if x.key = s.keyOf gid then (s.setSide line { x with opn := true, gid := gid }).enterFilter gid line
  else s

/-- The records of a range of bytes opened by a plain store (R249). -/
def State.openLines (s : State) (gid pa n : Nat) : State :=
  if n = 0 then s
  else (rangeFrom (pa / 64) ((pa + n - 1) / 64 + 1 - pa / 64)).foldl (fun t l => t.openLine gid l) s

/-! ### Atomic operations (R226) -/

/-- The lesser or greater of two words by type. -/
def pickWord (max : Bool) (ty : Nat) (w v : Nat) : Nat :=
  if ty = 7 then (fp32.pick max w v).x
  else
    let less := if ty = 1 then decide (sext w 32 < sext v 32) else decide (w < v)
    let more := if ty = 1 then decide (sext v 32 < sext w 32) else decide (v < w)
    if (if max then more else less) then w else v

/-- The new word of R226. -/
def atomWord (op ty : Nat) (w v v2 : Word) : Word :=
  match op with
  | 0 => if ty = 7 then BitVec.ofNat 32 (fp32.add 0 (fp32.val w.toNat) (fp32.val v.toNat)).x else w + v
  | 1 => BitVec.ofNat 32 (pickWord false ty w.toNat v.toNat)
  | 2 => BitVec.ofNat 32 (pickWord true ty w.toNat v.toNat)
  | 3 => w &&& v
  | 4 => w ||| v
  | 5 => w ^^^ v
  | 6 => v
  | _ => if w = v then v2 else w

/-- The word of a space at an address. -/
def State.wordAt (s : State) (key : Nat) (sp : Space) (x : Nat) : Word :=
  BitVec.ofNat 32 (leVal (match sp with
    | .global => s.bytesAs key x 4
    | .spad t => s.spadRead t x 4
    | .const => []))

/-- A word written without touching a mark of the line or word (R224). -/
def State.putWord (s : State) (key : Nat) (sp : Space) (x : Nat) (w : Word) : State :=
  match sp with
  | .global => s.writeAs key x (leBytes 4 w.toNat)
  | .spad t => s.setTeam t { s.team t with spad := writeCells (s.team t).spad x (leBytes 4 w.toNat) }
  | .const => s

/-- One lane's atomic step: the old word, and the state with the new one. -/
def State.atomStep (s : State) (key op ty : Nat) (sp : Space) (x : Nat) (v v2 : Word) : Word × State :=
  let w := s.wordAt key sp x
  (w, s.putWord key sp x (atomWord op ty w v v2))

/-! ### The store queue -/

/-- The key identifier of the context that a store belongs to. -/
def State.sqKey (s : State) (e : SqEntry) : Nat := s.keyOf e.gid

/-- Another piece of a store that writes the whole of its line has still to be performed. -/
def State.lineLeft (s : State) (e : SqEntry) : Bool :=
  let same := fun x : SqEntry => x.gid == e.gid && x.ord == e.ord && x.space == .global && x.pa / 64 == e.pa / 64
  (s.core (coreOf e.gid)).sq.any same || (s.team (s.grp e.gid).team).held.any same

/-- The marks of a global line after a piece of a store has been written there: the last piece of one that writes the whole line clears UE
and POIS (R211, R224), and a store of a poisoned row sets POIS (R187). -/
def State.lineStored (s : State) (e : SqEntry) : State :=
  let x := s.sideOf (e.pa / 64)
  if isCxl e.pa then s
  else if e.pois then s.setSide (e.pa / 64) { x with pois := true }
  else if e.whole && !s.lineLeft e then s.setSide (e.pa / 64) { x with ue := false, pois := false }
  else s

/-- A store writes its bytes (R220, R249): a plain store of the holder or a direct one opens the lines it writes. -/
def State.writeStore (s : State) (key : Nat) (opens : Bool) (e : SqEntry) : State :=
  match e.kind, e.space with
  | .red op ty, sp => (s.atomStep key op ty sp e.at (BitVec.ofNat 32 (leVal e.bytes)) 0#32).2
  | _, .global =>
      let t := (s.writeAs key e.pa e.bytes).lineStored e
      if opens && e.rel.isNone then t.openLines e.gid e.pa e.bytes.length
      else if e.rel.isNone then (rangeFrom (e.pa / 64) 1).foldl State.closeLine t
      else t
  | _, .spad w => s.spadWrite w e.va e.bytes
  | _, .const => s

/-- A release closes every line of its group before it is performed anywhere (R250). -/
def State.releaseFirst (s : State) (e : SqEntry) : State := if e.rel.isSome then s.closeFilter e.gid else s

/-- A queued store is performed; a global one of a block whose own stores the ticket unit holds covers those that it meets there (R256). -/
def State.performStore (s : State) (key : Nat) (opens : Bool) (e : SqEntry) : State :=
  let t := (s.releaseFirst e).writeStore key opens e
  if e.space == .global then t.overHeld (s.grp e.gid).team e.pa e.bytes.length else t

/-- The ticket unit holds every global store but a direct one of a block that is not the holder (R225, R254, R256, R396). -/
def State.holdsBack (s : State) (e : SqEntry) : Bool :=
  let t := (s.grp e.gid).team
  (e.kind == .plain || e.kind == .spill) && e.space == .global && s.heldBlock t && !s.holds t

/-- The ticket watchdog of a launch runs from the moment work is held where none was (R257). -/
def State.armTicket (s : State) (t : Nat) : State :=
  let k := (s.team t).launch
  match Tab.find s.launches k with
  | some l =>
      if l.det && l.wdog.isNone then
        { s with launches := Tab.set s.launches k { l with wdog := some (s.pkg.wtime + s.pkg.twdog * 1000000) } }
      else s
  | none => s

/-- Work that the ticket unit holds for a launch (R257). -/
def State.ticketWork (s : State) (k : Nat) : Bool :=
  s.teams.any (fun e => e.2.launch == k && !(e.2.held.isEmpty && e.2.staged.isEmpty && e.2.handed.isEmpty))
    || (match Tab.find s.launches k with | some l => !(l.staged.isEmpty && l.heldOf.isEmpty) | none => false)

/-- The ticket watchdog stops when no held work is left (R257). -/
def State.settleTicket (s : State) (k : Nat) : State :=
  match Tab.find s.launches k with
  | some l => if s.ticketWork k then s else { s with launches := Tab.set s.launches k { l with wdog := none } }
  | none => s

/-- Whether entry `k` of a core's store queue may be performed, or held: no earlier entry of the same lane or instruction overlaps it; no
earlier pending access of the lane stands before it, a release waits for all of them, and a reduction for those that synchronise (R221, R222,
R240). A direct store does not wait for the lane's held stores (R256). (DEDUCED, log entry 22) -/
def storeReady (s : State) (core k : Nat) (e : SqEntry) : Bool :=
  ((s.core core).sq.take k).all (fun o =>
      o.gid != e.gid || !(o.lane == e.lane || o.ord == e.ord) || o.space != e.space
        || !overlap o.at o.bytes.length e.at e.bytes.length)
    && clearBefore s e.gid e.lane e.ord e.space e.at e.bytes.length
    && (!e.syncs || syncBefore s e.gid e.lane e.ord)
    && (e.rel.isNone || laneDoneBefore s e.gid e.lane e.ord)

/-- A queued store of a lane stands at or behind a release of the lane that waits for its staged entries (R222, R227). -/
def State.behind (s : State) (e : SqEntry) : Bool :=
  let g := s.grp e.gid
  let t := s.team g.team
  (s.core (coreOf e.gid)).sq.any fun o =>
    o.gid == e.gid && o.lane == e.lane && o.rel.isSome && o.ord ≤ e.ord
      && (t.staged ++ t.handed).any fun x => x.role == g.role && x.lane == e.lane && x.ord < o.ord

/-- The ticket unit takes a store of a team: the lanes of its block see it from now on, so that a release closes its group's lines
(R250). -/
def State.holdStore (s : State) (e : SqEntry) : State :=
  let s := s.releaseFirst e
  let w := (s.grp e.gid).team
  (s.setTeam w { s.team w with held := (s.team w).held ++ [e] }).armTicket w

/-- A store that has left the queue is performed, or passes to the ticket unit (R220, R225). -/
def State.finishStore (s : State) (held : Bool) (e : SqEntry) : State :=
  if held then s.holdStore e
  else s.performStore (s.sqKey e) ((s.grp e.gid).bound && (e.kind == .direct || s.opens (s.grp e.gid).team)) e

/-- STORE_PERFORM (R220): entry `k` of the queue is performed, or passes to the ticket unit. (DEDUCED, log entry 22) -/
def execStorePerform (core k : Nat) (s : State) : Out :=
  match (s.core core).sq[k]? with
  | none => .next s
  | some e =>
      if !storeReady s core k e then .next s
      else
        let c := s.core core
        .next ((s.setCore core { c with sq := dropNth c.sq k }).finishStore (s.holdsBack e) e)

/-- Stores of a core leave its queue in its order, performed or held. -/
def State.drain (s : State) (core : Nat) (which : SqEntry → Bool) : State :=
  let c := s.core core
  (c.sq.filter which).foldl (fun u e => u.finishStore (u.holdsBack e) e) (s.setCore core { c with sq := c.sq.filter fun e => !which e })

/-- The queued stores of a group that ends are performed or held, but for those behind a release that waits for staged entries. -/
def State.drainGroup (s : State) (gid : Nat) : State := s.drain (coreOf gid) fun e => e.gid == gid && !s.behind e

/-- The same for every group of a team that ends, and then for the rest, once its entries have been applied: what is held of the rest stays
behind the entries that wait for the ticket. -/
def State.drainTeam (s : State) (t : Nat) : State := s.drain (coreOf t) fun e => (s.grp e.gid).team == t && !s.behind e
def State.drainLate (s : State) (t : Nat) : State :=
  let c := s.core (coreOf t)
  let mark := fun e : SqEntry => if (s.grp e.gid).team == t && s.behind e then { e with late := true } else e
  (s.setCore (coreOf t) { c with sq := c.sq.map mark }).drain (coreOf t) fun e => (s.grp e.gid).team == t

/-- The entries of one instruction write the whole of a global line. -/
def wholeLine (es : List SqEntry) (line : Nat) : Bool :=
  16 ≤ es.length && (rangeFrom (64 * line) 64).all fun a => es.any fun e => e.pa ≤ a && a < e.pa + e.bytes.length

/-- Entries of one instruction, marked where they write the whole of their line together (R224). -/
def markWhole (es : List SqEntry) : List SqEntry :=
  es.map fun e => if e.space == .global && wholeLine es (e.pa / 64) then { e with whole := true } else e

/-- Stores of the present instruction enter the core's queue, in ascending lane order (R220). -/
def State.enqueue (s : State) (es : List SqEntry) : State :=
  let c := coreOf s.cur.gid
  { s.setCore c { s.core c with sq := (s.core c).sq ++ markWhole es } with seqno := s.seqno + 1 }

/-! ### Staging in deterministic mode (R227) -/

/-- The order of staged entries: scratchpad entries flush point by flush point, global ones block by block and within a block by flush
point; those of one flush point by key (R227). -/
def stagedLe (a b : Staged) : Bool :=
  let key := fun e : Staged =>
    if e.space == .global then [1, e.block, e.flush, e.role, e.lane, e.ord] else [0, e.flush, e.block, e.role, e.lane, e.ord]
  decide (key a ≤ key b)

/-- An entry put into its place. -/
def insertStaged (e : Staged) : List Staged → List Staged
  | [] => [e]
  | x :: xs => if stagedLe e x then e :: x :: xs else x :: insertStaged e xs

/-- Entries sorted by key. -/
def sortStaged : List Staged → List Staged
  | [] => []
  | e :: es => insertStaged e (sortStaged es)

/-- The flush of a block: its staged entries are handed over (R227, R228). -/
def State.flushStaged (s : State) (t : Nat) : State :=
  let x := s.team t
  { s.setTeam t { x with handed := x.handed ++ x.staged.map fun e => { e with flush := s.seqno }, staged := [] } with seqno := s.seqno + 1 }

/-- Whether some staged entry still completes the pending `atom` of a group. -/
def State.atomLeft (s : State) (gid ord : Nat) : Bool :=
  s.teams.any fun e => (e.2.staged ++ e.2.handed).any fun x => x.atom == some (gid, ord)

/-- A long-latency operation of a group completes: its flag counts down (R61, R346). -/
def State.opDone (s : State) (gid ord : Nat) : State :=
  let g := s.grp gid
  match g.ops.find? (·.ord == ord) with
  | none => s
  | some p =>
      let g := match p.flag with | some i => g.flagDec i | none => g
      s.setGrp gid { g with ops := g.ops.filter (·.ord != ord) }

/-- A staged entry applied (R227, R224): a release closes its group's lines first (R250); a marked word of an `atom` is left alone, D receives 0,
and the error is recorded. -/
def State.applyStaged (s : State) (e : Staged) : State :=
  let s := if e.rel then s.closeFilter e.gid else s
  let key := (s.ctx e.ctx).key
  let x := match e.space with | .global => e.pa | _ => e.va
  let bad := match e.space with
    | .global => s.marked e.pa
    | .spad t => s.spadBad t e.va 4
    | .const => false
  match e.atom with
  | none => (s.atomStep key e.op e.ty e.space x e.opnd e.opnd2).2
  | some (gid, ord) =>
      let op := (s.grp gid).ops.find? (·.ord == ord)
      let d := match op with
        | some p => (match p.i with | .atom f => f.d.toNat | _ => 0)
        | none => 0
      let port := match op with | some p => p.port | none => 0
      let one : Word := BitVec.ofNat 32 (2 ^ e.lane)
      let r := if bad then (0#32, s) else s.atomStep key e.op e.ty e.space x e.opnd e.opnd2
      let g := (r.2.grp gid).setV d one fun _ => r.1
      let g := if bad then
          logRanked (recordRanked g port 0 e.pc [⟨e.lane, fUE⟩]) port e.pc
            (match e.space with | .global => lineError e.va | _ => { kind := 5, posb := e.va })
        else g
      r.2.setGrp gid g

/-- Entries applied in order; an `atom` completes with the last entry of its instruction. -/
def State.applyAll (s : State) : List Staged → State
  | [] => s
  | e :: es =>
      let t := s.applyStaged e
      let rest := es.any fun x => x.atom == e.atom
      let t := match e.atom with
        | some (gid, ord) => if rest || t.atomLeft gid ord then t else t.opDone gid ord
        | none => t
      t.applyAll es

/-- The teams of a team's cluster. -/
def State.clusterOf (s : State) (t : Nat) : List Nat :=
  let x := s.team t
  (s.teams.filter fun e => e.2.bound && e.2.launch == x.launch && e.2.cluster == x.cluster).map (·.1)

/-- A frontier point's entries are applied when its group ends: every lane of it has exited (R314). -/
def State.pointOpen (s : State) (t : Nat) : Bool :=
  (match (s.team t).work with | .point _ _ _ _ => true | _ => false)
    && s.groups.any fun e => e.2.bound && e.2.team == t && e.2.lanes.any Lane.live

/-- An entry that may be applied now: not one of a frontier point that runs; one of scratchpad, or a global one of a block that holds the ticket
or of no block (R227, R314). -/
def State.canApply (s : State) (e : Staged) (t : Nat) : Bool :=
  !s.pointOpen t && (e.space != .global || !s.heldBlock t || s.holds t)

/-- The accesses of an entry's lane that come before its application have been performed: every earlier one, and a load of its bytes that was
issued before the flush, unless that load itself waits for an acquire (R222, R227, R397). (DEDUCED, log entry 22) -/
def State.stagedReady (s : State) (e : Staged) : Bool :=
  let at_ := match e.space with | .global => e.pa | _ => e.va
  acquiredBefore s e.gid e.lane e.ord && laneQuietBefore s e.gid e.lane e.ord
    && (s.grp e.gid).ops.all fun p => p.ord < e.ord || e.flush ≤ p.ord || !p.act.getLsbD e.lane || !p.touches e.lane e.space at_ 4
        || !acquiredBefore s e.gid e.lane p.ord

/-- The entries of teams that may be applied now, in their order: none of them stands behind one that waits for an earlier access. -/
def State.readyStaged (s : State) (ts : List Nat) : List Staged :=
  (sortStaged (ts.flatMap fun t => (s.team t).handed.filter fun e => s.canApply e t)).takeWhile s.stagedReady

/-- Entries that are to be applied leave the teams that have handed them over. -/
def State.takeHanded (s : State) (ts : List Nat) (es : List Staged) : State :=
  ts.foldl (fun u t => u.setTeam t { u.team t with handed := (u.team t).handed.filter (!es.contains ·) }) s

/-- STAGED_ENTRY_APPLY (R227): the entries that the blocks of a cluster have handed over, in the order of R227; scratchpad entries are
applied, and global ones once their block holds the ticket. -/
def execStagedEntryApply (team : Nat) (s : State) : Out :=
  if !(s.team team).bound then .next s
  else
    let ts := s.clusterOf team
    let ready := s.readyStaged ts
    .next (((s.takeHanded ts ready).applyAll ready).settleTicket (s.team team).launch)

end Sys2Proof.Machine
end

