-- ==== Sys2Proof/Machine/Sync.lean ====
section
/-!
DEFINITION. Waiting: completion flags and copy tags (R346 to R352), and barriers (R353 to R361).
-/

namespace Sys2Proof.Machine

open Sys2Proof

def execFwait (f : Fields) (s : State) : Out := issued (.fwait f) f s fun _ => s.retire
def execTwaitAny (f : Fields) (s : State) : Out := issued (.twaitAny f) f s fun _ => s.retire
def execTwaitAll (f : Fields) (s : State) : Out := issued (.twaitAll f) f s fun _ => s.retire

/-- The lowest ready tag of a mask, or 64 (R352). -/
def lowestTag (m : Nat) : Nat := ((upto 64).find? (bit m)).getD 64

def execTffr (f : Fields) (s : State) : Out :=
  issued (.tffr f) f s fun v =>
    (if v.any then s.writeU f.d.toNat (BitVec.ofNat 32 (lowestTag (Nat.land (tagBits s.tagsBefore) (tagMask v f)))) else s).retire

/-! ### Barrier words -/

/-- A barrier word (R353). -/
structure BarWord where
  ph   : Bool
  need : Nat
  hi   : Nat
  arr  : Nat
  pend : Nat
  deriving DecidableEq, Repr

/-- A barrier word read from its eight bytes. -/
def barOf (w : Nat) : BarWord := { ph := bit w 63, need := bits w 55 48, hi := bits w 47 40, arr := bits w 39 32, pend := bits w 23 0 }

/-- Its eight bytes as a number; the reserved bits are zero. -/
def BarWord.word (b : BarWord) : Nat :=
  b.ph.toNat * 2 ^ 63 + b.need % 256 * 2 ^ 48 + b.hi % 256 * 2 ^ 40 + b.arr % 256 * 2 ^ 32 + b.pend % 2 ^ 24

/-- The barrier word of a team at an offset. -/
def State.barAt (s : State) (t off : Nat) : BarWord := barOf (leVal (s.spadRead t off 8))

def State.putBar (s : State) (t off : Nat) (b : BarWord) : State := s.spadWrite t off (leBytes 8 b.word)

/-- The team at position (0, 0) of a team's cluster; a task or point is its own (R354, R235). (DEDUCED, log entry 36) -/
def State.originTeam (s : State) (t : Nat) : Option Nat :=
  if (s.team t).work = .block then (s.clusterOf t).find? fun u => (s.team u).pos == 0 else some t

/-- The team whose window a scope names (R354). -/
def State.barTeam (s : State) (t : Nat) (f : Fields) : Option Nat :=
  if f.mod.toNat % 8 = 1 then some t else s.originTeam t

/-- The number of the flush point that a completed phase is for the entries that a block staged before its arrival (R361). -/
def flushTeam (x : Team) (ord flush : Nat) : Team :=
  { x with handed := x.handed ++ (x.staged.filter (·.ord < ord)).map fun e => { e with flush := flush }
           staged := x.staged.filter fun e => !(e.ord < ord) }

/-- The order number of the last arrival at a word of the block at position `p`, where it took part in the phase. -/
def lastOrd (arrs : List BarArr) (p : Nat) : Option Nat :=
  (arrs.filter fun a => a.key / 16 == p).foldl (fun r a => some (Nat.max (r.getD 0) a.ord)) none

/-- A bound team's entries staged before its arrival are handed over at flush point `n`. -/
def State.flushAt (s : State) (arrs : List BarArr) (n u : Nat) : State :=
  match lastOrd arrs (s.team u).pos with
  | some ord => s.setTeam u (flushTeam (s.team u) ord n)
  | none => s

/-- The flush of a `clu` or `dev` phase (R361): what each participant staged before its arrival, one that is stopped among them, is handed
over, and the scratchpad entries are applied in their order, up to one that waits for an earlier access of its lane. Global entries of a stopped block
go to the ticket unit with its launch. (DEDUCED, log entry 36) -/
def State.barFlush (s : State) (t off : Nat) : State :=
  let arrs := (s.team t).arrs.filter (·.off == off)
  let own := s.team t
  let ts := s.clusterOf t
  let n := s.seqno
  let s := { s with seqno := s.seqno + 1, parked := s.parked.map fun (p : Parked) =>
    if p.team.launch == own.launch && p.team.cluster == own.cluster then
      (match lastOrd arrs p.team.pos with | some ord => { p with team := flushTeam p.team ord n } | none => p)
    else p }
  let s := ts.foldl (fun s u => s.flushAt arrs n u) s
  let absent := fun p : Parked => p.team.launch == own.launch && p.team.cluster == own.cluster
  let stopped := ((s.parked.filter absent).flatMap (·.team.handed)).map fun e => { e with rel := false }
  let holder := match Tab.find s.launches own.launch with | some l => l.holder | none => 0
  let now := stopped.filter fun e => e.space != .global || e.block == holder
  let live := (ts.flatMap fun u => (s.team u).handed).filter fun e => e.space != .global && ts.all fun u => !s.pointOpen u
  let ready := (sortStaged (live ++ now)).takeWhile fun e => now.contains e || s.stagedReady e
  let s : State := { s with
    parked := s.parked.map fun (p : Parked) =>
      if (absent p) then { p with team := { p.team with handed := [] } } else p
    launches := s.launches.map fun e => if e.1 = own.launch then
      (e.1, { e.2 with staged := e.2.staged ++ stopped.filter fun x => !ready.contains x }) else e }
  ((s.takeHanded ts ready).applyAll ready).settleTicket own.launch

/-- Lane `l` waits on a word for PH to differ from `ph`: its `bar`, and whether it is active. -/
def Lane.barOn (n : Lane) (t off : Nat) (ph : Bool) : Option (Fields × Bool) :=
  match n.wait with
  | .bar t' off' ph' f act _ => if t' == t && off' == off && ph' == ph then some (f, act) else none
  | _ => none

/-- The lanes of a group that wait on the phase of parity `ph` leave it: the predicate of R356 says whether the group arrived last. -/
def Group.barRelease (g : Group) (t off : Nat) (ph last : Bool) : Group :=
  let g' := laneNums.foldl (fun g l =>
    match (g.lane l).barOn t off ph with
    | some (f, true) => g.setP f.d.toNat (BitVec.ofNat 32 (2 ^ l)) fun _ => boolHalf last
    | _ => g) g
  g'.mapLanes fun _ n => match n.barOn t off ph with
    | some (f, _) => n.stepOver f.len.bytes
    | none => n

/-- The last arriver of a phase among its arrivals in their order (R358). -/
def lastArrival (arrs : List BarArr) : Nat := arrs.foldl (fun _ a => a.key) 0

/-- The key of the last arriver of a phase (R358). -/
def State.lastArriver (s : State) (t off : Nat) (b : BarWord) : Nat :=
  if s.det t then b.hi - 1 else lastArrival ((s.team t).arrs.filter (·.off == off))

/-- The key of a group: 16·p + ROLE, where p is its team's position in the cluster (R358). -/
def State.groupKey (s : State) (g : Group) : Nat := 16 * (s.team g.team).pos + g.role

/-- A lane released while its team is stopping stays at the successor (R383). -/
def Group.haltReleased (old new : Group) : Group :=
  new.mapLanes fun l n => if (old.lane l).wait != .run && n.wait == .run then { n with stopped := true } else n

/-- A stop request that the lanes of a group obey at clause boundaries and waits (R383). -/
def State.stopping (s : State) (gid : Nat) : Bool :=
  let t := s.team (s.grp gid).team
  t.stop.isSome && !(s.ctx t.ctx).spec

/-- A group leaves a phase; marks may clear (R41). -/
def State.leavePhase (s : State) (t off : Nat) (ph : Bool) (last : Nat) (gid : Nat) (g : Group) : Group :=
  let h := (g.barRelease t off ph (s.groupKey g == last)).clearMarks
  if s.stopping gid then Group.haltReleased g h else h

/-- The end of a phase at the end of a cycle, where its condition holds (R357): the word starts anew and every waiting path is released. A
frozen group keeps its captured lanes and leaves the phase when they resume. (DEDUCED, log entry 36) -/
def State.barSettle (s : State) (t off : Nat) : State :=
  let b := s.barAt t off
  if !(s.team t).bound || b.need = 0 || b.arr ≠ b.need || b.pend ≠ 0 then s
  else
    let last := s.lastArriver t off b
    let s := if s.det t && (s.team t).arrs.any (fun a => a.off == off && a.wide) then s.barFlush t off else s
    let x := s.team t
    let s := (s.setTeam t { x with
      lastArr := Tab.set x.lastArr (2 * off + b.ph.toNat) last, arrs := x.arrs.filter (·.off != off) }).putBar t off
      { ph := !b.ph, need := 0, hi := 0, arr := 0, pend := 0 }
    { s with groups := s.groups.map fun e =>
        if e.2.bound && e.2.trap.frozen.isNone then (e.1, s.leavePhase t off b.ph last e.1 e.2) else e }

/-- A barrier word has changed in this cycle; the condition of its phase is tested once every change of the cycle has been made (R357).
(DEDUCED, log entry 36) -/
def State.barDue (s : State) (t off : Nat) : State := { s with bars := if s.bars.contains (t, off) then s.bars else s.bars ++ [(t, off)] }

/-- An arrival put into its place in the order of R357. -/
def insertArrival (a : Arrival) : List Arrival → List Arrival
  | [] => [a]
  | b :: bs => if a.rank < b.rank then a :: b :: bs else b :: insertArrival a bs

/-- The lanes of an arrival that is refused stay at their `bar`. -/
def Group.unarrive (g : Group) (a : Arrival) : Group :=
  g.mapLanes fun _ n => match n.wait with
    | .bar t off _ _ _ ord => if t = a.team && off = a.off && ord = a.arr.ord then { n with wait := .run } else n
    | _ => n

/-- The barrier fault of an arrival (R356). -/
def BarWord.refuses (b : BarWord) (n : Nat) : Bool := n < 1 || 255 < n || (b.arr != 0 && (b.need != n || b.arr == b.need))

/-- An arrival applied after those before it in its cycle (R356, R357). -/
def State.applyArrival (s : State) (a : Arrival) : State :=
  let b := s.barAt a.team a.off
  if !(s.team a.team).bound then s
  else if b.refuses a.n then raise (s.setGrp a.gid ((s.grp a.gid).unarrive a)) a.gid a.trap
  else
    let x := s.team a.team
    (s.setTeam a.team { x with arrs := x.arrs ++ [a.arr] }).putBar a.team a.off { b with
      need := if b.arr = 0 then a.n else b.need, arr := b.arr + 1
      hi := if s.det (s.grp a.gid).team then Nat.max b.hi (a.arr.key + 1) else b.hi }

/-- The arrivals of the present cycle, in the order of R357: primary port before secondary, then by scheduler, then by logical core. -/
def State.takeArrivals (s : State) : State :=
  (s.arrivals.foldr insertArrival []).foldl State.applyArrival { s with arrivals := [] }

/-- The barrier words changed in this cycle, at its end: its arrivals, then the phases that they complete (R357). -/
def State.settleBars (s : State) : State := s.bars.foldl (fun u b => u.barSettle b.1 b.2) { s.takeArrivals with bars := [] }

/-- Bytes that land are subtracted from a barrier word (R354). -/
def State.barLand (s : State) (t off n : Nat) : State :=
  let b := s.barAt t off
  (s.putBar t off { b with pend := wrap ((b.pend : Int) - (n : Int)) 24 }).barDue t off

/-! ### `bar.exp` and `bar` -/

/-- The tests of R354 on an offset. -/
def barPlace (s : State) (t : Option Nat) (l : Nat) (off : Int) : Check :=
  match t with
  | none => .trap (s.laneTrap 0x0D l (wrap off 48)) none
  | some u =>
      if off < 0 || ((8 * (s.team u).desc.barw : Nat) : Int) ≤ off then .trap (s.laneTrap 0x0D l (wrap off 48)) none
      else if off.toNat % 8 ≠ 0 then .trap (s.laneTrap 0x0C l off.toNat) none
      else .ok

/-- The count of `bar.exp` (R355). -/
def barExpCount (f : Fields) (v : View) : Int :=
  sext (if f.len = .l64 then (if f.bi then bImm f else v.w.ur f.b.toNat) else f.imm).toNat 32

def execBarExp (f : Fields) (s : State) : Out :=
  issuedChk (.barExp f) f s
    (fun v l => barPlace s (s.barTeam v.g.team f) l ((v.w.ur f.a.toNat).toNat : Int)) fun v =>
      match s.barTeam v.g.team f with
      | some t =>
          if v.any then
            let off := (v.w.ur f.a.toNat).toNat
            let b := s.barAt t off
            ((s.putBar t off { b with pend := wrap ((b.pend : Int) + barExpCount f v) 24 }).barDue t off).retire
          else s.retire
      | none => s.retire

/-- The offset of `bar` (R356). -/
def barOff (f : Fields) (v : View) : Int := ((v.w.ur f.a.toNat).toNat : Int) + (if f.len = .l64 then 0 else sext f.imm.toNat 32)

/-- The participant count of `bar`. -/
def barCount (f : Fields) (v : View) : Nat := (if f.bi then bImm f else v.w.ur f.b.toNat).toNat

/-- The tests of `bar`: R354, then the barrier fault of R356 against the word as it stood before the cycle's arrivals. (DEDUCED, log entry 36) -/
def barTests (f : Fields) (s : State) (v : View) (l : Nat) : Check :=
  match barPlace s (s.barTeam v.g.team f) l (barOff f v) with
  | .ok =>
      let b := s.barAt ((s.barTeam v.g.team f).getD 0) (barOff f v).toNat
      if b.refuses (barCount f v) then .trap (s.laneTrap 0x15 l 0) none else .ok
  | c => c

/-- The place of an arrival among those of one cycle: primary port before secondary, then by scheduler, then by logical core (R357). -/
def State.barRank (s : State) (v : View) : Nat := (s.portHere * 4 + v.g.sched % 4) * 2 ^ 16 + coreOf v.gid

/-- The arrival of the present issue. -/
def State.arrivalHere (s : State) (f : Fields) (v : View) (t off : Nat) : Arrival :=
  { team := t, off := off, rank := s.barRank v, gid := v.gid, n := barCount f v, trap := s.laneTrap 0x15 (lowLane v.act) 0
    arr := { off := off, key := s.groupKey v.g, ord := s.seqno, wide := f.mod.toNat % 8 != 1 } }

/-- One arrival: its lanes wait from now on, and the word counts it at the end of the cycle (R356, R357, R360). -/
def State.arrive (s : State) (f : Fields) (v : View) (t off : Nat) : State :=
  let a := s.arrivalHere f v t off
  let ph := (s.barAt t off).ph
  let u := (s.closeFilter v.gid).moveLanes fun l n =>
    if v.iss.getLsbD l then { n with wait := .bar t off ph f (v.act.getLsbD l) s.seqno } else n
  { u with seqno := s.seqno + 1, arrivals := u.arrivals ++ [a] }.barDue t off

def execBar (f : Fields) (s : State) : Out :=
  issuedChk (.bar f) f s (barTests f s) fun v =>
    if v.any then s.arrive f v ((s.barTeam v.g.team f).getD 0) (barOff f v).toNat else s.retire

end Sys2Proof.Machine
end

