-- ==== Sys2Proof/Machine/MemoryOps.lean ====
section
/-!
DEFINITION. Loads, stores, atomics, fences, prefetch and the constant store (R218 to R233): what they do at issue, and what their
completion writes.
-/

namespace Sys2Proof.Machine

open Sys2Proof

/-- The physical address of lane `l`'s access; 0 outside global space. -/
def laneAddrs (s : State) (v : View) (f : Fields) (w : Where) (kind : Kind) : List Nat :=
  mkLanes fun l =>
    if w == .global && v.act.getLsbD l then (s.xlate v.gid (v.gaddr f l) kind).pa else 0

/-- The least time of the accesses of the active lanes (R26). -/
def accessLeast (s : State) (v : View) (sp : Space) (pas : List Nat) : Least :=
  (lanesOf v.act).foldl (fun m l => m.max (spaceLeast s v.gid sp (nth 0 pas l))) (0, 0)

/-- A long-latency access of the lanes. -/
def accessPend (i : Instr) (f : Fields) (a : AccSpec) (s : State) (v : View) : Pend :=
  let sp := spaceOf f a.w s v
  let pas := laneAddrs s v f a.w a.kind
  { s.pend i f v (accessLeast s v sp pas) with
    space := sp, va := mkLanes (fun l => if v.act.getLsbD l then v.addr f a.w l else 0), pa := pas }

/-! ### Loads (R219, R223) -/

def ldSpec (f : Fields) : AccSpec :=
  { w := whereLd f, k := accSize f.tyN, kind := .read, plain := !f.mod.getLsbD 3, poison := true }

def execLd (f : Fields) (s : State) : Out :=
  issuedChk (.ld f) f s (accessTests f (ldSpec f) s) fun v => (s.issueOp v.gid (accessPend (.ld f) f (ldSpec f) s v)).retire

def probeSpec (f : Fields) : AccSpec :=
  { w := .global, k := accSize f.tyN, kind := .read, plain := !f.mod.getLsbD 3, poison := true, probe := true }

/-- The active lanes whose page lies in the far tier (R223). -/
def farLanes (s : State) (v : View) (f : Fields) : Word :=
  mkMask fun l => v.act.getLsbD l && (match s.xlate v.gid (v.gaddr f l) .read with | .tier _ => true | _ => false)

def execLdProbe (f : Fields) (s : State) : Out :=
  issuedChk (.ldProbe f) f s (accessTests f (probeSpec f) s) fun v =>
    (s.issueOp v.gid { accessPend (.ldProbe f) f (probeSpec f) s v with far := farLanes s v f }).retire

/-- A loaded value in the destination word (R219). -/
def loadWord (ty : Nat) (bs : List Byte) : Word :=
  let w := leVal bs
  if ty = 3 || ty = 5 then BitVec.ofInt 32 (sext w (8 * bs.length)) else BitVec.ofNat 32 w

/-- The word that lane `l` of a pending load receives. -/
def loadedWord (s : State) (gid : Nat) (p : Pend) (ty l : Nat) : Word :=
  loadWord ty (s.laneBytes gid l p.ord p.space (p.at l) (accSize ty))

/-- A pending load may take its values: nothing that comes before it in a lane's order stands before it, and before an ordered one no access
that synchronises (R240). -/
def loadReady (s : State) (gid : Nat) (p : Pend) : Bool :=
  (lanesOf p.act).all fun l =>
    clearBefore s gid l p.ord p.space (p.at l) p.size && noRedBefore s gid l p.ord p.space (p.at l) p.size
      && (!p.acquires || syncBefore s gid l p.ord)

/-- Lanes of a pending access have seen what they read of other blocks' held stores (R236). -/
def State.lanesSeen (s : State) (gid : Nat) (p : Pend) (n : Nat) : State :=
  if p.space == .global then
    (lanesOf p.act).foldl (fun t l => t.markSeen (s.grp gid).team (readerOf gid l) (p.at l) n) s
  else s

/-- The completion of `ld` (R219). (DEDUCED, log entry 22) -/
def completeLd (s : State) (gid : Nat) (p : Pend) (f : Fields) : State :=
  let t := s.lanesSeen gid p (accSize f.tyN)
  (t.setGrp gid ((t.grp gid).setV f.d.toNat p.act (loadedWord s gid p f.tyN))).choicesMade

/-- The completion of `ld.probe` (R223). -/
def completeProbe (s : State) (gid : Nat) (p : Pend) (f : Fields) : State :=
  let t := s.lanesSeen gid { p with act := p.act &&& ~~~p.far } (accSize f.tyN)
  let g := (t.grp gid).setV f.d.toNat (p.act &&& ~~~p.far) (loadedWord s gid p f.tyN)
  (t.setGrp gid (g.setP f.c.toNat p.act fun l => boolHalf (p.far.getLsbD l))).choicesMade

/-! ### Stores (R220, R225) -/

def stSpec (f : Fields) : AccSpec :=
  { w := whereLd f, k := accSize f.tyN, kind := .write, plain := !f.mod.getLsbD 3 }

/-- The queue entries of a store's active lanes. -/
def storeEntries (f : Fields) (kind : StKind) (s : State) (v : View) : List SqEntry :=
  let sp := spaceOf f (whereLd f) s v
  let pas := laneAddrs s v f (whereLd f) .write
  (lanesOf v.act).map fun l =>
    { gid := v.gid, lane := l, space := sp, va := v.addr f (whereLd f) l, pa := nth 0 pas l
      bytes := leBytes (accSize f.tyN) (v.c f l).toNat, kind := kind, rel := f.scope, ord := s.seqno }

def execSt (f : Fields) (s : State) : Out :=
  issuedChk (.st f) f s (accessTests f (stSpec f) s) fun v => (s.enqueue (storeEntries f .plain s v)).retire

def execStGDirect (f : Fields) (s : State) : Out :=
  issuedChk (.stGDirect f) f s (accessTests f (stSpec f) s) fun v => (s.enqueue (storeEntries f .direct s v)).retire

/-! ### Atomics and reductions (R226, R227) -/

def atomSpec (f : Fields) (s : State) (v : View) : AccSpec :=
  { w := whereAtom f, k := 4, kind := .both, poison := !s.det v.g.team }

def redSpec (f : Fields) : AccSpec := { w := whereAtom f, k := 4, kind := .both }

/-- The second operand of `cas` (R226). -/
def casNew (f : Fields) (v : View) (l : Nat) : Word :=
  if f.sub.toNat % 8 = 7 then v.reg f.uc (f.c.toNat + 1) l else 0#32

/-- The staging entries of the active lanes (R227). -/
def stagedEntries (f : Fields) (atom : Bool) (s : State) (v : View) : List Staged :=
  let sp := spaceOf f (whereAtom f) s v
  let pas := laneAddrs s v f (whereAtom f) .both
  (lanesOf v.act).map fun l =>
    { gid := v.gid, role := v.g.role, lane := l, ord := s.seqno, op := f.sub.toNat % 8, ty := f.tyN, space := sp
      va := v.addr f (whereAtom f) l, pa := nth 0 pas l, opnd := v.c f l, opnd2 := casNew f v l
      atom := if atom then some (v.gid, s.seqno) else none, pc := s.cur.pc
      block := (s.team v.g.team).block, ctx := (s.team v.g.team).ctx, rel := f.scope.isSome }

/-- Entries join the staging buffer; an ordered one closes the group's lines first (R227, R250). -/
def State.stage (s : State) (f : Fields) (v : View) (es : List Staged) : State :=
  let s := if f.scope.isSome && !es.isEmpty then s.closeFilter v.gid else s
  if es.isEmpty then s
  else (s.setTeam v.g.team { s.team v.g.team with staged := (s.team v.g.team).staged ++ es }).armTicket v.g.team

def execAtom (f : Fields) (s : State) : Out :=
  issuedChk (.atom f) f s (fun v => accessTests f (atomSpec f s v) s v) fun v =>
    let p := accessPend (.atom f) f (atomSpec f s v) s v
    let p := { p with val := mkLanes (v.c f), val2 := mkLanes (casNew f v) }
    if s.det v.g.team && v.any then
      ((s.stage f v (stagedEntries f true s v)).issueOp v.gid { p with staged := true }).retire
    else (s.issueOp v.gid p).retire

def execRed (f : Fields) (s : State) : Out :=
  issuedChk (.red f) f s (accessTests f (redSpec f) s) fun v =>
    if s.det v.g.team then { s.stage f v (stagedEntries f false s v) with seqno := s.seqno + 1 }.retire
    else
      let sp := spaceOf f (whereAtom f) s v
      let pas := laneAddrs s v f (whereAtom f) .both
      (s.enqueue ((lanesOf v.act).map fun l =>
        { gid := v.gid, lane := l, space := sp, va := v.addr f (whereAtom f) l, pa := nth 0 pas l
          bytes := leBytes 4 (v.c f l).toNat, kind := .red (f.sub.toNat % 8) f.tyN, rel := f.scope, ord := s.seqno })).retire

/-- A pending `atom` may act at memory: the lanes' own earlier accesses of its words are done, and for an ordered one all of them. -/
def atomReady (s : State) (gid : Nat) (p : Pend) : Bool :=
  (lanesOf p.act).all fun l =>
    clearBefore s gid l p.ord p.space (p.at l) 4
      && (s.core (coreOf gid)).sq.all (fun e =>
            e.gid != gid || e.lane != l || p.ord ≤ e.ord || e.space != p.space || !overlap e.at e.bytes.length (p.at l) 4)
      && syncBefore s gid l p.ord && (!p.acquires || laneDoneBefore s gid l p.ord)

/-- The lanes' steps of an `atom` in ascending order: the old words, and the state after them (R227). -/
def atomLanes (key : Nat) (p : Pend) (f : Fields) : State → List Nat → List (Nat × Word) × State
  | s, [] => ([], s)
  | s, l :: ls =>
      let r := s.atomStep key (f.sub.toNat % 8) f.tyN p.space (p.at l) (nth 0#32 p.val l) (nth 0#32 p.val2 l)
      let q := atomLanes key p f r.2 ls
      ((l, r.1) :: q.1, q.2)

/-- The completion of `atom` in normal mode (R227, R250). -/
def completeAtom (s : State) (gid : Nat) (p : Pend) (f : Fields) : State :=
  let s := if f.scope.isSome && p.act != 0#32 then s.closeFilter gid else s
  let r := atomLanes (s.keyOf gid) p f s (lanesOf p.act)
  r.2.setGrp gid ((r.2.grp gid).setV f.d.toNat p.act fun l => Tab.get 0#32 r.1 l)

def execAflush (f : Fields) (s : State) : Out :=
  onceOnly (.aflush f) f s fun v => if s.det v.g.team then s.flushStaged v.g.team else s

/-! ### Fences and prefetch (R229 to R231) -/

def execFence (f : Fields) (s : State) : Out := onceOnly (.fence f) f s fun v => s.closeFilter v.gid
def execFenceXp (f : Fields) (s : State) : Out := issued (.fenceXp f) f s fun _ => s.retire
def execPf (f : Fields) (s : State) : Out := issued (.pf f) f s fun _ => s.retire

/-! ### The constant store (R232) -/

/-- The bytes of a `cst.ld`. -/
def cstBytes (f : Fields) : Nat := 128 * bits f.imm.toNat 24 16

/-- The 64 KiB pages of a virtual range. -/
def pagesOf (va n : Nat) : List Nat :=
  if n = 0 then [] else rangeFrom (va / 65536) ((va + n - 1) / 65536 + 1 - va / 65536)

/-- The first page of a range whose translation stands in the way of an access of a group. -/
def pageTests (s : State) (gid lane va n : Nat) (k : Kind) : Check :=
  firstCheck (fun p =>
    match s.xlate gid (p * 65536 % 2 ^ 48) k with
    | .miss => .miss (p % 2 ^ 32) k
    | .fault c => .trap (s.laneTrap c lane (Nat.max va (p * 65536))) none
    | .tier _ => .trap (s.laneTrap fTier lane (Nat.max va (p * 65536))) none
    | .hit _ => .ok) (pagesOf va n)

/-- The first marked line of a range (R224). -/
def lineTests (s : State) (lane va n : Nat) (pages : List Nat) : Check :=
  firstCheck (fun l =>
    let x := Nat.max va (64 * l)
    let pa := pagePa va pages (x - va)
    if s.marked pa then .trap (s.laneTrap 0x10 lane x) (if (s.sideOf (pa / 64)).ue then some (lineError x) else none) else .ok)
    (if n = 0 then [] else rangeFrom (va / 64) ((va + n - 1) / 64 + 1 - va / 64))

/-- The physical addresses of the pages of a range. -/
def pageBases (s : State) (gid va n : Nat) (k : Kind) : List Nat :=
  (pagesOf va n).map fun p => (s.xlate gid (p * 65536 % 2 ^ 48) k).pa

/-- The tests of `cst.ld` (R232), the same for each active lane. -/
def cstTests (f : Fields) (s : State) (v : View) (l : Nat) : Check :=
  let a := v.pairU f.a.toNat
  if a % 128 ≠ 0 then .trap (s.laneTrap 0x0C l a) none
  else match pageTests s v.gid l a (cstBytes f) .read with
    | .ok => lineTests s l a (cstBytes f) (pageBases s v.gid a (cstBytes f) .read)
    | c => c

/-- The least time of an access of several lines: the largest among the memories it reads (R26). -/
def rangeLeast (s : State) (gid va n : Nat) (pages : List Nat) : Least :=
  (linePieces va n).foldl (fun m x => m.max (s.globalLeast (dieOf (coreOf gid)) (pagePa va pages (x.1 - va)))) (0, 0)

def execCstLd (f : Fields) (s : State) : Out :=
  issuedChk (.cstLd f) f s (cstTests f s) fun v =>
    let a := v.pairU f.a.toNat
    let pages := if v.any then pageBases s v.gid a (cstBytes f) .read else []
    (s.issueOp v.gid { s.pend (.cstLd f) f v (rangeLeast s v.gid a (cstBytes f) pages) with
      space := .const, va := [a], pa := pages }).retire

/-- The completion of `cst.ld` (R232). -/
def completeCstLd (s : State) (gid : Nat) (p : Pend) (f : Fields) : State :=
  if p.act = 0#32 then s
  else
    let c := coreOf gid
    let bs := (rangeFrom 0 (cstBytes f)).map fun x => s.byteAs (s.keyOf gid) (pagePa (nth 0 p.va 0) p.pa x)
    s.setCore c { s.core c with kst := writeCells (s.core c).kst (f.imm.toNat % 65536) bs }

end Sys2Proof.Machine
end

