-- ==== Sys2Proof/Machine/NarrowFormat.lean ====
section
/-!
DEFINITION. The narrow block formats NB7, NB4 and NB2: scale words, element values, quantisation and packed images (R85 to R89).
-/

namespace Sys2Proof

/-- Magnitude width of a narrow TY code (R67, R86). -/
def nbM (ty : Nat) : Nat := if ty = 10 then 7 else if ty = 11 then 4 else 2

/-- Block exponent and octet shift of a scale word for element `i` (R85, R86). -/
def scaleExp (w : Nat) : Nat := w % 256
def scaleShift (w i : Nat) : Nat := bits w (9 + 2 * (i / 8)) (8 + 2 * (i / 8))

/-- The value of a code under a scale word, as element `i` (R86). -/
def nbVal (ty w i code : Nat) : FVal :=
  let m := nbM ty
  let q := code % 2 ^ m
  .fin (q != 0 && bit code m) q ((scaleExp w : Int) - 127 - scaleShift w i - (m - 1))

/-- Whether a value is neither infinite nor NaN (R88). -/
def FVal.finite : FVal → Bool
  | .fin _ _ _ => true
  | _ => false

/-- `floor(log2 |x|)` of the largest finite magnitude of a list; `none` if there is none above 0 (R88). -/
def topLog (xs : List FVal) : Option Int :=
  xs.foldl (fun t x => match x with
    | .fin _ m e => if m = 0 then t else
        (match t with | none => some (e + Nat.log2 m) | some y => some (max y (e + Nat.log2 m)))
    | _ => t) none

/-- The block exponent of R88. -/
def nbExp (xs : List FVal) : Nat :=
  match topLog xs with
  | none => 0
  | some t => (sat (t + 127) 0 255).toNat

/-- The octet shift of R88: the largest `u` in 0 to 3 with every magnitude below `2S / 2^u`. -/
def nbShift (e : Nat) (xs : List FVal) : Nat :=
  if xs.any (fun x => !x.finite) then 0
  else match topLog xs with
    | none => 3
    | some t => (sat ((e : Int) - 127 - t) 0 3).toNat

/-- The scale word of 32 values (R88, R164). -/
def nbScaleWord (xs : List FVal) : Nat :=
  let e := nbExp xs
  let u := fun j => nbShift e ((xs.drop (8 * j)).take 8)
  e + 256 * (u 0 + 4 * u 1 + 16 * u 2 + 64 * u 3)

/-- The code of a value under a scale word, as element `i` (R88, R89): sign in bit `m`. -/
def nbCode (ty w i : Nat) (x : FVal) : Nat :=
  let m := nbM ty
  match x with
  | .nan _ => 0
  | .inf n => (if n then 2 ^ m else 0) + (2 ^ m - 1)
  | .fin n a e =>
      let q := Nat.min (roundTo 0 false a (e + (m - 1 + 127 + scaleShift w i : Nat) - scaleExp w) 0) (2 ^ m - 1)
      (if n && q != 0 then 2 ^ m else 0) + q

/-- A packed block as one number: element `i` at bit `(m + 1) · i` (R86). -/
def nbImage (ty : Nat) (codes : List Nat) : Nat :=
  codes.foldr (fun c t => c + t * 2 ^ (nbM ty + 1)) 0

/-- Code `i` of a packed block. -/
def nbElem (ty image i : Nat) : Nat := image / 2 ^ ((nbM ty + 1) * i) % 2 ^ (nbM ty + 1)

end Sys2Proof
end

