-- ==== Sys2Proof/Machine/Tiles.lean ====
section
/-!
DEFINITION. Tiles, accumulator rows and tensors: how a tile's area is read in a format (R172), replacement of uncorrectable words (R175),
the tensor table (R298, R299), and the arithmetic of `mma` and of the row instructions (R97, R184, R194, R195).
-/

namespace Sys2Proof.Machine

open Sys2Proof

/-! ### Tiles in a format (R172) -/

/-- Narrow formats. -/
def isNb (ty : Nat) : Bool := 10 ≤ ty && ty ≤ 12

/-- Bytes of a tile row; FP32 rows stand only in tensors (R172, R299). -/
def rowBytes (ty : Nat) : Nat :=
  match ty with
  | 7 => 256 | 8 => 128 | 9 => 128 | 10 => 64 | 11 => 40 | _ => 24

/-- Bytes of a block of 32 elements. -/
def blockBytes (ty : Nat) : Nat := rowBytes ty / 2

/-- Bytes of one element of a format that is not narrow. -/
def elemBytes (ty : Nat) : Nat := if ty = 7 then 4 else 2

/-- A scale word of a tile. -/
def Tile.scaleAt (t : Tile) (n : Nat) : Word := Tab.get 0#32 t.scale n

/-- The 32-bit words of the element area that hold bits of element `k` of row `i`. -/
def elemWords (ty i k : Nat) : List Nat :=
  if isNb ty then
    let lo := 8 * (rowBytes ty * i + blockBytes ty * (k / 32)) + (nbM ty + 1) * (k % 32)
    rangeFrom (lo / 32) ((lo + nbM ty) / 32 + 1 - lo / 32)
  else [(rowBytes ty * i + elemBytes ty * k) / 4]

/-- Element `k` of row `i` is replaced by +0 (R175). -/
def Tile.replaced (t : Tile) (ty i k : Nat) : Bool :=
  (elemWords ty i k).any t.ue.contains || (isNb ty && t.ueS.contains (2 * i + k / 32))

/-- The values of one row given its element bytes and scale words. -/
def rowVals (ty : Nat) (bs : List Byte) (scale : Nat → Word) : List FVal :=
  if isNb ty then
    let blk := fun b => leVal ((bs.drop (blockBytes ty * b)).take (blockBytes ty))
    (upto 64).map fun k => nbVal ty (scale (k / 32)).toNat (k % 32) (nbElem ty (blk (k / 32)) (k % 32))
  else (upto 64).map fun k => (fmtOf ty).val (leVal ((bs.drop (elemBytes ty * k)).take (elemBytes ty)))

/-- The value +0. -/
def zeroVal : FVal := .fin false 0 0

/-- Values with the replaced ones +0. -/
def withZeros (bad : Nat → Bool) (xs : List FVal) : List FVal :=
  (upto xs.length).map fun k => if bad k then zeroVal else nth zeroVal xs k

/-- The values of row `i` of a tile in a format, after replacement (R172, R175). -/
def Tile.vals (t : Tile) (ty i : Nat) : List FVal :=
  let xs := rowVals ty (readCells t.elem (rowBytes ty * i) (rowBytes ty)) fun b => t.scaleAt (2 * i + b)
  if t.ue.isEmpty && t.ueS.isEmpty then xs else withZeros (t.replaced ty i) xs

/-- The first replaced element of a tile among those that an operation uses, in ascending row and then column (R95, R175).
(DEDUCED, log entry 25) -/
def Tile.firstReplaced (t : Tile) (ty : Nat) (used : Nat → Nat → Bool) : Option (Nat × Nat) :=
  if t.ue.isEmpty && t.ueS.isEmpty then none
  else ((upto 64).flatMap fun i => (upto 64).map fun k => (i, k)).find? fun p => used p.1 p.2 && t.replaced ty p.1 p.2

/-- The contained error of a tile's replaced element (R175, R366). -/
def tileError (t : Tile) (n : Nat) (p : Nat × Nat) : Contained :=
  match t.src with
  | some x => { kind := 0, id := x.tid, posa := x.row0 + p.1, posb := x.col0 + p.2 }
  | none => { kind := 1, id := n, posa := p.1, posb := p.2 }

/-! ### Accumulator rows (R174) -/

/-- Element `c` of a row, +0 where its word has an uncorrectable error (R175). -/
def AccRow.at (r : AccRow) (c : Nat) : Word := if r.ue.contains c then 0#32 else nth 0#32 r.e c

/-- The 64 elements of a row. -/
def AccRow.all (r : AccRow) : List Word := (upto 64).map r.at

/-- A team's accumulator row. -/
def Team.row (t : Team) (n : Nat) : AccRow := Tab.get {} t.acc n

/-- The first uncorrectable word among the first `n` columns of rows read. (DEDUCED, log entry 25) -/
def Team.accErrorIn (t : Team) (rows : List Nat) (n : Nat → Nat) : Option Contained :=
  rows.findSome? fun r => match (t.row r).ue.filter (· < n r) with
    | [] => none
    | c :: cs => some { kind := 2, posa := r, posb := cs.foldl Nat.min c }

/-- The first uncorrectable word among rows read whole. -/
def Team.accError (t : Team) (rows : List Nat) : Option Contained := t.accErrorIn rows fun _ => 64

/-- A team's tile. -/
def Team.tile (t : Team) (n : Nat) : Tile := Tab.get {} t.tiles n

/-! ### Tensors (R298, R299) -/

/-- A tensor entry of four words; `none` where it is not valid. What stands in a Z field is ignored (R7): SBASE of a format without scale words is one. -/
def tensorOf (w0 w1 w2 w3 : Nat) : Option Tensor :=
  let fmt := bits w0 59 56
  let t : Tensor := { pol := bits w0 61 60, fmt := fmt, base := bits w0 47 0, sbase := if isNb fmt then bits w1 47 0 else 0
                      rows := bits w2 31 0, cols := bits w2 63 32, rpitch := bits w3 31 0, tpitch := bits w3 63 32 }
  let ok := bit w0 63 && 7 ≤ fmt && fmt ≤ 12 && t.base % 4 == 0 && t.sbase % 4 == 0
    && 1 ≤ t.rows && t.rows ≤ 2 ^ 23 && 1 ≤ t.cols && t.cols ≤ 2 ^ 23
    && t.rpitch != 0 && t.rpitch % 4 == 0 && t.tpitch != 0 && t.tpitch % 4 == 0
  if ok then some t else none

/-- A run of bytes that a tile or row transfer moves: virtual address, length, place in the tile row, elements it holds (narrow
formats), or the block whose scale word it is. -/
structure Run where
  va    : Nat
  n     : Nat
  off   : Nat
  elems : Nat
  scale : Option Nat
  deriving DecidableEq, Repr

/-- Address of row `r` in the panel that begins at column `col0` (R299). -/
def Tensor.rowVa (t : Tensor) (r col0 : Nat) : Nat := (t.base + col0 / 64 * t.tpitch + r * t.rpitch) % 2 ^ 48

/-- Columns of the 64 from `col0` on that lie in the tensor. -/
def Tensor.inside (t : Tensor) (col0 : Nat) : Nat := Nat.min 64 (t.cols - col0)

/-- The runs of tensor row `r` from column `col0` on, element bytes first and then scale words (R186, R299). -/
def Tensor.runs (t : Tensor) (r col0 : Nat) : List Run :=
  if t.rows ≤ r || t.cols ≤ col0 then []
  else if isNb t.fmt then
    let bb := blockBytes t.fmt
    let here := (upto 2).filter fun b => col0 + 32 * b < t.cols
    let count := fun b => Nat.min 32 (t.cols - (col0 + 32 * b))
    (here.map fun b => { va := (t.rowVa r col0 + bb * b) % 2 ^ 48, n := ceilDiv ((nbM t.fmt + 1) * count b) 8
                         off := bb * b, elems := count b, scale := none })
      ++ here.map fun b => { va := (t.sbase + 4 * (r * ceilDiv t.cols 32 + (col0 + 32 * b) / 32)) % 2 ^ 48
                             n := 4, off := 0, elems := 0, scale := some b }
  else [{ va := t.rowVa r col0, n := elemBytes t.fmt * t.inside col0, off := 0, elems := t.inside col0, scale := none }]

/-! ### Accesses on the matrix path -/

/-- The physical address of a virtual one by translations found before. -/
def pageLook (pages : List (Nat × Nat)) (va : Nat) : Nat :=
  match pages.find? fun p => p.1 == va / 65536 with
  | some p => p.2 + va % 65536
  | none => 0

/-- The bytes of a run. -/
def State.runBytes (s : State) (key : Nat) (pages : List (Nat × Nat)) (r : Run) : List Byte :=
  (rangeFrom r.va r.n).map fun a => s.byteAs key (pageLook pages (a % 2 ^ 48))

/-- Some line of a run is marked POIS or UE. -/
def State.runMarked (s : State) (pages : List (Nat × Nat)) (r : Run) : Bool :=
  (linePieces r.va r.n).any fun p => s.marked (pageLook pages (p.1 % 2 ^ 48))

/-! ### `mma` (R97, R184) -/

/-- Flags of the accumulating addition: a NaN already in the element gives a NaN without NV (R97). -/
def accFlags (acc : Nat) (fl : Nat) : Nat := if (fp32.val acc).isNan then fl - fl % 2 else fl

/-- One k-block: the exact sum of its products, a skipped position being +0, added to the accumulator (R97). -/
def mmaBlock (as bs : List FVal) (skip : Nat) (b : Nat) (acc : FRes) : FRes :=
  let ps := (rangeFrom (32 * b) 32).map fun k =>
    if bit skip k then (zeroVal, zeroVal) else (nth zeroVal as k, nth zeroVal bs k)
  let p := fp32.dot 0 ps
  let r := fp32.add 0 (fp32.val acc.x) (fp32.val p.x)
  ⟨r.x, acc.fl ||| p.fl ||| accFlags acc.x r.fl⟩

/-- One element: both k-blocks of every image in turn. -/
def mmaElem (skip : Nat) (acc : Word) : List (List FVal × List FVal) → FRes
  | [] => ⟨acc.toNat, 0⟩
  | (as, bs) :: rest =>
      let r := mmaBlock as bs skip 1 (mmaBlock as bs skip 0 ⟨acc.toNat, 0⟩)
      let q := mmaElem skip (BitVec.ofNat 32 r.x) rest
      ⟨q.x, r.fl ||| q.fl⟩

/-- NF of a written element (R91). -/
def nfOf (x : Nat) : Nat := if fp32.nonFinite x then 8 else 0

/-- One row of `mma`: its elements and the flags of the row. -/
def mmaRow (skip : Nat) (acc : AccRow) (as : List (List FVal)) (bs : List (List (List FVal))) : List Word × Nat :=
  let rs := (upto 64).map fun j => mmaElem skip (acc.at j) (as.zip (nth [] bs j))
  (rs.map fun r => BitVec.ofNat 32 r.x, rs.foldl (fun m r => m ||| r.fl ||| nfOf r.x) 0)

/-! ### The row-vector engine (R194, R195) -/

/-- The greatest of a row under R157, with its flags. -/
def greatest (xs : List Word) : FRes :=
  match xs with
  | [] => ⟨0, 0⟩
  | x :: rest =>
      rest.foldl (fun r y => let q := fp32.pick true r.x y.toNat; ⟨q.x, r.fl ||| q.fl⟩) ⟨x.toNat, 0⟩

/-- The sum of a row (R194). -/
def rowTotal (xs : List Word) : FRes := fp32.sumVals 0 false (xs.map fun x => fp32.val x.toNat)

/-- One element of `row.exp`. -/
def rowExpElem (fac x m : Nat) : FRes :=
  let d := fp32.sub 0 (fp32.val x) (fp32.val m)
  let t := fp32.mul 0 (fp32.val fac) (fp32.val d.x)
  let r := fp32.exp2 0 (fp32.val t.x)
  ⟨r.x, d.fl ||| t.fl ||| r.fl⟩

/-- Results of a row with their flags, NF by what is written. -/
def rowDone (rs : List FRes) : List Word × Nat :=
  (rs.map fun r => BitVec.ofNat 32 r.x, rs.foldl (fun m r => m ||| r.fl ||| nfOf r.x) 0)

/-- A row of `row.cvt`: the element bytes, the two scale words and the flags (R195). -/
def cvtRow (ty : Nat) (xs : List Word) : List Byte × List Word × Nat :=
  if isNb ty then
    let vals := xs.map fun x => fp32.val x.toNat
    let blk := fun b => (vals.drop (32 * b)).take 32
    let sc := fun b => nbScaleWord (blk b)
    let img := fun b => nbImage ty ((upto 32).map fun i => nbCode ty (sc b) i (nth zeroVal (blk b) i))
    (leBytes (blockBytes ty) (img 0) ++ leBytes (blockBytes ty) (img 1), [BitVec.ofNat 32 (sc 0), BitVec.ofNat 32 (sc 1)],
      if vals.any fun x => !x.finite then 1 else 0)
  else
    let rs := xs.map fun x => (fmtOf ty).finish false ((fmtOf ty).put 0 (fp32.val x.toNat))
    (rs.flatMap fun r => leBytes 2 r.x, [], rs.foldl (fun m r => m ||| r.fl) 0)

end Sys2Proof.Machine
end

