-- ==== Sys2Proof/Machine/TeamOps.lean ====
section
/-!
DEFINITION. Team operations (R177 to R195): what their issue reads and tests (R179, R183, R185, R189, R298), the team order (R178), and
what each does to tiles, accumulator rows, the mask block and memory.
-/

namespace Sys2Proof.Machine

open Sys2Proof

/-! ### The state that an operation uses (R178) -/

/-- A range of tiles, accumulator rows or mask rows: first and count. Rows are numbered from 256 on, mask rows from 1024 on. -/
abbrev Res := Nat × Nat

def tileRes (n k : Nat) : Res := (n, k)
def rowRes (r n : Nat) : Res := (256 + r, n)
def maskRes (r n : Nat) : Res := (1024 + r, n)

/-- Image count of `mma` (R182). -/
def mmaImages (f : Fields) : Nat := if f.sub = 1#4 then f.ext.toNat % 8 + 1 else 1

/-- The mask enable of `mma`. -/
def mmaMasked (f : Fields) : Bool := f.c.getLsbD 0

/-- Rows of an operation that moves or combines rows. -/
def opRows : Instr → Nat
  | .accLd f | .accSt f | .accZero f => f.b.toNat
  | .rowMax f | .rowSum f | .rowExp f | .rowScale f | .rowAdd f => f.c.toNat
  | _ => 64

/-- What an operation reads. -/
def opReads (i : Instr) : List Res :=
  match i with
  | .mma f => tileRes f.a.toNat (mmaImages f) :: (if f.sub = 1#4 then [] else [tileRes f.b.toNat 1])
      ++ rowRes f.d.toNat 64 :: (if mmaMasked f then [maskRes 0 64] else [])
  | .tsv f => [tileRes f.d.toNat 1]
  | .accSt f => [rowRes f.d.toNat f.b.toNat]
  | .accRd f => [rowRes f.a.toNat 1]
  | .rowMax f | .rowSum f => [rowRes f.a.toNat f.c.toNat, rowRes f.d.toNat 1]
  | .rowExp f => [rowRes f.a.toNat f.c.toNat, rowRes f.b.toNat 1]
  | .rowScale f => rowRes f.a.toNat f.c.toNat :: (if f.len = .l64 then [rowRes f.b.toNat 1] else [])
  | .rowAdd f => [rowRes f.a.toNat f.c.toNat, rowRes f.b.toNat f.c.toNat]
  | .rowCvt f => [rowRes f.a.toNat 64]
  | _ => []

/-- What an operation writes. -/
def opWrites (i : Instr) : List Res :=
  match i with
  | .mma f => [rowRes f.d.toNat 64]
  | .tld f | .tzero f | .tpois f | .rowCvt f => [tileRes f.d.toNat 1]
  | .accLd f | .accZero f => [rowRes f.d.toNat f.b.toNat]
  | .rowMax f | .rowSum f => [rowRes f.d.toNat 1]
  | .rowExp f | .rowScale f | .rowAdd f => [rowRes f.d.toNat f.c.toNat]
  | .mmask f => [maskRes (32 * (bits f.imm.toNat 2 2)) 32]
  | _ => []

/-- Two lists of ranges share an element. -/
def resMeet (a b : List Res) : Bool := a.any fun x => b.any fun y => x.1 < y.1 + y.2 && y.1 < x.1 + x.2

/-- A later operation must wait for an earlier one (R178). -/
def opsConflict (i j : Instr) : Bool :=
  resMeet (opWrites i) (opReads j ++ opWrites j) || resMeet (opReads i) (opWrites j)

/-! ### Issue: operands and value tests (R179) -/

/-- Who issues: the group charged, its uniform registers, translation, and the writer that a plain access races with. -/
structure Issuer where
  gid   : Nat
  g     : Group
  xlate : Nat → Kind → XRes
  race  : Nat → Option Nat

/-- What the issue of an operation finds. -/
inductive Prep where
  | ok (o : TeamOp)
  | wait
  | miss (page : Nat) (kind : Kind)
  | bad (code addr writer : Nat)
  deriving DecidableEq, Repr

/-- The runs of row `i` of a transfer: of a tensor row, or of 256 bytes at a pitch (R185, R189). -/
def TeamOp.runsAt (o : TeamOp) (i : Nat) : List Run :=
  match o.tensor with
  | some t => t.runs (nth 0 o.args 0 + i) (nth 0 o.args 1)
  | none => [{ va := (nth 0 o.args 0 + i * nth 0 o.args 1) % 2 ^ 48, n := 256, off := 0, elems := 64, scale := none }]

/-- All runs of a transfer in row order. -/
def TeamOp.runs (o : TeamOp) : List Run := (upto (opRows o.i)).flatMap o.runsAt

/-- Row `i` of a transfer lies in its tensor. -/
def TeamOp.inside (o : TeamOp) (i : Nat) : Bool :=
  match o.tensor with | some t => nth 0 o.args 0 + i < t.rows | none => true

/-- The poison policy of a store (R187, R189). -/
def TeamOp.policy (o : TeamOp) : Nat := match o.tensor with | some t => t.pol | none => 0

/-- Poison of row `i` of what a store writes. -/
def Team.rowPoison (x : Team) (i : Instr) (n : Nat) : Bool :=
  match i with
  | .tsv f => bit (x.tile f.d.toNat).pois n
  | .accSt f => (x.row (f.d.toNat + n)).pois
  | _ => false

/-- A UE or POIS poison-store fault under policy 2 or 3 (R187); the store waits for the operations that settle its rows. (DEDUCED, log entry 24) -/
def storeCheck (x : Team) (o : TeamOp) : Prep :=
  if o.policy < 2 || !(match o.i with | .tsv _ | .accSt _ => true | _ => false) then .ok o
  else if x.order.any fun p => opsConflict p.i o.i then .wait
  else if (upto (opRows o.i)).any fun n => o.inside n && x.rowPoison o.i n then .bad 0x11 0 0
  else .ok o

/-- Translations of every line of a transfer, then the race test of a plain one (R423). -/
def transferCheck (who : Issuer) (kind : Kind) (plain : Bool) (x : Team) (o : TeamOp) : Prep :=
  let spans := o.runs.flatMap fun r => (linePieces r.va r.n).map fun p => p.1 % 2 ^ 48
  match spans.find? fun va => (match who.xlate va kind with | .hit _ => false | _ => true) with
  | some va => (match who.xlate va kind with
      | .miss => .miss (va / 65536) kind
      | r => .bad r.code va 0)
  | none =>
      let pages := ((spans.map (· / 65536)).eraseDups).map fun p => (p, (who.xlate (p * 65536) kind).pa)
      match (if plain then spans.find? fun va => (who.race (pageLook pages va)).isSome else none) with
      | some va => .bad 0x14 (va - va % 64) ((who.race (pageLook pages va)).getD 0)
      | none => storeCheck x { o with pages := pages }

/-- The number under which a die keeps tensor entry `tid` for a node (R298). (DEDUCED, log entry 24) -/
def ttKey (queue node die tid : Nat) : Nat := ((queue * 65536 + node) * 4 + die) * 4096 + tid

/-- The number under which the die of an issuer keeps an entry for the issuer's node. -/
def State.ttHere (s : State) (who : Issuer) (tid : Nat) : Nat :=
  ttKey (s.team who.g.team).queue (s.team who.g.team).node (dieOf (coreOf who.gid)) tid

/-- The four words of a tensor entry: those that the die has kept since the node's first use, or for each use those of memory now, since a
write during the node may be seen or not (R298). (DEDUCED, log entry 24) -/
def tensorWords (s : State) (who : Issuer) (tid : Nat) : Except Prep (List DWord) :=
  let c := (s.team who.g.team).ctx
  let fresh := match Tab.find (s.ctx c).ttent (s.ttHere who tid) with
    | some w => if freeBit s.fresh then none else some w
    | none => none
  match fresh with
  | some w => .ok w
  | none =>
      let va := ((s.ctx c).ttbase + 32 * tid) % 2 ^ 48
      match who.xlate va .read with
      | .hit pa => .ok ((upto 4).map fun k => BitVec.ofNat 64 (leVal (s.bytesAs (s.ctx c).key (pa + 8 * k) 8)))
      | .miss => .error (.miss (va / 65536) .read)
      | r => .error (.bad r.code va 0)

/-- The tensor fault and the tensor-format fault, and the origin of a tensor transfer (R185, R189). -/
def tensorPrep (s : State) (who : Issuer) (f : Fields) (fmt : Nat) (kind : Kind) (o : TeamOp) : Prep :=
  match tensorWords s who (f.ext.toNat % 4096) with
  | .error p => p
  | .ok w => match tensorOf (nth 0#64 w 0).toNat (nth 0#64 w 1).toNat (nth 0#64 w 2).toNat (nth 0#64 w 3).toNat with
    | none => .bad 0x12 0 0
    | some t =>
        if t.fmt ≠ fmt then .bad 0x13 0 0
        else
          let r := (who.g.ur f.a.toNat).toNat
          transferCheck who kind (!f.mod.getLsbD 3) (s.team who.g.team) { o with
            tensor := some t
            args := [64 * (f.imm.toNat % 65536 + r % 65536), 64 * (f.imm.toNat / 65536 + r / 65536)] }

/-- Bytes of a row of a B image (R183). -/
def imageRowBytes (ty : Nat) : Nat := rowBytes ty + if isNb ty then 8 else 0

/-- The offset of row `j` of image `t` (R183). -/
def imageOff (f : Fields) (tp rp t j : Nat) : Nat :=
  f.imm.toNat + t * tp + j * rp + 4 * ((j * (f.ext.toNat / 8 % 8)) % 32)

/-- `mma` with B in a scratchpad: placement and range (R183). -/
def imagePrep (s : State) (who : Issuer) (f : Fields) (o : TeamOp) : Prep :=
  let w := (who.g.ur f.b.toNat).toNat
  let tp := w / 65536
  let rp := w % 65536
  match s.placed who.gid f.row.toNat f.col.toNat with
  | none => .bad 0x0F 0 0
  | some t =>
      let last := (upto (mmaImages f)).flatMap fun n => (upto 64).map fun j => imageOff f tp rp n j + imageRowBytes f.tyN
      if rp % 4 ≠ 0 || rp < imageRowBytes f.tyN || tp % 4 ≠ 0 then .bad 0x0D f.imm.toNat 0
      else match last.find? (s.window t < ·) with
        | some e => .bad 0x0D (Nat.max (s.window t) (e - imageRowBytes f.tyN)) 0
        | none => .ok { o with args := [t, tp, rp] }

/-- What the issue of an operation reads and tests. (DEDUCED, log entry 24) -/
def prepare (s : State) (who : Issuer) (i : Instr) (o : TeamOp) : Prep :=
  match i with
  | .mma f => if f.sub = 1#4 then imagePrep s who f o else .ok o
  | .tld f => tensorPrep s who f f.tyN .read o
  | .tsv f => tensorPrep s who f f.tyN .write o
  | .tpois f => .ok { o with args := [(who.g.ur f.a.toNat).toNat + 2 ^ 32 * (who.g.ur f.b.toNat).toNat] }
  | .accLd f | .accSt f =>
      let kind := match i with | .accLd _ => Kind.read | _ => Kind.write
      if f.len = .l128 then tensorPrep s who f 7 kind o
      else
        let addr := pairVal (who.g.ur f.a.toNat) (who.g.ur (f.a.toNat + 1))
        if addr % 4 ≠ 0 then .bad 0x0C addr 0
        else transferCheck who kind (!f.mod.getLsbD 3) (s.team who.g.team) { o with args := [addr, f.imm.toNat] }
  | _ => .ok o

/-- The tensor entry of a use stays with the die until the node completes: the first use's (R298). -/
def State.keepEntry (s : State) (who : Issuer) (tid : Nat) : State :=
  let c := (s.team who.g.team).ctx
  let k := s.ttHere who tid
  match Tab.find (s.ctx c).ttent k, tensorWords s who tid with
  | none, .ok w => { s.setCtx c { s.ctx c with ttent := Tab.set (s.ctx c).ttent k w } with fresh := s.fresh + 1 }
  | _, _ => { s with fresh := s.fresh + 1 }

/-- The tensor entry that an operation used stays with the die (R298). -/
def State.keepTensor (s : State) (who : Issuer) (i : Instr) (o : TeamOp) : State :=
  match o.tensor, fieldsOf i with
  | some _, some f => s.keepEntry who (f.ext.toNat % 4096)
  | _, _ => s

/-- Flags of groups count up (R178). -/
def State.flagsUp (s : State) (fl : List (Nat × Nat)) : State :=
  fl.foldl (fun s x => s.setGrp x.1 ((s.grp x.1).flagInc x.2)) s

/-- Flags of groups count down. -/
def State.flagsDown (s : State) (fl : List (Nat × Nat)) : State :=
  fl.foldl (fun s x => s.setGrp x.1 ((s.grp x.1).flagDec x.2)) s

/-- An operation put into a team's order: behind all of earlier cycles, and among those of the present one by its place (R178). -/
def insertOp (o : TeamOp) : List TeamOp → List TeamOp
  | [] => [o]
  | p :: ps => match o.rank, p.rank with
    | some r, some q => if r < q then o :: p :: ps else p :: insertOp o ps
    | _, _ => p :: insertOp o ps

/-- An operation enters the order of a team (R178). -/
def State.enterOrder (s : State) (t : Nat) (o : TeamOp) : State :=
  let s := s.flagsUp o.flags
  { s.setTeam t { s.team t with order := insertOp { o with id := s.seqno } (s.team t).order } with seqno := s.seqno + 1 }

/-- The place of the present issue among those of one cycle: primary port before secondary, then by scheduler, then the sequencers (R178). -/
def State.orderRank (s : State) : Nat :=
  match s.cur.src with | .seq q => 8 + q | _ => 4 * s.portHere + (s.grp s.cur.gid).sched % 4

/-- The cycle in which operations entered the orders has passed. -/
def State.ordersDone (s : State) : State :=
  if s.teams.any fun e => e.2.order.any (·.rank.isSome) then
    { s with teams := s.teams.map fun e => (e.1, { e.2 with order := e.2.order.map fun o => { o with rank := none } }) }
  else s

/-- The operation of the present issue before its operands are read. -/
def opHere (s : State) (i : Instr) (f : Fields) (src : Src) : TeamOp :=
  { id := 0, i := i, gid := s.cur.gid, src := src, pc := s.cur.pc, gids := [s.cur.gid], port := s.portHere, rank := some s.orderRank
    flags := if isLong i then (match s.flagHere f with | some k => [(s.cur.gid, k)] | none => []) else [] }

/-- Lanes as issuer: the group's own translation, and its race test for the lowest active lane. -/
def laneIssuer (s : State) (v : View) : Issuer :=
  { gid := v.gid, g := v.w, xlate := s.xlate v.gid, race := raceWith s v (lowLane v.act) }

/-- A sequencer as issuer: engine-job accesses check nothing (R180, R249). -/
def seqIssuer (s : State) (gid : Nat) : Issuer :=
  { gid := gid, g := s.grp gid, xlate := s.xlateWait (coreOf gid) (s.team (s.grp gid).team).ctx, race := fun _ => none }

/-- What stands in the way of a direct issue. -/
def Prep.check (s : State) (l : Nat) : Prep → Check
  | .ok _ | .wait => .ok
  | .miss p k => .miss p k
  | .bad c a w => .trap { s.laneTrap c l a with gid := w, supp := c == 0x14 } none

/-- The cause byte of a value fault in a sequencer (R274). (DEDUCED, log entry 30) -/
def seqFaultCause (code : Nat) : Nat :=
  match code with
  | 0x12 | 0x13 => 0x15
  | 0x0D | 0x0F => 0x16
  | 0x0C => 0x17
  | 0x11 => 0x19
  | _ => 0x18

/-- The sequencer that accepts a team operation (R269). -/
def opSeq : Instr → Nat
  | .rowMax _ | .rowSum _ | .rowExp _ | .rowScale _ | .rowAdd _ | .rowCvt _ => 1
  | _ => 0

/-- The matrix engine of a core is occupied (R26). -/
def mmaBusy (s : State) (core : Nat) : Bool :=
  s.teams.any fun e => coreOf e.1 == core && e.2.order.any fun o =>
    o.started && (match o.i with | .mma _ => true | _ => false) && (s.core core).cycle + 14 < o.due

/-- The engine of an operation cannot accept it: the matrix engine while it is occupied or an `mma` stands before it (R270, R26).
(DEDUCED, log entry 27) -/
def engineBusy (s : State) (core : Nat) (i : Instr) : Bool :=
  match i with
  | .mma _ => mmaBusy s core || s.teams.any fun e => coreOf e.1 == core && e.2.order.any fun o =>
      !o.started && (match o.i with | .mma _ => true | _ => false)
  | _ => false

/-- The issue of a team operation by a sequencer (R177, R179, R270). -/
def seqTeamOp (i : Instr) (f : Fields) (s : State) (q : Nat) : Out :=
  sequenced i f s q (opSeq i == q) fun s =>
    let who := seqIssuer s s.cur.gid
    if engineBusy s (coreOf s.cur.gid) i then s
    else match prepare s who i (opHere s i f (.seq q)) with
    | .ok o => ((s.keepTensor who i o).enterOrder who.g.team o).seqRetire q
    | .bad c _ _ => seqStop s s.cur.gid q (seqFaultCause c)
    | _ => s

/-- The issue of a team operation: once for the active lanes, or by a sequencer (R177). -/
def teamOp (i : Instr) (f : Fields) (s : State) : Out :=
  match s.cur.src with
  | .seq q => seqTeamOp i f s q
  | _ =>
      issuedChk i f s (fun v l => (prepare s (laneIssuer s v) i (opHere s i f (.lanes v.act))).check s l) fun v =>
        if !v.any then (if isLong i then s.issueOp v.gid (s.pend i f v (0, 0)) else s).retire
        else match prepare s (laneIssuer s v) i (opHere s i f (.lanes v.act)) with
          | .ok o => ((s.keepTensor (laneIssuer s v) i o).enterOrder v.g.team o).retire
          | _ => s

def execMma (f : Fields) (s : State) : Out := teamOp (.mma f) f s
def execTld (f : Fields) (s : State) : Out := teamOp (.tld f) f s
def execTsv (f : Fields) (s : State) : Out := teamOp (.tsv f) f s
def execTzero (f : Fields) (s : State) : Out := teamOp (.tzero f) f s
def execTpois (f : Fields) (s : State) : Out := teamOp (.tpois f) f s
def execAccLd (f : Fields) (s : State) : Out := teamOp (.accLd f) f s
def execAccSt (f : Fields) (s : State) : Out := teamOp (.accSt f) f s
def execAccZero (f : Fields) (s : State) : Out := teamOp (.accZero f) f s
def execRowMax (f : Fields) (s : State) : Out := teamOp (.rowMax f) f s
def execRowSum (f : Fields) (s : State) : Out := teamOp (.rowSum f) f s
def execRowExp (f : Fields) (s : State) : Out := teamOp (.rowExp f) f s
def execRowScale (f : Fields) (s : State) : Out := teamOp (.rowScale f) f s
def execRowAdd (f : Fields) (s : State) : Out := teamOp (.rowAdd f) f s
def execRowCvt (f : Fields) (s : State) : Out := teamOp (.rowCvt f) f s

/-- `acc.rd` (R190): a lane instruction of the team order. -/
def execAccRd (f : Fields) (s : State) : Out :=
  issued (.accRd f) f s fun v =>
    if v.any then (s.enterOrder v.g.team (opHere s (.accRd f) f (.lanes v.act))).retire
    else (s.issueOp v.gid (s.pend (.accRd f) f v (0, 0))).retire

/-- The 16 bits that lane `l` writes with `mmask` (R192). -/
def mmaskBits (f : Fields) (v : View) (l : Nat) : Nat :=
  let p := v.g.pr f.a.toNat l
  (if f.imm.getLsbD 3 then ~~~p else p).toNat

/-- `mmask` (R192): a lane instruction of the team order. -/
def execMmask (f : Fields) (s : State) : Out :=
  issued (.mmask f) f s fun v =>
    if v.any then
      (s.enterOrder v.g.team { opHere s (.mmask f) f (.lanes v.act) with args := mkLanes (mmaskBits f v) }).retire
    else s.retire

/-! ### Effects -/

/-- Sticky flags of an operation in the group that it is charged to (R177, R96): those of lanes as one event of the lowest active
lane. -/
def State.opEvents (s : State) (o : TeamOp) (evs : List Ev) : State :=
  let evs := match o.src with
    | .lanes act => [⟨lowLane act, allFlags evs⟩]
    | _ => evs
  let g := s.grp o.gid
  if g.bound then s.setGrp o.gid (recordRanked g (o.src.rank o.port) o.src.code o.pc evs) else s

/-- The contained error of an operation, at most one (R175, R367). -/
def State.opError (s : State) (o : TeamOp) (e : Option Contained) : State :=
  match e with
  | some e => s.logError o.gid (o.src.rank o.port) o.pc e
  | none => s

/-- UE where something was replaced. -/
def ueIf (b : Bool) : Nat := if b then fUE else 0

/-- Bytes from an address on as cells. -/
def cellsFrom : Nat → List Byte → List Host.Cell
  | _, [] => []
  | a, b :: bs => if b = 0#8 then cellsFrom (a + 1) bs else (a, b) :: cellsFrom (a + 1) bs

/-- Accumulator rows written, with what they become. -/
def Team.putRows (x : Team) (rows : List (Nat × AccRow)) : Team :=
  { x with acc := rows.foldl (fun a r => Tab.set a r.1 r.2) x.acc }

/-- A row of an image in a scratchpad as a tile of one row, with its uncorrectable words (R183, R175). -/
def imageTile (s : State) (t off ty : Nat) : Tile :=
  let n := rowBytes ty
  let bad := fun a => (s.team t).spadUe.contains (a / 4)
  { elem := cellsFrom 0 (s.spadRead t off n)
    scale := if isNb ty then [(0, BitVec.ofNat 32 (leVal (s.spadRead t (off + n) 4))),
                              (1, BitVec.ofNat 32 (leVal (s.spadRead t (off + n + 4) 4)))] else []
    ue := (upto (n / 4)).filter fun w => bad (off + 4 * w)
    ueS := if isNb ty then (upto 2).filter fun b => bad (off + n + 4 * b) else [] }

/-- The tile that holds row `j` of image `t` of B, and the row's number in it. -/
def mmaB (s : State) (x : Team) (o : TeamOp) (f : Fields) (t j : Nat) : Tile × Nat :=
  if f.sub = 1#4 then (imageTile s (nth 0 o.args 0) (imageOff f (nth 0 o.args 1) (nth 0 o.args 2) t j) f.tyN, 0)
  else (x.tile f.b.toNat, j)

/-- Some element of a row is replaced, at a position that is not skipped (R95). -/
def Tile.rowReplaced (t : Tile) (ty i skip : Nat) : Bool :=
  !(t.ue.isEmpty && t.ueS.isEmpty) && (upto 64).any fun k => !bit skip k && t.replaced ty i k

/-- Positions of row `i` that `mma` skips. -/
def mmaSkip (x : Team) (f : Fields) (i : Nat) : Nat := if mmaMasked f then (Tab.get 0#64 x.mb i).toNat else 0

/-- The first replaced operand of `mma` at a position that it computes: of the A tiles, of B, of the accumulator rows (R95, R175). -/
def mmaError (s : State) (x : Team) (o : TeamOp) (f : Fields) : Option Contained :=
  let ty := f.tyN
  let fromTile := fun used n => ((x.tile n).firstReplaced ty used).map (tileError (x.tile n) n)
  let inB := fun (_ k : Nat) => (upto 64).any fun i => !bit (mmaSkip x f i) k
  let a := (rangeFrom f.a.toNat (mmaImages f)).findSome? (fromTile fun i k => !bit (mmaSkip x f i) k)
  let b := if f.sub = 1#4 then
      ((upto (mmaImages f)).flatMap fun t => (upto 64).map fun j => (t, j)).findSome? fun p =>
        ((mmaB s x o f p.1 p.2).1.firstReplaced ty fun i k => i == 0 && inB i k).map fun e =>
          let off := imageOff f (nth 0 o.args 1) (nth 0 o.args 2) p.1 p.2
          let w := if isNb ty && (mmaB s x o f p.1 p.2).1.ueS.contains (e.2 / 32) then rowBytes ty + 4 * (e.2 / 32)
            else 4 * ((elemWords ty 0 e.2).find? (mmaB s x o f p.1 p.2).1.ue.contains).getD 0
          { kind := 3, id := f.col.toNat * 64 + f.row.toNat, posb := off + w }
    else fromTile inB f.b.toNat
  (a.or b).or (x.accError (rangeFrom f.d.toNat 64))

/-- `mma` (R184, R97). (DEDUCED, log entry 25) -/
def applyMma (s : State) (t : Nat) (o : TeamOp) (f : Fields) : State :=
  let x := s.team t
  let ty := f.tyN
  let d := f.d.toNat
  let as := rangeFrom f.a.toNat (mmaImages f)
  let bt := fun n j => mmaB s x o f n j
  let bs := (upto 64).map fun j => (upto (mmaImages f)).map fun n => (bt n j).1.vals ty (bt n j).2
  let badB := fun sk => (upto 64).any fun j => (upto (mmaImages f)).any fun n => (bt n j).1.rowReplaced ty (bt n j).2 sk
  let skip := mmaSkip x f
  let rows := (upto 64).map fun i =>
    let r := mmaRow (skip i) (x.row (d + i)) (as.map fun n => (x.tile n).vals ty i) bs
    let ue := badB (skip i) || (as.any fun n => (x.tile n).rowReplaced ty i (skip i)) || !(x.row (d + i)).ue.isEmpty
    let pois := (x.row (d + i)).pois || (as.any fun n => bit (x.tile n).pois i)
      || (f.sub ≠ 1#4 && (x.tile f.b.toNat).pois ≠ 0)
    ((d + i, ({ e := r.1, pois := pois } : AccRow)), Ev.mk (d + i) (r.2 ||| ueIf ue))
  let e := mmaError s x o f
  ((s.setTeam t (x.putRows (rows.map (·.1)))).opEvents o (rows.map (·.2))).opError o e

/-- The element bytes of a tile row read from a tensor row; elements beyond the tensor are code 0 (R186). -/
def tldRow (s : State) (o : TeamOp) (key ty i : Nat) : List Byte :=
  let rs := (o.runsAt i).filter (·.scale.isNone)
  if isNb ty then
    (upto 2).flatMap fun b =>
      leBytes (blockBytes ty) (match rs.find? (·.off == blockBytes ty * b) with
        | some r => leVal (s.runBytes key o.pages r) % 2 ^ ((nbM ty + 1) * r.elems)
        | none => 0)
  else leBytes (rowBytes ty) (match rs with | r :: _ => leVal (s.runBytes key o.pages r) | [] => 0)

/-- `tld` (R186). Bits 31 to 16 of a scale word are written as zero (R85). -/
def applyTld (s : State) (t : Nat) (o : TeamOp) (f : Fields) : State :=
  let key := (s.ctxOf t).key
  let ty := f.tyN
  let marks := (upto 64).filter fun i => (o.runsAt i).any (s.runMarked o.pages)
  let scales := (upto 64).flatMap fun i => ((o.runsAt i).filterMap fun r => r.scale.map fun b =>
    (2 * i + b, BitVec.ofNat 32 (leVal (s.runBytes key o.pages r) % 65536)))
  let tile : Tile := {
    elem := cellsFrom 0 ((upto 64).flatMap (tldRow s o key ty))
    scale := scales.foldl (fun m e => Tab.set m e.1 e.2) []
    pois := natOfBits ((upto 64).map marks.contains)
    src := some { tid := f.ext.toNat % 4096, row0 := nth 0 o.args 0, col0 := nth 0 o.args 1 } }
  (s.setTeam t { s.team t with tiles := Tab.set (s.team t).tiles f.d.toNat tile }).opError o
    (marks.head?.map fun i => { kind := 4, id := f.ext.toNat % 4096, posa := nth 0 o.args 0 + i })

/-- The ticket unit holds what an operation of the lanes stores (R225, R254, R256). -/
def State.holdsOp (s : State) (t : Nat) (o : TeamOp) : Bool :=
  s.heldBlock t && !s.holds t && (match o.src with | .seq _ => false | _ => true)

/-- A piece of a line that the ticket unit holds for an operation. -/
def State.holdPiece (s : State) (t : Nat) (o : TeamOp) (va pa : Nat) (bs : List Byte) : State :=
  (s.setTeam t { s.team t with held := (s.team t).held ++
    [{ gid := o.gid, lane := 0, space := .global, va := va, pa := pa, bytes := bs, kind := .plain, ord := o.id, by_ := o.gids }] }).armTicket t

/-- Bytes written on the matrix path: the records of their lines open for a plain access of a group and close for a sequencer's (R180,
R249). (DEDUCED, log entry 24) -/
def State.matrixWrite (s : State) (t : Nat) (o : TeamOp) (plain : Bool) (va : Nat) (bs : List Byte) : State :=
  (linePieces va bs.length).foldl (fun s p =>
    let pa := pageLook o.pages (p.1 % 2 ^ 48)
    let piece := (bs.drop (p.1 - va)).take p.2
    if s.holdsOp t o then s.holdPiece t o (p.1 % 2 ^ 48) pa piece
    else
    let u := s.writeAs (s.ctxOf t).key pa piece
    match o.src with
    | .seq _ => u.closeLine (pa / 64)
    | _ => if !plain then u else if s.opens t then u.openLine o.gid (pa / 64) else u.closeLine (pa / 64)) s

/-- Lines that hold elements of a poisoned row are marked, or with a held store once it is performed (R187). -/
def State.markRuns (s : State) (t : Nat) (o : TeamOp) (i : Nat) : State :=
  ((o.runsAt i).filter (·.scale.isNone)).foldl (fun s r => (linePieces r.va r.n).foldl (fun s p =>
    let l := pageLook o.pages (p.1 % 2 ^ 48) / 64
    if isCxl (64 * l) then s
    else if s.holdsOp t o then s.setTeam t { s.team t with
      held := (s.team t).held.map fun e => if e.ord == o.id && e.pa / 64 == l then { e with pois := true } else e }
    else s.setSide l { s.sideOf l with pois := true }) s) s

/-- The first column that a run of elements holds, within its tile row. -/
def runCol (ty : Nat) (r : Run) : Nat := if isNb ty then 32 * (r.off / blockBytes ty) else 0

/-- Bits of one element. -/
def elemBits (ty : Nat) : Nat := if isNb ty then nbM ty + 1 else 8 * elemBytes ty

/-- The bits of a run as a tile holds them, replaced elements zero. -/
def Tile.runVal (t : Tile) (ty i : Nat) (r : Run) : Nat :=
  (upto r.elems).foldl (fun v k =>
    if !(t.ue.isEmpty && t.ueS.isEmpty) && t.replaced ty i (runCol ty r + k) then
      putBits v (elemBits ty * k + elemBits ty - 1) (elemBits ty * k) 0 else v)
    (leVal (readCells t.elem (rowBytes ty * i + r.off) r.n))

/-- A run of elements with the bits of positions beyond the tensor left as memory holds them (R299). -/
def runStored (s : State) (key : Nat) (o : TeamOp) (ty : Nat) (r : Run) (v : Nat) : List Byte :=
  let w := 2 ^ (elemBits ty * r.elems)
  leBytes r.n (leVal (s.runBytes key o.pages r) / w * w + v % w)

/-- Rows that a store writes (R187). -/
def storeRows (x : Team) (o : TeamOp) : List Nat :=
  (upto (opRows o.i)).filter fun i => o.inside i && !(o.policy == 1 && x.rowPoison o.i i)

/-- The end of a store: marks under policy 0, and the record of the first row that policy 1 skipped (R187). -/
def storeEnd (s : State) (t : Nat) (x : Team) (o : TeamOp) (id : Nat) : State :=
  let bad := (upto (opRows o.i)).filter fun i => o.inside i && x.rowPoison o.i i
  if o.policy = 0 then bad.foldl (fun s i => s.markRuns t o i) s
  else if o.policy = 1 then
    s.opError o (bad.head?.map fun i => { kind := 6, id := id, posa := nth 0 o.args 0 + i })
  else s

/-- Element `k` of row `i` is one that a store writes: its row is stored and the element lies in the tensor (R95, R187). -/
def storeUses (x : Team) (o : TeamOp) (ty i k : Nat) : Bool :=
  (storeRows x o).contains i && (o.runsAt i).any fun r => r.scale.isNone && runCol ty r ≤ k && k < runCol ty r + r.elems

/-- A release on the matrix path closes the lines of the groups that issued it (R250). -/
def State.opRelease (s : State) (o : TeamOp) (f : Fields) : State :=
  if f.mod.getLsbD 3 then
    (match o.src with | .seq _ => s | _ => s.closeFilter o.gid)
  else s

/-- `tsv` (R187). Bits 31 to 16 of a scale word are written as zero (R85). A scale word with an uncorrectable error is stored as a free value:
its elements are +0 whatever it is. (DESIGN CHOICE, log entry 26) -/
def applyTsv (s : State) (t : Nat) (o : TeamOp) (f : Fields) : State :=
  let x := s.team t
  let key := (s.ctxOf t).key
  let ty := f.tyN
  let tile := x.tile f.d.toNat
  let plain := !f.mod.getLsbD 3
  let u := (storeRows x o).foldl (fun u i => (o.runsAt i).foldl (fun u r =>
    match r.scale with
    | some b =>
        let w := if tile.ueS.contains (2 * i + b) then freeNat (s.fresh + 2 * i + b) else (tile.scaleAt (2 * i + b)).toNat
        u.matrixWrite t o plain r.va (leBytes 4 (w % 65536))
    | none => u.matrixWrite t o plain r.va (runStored u key o ty r (tile.runVal ty i r))) u) (s.opRelease o f)
  let e := tile.firstReplaced ty (storeUses x o ty)
  (((storeEnd u t x o (f.ext.toNat % 4096)).opEvents o [⟨0, ueIf e.isSome⟩]).opError o (e.map (tileError tile f.d.toNat))).choicesMade

/-- `acc.st` (R189). -/
def applyAccSt (s : State) (t : Nat) (o : TeamOp) (f : Fields) : State :=
  let x := s.team t
  let plain := !f.mod.getLsbD 3
  let u := (storeRows x o).foldl (fun u i => (o.runsAt i).foldl (fun u r =>
    u.matrixWrite t o plain r.va (((x.row (f.d.toNat + i)).all.flatMap fun w => leBytes 4 w.toNat).take r.n)) u)
    (s.opRelease o f)
  let cols := fun r => (o.runsAt (r - f.d.toNat)).foldl (fun n r => n + r.n / 4) 0
  let e := x.accErrorIn ((storeRows x o).map (f.d.toNat + ·)) cols
  ((storeEnd u t x o (f.ext.toNat % 4096)).opEvents o [⟨0, ueIf e.isSome⟩]).opError o e

/-- `acc.ld` (R189). -/
def applyAccLd (s : State) (t : Nat) (o : TeamOp) (f : Fields) : State :=
  let key := (s.ctxOf t).key
  let marked := fun i => (o.runsAt i).any (s.runMarked o.pages)
  let row := fun i =>
    let bs := (o.runsAt i).flatMap (s.runBytes key o.pages)
    ({ e := (upto 64).map fun c => BitVec.ofNat 32 (leVal ((bs.drop (4 * c)).take 4)), pois := marked i } : AccRow)
  let rows := (upto f.b.toNat).map fun i => (f.d.toNat + i, row i)
  (s.setTeam t ((s.team t).putRows rows)).opError o (((upto f.b.toNat).find? marked).map fun i =>
    match o.tensor with
    | some _ => { kind := 4, id := f.ext.toNat % 4096, posa := nth 0 o.args 0 + i }
    | none => { kind := 4, posa := i })

/-- `acc.rd` (R190) at its completion. -/
def applyAccRd (s : State) (t : Nat) (o : TeamOp) (f : Fields) : State :=
  let r := (s.team t).row f.a.toNat
  let h := 32 * (f.b.toNat / 32 % 2)
  let act := match o.src with | .lanes act => act | _ => 0#32
  let g := (s.grp o.gid).setV f.d.toNat act fun l => r.at (h + l)
  let g := if f.b.getLsbD 7 then g.setP f.c.toNat act fun _ => boolHalf r.pois else g
  let bad := (lanesOf act).filter fun l => r.ue.contains (h + l)
  ((s.setGrp o.gid (recordRanked g o.port 0 o.pc (bad.map fun l => ⟨l, fUE⟩)))).opError o
    (bad.head?.map fun l => { kind := 2, posa := f.a.toNat, posb := h + l })

/-- `mmask` (R192). -/
def applyMmask (s : State) (t : Nat) (o : TeamOp) (f : Fields) : State :=
  let q := bits f.imm.toNat 1 0
  let h := bits f.imm.toNat 2 2
  let act := match o.src with | .lanes act => act | _ => 0#32
  let x := s.team t
  let put := fun mb l =>
    Tab.set mb (32 * h + l) (BitVec.ofNat 64 (putBits (Tab.get 0#64 mb (32 * h + l)).toNat (16 * q + 15) (16 * q) (nth 0 o.args l)))
  s.setTeam t { x with mb := (lanesOf act).foldl put x.mb }

/-- `row.max` and `row.sum` (R194). -/
def applyReduce (s : State) (t : Nat) (o : TeamOp) (f : Fields) (op : List Word → FRes) : State :=
  let x := s.team t
  let n := f.c.toNat
  let src := rangeFrom f.a.toNat n
  let rs := src.map fun r => op (x.row r).all
  let old := x.row f.d.toNat
  let new : AccRow := {
    e := (upto 64).map fun c => if c < n then BitVec.ofNat 32 (nth ⟨0, 0⟩ rs c).x else nth 0#32 old.e c
    pois := old.pois || src.any fun r => (x.row r).pois
    ue := old.ue.filter (n ≤ ·)
    ce := old.ce.filter (n ≤ ·) }
  let e := x.accError src
  ((s.setTeam t (x.putRows [(f.d.toNat, new)])).opEvents o
    [⟨f.d.toNat, rs.foldl (fun m r => m ||| r.fl ||| nfOf r.x) 0 ||| ueIf e.isSome⟩]).opError o e

/-- The first of places by ascending row and then column (R175). -/
def firstPlace : List (Nat × Nat) → Option (Nat × Nat)
  | [] => none
  | p :: ps => some (ps.foldl (fun m q => if q.1 < m.1 || (q.1 == m.1 && q.2 < m.2) then q else m) p)

/-- A row instruction that writes one row for each source row: `op i` gives the elements' results, `other i` the further rows read and
the columns of them, with their poison. -/
def applyEach (s : State) (t : Nat) (o : TeamOp) (f : Fields) (op : Nat → List Word → List FRes) (other : Nat → Option Nat)
    (oneCol : Bool) : State :=
  let x := s.team t
  let rows := (upto f.c.toNat).map fun i =>
    let a := x.row (f.a.toNat + i)
    let r := rowDone (op i a.all)
    let b := (other i).map x.row
    let ue := !a.ue.isEmpty || (match b with
      | some y => if oneCol then y.ue.contains i else !y.ue.isEmpty
      | none => false)
    ((f.d.toNat + i, ({ e := r.1, pois := a.pois || (match b with | some y => y.pois | none => false) } : AccRow)),
      Ev.mk (f.d.toNat + i) (r.2 ||| ueIf ue))
  let cols := fun r i => if oneCol then (x.row r).ue.filter (· == i) else (x.row r).ue
  let bad := (upto f.c.toNat).flatMap fun i => (x.row (f.a.toNat + i)).ue.map (fun c => (f.a.toNat + i, c))
    ++ ((other i).toList.flatMap fun r => (cols r i).map fun c => (r, c))
  ((s.setTeam t (x.putRows (rows.map (·.1)))).opEvents o (rows.map (·.2))).opError o
    ((firstPlace bad).map fun p => { kind := 2, posa := p.1, posb := p.2 })

/-- `row.exp` (R194). -/
def applyRowExp (s : State) (t : Nat) (o : TeamOp) (f : Fields) : State :=
  let x := s.team t
  let fac := if f.len = .l64 then 0x3F800000 else f.imm.toNat
  applyEach s t o f (fun i xs => xs.map fun w => rowExpElem fac w.toNat ((x.row f.b.toNat).at i).toNat)
    (fun _ => some f.b.toNat) true

/-- `row.scale` (R194). -/
def applyRowScale (s : State) (t : Nat) (o : TeamOp) (f : Fields) : State :=
  let x := s.team t
  let fac := fun i => if f.len = .l64 then ((x.row f.b.toNat).at i).toNat else f.imm.toNat
  applyEach s t o f (fun i xs => xs.map fun w => fp32.mul 0 (fp32.val w.toNat) (fp32.val (fac i)))
    (fun _ => if f.len = .l64 then some f.b.toNat else none) true

/-- `row.add` (R194). -/
def applyRowAdd (s : State) (t : Nat) (o : TeamOp) (f : Fields) : State :=
  let x := s.team t
  applyEach s t o f (fun i xs => (xs.zip (x.row (f.b.toNat + i)).all).map fun w =>
      fp32.add 0 (fp32.val w.1.toNat) (fp32.val w.2.toNat))
    (fun i => some (f.b.toNat + i)) false

/-- `row.cvt` (R195). -/
def applyRowCvt (s : State) (t : Nat) (o : TeamOp) (f : Fields) : State :=
  let x := s.team t
  let rs := (upto 64).map fun i => cvtRow f.tyN (x.row (f.a.toNat + i)).all
  let tile : Tile := {
    elem := cellsFrom 0 (rs.flatMap (·.1))
    scale := ((upto 64).flatMap fun i => (upto (nth ([], [], 0) rs i).2.1.length).map fun b =>
      (2 * i + b, nth 0#32 (nth ([], [], 0) rs i).2.1 b)).foldl (fun m e => Tab.set m e.1 e.2) []
    pois := natOfBits ((upto 64).map fun i => (x.row (f.a.toNat + i)).pois) }
  let e := x.accError (rangeFrom f.a.toNat 64)
  ((s.setTeam t { x with tiles := Tab.set x.tiles f.d.toNat tile }).opEvents o
    [⟨0, rs.foldl (fun m r => m ||| r.2.2) 0 ||| ueIf e.isSome⟩]).opError o e

/-- Corrected words counted in CECNT; it saturates, and a `csr.w` of the cycle keeps its value (R127, R345). -/
def State.countCorrected (s : State) (core n : Nat) : State :=
  let c := s.core core
  if n = 0 || c.cecntW then s else s.setCore core { c with cecnt := Nat.min (c.cecnt + n) 0xFFFFFFFF }

/-- The elements of a tile that an operation reads, with the format in which it does (R95, R172): none of a tile that it does not read. -/
def tileUse (x : Team) (o : TeamOp) (n : Nat) : Nat × (Nat → Nat → Bool) :=
  match o.i with
  | .mma f =>
      let a := f.a.toNat ≤ n && n < f.a.toNat + mmaImages f
      let b := f.sub ≠ 1#4 && n = f.b.toNat
      (f.tyN, fun i k => (a && !bit (mmaSkip x f i) k) || (b && (upto 64).any fun j => !bit (mmaSkip x f j) k))
  | .tsv f => (f.tyN, fun i k => n = f.d.toNat && storeUses x o f.tyN i k)
  | _ => (0, fun _ _ => false)

/-- The element words of a tile, and its scale words, that hold something an operation reads (R175). -/
def elemRead (u : Nat × (Nat → Nat → Bool)) (w : Nat) : Bool :=
  (upto 64).any fun i => (upto 64).any fun k => u.2 i k && (elemWords u.1 i k).contains w
def scaleRead (u : Nat × (Nat → Nat → Bool)) (w : Nat) : Bool :=
  isNb u.1 && (rangeFrom (32 * (w % 2)) 32).any fun k => u.2 (w / 2) k

/-- Column `c` of accumulator row `r` is one that an operation reads (R174, R175). -/
def accUse (x : Team) (o : TeamOp) (r c : Nat) : Bool :=
  let own := fun a n : Nat => a ≤ r && r < a + n
  match o.i with
  | .mma f => own f.d.toNat 64
  | .accSt f => own f.d.toNat f.b.toNat && (storeRows x o).contains (r - f.d.toNat)
      && c < (o.runsAt (r - f.d.toNat)).foldl (fun n q => n + q.n / 4) 0
  | .accRd f =>
      let h := 32 * (f.b.toNat / 32 % 2)
      r = f.a.toNat && h ≤ c && c < h + 32 && (match o.src with | .lanes act => act.getLsbD (c - h) | _ => false)
  | .rowMax f | .rowSum f => own f.a.toNat f.c.toNat
  | .rowExp f => own f.a.toNat f.c.toNat || (r = f.b.toNat && c < f.c.toNat)
  | .rowScale f => own f.a.toNat f.c.toNat || (f.len = .l64 && r = f.b.toNat && c < f.c.toNat)
  | .rowAdd f => own f.a.toNat f.c.toNat || own f.b.toNat f.c.toNat
  | .rowCvt f => own f.a.toNat 64
  | _ => false

/-- The words with one bit in error that an operation reads are corrected and counted (R175). -/
def State.correctOp (s : State) (t : Nat) (o : TeamOp) : State :=
  let x := s.team t
  let tile := fun n (y : Tile) => (y.ce.filter (elemRead (tileUse x o n)), y.ceS.filter (scaleRead (tileUse x o n)))
  let row := fun n (y : AccRow) => y.ce.filter (accUse x o n)
  let n := x.tiles.foldl (fun k e => k + (tile e.1 e.2).1.length + (tile e.1 e.2).2.length) 0
    + x.acc.foldl (fun k e => k + (row e.1 e.2).length) 0
  if n = 0 then s
  else (s.setTeam t { x with
    tiles := x.tiles.map fun e => (e.1, { e.2 with
      ce := e.2.ce.filter (!(tile e.1 e.2).1.contains ·), ceS := e.2.ceS.filter (!(tile e.1 e.2).2.contains ·) })
    acc := x.acc.map fun e => (e.1, { e.2 with ce := e.2.ce.filter (!(row e.1 e.2).contains ·) }) }).countCorrected (coreOf t) n

/-- The effect of an operation of the team order, from the state in which its words have been corrected. -/
def State.applyOp (s : State) (t : Nat) (o : TeamOp) : State :=
  let s := s.correctOp t o
  let x := s.team t
  match o.i with
  | .mma f => applyMma s t o f
  | .tld f => applyTld s t o f
  | .tsv f => applyTsv s t o f
  | .tzero f => s.setTeam t { x with tiles := Tab.set x.tiles f.d.toNat {} }
  | .tpois f =>
      let y := x.tile f.d.toNat
      let m := nth 0 o.args 0
      let z := { y with pois := if f.c = 0#8 then y.pois ||| m else y.pois - (y.pois &&& m) }
      s.setTeam t { x with tiles := Tab.set x.tiles f.d.toNat z }
  | .accLd f => applyAccLd s t o f
  | .accSt f => applyAccSt s t o f
  | .accZero f => s.setTeam t (x.putRows ((rangeFrom f.d.toNat f.b.toNat).map fun r => (r, {})))
  | .accRd f => applyAccRd s t o f
  | .mmask f => applyMmask s t o f
  | .rowMax f => applyReduce s t o f greatest
  | .rowSum f => applyReduce s t o f rowTotal
  | .rowExp f => applyRowExp s t o f
  | .rowScale f => applyRowScale s t o f
  | .rowAdd f => applyRowAdd s t o f
  | .rowCvt f => applyRowCvt s t o f
  | _ => s

/-! ### Start and end (R178) -/

/-- Cycles that `mma` occupies its engine for each image (R184). -/
def mmaCycles (ty : Nat) : Nat := match ty with | 10 => 64 | 11 => 32 | 12 => 16 | _ => 256

/-- The shortest time of a long-latency operation from its start (R26, R27, R184). -/
def opLeast (s : State) (o : TeamOp) : Least :=
  match o.i with
  | .mma f => (mmaImages f * mmaCycles f.tyN + 14 + (if f.sub = 1#4 then (spaceLeast s o.gid (.spad (nth 0 o.args 0)) 0).1 else 0), 0)
  | .accRd _ => (10, 0)
  | _ => o.runs.foldl (fun m r => (linePieces r.va r.n).foldl (fun m p =>
      m.max (s.globalLeast (dieOf (coreOf o.gid)) (pageLook o.pages (p.1 % 2 ^ 48)))) m) (0, 0)

/-- The groups whose accesses a release on the matrix path orders: those that issued or signed it. (DEDUCED, log entry 28) -/
def releaseGroups (o : TeamOp) : List Nat := match o.src with | .seq _ => [] | _ => o.gids

/-- An operation that accesses global memory on the matrix path (R180). -/
def TeamOp.onMemory (o : TeamOp) : Bool := match o.i with | .tld _ | .tsv _ | .accLd _ | .accSt _ => true | _ => false

/-- Two operations of one program, or with a group in common. -/
def TeamOp.sharesIssuer (p o : TeamOp) : Bool :=
  match p.src, o.src with
  | .seq q, .seq r => q == r && p.gid == o.gid
  | .seq _, _ | _, .seq _ => false
  | _, _ => p.gids.any o.gids.contains

/-- Earlier accesses stand before an ordered store of the matrix path (R180, R222). (DEDUCED, log entry 28) -/
def releaseReady (s : State) (o : TeamOp) (before : List TeamOp) : Bool :=
  match o.i with
  | .tsv f | .accSt f =>
      !f.mod.getLsbD 3
        || ((releaseGroups o).all fun g => laneNums.all fun l => laneDoneBefore s g l o.id)
            && before.all fun p => !p.sharesIssuer o || !p.onMemory
  | _ => true

/-- No operation of the same issuers that acquires stands before one that accesses memory (R180, R222). (DEDUCED, log entry 28) -/
def acquireReady (o : TeamOp) (before : List TeamOp) : Bool :=
  !o.onMemory || before.all fun p => !p.sharesIssuer o || !p.acquiring

/-- A store of the matrix path. -/
def TeamOp.storing (o : TeamOp) : Bool := match o.i with | .tsv _ | .accSt _ => true | _ => false

/-- The accesses of one sequencer have the order of its instructions (R234): one of two of them that stores waits for the other. -/
def engineOrder (o : TeamOp) (before : List TeamOp) : Bool :=
  !o.onMemory || before.all fun p => !p.onMemory || !(p.storing || o.storing) || p.src != o.src || p.gid != o.gid
    || (match o.src with | .seq _ => false | _ => true)

/-- Whether the operation at place `k` of a team's order may start. (DEDUCED, log entry 27) -/
def canStart (s : State) (t : Nat) (o : TeamOp) (before : List TeamOp) : Bool :=
  before.all (fun p => !opsConflict p.i o.i) && releaseReady s o before && acquireReady o before && engineOrder o before
    && !((match o.i with | .mma _ => true | _ => false) && mmaBusy s (coreOf t))

/-- An operation leaves the order, and its flags clear (R178). -/
def State.leaveOrder (s : State) (t : Nat) (o : TeamOp) : State :=
  (s.setTeam t { s.team t with order := (s.team t).order.filter (·.id != o.id) }).flagsDown o.flags

/-- TEAM_OP_START (R178): a short operation takes effect; a long-latency one runs from now on. (DEDUCED, log entry 27) -/
def execTeamOpStart (team k : Nat) (s : State) : Out :=
  match (s.team team).order[k]? with
  | none => .next s
  | some o =>
      if o.started || !canStart s team o ((s.team team).order.take k) then .next s
      else if isLong o.i then
        let d := s.dueAt o.gid (opLeast s o)
        .next (s.setTeam team { s.team team with
          order := (s.team team).order.map fun p => if p.id == o.id then { p with started := true, due := d.1, dueNs := d.2 } else p })
      else .next ((s.applyOp team o).leaveOrder team o)

/-- A time has passed on a group's core and on the wall clock. -/
def State.reached (s : State) (gid due dueNs : Nat) : Bool := due ≤ (s.core (coreOf gid)).cycle && dueNs ≤ s.pkg.wtime

/-- The completion of a long-latency operation of a team (R61, R178). -/
def completeTeamOp (s : State) (team k : Nat) : State :=
  match (s.team team).order[k]? with
  | none => s
  | some o => if o.started && s.reached o.gid o.due o.dueNs then (s.applyOp team o).leaveOrder team o else s

end Sys2Proof.Machine
end

