-- ==== Sys2Proof/Machine/Engines.lean ====
section
/-!
DEFINITION. Sequencers and their instructions (R269 to R278), local copies (R284), job cards and copy engines (R279 to R283), and the
footprint unit (R285, R286).
-/

namespace Sys2Proof.Machine

open Sys2Proof

/-! ### Footprints (R285, R286) -/

/-- The pages of a region word from a base; `none` where the word is unused. -/
def regionOf (base w : Nat) : Option (Nat × Nat) :=
  if w % 65536 = 0 then none else some (wrap (((base / 65536 : Nat) : Int) + sext (w / 65536) 16) 32, w % 65536)

/-- The regions of a list of region words. -/
def regionsOf (base : Nat) (ws : List Nat) : List (Nat × Nat) := ws.filterMap (regionOf base)

/-- Two regions share a page; pages count modulo 2^32. -/
def pagesMeet (a b : Nat × Nat) : Bool := wrap ((b.1 : Int) - a.1) 32 < a.2 || wrap ((a.1 : Int) - b.1) 32 < b.2

def regionsMeet (a b : List (Nat × Nat)) : Bool := a.any fun x => b.any (pagesMeet x)

/-- A later entry waits for an earlier one (R286). -/
def Foot.before (k j : Foot) : Bool :=
  k.ctx == j.ctx && (regionsMeet j.writes k.reads || regionsMeet j.writes k.writes || regionsMeet j.reads k.writes)

/-- An entry is made with its edges. -/
def State.enterFoot (s : State) (x : Foot) : State :=
  { s with feet := s.feet ++ [{ x with id := s.seqno, edges := (s.feet.filter (·.before x)).map (·.id) }], seqno := s.seqno + 1 }

/-- No edge of an entry is left. -/
def State.edgesDone (s : State) (x : Foot) : Bool := x.edges.all fun k => !s.feet.any (·.id == k)

/-- An entry has completed. -/
def State.dropFoot (s : State) (id : Nat) : State := { s with feet := s.feet.filter (·.id != id) }

/-! ### `fork` and `rdv` (R272, R273) -/

/-- Eight bytes of a window. -/
def State.spadDword (s : State) (t off : Nat) : Nat := leVal (s.spadRead t off 8)
/-- Four bytes of a window. -/
def State.spadWord (s : State) (t off : Nat) : Nat := leVal (s.spadRead t off 4)

/-- The offset of `fork`'s footprint block; `none` without one. -/
def forkBlock (f : Fields) : Option Nat := if f.imm.getLsbD 31 then none else some (bits f.imm.toNat 17 0)

/-- The tests of `fork`: the block's range, then its format. -/
def forkTests (f : Fields) (s : State) (v : View) (l : Nat) : Check :=
  match forkBlock f with
  | none => .ok
  | some off =>
      if s.window v.g.team < off + 48 then .trap (s.laneTrap 0x0D l off) none
      else if bits (s.spadDword v.g.team off) 63 48 ≠ 0 || bits (s.spadDword v.g.team (off + 8)) 63 48 ≠ 0 then
        .trap (s.laneTrap 0x0A l off) none
      else .ok

/-- The footprint entry of a `fork`. -/
def forkFoot (f : Fields) (s : State) (v : View) : Foot :=
  let t := v.g.team
  let words := fun off => (upto 4).map fun k => s.spadWord t (off + 4 * k)
  let r := match forkBlock f with
    | some off => (regionsOf (s.spadDword t off) (words (off + 16)), regionsOf (s.spadDword t (off + 8)) (words (off + 32)))
    | none => ([], [])
  { id := 0, ctx := (s.team t).ctx, core := coreOf v.gid, reads := r.1, writes := r.2, job := none, gid := v.gid, edges := [] }

/-- The start PC of sequencer `q`. -/
def forkPc (f : Fields) (s : State) (v : View) (q : Nat) : Nat :=
  let r := if q = 0 then f.a else if q = 1 then f.b else f.c
  wrap ((s.cur.pc : Int) + sext (v.w.ur r.toNat).toNat 32) 48

/-- The named sequencers' states. -/
def forkSeqs (f : Fields) (s : State) (v : View) (foot : Nat) : List Seq :=
  (upto 3).map fun q =>
    if (seqsNamed f).contains q then { st := 1, pc := forkPc f s v q, foot := foot } else nth {} v.g.seqs q

def execFork (f : Fields) (s : State) : Out :=
  issuedChk (.fork f) f s (forkTests f s) fun v =>
    if v.any then
      ((s.setGrp v.gid { v.g with seqs := forkSeqs f s v s.seqno, ev := 0 }).enterFoot (forkFoot f s v)).retire
    else s.retire

/-- The status word of `rdv` (R273, R274). -/
def rdvStatus (f : Fields) (g : Group) : Nat :=
  (seqsNamed f).foldl (fun n q => let x := nth {} g.seqs q; if x.st = 2 then n + x.cause * 256 ^ q else n) 0

def execRdv (f : Fields) (s : State) : Out :=
  issued (.rdv f) f s fun v =>
    if !v.any then s.retire
    else
      let st := rdvStatus f v.w
      let seqs := (upto 3).map fun q =>
        let x := nth {} v.g.seqs q
        if (seqsNamed f).contains q && x.st == 2 then { x with st := 0 } else x
      let t := (s.setGrp v.gid { v.g with seqs := seqs }).writeU f.a.toNat (BitVec.ofNat 32 st)
      (t.writeP f.d.toNat v.act fun _ => boolHalf (st == 0)).retire

/-! ### Instructions of sequencers (R275 to R277) -/

/-- The group whose program runs in sequencer `q` of a core. -/
def State.seqGroup (s : State) (core q : Nat) : Option Nat :=
  (s.groupsOn core).find? fun g => (nth {} (s.grp g).seqs q).st == 1

/-- One sequencer's state replaced. -/
def State.setSeq (s : State) (gid q : Nat) (x : Seq) : State :=
  s.setGrp gid { s.grp gid with seqs := setNth x (s.grp gid).seqs q }

def State.seqOf (s : State) (gid q : Nat) : Seq := nth {} (s.grp gid).seqs q

/-- Operations that sequencer `q` of a group has issued and that have not completed, by order number. -/
def State.seqOps (s : State) (gid q : Nat) : List Nat :=
  ((s.team (s.grp gid).team).order.filter fun o => o.gid == gid && o.src == .seq q).map (·.id)
    ++ ((s.core (coreOf gid)).copies.filter fun c => c.gid == gid && c.src == .seq q).map (·.id)

/-- An instruction of the lanes' illegal-instruction cause 0xA, or of a sequencer (R73). -/
def seqInstr (i : Instr) (f : Fields) (s : State) (k : Nat → State → State) : Out :=
  match s.cur.src with
  | .seq q => sequenced i f s q true (k q)
  | _ => issued i f s fun _ => s

def execEflag (f : Fields) (s : State) : Out :=
  seqInstr (.eflag f) f s fun q s =>
    let x := s.seqOf s.cur.gid q
    (s.setSeq s.cur.gid q { x with eflags := x.eflags ++ [(f.b.toNat, s.seqOps s.cur.gid q)] }).seqRetire q

/-- EVENT_SET (R276): the first `eflag` of the sequencer, once every operation before it has completed. -/
def execEventSet (core q : Nat) (s : State) : Out :=
  match s.seqGroup core q with
  | none => .next s
  | some gid => match (s.seqOf gid q).eflags with
    | [] => .next s
    | (e, ops) :: rest =>
        if ops.any (s.seqOps gid q).contains then .next s
        else
          let t := s.setSeq gid q { s.seqOf gid q with eflags := rest }
          .next (t.setGrp gid { t.grp gid with ev := (t.grp gid).ev ||| 2 ^ e })

def execEwait (f : Fields) (s : State) : Out :=
  seqInstr (.ewait f) f s fun q s =>
    let w := if f.len = .l64 then SeqWait.events f.b.toNat
      else SeqWait.cycles ((s.core (coreOf s.cur.gid)).cycle + f.imm.toNat)
    (s.setSeq s.cur.gid q { s.seqOf s.cur.gid q with wait := w }).seqRetire q

/-- EWAIT_CYCLES_EXPIRY (R276). -/
def execEwaitCyclesExpiry (core q : Nat) (s : State) : Out :=
  match s.seqGroup core q with
  | none => .next s
  | some gid => match (s.seqOf gid q).wait with
    | .cycles due => if due ≤ (s.core core).cycle && !(s.seqOf gid q).halted then .next (s.setSeq gid q { s.seqOf gid q with wait := .none }) else .next s
    | _ => .next s

/-- `eloop` (R277). -/
def execEloop (f : Fields) (s : State) : Out :=
  seqInstr (.eloop f) f s fun q s =>
    let gid := s.cur.gid
    let x := s.seqOf gid q
    let top := match x.loops with | (p, _) :: _ => p == s.cur.pc | [] => false
    if !top && x.loops.length ≥ 4 then seqStop s gid q 0x12
    else
      let loops := if top then x.loops else (s.cur.pc, f.imm.toNat / 65536 - 1) :: x.loops
      match loops with
      | (p, n) :: rest =>
          if 0 < n then
            (s.setSeq gid q { x with loops := (p, n - 1) :: rest }).seqTo q
              (wrap ((s.cur.pc : Int) + sext f.imm.toNat 16) 48) true
          else (s.setSeq gid q { x with loops := rest }).seqRetire q
      | [] => s

def execEend (f : Fields) (s : State) : Out :=
  seqInstr (.eend f) f s fun q s => s.setSeq s.cur.gid q { s.seqOf s.cur.gid q with stopping := true, cause := 0 }

/-- The sequencers of a `fork` start together once its edges are satisfied (R272). -/
def execSequencerStart (gid : Nat) (s : State) : Out :=
  let g := s.grp gid
  let ok := fun x : Seq => x.st == 1 && !x.started && s.feet.any fun k => k.id == x.foot && s.edgesDone k
  let started := (upto 3).filterMap fun q => if ok (s.seqOf gid q) then some (s.seqOf gid q).foot else none
  let t := s.setGrp gid { g with seqs := g.seqs.map fun x => if ok x then { x with started := true } else x }
  .next { t with feet := t.feet.map fun k => if started.contains k.id then { k with started := true } else k }

/-- SEQUENCER_END (R271): the state is ended once every operation has completed; the fork's entry is complete with its last program. -/
def execSequencerEnd (core q : Nat) (s : State) : Out :=
  match s.seqGroup core q with
  | none => .next s
  | some gid =>
      let x := s.seqOf gid q
      if !x.stopping || !(s.seqOps gid q).isEmpty || !x.eflags.isEmpty then .next s
      else
        let t := s.setSeq gid q { x with st := 2 }
        .next (if (t.grp gid).seqs.any fun y => y.st == 1 && y.foot == x.foot then t else t.dropFoot x.foot)

/-! ### Tags (R349, R350) -/

/-- The pending count of a tag. -/
def CoreSt.tagCount (c : CoreSt) (n : Nat) : Nat := Tab.get 0 c.tags n

/-- A submission and a completion change a count by one. -/
def State.tagUp (s : State) (c n : Nat) : State :=
  s.setCore c { s.core c with tags := Tab.set (s.core c).tags n ((s.core c).tagCount n + 1) }

/-- The tag belongs to the launch that holds the core's counts; a later launch starts them anew (R349). -/
def State.tagDown (s : State) (c n launch : Nat) : State :=
  let k := (s.core c).tagCount n - 1
  if (s.core c).owner.any (· != launch) then s
  else s.setCore c { s.core c with tags := if k = 0 then Tab.drop (s.core c).tags n else Tab.set (s.core c).tags n k }

/-! ### Local copies (R284) -/

/-- Where a `cp` stands in the way of its issue. -/
inductive CpRes where
  | ok (pages : List Nat)
  | miss (page : Nat) (kind : Kind)
  | bad (code addr : Nat)
  deriving DecidableEq, Repr

/-- Address, scratchpad offset and count. -/
def cpAddr (g : Group) (f : Fields) : Nat := pairVal (g.ur f.a.toNat) (g.ur (f.a.toNat + 1))
def cpOff (g : Group) (f : Fields) : Nat := (g.ur f.b.toNat).toNat
def cpLen (g : Group) (f : Fields) : Nat := (g.ur f.c.toNat).toNat

/-- The barrier word of the 96-bit form. -/
def cpBar (f : Fields) : Option Nat := if f.len = .l96 then some (bits f.imm.toNat 17 0) else none

/-- The tests of `cp`: alignment, the ranges of R215, and the walk of every page (R284). -/
def cpTests (s : State) (g : Group) (f : Fields) (x : Nat → Kind → XRes) : CpRes :=
  let a := cpAddr g f
  let n := cpLen g f
  let kind := if f.sub = 0#4 then Kind.read else Kind.write
  let w := s.window g.team
  if a % 16 ≠ 0 then .bad 0x0C a
  else if cpOff g f % 16 ≠ 0 || n % 16 ≠ 0 then .bad 0x0C (cpOff g f)
  else if w < cpOff g f + n then .bad 0x0D (cpOff g f)
  else if w < (cpBar f).elim 0 (· + 8) then .bad 0x0D ((cpBar f).getD 0)
  else match (pagesOf a n).find? fun p => (match x (p * 65536 % 2 ^ 48) kind with | .hit _ => false | _ => true) with
    | some p => (match x (p * 65536 % 2 ^ 48) kind with
        | .miss => .miss (p % 2 ^ 32) kind
        | r => .bad r.code (Nat.max a (p * 65536) % 2 ^ 48))
    | none => .ok ((pagesOf a n).map fun p => (x (p * 65536 % 2 ^ 48) kind).pa)

/-- The tests of `cp` for a lane. -/
def cpLaneTests (f : Fields) (s : State) (v : View) (l : Nat) : Check :=
  match cpTests s v.w f (s.xlate v.gid) with
  | .ok _ => .ok
  | .miss p k => .miss p k
  | .bad c a => .trap (s.laneTrap c l a) none

/-- A `cp` is submitted; one of no bytes sets its tag at once. -/
def State.submitCopy (s : State) (g : Group) (f : Fields) (src : Src) (pages : List Nat) : State :=
  if cpLen g f = 0 then s
  else
    let c := coreOf s.cur.gid
    let s := s.tagUp c f.d.toNat
    { s.setCore c { s.core c with copies := (s.core c).copies ++
        [{ gid := s.cur.gid, src := src, pc := s.cur.pc, inn := f.sub == 0#4, tag := f.d.toNat, va := cpAddr g f, off := cpOff g f
           n := cpLen g f, bar := cpBar f, id := s.seqno, team := g.team, pages := pages }] } with seqno := s.seqno + 1 }

/-- `cp` (R284). (DEDUCED, log entry 32) -/
def execCp (f : Fields) (s : State) : Out :=
  match s.cur.src with
  | .seq q => sequenced (.cp f) f s q (q == 2) fun s =>
      let g := s.grp s.cur.gid
      match cpTests s g f (s.xlateWait (coreOf s.cur.gid) (s.team g.team).ctx) with
        | .ok pages =>
            if 15 ≤ (s.core (coreOf s.cur.gid)).tagCount f.d.toNat then s else (s.submitCopy g f (.seq q) pages).seqRetire q
        | .bad c _ => seqStop s s.cur.gid q (seqFaultCause c)
        | .miss _ _ => s
  | _ =>
      issuedChk (.cp f) f s (cpLaneTests f s) fun v =>
          match cpTests s v.w f (s.xlate v.gid) with
          | .ok pages => (if v.any then s.submitCopy v.w f (.lanes v.act) pages else s).retire
          | _ => s.retire

/-- Scratchpad words of a range marked with an uncorrectable error (R284). -/
def State.markSpad (s : State) (t off n : Nat) : State :=
  let x := s.team t
  s.setTeam t { x with spadUe := sortNums (x.spadUe ++ rangeFrom (off / 4) ((n + 3) / 4)) }

/-- A line marked POIS by an engine's write. -/
def State.markLine (s : State) (pa : Nat) : State :=
  if isCxl pa then s else s.setSide (pa / 64) { s.sideOf (pa / 64) with pois := true }

/-- A whole line has been written in pieces by one copy, the last of them at `pa`: its marks are those of its new bytes (R211). -/
def State.lineRewritten (s : State) (pa : Nat) (bad : Bool) : State :=
  s.setSide (pa / 64) { s.sideOf (pa / 64) with ue := false, pois := bad }

/-- Sixteen bytes of a local copy from `x` on; what a copy writes covers what the ticket unit holds there of its block (R236). -/
def State.copyUnit (s : State) (c : Copy) (x : Nat) : State :=
  let pa := pagePa c.va c.pages x
  let key := (s.ctxOf c.team).key
  if c.inn then
    let t := s.spadWrite c.team (c.off + x) (s.bytesAs key pa 16)
    if s.marked pa then t.markSpad c.team (c.off + x) 16 else t
  else
    let t := (s.writeUnit key pa (s.spadRead c.team (c.off + x) 16)).overHeld c.team pa 16
    if pa % 64 = 48 && 48 ≤ x then t.lineRewritten pa (s.spadBad c.team (c.off + x - 48) 64)
    else if s.spadBad c.team (c.off + x) 16 then t.markLine pa else t

/-- The next `n` bytes of copy `k` of a core land; a barrier counts them down (R284, R354). -/
def State.copyLand (s : State) (core k n : Nat) : State :=
  match (s.core core).copies[k]? with
  | none => s
  | some c =>
      let m := Nat.min (n / 16) ((c.n - c.moved) / 16)
      let s := (rangeFrom (c.moved / 16) m).foldl (fun s u => s.copyUnit c (16 * u)) s
      let c' := { c with moved := c.moved + 16 * m }
      let s := s.setCore core { s.core core with copies := setNth c' (s.core core).copies k }
      match c.bar with
      | some off => s.barLand c.team off (16 * m)
      | none => s

/-- LOCAL_COPY_COMPLETION (R284): what is left lands, and the tag is signalled. (DEDUCED, log entry 33) -/
def execLocalCopyCompletion (core k : Nat) (s : State) : Out :=
  match (s.core core).copies[k]? with
  | none => .next s
  | some c =>
      let t := s.copyLand core k (c.n - c.moved)
      .next ((t.setCore core { t.core core with copies := dropNth (t.core core).copies k }).tagDown core c.tag (s.team c.team).launch)

/-! ### Job cards (R279 to R283) -/

/-- A job card. -/
structure Card where
  te : Bool
  tid : Nat
  scope : Nat
  tcol : Nat
  trow : Nat
  tag : Nat
  boff : Nat
  be : Bool
  dspc : Bool
  sspc : Bool
  red : Nat
  opc : Nat
  src : Nat
  sstr : Int
  dst : Nat
  dstr : Int
  ioff : Nat
  rows : Nat
  len : Nat
  regions : List Nat
  z : Bool
  deriving DecidableEq, Repr

/-- The card in eight words. -/
def cardOf (ws : List DWord) : Card :=
  let w := fun k => (nth 0#64 ws k).toNat
  { te := bit (w 0) 63, tid := bits (w 0) 62 51, scope := bits (w 0) 50 48, tcol := bits (w 0) 47 42, trow := bits (w 0) 41 36
    tag := bits (w 0) 35 30, boff := 8 * bits (w 0) 29 15, be := bit (w 0) 14, dspc := bit (w 0) 13, sspc := bit (w 0) 12
    red := bits (w 0) 11 8, opc := bits (w 0) 3 0, src := bits (w 1) 47 0, sstr := 64 * sext (bits (w 1) 63 48) 16
    dst := bits (w 2) 47 0, dstr := 64 * sext (bits (w 2) 63 48) 16, ioff := bits (w 3) 57 40, rows := bits (w 3) 39 24
    len := bits (w 3) 23 0, regions := (upto 8).map fun n => bits (w (4 + n / 2)) (32 * (n % 2) + 31) (32 * (n % 2))
    z := bits (w 0) 7 4 == 0 && bits (w 3) 63 58 == 0 }

/-- A row lies inside a window. -/
def rowInside (w : Nat) (a : Int) (len : Nat) : Bool := 0 ≤ a && a + len ≤ (w : Int)

/-- First and last row of a side lie inside a window. -/
def sideInside (w base : Nat) (str : Int) (rows len : Nat) : Bool :=
  rowInside w base len && rowInside w ((base : Int) + str * ((rows : Int) - 1)) len

/-- The conditions of R282 but for the tensor entry's; `tag` is the team on the tag core. -/
def Card.refused (k : Card) (s : State) (t : Nat) (tag : Option Nat) : Bool :=
  let own := s.window t
  let other := match tag with | some u => s.window u | none => 0
  let indexed := k.opc == 1 || k.opc == 2
  decide (3 < k.opc) || decide (5 < k.red) || (k.red != 0 && k.opc != 3) || decide (4 < k.scope) || !k.z
    || (!k.te && k.tid != 0) || k.rows == 0 || k.len == 0 || k.len % 16 != 0 || k.src % 16 != 0 || k.dst % 16 != 0
    || (k.sspc && (k.regions.take 4).any (· != 0)) || (k.dspc && (k.regions.drop 4).any (· != 0))
    || (k.be && (!k.dspc || decide (other < k.boff + 8)))
    || (if indexed then k.ioff % 4 != 0 || decide (own < k.ioff + 4 * k.rows) else k.ioff != 0)
    || (!indexed && k.sspc && !sideInside own k.src k.sstr k.rows k.len)
    || (!indexed && k.dspc && !sideInside other k.dst k.dstr k.rows k.len)
    || tag.isNone

/-- The card at a window offset. -/
def State.cardWords (s : State) (t off : Nat) : List DWord := (upto 8).map fun n => BitVec.ofNat 64 (s.spadDword t (off + 8 * n))

/-- The offset that `job` names. -/
def jobOff (f : Fields) (v : View) : Nat := (v.w.ur f.a.toNat).toNat

/-- The card of a `job`, and the team on its tag core. -/
def jobCard (f : Fields) (s : State) (v : View) : Card × Option Nat :=
  let k := cardOf (s.cardWords v.g.team (jobOff f v))
  (k, s.placed v.gid k.trow k.tcol)

/-- The tests of `job`: the card's range and alignment, its rules, and the entry of its tensor (R281, R282, R298). -/
def jobTests (f : Fields) (s : State) (v : View) (l : Nat) : Check :=
  let off := jobOff f v
  if s.window v.g.team < off + 64 then .trap (s.laneTrap 0x0D l off) none
  else if off % 64 ≠ 0 then .trap (s.laneTrap 0x0C l off) none
  else
    let k := jobCard f s v
    if k.1.refused s v.g.team k.2 then .trap (s.laneTrap 0x0B l off) none
    else if !k.1.te then .ok
    else match tensorWords s (laneIssuer s v) k.1.tid with
      | .error p => p.check s l
      | .ok w => match tensorOf (nth 0#64 w 0).toNat (nth 0#64 w 1).toNat (nth 0#64 w 2).toNat (nth 0#64 w 3).toNat with
        | none => .trap (s.laneTrap 0x0B l off) none
        | some _ => .ok

/-- The tensor that a job's poison policy comes from. -/
def jobTensor (k : Card) (s : State) (v : View) : Option Tensor :=
  if !k.te then none
  else match tensorWords s (laneIssuer s v) k.tid with
    | .ok w => tensorOf (nth 0#64 w 0).toNat (nth 0#64 w 1).toNat (nth 0#64 w 2).toNat (nth 0#64 w 3).toNat
    | .error _ => none

/-- The job of a card, and its footprint entry. -/
def jobOf (f : Fields) (s : State) (v : View) (k : Card) (tag : Nat) : Job :=
  let x := s.team v.g.team
  { gid := v.gid, team := v.g.team, ctx := x.ctx, key := (s.ctx x.ctx).key, pc := s.cur.pc
    words := s.cardWords v.g.team (jobOff f v), card := jobOff f v, queue := x.queue, node := x.node, launch := x.launch
    tagCore := coreOf tag, tagTeam := tag, tensor := jobTensor k s v }

def jobFoot (s : State) (v : View) (k : Card) (id : Nat) : Foot :=
  { id := 0, ctx := (s.team v.g.team).ctx, core := coreOf v.gid, reads := regionsOf k.src (k.regions.take 4)
    writes := regionsOf k.dst (k.regions.drop 4), job := some id, gid := v.gid, edges := [] }

/-- `job` (R281). (DEDUCED, log entry 32) -/
def execJob (f : Fields) (s : State) : Out :=
  issuedChk (.job f) f s (jobTests f s) fun v =>
    if !v.any then s.retire
    else match jobCard f s v with
      | (k, some tag) =>
          let id := s.seqno
          let t := { s with jobs := Tab.set s.jobs id (jobOf f s v k tag), fresh := s.fresh + 1 }
          let t := if k.te then t.keepEntry (laneIssuer s v) k.tid else t
          ((t.tagUp (coreOf tag) k.tag).enterFoot (jobFoot s v k id)).retire
      | (_, none) => s.retire

/-! ### Copy engines -/

/-- The remote window that holds a physical address (R412). (DESIGN CHOICE, log entry 34) -/
def State.windowOf (s : State) (pa : Nat) : Option (Nat × List Nat) :=
  s.pkg.windows.find? fun w => nth 0 w.2 0 ≤ pa && pa < nth 0 w.2 0 + nth 0 w.2 1

/-- Bytes that an engine reads; those of a peer are free values. (DESIGN CHOICE, log entry 34) -/
def State.engBytes (s : State) (key pa n : Nat) : List Byte :=
  match s.windowOf pa with
  | some _ => (rangeFrom pa n).map fun a => BitVec.ofNat 8 (freeNat (s.fresh + a))
  | none => s.bytesAs key pa n

/-- Bytes that an engine writes, poisoned or not: those of a remote window go to the peer with the key identifier; a line that is written in
whole is clean again. (DESIGN CHOICE, log entry 34) -/
def State.engWrite (s : State) (key pa : Nat) (bs : List Byte) (bad : Bool) (whole : Option Bool) : State :=
  match s.windowOf pa with
  | some (w, r) => { s with pkg := { s.pkg with
      peer := s.pkg.peer ++ [{ window := w, key := key, addr := nth 0 r 3 + (pa - nth 0 r 0), bytes := bs, pois := bad }] } }
  | none =>
      let t := s.writeUnit key pa bs
      match whole with
      | some b => t.lineRewritten pa b
      | none => if bad then t.markLine pa else t

/-- A word reduced (R280). -/
def redWord (red : Nat) (d x : Nat) : Nat :=
  match red with
  | 0 => (fp32.add 0 (fp32.val d) (fp32.val x)).x
  | 1 => (d + x) % 2 ^ 32
  | 2 => (fp32.pick false d x).x
  | 3 => (fp32.pick true d x).x
  | 4 => if sext x 32 < sext d 32 then x else d
  | _ => if sext d 32 < sext x 32 then x else d

/-- Sixteen destination bytes from the old ones and the source. -/
def unitBytes (k : Card) (old new : List Byte) : List Byte :=
  if k.opc = 3 then
    (upto 4).flatMap fun w => leBytes 4 (redWord k.red (leVal ((old.drop (4 * w)).take 4)) (leVal ((new.drop (4 * w)).take 4)))
  else new

/-- The place of row `j` on a side: an offset or a virtual address; `none` where an indexed row leaves its window. -/
def rowAt (spc : Bool) (window base : Nat) (str : Int) (j len : Nat) : Option Nat :=
  let a := (base : Int) + str * j
  if spc then (if rowInside window a len then some a.toNat else none) else some (wrap a 48)

/-- Source and destination place of row `j` of a job. -/
def jobRow (s : State) (x : Job) (k : Card) (j : Nat) : Option Nat × Option Nat :=
  let i := nth 0 x.idx j
  (rowAt k.sspc (s.window x.team) k.src k.sstr (if k.opc = 1 then i else j) k.len,
   rowAt k.dspc (s.window x.tagTeam) k.dst k.dstr (if k.opc = 2 then i else j) k.len)

/-- STATUS of a walk's fault (R283). -/
def jobStatus (code : Nat) : Nat := if code = fPage then 1 else if code = fProt then 2 else 3

/-- An engine's access: its translation lets far-tier pages through (R208). -/
def engXlate (s : State) (x : Job) (va : Nat) (k : Kind) : Except Nat Nat :=
  match s.xlateNow (coreOf x.gid) x.ctx va k with
  | .hit pa | .tier pa => .ok pa
  | .fault c => .error c
  | .miss => .error fPage

/-- The place of an access waits for a walk of its page (R206). -/
def engWaits (s : State) (x : Job) (va : Nat) : Bool := s.walking (coreOf x.gid) x.ctx va

/-- A line that an engine reads is marked; whether one at a peer is, is a free choice (R412). (DESIGN CHOICE, log entry 34) -/
def State.engMarked (s : State) (pa : Nat) : Bool :=
  if (s.windowOf pa).isSome then freeBit (s.fresh + 2 ^ 52 + pa / 64) else s.marked pa

/-- Whether sixteen source bytes carry poison. (DEDUCED, log entry 35) -/
def srcMarked (s : State) (x : Job) (k : Card) (a : Nat) : Bool :=
  if k.sspc then s.spadBad x.team a 16
  else match engXlate s x a .read with | .ok pa => s.engMarked pa | .error _ => false

/-- The first poisoned unit of a row. (DEDUCED, log entry 35) -/
def rowMarked (s : State) (x : Job) (k : Card) (src : Nat) : Option Nat :=
  ((upto (k.len / 16)).map fun u => (src + 16 * u) % 2 ^ 48).find? (srcMarked s x k)

/-- The kind of a job's access of its destination: a reduction reads it too (R280, R297). -/
def Card.dstKind (k : Card) : Kind := if k.opc = 3 then .both else .write

/-- Where the sixteen bytes at destination `da` come from, in each row before row `j` and in row `j` up to the unit at `o`. -/
def unitSources (s : State) (x : Job) (k : Card) (j o da : Nat) : List Nat :=
  (upto (j + 1)).filterMap fun r => match jobRow s x k r with
    | (some a, some b) => if b ≤ da && da + 16 ≤ b + (if r = j then o + 16 else k.len) then some ((a + (da - b)) % 2 ^ 48) else none
    | _ => none

/-- The job has written the whole line of the unit at `o` of row `j`, and whether one of its bytes is poisoned (R211); a reduction does not
replace a line. -/
def lineDone (s : State) (x : Job) (k : Card) (j o da : Nat) : Option Bool :=
  let units := (upto 4).map fun n => unitSources s x k j o (da - da % 64 + 16 * n)
  if k.dspc || k.opc = 3 || units.any (·.isEmpty) then none else some (units.any fun u => u.any (srcMarked s x k))

/-- A job that has failed at a row (R283). -/
def Job.fail (x : Job) (status row va : Nat) : Job := { x with status := status, row := row, vpage := va / 65536, ended := true }

/-- Unit `u` of a job moves; an index outside a window names no page. (DEDUCED, log entry 35) -/
def jobUnit (s : State) (id : Nat) (x : Job) (k : Card) (u : Nat) : State :=
  let per := k.len / 16
  let j := u / per
  let o := 16 * (u % per)
  let done := fun (s : State) (x : Job) => { s with jobs := Tab.set s.jobs id { x with moved := u + 1 } }
  let failed := fun (st va : Nat) => { s with jobs := Tab.set s.jobs id (x.fail st j va) }
  match jobRow s x k j with
  | (some a, some b) =>
      let sa := (a + o) % 2 ^ 48
      let da := (b + o) % 2 ^ 48
      match (if k.sspc then .ok 0 else engXlate s x sa .read), (if k.dspc then .ok 0 else engXlate s x da k.dstKind) with
      | .error c, _ => failed (jobStatus c) sa
      | _, .error c => failed (jobStatus c) da
      | .ok spa, .ok dpa =>
          let pol := match x.tensor with | some t => if k.dspc then 0 else t.pol | none => 0
          match (if pol = 0 then none else rowMarked s x k a) with
          | some va =>
              if pol = 1 then done s { x with skipped := some (x.skipped.getD j) } else failed 4 (if k.sspc then da else va)
          | none =>
              let new := if k.sspc then s.spadRead x.team sa 16 else s.engBytes x.key spa 16
              let bad := srcMarked s x k sa
              let t := if k.dspc then
                  let t := s.spadWrite x.tagTeam da (unitBytes k (s.spadRead x.tagTeam da 16) new)
                  if bad then t.markSpad x.tagTeam da 16 else t
                else (s.engWrite x.key dpa (unitBytes k (s.engBytes x.key dpa 16) new) bad (lineDone s x k j o da)).overHeld x.team dpa 16
              done t.choicesMade x
  | (none, _) => failed 6 0
  | (_, none) => failed 6 0

/-- Unit `u` of a job waits for a walk of a page that it needs (R206). -/
def unitWaits (s : State) (x : Job) (k : Card) (u : Nat) : Bool :=
  let o := 16 * (u % (k.len / 16))
  match jobRow s x k (u / (k.len / 16)) with
  | (some a, some b) => (!k.sspc && engWaits s x ((a + o) % 2 ^ 48)) || (!k.dspc && engWaits s x ((b + o) % 2 ^ 48))
  | _ => false

/-- Units of a job move, one after another, until it fails or one has to wait. -/
def jobUnits (s : State) (id : Nat) (k : Card) : List Nat → State
  | [] => s
  | u :: us => match Tab.find s.jobs id with
    | some x => if x.ended || unitWaits s x k u then s else jobUnits (jobUnit s id x k u) id k us
    | none => s

/-- The next `n` bytes of a job land; a barrier counts them down (R354). -/
def State.jobLand (s : State) (id n : Nat) : State :=
  match Tab.find s.jobs id with
  | none => s
  | some x =>
      let k := cardOf x.words
      if !x.started || x.ended || (k.dspc && !(s.team x.tagTeam).bound) then s
      else
        let m := Nat.min (n / 16) (k.rows * (k.len / 16) - x.moved)
        let t := jobUnits s id k (rangeFrom x.moved m)
        let moved := (match Tab.find t.jobs id with | some y => y.moved | none => x.moved) - x.moved
        if k.be && moved ≠ 0 then t.barLand x.tagTeam k.boff (16 * moved) else t

/-- COPY_BYTES_LAND (R354). (DEDUCED, log entry 33) -/
def execCopyBytesLand (src : CopyRef) (n : Nat) (s : State) : Out :=
  match src with
  | .local core k => .next (s.copyLand core k n)
  | .job id => .next (s.jobLand id n)

/-- The indices of a gather or scatter. -/
def jobIndices (s : State) (x : Job) (k : Card) : List Nat :=
  if k.opc = 1 || k.opc = 2 then (upto k.rows).map fun j => s.spadWord x.team (k.ioff + 4 * j) else []

/-- The least time of a job's first read (R281). -/
def jobLeast (s : State) (x : Job) (k : Card) : Least :=
  if k.sspc then (0, 0)
  else match engXlate s x k.src .read with | .ok pa => s.globalLeast (dieOf (coreOf x.gid)) pa | .error _ => (0, 0)

/-- An address of a job that a remote window translates (R412). -/
def farAt (s : State) (x : Job) (va : Nat) (k : Kind) : Bool :=
  match engXlate s x va k with | .ok pa => (s.windowOf pa).isSome | .error _ => false

/-- The address of unit `u` of a job that a remote window translates: of its source, else of its destination. -/
def unitRemote (s : State) (x : Job) (k : Card) (u : Nat) : Option Nat :=
  let o := 16 * (u % (k.len / 16))
  match jobRow s x k (u / (k.len / 16)) with
  | (some a, some b) =>
      if !k.sspc && farAt s x ((a + o) % 2 ^ 48) .read then some ((a + o) % 2 ^ 48)
      else if !k.dspc && farAt s x ((b + o) % 2 ^ 48) k.dstKind then some ((b + o) % 2 ^ 48) else none
  | _ => none

/-- The first unit of a job from those it has moved on that reads or writes through a remote window, with its address (R411, R412). -/
def firstRemote (s : State) (x : Job) (k : Card) : Option (Nat × Nat) :=
  (rangeFrom x.moved (k.rows * (k.len / 16) - x.moved)).findSome? fun u => (unitRemote s x k u).map fun a => (u, a)

/-- Whether a job reads or writes through a remote window. (DESIGN CHOICE, log entry 34) -/
def jobRemote (s : State) (x : Job) (k : Card) : Bool := (firstRemote s x k).isSome

/-- Jobs that copy engines serve: each of the 24 engines serves one from its start to its completion (R10, R281). -/
def State.enginesFree (s : State) : Bool := (s.jobs.filter (·.2.started)).length < 24

/-- COPY_JOB_START (R281, R286). Which Fledenlink link a remote job uses is a free value. -/
def execCopyJobStart (job : Nat) (s : State) : Out :=
  match Tab.find s.jobs job, s.feet.find? (·.job == some job) with
  | some x, some p =>
      if x.started || !s.edgesDone p || !s.enginesFree then .next s
      else
        let k := cardOf x.words
        let d := s.dueAt x.gid (jobLeast s x k)
        let y := { x with started := true, due := d.1, dueNs := d.2, idx := jobIndices s x k }
        let y := { y with link := if jobRemote s y k then some (freeNat s.fresh % 18) else none }
        .next { s with jobs := Tab.set s.jobs job y, fresh := s.fresh + 1 }
  | _, _ => .next s

/-- The completion record (R283). -/
def jobRecord (x : Job) : Nat :=
  2 ^ 63 + x.status * 2 ^ 60 + (if x.status = 0 then 0 else x.row * 2 ^ 32 + x.vpage % 2 ^ 32)

/-- A job signals its tag, writes its record and leaves the footprint unit (R281, R283). -/
def State.jobDone (s : State) (id : Nat) (x : Job) : State :=
  let k := cardOf x.words
  let s := match x.skipped with
    | some j => s.logError x.gid 5 x.pc { kind := 6, id := k.tid, posa := j }
    | none => s
  let s := s.spadWrite x.team x.card (leBytes 8 (jobRecord x))
  let s := s.tagDown x.tagCore k.tag x.launch
  let s := match s.feet.find? (·.job == some id) with | some p => s.dropFoot p.id | none => s
  { s with jobs := Tab.drop s.jobs id }

end Sys2Proof.Machine
end

