-- ==== Sys2Proof/Machine/Images.lean ====
section
/-!
DEFINITION. Code and lanes as the captures hold them: fetched blocks, lane areas (R371), and the team image with its granules: writing them
on a claim (R385, R387) and reading them back (R388).
-/

namespace Sys2Proof.Machine

open Sys2Proof

/-! ### Code as memory holds it -/

/-- A unit of the I/O die, for translations outside any core's or die's TLB. (DEDUCED, log entry 20) -/
def ioUnit : Nat := 1536

/-- A 32-byte block of code read through a context's translation (R56, R78): the fault, or the bytes. -/
def State.fetchBlock (s : State) (core ctx block : Nat) : Except Nat (List Byte) :=
  let va := 32 * block % 2 ^ 48
  match s.xlateNow core ctx va .fetch with
  | .hit pa => .ok (s.bytesAs (s.ctx ctx).key pa 32)
  | r => .error r.code

/-- The word at a PC, decoded from memory. (DEDUCED, log entry 48) -/
def State.decodeAt (s : State) (core ctx pc : Nat) : Decoded :=
  match s.fetchBlock core ctx (pc / 32) with
  | .ok bs => decodeBytes (pc % 32) (bs.drop (pc % 32))
  | .error _ => .bad 1

/-- Instructions from `p` up to `pc` in sequence. -/
def State.instrsTo (s : State) (core ctx pc : Nat) : Nat → Nat → Nat
  | 0, _ => 0
  | n + 1, p =>
      if pc ≤ p then 0
      else match s.decodeAt core ctx p with
        | .instr i => 1 + s.instrsTo core ctx pc n (seqPc p (match fieldsOf i with | some f => f.len.bytes | none => 8))
        | _ => 0

/-- The clause of a lane whose PC and HOFF do not agree: whatever stands at the PC breaks it, so that the lane's next issue raises cause 0x8
(R372). -/
def State.brokenClause (s : State) (core ctx pc : Nat) : Option Clause :=
  match s.decodeAt core ctx pc with
  | .header _ => some { hdr := { count := 1#5 } }
  | _ => none

/-- The clause whose header lies HOFF words before a PC (R379); a PC that is itself a header has HOFF 0 (R371). (DEDUCED, log entries 47, 48) -/
def State.clauseAt (s : State) (core ctx pc hoff : Nat) : Option Clause :=
  let h := pc - 4 * hoff
  if hoff = 0 then none
  else match s.decodeAt core ctx pc, s.decodeAt core ctx h with
    | .header _, _ => s.brokenClause core ctx pc
    | _, .header x => some { hpc := h, hdr := x, done := s.instrsTo core ctx pc 128 (seqPc h 8) }
    | _, _ => none

/-- HOFF of a place in a clause: 0 where the next word is a header not yet passed (R371). (DEDUCED, log entry 47) -/
def State.hoffOf (s : State) (core ctx pc : Nat) : Option Clause → Nat
  | none => 0
  | some c =>
      if c.hdr.count == 0#5 && (match s.decodeAt core ctx pc with | .header _ => true | _ => false) then 0
      else (pc - c.hpc) / 4 % 256

/-! ### Lane areas (R371) -/

/-- WAIT of a lane. -/
def LaneWait.code : LaneWait → Nat
  | .rejoin _ => 1 | .bar _ _ _ _ _ _ => 2 | .commit => 3 | _ => 0

/-- The lane-state word of a lane of a group. -/
def State.laneState (s : State) (gid : Nat) (n : Lane) : Nat :=
  let phw := match n.wait with | .bar _ _ ph _ _ _ => ph.toNat | _ => 0
  let hoff := if n.live then s.hoffOf (coreOf gid) (s.team (s.grp gid).team).ctx n.pc.toNat n.clause else 0
  phw * 2 ^ 12 + n.mark.toNat * 2 ^ 11 + n.wait.code * 2 ^ 8 + hoff

/-- Bytes 64 to 511 of the record's layout. -/
def laneBytesOf (lanes : List Lane) (st : Lane → Nat) : List Byte :=
  lanes.flatMap (fun n => leBytes 8 n.pc.toNat) ++ lanes.flatMap (fun n => leBytes 4 n.mask.toNat)
    ++ lanes.flatMap fun n => leBytes 2 (st n)

/-- The identity of a team that is not resident, by its place in its launch. (DEDUCED, log entry 54) -/
def absentTeam (launch cluster pos : Nat) : Nat := 2 ^ 20 + pos + 16 * (cluster + 2 ^ 40 * launch)

/-- The wait on the barrier word formed again from the `bar` at a lane's PC (R379). (DEDUCED, log entry 48) -/
def State.barAgain (s : State) (gid l pc : Nat) (ph : Bool) : LaneWait :=
  let g := s.grp gid
  match s.decodeAt (coreOf gid) (s.team g.team).ctx pc with
  | .instr (.bar f) =>
      let one : Word := BitVec.ofNat 32 (2 ^ l)
      let v : View := { gid := gid, g := g, w := g, iss := one, act := guardMask g f one }
      let x := s.team g.team
      let t := (s.barTeam g.team f).getD (absentTeam x.launch x.cluster 0)
      if 0 ≤ barOff f v then .bar t (barOff f v).toNat ph f (v.act != 0#32) s.seqno else .run
  | _ => .run

/-- A lane from its entries in a lane area (R379). (DESIGN CHOICE, log entry 46; DEDUCED, log entry 47) -/
def State.laneFrom (s : State) (gid l : Nat) (pc : DWord) (mask : Word) (st : Nat) : Lane :=
  if pc = exitedPc then {}
  else
    let p := pc.toNat % 2 ^ 48
    let ctx := (s.team (s.grp gid).team).ctx
    let wait := match bits st 10 8 with
      | 1 => LaneWait.rejoin (match s.decodeAt (coreOf gid) ctx p with | .instr (.rejoin f) => f.len.bytes | _ => 8)
      | 2 => s.barAgain gid l p (bit st 12)
      | 3 => if (s.ctx ctx).committing then .commit else .run
      | _ => .run
    { pc := lpcOf p, wait := wait, mask := mask, mark := bit st 11, clause := s.clauseAt (coreOf gid) ctx p (bits st 7 0) }

/-- The lane of number `l` in a lane area of 448 bytes. -/
def State.laneOfArea (s : State) (gid l : Nat) (bs : List Byte) : Lane :=
  s.laneFrom gid l (BitVec.ofNat 64 (leVal ((bs.drop (8 * l)).take 8))) (BitVec.ofNat 32 (leVal ((bs.drop (256 + 4 * l)).take 4)))
    (leVal ((bs.drop (384 + 2 * l)).take 2))

/-- The lanes that wait on a phase that has ended meanwhile leave it (R379, R357). (DEDUCED, log entry 36) -/
def State.barCatch (s : State) (gid : Nat) : State :=
  laneNums.foldl (fun s l =>
    match ((s.grp gid).lane l).wait with
    | .bar t off ph _ _ _ =>
        if !(s.team t).bound || (s.barAt t off).ph = ph then s
        else s.setGrp gid ((s.grp gid).barRelease t off ph
          (Tab.find (s.team t).lastArr (2 * off + ph.toNat) == some (s.groupKey (s.grp gid))))
    | _ => s) s

/-! ### Layout of an image (R387) -/

/-- Bytes padded with zeros. -/
def padTo (n : Nat) (bs : List Byte) : List Byte := bs ++ (upto (n - bs.length)).map fun _ => 0#8

/-- Words as bytes. -/
def wordsLe (ws : List Nat) : List Byte := ws.flatMap (leBytes 8)

/-- Words of bytes. -/
def wordLe (bs : List Byte) (k : Nat) : Nat := leVal ((bs.drop (8 * k)).take 8)

/-- Counts that the offsets accumulate from. -/
structure Shape where
  tiles : Nat
  accg  : Nat
  spad  : Nat
  alloc : List Nat
  deriving DecidableEq, Repr

def Shape.accOff (x : Shape) : Nat := 0x1300 + 9216 * x.tiles
def Shape.spadOff (x : Shape) : Nat := x.accOff + 4160 * x.accg
def Shape.groupOff (x : Shape) (r : Nat) : Nat :=
  (x.alloc.take r).foldl (fun a v => a + 0xA00 + 128 * v) (x.spadOff + 256 * x.spad)
def Shape.kstOff (x : Shape) : Nat := x.groupOff x.alloc.length

/-- The shape of a team with its groups. -/
def shapeOf (t : Team) (gs : List Group) : Shape := { tiles := t.desc.tiles, accg := t.desc.accg, spad := t.desc.spad, alloc := gs.map (·.valloc) }

/-- Every granule of a team. -/
def Parked.all (p : Parked) : List Gran :=
  (upto p.groups.length).map .slot
    ++ (upto p.groups.length).flatMap (fun r => (upto ((nth {} p.groups r).valloc / 8)).map (.lines r))
    ++ (upto p.team.desc.tiles).map .tile ++ (upto p.team.desc.accg).map .acc ++ (upto (2 * p.team.desc.spad)).map .spad
    ++ (if p.kst.isSome then [.kst] else [])

/-- Where a granule lies in an image. -/
def Shape.place (x : Shape) : Gran → Nat × Nat
  | .slot r => (x.groupOff r, 0xA00)
  | .lines r k => (x.groupOff r + 0xA00 + 1024 * k, 1024)
  | .tile n => (0x1300 + 9216 * n, 9216)
  | .acc n => (x.accOff + 4160 * n, 4160)
  | .spad n => (x.spadOff + 128 * n, 128)
  | .kst => (x.kstOff, 65536)

/-! ### Writing -/

/-- The role whose sequencers an image records. The layout names none: the lowest that has one that is not idle. (DESIGN CHOICE, log entry 52) -/
def forker (gs : List Group) : Nat := ((upto gs.length).find? fun r => (nth {} gs r).seqs.any (·.st != 0)).getD 0

/-- The team header; a stopped sequencer holds the cycles that remain of its `ewait` (R384). (DESIGN CHOICE, log entry 52) -/
def teamHeader (s : State) (p : Parked) (whole : Bool) : List Byte :=
  let t := p.team
  let g := nth {} p.groups (forker p.groups)
  let seqs := (upto 3).map fun q => nth {} g.seqs q
  let lines := p.groups.foldl (fun n g => n + g.valloc) (8 * t.pool)
  let a := fun x : Seq => x.st * 2 ^ 56 + x.cause * 2 ^ 48 + x.pc
  let b := fun x : Seq =>
    let w := match x.wait with
      | .none => 0
      | .events m => 2 ^ 63 + m
      | .cycles left => 2 ^ 62 + left % 2 ^ 32
    w + x.loops.length * 2 ^ 56 + s.hoffOf (coreOf p.gid0) t.ctx x.pc x.clause * 2 ^ 32
  let loops := fun x : Seq => (upto 4).map fun k => (nth (0, 0) x.loops k).2 * 2 ^ 48 + (nth (0, 0) x.loops k).1
  padTo 256 (wordsLe (
    [whole.toNat * 2 ^ 63 + lines * 2 ^ 36 + 32 * 2 ^ 30 + t.desc.cvr * 2 ^ 26 + t.desc.rejd * 2 ^ 22 + t.desc.barw * 2 ^ 14
       + t.desc.tiles * 2 ^ 10 + t.desc.accg * 2 ^ 5 + p.groups.length,
     p.kst.isSome.toNat * 2 ^ 63 + g.ev * 2 ^ 42 + t.desc.spad * 2 ^ 32 + t.staged.length * 2 ^ 20 + t.pool]
    ++ (upto 8).map (fun n => (nth {} t.cvs n).cvdef.toNat) ++ seqs.map a ++ seqs.map b ++ seqs.flatMap loops))

/-- Issue order of a staged entry within its lane. -/
def stagedRank (es : List Staged) (e : Staged) : Nat :=
  (es.filter fun x => x.role == e.role && x.lane == e.lane && x.ord < e.ord).length

/-- A staging entry (R387). -/
def stagedWords (s : State) (p : Parked) (e : Staged) : List Nat :=
  let site := fun t => (Tab.find s.pkg.l2p (coreOf t)).getD 0
  let (spc, addr) := match e.space with
    | .global => (0, e.va)
    | .spad t => if t = p.gid0 then (1, e.va) else (2, site t / 64 * 2 ^ 42 + site t % 64 * 2 ^ 36 + e.va)
    | .const => (1, e.va)
  [e.ty * 2 ^ 56 + spc * 2 ^ 54 + e.op * 2 ^ 48 + addr,
   e.opnd.toNat * 2 ^ 32 + stagedRank p.team.staged e * 2 ^ 9 + e.lane * 2 ^ 4 + e.role]

/-- The team state (R385): header, mask block, staging entries. -/
def teamState (s : State) (p : Parked) (whole : Bool) : List Byte :=
  teamHeader s p whole ++ (upto 64).flatMap (fun r => leBytes 8 (Tab.get 0#64 p.team.mb r).toNat)
    ++ padTo 4096 (wordsLe ((p.team.staged.take 256).flatMap (stagedWords s p)))

/-- The group header. -/
def groupHeader (g : Group) : List Byte :=
  let c := g.csr
  padTo 256 (wordsLe [
    2 ^ 63 + g.trap.inh.toNat * 2 ^ 62 + c.tpend.toNat * 2 ^ 61 + g.depth * 2 ^ 58 + g.role * 2 ^ 54 + g.rejd * 2 ^ 50 + g.valloc * 2 ^ 41
      + g.vcnt * 2 ^ 32 + g.sregs * 2 ^ 25,
    c.fbmiss * 2 ^ 32 + c.fstat.toNat, c.ffirst.toNat, c.gtime, c.gtcmp, c.merrlog0.toNat, c.merrlog1.toNat,
    c.merrcnt * 2 ^ 32 + c.raceuntr, c.waitcyc * 2 ^ 32 + c.barwait, 0, g.trap.recva])

/-- The trap record of a group in its handler, as memory holds it. -/
def recordCopy (s : State) (p : Parked) (g : Group) : List Byte :=
  if g.trap.inh then
    match s.readVirt (coreOf p.gid0) p.team.ctx g.trap.recva 512 with
    | .ok bs => bs
    | .error _ => []
  else []

/-- A group slot: header, lane area, trap record, predicates, uniforms. -/
def slotBytes (s : State) (p : Parked) (g : Group) : List Byte :=
  let st := fun n : Lane =>
    let phw := match n.wait with | .bar _ _ ph _ _ _ => ph.toNat | _ => 0
    let hoff := if n.live then s.hoffOf (coreOf p.gid0) p.team.ctx n.pc.toNat n.clause else 0
    phw * 2 ^ 12 + n.mark.toNat * 2 ^ 11 + n.wait.code * 2 ^ 8 + hoff
  groupHeader g ++ padTo 512 (laneBytesOf g.lanes st) ++ padTo 512 (recordCopy s p g)
    ++ padTo 1024 ((upto 15).flatMap fun n => laneNums.flatMap fun l => leBytes 2 (g.pr n l).toNat)
    ++ (upto 64).flatMap fun n => leBytes 4 (g.ur n).toNat

/-- A tile (R118). -/
def tileBytes (t : Tile) : List Byte :=
  readCells t.elem 0 8192 ++ (upto 128).flatMap (fun k => leBytes 4 (Tab.get 0#32 t.scale k).toNat) ++ padTo 512 (leBytes 8 t.pois)

/-- An accumulator row (R118). -/
def rowImage (r : AccRow) : List Byte := (upto 64).flatMap (fun c => leBytes 4 (nth 0#32 r.e c).toNat) ++ leBytes 4 r.pois.toNat

/-- The bytes of a granule. -/
def granBytes (s : State) (p : Parked) : Gran → List Byte
  | .slot r => slotBytes s p (nth {} p.groups r)
  | .lines r k => (rangeFrom (8 * k) 8).flatMap fun n => laneNums.flatMap fun l => leBytes 4 ((nth {} p.groups r).vr n l).toNat
  | .tile n => tileBytes (Tab.get {} p.team.tiles n)
  | .acc n => (rangeFrom (16 * n) 16).flatMap fun r => rowImage (Tab.get {} p.team.acc r)
  | .spad n => readCells p.team.spad (128 * n) 128
  | .kst => readCells (p.kst.getD []) 0 65536

/-- Granules of a stopped team are written to its image and marked saved; the team state goes with the first (R385). (DEDUCED, log entry 53) -/
def State.saveGrans (s : State) (p : Parked) (gs : List Gran) : State × Parked :=
  let new := gs.filter fun g => !p.saved.contains g
  if new.isEmpty then (s, p)
  else
    let q := { p with saved := p.saved ++ new, header := true }
    let whole := q.all.all q.saved.contains
    let s := if p.header then s.writeUnit p.key p.image ((teamHeader s q whole).take 16)
      else s.writeUnit p.key p.image (teamState s q whole)
    let x := shapeOf p.team p.groups
    (new.foldl (fun s g => s.writeUnit p.key (p.image + (x.place g).1) (granBytes s p g)) s, q)

/-! ### Claims (R385) -/

/-- Two ranges of units meet. -/
def unitsMeet (a b : Nat × Nat) : Bool := a.2 != 0 && b.2 != 0 && a.1 < b.1 + b.2 && b.1 < a.1 + a.2

/-- The lines of each role from `r` on, from line `a` upward by their allocations: a role that has ended leaves a gap of the lines that it has
returned (R290, R128). -/
def Team.rolesFrom (t : Team) : Nat → Nat → List Nat → List (Nat × Nat)
  | _, _, [] => []
  | r, a, v :: vs => (a, v) :: t.rolesFrom (r + 1) (a + v + Tab.get 0 t.gone r) vs

/-- The lines of each role. -/
def Team.roleLines (t : Team) (alloc : List Nat) : List (Nat × Nat) := t.rolesFrom 0 t.place.lines.1 alloc

/-- The first line of a role. -/
def roleLine (t : Team) (gs : List Group) (r : Nat) : Nat := (nth (0, 0) (t.roleLines (gs.map (·.valloc))) r).1

/-- A granule of a stopped team lies in storage that an incoming team is given. -/
def Parked.claimed (p : Parked) (y : Place) (kst : Bool) : Gran → Bool
  | .slot r => unitsMeet (p.gid0 % 16 + r, 1) y.slots
  | .lines r k => unitsMeet (roleLine p.team p.groups r + 8 * k, 8) y.lines
  | .tile n => unitsMeet (p.team.place.tiles.1 + n, 1) y.tiles
  | .acc n => unitsMeet (p.team.place.acc.1 + n, 1) y.acc
  | .spad n => unitsMeet (2 * p.team.place.spad.1 + n, 1) (2 * y.spad.1, 2 * y.spad.2)
  | .kst => kst

/-- The constant store of a launch goes with the team of it that stopped last on the core. -/
def giveKst (kst : List Host.Cell) (launch core : Nat) : List Parked → List Parked × Bool
  | [] => ([], false)
  | p :: ps =>
      let r := giveKst kst launch core ps
      if !r.2 && coreOf p.gid0 == core && p.team.launch == launch then ({ p with kst := some kst } :: r.1, true) else (p :: r.1, r.2)

/-- Storage of a core is claimed for an incoming team, with the constant store where its launch is a new one there (R199, R385). -/
def State.claim (s : State) (core : Nat) (y : Place) (launch : Nat) : State :=
  let c := s.core core
  let fresh := c.owner != some launch
  let parked := if fresh then (giveKst c.kst (c.owner.getD 0) core s.parked).1 else s.parked
  let r := parked.foldl (fun (a : State × List Parked) p =>
    if coreOf p.gid0 = core then
      let b := a.1.saveGrans p (p.all.filter (p.claimed y fresh))
      (b.1, a.2 ++ [b.2])
    else (a.1, a.2 ++ [p])) (s, [])
  { r.1 with parked := r.2 }

/-! ### Reading -/

/-- A team and its groups as they are read back. -/
abbrev Loaded := Team × List Group

/-- A group with a granule's slot read back; its lanes follow once the team is in place. (DEDUCED, log entry 45) -/
def slotFrom (g : Group) (bs : List Byte) : Group :=
  let w := wordLe bs
  let u := fun o n => BitVec.ofNat 32 (leVal ((bs.drop (o + 4 * n)).take 4))
  { g with
    bound := true, role := bits (w 0) 57 54, depth := bits (w 0) 60 58, rejd := bits (w 0) 53 50, valloc := bits (w 0) 49 41
    vcnt := bits (w 0) 40 32, sregs := bits (w 0) 31 25
    csr := {
      fstat := BitVec.ofNat 32 (w 1), fbmiss := w 1 / 2 ^ 32, ffirst := BitVec.ofNat 64 (w 2), gtime := w 3, gtcmp := w 4
      tpend := bit (w 0) 61, merrlog0 := BitVec.ofNat 64 (w 5), merrlog1 := BitVec.ofNat 64 (w 6), merrcnt := w 7 / 2 ^ 32
      raceuntr := w 7 % 2 ^ 32, waitcyc := w 8 / 2 ^ 32, barwait := w 8 % 2 ^ 32 }
    trap := { g.trap with
      inh := bit (w 0) 62, recva := w 10, planes := if bit (w 0) 62 then BitVec.ofNat 32 (wordLe (bs.drop 0x300) 5) else 0#32
      atEntry := if bit (w 0) 62 then mkMask fun l => wordLe (bs.drop 0x340) l != 2 ^ 64 - 1 else 0#32 }
    p := (upto 15).foldl (fun t n => Tab.set t n (mkLanes fun l =>
      BitVec.ofNat 16 (leVal ((bs.drop (0x500 + 64 * n + 2 * l)).take 2)))) []
    s := (upto 64).foldl (fun t n => if u 0x900 n = 0#32 then t else Tab.set t n (u 0x900 n)) [] }

/-- One granule read back into a team. (DEDUCED, log entry 53) -/
def loadGran (x : Loaded) (kst : List Host.Cell) (g : Gran) (bs : List Byte) : Loaded × List Host.Cell :=
  let word := fun o => BitVec.ofNat 32 (leVal ((bs.drop o).take 4))
  match g with
  | .slot r => ((x.1, setNth (slotFrom (nth {} x.2 r) bs) x.2 r), kst)
  | .lines r k =>
      let old := nth {} x.2 r
      let new := (upto 8).foldl (fun y n => { y with
        v := Tab.set y.v (8 * k + n) (mkLanes fun l => word (128 * n + 4 * l)) }) old
      ((x.1, setNth new x.2 r), kst)
  | .tile n =>
      let t : Tile := {
        elem := cellsFrom 0 (bs.take 8192)
        scale := (upto 128).foldl (fun m k => if word (8192 + 4 * k) = 0#32 then m else Tab.set m k (word (8192 + 4 * k))) []
        pois := leVal ((bs.drop 8704).take 8) }
      (({ x.1 with tiles := Tab.set x.1.tiles n t }, x.2), kst)
  | .acc n =>
      let row := fun r => ({ e := (upto 64).map fun c => word (260 * r + 4 * c), pois := (word (260 * r + 256)).getLsbD 0 } : AccRow)
      (({ x.1 with acc := (upto 16).foldl (fun m r => Tab.set m (16 * n + r) (row r)) x.1.acc }, x.2), kst)
  | .spad n => (({ x.1 with spad := writeCells x.1.spad (128 * n) bs }, x.2), kst)
  | .kst => (x, cellsFrom 0 bs)

/-- The granules named are read back from an image. -/
def State.loadGrans (s : State) (image key : Nat) (sh : Shape) (x : Loaded × List Host.Cell) (gs : List Gran) : Loaded × List Host.Cell :=
  gs.foldl (fun y g => loadGran y.1 y.2 g (s.bytesAs key (image + (sh.place g).1) (sh.place g).2)) x

end Sys2Proof.Machine
end

