-- ==== Sys2Proof/Machine/Points.lean ====
section
/-!
DEFINITION. The space of a frontier launch (R304, R305), its descriptor (R306, R307), row words (R308, R309), the firing rule (R310) and parts
with their halos (R316).
-/

namespace Sys2Proof.Machine

open Sys2Proof

/-- The iteration space of a launch: axes, extents, and the magnitudes of its dependence vectors. -/
structure Sweep where
  dims : Nat
  e0   : Nat
  e1   : Nat
  e2   : Nat
  deps : List (Nat × Nat × Nat)
  deriving DecidableEq, Repr

/-- A dependence vector. -/
def depOf (w : Nat) : Nat × Nat × Nat := (bits w 3 0, bits w 7 4, bits w 11 8)

/-- The space that descriptor words w1 and w2 give. -/
def sweepOf (w1 w2 : Nat) : Sweep :=
  { dims := bits w1 37 36, e0 := bits w1 11 0 + 1, e1 := bits w1 23 12 + 1, e2 := bits w1 35 24 + 1
    deps := (upto (Nat.min (bits w1 40 38) 4)).map fun n => depOf (w2 / 2 ^ (12 * n)) }

/-- The space of a slot. -/
def Front.sweep (x : Front) : Sweep := sweepOf (nth 0#64 x.words 1).toNat (nth 0#64 x.words 2).toNat

/-- The innermost extent. -/
def Sweep.inner (v : Sweep) : Nat := if v.dims = 1 then v.e0 else if v.dims = 2 then v.e1 else v.e2
/-- The number of rows. -/
def Sweep.nrows (v : Sweep) : Nat := if v.dims = 1 then 1 else if v.dims = 2 then v.e0 else v.e0 * v.e1

/-- Coordinates of the point of a linear index (R311). -/
def Sweep.coords (v : Sweep) (lin : Nat) : Nat × Nat × Nat :=
  let r := lin / v.inner
  let p := lin % v.inner
  if v.dims = 1 then (p, 0, 0) else if v.dims = 2 then (r, p, 0) else (r / v.e1, r % v.e1, p)

/-- Row and position of the point `d` before one, `none` outside the space (R310). -/
def Sweep.before (v : Sweep) (row pos : Nat) (d : Nat × Nat × Nat) : Option (Nat × Nat) :=
  if v.dims = 1 then (if d.1 ≤ pos then some (0, pos - d.1) else none)
  else if v.dims = 2 then (if d.1 ≤ row && d.2.1 ≤ pos then some (row - d.1, pos - d.2.1) else none)
  else if d.1 ≤ row / v.e1 && d.2.1 ≤ row % v.e1 && d.2.2 ≤ pos then
    some ((row / v.e1 - d.1) * v.e1 + (row % v.e1 - d.2.1), pos - d.2.2)
  else none

/-! ### Descriptor checks (R307) -/

/-- A vector of a launch: not all zero, and zero on axes that the launch does not have. -/
def depGood (dims : Nat) (d : Nat × Nat × Nat) : Bool :=
  d != (0, 0, 0) && (2 ≤ dims || d.2.1 == 0) && (3 ≤ dims || d.2.2 == 0)

/-- Extents within R304. -/
def Sweep.sized (v : Sweep) : Bool :=
  if v.dims = 3 then v.e0 ≤ 256 && v.e0 * v.e1 ≤ 16384 else true

/-- The descriptor of eight words passes R307, but for the entry descriptor's test. -/
def frontWordsGood (w : List Nat) : Bool :=
  let w1 := nth 0 w 1
  let w2 := nth 0 w 2
  let n := bits w1 40 38
  let v := sweepOf w1 w2
  bits (nth 0 w 0) 63 48 == 0 && bits w1 63 41 == 0 && bits w2 63 48 == 0 && bits (nth 0 w 5) 63 32 == 0 && nth 0 w 6 == 0
    && nth 0 w 7 == 0 && 1 ≤ v.dims && n ≤ 4 && (v.dims == 3 || bits w1 35 24 == 0) && (v.dims != 1 || bits w1 23 12 == 0)
    && v.sized && bits w2 47 0 < 2 ^ (12 * n) && v.deps.all (depGood v.dims)

/-! ### Row words (R308, R309) -/

def rowCount (w : Word) : Nat := bits w.toNat 15 0
def rowLook (w : Word) : Nat := bits w.toNat 31 16
def rowWord (count look : Nat) : Word := BitVec.ofNat 32 (look * 65536 + count)

/-- The point at a position of a row is complete. -/
def pointDone (w : Word) (x : Nat) : Bool := x < rowCount w || (rowCount w < x && x ≤ rowCount w + 16 && bit (rowLook w) (x - rowCount w - 1))

/-- Leading completions move from the vector into the count. -/
def rowShift : Nat → Nat → Nat → Word
  | 0, c, w => rowWord c (w / 2)
  | n + 1, c, w => if w % 2 = 1 then rowShift n (c + 1) (w / 2) else rowWord c (w / 2)

/-- A row word after the completion of position `x`. -/
def rowRecord (w : Word) (x : Nat) : Word :=
  rowShift 17 (rowCount w) (Nat.lor (2 * rowLook w) (2 ^ (x - rowCount w)))

/-! ### Parts (R316) -/

/-- A row is one of a part. -/
def Front.owns (x : Front) (row : Nat) : Bool := x.rfirst ≤ row && row ≤ x.rlast

/-- The rows that hold predecessors of points of a row. -/
def Sweep.rowsBefore (v : Sweep) (row : Nat) : List Nat := v.deps.filterMap fun d => (v.before row (v.inner - 1) d).map (·.1)

/-- The rows outside a part that hold a predecessor of one of its points. -/
def Sweep.halo (v : Sweep) (a b : Nat) : List Nat :=
  sortNums (((rangeFrom a (b + 1 - a)).flatMap v.rowsBefore).filter fun r => r < a || b < r)

/-- A part with its halo fits a slot. -/
def Sweep.partFits (v : Sweep) (a b : Nat) : Bool := a ≤ b && b < v.nrows && (b + 1 - a) + (v.halo a b).length ≤ 4096

/-- The word of a row as a slot sees it: its own, or the mirror. -/
def Front.word (x : Front) (row : Nat) : Word := if x.owns row then Tab.get 0#32 x.rows row else Tab.get 0#32 x.mirror row

/-- Every row of the part is complete. -/
def Front.rowsDone (x : Front) : Bool :=
  (rangeFrom x.rfirst (x.rlast + 1 - x.rfirst)).all fun r => rowCount (Tab.get 0#32 x.rows r) == x.sweep.inner

/-! ### Firing (R310, R311) -/

/-- A point is ready. -/
def Front.pointReady (x : Front) (row pos : Nat) : Bool :=
  let v := x.sweep
  !x.pts.any (·.lin == row * v.inner + pos) && !pointDone (x.word row) pos && pos ≤ rowCount (x.word row) + 16
    && v.deps.all fun d => match v.before row pos d with
        | some q => pointDone (x.word q.1) q.2
        | none => true

/-- The first ready position of a row. -/
def Front.readyIn (x : Front) (row : Nat) : Option Nat :=
  let c := rowCount (x.word row)
  (rangeFrom c (Nat.min 17 (x.sweep.inner - c))).find? (x.pointReady row)

/-- The lowest ready point of a slot, as a linear index. -/
def Front.nextPoint (x : Front) : Option Nat :=
  (rangeFrom x.rfirst (x.rlast + 1 - x.rfirst)).findSome? fun r => (x.readyIn r).map fun p => r * x.sweep.inner + p

end Sys2Proof.Machine
end

