-- ==== Sys2Proof/Machine/Binding.lean ====
section
/-!
DEFINITION. Binding work to cores: entry descriptors (R33), bind records and their checks (R289 to R292, R392), pools and tasks (R34, R45,
R267, R268), the ends of groups and teams (R35, R290), the ticket (R254, R257), and the end of a context.
-/

namespace Sys2Proof.Machine

open Sys2Proof

/-! ### Entry descriptors (R33) -/

/-- A descriptor from its four words; `none` where it is refused. -/
def parseDesc (w0 w1 w2 w3 : Nat) : Option EntryDesc :=
  let d : EntryDesc := {
    vregs := bits w0 8 0, sregs := bits w0 22 16, tiles := bits w0 27 24, accg := bits w0 33 29, team := bits w0 37 34
    cvr := bits w0 41 38, rejd := bits w0 45 42, spad := bits w0 55 46, barw := bits w1 7 0 }
  let z := bits w0 63 56 == 0 && bits w0 28 28 == 0 && bits w0 23 23 == 0 && bits w0 15 9 == 0 && bits w1 63 8 == 0 && w2 == 0 && w3 == 0
  if z && 1 ≤ d.vregs && d.vregs ≤ 256 && d.sregs ≤ 64 && d.tiles ≤ 8 && d.accg ≤ 16 && d.cvr ≤ 8 && 1 ≤ d.rejd && d.rejd ≤ 8
      && d.spad ≤ 768 then some d else none

/-- The descriptor before an entry PC, read for a context: the fault of the read, or the descriptor, `none` where it is refused. -/
def State.readDesc (s : State) (core ctx pc : Nat) : Except Nat (Option EntryDesc) :=
  if pc % 32 ≠ 0 then .ok none
  else match s.readVirt core ctx (wrap ((pc : Int) - 32) 48) 32 with
    | .error c => .error c
    | .ok bs => .ok (parseDesc (wordLe bs 0) (wordLe bs 1) (wordLe bs 2) (wordLe bs 3))

/-! ### Bind records (R289) -/

/-- Word `n` of a record. -/
def Bind.word (b : Bind) (n : Nat) : Nat := (nth 0#64 b.w n).toNat

def Bind.v (b : Bind) : Bool := bit (b.word 0) 63
def Bind.kind (b : Bind) : Nat := bits (b.word 0) 62 60
def Bind.eclass (b : Bind) : Nat := bits (b.word 0) 59 58
def Bind.ctx (b : Bind) : Nat := bits (b.word 0) 57 52
def Bind.queue (b : Bind) : Nat := bits (b.word 0) 51 48
def Bind.pc (b : Bind) : Nat := bits (b.word 0) 47 0
def Bind.block (b : Bind) : Nat := bits (b.word 1) 63 32
def Bind.node (b : Bind) : Nat := bits (b.word 1) 31 16
def Bind.gcnt (b : Bind) : Nat := bits (b.word 1) 15 12
def Bind.sched (b : Bind) (role : Nat) : Nat := bits (b.word 2) (33 + 2 * role) (32 + 2 * role)
def Bind.key (b : Bind) : Nat := bits (b.word 3) 19 10
def Bind.root (b : Bind) : Nat := bits (b.word 4) 47 17 * 2 ^ 17
def Bind.fid (b : Bind) : Nat := bits (b.word 5) 11 8
def Bind.cause (b : Bind) : Nat := bits (b.word 5) 7 4
def Bind.st (b : Bind) : Nat := bits (b.word 5) 1 0

/-- The storage that record `idx` names. -/
def Bind.place (b : Bind) (idx : Nat) : Place :=
  let w2 := b.word 2
  let w3 := b.word 3
  { slots := (idx % 16, b.gcnt + 1), lines := (bits w2 19 9, bits w2 31 20), cvs := (bits w2 8 4, bits w3 25 20)
    spad := (bits w3 63 54, bits w3 53 44), tiles := (bits w3 43 40, bits w3 39 35), acc := (bits w3 34 31, bits w3 30 26) }

def State.bind (s : State) (idx : Nat) : Bind := Tab.get {} s.binds idx
def State.setBind (s : State) (idx : Nat) (b : Bind) : State := { s with binds := Tab.set s.binds idx b }

/-- ST and CAUSE of a record. -/
def State.bindState (s : State) (idx st cause : Nat) : State :=
  let b := s.bind idx
  s.setBind idx { b with w := setNth (BitVec.ofNat 64 (putBits (putBits (b.word 5) 1 0 st) 7 4 cause)) b.w 5 }

/-- A record is in use: it waits, or it is bound. -/
def Bind.active (b : Bind) : Bool := (b.v && b.st == 0) || b.st == 1

/-- A KIND 0 record that waits. (DEDUCED, log entry 39) -/
def Bind.waiting (b : Bind) : Bool := b.v && b.st == 0 && b.kind == 0

/-- The core and the die of a record. -/
def bindCore (idx : Nat) : Nat := idx / 16
def bindDie (idx : Nat) : Nat := dieOf (bindCore idx)

/-! ### The budget gate (R292) -/

/-- A waiting record that the shut gate of its die holds: of ECLASS 3, or behind one of its context on its core. -/
def State.gateHolds (s : State) (idx : Nat) : Bool :=
  let b := s.bind idx
  (s.die (bindDie idx)).shut && b.waiting
    && s.binds.any fun e => bindCore e.1 == bindCore idx && e.2.ctx == b.ctx && e.2.waiting && e.2.eclass == 3 && e.2.ord ≤ b.ord

/-- HELD of a die. (DEDUCED, log entry 39) -/
def State.gateHeld (s : State) (die : Nat) : Nat :=
  (s.binds.filter fun e => bindDie e.1 == die && s.gateHolds e.1).length

/-! ### Checks (R291, R392) -/

/-- A range that its limit admits. -/
def rangeIn (r : Nat × Nat) (limit : Nat) : Bool := r.1 + r.2 ≤ limit

/-- The Z fields of a record are zero. -/
def Bind.zeros (b : Bind) : Bool :=
  bits (b.word 1) 11 0 == 0 && bits (b.word 2) 3 0 == 0 && bits (b.word 3) 9 0 == 0 && bits (b.word 4) 63 48 == 0
    && bits (b.word 4) 16 0 == 0 && bits (b.word 5) 63 12 == 0 && bits (b.word 5) 3 2 == 0 && b.word 6 == 0 && b.word 7 == 0
    && (b.kind == 0 || (b.pc == 0 && b.block == 0 && bits (b.word 2) 63 32 == 0)) && (b.kind == 2 || b.fid == 0)

/-- Lines that a team needs (R34). -/
def EntryDesc.lines (d : EntryDesc) : Nat := (d.team + 1) * roundUp d.vregs 8

/-- A storage range beyond its limit, or a count below the descriptor's need. -/
def Place.short (p : Place) (d : Option EntryDesc) : Bool :=
  !(rangeIn p.lines 2048 && rangeIn p.cvs 32 && rangeIn p.spad 768 && rangeIn p.tiles 16 && rangeIn p.acc 16)
    || (match d with
        | some d => p.lines.2 < d.lines || p.spad.2 < d.spad || p.tiles.2 < d.tiles || p.acc.2 < d.accg || p.cvs.2 < d.cvr
        | none => false)

/-- The clock mode that records of a die are checked against: that being entered while it changes (R392). -/
def Die.mode (d : Die) : Bool := if d.change.isSome then !d.fixed else d.fixed

/-- A context runs in fixed-timing mode. -/
def Ctx.fixed (c : Ctx) : Bool := bit c.mode 0

/-- Some record of a die is bound. -/
def State.dieBusy (s : State) (die : Nat) : Bool := s.binds.any fun e => bindDie e.1 == die && e.2.st == 1

/-- A core may hold work: it is mapped and not DOWN (R291, R295). -/
def State.coreUp (s : State) (core : Nat) : Bool :=
  match Tab.find s.pkg.l2p core with
  | some p => !s.pkg.down.contains p
  | none => false

/-- The allocations of a team's groups by role. -/
def State.allocsOf (s : State) (t : Nat) : List Nat := (upto ((s.team t).desc.team + 1)).map fun r => (s.grp (t + r)).valloc

/-- The lines of a team: those of its roles, and what is left above them, which its pool holds (R128, R290). -/
def State.teamLines (s : State) (t : Nat) : List (Nat × Nat) :=
  let x := s.team t
  let own := x.roleLines (s.allocsOf t)
  let top := x.place.lines.1 + (s.allocsOf t).foldl (· + ·) 0 + x.gone.foldl (fun n e => n + e.2) 0
  own ++ [(top, x.place.lines.1 + x.place.lines.2 - top)]

/-- Storage of bound teams on a core: a place for each team, and one for each range of its lines. -/
def State.usedOn (s : State) (core : Nat) : List Place :=
  (s.teams.filter fun e => e.2.bound && coreOf e.1 == core).flatMap fun e =>
    { e.2.place with lines := (0, 0) } :: (s.teamLines e.1).map fun r => { lines := r }

/-- Two teams' storage shares a unit. -/
def Place.meets (a b : Place) : Bool :=
  unitsMeet a.slots b.slots || unitsMeet a.lines b.lines || unitsMeet a.cvs b.cvs || unitsMeet a.spad b.spad
    || unitsMeet a.tiles b.tiles || unitsMeet a.acc b.acc

/-- A record is the first of its context on its core that waits, and no gate holds it. -/
def State.bindTurn (s : State) (idx : Nat) : Bool :=
  let b := s.bind idx
  !s.gateHolds idx && !s.binds.any fun e => bindCore e.1 == bindCore idx && e.2.ctx == b.ctx && e.2.waiting && e.2.ord < b.ord

/-- A waiting record of a core that is up is able to bind: a pool always, a KIND 0 record where it is its turn and its storage is free or
evictable (R13, R290, R292). -/
def State.ableToBind (s : State) (idx : Nat) : Bool :=
  let b := s.bind idx
  b.v && b.st == 0 && s.coreUp (bindCore idx)
    && (b.kind != 0 || (s.bindTurn idx && !(s.usedOn (bindCore idx)).any (Place.meets (b.place idx))))

/-- The lowest record of a free die that is able to bind sets its mode: it is a lower one, of the other mode (R392). -/
def State.lowerMode (s : State) (idx : Nat) : Bool :=
  match s.binds.find? fun e => bindDie e.1 == bindDie idx && e.1 < idx && s.ableToBind e.1 with
  | some e => (s.ctx e.2.ctx).fixed != (s.ctx (s.bind idx).ctx).fixed
  | none => false

/-- The clock-mode conflict of a record. (DEDUCED, log entry 39) -/
def State.modeBad (s : State) (idx : Nat) : Bool :=
  let d := s.die (bindDie idx)
  (s.ctx (s.bind idx).ctx).fixed != d.mode && (d.change.isSome || s.dieBusy (bindDie idx) || s.lowerMode idx)

/-- A record starts a change of its die's mode, which takes 50 µs (R392). -/
def State.startMode (s : State) (idx : Nat) : State :=
  s.setDie (bindDie idx) { s.die (bindDie idx) with change := some (idx, s.pkg.wtime + 50000) }

/-- The descriptor of a KIND 0 record; `none` where it is refused or cannot be read. -/
def State.bindDesc (s : State) (idx : Nat) : Option EntryDesc :=
  match s.readDesc (bindCore idx) (s.bind idx).ctx (s.bind idx).pc with
  | .ok d => d
  | .error _ => none

/-- The lowest CAUSE of R291 that a record meets; 0 for none. (DESIGN CHOICE, log entry 38; DEDUCED, log entry 39) -/
def State.bindCause (s : State) (idx : Nat) : Nat :=
  let b := s.bind idx
  let d := if b.kind = 0 then s.bindDesc idx else none
  let p := b.place idx
  if b.key ≠ 0 && (Tab.find s.pkg.keys b.key).isNone then 1
  else if b.kind == 0 && (match d with | some d => d.team != b.gcnt | none => true) then 2
  else if p.short d then 3
  else if !s.coreUp (bindCore idx) || 15 < idx % 16 + b.gcnt then 4
  else if s.binds.any fun e => e.1 != idx && bindCore e.1 == bindCore idx && e.2.active && unitsMeet (e.2.place e.1).slots p.slots then 5
  else if s.modeBad idx then 6
  else if 3 ≤ b.kind || !b.zeros || s.binds.any (fun e => e.1 != idx && e.2.st == 1 && e.2.ctx == b.ctx && (e.2.key != b.key || e.2.root != b.root))
    then 7
  else 0

/-- A record refused: ST 3 with its CAUSE, reported. -/
def State.refuseBind (s : State) (idx cause : Nat) : State := (s.bindState idx 3 cause).report "bind-refused" [idx, cause]

/-- The root of a context is that of its records; so is the key of one that no CREATE has made, whose key does not change (R406).
(DEDUCED, log entry 39) -/
def State.bindCtx (s : State) (idx : Nat) : State :=
  let b := s.bind idx
  let c := s.ctx b.ctx
  s.setCtx b.ctx { c with key := if c.live then c.key else b.key, root := b.root }

/-- A committed record is checked (R291): a pool that passes is bound, a record of the other mode on a free die starts a mode change. -/
def State.bindCheck (s : State) (idx : Nat) : State :=
  let t := s.bindCtx idx
  let b := t.bind idx
  let c := t.bindCause idx
  if c ≠ 0 then s.refuseBind idx c
  else
    let d := t.die (bindDie idx)
    if (t.ctx b.ctx).fixed != d.mode then t.startMode idx
    else if b.kind ≠ 0 && d.change.isNone then t.bindState idx 1 0
    else t

/-- A pool whose record is closed and whose last team has ended has ended itself (R290). -/
def State.closePool (s : State) (idx : Nat) : State :=
  let b := s.bind idx
  if b.kind ≠ 0 && b.st == 1 && !b.v && !s.teams.any (fun e => e.2.bound && !e.2.done && e.2.ridx == idx) then s.bindState idx 2 0 else s

/-- A word of a record as the table holds it: Z fields read as zero whatever was written, and those that only some kinds have are Z in the
others (R6, R7, R289). -/
def bindMask (kind n x : Nat) : Nat :=
  match n with
  | 0 => if kind = 0 then x else x - bits x 47 0
  | 1 => (if kind = 0 then bits x 63 32 * 2 ^ 32 else 0) + bits x 31 12 * 2 ^ 12
  | 2 => (if kind = 0 then bits x 63 32 * 2 ^ 32 else 0) + bits x 31 4 * 2 ^ 4
  | 3 => bits x 63 10 * 2 ^ 10
  | 4 => bits x 47 17 * 2 ^ 17
  | 5 => (if kind = 2 then bits x 11 8 * 2 ^ 8 else 0) + bits x 7 4 * 2 ^ 4 + bits x 1 0
  | _ => 0

/-- A record with its Z fields zero. -/
def Bind.masked (b : Bind) : Bind := { b with w := (upto 8).map fun n => BitVec.ofNat 64 (bindMask b.kind n (b.word n)) }

/-- The commit of record `idx` with its staged words (R289, R290). ST and CAUSE are written by dispatch alone: a commit with V = 0 leaves
them. The checks see the words as they were written. -/
def State.bindCommit (s : State) (w0 : DWord) : State :=
  let idx := s.pkg.bindidx
  let old := s.bind idx
  if 24576 ≤ idx then s
  else if old.st = 1 then
    if old.kind ≠ 0 && !w0.getLsbD 63 then
      (s.setBind idx { old with w := setNth (BitVec.ofNat 64 (old.word 0 % 2 ^ 63)) old.w 0 }).closePool idx
    else s
  else
    let words := w0 :: (rangeFrom 1 7).map fun n => Tab.get (nth 0#64 old.w n) s.pkg.bindSt n
    let b : Bind := { w := words, ord := s.seqno }
    let t := { s.setBind idx b with seqno := s.seqno + 1, pkg := { s.pkg with bindSt := [] } }
    let u := if b.v then (t.bindState idx 0 0).bindCheck idx else t.bindState idx old.st old.cause
    u.setBind idx (u.bind idx).masked

def execBindw0Commit (w0 : DWord) (s : State) : Out := .next (s.bindCommit w0)

/-! ### Launches (R199, R254) -/

/-- The launch of a node of a queue, where there is one. -/
def State.launchOf (s : State) (ctx queue node : Nat) : Option Nat :=
  (s.launches.find? fun e => e.2.ctx == ctx && e.2.queue == queue && e.2.node == node).map (·.1)

/-- The launch of a node, made where there is none (a context that firmware runs without command entries). (DESIGN CHOICE, log entry 42) -/
def State.launchFor (s : State) (ctx queue node : Nat) : Nat × State :=
  match s.launchOf ctx queue node with
  | some k => (k, s)
  | none =>
      let k := s.seqno + 1
      (k, { s with launches := Tab.set s.launches k { ctx := ctx, queue := queue, node := node, det := bit (s.ctx ctx).mode 1, blocks := 0 }
                   seqno := s.seqno + 2 })

/-- One node of a queue rewritten. -/
def State.mapNode (s : State) (c q n : Nat) (f : Node → Node) : State :=
  let x := s.ctx c
  match Tab.find x.queues q with
  | none => s
  | some y => s.setCtx c { x with queues := Tab.set x.queues q { y with nodes := setNth (f (nth {} y.nodes n)) y.nodes n } }

/-- A node of a queue. -/
def State.node (s : State) (c q n : Nat) : Node := nth {} (Tab.get {} (s.ctx c).queues q).nodes n

/-- A launch that no node runs and that nothing belongs to is forgotten. -/
def State.dropIdle (s : State) (k : Nat) : State :=
  match Tab.find s.launches k with
  | none => s
  | some l =>
      let n := s.node l.ctx l.queue l.node
      if (n.st == 1 && n.launch == k) || s.teams.any (fun e => e.2.bound && e.2.launch == k) || s.parked.any (fun p => p.team.launch == k)
          || s.dies.any (fun d => d.tasks.any (·.launch == k) || d.fronts.any fun f => f.st != 0 && f.launch == k)
          || s.binds.any (fun e => e.2.waiting && e.2.ctx == l.ctx && e.2.queue == l.queue && e.2.node == l.node) then s
      else { s with launches := Tab.drop s.launches k }

/-! ### Binding a team (R34, R44, R120, R290) -/

/-- A newly bound group. -/
def newGroup (team role sched age : Nat) (d : EntryDesc) (pc depth : Nat) (args : List Word) : Group :=
  { bound := true, team := team, role := role, sched := sched, age := age, lanes := mkLanes fun _ => { pc := lpcOf pc }
    s := (upto args.length).map fun n => (n, nth 0#32 args n)
    valloc := roundUp d.vregs 8, vcnt := d.vregs, sregs := d.sregs, rejd := d.rejd, depth := depth }

/-- The first team of a launch on a core: constant store and tags begin anew, and the context's instruction lines are dropped (R199,
R349, R78). -/
def State.enterLaunch (s : State) (core ctx launch : Nat) : State :=
  let c := s.core core
  if c.owner = some launch then s
  else s.setCore core { c with kst := [], tags := [], tags0 := [], owner := some launch, ic := c.ic.filter (·.ctx != ctx) }

/-- A team put onto a core with its groups; their ages rise with their roles. (DESIGN CHOICE, log entry 97) -/
def State.placeTeam (s : State) (gid0 : Nat) (x : Team) (gs : List Group) : State :=
  let core := coreOf gid0
  let s := ((s.claim core x.place x.launch).enterLaunch core x.ctx x.launch).setTeam gid0 { x with bound := true }
  let c := s.core core
  let s := s.setCore core { c with ages := c.ages + gs.length }
  (upto gs.length).foldl (fun s r => s.setGrp (gid0 + r) { nth {} gs r with team := gid0, age := c.ages + r }) s

/-- A new team bound at an entry PC. -/
def State.bindTeam (s : State) (gid0 : Nat) (x : Team) (pc depth : Nat) (sched : Nat → Nat) (args : List Word) : State :=
  s.placeTeam gid0 { x with cvs := (upto 8).map fun _ => {} }
    ((upto (x.desc.team + 1)).map fun r => newGroup gid0 r (sched r) 0 x.desc pc depth args)

/-- The constant store of a core is free or evictable for a launch (R199). -/
def State.kstFree (s : State) (core launch : Nat) : Bool :=
  match (s.core core).owner with
  | none => true
  | some k => k == launch || !s.teams.any fun e => e.2.bound && coreOf e.1 == core && e.2.launch == k

/-- The team of a KIND 0 record. -/
def blockTeam (s : State) (idx : Nat) (b : Bind) (d : EntryDesc) (k : Nat) : Team :=
  let l := Tab.get { ctx := 0, queue := 0, node := 0, det := false, blocks := 0 } s.launches k
  { ctx := b.ctx, ridx := idx, block := b.block, queue := b.queue, node := b.node, launch := k, cluster := b.block / (l.h * l.w)
    pos := b.block % (l.h * l.w), desc := d, place := b.place idx }

/-! ### Pools and tasks (R34, R45, R268, R290) -/

/-- The lowest place for `n` units in a window that avoids the units in use. -/
def lowFit (win : Nat × Nat) (n : Nat) (used : List (Nat × Nat)) : Option Nat :=
  if n = 0 then some win.1
  else (sortNums (win.1 :: used.map fun u => u.1 + u.2)).find? fun a =>
    win.1 ≤ a && a + n ≤ win.1 + win.2 && used.all fun u => !unitsMeet (a, n) u

/-- Counts of storage that a team needs (R34). -/
def EntryDesc.need (d : EntryDesc) : Place :=
  { slots := (0, d.team + 1), lines := (0, d.lines), cvs := (0, d.cvr), spad := (0, d.spad), tiles := (0, d.tiles), acc := (0, d.accg) }

/-- The lowest storage in a pool's window that holds a team. (DEDUCED, log entry 87) -/
def State.poolFit (s : State) (idx : Nat) (n : Place) : Option Place :=
  let w := (s.bind idx).place idx
  let u := s.usedOn (bindCore idx)
  match lowFit w.slots n.slots.2 (u.map (·.slots)), lowFit w.lines n.lines.2 (u.map (·.lines)), lowFit w.cvs n.cvs.2 (u.map (·.cvs)),
      lowFit w.spad n.spad.2 (u.map (·.spad)), lowFit w.tiles n.tiles.2 (u.map (·.tiles)), lowFit w.acc n.acc.2 (u.map (·.acc)) with
  | some a, some b, some c, some e, some f, some g =>
      some { slots := (a, n.slots.2), lines := (b, n.lines.2), cvs := (c, n.cvs.2), spad := (e, n.spad.2), tiles := (f, n.tiles.2)
             acc := (g, n.acc.2) }
  | _, _, _, _, _, _ => none

/-- The instance of a launch's text for a task or point on a core (R71): `none` where the text has no cluster-relative field. -/
def Launch.instFor (l : Launch) (site : Nat) : Option Placed := l.insts.find? fun x => x.sites == [site]

/-- A launch's text has cluster-relative fields, so that each cluster of it runs in an instance of its own (R71). -/
def Launch.relative (l : Launch) : Bool := l.text.any fun t => t.recs.any (·.kind == 1)

/-- A task or point of a launch may run on a core: firmware has made the instance for its site, where it takes one (R71). (DEDUCED, log entry 62) -/
def State.placedOn (s : State) (launch core : Nat) : Bool :=
  match Tab.find s.launches launch with
  | some l => !l.relative || (l.instFor ((Tab.find s.pkg.l2p core).getD 0)).isSome
  | none => true

/-- The PC at which a task or point of a launch starts on a core: an entry of the loaded text stands for the same place in the instance of its
site (R71). (DEDUCED, log entry 62) -/
def State.entryOn (s : State) (launch core pc : Nat) : Nat :=
  match Tab.find s.launches launch with
  | some l => match l.text, l.instFor ((Tab.find s.pkg.l2p core).getD 0) with
    | some t, some x => if l.relative && t.base ≤ pc && pc < t.base + t.size then x.base + (pc - t.base) else pc
    | _, _ => pc
  | none => pc

/-- The lowest open pool of a die that can hold a team, with the place there. (DEDUCED, log entry 87) -/
def State.poolFor (s : State) (die kind ctx fid launch : Nat) (d : EntryDesc) : Option (Nat × Place) :=
  (s.binds.filter fun e => bindDie e.1 == die && e.2.v && e.2.st == 1 && e.2.kind == kind && e.2.ctx == ctx
      && (kind != 2 || e.2.fid == fid) && !((s.die die).shut && e.2.eclass == 3) && s.kstFree (bindCore e.1) launch
      && s.coreUp (bindCore e.1) && s.placedOn launch (bindCore e.1)).findSome? fun e => (s.poolFit e.1 d.need).map fun p => (e.1, p)

/-- A team bound into a pool; its scheduler is the slot modulo 4, and it is a cluster of its own. (DEDUCED, log entry 87) -/
def State.bindPool (s : State) (idx : Nat) (x : Team) (p : Place) (pc depth : Nat) (args : List Word) : State :=
  let gid := 16 * bindCore idx + p.slots.1
  { s with seqno := s.seqno + 1 }.bindTeam gid { x with ridx := idx, place := p, cluster := 2 ^ 32 + s.seqno } pc depth (fun r => (p.slots.1 + r) % 4) args

/-! ### The ends of groups and teams (R35, R290) -/

/-- Every granule of a team leaves the core: the team, its groups and what they had on the core. -/
def State.dropTeam (s : State) (t : Nat) : State :=
  let mine := fun g => (s.grp g).team == t && t ≤ g && g < t + 16
  { s with teams := Tab.drop s.teams t, groups := s.groups.filter fun e => !mine e.1 }

/-- The launch after one of its blocks has ended: what the ticket still holds of the block stays with it (R254); its groups have closed their
lines (R250). -/
def State.blockEnded (s : State) (t : Nat) : State :=
  let x := s.team t
  match Tab.find s.launches x.launch with
  | none => s
  | some l =>
      let s := { s with launches := Tab.set s.launches x.launch { l with
        ended := l.ended ++ [x.block], staged := l.staged ++ x.handed.map (fun e => { e with rel := false }), heldOf := l.heldOf ++ x.held.map fun e => (x.block, e) } }
      if (s.node x.ctx x.queue x.node).launch == x.launch then s.mapNode x.ctx x.queue x.node fun n => { n with left := n.left - 1 } else s

/-- A slot whose points or rows have changed: a stopping one becomes quiescent once every point left in it has been saved, and a
running or quiescent one complete once its rows are and no point is in flight (R318, R320). -/
def Front.settled (x : Front) : Front :=
  let y := if x.st = 2 && x.pts.all (·.saved) then { x with st := 3 } else x
  if (y.st == 1 || y.st == 3) && y.pts.isEmpty && y.rowsDone then { y with st := 4 } else y

/-- A slot of a die. -/
def State.front (s : State) (die fid : Nat) : Front := nth {} (s.die die).fronts fid

/-- A slot replaced and settled; the node learns of rows that are complete (R312). -/
def State.setFront (s : State) (die fid : Nat) (x : Front) : State :=
  let y := x.settled
  let s := s.setDie die { s.die die with fronts := setNth y (s.die die).fronts fid }
  if y.st = 4 && x.st ≠ 4 && (s.node y.ctx y.queue y.node).launch == y.launch then
    s.mapNode y.ctx y.queue y.node fun n => { n with left := n.left - (y.rlast + 1 - y.rfirst) }
  else s

/-- A point of a frontier slot rewritten. -/
def State.mapPoint (s : State) (die fid lin : Nat) (f : Point → Point) : State :=
  let x := s.front die fid
  s.setFront die fid { x with pts := x.pts.map fun p => if p.lin = lin then f p else p }

/-- What a team that ends has queued is performed or held and what it has handed over is applied, each after what it waits for, and then its groups'
lines close (R222, R227, R250). -/
def State.finishWork (s : State) (t : Nat) : State :=
  let s := s.drainTeam t
  let ready := sortStaged ((s.team t).handed.filter fun e => s.canApply e t)
  let s := ((s.takeHanded [t] ready).applyAll ready).drainLate t
  (rangeFrom t ((s.team t).desc.team + 1)).foldl (fun u g => if (u.grp g).team == t then u.closeFilter g else u) s

/-- A team ends: its work is finished, and its launch and its record or pool learn of it (R35, R254, R268, R290, R314). -/
def State.teamOver (s : State) (t : Nat) : State :=
  let x := s.team t
  let u := s.finishWork t
  let u := if x.work = .block then u.blockEnded t else u
  let u := u.setTeam t { u.team t with done := true, held := [], handed := [], stop := none }
  match x.work with
  | .block => (u.bindState x.ridx 2 0).settleTicket x.launch
  | .task p | .point p _ _ _ => u.closePool p

/-- The storage of a team that has ended is released (R35); a point of it has no engine work any more (R312). -/
def State.freeTeam (s : State) (t : Nat) : State :=
  let x := s.team t
  match x.work with
  | .point _ die fid lin => (s.dropTeam t).mapPoint die fid lin fun y => { y with team := none, ended := true }
  | _ => (s.dropTeam t).dropIdle x.launch

/-- The end of a team with the release of its storage. -/
def State.endTeam (s : State) (t : Nat) : State := (if (s.team t).done then s else s.teamOver t).freeTeam t

/-- Engine work of a team: operations in its order, programs that run, copies and jobs. (DEDUCED, log entry 40) -/
def State.teamBusy (s : State) (t : Nat) : Bool :=
  !(s.team t).order.isEmpty || s.groups.any (fun e => e.2.team == t && e.2.seqs.any (·.st == 1))
    || (s.core (coreOf t)).copies.any (·.team == t) || s.jobs.any (fun e => e.2.team == t)

/-- The lines of a group that has ended return to dispatch (R128). -/
def Team.freeLines (x : Team) (role n : Nat) : Team := { x with gone := Tab.set x.gone role (n + Tab.get 0 x.gone role) }

/-- GROUP_END (R35): the end of a group, and with the last one that of its team. Once every lane of the team has exited, its staged entries
are handed over first (R227). The storage of a team whose programs, copies or jobs still use it is released by a further GROUP_END. (DEDUCED, log
entry 40) -/
def execGroupEnd (gid : Nat) (s : State) : Out :=
  let g := s.grp gid
  let t := g.team
  let peers := s.groups.filter fun e => e.2.bound && e.2.team == t
  if !g.bound || g.lanes.any Lane.live then .next s
  else if peers.all (fun e => !e.2.lanes.any Lane.live) && !(s.team t).staged.isEmpty then .next ((s.flushStaged t).armTicket t)
  else if !g.flagsClear then .next s
  else
    let u := (s.drainGroup gid).closeFilter gid
    if peers.any (·.1 != gid) then .next ((u.setTeam t ((u.team t).freeLines g.role g.valloc)).setGrp gid { u.grp gid with bound := false, valloc := 0 })
    else if s.teamBusy t then .next (if (s.team t).done then s else u.teamOver t)
    else .next (u.endTeam t)

/-! ### The ticket (R254, R257) -/

/-- The held stores of block `b` of a launch are performed with their lines closed: of the team that runs it, or of one that has ended, with its
staged entries before the stores that wait for them (R254, R222). (DEDUCED, log entry 43) -/
def State.giveTicket (s : State) (k b : Nat) (l : Launch) : State :=
  let key := (s.ctx l.ctx).key
  match s.teams.find? fun e => e.2.bound && !e.2.done && e.2.launch == k && e.2.work == .block && e.2.block == b with
  | some e =>
      (e.2.held.foldl (fun s h => s.writeStore key false h) (s.setTeam e.1 { e.2 with held := [] })).applyAll
        (sortStaged (l.staged.filter (·.block == b)))
  | none =>
      let of := fun late : Bool => (l.heldOf.filter fun h => h.1 == b && h.2.late == late).map (·.2)
      let s := ((of false).foldl (fun s h => s.writeStore key false h) s).applyAll (sortStaged (l.staged.filter (·.block == b)))
      (of true).foldl (fun s h => s.writeStore key false h) s

/-- The ticket watchdog of a launch starts anew where work is held, and stops where none is (R257). (DEDUCED, log entry 43) -/
def State.restartTicket (s : State) (k : Nat) : State :=
  match Tab.find s.launches k with
  | some l => { s with launches := Tab.set s.launches k { l with
      wdog := if l.det && s.ticketWork k then some (s.pkg.wtime + s.pkg.twdog * 1000000) else none } }
  | none => s

/-- TICKET_PASS (R254). (DEDUCED, log entry 43) -/
def execTicketPass (launch : Nat) (s : State) : Out :=
  match Tab.find s.launches launch with
  | none => .next s
  | some l =>
      if !l.det || !l.ended.contains l.holder then .next s
      else
        let b := l.holder + 1
        let m := { l with holder := b, ended := l.ended.filter (· != l.holder), heldOf := l.heldOf.filter (·.1 != b)
                          staged := l.staged.filter (·.block != b) }
        let t := { s with launches := Tab.set s.launches launch m }
        .next (((t.giveTicket launch b l).restartTicket launch).dropIdle launch)

/-- A group that waits at `bar` with every eligible lane gone takes the ticket-stall fault there (R257). -/
def State.stallGroup (s : State) (gid : Nat) : State :=
  let g := s.grp gid
  let waiters := g.lanes.filter fun n => n.live && (match n.wait with | .bar _ _ _ _ _ _ => true | _ => false)
  if g.lanes.any Lane.ready || waiters.isEmpty then s.setGrp gid { g with trap := { g.trap with stall := true } }
  else
    let pc := least (waiters.map (·.pc.toNat))
    let m := mkMask fun l => (g.lane l).live && (g.lane l).pc == lpcOf pc
    raise s gid { code := 0x25, pc := pc, planes := m, lane := lowLane m }

/-- TICKET_WATCHDOG_EXPIRY (R257): the fault falls due in every group of the holder; the watchdog stands until the ticket passes or
firmware restarts it. (DEDUCED, log entry 43) -/
def execTicketWatchdogExpiry (launch : Nat) (s : State) : Out :=
  match Tab.find s.launches launch with
  | none => .next s
  | some l =>
      match l.wdog with
      | none => .next s
      | some due =>
          if !s.ticketWork launch then .next (s.settleTicket launch)
          else if s.pkg.wtime < due then .next s
          else
            let gs := (s.groups.filter fun e => e.2.bound && (s.team e.2.team).launch == launch && (s.team e.2.team).work == .block
              && (s.team e.2.team).block == l.holder).map (·.1)
            let t := { s with launches := Tab.set s.launches launch { l with wdog := some (2 ^ 64) } }
            .next (gs.foldl State.stallGroup t)

/-! ### `spawn` and `post` (R46, R266, R267) -/

/-- The entry PC of `spawn`. -/
def spawnPc (f : Fields) (v : View) : Nat := v.pairU f.a.toNat

/-- The tests of `spawn`. -/
def spawnTests (f : Fields) (s : State) (v : View) (l : Nat) : Check :=
  let pc := spawnPc f v
  let va := wrap ((pc : Int) - 32) 48
  let point := match (s.team v.g.team).work with | .point _ _ _ _ => true | _ => false
  if v.g.depth = 4 then .trap (s.laneTrap 0x08 l 0) none
  else if pc % 32 ≠ 0 then .trap (s.laneTrap 0x09 l 0) none
  else match (s.xlate v.gid va .read) with
    | .miss => .miss (va / 65536) .read
    | .fault c => .trap (s.laneTrap c l va) none
    | .tier _ => .trap (s.laneTrap fTier l va) none
    | .hit pa =>
        let w := fun k => leVal (s.bytesAs (s.keyOf v.gid) (pa + 8 * k) 8)
        match parseDesc (w 0) (w 1) (w 2) (w 3) with
        | none => .trap (s.laneTrap 0x09 l 0) none
        | some d => if point && d.team ≠ 0 then .trap (s.laneTrap 0x09 l 0) none else .ok

def execSpawn (f : Fields) (s : State) : Out :=
  issuedChk (.spawn f) f s (spawnTests f s) fun v =>
    if !v.any then s.retire
    else
      let s := s.closeFilter v.gid
      let x := s.team v.g.team
      let die := dieOf (coreOf v.gid)
      let t : Task := { ctx := x.ctx, queue := x.queue, node := x.node, launch := x.launch, pc := spawnPc f v
                        args := (upto 8).map fun n => v.w.ur (f.b.toNat + n), depth := v.g.depth + 1 }
      (s.setDie die { s.die die with tasks := (s.die die).tasks ++ [t] }).retire

/-- A posted value combined into a result word (R262, R266). -/
def combine (rcomb : Nat) (r v : Word) : Word :=
  match rcomb with
  | 1 => if r.toNat < v.toNat then v else r
  | 2 => if v.toNat < r.toNat then v else r
  | 3 => r ||| v
  | 4 => r &&& v
  | 5 => r + v
  | _ => v

/-- RCOMB of a node. -/
def Node.rcomb (n : Node) : Nat := bits (nth 0#64 n.words 0).toNat 7 4

def execPost (f : Fields) (s : State) : Out :=
  issued (.post f) f s fun v =>
    let x := s.team v.g.team
    let val := if f.len = .l64 then v.w.ur f.a.toNat else f.imm
    (if v.any then s.mapNode x.ctx x.queue x.node fun n => { n with r := combine n.rcomb n.r val } else s).retire

/-! ### The end of a context -/

/-- The groups of a context. -/
def State.groupsOf (s : State) (ctx : Nat) : List Nat := (s.groups.filter fun e => (s.team e.2.team).ctx == ctx).map (·.1)

/-- An entry has completed and takes the next sequence number (R260). (DEDUCED, log entry 56) -/
def Queue.finish (q : Queue) : Queue := { q with done := true, seq := (q.seq + 1) % 2 ^ 64 }

/-- A node that ran has ended. -/
def Node.ended (n : Node) : Node := if n.st = 1 then { n with st := 2 } else n

/-- The running entry of a context that ends fails with STATUS 0x08, unless it has failed already (R261). -/
def Queue.abort (q : Queue) : Queue :=
  if q.cmd = 0 || q.done then q
  else ({ q with fail := some (q.fail.getD (8, 0)), backs := [], nodes := q.nodes.map Node.ended } : Queue).finish

/-- Firmware ends a context: its teams leave their cores, its records end with CAUSE 9, its running entries fail, and its tasks, points,
jobs and copies are no more (R290, R261). -/
def State.terminate (s : State) (ctx : Nat) : State :=
  let gs := s.groupsOf ctx
  let keep := fun g => !gs.contains g
  let x := s.ctx ctx
  let ended := fun b : Bind => if b.active && b.ctx == ctx then
    { b with w := setNth (BitVec.ofNat 64 (putBits (putBits (b.word 5) 1 0 2) 7 4 9)) b.w 5 } else b
  { s with
    groups := s.groups.filter fun e => keep e.1
    teams := s.teams.filter fun e => e.2.ctx != ctx
    parked := s.parked.filter fun p => p.team.ctx != ctx
    binds := s.binds.map fun e => (e.1, ended e.2)
    launches := s.launches.filter fun e => e.2.ctx != ctx
    jobs := s.jobs.filter fun e => e.2.ctx != ctx
    feet := s.feet.filter fun k => k.ctx != ctx
    cores := s.cores.map fun e => (e.1, { e.2 with
      sq := e.2.sq.filter fun q => keep q.gid, copies := e.2.copies.filter fun c => keep c.gid
      icMiss := e.2.icMiss.filter fun m => m.1 != ctx })
    dies := s.dies.map fun d => { d with
      tasks := d.tasks.filter fun t => t.ctx != ctx, walks := d.walks.filter fun w => w.ctx != ctx
      fronts := d.fronts.map fun f => if f.st != 0 && f.ctx == ctx then {} else f }
    ctxs := Tab.set s.ctxs ctx { x with queues := x.queues.map fun e => (e.1, e.2.abort), pending := none } }

/-- Firmware ends a context for a reason that it is told of. -/
def State.terminateFor (s : State) (ctx : Nat) (why : String) (args : List Nat) : State := (s.terminate ctx).report why (ctx :: args)

end Sys2Proof.Machine
end

