-- ==== Sys2Proof/Machine/Sha.lean ====
section
/-!
DEFINITION. SHA-256 (FIPS 180-4), which the hashes of R295, R298, R399 and R402 name.
-/

namespace Sys2Proof.Machine

open Sys2Proof

/-- The round constants. -/
def shaK : List Word :=
  [0x428a2f98#32, 0x71374491#32, 0xb5c0fbcf#32, 0xe9b5dba5#32, 0x3956c25b#32, 0x59f111f1#32, 0x923f82a4#32, 0xab1c5ed5#32]
  ++ [0xd807aa98#32, 0x12835b01#32, 0x243185be#32, 0x550c7dc3#32, 0x72be5d74#32, 0x80deb1fe#32, 0x9bdc06a7#32, 0xc19bf174#32]
  ++ [0xe49b69c1#32, 0xefbe4786#32, 0x0fc19dc6#32, 0x240ca1cc#32, 0x2de92c6f#32, 0x4a7484aa#32, 0x5cb0a9dc#32, 0x76f988da#32]
  ++ [0x983e5152#32, 0xa831c66d#32, 0xb00327c8#32, 0xbf597fc7#32, 0xc6e00bf3#32, 0xd5a79147#32, 0x06ca6351#32, 0x14292967#32]
  ++ [0x27b70a85#32, 0x2e1b2138#32, 0x4d2c6dfc#32, 0x53380d13#32, 0x650a7354#32, 0x766a0abb#32, 0x81c2c92e#32, 0x92722c85#32]
  ++ [0xa2bfe8a1#32, 0xa81a664b#32, 0xc24b8b70#32, 0xc76c51a3#32, 0xd192e819#32, 0xd6990624#32, 0xf40e3585#32, 0x106aa070#32]
  ++ [0x19a4c116#32, 0x1e376c08#32, 0x2748774c#32, 0x34b0bcb5#32, 0x391c0cb3#32, 0x4ed8aa4a#32, 0x5b9cca4f#32, 0x682e6ff3#32]
  ++ [0x748f82ee#32, 0x78a5636f#32, 0x84c87814#32, 0x8cc70208#32, 0x90befffa#32, 0xa4506ceb#32, 0xbef9a3f7#32, 0xc67178f2#32]

/-- The initial hash value. -/
def shaInit : List Word :=
  [0x6a09e667#32, 0xbb67ae85#32, 0x3c6ef372#32, 0xa54ff53a#32,
   0x510e527f#32, 0x9b05688c#32, 0x1f83d9ab#32, 0x5be0cd19#32]

/-- A word rotated right. -/
def rotr (w : Word) (n : Nat) : Word := w.rotateRight n

/-- A big-endian word of four bytes. -/
def beWord (bs : List Byte) : Word := BitVec.ofNat 32 (leVal (bs.take 4).reverse)

/-- The message schedule, the newest word first. -/
def shaSchedule : Nat → List Word → List Word
  | 0, ws => ws
  | n + 1, ws =>
      let a := nth 0#32 ws 1
      let b := nth 0#32 ws 14
      let s1 := rotr a 17 ^^^ rotr a 19 ^^^ (a >>> 10)
      let s0 := rotr b 7 ^^^ rotr b 18 ^^^ (b >>> 3)
      shaSchedule n ((s1 + nth 0#32 ws 6 + s0 + nth 0#32 ws 15) :: ws)

/-- The rounds, over pairs of round constant and schedule word. -/
def shaRounds (h : List Word) : List (Word × Word) → List Word
  | [] => h
  | (k, w) :: r =>
      let x := fun n => nth 0#32 h n
      let t1 := x 7 + (rotr (x 4) 6 ^^^ rotr (x 4) 11 ^^^ rotr (x 4) 25) + ((x 4 &&& x 5) ^^^ (~~~(x 4) &&& x 6)) + k + w
      let t2 := (rotr (x 0) 2 ^^^ rotr (x 0) 13 ^^^ rotr (x 0) 22) + ((x 0 &&& x 1) ^^^ (x 0 &&& x 2) ^^^ (x 1 &&& x 2))
      shaRounds [t1 + t2, x 0, x 1, x 2, x 3 + t1, x 4, x 5, x 6] r

/-- One block of 64 bytes. -/
def shaBlock (h : List Word) (bs : List Byte) : List Word :=
  let first := (upto 16).map fun n => beWord (bs.drop (4 * n))
  let ws := (shaSchedule 48 first.reverse).reverse
  List.zipWith (· + ·) h (shaRounds h (shaK.zip ws))

/-- The blocks of a message in order. -/
def shaBlocks : Nat → List Word → List Byte → List Word
  | 0, h, _ => h
  | n + 1, h, bs => shaBlocks n (shaBlock h (bs.take 64)) (bs.drop 64)

/-- SHA-256 of bytes. -/
def sha256 (bs : List Byte) : List Byte :=
  let n := bs.length
  let pad := (55 + 64 - n % 64) % 64
  let msg := bs ++ [0x80#8] ++ (upto pad).map (fun _ => 0#8) ++ (leBytes 8 (8 * n)).reverse
  (shaBlocks ((n + 8) / 64 + 1) shaInit msg).flatMap fun w => (leBytes 4 w.toNat).reverse

end Sys2Proof.Machine
end

