-- ==== Sys2Proof/Machine/Ecdsa.lean ====
section
/-!
DEFINITION. HKDF over SHA-256 (RFC 5869) and ECDSA on the curve P-256 (FIPS 186-5), by which the package derives its identity key (R401), signs
attestation reports (R402) and verifies the firmware bundle (R414).
-/

namespace Sys2Proof.Machine

open Sys2Proof

/-- Value of bytes in network order. -/
def beVal (bs : List Byte) : Nat := bs.foldl (fun n b => 256 * n + b.toNat) 0

/-- The low `n` bytes of a value in network order. -/
def beBytes (n x : Nat) : List Byte := (leBytes n x).reverse

/-! ### HKDF -/

/-- HMAC over SHA-256 with a key of at most 64 bytes. -/
def hmac (key msg : List Byte) : List Byte :=
  let k := key ++ (upto (64 - key.length)).map fun _ => 0#8
  sha256 (k.map (· ^^^ 0x5C#8) ++ sha256 (k.map (· ^^^ 0x36#8) ++ msg))

/-- The first `n` blocks of output from a pseudorandom key, block `i` first. -/
def hkdfExpand (prk info : List Byte) : Nat → Nat → List Byte → List (List Byte)
  | 0, _, _ => []
  | n + 1, i, last =>
      let t := hmac prk (last ++ info ++ [BitVec.ofNat 8 i])
      t :: hkdfExpand prk info n (i + 1) t

/-! ### The curve -/

/-- The field, the order of the base point, and the coefficient `b`; `a` is -3. -/
def p256P : Nat := 0xffffffff00000001000000000000000000000000ffffffffffffffffffffffff
def p256N : Nat := 0xffffffff00000000ffffffffffffffffbce6faada7179e84f3b9cac2fc632551
def p256B : Nat := 0x5ac635d8aa3a93e7b3ebbd55769886bc651d06b0cc53b0f63bce3c3e27d2604b

/-- A point in Jacobian coordinates; `z` is 0 for the point at infinity. -/
structure P256 where
  x : Nat
  y : Nat
  z : Nat
  deriving DecidableEq, Repr

/-- The base point. -/
def p256G : P256 :=
  { x := 0x6b17d1f2e12c4247f8bce6e563a440f277037d812deb33a0f4a13945d898c296
    y := 0x4fe342e2fe1a7f9b8ee7eb4a7c0f9e162bce33576b315ececbb6406837bf51f5, z := 1 }

/-- The difference of two residues. -/
def subMod (m a b : Nat) : Nat := (a + (m - b % m)) % m

/-- `b ^ e` modulo `m`, by `fuel` bits of the exponent. -/
def powMod (m : Nat) : Nat → Nat → Nat → Nat
  | 0, _, _ => 1 % m
  | fuel + 1, b, e =>
      let r := powMod m fuel (b * b % m) (e / 2)
      if e % 2 = 1 then r * b % m else r

/-- The inverse modulo a prime of at most 256 bits. -/
def invMod (m a : Nat) : Nat := powMod m 256 a (m - 2)

/-- Twice a point. -/
def P256.double (q : P256) : P256 :=
  let m := p256P
  let d := q.z * q.z % m
  let g := q.y * q.y % m
  let b := q.x * g % m
  let a := 3 * (subMod m q.x d * (q.x + d)) % m
  let x := subMod m (a * a) (8 * b)
  let z := 2 * q.y * q.z % m
  { x := x, y := subMod m (a * subMod m (4 * b) x) (8 * (g * g)), z := z }

/-- The sum of two points. -/
def P256.add (q r : P256) : P256 :=
  if q.z = 0 then r else if r.z = 0 then q
  else
    let m := p256P
    let zq := q.z * q.z % m
    let zr := r.z * r.z % m
    let u := q.x * zr % m
    let s := q.y * zr * r.z % m
    let h := subMod m (r.x * zq) u
    let w := subMod m (r.y * zq * q.z) s
    if h = 0 then (if w = 0 then q.double else { x := 1, y := 1, z := 0 })
    else
      let h2 := h * h % m
      let h3 := h * h2 % m
      let v := u * h2 % m
      let x := subMod m (w * w) (h3 + 2 * v)
      { x := x, y := subMod m (w * subMod m v x) (s * h3), z := h * q.z * r.z % m }

/-- `k` times a point, by `fuel` bits of `k`. -/
def P256.mul (q : P256) : Nat → Nat → P256
  | 0, _ => { x := 1, y := 1, z := 0 }
  | fuel + 1, k =>
      let r := (P256.mul q fuel (k / 2)).double
      if k % 2 = 1 then r.add q else r

/-- The affine coordinates of a point. -/
def P256.affine (q : P256) : Nat × Nat :=
  let i := invMod p256P q.z
  (q.x * (i * i % p256P) % p256P, q.y * (i * i % p256P * i % p256P) % p256P)

/-- A point of the curve other than infinity. -/
def onCurve (x y : Nat) : Bool :=
  x < p256P && y < p256P && y * y % p256P == (subMod p256P (x * x % p256P * x) (3 * x) + p256B) % p256P

/-! ### Signatures -/

/-- The signature of hash `e` by private key `d` with nonce `k`: r and s; one of them 0 is none. -/
def ecdsaSign (d e k : Nat) : Nat × Nat :=
  let r := ((p256G.mul 256 k).affine).1 % p256N
  (r, invMod p256N k * (e + r * d) % p256N)

/-- A signature of hash `e` verifies under a public key. -/
def ecdsaVerify (x y e r s : Nat) : Bool :=
  let w := invMod p256N s
  let q := (p256G.mul 256 (e * w % p256N)).add (P256.mul { x := x, y := y, z := 1 } 256 (r * w % p256N))
  onCurve x y && decide (0 < r) && decide (r < p256N) && decide (0 < s) && decide (s < p256N) && q.z != 0 && q.affine.1 % p256N == r

/-! ### The identity key (R401) -/

/-- The private identity key: the first block of HKDF's output that is at most n - 2, plus 1 (FIPS 186-5, A.2.2). Salt, info and the number of
blocks are not given. (DESIGN CHOICE, log entry 69) -/
def identityKey : Nat :=
  let blocks := hkdfExpand (hmac hkdfSalt pufResponse) hkdfInfo 8 1 []
  ((blocks.map beVal).find? (· ≤ p256N - 2)).getD 0 + 1

/-- The public identity key, x then y. -/
def identityPublic : List Byte :=
  let q := (p256G.mul 256 identityKey).affine
  beBytes 32 q.1 ++ beBytes 32 q.2

/-- A signature of bytes by the identity key, r then s, with the first of four free nonces that gives one.
(DESIGN CHOICE, log entry 69) -/
def identitySign (n : Nat) (msg : List Byte) : List Byte :=
  let e := beVal (sha256 msg)
  let tries := (upto 4).map fun i => ecdsaSign identityKey e (freeNat (n + i) % (p256N - 1) + 1)
  let r := (tries.find? fun t => t.1 != 0 && t.2 != 0).getD (0, 0)
  beBytes 32 r.1 ++ beBytes 32 r.2

end Sys2Proof.Machine
end

