-- ==== Sys2Proof/Machine/Float.lean ====
section
/-!
DEFINITION. The floating-point instructions of lanes (R152 to R162).
-/

namespace Sys2Proof.Machine

open Sys2Proof

/-- A floating-point source in the format of TY (R153). -/
def fpVal (f : Fields) (w : Word) : FVal := (fmtOf f.tyN).val (w.toNat % 2 ^ (fmtOf f.tyN).width)

/-- An instruction whose result in each lane is bits and flags (R154). -/
def fpCompute (i : Instr) (f : Fields) (s : State) (r : View → Nat → FRes) : Out :=
  compute i f s (fun v l => BitVec.ofNat 32 (r v l).x) (fun v l => (r v l).fl)

/-- A floating-point operation on the sources A, B and C in the format of TY. -/
def fpOp (i : Instr) (f : Fields) (s : State) (r : FVal → FVal → FVal → FRes) : Out :=
  fpCompute i f s fun v l =>
    (fmtOf f.tyN).finish f.sat (r (fpVal f (v.a f l)) (fpVal f (v.b f l)) (fpVal f (v.c f l)))

def execFadd (f : Fields) (s : State) : Out := fpOp (.fadd f) f s fun a b _ => (fmtOf f.tyN).add f.rm a b
def execFsub (f : Fields) (s : State) : Out := fpOp (.fsub f) f s fun a b _ => (fmtOf f.tyN).sub f.rm a b
def execFmul (f : Fields) (s : State) : Out := fpOp (.fmul f) f s fun a b _ => (fmtOf f.tyN).mul f.rm a b
def execFfma (f : Fields) (s : State) : Out := fpOp (.ffma f) f s fun a b c => (fmtOf f.tyN).fma f.rm a b c
def execFdiv (f : Fields) (s : State) : Out := fpOp (.fdiv f) f s fun a b _ => (fmtOf f.tyN).div f.rm a b
def execFrnd (f : Fields) (s : State) : Out := fpOp (.frnd f) f s fun a _ _ => (fmtOf f.tyN).rnd f.rm a
def execFrcp (f : Fields) (s : State) : Out := fpOp (.frcp f) f s fun a _ _ => (fmtOf f.tyN).rcp f.rm a
def execFrsq (f : Fields) (s : State) : Out := fpOp (.frsq f) f s fun a _ _ => (fmtOf f.tyN).rsq f.rm a
def execFexp2 (f : Fields) (s : State) : Out := fpOp (.fexp2 f) f s fun a _ _ => (fmtOf f.tyN).exp2 f.rm a
def execFlog2 (f : Fields) (s : State) : Out := fpOp (.flog2 f) f s fun a _ _ => (fmtOf f.tyN).log2 f.rm a

/-- The bits of a source in the format of TY (R153). -/
def fpBits (f : Fields) (w : Word) : Nat := w.toNat % 2 ^ (fmtOf f.tyN).width

/-- `fmin` and `fmax`. -/
def fpPick (i : Instr) (f : Fields) (s : State) (max : Bool) : Out :=
  fpCompute i f s fun v l =>
    (fmtOf f.tyN).finish false ((fmtOf f.tyN).pick max (fpBits f (v.a f l)) (fpBits f (v.b f l)))

def execFmin (f : Fields) (s : State) : Out := fpPick (.fmin f) f s false
def execFmax (f : Fields) (s : State) : Out := fpPick (.fmax f) f s true

def execFcmp (f : Fields) (s : State) : Out :=
  issued (.fcmp f) f s fun v =>
    ((s.writeP f.d.toNat v.act fun l =>
        boolHalf (fpRelation f.sub.toNat (fpVal f (v.a f l)) (fpVal f (v.b f l)))).laneEvents
      (laneEvs (.fcmp f) v fun l => (fpRelationNv f.sub.toNat (fpVal f (v.a f l)) (fpVal f (v.b f l))).toNat)).retire

def execFclass (f : Fields) (s : State) : Out :=
  computeQuiet (.fclass f) f s fun v l => BitVec.ofNat 32 ((fmtOf f.tyN).classify (fpBits f (v.a f l)))

/-- `hpack` of one half: an FP32 word rounded to TY (R162). -/
def hpackHalf (f : Fields) (w : Word) : FRes :=
  (fmtOf f.tyN).finish f.sat ((fmtOf f.tyN).put f.rm (fp32.val w.toNat))

def execHpack (f : Fields) (s : State) : Out :=
  fpCompute (.hpack f) f s fun v l =>
    let a := hpackHalf f (v.a f l); let b := hpackHalf f (v.b f l)
    ⟨b.x * 2 ^ 16 + a.x, a.fl ||| b.fl⟩

def execHunpack (f : Fields) (s : State) : Out :=
  fpCompute (.hunpack f) f s fun v l =>
    let h := if f.sub = 0#4 then (v.a f l).toNat % 2 ^ 16 else (v.a f l).toNat / 2 ^ 16
    fp32.finish false (fp32.put 0 ((fmtOf f.tyN).val h))

end Sys2Proof.Machine
end

