-- ==== Sys2Proof/Machine/LaneMatrix.lean ====
section
/-!
DEFINITION. Per-lane matrix-vector product, random numbers and pivot counts (R167 to R171, R342).
-/

namespace Sys2Proof.Machine

open Sys2Proof

/-- Registers `d`, `d + 1`, … written in the lanes of `m`: lane `l` gets the words `x l`. -/
def Group.setRegs (g : Group) (d : Nat) (m : Word) (x : Nat → List Word) : Nat → Group
  | 0 => g
  | n + 1 => (g.setRegs d m x n).setV (d + n) m fun l => nth 0#32 (x l) n

/-! ### `lmv` -/

/-- The size of the matrix. -/
def lmvN (f : Fields) : Nat := if f.sub = 0#4 then 4 else 8

/-- Element (i, j) of W. -/
def lmvWeight (f : Fields) (s : State) (i j : Nat) : FVal :=
  let size := if f.ty = 7#4 then 4 else 2
  (fmtOf f.tyN).val (leVal ((rangeFrom (f.imm.toNat + size * (lmvN f * i + j)) size).map (s.constByte (coreOf s.cur.gid))))

/-- The results of one lane (R168). -/
def lmvLane (f : Fields) (w : List (List FVal)) (v : View) (l : Nat) : List FRes :=
  let x := (upto (lmvN f)).map fun j => fp32.val (v.g.vr (f.a.toNat + j) l).toNat
  w.map fun row => fp32.finish false (fp32.dot f.rm (row.zip x))

/-- The matrix that an issue reads, in one broadcast (R169). -/
def lmvMatrix (f : Fields) (s : State) : List (List FVal) :=
  (upto (lmvN f)).map fun i => (upto (lmvN f)).map fun j => lmvWeight f s i j

/-- `lmv` (R168). (DEDUCED, log entry 81) -/
def execLmv (f : Fields) (s : State) : Out :=
  issued (.lmv f) f s fun v =>
    let w := lmvMatrix f s
    let g := v.g.setRegs f.d.toNat v.act (fun l => (lmvLane f w v l).map fun r => BitVec.ofNat 32 r.x) (lmvN f)
    (((s.setGrp v.gid g).laneEvents
      ((lanesOf v.act).map fun l => ⟨l, (lmvLane f w v l).foldl (fun m r => m ||| r.fl) 0⟩)).choicesMade).retire

/-! ### `rnd` (R171) -/

/-- One round of Philox4x32 under keys `k0` and `k1`. -/
def philoxRound (k0 k1 : Nat) (c : Nat × Nat × Nat × Nat) : Nat × Nat × Nat × Nat :=
  let p0 := 0xD2511F53 * c.1
  let p1 := 0xCD9E8D57 * c.2.2.1
  ((p1 / 2 ^ 32) ^^^ c.2.1 ^^^ k0, p1 % 2 ^ 32, (p0 / 2 ^ 32) ^^^ c.2.2.2 ^^^ k1, p0 % 2 ^ 32)

/-- Rounds under keys that step by the two constants. -/
def philox : Nat → Nat → Nat → Nat × Nat × Nat × Nat → Nat × Nat × Nat × Nat
  | 0, _, _, c => c
  | n + 1, k0, k1, c =>
      philox n ((k0 + 0x9E3779B9) % 2 ^ 32) ((k1 + 0xBB67AE85) % 2 ^ 32) (philoxRound k0 k1 c)

/-- The four words of lane `l`. -/
def rndLane (f : Fields) (key : Nat) (v : View) (l : Nat) : List Word :=
  let c := fun n => (v.reg f.ua (f.a.toNat + n) l).toNat
  let r := philox 10 (key % 2 ^ 32) (key / 2 ^ 32) (c 0, c 1, c 2, c 3)
  [r.1, r.2.1, r.2.2.1, r.2.2.2].map (BitVec.ofNat 32)

def execRnd (f : Fields) (s : State) : Out :=
  issued (.rnd f) f s fun v =>
    let key := (s.ctxOf v.g.team).rkey.toNat
    (s.setGrp v.gid (v.g.setRegs f.d.toNat v.act (rndLane f key v) 4)).retire

/-! ### `pvt` (R342) -/

/-- Whether lane `l` counts: its value is at or above the pivot. -/
def pvtCounts (f : Fields) (v : View) (l : Nat) : Bool :=
  let a := v.a f l
  let b := v.breg f l
  match f.ty.toNat with
  | 1 => decide (sext b.toNat 32 ≤ sext a.toNat 32)
  | 2 => decide (b.toNat ≤ a.toNat)
  | _ =>
      let x := fpVal f a
      let y := fpVal f b
      !x.isNan && !y.isNan && !x.lt false y

/-- The counts of lane `l`: over the active lanes below it, and over all. -/
def pvtLane (f : Fields) (v : View) (l : Nat) : List Word :=
  let ones := (lanesOf v.act).filter (pvtCounts f v)
  [BitVec.ofNat 32 (ones.filter (· < l)).length, BitVec.ofNat 32 ones.length]

def execPvt (f : Fields) (s : State) : Out :=
  issued (.pvt f) f s fun v => (s.setGrp v.gid (v.g.setRegs f.d.toNat v.act (pvtLane f v) 2)).retire

end Sys2Proof.Machine
end

