-- ==== Sys2Proof/Machine/Slots.lean ====
section
/-!
DEFINITION. Slot blocks (R324 to R335) and commit points (R339, R340).
-/

namespace Sys2Proof.Machine

open Sys2Proof

/-! ### Headers, entries and rules -/

/-- The eight header words of a block at physical addresses given by a function of the virtual one (R324). -/
def slotHeader (s : State) (key : Nat) (pa : Nat → Nat) (block : Nat) : List Nat :=
  (upto 8).map fun k => leVal (s.bytesAs key (pa (block + 8 * k)) 8)

/-- NSLOT, PASS, FPFX and NFIN of w0. -/
def hNslot (w : Nat) : Nat := bits w 10 0
def hPass (w : Nat) : Nat := bits w 27 16
def hFpfx (w : Nat) : Nat := bits w 42 32
def hNfin (w : Nat) : Nat := bits w 58 48

/-- The slot-block checks of a header (R327). -/
def headerBad (h : List Nat) : Bool :=
  let w0 := nth 0 h 0
  bits w0 63 59 != 0 || bits w0 47 43 != 0 || bits w0 31 28 != 0 || bits w0 15 11 != 0 || bits (nth 0 h 4) 63 48 != 0
    || bits (nth 0 h 5) 63 22 != 0 || nth 0 h 6 != 0 || nth 0 h 7 != 0
    || hNslot w0 == 0 || decide (1024 < hNslot w0) || decide (hNslot w0 < hFpfx w0) || decide (hNslot w0 < hNfin w0)

/-- A slot entry (R325). -/
structure Slot where
  z      : Nat
  reopen : Nat
  passno : Nat
  conf   : Nat
  token  : Nat
  st     : Nat
  deriving DecidableEq, Repr

def slotOf (w : Nat) : Slot :=
  { z := bits w 63 54, reopen := bits w 53 52, passno := bits w 51 40, conf := bits w 39 24, token := bits w 23 2, st := bits w 1 0 }

def Slot.word (e : Slot) : Nat :=
  e.z * 2 ^ 54 + e.reopen % 4 * 2 ^ 52 + e.passno % 4096 * 2 ^ 40 + e.conf % 65536 * 2 ^ 24 + e.token % 2 ^ 22 * 4 + e.st % 4

/-- An entry of the reserved state or with a nonzero Z field (R327). -/
def Slot.bad (e : Slot) : Bool := e.st == 3 || e.z != 0

/-- A slot is open (R325). -/
def Slot.isOpen (e : Slot) : Bool := e.st ≤ 1

/-- A rule word (R328). -/
structure Rule where
  v    : Bool
  creg : Nat
  ord  : Bool
  fp   : Bool
  k    : Nat
  rth  : Nat
  fth  : Nat
  deriving DecidableEq, Repr

def ruleOf (w : Nat) : Rule :=
  { v := bit w 63, creg := bits w 49 48, ord := bit w 44, fp := bit w 43, k := bits w 42 32, rth := bits w 31 16, fth := bits w 15 0 }

/-! ### Tests (R327) -/

/-- The block address. -/
def slotBlock (f : Fields) (v : View) : Nat := v.pairU f.a.toNat

/-- The position that lane `l` names. -/
def slotPos (f : Fields) (v : View) (l : Nat) : Nat := (v.breg f l).toNat + if f.len = .l64 then 0 else f.imm.toNat

/-- The address of an entry. -/
def slotVa (block p : Nat) : Nat := (block + 64 + 8 * p) % 2 ^ 48

/-- What a translation lets through, or what stands in the way. -/
def XRes.check (s : State) (l va : Nat) (k : Kind) : XRes → Check
  | .hit _ => .ok
  | .miss => .miss (va / 65536) k
  | .fault c => .trap (s.laneTrap c l va) none
  | .tier _ => .trap (s.laneTrap fTier l va) none

/-- The physical address that a group's translation gives. -/
def State.gpa (s : State) (gid : Nat) (k : Kind) (va : Nat) : Nat := (s.xlate gid (va % 2 ^ 48) k).pa

/-- The header as a group's slot instruction sees it. -/
def headerOf (s : State) (v : View) (k : Kind) (block : Nat) : List Nat :=
  slotHeader s (s.keyOf v.gid) (s.gpa v.gid k) block

/-- An entry of a block. -/
def entryOf (s : State) (v : View) (k : Kind) (block p : Nat) : Slot :=
  slotOf (leVal (s.bytesAs (s.keyOf v.gid) (s.gpa v.gid k (slotVa block p)) 8))

/-- The checks of one lane of `slot.ld` and `slot.sc` in the order of R327. (DEDUCED, log entry 37) -/
def slotTests (f : Fields) (k : Kind) (state : Bool) (s : State) (v : View) (l : Nat) : Check :=
  let a := slotBlock f v
  let p := slotPos f v l
  if a % 64 ≠ 0 then .trap (s.laneTrap 0x0C l a) none
  else match (s.xlate v.gid a k).check s l a k with
    | .ok =>
        let h := headerOf s v k a
        let n := hNslot (nth 0 h 0)
        match (if p < n then (s.xlate v.gid (slotVa a p) k).check s l (slotVa a p) k else .ok) with
        | .ok =>
            if headerBad h then .trap (s.laneTrap 0x16 l a) none
            else if n ≤ p then .trap (s.laneTrap 0x17 l (slotVa a p)) none
            else if state && (entryOf s v k a p).bad then .trap (s.laneTrap 0x18 l (slotVa a p)) none
            else .ok
        | c => c
    | c => c

/-- The pages of a block's entries. -/
def slotPages (block n : Nat) : List Nat := (pagesOf (block + 64) (8 * n)).map (· % 2 ^ 32)

/-- The checks of `slot.fin` in the order of R327. -/
def finTests (f : Fields) (s : State) (v : View) (l : Nat) : Check :=
  let a := slotBlock f v
  if a % 64 ≠ 0 then .trap (s.laneTrap 0x0C l a) none
  else match (s.xlate v.gid a .both).check s l a .both with
    | .ok =>
        let h := headerOf s v .both a
        let n := Nat.min (hNslot (nth 0 h 0)) 1024
        match firstCheck (fun p => (s.xlate v.gid (p * 65536) .both).check s l (Nat.max a (p * 65536)) .both) (slotPages a n) with
        | .ok =>
            let r := ruleOf (s.ruleWord v.g.team (f.imm.toNat % 16)).toNat
            if headerBad h then .trap (s.laneTrap 0x16 l a) none
            else if !r.v then .trap (s.laneTrap 0x19 l a) none
            else if r.creg ≠ 0 && bits (nth 0 h r.creg) 63 48 = 0 then .trap (s.laneTrap 0x16 l a) none
            else if (upto n).any fun p => (entryOf s v .both a p).bad then .trap (s.laneTrap 0x18 l a) none
            else .ok
        | c => c
    | c => c

/-! ### `slot.ld` (R334) -/

def execSlotLd (f : Fields) (s : State) : Out :=
  issuedChk (.slotLd f) f s (slotTests f .read false s) fun v =>
    let a := slotBlock f v
    let pas := mkLanes fun l => if v.act.getLsbD l then s.gpa v.gid .read (slotVa a (slotPos f v l)) else 0
    let home := s.gpa v.gid .read a
    (s.issueOp v.gid { s.pend (.slotLd f) f v (l2Least (dieOf (coreOf v.gid)) home) with pa := pas }).retire

/-- The completion of `slot.ld`: the entry as it stands, in two registers. -/
def completeSlotLd (s : State) (gid : Nat) (p : Pend) (f : Fields) : State :=
  let e := fun l => leVal (s.bytesAs (s.keyOf gid) (nth 0 p.pa l) 8)
  s.setGrp gid ((s.grp gid).setRegs f.d.toNat p.act (fun l => [BitVec.ofNat 32 (e l), BitVec.ofNat 32 (e l / 2 ^ 32)]) 2)

/-! ### `slot.sc` (R329) -/

/-- An entry written through to memory (R326). -/
def State.putSlot (s : State) (v : View) (block p : Nat) (e : Slot) : State :=
  s.writeUnit (s.keyOf v.gid) (s.gpa v.gid .both (slotVa block p)) (leBytes 8 e.word)

/-- One lane's proposal, if its slot is open and its token in range. -/
def proposal (f : Fields) (v : View) (l pass : Nat) (e : Slot) : Option Slot :=
  let token := (v.c f l).toNat
  let conf := (v.reg f.uc (f.c.toNat + 1) l).toNat
  if e.isOpen && token < 2 ^ 22 then
    some { e with token := token, conf := conf % 65536, st := 1, passno := pass }
  else none

/-- The proposals of the lanes in ascending order: the state after them, and the lanes whose proposal was taken. -/
def propose (f : Fields) (v : View) (block pass : Nat) : State → List Nat → State × List Nat
  | s, [] => (s, [])
  | s, l :: ls =>
      let p := slotPos f v l
      match proposal f v l pass (entryOf s v .both block p) with
      | some e => let r := propose f v block pass (s.putSlot v block p e) ls; (r.1, l :: r.2)
      | none => propose f v block pass s ls

def execSlotSc (f : Fields) (s : State) : Out :=
  issuedChk (.slotSc f) f s (slotTests f .both true s) fun v =>
    let a := slotBlock f v
    let r := propose f v a (hPass (nth 0 (headerOf s v .both a) 0)) s (lanesOf v.act)
    (r.1.writeP f.d.toNat v.act fun l => boolHalf (r.2.contains l)).retire

/-! ### `slot.fin` (R331, R332) -/

/-- Position `p` is better than position `q`: higher confidence, then the rule's tie order (R331). -/
def better (r : Rule) (es : List Slot) (p q : Nat) : Bool :=
  let a := (nth (slotOf 0) es p).conf
  let b := (nth (slotOf 0) es q).conf
  decide (b < a) || (a == b && (if r.ord then decide (q < p) else decide (p < q)))

/-- Positions best first. -/
def bestFirst (r : Rule) (es : List Slot) (ps : List Nat) : List Nat := ps.foldr (insert r es) []
where
  /-- A position put into its place. -/
  insert (r : Rule) (es : List Slot) (p : Nat) : List Nat → List Nat
    | [] => [p]
    | q :: qs => if better r es p q then p :: q :: qs else q :: insert r es p qs

/-- The slots that a pass finalises, and whether progress was forced. -/
def finalised (r : Rule) (es : List Slot) : List Nat × Bool :=
  let t := (upto es.length).filter fun p => (nth (slotOf 0) es p).st == 1
  let c := t.filter fun p => r.fth ≤ (nth (slotOf 0) es p).conf
  let best := (bestFirst r es c).take r.k
  if best.isEmpty && r.fp && !t.isEmpty then ((bestFirst r es t).take 1, true) else (best, false)

/-- A slot after a pass. -/
def slotAfter (r : Rule) (pass : Nat) (fin : Bool) (e : Slot) : Slot :=
  if fin then { e with st := 2, passno := pass }
  else if e.st == 1 && e.conf < r.rth && e.reopen < 3 then
    { e with st := 0, token := 0, conf := 0, reopen := e.reopen + 1, passno := pass }
  else e

/-- The slots of a block after a pass. -/
def passSlots (r : Rule) (pass : Nat) (es : List Slot) : List Slot :=
  (upto es.length).map fun p => slotAfter r pass ((finalised r es).1.contains p) (nth (slotOf 0) es p)

/-- Leading final positions. -/
def leadFinal : List Slot → Nat
  | [] => 0
  | e :: es => if e.st = 2 then leadFinal es + 1 else 0

/-- The header word w0 after a pass. -/
def passHeader (w0 : Nat) (es : List Slot) : Nat :=
  putBits (putBits (putBits w0 58 48 (es.filter (·.st == 2)).length) 42 32 (leadFinal es)) 27 16 (hPass w0 + 1)

/-- The result of `slot.fin`. -/
def finResult (fin : List Nat × Bool) (es : List Slot) : Word :=
  BitVec.ofNat 32 (fin.1.length + 2 ^ 11 * fin.2.toNat + 2 ^ 16 * leadFinal es)

/-- ST of a connection (R302). -/
def Conn.st (x : Conn) : Nat := bits (Tab.get 0#64 x.w 0).toNat 62 60

/-- A connection that streams the block at an address of a context, or at another address of the same place (R336). -/
def State.streams (s : State) (ctx va pa : Nat) (x : Conn) : Bool :=
  let c := bits (Tab.get 0#64 x.w 0).toNat 55 50
  let b := bits (Tab.get 0#64 x.w 14).toNat 47 0
  (x.st == 2 || x.st == 3) && ((c == ctx && b == va) || s.xlateNow 1536 c b .read == .hit pa)

/-- The network engine owes every connection of a block one more reading (R336). (DEDUCED, log entry 72) -/
def State.streamDue (s : State) (ctx va pa : Nat) : State :=
  { s with conns := s.conns.map fun (e : Nat × Conn) => if s.streams ctx va pa e.2 then (e.1, { e.2 with due := e.2.due + 1 }) else e }

/-- One pass of the slot unit. -/
def State.slotPass (s : State) (f : Fields) (v : View) : State :=
  let a := slotBlock f v
  let w0 := nth 0 (headerOf s v .both a) 0
  let r := ruleOf (s.ruleWord v.g.team (f.imm.toNat % 16)).toNat
  let es := (upto (hNslot w0)).map (entryOf s v .both a)
  let new := passSlots r (hPass w0) es
  let s := s.closeFilter v.gid
  let s := (upto new.length).foldl (fun s p =>
    let e := nth (slotOf 0) new p
    if e = nth (slotOf 0) es p then s else s.putSlot v a p e) s
  let s := s.writeUnit (s.keyOf v.gid) (s.gpa v.gid .both a) (leBytes 8 (passHeader w0 new))
  (s.streamDue (s.team v.g.team).ctx a (s.gpa v.gid .both a)).writeU f.d.toNat (finResult (finalised r es) new)

def execSlotFin (f : Fields) (s : State) : Out :=
  issuedChk (.slotFin f) f s (finTests f s) fun v => (if v.any then s.slotPass f v else s).retire

/-! ### `commit` (R339, R340) -/

def execCommit (f : Fields) (s : State) : Out :=
  issued (.commit f) f s fun v =>
    let stop := (s.ctxOf v.g.team).committing
    s.moveLanes fun l n =>
      if v.iss.getLsbD l then
        let m := laneAfter s.cur (seqPc s.cur.pc s.cur.len) false n
        if stop && v.act.getLsbD l then { m with wait := .commit } else m
      else n

end Sys2Proof.Machine
end

