-- ==== Sys2Proof/Machine/Traps.lean ====
section
/-!
DEFINITION. Traps: delivery to the context handler and to firmware (R369 to R373), `tret` (R379), trap-fences (R376 to R378), `trap`, `brk`
and `halt` (R380), the timer trap (R363) and the release of a rejoin (R49).
-/

namespace Sys2Proof.Machine

open Sys2Proof

/-! ### Delivery (R370, R371) -/

/-- The drain of R370 has ended: no long-latency instruction of the group's lanes is left. -/
def State.drained (s : State) (gid : Nat) : Bool :=
  (s.grp gid).ops.isEmpty
    && (s.team (s.grp gid).team).order.all fun o =>
        (match o.src with | .seq _ => true | _ => !isLong o.i || (o.gid != gid && !o.flags.any (·.1 == gid)))

/-- The words of a trap record. -/
def recordWords (t : TrapInfo) (s0 s1 : Word) : List Nat :=
  [2 ^ 63 + t.code * 2 ^ 48 + t.pc, t.ill * 2 ^ 48 + t.pc2, t.addr,
   t.k * 2 ^ 40 + t.gid * 2 ^ 24 + t.rcl * 2 ^ 20 + t.reg % 256 * 2 ^ 12 + t.lane, s1.toNat * 2 ^ 32 + s0.toNat,
   t.supp.toNat * 2 ^ 40 + t.info % 256 * 2 ^ 32 + t.planes.toNat, t.pcx, 0]

/-- A trap record (R371). -/
def recordBytes (s : State) (gid : Nat) (t : TrapInfo) : List Byte :=
  let g := s.grp gid
  wordsLe (recordWords t (g.ur 0) (g.ur 1)) ++ laneBytesOf g.lanes (s.laneState gid)

/-- BASE and EN of a handler vector (R369). -/
def Ctx.handler (c : Ctx) : Nat := bits c.tvec.toNat 47 16 * 2 ^ 16
def Ctx.handles (c : Ctx) : Bool := c.tvec.getLsbD 0

/-- RECVA of a group. -/
def State.recva (s : State) (gid : Nat) : Nat := ((s.ctxOf (s.grp gid).team).handler + 0x10000 + 512 * gid) % 2 ^ 48

/-- Every live lane of a group enters the handler. (DESIGN CHOICE, log entry 46) -/
def Group.enterHandler (g : Group) (base ra : Nat) (planes : Word) : Group :=
  let h := (g.setU 0 (BitVec.ofNat 32 ra)).setU 1 (BitVec.ofNat 32 (bits ra 47 32))
  { h with
    lanes := g.lanes.map fun n => if n.live then { pc := lpcOf base } else n
    trap := { g.trap with
      inh := true, recva := ra, k := 0, kLanes := 0#32, planes := planes, supp := 0#32
      atEntry := mkMask fun l => (g.lane l).live, frozen := none, toFw := false
      owed := mkLanes fun l => ((g.lane l).fence, (g.lane l).pc) } }

/-- A returning lane at the PC that it had at the delivery owes the trap-fence that it owed then (R377, R379); one that has been moved and
whose HOFF is not 0 breaks its clause (R372). (DESIGN CHOICE, log entry 46) -/
def State.returnLane (s : State) (gid l hoff : Nat) (n : Lane) : Lane :=
  let g := s.grp gid
  match (g.trap.owed[l]?) with
  | none => n
  | some (fence, pc) =>
      if n.pc == pc then { n with fence := fence }
      else if hoff ≠ 0 then { n with clause := s.brokenClause (coreOf gid) (s.team g.team).ctx n.pc.toNat }
      else n

/-- The bytes of a record as plain stores of the group to its eight lines. -/
def recordStores (s : State) (gid pa : Nat) (t : TrapInfo) : List SqEntry :=
  (upto 8).map fun k =>
    { gid := gid, lane := 0, space := .global, va := s.recva gid + 64 * k, pa := pa + 64 * k, kind := .plain, ord := s.seqno, whole := true
      bytes := ((recordBytes s gid t).drop (64 * k)).take 64 }

/-- Step 3 of R370: the record as a plain store of the group, performed at once, or held as its block's other stores are (R254). -/
def State.storeRecord (s : State) (gid pa : Nat) (t : TrapInfo) : State :=
  (recordStores s gid pa t).foldl (fun u e => u.finishStore (s.holdsBack e) e) { s with seqno := s.seqno + 1 }

/-- Steps 3 and 4 of R370: the record and the entry; `none` where the write faults. (DEDUCED, log entry 44) -/
def State.enterTrap (s : State) (gid : Nat) (t : TrapInfo) : Option State :=
  let ra := s.recva gid
  match s.xlateNow (coreOf gid) (s.team (s.grp gid).team).ctx ra .write with
  | .hit pa =>
      let u := s.storeRecord gid pa t
      some (u.setGrp gid ((u.grp gid).enterHandler (s.ctxOf (s.grp gid).team).handler ra t.planes))
  | _ => none

/-- The words of R371 in firmware's fault queue (R373). -/
def State.faultWords (s : State) (gid : Nat) (t : TrapInfo) : State :=
  s.report "fault" (gid :: recordWords t ((s.grp gid).ur 0) ((s.grp gid).ur 1))

/-- A trap that firmware ends the context for; its words are in the fault queue, where they were not before (R369, R370, R373). -/
def State.trapEnds (s : State) (gid : Nat) (t : TrapInfo) (why : String) : State :=
  (if (s.grp gid).trap.toFw then s else s.faultWords gid t).terminateFor (s.team (s.grp gid).team).ctx why [gid, t.code]

/-- A handler trap is delivered: to the handler, or to firmware, which ends the context (R369, R370). (DEDUCED, log entry 49) -/
def State.deliver (s : State) (gid : Nat) (t : TrapInfo) : State :=
  let g := s.grp gid
  let c := (s.team g.team).ctx
  if g.trap.inh then s.trapEnds gid t "double-trap"
  else if !(s.ctx c).handles || g.sregs < 2 then s.trapEnds gid t "trap"
  else match s.enterTrap gid t with
    | some u => u
    | none => s.trapEnds gid t "trap"

/-- A walk for the page of a group's record is in flight: its delivery waits for it (R206). -/
def State.recordWalks (s : State) (gid : Nat) : Bool := s.walking (coreOf gid) (s.team (s.grp gid).team).ctx (s.recva gid)

/-- TRAP_DELIVERY (R370). -/
def execTrapDelivery (gid : Nat) (s : State) : Out :=
  let g := s.grp gid
  match g.trap.frozen with
  | none => .next s
  | some t => if !g.bound || toFirmware t.code || g.trap.toFw || !s.drained gid || s.recordWalks gid then .next s
      else .next (s.deliver gid t)

/-- A fault in firmware's hands, with its words in the fault queue (R373). -/
def State.toFirmwareNow (s : State) (gid : Nat) (t : TrapInfo) : State :=
  (s.setGrp gid { s.grp gid with trap := { (s.grp gid).trap with toFw := true } }).faultWords gid t

/-- FIRMWARE_FAULT_DELIVERY (R373): the words of the record go to firmware's fault queue. A register-data
fault and a table fault end the context (R124, R204); a breakpoint without a debugger goes on to the handler (R380). (DEDUCED, log entry 49) -/
def execFirmwareFaultDelivery (gid : Nat) (s : State) : Out :=
  let g := s.grp gid
  match g.trap.frozen with
  | none => .next s
  | some t =>
      if !g.bound || !toFirmware t.code || g.trap.toFw || !s.drained gid then .next s
      else if t.code = 0x24 then .next ((s.faultWords gid t).terminateFor (s.team g.team).ctx "register-data" [gid, t.pc, t.lane])
      else if t.code = fTable then .next ((s.faultWords gid t).terminateFor (s.team g.team).ctx "table-fault" [gid, t.pc, t.addr])
      else if t.code = 0x26 && !(s.ctxOf g.team).attached then .next ((s.toFirmwareNow gid t).deliver gid t)
      else .next (s.toFirmwareNow gid t)

/-- The frozen fault that firmware holds of a group. -/
def Group.held (g : Group) : Option TrapInfo := if g.bound && g.trap.toFw then g.trap.frozen else none

/-- Firmware faults of a walk. -/
def isWalkFault (code : Nat) : Bool := 0x20 ≤ code && code ≤ 0x23

/-- The group that a command names. (DEDUCED, log entry 73) -/
def State.cmdIndex (s : State) : Nat := bits s.pkg.prcmd.toNat 14 0

/-- The translation that a fault of a walk came of is forgotten: the access walks again when it is made again (R204). -/
def State.walkAgain (s : State) (gid : Nat) (t : TrapInfo) : State :=
  if isWalkFault t.code then s.forgetPage (coreOf gid) (s.team (s.grp gid).team).ctx t.addr else s

/-- A page fault in a range that MAP mapped for the context (R204). -/
def State.mappedFault (s : State) (gid : Nat) (t : TrapInfo) : Bool :=
  t.code == fPage && (s.ctxOf (s.grp gid).team).maps.any fun m => m.1 ≤ t.addr / 65536 && t.addr / 65536 < m.1 + m.2

/-- FORWARD (R373): the frozen fault goes to the handler with its code. Firmware resolves a tier-miss and a page fault in a mapped range, and
forwards neither (R204). (DEDUCED, log entry 49) -/
def execForward (w0 : DWord) (s : State) : Out :=
  let gid := s.cmdIndex
  match (s.grp gid).held with
  | none => .next (s.report "prcmd-ignored" [bits w0.toNat 63 60, gid])
  | some t =>
      if t.code = fTier || s.mappedFault gid t then .next (s.report "prcmd-ignored" [bits w0.toNat 63 60, gid])
      else .next ((s.walkAgain gid t).deliver gid t)

/-! ### `tret` (R379) -/

/-- The record of a return: its bytes, a walk to wait for, or a fault of its read. -/
inductive RecRead where
  | ok (bs : List Byte)
  | miss (page : Nat)
  | bad (code : Nat)
  deriving DecidableEq, Repr

/-- The record at RECVA as the group sees it. (DEDUCED, log entry 44) -/
def State.readRecord (s : State) (gid : Nat) : RecRead :=
  let g := s.grp gid
  match s.xlate gid g.trap.recva .read with
  | .hit pa => .ok (s.teamBytes g.team (readerOf gid 0) (s.keyOf gid) pa 512)
  | .miss => .miss (g.trap.recva / 65536)
  | r => .bad r.code

/-- A store of the group into its record that has not been performed. (DEDUCED, log entry 44) -/
def State.recordPending (s : State) (gid : Nat) : Bool :=
  (s.core (coreOf gid)).sq.any fun e => e.gid == gid && e.space == .global && overlap e.va e.bytes.length (s.grp gid).trap.recva 512

/-- The lanes that a return restores: live now and at the delivery. -/
def Group.returning (g : Group) : Word := mkMask fun l => (g.lane l).live && g.trap.atEntry.getLsbD l

/-- A returning lane has a reserved WAIT value. -/
def waitReserved (g : Group) (bs : List Byte) : Bool :=
  laneNums.any fun l => g.returning.getLsbD l && 3 < bits (leVal ((bs.drop (448 + 2 * l)).take 2)) 10 8

/-- The group after `tret`. -/
def State.leaveHandler (s : State) (gid : Nat) (bs : List Byte) : State :=
  let g := s.grp gid
  let area := bs.drop 64
  let k := bits (wordLe bs 3) 45 40
  let h := (g.setU 0 (BitVec.ofNat 32 (wordLe bs 4))).setU 1 (BitVec.ofNat 32 (wordLe bs 4 / 2 ^ 32))
  let h := { h with trap := { g.trap with
    inh := false, k := k, kLanes := g.trap.planes, supp := if bit (wordLe bs 5) 40 then g.trap.planes else 0#32 } }
  let u := s.setGrp gid h
  let hoff := fun l => bits (leVal ((area.drop (384 + 2 * l)).take 2)) 7 0
  let h := h.mapLanes fun l n => if g.returning.getLsbD l then s.returnLane gid l (hoff l) (u.laneOfArea gid l area) else n
  rejoinCheck ((s.setGrp gid h.clearMarks).barCatch gid) gid

/-- `tret` (R372). (DEDUCED, log entry 49) -/
def execTret (f : Fields) (s : State) : Out :=
  issued (.tret f) f s fun v =>
    if !v.any then s.retire
    else if !v.g.trap.inh then s.valueFault 0x1D (lowLane v.act) 0
    else if s.recordPending v.gid then s
    else match s.readRecord v.gid with
      | .miss p => s.startWalk v.gid p .read
      | .bad c => s.valueFault c (lowLane v.act) v.g.trap.recva
      | .ok bs =>
          if waitReserved v.g bs then s.terminateFor (s.team v.g.team).ctx "double-trap" [v.gid]
          else { s.leaveHandler v.gid bs with fresh := s.fresh + 2 ^ 52 }

/-! ### Trap-fences, `trap`, `brk`, `halt` -/

def execTfence (f : Fields) (s : State) : Out :=
  issued (.tfence f) f s fun v =>
    if v.any && v.w.csr.fstat != 0#32 then s.arithTrap v.gid s.cur.pc s.cur.lanes else s.retire

/-- A software trap: its lanes resume at the successor (R380). -/
def softTrap (f : Fields) (code : Nat) (s : State) (v : View) : State :=
  if v.any then s.retire.trapNow { s.trapHere code with info := f.b.toNat, lane := lowLane v.act } else s.retire

def execTrap (f : Fields) (s : State) : Out := issued (.trap f) f s (softTrap f 0x1C s)
def execBrk (f : Fields) (s : State) : Out := issued (.brk f) f s (softTrap f 0x26 s)

/-- Every group of a team enters or leaves debug halt. -/
def State.haltTeam (s : State) (t : Nat) (on : Bool) : State :=
  { s with groups := s.groups.map fun e => if e.2.bound && e.2.team == t then (e.1, { e.2 with halted := on, trap := { e.2.trap with since := s.seqno } }) else e }

/-- The effect of `halt` past the issue (R380): debug halt where a debugger is attached to the context; else firmware ends the context.
(DESIGN CHOICE, log entry 89) -/
def State.haltNow (s : State) (t : Nat) : State :=
  if (s.ctxOf t).attached then (s.haltTeam t true).report "halt" [t] else s.terminateFor (s.team t).ctx "halt" [t]

def execHalt (f : Fields) (s : State) : Out :=
  issued (.halt f) f s fun v => if v.any then s.retire.haltNow v.g.team else s.retire

/-! ### Timer and rejoin -/

/-- GTCMP as it stands in the present cycle: a `csr.w` takes effect from the next one (R363, R375). -/
def Group.gtcmpNow (g : Group) : Nat := g.gtOld.getD g.csr.gtcmp

/-- The timer of a group at the end of the last of `k` cycles from the present one on: where GTIME has reached GTCMP the trap is pending and
GTCMP is 0, or what a `csr.w` of the cycle has written (R363). -/
def Group.timerEnd (g : Group) (k : Nat) : Group :=
  if g.gtcmpNow ≠ 0 && g.gtcmpNow < g.csr.gtime + k then
    { g with gtOld := some 0, csr := { g.csr with gtcmp := if g.gtOld.isSome then g.csr.gtcmp else 0, tpend := true } }
  else g

/-- The timer of a group fires (R363). -/
def State.timerFire (s : State) (gid : Nat) : State :=
  let g := s.grp gid
  if g.bound then s.setGrp gid (g.timerEnd 1) else s

/-- TIMER_TRAP (R363): an event comes after every issue of its cycle, so that the timer fires at the cycle's end. -/
def execTimerTrap (gid : Nat) (s : State) : Out := .next (s.timerFire gid)

/-- REJOIN_RELEASE (R49). A frozen group keeps its captured lanes, and a lane that is stopped at its `rejoin` stays there (R383). -/
def execRejoinRelease (gid pc : Nat) (s : State) : Out :=
  let g := s.grp gid
  if !g.bound || g.trap.frozen.isSome || s.stopping gid || !g.rejoinMet pc then .next s
  else .next (s.setGrp gid (g.releaseAt pc))

end Sys2Proof.Machine
end

