-- ==== Sys2Proof/Machine/Preempt.lean ====
section
/-!
DEFINITION. Stopping, saving and restoring: stop requests and their watchdogs (R383, R339, R341), lazy save (R385), the commands of R386,
restore (R388), and the binding of a waiting record (R290).
-/

namespace Sys2Proof.Machine

open Sys2Proof

/-! ### Stop requests (R383, R339) -/

/-- A limit in µs of the command, in ns. (DESIGN CHOICE, log entry 50) -/
def wdogNs (s : State) (spec : Bool) : Nat :=
  let w := bits s.pkg.prcmd.toNat 47 32
  1000 * (if w = 0 then (if spec then s.pkg.commitUs else 1000) else w)

/-- A command that is not carried out is reported. -/
def State.ignoreCmd (s : State) (w0 : DWord) : State := s.report "prcmd-ignored" [bits w0.toNat 63 60, s.cmdIndex]

/-- STOP (R383): in a speculative context the request makes the context pending (R339). A write of another OP that no command has is ignored
and reported. (DESIGN CHOICE, log entry 50; DEDUCED, log entry 73) -/
def execStop (w0 : DWord) (s : State) : Out :=
  let t := s.cmdIndex
  let x := s.team t
  let c := s.ctx x.ctx
  if !x.bound || x.done || bits w0.toNat 63 60 ≠ 1 then .next (s.ignoreCmd w0)
  else
    let due := s.pkg.wtime + wdogNs s c.spec
    let u := s.setTeam t { x with stop := some { image := bits w0.toNat 47 12 * 4096, due := due } }
    .next (if c.spec && c.pending.isNone then u.setCtx x.ctx { c with pending := some due } else u)

/-- A lane that has stopped, or that waits where a stop finds it (R383). -/
def Lane.halts (n : Lane) : Bool :=
  !n.live || n.stopped || (match n.wait with | .rejoin _ | .sign _ | .bar _ _ _ _ _ _ => true | _ => false)

/-- A group's memory work is done: stores, staged `atom`s, held and handed entries (R383, R339). -/
def State.memoryDone (s : State) (gid : Nat) : Bool :=
  let g := s.grp gid
  let x := s.team g.team
  g.flagsIdle && !(s.core (coreOf gid)).sq.any (·.gid == gid) && !x.held.any (·.gid == gid)
    && !x.handed.any (·.role == g.role) && !x.staged.any (fun e => e.role == g.role && e.atom.isSome)

/-- No copy and no job of a team is outstanding, and its order is empty. -/
def State.enginesDone (s : State) (t : Nat) : Bool :=
  (s.team t).order.isEmpty && !(s.core (coreOf t)).copies.any (·.team == t) && !s.jobs.any fun e => e.2.team == t

/-- A sequencer has stopped or does not run. -/
def Seq.rests (x : Seq) : Bool := x.st != 1 || x.halted || !x.started

/-- A group has stopped: frozen by a firmware fault, or every live lane has (R383). (DEDUCED, log entry 51) -/
def State.groupStopped (s : State) (gid : Nat) : Bool :=
  let g := s.grp gid
  !g.bound || ((match g.trap.frozen with
      | some _ => g.trap.toFw
      | none => g.lanes.all Lane.halts) && s.memoryDone gid && g.seqs.all Seq.rests)

/-- What a team's groups, ended ones among them, have stored has been performed: nothing is queued, held or handed over (R383, R339, R236). -/
def State.teamStored (s : State) (t : Nat) : Bool :=
  !(s.core (coreOf t)).sq.any (fun e => (s.grp e.gid).team == t) && (s.team t).held.isEmpty && (s.team t).handed.isEmpty

/-- A group is at a commit point: every reduction of it has been performed too (R339). -/
def State.atCommit (s : State) (gid : Nat) : Bool :=
  let g := s.grp gid
  !g.bound || (g.trap.frozen.isNone && g.lanes.all (fun n => !n.live || n.wait == .commit) && s.memoryDone gid
    && !(s.team g.team).staged.any (·.role == g.role) && g.seqs.all (·.st != 1))

/-- The records of a pre-empted group close, and RACEUNTR counts them (R250). -/
def State.closeCounted (s : State) (gid : Nat) : State :=
  let n := (s.grp gid).filter.length
  let s := s.closeFilter gid
  let g := s.grp gid
  s.setGrp gid { g with csr := { g.csr with raceuntr := g.count 0x051 g.csr.raceuntr (Nat.min (g.csr.raceuntr + n) 0xFFFFFFFF) } }

/-- A window's team renamed. -/
def Space.rename (a b : Nat) (x : Space) : Space := if x = .spad a then .spad b else x

/-- Every mention of a team's number replaced: in waits at barriers, accesses to its window, barrier words of the present cycle and jobs. -/
def State.renameTeam (s : State) (a b : Nat) : State :=
  let lane := fun n : Lane => match n.wait with
    | .bar t off ph f act o => if t = a then { n with wait := .bar b off ph f act o } else n
    | _ => n
  let grp := fun g : Group => { g with lanes := g.lanes.map lane, ops := g.ops.map fun p => { p with space := p.space.rename a b } }
  let entry := fun e : Staged => { e with space := e.space.rename a b }
  let store := fun e : SqEntry => { e with space := e.space.rename a b }
  let team := fun t : Team => { t with staged := t.staged.map entry, handed := t.handed.map entry, held := t.held.map store }
  let job := fun j : Job => if j.tagTeam = a then { j with tagTeam := b, tagCore := coreOf b } else j
  { s with
    groups := s.groups.map fun e => (e.1, grp e.2), teams := s.teams.map fun e => (e.1, team e.2)
    parked := s.parked.map fun p => { p with team := team p.team, groups := p.groups.map grp }
    cores := s.cores.map fun e => (e.1, { e.2 with sq := e.2.sq.map store })
    bars := s.bars.map fun e => if e.1 = a then (b, e.2) else e
    jobs := s.jobs.map fun e => (e.1, job e.2) }

/-- The identity of a team by its place in its launch. -/
def Team.absent (x : Team) : Nat := absentTeam x.launch x.cluster x.pos

/-- A stopped team leaves its core; its storage is evictable (R383). -/
def State.park (s : State) (t image : Nat) : State :=
  let gs := (rangeFrom t ((s.team t).desc.team + 1))
  let s := gs.foldl (fun s g => withdraw (if (s.grp g).bound then s.closeCounted g else s) g) s
  let x := s.team t
  let p : Parked := { gid0 := t, team := x, groups := gs.map s.grp, image := image, key := (s.ctx x.ctx).key }
  let s := ({ s with parked := s.parked ++ [p] }.dropTeam t).renameTeam t x.absent
  match x.work with
  | .block => s.bindState x.ridx 2 8
  | .task q => s.closePool q
  | .point q die fid lin => (s.closePool q).mapPoint die fid lin fun y => { y with team := none, saved := true, cimg := image }

/-- TEAM_STOPPED (R383). -/
def execTeamStopped (team : Nat) (s : State) : Out :=
  let x := s.team team
  match x.stop with
  | none => .next s
  | some r =>
      if !x.bound || (s.ctx x.ctx).spec || !(rangeFrom team (x.desc.team + 1)).all s.groupStopped || !s.enginesDone team
          || !s.teamStored team then .next s
      else .next (s.park team r.image)

/-- COMMIT_POINT_SAVE (R339): every group of a pending speculative context has ended or is at a commit point, and each team has an image. -/
def execCommitPointSave (ctx : Nat) (s : State) : Out :=
  let c := s.ctx ctx
  let ts := (s.teams.filter fun e => e.2.bound && !e.2.done && e.2.ctx == ctx).map (·.1)
  if !c.committing || !(s.groupsOf ctx).all s.atCommit || !ts.all (fun t => s.enginesDone t && s.teamStored t && (s.team t).stop.isSome) then .next s
  else
    let u := ts.foldl (fun s t => s.park t (match (s.team t).stop with | some r => r.image | none => 0)) s
    .next (u.setCtx ctx { u.ctx ctx with pending := none })

/-- STOP_WATCHDOG_EXPIRY (R383): firmware is informed, and terminates the context or extends the wait by another 1000 µs.
(DESIGN CHOICE, log entry 50) -/
def execStopWatchdogExpiry (team : Nat) (terminate : Bool) (s : State) : Out :=
  let x := s.team team
  match x.stop with
  | none => .next s
  | some r =>
      if !x.bound || (s.ctx x.ctx).spec || s.pkg.wtime < r.due then .next s
      else if terminate then .next (s.terminateFor x.ctx "stop-watchdog" [team])
      else .next ((s.setTeam team { x with stop := some { r with due := s.pkg.wtime + 1000000 } }).report "stop-watchdog" [team])

/-- COMMIT_WATCHDOG_EXPIRY (R341). (DESIGN CHOICE, log entry 50) -/
def execCommitWatchdogExpiry (ctx : Nat) (terminate : Bool) (s : State) : Out :=
  let c := s.ctx ctx
  match c.pending with
  | none => .next s
  | some due =>
      if s.pkg.wtime < due then .next s
      else if terminate then .next (s.terminateFor ctx "commit-watchdog" [])
      else .next ((s.setCtx ctx { c with pending := some (s.pkg.wtime + 1000 * s.pkg.commitUs) }).report "commit-watchdog" [ctx])

/-! ### FLUSH (R385, R386) -/

/-- The stopped teams with one replaced. -/
def State.setParked (s : State) (k : Nat) (p : Parked) : State := { s with parked := setNth p s.parked k }

/-- The place among the stopped teams of the one that stopped last of those that satisfy a test. -/
def State.parkedWhere (s : State) (f : Parked → Bool) : Option Nat := (upto s.parked.length).reverse.find? fun k => (s.parked[k]?).any f

/-- Stopped team `k` is the last of its launch that stopped on its core, none of which remains bound there: the constant store is its granule
(R385). (DEDUCED, log entry 53) -/
def State.ownsKst (s : State) (k : Nat) (p : Parked) : Bool :=
  let core := coreOf p.gid0
  (s.core core).owner == some p.team.launch && !s.teams.any (fun e => e.2.bound && coreOf e.1 == core && e.2.launch == p.team.launch)
    && !(s.parked.drop (k + 1)).any fun q => coreOf q.gid0 == core && q.team.launch == p.team.launch

/-- The constant store of a core goes with the stopped team whose granule it is, and leaves the core untagged. (DEDUCED, log entry 53) -/
def State.takeKst (s : State) (k : Nat) (p : Parked) : State × Parked :=
  let core := coreOf p.gid0
  if s.ownsKst k p then
    (s.setCore core { s.core core with kst := [], owner := none }, { p with kst := some (s.core core).kst })
  else (s, p)

/-- Every granule of a stopped team is saved. -/
def State.flushParked (s : State) (k : Nat) : State :=
  match s.parked[k]? with
  | none => s
  | some p =>
      let q := s.takeKst k p
      let r := q.1.saveGrans q.2 q.2.all
      r.1.setParked k r.2

/-- FLUSH (R386): of the team that INDEX names now; a bound one has no evictable granule. -/
def execFlush (w0 : DWord) (s : State) : Out :=
  if (s.team s.cmdIndex).bound then .next (s.ignoreCmd w0)
  else match s.parkedWhere (·.gid0 == s.cmdIndex) with
  | some k => .next (s.flushParked k)
  | none => .next (s.ignoreCmd w0)

/-! ### The image read (R387, R388) -/

/-- Fields of a team header. -/
structure Header0 where
  lines : Nat
  fbl : Nat
  cvr : Nat
  rejd : Nat
  barw : Nat
  tiles : Nat
  accg : Nat
  groups : Nat
  csv : Bool
  evt : Nat
  spad : Nat
  stage : Nat
  pool : Nat
  deriving DecidableEq, Repr

def headerOfImage (bs : List Byte) : Header0 :=
  let w0 := wordLe bs 0
  let w1 := wordLe bs 1
  { lines := bits w0 47 36, fbl := bits w0 35 30, cvr := bits w0 29 26, rejd := bits w0 25 22, barw := bits w0 21 14, tiles := bits w0 13 10
    accg := bits w0 9 5, groups := bits w0 4 0, csv := bit w1 63, evt := bits w1 49 42, spad := bits w1 41 32, stage := bits w1 28 20
    pool := bits w1 5 0 }

/-- The checks of R388 against a record; a pool's window may hold fewer groups. -/
def Header0.fits (h : Header0) (b : Bind) (idx : Nat) : Bool :=
  let p := b.place idx
  h.lines ≤ p.lines.2 && h.spad ≤ p.spad.2 && h.tiles ≤ p.tiles.2 && h.accg ≤ p.acc.2 && h.cvr ≤ p.cvs.2
    && (if b.kind = 0 then h.groups == b.gcnt + 1 else 1 ≤ h.groups && h.groups ≤ b.gcnt + 1) && h.fbl ≤ 32 && h.rejd ≤ 8

/-- The counts of storage that an image needs. -/
def Header0.need (h : Header0) : Place :=
  { slots := (0, h.groups), lines := (0, h.lines), cvs := (0, h.cvr), spad := (0, h.spad), tiles := (0, h.tiles), acc := (0, h.accg) }

/-- VALLOC of each group, from the group headers in turn. -/
def allocs (s : State) (image key : Nat) : Nat → Nat → List Nat
  | 0, _ => []
  | n + 1, off =>
      let v := bits (wordLe (s.bytesAs key (image + off) 8) 0) 49 41
      v :: allocs s image key n (off + 0xA00 + 128 * v)

/-- The shape of an image. -/
def State.imageShape (s : State) (image key : Nat) (h : Header0) : Shape :=
  { tiles := h.tiles, accg := h.accg, spad := h.spad
    alloc := allocs s image key h.groups (0x1300 + 9216 * h.tiles + 4160 * h.accg + 256 * h.spad) }

/-- Bits of a word that the layout leaves unnamed. -/
def zeroWord (bs : List Byte) (k : Nat) (mask : Nat) : Bool := Nat.land (wordLe bs k) mask == 0

/-- The unnamed fields of a group image are zero. -/
def groupZeros (bs : List Byte) : Bool :=
  zeroWord bs 0 (2 ^ 25 - 1) && zeroWord bs 9 (2 ^ 64 - 1) && zeroWord bs 10 (2 ^ 64 - 2 ^ 48)
    && (rangeFrom 11 21).all (fun k => zeroWord bs k (2 ^ 64 - 1))
    && laneNums.all fun l => bits (leVal ((bs.drop (0x280 + 2 * l)).take 2)) 15 13 == 0

/-- The unnamed fields of an image are zero. -/
def State.imageZeros (s : State) (image key : Nat) (h : Header0) : Bool :=
  let bs := s.bytesAs key image 0x1300
  let sh := s.imageShape image key h
  let rd := fun off n => s.bytesAs key (image + off) n
  zeroWord bs 0 (2 ^ 63 - 2 ^ 48) && zeroWord bs 1 (2 ^ 63 - 2 ^ 50 + 2 ^ 32 - 2 ^ 29 + 2 ^ 20 - 2 ^ 6)
    && (rangeFrom 2 8).all (fun k => zeroWord bs k (2 ^ 64 - 2 ^ 48))
    && (rangeFrom 10 3).all (fun k => zeroWord bs k (2 ^ 64 - 2 ^ 58))
    && (rangeFrom 13 3).all (fun k => zeroWord bs k (2 ^ 62 - 2 ^ 59 + 2 ^ 56 - 2 ^ 40))
    && (rangeFrom 28 4).all (fun k => zeroWord bs k (2 ^ 64 - 1))
    && (upto 256).all (fun k => if k < h.stage then zeroWord bs (96 + 2 * k) (2 ^ 64 - 2 ^ 60 + 2 ^ 54 - 2 ^ 51)
        else zeroWord bs (96 + 2 * k) (2 ^ 64 - 1) && zeroWord bs (97 + 2 * k) (2 ^ 64 - 1))
    && (upto h.tiles).all (fun n => (rd (0x1300 + 9216 * n + 8712) 504).all (· == 0#8))
    && (upto (16 * h.accg)).all (fun r => leVal (rd (sh.accOff + 260 * r + 256) 4) < 2)
    && (upto h.groups).all fun r => groupZeros (rd (sh.groupOff r) 0x300)

/-- One sequencer from its words. -/
def seqFrom (s : State) (core ctx : Nat) (bs : List Byte) (q : Nat) : Seq :=
  let a := wordLe bs (10 + q)
  let b := wordLe bs (13 + q)
  let pc := bits a 47 0
  let loops := (upto (bits b 58 56)).map fun k => (bits (wordLe bs (16 + 4 * q + k)) 47 0, bits (wordLe bs (16 + 4 * q + k)) 63 48)
  { st := bits a 57 56, cause := bits a 55 48, pc := pc, started := true, loops := loops, halted := true
    wait := if bit b 63 then .events (bits b 7 0) else if bit b 62 then .cycles (bits b 31 0) else .none
    clause := s.clauseAt core ctx pc (bits b 39 32) }

/-- One staging entry. -/
def stagedFrom (s : State) (t : Nat) (bs : List Byte) (k : Nat) : Staged :=
  let x := s.team t
  let w0 := wordLe bs (96 + 2 * k)
  let w1 := wordLe bs (97 + 2 * k)
  let spc := bits w0 55 54
  let va := if spc = 0 then bits w0 47 0 else bits w0 17 0
  let space := if spc = 0 then Space.global
    else if spc = 1 then .spad t
    else .spad ((s.placed t (bits w0 41 36) (bits w0 47 42)).getD t)
  { gid := t + bits w1 3 0, role := bits w1 3 0, lane := bits w1 8 4, ord := bits w1 31 9, op := bits w0 50 48, ty := bits w0 59 56, space := space, va := va
    pa := if spc = 0 then (s.xlateNow (coreOf t) x.ctx va .both).pa else 0
    opnd := BitVec.ofNat 32 (w1 / 2 ^ 32), block := x.block, ctx := x.ctx }

/-! ### Restore (R388) -/

/-- What a restore binds: the record, the place, and the stopped team whose storage is used where it stands. -/
structure Restore where
  idx   : Nat
  gid0  : Nat
  place : Place
  image : Nat
  here  : Option Nat

/-- The work of a restored team: a block, or what its pool runs. -/
def restoredWork (s : State) (idx image : Nat) (old : Option Team) : Work :=
  let b := s.bind idx
  match b.kind with
  | 0 => .block
  | 1 => .task idx
  | _ =>
      let lin := match ((nth {} (s.die (bindDie idx)).fronts b.fid).pts.find? fun p => p.saved && p.cimg == image), old with
        | some p, _ => p.lin
        | none, some t => (match t.work with | .point _ _ _ l => l | _ => 0)
        | none, none => 0
      .point idx (bindDie idx) b.fid lin

/-- The team of a restore, from the record and, where the device still holds it, from the team that was stopped. -/
def restoredTeam (s : State) (r : Restore) (h : Header0) (old : Option Team) : Nat × State × Team :=
  let b := s.bind r.idx
  let q := match old with | some t => (t.queue, t.node) | none => (b.queue, b.node)
  let q := if b.kind = 0 then (b.queue, b.node) else q
  let l := s.launchFor b.ctx q.1 q.2
  let w := Tab.get { ctx := 0, queue := 0, node := 0, det := false, blocks := 0 } l.2.launches l.1
  let d : EntryDesc := { vregs := 1, sregs := 0, tiles := h.tiles, accg := h.accg, team := h.groups - 1, cvr := h.cvr, rejd := h.rejd
                         spad := h.spad, barw := h.barw }
  let x : Team := { ctx := b.ctx, ridx := r.idx, work := restoredWork s r.idx r.image old, block := if b.kind = 0 then b.block else 0
                    queue := q.1, node := q.2, launch := l.1
                    cluster := if b.kind = 0 then b.block / (w.h * w.w) else (match old with | some t => t.cluster | none => 2 ^ 32 + s.seqno)
                    pos := if b.kind = 0 then b.block % (w.h * w.w) else 0
                    desc := (match old with | some t => t.desc | none => d), place := r.place, pool := h.pool
                    cvs := (upto 8).map fun _ => {}
                    arrs := (match old with | some t => t.arrs | none => []), lastArr := (match old with | some t => t.lastArr | none => [])
                    handed := (match old with | some t => t.handed | none => []), staged := (match old with | some t => t.staged | none => []) }
  (l.1, { l.2 with seqno := l.2.seqno + 1 }, x)

/-- A sequencer goes on: what remained of its wait for cycles counts from now on (R384). -/
def Seq.wake (x : Seq) (cycle : Nat) : Seq :=
  { x with halted := false, wait := match x.wait with | .cycles n => .cycles (if x.halted then cycle + n else n) | w => w }

/-- A group put back into its paths: stops end, and waits at `commit` hold only while the context is pending (R379). A group that firmware
holds frozen stays so (R419). -/
def State.wakeGroup (s : State) (gid : Nat) : State :=
  let c := (s.ctxOf (s.grp gid).team).committing
  let g := s.grp gid
  let g := { g with
    lanes := g.lanes.map fun n => { n with stopped := false, miss := none, wait := if n.wait == .commit && !c then .run else n.wait }
    seqs := g.seqs.map (·.wake (s.core (coreOf gid)).cycle) }
  if g.trap.frozen.isSome then s.setGrp gid g
  else
    let t := (s.setGrp gid g).barCatch gid
    t.setGrp gid (t.grp gid).clearMarks

/-- A restored group with what the device and firmware keep beside its image while they hold the stopped team: the fault words, so that it stays
frozen on any core (R419), the progress of its transfer, its suppression, and what its handler's return goes by (R372, R379).
(DEDUCED, log entry 54) -/
def Group.keepTrap (g : Group) (old : Option Group) : Group :=
  match old with
  | none => g
  | some o => { g with trap := { o.trap with inh := g.trap.inh, recva := g.trap.recva } }

/-- A core's cached blocks of a context's text are dropped before a team of it is restored there (R78). -/
def State.dropCode (s : State) (core ctx : Nat) : State := s.setCore core { s.core core with ic := (s.core core).ic.filter (·.ctx != ctx) }

/-- A sequencer of a restored team: from the image's words, with what the device keeps beside them where it still holds the stopped team.
(DESIGN CHOICE, log entry 52) -/
def seqOfImage (s : State) (core ctx : Nat) (bs : List Byte) (old : Option Parked) (k q : Nat) : Seq :=
  match old with
  | none => if k = 0 then seqFrom s core ctx bs q else {}
  | some p =>
      let x := nth {} (nth {} p.groups k).seqs q
      if k = forker p.groups then { seqFrom s core ctx bs q with foot := x.foot, eflags := x.eflags } else x

/-- Storage used in place: only the granules saved are read (R385). -/
def State.restoreHere (s : State) (r : Restore) (p : Parked) : State :=
  let sh := shapeOf p.team p.groups
  let key := p.key
  let ld := s.loadGrans p.image key sh ((p.team, p.groups), []) p.saved
  let keep := fun (g o : Group) => ({ g with lanes := o.lanes, seqs := o.seqs, bound := o.bound } : Group).keepTrap (some o)
  let gs := (upto p.groups.length).map fun k => keep (nth {} ld.1.2 k) (nth {} p.groups k)
  let work := if (s.bind r.idx).kind = 2 then restoredWork s r.idx r.image (some p.team) else p.team.work
  let x := { ld.1.1 with place := r.place, ridx := r.idx, stop := none, work := work }
  let s := (s.placeTeam r.gid0 x gs).dropCode (coreOf r.gid0) x.ctx
  let s := (s.renameTeam x.absent r.gid0)
  let s := if p.saved.contains .kst then s.setCore (coreOf r.gid0) { s.core (coreOf r.gid0) with kst := ld.2 } else s
  (rangeFrom r.gid0 gs.length).foldl State.wakeGroup s

/-- A team read from its image (R388). -/
def State.restoreImage (s : State) (r : Restore) (old : Option Parked) : State :=
  let key := (s.bind r.idx).key
  let bs := s.bytesAs key r.image 0x1300
  let h := headerOfImage bs
  let sh := s.imageShape r.image key h
  let ld := restoredTeam s r h (old.map (·.team))
  let x := { ld.2.2 with
    mb := (upto 64).foldl (fun m k => if wordLe bs (32 + k) = 0 then m else Tab.set m k (BitVec.ofNat 64 (wordLe bs (32 + k)))) []
    cvs := (upto 8).map fun n => { cvdef := BitVec.ofNat 64 (wordLe bs (2 + n)) } }
  let blank : List Group := sh.alloc.map fun v => { bound := true, valloc := v }
  let all := ({ gid0 := r.gid0, team := { x with desc := { x.desc with tiles := h.tiles, accg := h.accg, spad := h.spad } }, groups := blank
                image := r.image, key := key, kst := if h.csv then some [] else none } : Parked).all
  let l := s.loadGrans r.image key sh ((x, blank), []) all
  let sched := fun k => if (s.bind r.idx).kind = 0 then (s.bind r.idx).sched k else (r.place.slots.1 + k) % 4
  let core := coreOf r.gid0
  let seqs := fun k => (upto 3).map (seqOfImage s core x.ctx bs old k)
  let gs := (upto l.1.2.length).map fun k =>
    ({ nth {} l.1.2 k with sched := sched k, seqs := seqs k, ev := h.evt } : Group).keepTrap (old.bind fun p => p.groups[k]?)
  let s := (ld.2.1.placeTeam r.gid0 l.1.1 gs).renameTeam l.1.1.absent r.gid0
  let s := if h.csv then s.setCore core { s.core core with kst := l.2 } else s
  let s := s.dropCode core x.ctx
  let s := s.setTeam r.gid0 { s.team r.gid0 with staged := match old with
    | some _ => (s.team r.gid0).staged.map fun e => { e with gid := r.gid0 + e.role }
    | none => (upto h.stage).map (stagedFrom s r.gid0 bs) }
  let s := (upto gs.length).foldl (fun s k =>
    let gid := r.gid0 + k
    let area := s.bytesAs key (r.image + sh.groupOff k + 0x100) 448
    s.setGrp gid ((s.grp gid).mapLanes fun n _ => s.laneOfArea gid n area)) s
  (rangeFrom r.gid0 gs.length).foldl State.wakeGroup s

/-- The stopped team that an image belongs to, for a record of its key: under another key the image reads as zero (R388, R212). -/
def State.parkedImage (s : State) (image key : Nat) : Option Nat := s.parkedWhere fun p => p.image == image && p.key == key

/-- A restore takes place, its storage being free: in place, or after a flush of what is held elsewhere (R385). -/
def State.restoreNow (s : State) (r : Restore) : State :=
  let s := match r.here with
    | some k => (match s.parked[k]? with
        | some p => { s with parked := dropNth s.parked k }.restoreHere r p
        | none => s)
    | none => (match s.parkedImage r.image (s.bind r.idx).key with
        | some k =>
            let u := s.flushParked k
            { u with parked := dropNth u.parked k }.restoreImage r u.parked[k]?
        | none => s.restoreImage r none)
  match (s.team r.gid0).work with
  | .point _ die fid lin => s.mapPoint die fid lin fun y => { y with team := some r.gid0, saved := false }
  | _ => s

/-- The stopped team that a restore through a record finds in the storage it left. -/
def State.parkedHere (s : State) (idx image : Nat) : Option (Nat × Parked) :=
  match s.parkedImage image (s.bind idx).key with
  | none => none
  | some k => match s.parked[k]? with
    | none => none
    | some p =>
        let b := s.bind idx
        if p.team.ctx ≠ b.ctx then none
        else if (b.kind = 0 && p.gid0 == idx && p.team.place == b.place idx) || (b.kind ≠ 0 && p.team.ridx == idx) then some (k, p) else none

/-- The place of a restore; `none` while its storage is in use. -/
def State.restorePlace (s : State) (idx image : Nat) (h : Header0) : Option Restore :=
  let b := s.bind idx
  let free := fun p : Place => !(s.usedOn (bindCore idx)).any (Place.meets p)
  if !s.coreUp (bindCore idx) then none
  else match s.parkedHere idx image with
  | some (k, p) =>
      if free p.team.place then some { idx := idx, gid0 := p.gid0, place := p.team.place, image := image, here := some k }
      else if b.kind = 0 then none
      else (s.poolFit idx h.need).map fun y => { idx := idx, gid0 := 16 * bindCore idx + y.slots.1, place := y, image := image, here := none }
  | none =>
      if b.kind = 0 then
        (if free (b.place idx) then some { idx := idx, gid0 := idx, place := b.place idx, image := image, here := none } else none)
      else (s.poolFit idx h.need).map fun y => { idx := idx, gid0 := 16 * bindCore idx + y.slots.1, place := y, image := image, here := none }

/-- The team header that a restore checks: of the stopped team where the device holds it, else of the image. -/
def State.restoreHeader (s : State) (idx image : Nat) : List Byte :=
  match (s.parkedImage image (s.bind idx).key).bind fun k => s.parked[k]? with
  | some p => teamHeader s p true
  | none => s.bytesAs (s.bind idx).key image 256

/-- The launch that a restored team belongs to. -/
def State.restoreLaunch (s : State) (idx image : Nat) : Nat :=
  match (s.parkedImage image (s.bind idx).key).bind fun k => s.parked[k]? with
  | some p => p.team.launch
  | none => ((s.launchOf (s.bind idx).ctx (s.bind idx).queue (s.bind idx).node)).getD 0

/-! ### Binding a record (R290) -/

/-- A KIND 0 record binds its block where its storage is free or evictable. The descriptor is read anew, and checked as at the commit (R34,
R291). -/
def State.bindBlock (s : State) (idx : Nat) : State :=
  let b := s.bind idx
  match s.bindDesc idx with
  | none => s.refuseBind idx 2
  | some d =>
      let r := s.launchFor b.ctx b.queue b.node
      if d.team ≠ b.gcnt then s.refuseBind idx 2
      else if (b.place idx).short (some d) then s.refuseBind idx 3
      else if (s.usedOn (bindCore idx)).any (Place.meets (b.place idx)) || !r.2.kstFree (bindCore idx) r.1 then s
      else (r.2.bindTeam idx (blockTeam r.2 idx b d r.1) b.pc 0 b.sched []).bindState idx 1 0

/-- A KIND 0 record binds the image that a RESTORE named. -/
def State.bindImage (s : State) (idx image : Nat) : State :=
  match s.restorePlace idx image (headerOfImage (s.restoreHeader idx image)) with
  | none => s
  | some r =>
      if !s.kstFree (bindCore idx) (s.restoreLaunch idx image) then s
      else
        let b := s.bind idx
        ((s.setBind idx { b with restore := none }).bindState idx 1 0).restoreNow r

/-- A record binds: a pool becomes bound, a KIND 0 record places its block or the image of a RESTORE. -/
def State.bindNow (s : State) (idx : Nat) : State :=
  let b := s.bind idx
  if b.kind ≠ 0 then s.bindState idx 1 0
  else match b.restore with
    | some image => s.bindImage idx image
    | none => s.bindBlock idx

/-- BIND_RECORD_BIND (R290, R392): a waiting record that is able to bind. While a record of its die is bound, one of the other mode is
refused; on a free die the lowest record that is able to bind sets the mode, and those of the other mode are refused. (DEDUCED, log entry 39) -/
def State.tryBind (s : State) (idx : Nat) : State :=
  let b := s.bind idx
  let die := s.die (bindDie idx)
  let mode := (s.ctx b.ctx).fixed
  if !b.v || b.st ≠ 0 || die.change.isSome then s
  else if s.dieBusy (bindDie idx) && mode != die.fixed then s.refuseBind idx 6
  else if !s.ableToBind idx then s
  else if s.dieBusy (bindDie idx) then s.bindNow idx
  else if s.lowerMode idx then s.refuseBind idx 6
  else if mode != die.fixed then s.startMode idx
  else s.bindNow idx

def execBindRecordBind (idx : Nat) (s : State) : Out := .next (s.tryBind idx)

/-! ### RESTORE and RESUME (R386) -/

/-- A restore of an image through a record (R388). -/
def State.restoreVia (s : State) (idx image : Nat) (w0 : DWord) : State :=
  let b := s.bind idx
  let bs := s.restoreHeader idx image
  let h := headerOfImage bs
  let known := (s.parkedImage image b.key).isSome
  if !b.v || b.st = 3 || (b.kind = 0 && b.st == 1) || (b.kind ≠ 0 && b.st ≠ 1) then s.ignoreCmd w0
  else if !h.fits b idx || !(known || s.imageZeros image b.key h) then (s.bindState idx 3 3).report "capacity" [idx, 3]
  else if b.kind = 0 then
    ({ (s.bindState idx 0 0).setBind idx { (s.bindState idx 0 0).bind idx with restore := some image, ord := s.seqno } with
        seqno := s.seqno + 1 }).tryBind idx
  else if (s.die (bindDie idx)).shut && b.eclass == 3 then s.report "restore-waits" [idx]
  else match s.restorePlace idx image h with
    | some r => if s.kstFree (bindCore idx) (s.restoreLaunch idx image) then s.restoreNow r else s.report "restore-waits" [idx]
    | none => s.report "restore-waits" [idx]

/-- RESTORE (R388). (DEDUCED, log entry 54) -/
def execRestore (w0 : DWord) (s : State) : Out := .next (s.restoreVia s.cmdIndex (bits w0.toNat 47 12 * 4096) w0)

/-- A stop that has not taken effect is withdrawn; in a speculative context every request is (R339). -/
def State.withdrawStop (s : State) (t : Nat) : State :=
  let x := s.team t
  let c := s.ctx x.ctx
  let mine := fun e : Nat × Team => e.1 == t || (c.spec && e.2.ctx == x.ctx)
  let ts := (s.teams.filter fun e => e.2.bound && mine e).map (·.1)
  let s := if c.spec then s.setCtx x.ctx { c with pending := none } else s
  let s := ts.foldl (fun s t => s.setTeam t { s.team t with stop := none }) s
  ((s.groups.filter fun e => e.2.bound && ts.contains e.2.team).map (·.1)).foldl State.wakeGroup s

/-- RESUME (R386): withdraws a stop, ends a debug halt, or brings a stopped team back. -/
def execResume (w0 : DWord) (s : State) : Out :=
  let t := s.cmdIndex
  if (s.team t).bound then
    let u := if (s.team t).stop.isSome then s.withdrawStop t else s
    .next (u.haltTeam t false)
  else match (s.parkedWhere (·.gid0 == t)).bind fun k => s.parked[k]? with
    | some p => .next (s.restoreVia p.team.ridx p.image w0)
    | none => .next (s.ignoreCmd w0)

end Sys2Proof.Machine
end

