-- ==== Sys2Proof/Machine/Power.lean ====
section
/-!
DEFINITION. Clocks and power: stretched cycles (R390, R394), timing violations (R391), mode changes (R392), the power estimate with the budget
gate and the caps (R292, R393, R394), and the limit of the ticket watchdog (R398).
-/

namespace Sys2Proof.Machine

open Sys2Proof

/-! ### Clocks -/

/-- Stretched cycles of a core are counted; a fixed-timing die has none (R365). -/
def State.stretch (s : State) (core n : Nat) : State :=
  if (s.die (dieOf core)).fixed then s
  else s.setCore core { s.core core with dstretch := ((s.core core).dstretch + n) % 2 ^ 64 }

/-- CYCLE_STRETCH (R390). -/
def execCycleStretch (core : Nat) (s : State) : Out := .next (s.stretch core 1)

/-- The fixed-timing contexts that have a bound team on a die. -/
def State.fixedOn (s : State) (die : Nat) : List Nat :=
  sortNums (((s.teams.filter fun e => e.2.bound && dieOf (coreOf e.1) == die).map (·.2.ctx)).filter fun c => (s.ctx c).fixed)

/-- TIMING_VIOLATION (R391): reported, and firmware ends the fixed-timing contexts on the die. -/
def execTimingViolation (die : Nat) (s : State) : Out :=
  if !(s.die die).fixed then .next s
  else .next ((s.fixedOn die).foldl (fun s c => s.terminateFor c "timing-violation" [die]) (s.report "timing-violation" [die]))

/-- MODE_SWITCH_COMPLETE (R392): after 50 µs the die takes the record's mode, and the record binds. -/
def execModeSwitchComplete (die : Nat) (s : State) : Out :=
  let d := s.die die
  match d.change with
  | none => .next s
  | some (idx, due) =>
      if s.pkg.wtime < due then .next s
      else .next ((s.setDie die { d with fixed := !d.fixed, change := none }).tryBind idx)

/-! ### Power (R393, R394) -/

/-- Whether the gate of a die is shut after an update, in units of 1/16 W (R292). (DEDUCED, log entry 74) -/
def Die.gateAfter (d : Die) (est : Nat) : Bool :=
  if (16 * d.pcap : Int) - 16 * d.margin ≤ est then true
  else if (est : Int) < 16 * d.pcap - 32 * d.margin then false
  else d.shut

/-- POWER_ESTIMATE_UPDATE (R393): every 16 µs. The gate follows the estimate; above the cap an elastic die throttles and a fixed-timing one
reports. (DEDUCED, log entry 74) -/
def execPowerEstimateUpdate (die : Nat) (est : Half) (s : State) : Out :=
  let d := s.die die
  if s.pkg.wtime < d.pnext || 4 ≤ die then .next s
  else
    let p := est.toNat
    let above := decide (16 * d.pcap < p)
    let t := s.setDie die { d with
      pest := p, pnext := d.pnext + 16000, edie := (d.edie + p) % 2 ^ 64, shut := d.gateAfter p, throt := above && !d.fixed }
    .next (if above && d.fixed then t.report "over-cap" [die, p] else t)

/-- The caps of the other dies in sum. -/
def State.otherCaps (s : State) (die : Nat) : Nat := ((upto 4).filter (· != die)).foldl (fun n d => n + (s.die d).pcap) 0

/-- PCAP_WRITE (R393): a cap that would take the sum above 1380 W is ignored and reported. -/
def execPcapWrite (die : Nat) (v : Word) (s : State) : Out :=
  let cap := bits v.toNat 9 0
  if 4 ≤ die then .next s
  else if 1380 < s.otherCaps die + cap then .next (s.report "pcap-ignored" [die, cap])
  else .next (s.setDie die { s.die die with pcap := cap })

/-- TWDOG_WRITE (R398): a limit of 0 stores 100. -/
def execTwdogWrite (v : Word) (s : State) : Out :=
  let n := bits v.toNat 15 0
  .next { s with pkg := { s.pkg with twdog := if n = 0 then 100 else n } }

end Sys2Proof.Machine
end

