-- ==== Sys2Proof/Machine/Boot.lean ====
section
/-!
DEFINITION. Boot (R13, R294, R401, R410 to R415), failures of links, expanders and cores (R13, R25, R410, R411), accesses of peers (R412) and
the installing of keys (R210).
-/

namespace Sys2Proof.Machine

open Sys2Proof

/-! ### Self-test (R294) -/

/-- Rows of a die with the columns that are enabled in each, and those that are spare, ascending: sites by 64·column + row. -/
structure Mapping where
  rows  : List (List Nat)
  spare : List (List Nat)
  deriving DecidableEq, Repr

/-- Step 1: in each physical row of a die the lowest 24 passing columns. -/
def firstMapping (die : Nat) (bad : List Site) : Mapping :=
  let rows := (upto 16).map fun r =>
    let row := 16 * (die / 2) + r
    ((rangeFrom (26 * (die % 2)) 26).filter fun c => !bad.contains ⟨row, c⟩).map fun c => 64 * c + row
  { rows := rows.map (·.take 24), spare := rows.map (·.drop 24) }

/-- The nearest row to `r` that holds a spare site, the lower one at equal distance. -/
def nearestSpare (m : Mapping) (r : Nat) : Option Nat :=
  ((rangeFrom 1 15).flatMap fun d => (if d ≤ r then [r - d] else []) ++ [r + d]).find? fun q => !(nth [] m.spare q).isEmpty

/-- Row `r` borrows up to `n` sites. -/
def borrow (r : Nat) : Nat → Mapping → Mapping
  | 0, m => m
  | n + 1, m => match nearestSpare m r with
    | none => m
    | some q =>
        let c := nth [] m.spare q
        borrow r n { rows := setNth (nth [] m.rows r ++ c.take 1) m.rows r, spare := setNth (c.drop 1) m.spare q }

/-- The mapping of a die. -/
def dieMapping (die : Nat) (bad : List Site) : Mapping :=
  (upto 16).foldl (fun m r => borrow r (24 - (nth [] m.rows r).length) m) (firstMapping die bad)

/-- Logical core numbers of a die with their physical sites (R293, R295). -/
def logicalSites (die : Nat) (m : Mapping) : List (Nat × Nat) :=
  (upto 16).flatMap fun r => (upto (nth [] m.rows r).length).map fun c =>
    (48 * (16 * (die / 2) + r) + 24 * (die % 2) + c, nth 0 (nth [] m.rows r) c)

/-- The state of every site (R295). -/
def siteTable (ms : List Mapping) (bad : List Site) : Tab Nat :=
  (upto 1664).map fun n =>
    let p := 64 * (n % 52) + n / 52
    (n, if bad.contains ⟨n / 52, n % 52⟩ then 2 else if ms.any fun m => m.rows.any (·.contains p) then 0 else 1)

/-- The relocation table in ascending logical core number. -/
def relocation (ms : List Mapping) : Tab Nat :=
  ((upto 4).flatMap fun d => logicalSites d (nth ⟨[], []⟩ ms d)).foldl (fun t e => Tab.set t e.1 e.2) []

/-! ### Boot (R414, R415) -/

/-- Targets of the boot list: at most 8 (R414). (DEDUCED, log entry 75) -/
def bootTargets : Nat := Nat.min 8 (bootMore.length + 1)

/-- Target `n` of the boot list. -/
def bootTarget (n : Nat) : BootTarget := nth bootFirst (bootFirst :: bootMore) n

/-- The ROM begins to fetch the bundle from a target: the management port speaks NVMe/TCP to the target's address (R413, R415).
(DEDUCED, log entry 75) -/
def State.fetchFrom (s : State) (target round : Nat) : State :=
  let x := bootTarget target
  { s with pkg := { s.pkg with boot := .fetch target round } }.report "boot-fetch"
    ([x.v6.toNat, x.ip, x.port, x.nsid, x.lba] ++ x.nqn.map BitVec.toNat)

/-- PACKAGE_RESET (R415): every piece of state is as at reset, memory zeroed; the ROM derives the identity key, self-test maps the sites,
and the fetch from the first target begins. (DESIGN CHOICE, log entry 3; DEDUCED, log entry 75) -/
def execPackageReset (defects : List Site) (s : State) : Out :=
  let ms := (upto 4).map fun d => dieMapping d defects
  .next ({ State.reset with
    agenda := s.agenda, seqno := s.seqno, fresh := s.fresh
    pkg := { idkey := true, l2p := relocation ms, site := siteTable ms defects } }.fetchFrom 0 0)

/-- The SHA-256 of a root key: its bytes are x and then y, big-endian, which no rule gives. (DESIGN CHOICE, log entry 69) -/
def keyHash (b : Bundle) : List Byte := sha256 (beBytes 32 b.keyX ++ beBytes 32 b.keyY)

/-- The bundle verifies against the hash of the root key (R414): its header, its lengths, the key and the signature over the SHA-256 of header and
image. Where the header holds its fields is not given. (DESIGN CHOICE, log entry 69) -/
def bundleGood (root : List Byte) (b : Bundle) : Bool :=
  b.magic == [0x4A#8, 0x42#8, 0x34#8, 0x46#8] && b.version == 1 && b.length ≤ 2 ^ 26 && b.header.length == 64 && b.image.length == b.length
    && b.sig.length == 64 && keyHash b == root
    && ecdsaVerify b.keyX b.keyY (beVal (sha256 (b.header ++ b.image))) (beVal (b.sig.take 32)) (beVal (b.sig.drop 32))

/-- FWHASH: SHA-256 over the bundle as verified (R415). (DESIGN CHOICE, log entry 69) -/
def bundleHash (b : Bundle) : List Byte := sha256 (b.header ++ b.image ++ b.sig)

/-- BUNDLE_FETCH_DONE (R414, R415): of a bundle that verifies the firmware starts, enumerates the expanders, takes its Fledenlink address from the
fabric table and ends Retry Status; after a fetch or a verification that failed the next target is tried. (DEDUCED, log entry 75) -/
def execBundleFetchDone (bundle : Option Bundle) (expanders : List Nat) (s : State) : Out :=
  match s.pkg.boot with
  | .fetch target round =>
      match bundle.filter (bundleGood romKeyHash) with
      | some b =>
        .next { s with pkg := { s.pkg with
          boot := .running, retry := false, fwhash := bundleHash b, faddr := b.faddr % 4096
          expand := (upto 4).map fun p => nth 0 expanders p / 2 ^ 28 * 2 ^ 28 } }
      | none =>
      if target + 1 < bootTargets then .next (s.fetchFrom (target + 1) round)
      else if round < 2 then .next { s with pkg := { s.pkg with boot := .wait round (s.pkg.wtime + 1000000000) } }
      else .next ({ s with pkg := { s.pkg with boot := .halted } }.report "boot-halted" [])
  | _ => .next s

/-- BOOT_RETRY_EXPIRY (R415). -/
def execBootRetryExpiry (s : State) : Out :=
  match s.pkg.boot with
  | .wait round due => if s.pkg.wtime < due then .next s else .next (s.fetchFrom 0 (round + 1))
  | _ => .next s

/-- Events in which firmware acts, or the host or a peer through what firmware has set up (R415). (DEDUCED, log entry 6) -/
def awaitsFirmware : Instr → Bool
  | .registerWrite _ _ | .bindw0Commit _ | .pcapWrite _ _ | .twdogWrite _ | .keyInstall _ _ | .create _ | .destroy | .queue | .rule | .netcfg
  | .attest | .manifest | .map _ _ | .doorbellWrite _ _ _ | .crheadWrite _ _ | .hostApertureRead _ _ | .hostApertureWrite _ _
  | .connectionCommit _ _ | .frontierStart _ _ | .frontierStop _ _ | .frontierSave _ _ | .frontierRestore _ _ | .frontierResume _ _
  | .frontierRelease _ _ | .stop _ | .flush _ | .restore _ | .resume _ | .resumeg _ _ | .forward _ | .commitPointSave _
  | .fledenlinkPeerAccess _ _ _ _ => true
  | _ => false

/-- Firmware runs: of what awaits it only the reading of the identity key does not (R413, R415). -/
def State.firmwareRuns (s : State) : Bool := s.pkg.boot == .running

/-! ### Failures (R13, R25, R410, R411) -/

/-- A job that uses a link ends with STATUS 5 at the first row from those it has come to on whose access the link carries; what comes before that
access has moved (R283, R411). (DEDUCED, log entry 76) -/
def State.linkLost (s : State) (link id : Nat) : State :=
  match Tab.find s.jobs id with
  | none => s
  | some x =>
      let k := cardOf x.words
      if !x.started || x.ended || x.link != some link then s
      else match firstRemote s x k with
        | none => s
        | some (u, va) =>
            let t := s.jobLand id (16 * (u - x.moved))
            let y := (Tab.find t.jobs id).getD x
            if y.ended then t else { t with jobs := Tab.set t.jobs id (y.fail 5 (y.moved / (k.len / 16)) va) }

/-- LINK_FAILURE (R411). (DEDUCED, log entry 76) -/
def execLinkFailure (link : Nat) (s : State) : Out :=
  if 18 ≤ link || s.pkg.links.contains link then .next s
  else
    let t := { s with pkg := { s.pkg with links := s.pkg.links ++ [link] } }
    .next (((Tab.keys t.jobs).foldl (fun u id => u.linkLost link id) t).report "link-failure" [link])

/-- COPY_JOB_COMPLETION (R283): what is left moves, and the job is done. The loss of its link ends its context (R25, R411).
(DEDUCED, log entries 33, 76) -/
def execCopyJobCompletion (job : Nat) (s : State) : Out :=
  match Tab.find s.jobs job with
  | none => .next s
  | some x =>
      let k := cardOf x.words
      if !x.started || !s.reached x.gid x.due x.dueNs || (k.dspc && !(s.team x.tagTeam).bound) then .next s
      else
        let t := s.jobLand job (k.rows * k.len)
        let y := (Tab.find t.jobs job).getD x
        if !y.ended && y.moved < k.rows * (k.len / 16) then .next t
        else .next (if y.status = 5 then (t.jobDone job y).terminateFor y.ctx "link-loss" [y.gid] else t.jobDone job y)

/-- A table of level 3 holds a tier page of an expander. -/
def State.tierInLevel3 (s : State) (table port : Nat) : Bool :=
  (upto 32).any fun i => let e := s.pte table i; s.checkPte 3 e == 0 && bit e 5 && pteBase e / 2 ^ 48 == 4 + port

/-- A table of level 2 does. -/
def State.tierInLevel2 (s : State) (table port : Nat) : Bool :=
  (upto 8192).any fun i =>
    let e := s.pte table i
    s.checkPte 2 e == 0 && (if bit e 1 then bit e 5 && pteBase e / 2 ^ 48 == 4 + port else s.tierInLevel3 (pteBase e) port)

/-- A context holds a tier page on an expander (R410). -/
def State.holdsTier (s : State) (ctx port : Nat) : Bool :=
  (upto 16384).any fun i =>
    let e := s.pte (s.ctx ctx).root i
    s.checkPte 1 e == 0 && s.tierInLevel2 (pteBase e) port

/-- EXPANDER_LOSS (R410): the contexts that hold a tier page on it end. -/
def execExpanderLoss (port : Nat) (s : State) : Out :=
  if 4 ≤ port then .next s
  else
    let cs := (s.ctxs.map (·.1)).filter fun c => s.holdsTier c port
    let t := { s with pkg := { s.pkg with expand := setNth 0 s.pkg.expand port } }
    .next (cs.foldl (fun t c => t.terminateFor c "expander-loss" [port]) (t.report "expander-loss" [port]))

/-- CORE_FAILURE (R13, R295). -/
def execCoreFailure (core : Nat) (s : State) : Out :=
  match Tab.find s.pkg.l2p core with
  | none => .next s
  | some p => .next ({ s with pkg := { s.pkg with down := insertNum p s.pkg.down } }.report "core-failure" [core])

/-! ### Keys and peers (R210, R412) -/

/-- KEY_INSTALL (R210): another pair under an identifier begins a new generation of its lines. -/
def execKeyInstall (key : Nat) (pair : BitVec 512) (s : State) : Out :=
  if 1024 ≤ key then .next s
  else
    let same := match Tab.find s.pkg.keys key with | some k => k.pair == pair | none => false
    if same then .next s
    else .next { s with pkg := { s.pkg with keys := Tab.set s.pkg.keys key ⟨pair, s.pkg.keyGen + 1⟩, keyGen := s.pkg.keyGen + 1 } }

/-- A byte that a peer reads: of backed memory under the identifier that it carries; where nothing is backed the spec states no value, and the byte is
a free one. (DESIGN CHOICE, log entry 34) -/
def State.peerByte (s : State) (key pa : Nat) : Byte :=
  if s.backed pa 1 then s.byteAs key pa else BitVec.ofNat 8 (freeNat (s.fresh + pa))

/-- FLEDENLINK_PEER_ACCESS (R412): performed on this device's memory under the carried identifier. A byte that nothing backs takes no write.
(DESIGN CHOICE, log entry 34) -/
def execFledenlinkPeerAccess (key pa n : Nat) (write : Option (List Byte)) (s : State) : Out :=
  match write with
  | some bs =>
      if s.backed pa bs.length then .next (s.writeUnit key pa bs)
      else .next ((upto bs.length).foldl (fun t i => if s.backed (pa + i) 1 then t.writeUnit key (pa + i) [nth 0#8 bs i] else t) s)
  | none => .next { s with
      pkg := { s.pkg with out := s.pkg.out ++ [(rangeFrom pa n).map (s.peerByte key)] }, fresh := s.fresh + 2 ^ 52 }

end Sys2Proof.Machine
end

