-- ==== Sys2Proof/Machine/Loader.lean ====
section
/-!
DEFINITION. What firmware writes for a context: frames and page-table entries (R202, R405), and the loader's relocation of PLACE fields with the
placed instances of a text section (R71, R293).
-/

namespace Sys2Proof.Machine

open Sys2Proof

/-! ### Frames and tables -/

/-- A range of local memory as self-test leaves it, under firmware's identifier. -/
def State.zeroFrame (s : State) (pa n : Nat) : State :=
  let t := { s with mem := clearCells s.mem pa n, side := s.side.filter fun e => e.1 < pa / 64 || (pa + n) / 64 ≤ e.1 }
  if s.keyGenOf 0 = 0 then t else (rangeFrom (pa / 64) (n / 64)).foldl (fun t l => t.setSide l { gen := s.keyGenOf 0 }) t

/-- A frame of local memory that firmware may give. -/
def State.frameOk (s : State) (pa n : Nat) : Bool := pa % n == 0 && !isCxl pa && s.backed pa n

/-- An entry of a table written by firmware. -/
def State.putPte (s : State) (table i e : Nat) : State := s.writeUnit 0 (table + 8 * i) (leBytes 8 e)

/-- The table that entry `i` of a table names, made from the next free table where it names none; `none` where none is left. -/
def State.tableAt (s : State) (table i size : Nat) (free : List Nat) : Option (Nat × State × List Nat) :=
  let e := s.pte table i
  if bit e 0 then (if bit e 1 then none else some (pteBase e, s, free))
  else match free with
    | [] => none
    | t :: ts => if s.frameOk t size then some (t, (s.zeroFrame t size).putPte table i (t + 1), ts) else none

/-- One leaf put into the tables of a context, with those that are missing. -/
def State.putLeaf (s : State) (ctx va leaf : Nat) (free : List Nat) : Option (State × List Nat) :=
  match s.tableAt (s.ctx ctx).root (bits va 47 34) 65536 free with
  | none => none
  | some (t2, s, free) => match s.tableAt t2 (bits va 33 21) 256 free with
    | none => none
    | some (t3, s, free) => some (s.putPte t3 (bits va 20 16) leaf, free)

/-! ### Relocation records (R71, R293) -/

/-- The loader refuses a record: a reserved KIND, a position outside the cluster, or a logical site that is not mapped. -/
def State.relocRefused (s : State) (h w : Nat) (r : Reloc) : Bool :=
  if r.kind = 1 then !(r.row < h && r.col < w)
  else if r.kind = 2 then !(r.row < 32 && r.col < 48 && (Tab.find s.pkg.l2p (48 * r.row + r.col)).isSome)
  else true

/-- A text section has a record that the loader refuses for a cluster shape. -/
def State.textRefused (s : State) (h w : Nat) : Option Text → Bool
  | none => false
  | some t => t.recs.any (s.relocRefused h w)

/-- ROW and COL of the 128-bit word at an address rewritten (R70): site 64·column + row. (DEDUCED, log entry 62) -/
def State.putPlace (s : State) (ctx va site : Nat) : State :=
  match s.xlateNow ioUnit ctx ((va + 12) % 2 ^ 48) .fetch with
  | .hit pa | .tier pa =>
      let key := (s.ctx ctx).key
      let w := putBits (putBits (leVal (s.bytesAs key pa 2)) 5 0 (site % 64)) 11 6 (site / 64)
      s.writeUnit key pa (leBytes 2 w)
  | _ => s

/-- The absolute fields of a text section rewritten from the relocation table. (DEDUCED, log entry 62) -/
def State.relocate (s : State) (ctx : Nat) (t : Text) : State :=
  (t.recs.filter (·.kind == 2)).foldl (fun s r => s.putPlace ctx (t.base + r.off) ((Tab.find s.pkg.l2p (48 * r.row + r.col)).getD 0)) s

/-! ### Placed instances (R71) -/

/-- A page of the section holds a cluster-relative field. -/
def pageRelative (t : Text) (page : Nat) : Bool := t.recs.any fun r => r.kind == 1 && (t.base + r.off + 12) / 65536 == page

/-- The leaf of 64 KiB that maps what a translation maps at a page. -/
def TlbE.leaf (e : TlbE) (base : Nat) : Nat := base + e.tier.toNat * 2 ^ 5 + e.x.toNat * 2 ^ 4 + e.w.toNat * 2 ^ 3 + e.r.toNat * 2 ^ 2 + 2 + 1

/-- Pages of the section mapped again, `d` pages on: a page with a cluster-relative field from a copy in the next frame, every other one as it
stands. `none` where a page is not mapped, or a frame is missing. -/
def State.copyPages (ctx : Nat) (t : Text) (d : Int) : List Nat → State → List Nat → List Nat → Option State
  | [], s, _, _ => some s
  | p :: ps, s, frames, tables =>
      match s.walk ctx (65536 * p) with
      | .error _ => none
      | .ok e =>
          let va := ((65536 * (p + d)) % 2 ^ 48).toNat
          let key := (s.ctx ctx).key
          let old := e.addr (65536 * p)
          let go := fun (s : State) (base : Nat) (frames : List Nat) => match s.putLeaf ctx va (e.leaf base) tables with
            | none => none
            | some r => State.copyPages ctx t d ps r.1 frames r.2
          if pageRelative t p then
            (match frames with
             | [] => none
             | f :: fs => if s.frameOk f 65536 then go (s.writeLines key f 1024 fun l => s.bytesAs key (old + 64 * l) 64) f fs else none)
          else go s old frames

/-- The cluster-relative fields of an instance written for the sites of its cluster (R71, R388). (DEDUCED, log entry 62) -/
def State.rewrite (s : State) (ctx w : Nat) (t : Text) (x : Placed) : State :=
  (t.recs.filter (·.kind == 1)).foldl (fun u r => u.putPlace ctx (x.base + r.off) (nth 0 x.sites (r.row * w + r.col))) s

/-- Firmware notes an instance of a text section, or the new sites of one, for the launches whose tasks or points run in it. (DEDUCED, log entry 62) -/
def State.noteInst (s : State) (ctx : Nat) (t : Text) (x : Placed) : State :=
  { s with launches := s.launches.map fun e =>
      if e.2.ctx == ctx && e.2.text == some t then (e.1, { e.2 with insts := e.2.insts.filter (·.base != x.base) ++ [x] }) else e }

/-- An instance made: its pages, and the cluster-relative fields of its copies for the sites of its cluster. (DEDUCED, log entry 62) -/
def State.place (s : State) (ctx w : Nat) (t : Text) (x : Placed) : Option State :=
  let first := t.base / 65536
  let pages := rangeFrom first ((t.base + t.size - 1) / 65536 + 1 - first)
  if x.base % 65536 ≠ t.base % 65536 || t.size = 0 then none
  else (State.copyPages ctx t ((x.base / 65536 : Nat) - first) pages s x.frames x.tables).map fun u =>
    (u.setCtx ctx { u.ctx ctx with tables := (u.ctx ctx).tables ++ x.tables }).rewrite ctx w t x

/-- The instances of a node's text made one after another. -/
def State.placeAll (ctx w : Nat) (t : Option Text) : List Placed → State → Option State
  | [], s => some s
  | x :: xs, s => match t with
    | none => none
    | some y => match s.place ctx w y x with
      | none => none
      | some u => State.placeAll ctx w t xs u

end Sys2Proof.Machine
end

