-- ==== Sys2Proof/Machine/Command.lean ====
section
/-!
DEFINITION. The command processor: entries and their checks (R259 to R261), launch graphs (R262 to R265), process groups (R300, R301), task
pools (R45) and completion records (R408).
-/

namespace Sys2Proof.Machine

open Sys2Proof

/-! ### Queues and entries -/

def State.queue (s : State) (c q : Nat) : Queue := Tab.get {} (s.ctx c).queues q
def State.setQueue (s : State) (c q : Nat) (y : Queue) : State := s.setCtx c { s.ctx c with queues := Tab.set (s.ctx c).queues q y }

/-- Word `n` of the running entry. -/
def Queue.word (y : Queue) (n : Nat) : Nat := (nth 0#64 y.words n).toNat

/-- Words of bytes read. -/
def dwords (bs : List Byte) (n : Nat) : List DWord := (upto n).map fun k => BitVec.ofNat 64 (wordLe bs k)

/-- A reserved command, a nonzero Z field, or a graph of no nodes (R259, R261). -/
def entryBad (w : List Nat) : Bool :=
  let w0 := nth 0 w 0
  let w2 := nth 0 w 2
  let cmd := bits w0 7 0
  cmd == 0 || decide (3 < cmd) || bits w0 31 8 != 0 || bits (nth 0 w 1) 63 48 != 0 || (w.drop 3).any (· != 0)
    || (cmd == 1 && (bits w2 63 32 != 0 || bits w2 15 0 == 0)) || (cmd != 1 && nth 0 w 1 != 0) || (cmd == 3 && w2 != 0)

/-- The entry has failed at a node; it completes once no node runs (R261). -/
def Queue.failAt (y : Queue) (status node : Nat) : Queue := { y with fail := some (y.fail.getD (status, node)), backs := [] }

/-- COMMAND_ENTRY_START (R260, R407): the entry at the head is read. Of one that cannot be read the spec gives neither STATUS nor tag: it
fails with 0x0B and a free tag. (DESIGN CHOICE, log entry 57) -/
def execCommandEntryStart (ctx q : Nat) (s : State) : Out :=
  let y := s.queue ctx q
  if !(s.ctx ctx).live || !y.set || y.stopped || y.cmd ≠ 0 || y.head = y.tail then .next s
  else
    let z : Queue := { y with head := (y.head + 1) % 2 ^ 32, nodes := [], iters := 0, backs := [], fail := none, done := false }
    match s.readVirt ioUnit ctx ((y.ring + 64 * (y.head % 2 ^ y.log)) % 2 ^ 48) 64 with
    | .error code =>
        let w := BitVec.ofNat 64 (freeNat s.fresh * 2 ^ 32)
        let t := { s with fresh := s.fresh + 1 }.report "entry-unreadable" [ctx, q, code]
        .next (t.setQueue ctx q ({ z with cmd := 0xFF, words := [w] }.failAt 0x0B 0).finish)
    | .ok bs =>
        let w := dwords bs 8
        if entryBad (w.map (·.toNat)) then .next (s.setQueue ctx q ({ z with cmd := 0xFF, words := w }.failAt 1 0).finish)
        else .next (s.setQueue ctx q { z with cmd := bits (wordLe bs 0) 7 0, words := w })

/-- CMD_WAIT (R260): completes once the named queue has completed the sequence number. -/
def execCmdWait (ctx q : Nat) (s : State) : Out :=
  let y := s.queue ctx q
  if y.cmd ≠ 2 || y.done || (s.queue ctx (bits (y.word 2) 3 0)).seq < bits (y.word 2) 63 4 then .next s
  else .next (s.setQueue ctx q y.finish)

/-- CMD_MARKER (R260). -/
def execCmdMarker (ctx q : Nat) (s : State) : Out :=
  let y := s.queue ctx q
  if y.cmd ≠ 3 || y.done then .next s else .next (s.setQueue ctx q y.finish)

/-! ### Node records (R262) -/

def Node.word (n : Node) (k : Nat) : Nat := (nth 0#64 n.words k).toNat
def Node.npred (n : Node) : Nat := bits (n.word 0) 23 16
def Node.cond (n : Node) : Nat := bits (n.word 0) 11 8
def Node.kind (n : Node) : Nat := bits (n.word 0) 3 0
def Node.desc (n : Node) : Nat := bits (n.word 1) 47 0
def Node.rinit (n : Node) : Word := BitVec.ofNat 32 (n.word 2 / 2 ^ 32)
def Node.succ1 (n : Node) : Nat := bits (n.word 2) 31 16
def Node.succ0 (n : Node) : Nat := bits (n.word 2) 15 0
def Node.ntask (n : Node) : Nat := bits (n.word 3) 31 0

/-- A successor index of a graph of `n` nodes. -/
def succGood (n x : Nat) : Bool := x < n || x == 0xFFFF

/-- A node record of eight words is well formed (R261). -/
def nodeGood (n : Nat) (w : List Nat) : Bool :=
  let w0 := nth 0 w 0
  let w1 := nth 0 w 1
  let w3 := nth 0 w 3
  let kind := bits w0 3 0
  kind ≤ 3 && bits w0 11 8 ≤ 4 && bits w0 7 4 ≤ 5 && bits w0 31 24 == 0 && bits w0 15 12 == 0 && bits w1 63 48 == 0
    && (kind != 3 || w1 == 0) && bits w3 63 32 == 0 && (kind == 2 || w3 == 0) && (w.drop 4).all (· == 0)
    && succGood n (bits (nth 0 w 2) 15 0) && succGood n (bits (nth 0 w 2) 31 16)

/-- Whether a node's condition holds on its result word (R262, R264). -/
def Node.holds (n : Node) : Bool :=
  let k := n.word 0 / 2 ^ 32
  let r := n.r.toNat
  match n.cond with
  | 1 => r == k | 2 => r != k | 3 => decide (r < k) | 4 => decide (k ≤ r) | _ => true

/-! ### Descriptors (R263, R306) -/

/-- A grid descriptor. -/
structure Grid where
  pc  : Nat
  w   : Nat
  h   : Nat
  z   : Nat
  y   : Nat
  x   : Nat
  pgt : Nat
  deriving DecidableEq, Repr

def gridOf (bs : List Byte) : Grid :=
  let w1 := wordLe bs 1
  { pc := bits (wordLe bs 0) 47 0, w := bits w1 46 44, h := bits w1 43 41, z := bits w1 40 32, y := bits w1 31 16, x := bits w1 15 0
    pgt := bits (wordLe bs 2) 47 0 }

/-- A cluster shape of R30. -/
def shapeGood (h w : Nat) : Bool := 1 ≤ h && h ≤ 4 && 1 ≤ w && w ≤ 4 && (h < 4 || w < 4)

/-- Blocks of a grid (R29). -/
def Grid.blocks (g : Grid) : Nat := g.x * g.y * g.z * g.h * g.w

/-- The STATUS that a grid descriptor meets first, 0 for none, with the descriptor (R261). (DEDUCED, log entries 59, 62) -/
def State.gridCheck (s : State) (ctx va : Nat) : Nat × Grid :=
  match s.readVirt ioUnit ctx va 32 with
  | .error _ => (0x0B, gridOf [])
  | .ok bs =>
      let g := gridOf bs
      match s.readDesc ioUnit ctx g.pc with
      | .error _ => (0x0B, g)
      | .ok d =>
          (if !shapeGood g.h g.w then 3
           else if g.x = 0 || g.y = 0 || g.z = 0 || 256 < g.z || 2 ^ 32 ≤ g.blocks then 4
           else if d.isNone then 5 else 0, g)

/-- The STATUS that a frontier descriptor meets first, with its words (R261, R307). (DEDUCED, log entry 59) -/
def State.frontCheck (s : State) (ctx va : Nat) : Nat × List DWord :=
  match s.readVirt ioUnit ctx va 64 with
  | .error _ => (0x0B, [])
  | .ok bs =>
      let w := dwords bs 8
      match s.readDesc ioUnit ctx (bits (wordLe bs 0) 47 0) with
      | .error _ => (0x0B, w)
      | .ok none => (5, w)
      | .ok (some d) => (if va % 64 ≠ 0 || !frontWordsGood (w.map (·.toNat)) || d.team ≠ 0 then 9 else 0, w)

/-- The last row of the longest part from row `a` on that fits a slot, from `b` downwards. (DEDUCED, log entry 61) -/
def lastFit (v : Sweep) (a : Nat) : Nat → Nat → Option Nat
  | 0, _ => none
  | n + 1, b => if v.partFits a b then some b else lastFit v a n (b - 1)

/-- The rows from `a` on can be split into `n` parts (R316). (DEDUCED, log entry 61) -/
def splits (v : Sweep) : Nat → Nat → Bool
  | 0, a => v.nrows ≤ a
  | n + 1, a =>
      v.nrows ≤ a || (match lastFit v a 4096 (Nat.min (a + 4095) (v.nrows - 1)) with
        | some b => splits v n (b + 1)
        | none => false)

/-- Words of a task record: the entry PC and eight arguments (R45). Bits 63:48 of the entry PC's word are ignored: the spec does not say what a
nonzero value there does. (DESIGN CHOICE, log entry 98) -/
def State.taskRecord (s : State) (ctx va : Nat) : Except Nat (Nat × List Word) :=
  match s.readVirt ioUnit ctx (va % 2 ^ 48) 40 with
  | .error c => .error c
  | .ok bs => .ok (bits (wordLe bs 0) 47 0, (upto 8).map fun n => BitVec.ofNat 32 (leVal ((bs.drop (8 + 4 * n)).take 4)))

/-- The STATUS that a record of a task pool meets, 0 for none. -/
def State.taskCheck (s : State) (ctx va : Nat) : Nat :=
  match s.taskRecord ctx va with
  | .error _ => 0x0B
  | .ok (pc, _) => match s.readDesc ioUnit ctx pc with
    | .error _ => 0x0B
    | .ok none => 5
    | .ok (some _) => 0

/-- The first STATUS other than 0 of the records of a pool. (DEDUCED, log entry 59) -/
def State.poolCheck (s : State) (ctx va n : Nat) : Nat :=
  ((upto n).findSome? fun k => let c := s.taskCheck ctx (va + 40 * k); if c = 0 then none else some c).getD 0

/-- The STATUS of a node at the start of the graph (R261), 0x06 of its relocation in its place (R71); a frontier launch of an entry that declares no
frontier has no descriptor to be read, and is refused (R306). (DEDUCED, log entry 62) -/
def State.nodeCheck (s : State) (ctx : Nat) (n : Node) : Nat :=
  match n.kind with
  | 0 =>
      let c := s.gridCheck ctx n.desc
      if c.1 ≠ 0 then c.1 else if s.textRefused c.2.h c.2.w n.text then 6 else 0
  | 1 =>
      let c := (s.frontCheck ctx n.desc).1
      if n.text.any fun t => !t.front then 9
      else if (c = 0 || c = 9) && s.textRefused 1 1 n.text then 6 else c
  | _ => if s.textRefused 1 1 n.text then 6 else 0

/-! ### The graph as it goes on (R264) -/

/-- A node of the running graph. -/
def Queue.node (y : Queue) (n : Nat) : Node := nth {} y.nodes n
def Queue.setNode (y : Queue) (n : Nat) (x : Node) : Queue := { y with nodes := setNth x y.nodes n }

/-- A node has received the arrivals that start it; one that has run or been skipped starts only by a back edge. (DESIGN CHOICE, log entry 109) -/
def Node.startable (n : Node) : Bool := n.st == 0 && n.npred ≤ n.taken + n.skipped

/-- An arrival at a successor: a forward one is counted, a taken back edge waits, a skipped one has no effect (DEDUCED, log entry 58). At a node that
has run or been skipped a forward one is counted too, and starts nothing: the spec says nothing of it. (DESIGN CHOICE, log entry 109) -/
def Queue.arrive (y : Queue) (src dst : Nat) (taken : Bool) : Queue :=
  if dst = 0xFFFF then y
  else if dst ≤ src then (if taken then { y with backs := y.backs ++ [(src, dst)] } else y)
  else
    let n := y.node dst
    y.setNode dst (if taken then { n with taken := n.taken + 1 } else { n with skipped := n.skipped + 1 })

/-- A node between target and source of a back edge that is taken: its arrivals are cleared, and it may start again; the target starts.
(DEDUCED, log entry 58) -/
def Node.again (n : Node) (target : Bool) : Node :=
  if target then { n with st := 0, taken := n.npred, skipped := 0 }
  else { n with st := if n.npred = 0 then n.st else 0, taken := 0, skipped := 0 }

/-- A taken back edge once no node between its ends runs; else it waits on. (DEDUCED, log entry 58) -/
def Queue.runBack (y : Queue) (e : Nat × Nat) : Queue :=
  if y.fail.isSome then y
  else if (rangeFrom e.2 (e.1 + 1 - e.2)).any fun n => (y.node n).st == 1 then { y with backs := y.backs ++ [e] }
  else if bits (y.word 2) 31 16 < y.iters + 1 then y.failAt 7 e.1
  else { y with
    iters := y.iters + 1
    nodes := (upto y.nodes.length).map fun n => if e.2 ≤ n && n ≤ e.1 then (y.node n).again (n == e.2) else y.node n }

/-- The graph's end: no node runs, and no arrival can start one; a failed entry ends once no node runs. (DEDUCED, log entry 58) -/
def Queue.settle (y : Queue) : Queue :=
  let z := y.backs.foldl Queue.runBack { y with backs := [] }
  if z.done || z.nodes.any (·.st == 1) then z
  else if z.fail.isSome || (z.backs.isEmpty && !z.nodes.any Node.startable) then z.finish
  else z

/-- CMD_GRAPH (R260, R261): the node records are read and checked, then the descriptors of grid and frontier nodes and the relocation of every node's
text, whose absolute fields are rewritten (R71). (DEDUCED, log entry 62) -/
def execCmdGraph (ctx q : Nat) (texts : List (Nat × Text)) (s : State) : Out :=
  let y := s.queue ctx q
  if y.cmd ≠ 1 || y.done || !y.nodes.isEmpty then .next s
  else
    let n := bits (y.word 2) 15 0
    let rec8 := fun k => s.readVirt ioUnit ctx ((bits (y.word 1) 47 0 + 64 * k) % 2 ^ 48) 64
    let words := fun k => match rec8 k with | .ok bs => dwords bs 8 | .error _ => []
    let fail := fun (st k : Nat) => Host.Outcome.next (s.setQueue ctx q (y.failAt st k).finish)
    match (upto n).find? fun k => (match rec8 k with | .error _ => true | .ok _ => false) with
    | some k => .next ((s.setQueue ctx q (y.failAt 0x0B k).finish).report "record-unreadable" [ctx, q, k])
    | none => match (upto n).find? fun k => !nodeGood n ((words k).map (·.toNat)) with
      | some k => fail 2 k
      | none =>
          let nodes := (upto n).map fun k => ({ words := (words k).take 4, text := Tab.find texts k } : Node)
          match (upto n).find? fun k => s.nodeCheck ctx (nth {} nodes k) != 0 with
          | some k =>
              let st := s.nodeCheck ctx (nth {} nodes k)
              if st = 0x0B then .next ((s.setQueue ctx q (y.failAt st k).finish).report "record-unreadable" [ctx, q, k]) else fail st k
          | none =>
              let u := (nodes.filterMap (·.text)).foldl (fun u t => u.relocate ctx t) s
              .next (u.setQueue ctx q { y with nodes := nodes }.settle)

/-! ### Process groups (R300, R301) -/

/-- An entry of a process-group table. -/
structure Rank where
  z     : Bool
  faddr : Nat
  bcnt  : Nat
  first : Nat
  peers : List Nat
  deriving DecidableEq, Repr

def rankOf (bs : List Byte) : Rank :=
  let ngh := (upto 6).map fun n => bits (wordLe bs (2 + n / 4)) (16 * (n % 4) + 15) (16 * (n % 4))
  { z := bits (wordLe bs 0) 63 12 == 0 && bits (wordLe bs 3) 63 32 == 0 && ngh.all fun x => bits x 14 12 == 0
    faddr := bits (wordLe bs 0) 11 0, bcnt := bits (wordLe bs 1) 63 32, first := bits (wordLe bs 1) 31 0
    peers := (ngh.filter fun x => bit x 15).map fun x => bits x 11 0 }

/-- Shares follow one another from a block on and end at a count. -/
def sharesGood (blocks : Nat) : Nat → List Rank → Bool
  | a, [] => a == blocks
  | a, r :: rs => r.first == a && sharesGood blocks (a + r.bcnt) rs

/-- The share of this device in a process-group table: first block and count; `none` where the table is refused. (DEDUCED, log entry 59) -/
def State.share (s : State) (ctx pgt blocks : Nat) : Option (Nat × Nat) :=
  match s.readVirt ioUnit ctx pgt 32 with
  | .error _ => none
  | .ok hd =>
      let n := bits (wordLe hd 0) 12 0
      if bits (wordLe hd 0) 63 13 ≠ 0 || wordLe hd 1 ≠ 0 || wordLe hd 2 ≠ 0 || wordLe hd 3 ≠ 0 || n = 0 || 4096 < n then none
      else match s.readVirt ioUnit ctx ((pgt + 32) % 2 ^ 48) (32 * n) with
        | .error _ => none
        | .ok bs =>
            let rs := (upto n).map fun i => rankOf (bs.drop (32 * i))
            let own := rs.filter fun r => r.faddr == s.pkg.faddr
            if rs.all (fun r => r.z && r.peers.all (· < n)) && sharesGood blocks 0 rs then
              (match own with
               | [r] => some (r.first, r.bcnt)
               | _ => none)
            else none

/-! ### Task pools (R264) -/

/-- The die whose queue takes the next record of a pool: a free choice among those with room. (DEDUCED, log entry 60) -/
def State.taskDie (s : State) : Option Nat :=
  let room := (upto 4).filter fun d => (s.die d).tasks.length < 4096
  room[freeNat s.fresh % room.length]?

/-- The records of a pool that have not been queued are queued where there is room. (DEDUCED, log entry 60) -/
def State.feed (ctx q n : Nat) : Nat → State → State
  | 0, s => s
  | fuel + 1, s =>
      let x := s.node ctx q n
      if x.kind ≠ 2 || x.st ≠ 1 || x.ntask ≤ x.queued then s
      else match s.taskDie with
        | none => s
        | some d =>
            match s.taskRecord ctx (x.desc + 40 * x.queued) with
            | .error _ =>
                let t := s.mapNode ctx q n fun z => { z with queued := z.ntask }
                (t.setQueue ctx q ((t.queue ctx q).failAt 0x0B n)).report "record-unreadable" [ctx, q, n]
            | .ok (pc, args) =>
                let t := s.setDie d { s.die d with tasks := (s.die d).tasks ++
                  [{ ctx := ctx, queue := q, node := n, launch := x.launch, pc := pc, args := args, depth := 0 }] }
                State.feed ctx q n fuel ({ t with fresh := t.fresh + 1 }.mapNode ctx q n fun z => { z with queued := z.queued + 1 })

/-- The pools of every running graph, by context, queue and node. -/
def State.pools (s : State) : List (Nat × Nat × Nat) :=
  s.ctxs.flatMap fun c => c.2.queues.flatMap fun q =>
    ((upto q.2.nodes.length).filter fun n => (q.2.node n).kind == 2 && (q.2.node n).st == 1 && (q.2.node n).queued < (q.2.node n).ntask).map
      fun n => (c.1, q.1, n)

/-- Every pool is fed. -/
def State.feedAll (s : State) : State := s.pools.foldl (fun s p => s.feed p.1 p.2.1 p.2.2 16384) s

/-- The fired points of a die that dispatch has not bound, by slot and linear index (R315). -/
def State.waitingPoints (s : State) (die : Nat) : List (Nat × Nat) :=
  (upto 16).flatMap fun k => ((s.front die k).pts.filter fun p => p.team.isNone && !p.ended && !p.saved).map fun p => (k, p.lin)

/-- A fired point bound as a one-group task in a frontier pool (R52, R315). One whose entry descriptor can no longer be read when it is to be bound, is
refused, or has TEAM other than 0 stays unbound and in flight. (DESIGN CHOICE, log entry 41) -/
def State.bindPoint (s : State) (die fid lin : Nat) : State :=
  let x := s.front die fid
  let pc := bits (nth 0#64 x.words 0).toNat 47 0
  match s.readDesc ioUnit x.ctx pc with
  | .ok (some d) =>
      (match (if d.team = 0 then s.poolFor die 2 x.ctx fid x.launch d else none) with
       | none => s
       | some (idx, p) =>
           let c := x.sweep.coords lin
           let arg := fun k => BitVec.ofNat 32 ((nth 0#64 x.words (3 + k / 2)).toNat / 2 ^ (32 * (k % 2)))
           let args := [BitVec.ofNat 32 c.1, BitVec.ofNat 32 c.2.1, BitVec.ofNat 32 c.2.2] ++ (upto 5).map arg
           let t : Team := { ctx := x.ctx, work := .point idx die fid lin, queue := x.queue, node := x.node, launch := x.launch, desc := d }
           let gid := 16 * bindCore idx + p.slots.1
           (s.bindPool idx t p (s.entryOn x.launch (bindCore idx) pc) 0 args).mapPoint die fid lin fun y => { y with team := some gid })
  | _ => s

/-- TASK_DISPATCH (R45, R315): task `k` of a die's queue is bound where a pool can hold it; after the queued tasks come the fired points that
wait for a pool. Records of pools that had found no room are queued where there is some. (DESIGN CHOICE, log entry 41) -/
def execTaskDispatch (die k : Nat) (s : State) : Out :=
  match (s.die die).tasks[k]? with
  | none => match (s.waitingPoints die)[k - (s.die die).tasks.length]? with
    | some p => .next (s.bindPoint die p.1 p.2).feedAll
    | none => .next s.feedAll
  | some t =>
      match s.readDesc ioUnit t.ctx t.pc with
      | .ok (some d) =>
          match s.poolFor die 1 t.ctx 0 t.launch d with
          | none => .next s.feedAll
          | some (idx, p) =>
              let x : Team := { ctx := t.ctx, work := .task idx, queue := t.queue, node := t.node, launch := t.launch, desc := d }
              let s := s.setDie die { s.die die with tasks := dropNth (s.die die).tasks k }
              .next (s.bindPool idx x p (s.entryOn t.launch (bindCore idx) t.pc) t.depth t.args).feedAll
      | _ => .next s.feedAll

/-! ### NODE_START (R264) -/

/-- The context without the tensor entries that the dies keep for a node (R298). -/
def Ctx.dropEntries (x : Ctx) (q n : Nat) : Ctx := { x with ttent := x.ttent.filter fun e => e.1 / ttKey 0 1 0 0 != q * 65536 + n }

/-- What a node's start does: its first uses read the tensor entries anew, and the table as it stands is noted (R298). -/
def State.beginNode (s : State) (ctx q n : Nat) : State :=
  let x := s.ctx ctx
  let table := match s.readVirt ioUnit ctx x.ttbase 131072 with | .ok bs => bs | .error _ => []
  s.setCtx ctx { x.dropEntries q n with started := true, tthash := table }

/-- A new launch of a node. -/
def State.newLaunch (s : State) (l : Launch) : Nat × State :=
  (s.seqno + 1, { s with launches := Tab.set s.launches (s.seqno + 1) l, seqno := s.seqno + 2 })

/-- A node fails at its start (R261). -/
def State.failNode (s : State) (ctx q n status : Nat) : State :=
  let y := s.queue ctx q
  let t := s.setQueue ctx q ((y.setNode n { y.node n with st := 2 }).failAt status n).settle
  if status = 0x0B then t.report "record-unreadable" [ctx, q, n] else t

/-- A node runs: its result word is set, and its launch exists. -/
def State.runNode (s : State) (ctx q n left : Nat) (l : Launch) (more : List DWord) : State :=
  let r := (s.beginNode ctx q n).newLaunch l
  let y := r.2.queue ctx q
  let x := y.node n
  r.2.setQueue ctx q (y.setNode n { x with
    st := 1, r := x.rinit, left := left, launch := r.1, queued := 0, words := x.words.take 4 ++ more })

/-- A skipped node sends a skipped arrival to each successor. -/
def Queue.skip (y : Queue) (n : Nat) : Queue :=
  let x := y.node n
  ((((y.setNode n { x with st := 2 }).arrive n x.succ0 false)).arrive n x.succ1 false).settle

/-- A grid node starts its share of the blocks, once firmware has placed the instances of its text; `none` where it has not found their frames. -/
def State.startGrid (s : State) (ctx q n : Nat) (insts : List Placed) : Option State :=
  let x := (s.queue ctx q).node n
  let c := s.gridCheck ctx x.desc
  if c.1 ≠ 0 then some (s.failNode ctx q n c.1)
  else
    let g := c.2
    match (if g.pgt = 0 then some (0, g.blocks) else s.share ctx g.pgt g.blocks) with
    | none => some (s.failNode ctx q n 0x0A)
    | some (first, count) =>
        (State.placeAll ctx g.w x.text insts s).map fun u => u.runNode ctx q n count
          { ctx := ctx, queue := q, node := n, det := bit (s.ctx ctx).mode 1, blocks := count, first := first, holder := first
            w := g.w, h := g.h, x := g.x, y := g.y, pc := g.pc, text := x.text, insts := insts } []

/-- A frontier or task node runs, once firmware has placed the instances of its text (R71); `none` where it has not found their frames. -/
def State.startTasks (s : State) (ctx q n left : Nat) (insts : List Placed) (more : List DWord) : Option State :=
  let x := (s.queue ctx q).node n
  (State.placeAll ctx 1 x.text insts s).map fun u => u.runNode ctx q n left
    { ctx := ctx, queue := q, node := n, det := bit (s.ctx ctx).mode 1, blocks := 0, text := x.text, insts := insts } more

/-- NODE_START (R264). (DEDUCED, log entry 61) -/
def execNodeStart (ctx q node : Nat) (insts : List Placed) (s : State) : Out :=
  let y := s.queue ctx q
  let x := y.node node
  if y.cmd ≠ 1 || y.done || y.fail.isSome || y.nodes.length ≤ node || !x.startable then .next s
  else if 0 < x.npred && x.taken = 0 then .next (s.setQueue ctx q (y.skip node))
  else match x.kind with
    | 0 => .next ((s.startGrid ctx q node insts).getD s)
    | 1 =>
        let c := s.frontCheck ctx x.desc
        let v := sweepOf (nth 0#64 c.2 1).toNat (nth 0#64 c.2 2).toNat
        if c.1 ≠ 0 then .next (s.failNode ctx q node c.1)
        else if !splits v 4 0 then .next (s.failNode ctx q node 9)
        else .next ((s.startTasks ctx q node v.nrows insts (c.2.take 6)).getD s)
    | 2 =>
        let c := s.poolCheck ctx x.desc x.ntask
        if c ≠ 0 then .next (s.failNode ctx q node c)
        else .next (((s.startTasks ctx q node 0 insts []).map fun t => t.feed ctx q node 16384).getD s)
    | _ => .next ((s.startTasks ctx q node 0 insts []).getD s)

/-! ### NODE_COMPLETION (R264, R265) -/

/-- Nothing of a launch is left: no task, team, stopped team, job, point or held work. -/
def State.launchQuiet (s : State) (ctx q n k : Nat) : Bool :=
  !s.dies.any (fun d => d.tasks.any (·.launch == k) || d.fronts.any fun f => f.launch == k && !f.pts.isEmpty)
    && !s.teams.any (fun e => e.2.bound && e.2.launch == k) && !s.parked.any (fun p => p.team.launch == k)
    && !s.jobs.any (fun e => e.2.ctx == ctx && e.2.queue == q && e.2.node == n) && !s.ticketWork k

/-- A running node has done its work. (DEDUCED, log entry 60) -/
def State.nodeDone (s : State) (ctx q n : Nat) : Bool :=
  let x := s.node ctx q n
  x.st == 1 && x.left == 0 && (x.kind != 2 || x.queued == x.ntask) && s.launchQuiet ctx q n x.launch

/-- The arrivals that a completed node sends, unless the entry has failed. -/
def Queue.branch (y : Queue) (n : Nat) : Queue :=
  let x := y.node n
  let z := y.setNode n { x with st := 2 }
  if y.fail.isSome then z.settle
  else ((z.arrive n x.succ0 x.holds).arrive n x.succ1 (!x.holds)).settle

/-- NODE_COMPLETION (R264); the dies keep the node's tensor entries no longer (R298). -/
def execNodeCompletion (ctx q node : Nat) (s : State) : Out :=
  if !s.nodeDone ctx q node then .next s
  else
    let k := (s.node ctx q node).launch
    let t := (s.setQueue ctx q ((s.queue ctx q).branch node)).dropIdle k
    .next (t.setCtx ctx ((t.ctx ctx).dropEntries q node))

/-! ### Completion records (R261, R408) -/

/-- The bytes of a completion record. -/
def recordOf (y : Queue) : List Byte :=
  let f := y.fail.getD (0, 0)
  leBytes 8 y.seq ++ leBytes 4 (y.word 0 / 2 ^ 32) ++ leBytes 1 f.1 ++ leBytes 2 f.2 ++ [0#8]

/-- Room in the completion ring of a context. -/
def Ctx.ringRoom (c : Ctx) : Bool := (c.crtail + 2 ^ 32 - c.crhead) % 2 ^ 32 < 2 ^ (8 + c.crlog)

/-- The record of a completed entry is written where the ring has room; a write that faults is reported and the record is lost.
(DESIGN CHOICE, log entry 63) -/
def State.writeRecord (s : State) (ctx q : Nat) : State :=
  let c := s.ctx ctx
  let y := s.queue ctx q
  if !y.done || y.cmd = 0 || !c.ringRoom then s
  else
    let t := match s.writeVirt ioUnit ctx ((c.crbase + 16 * (c.crtail % 2 ^ (8 + c.crlog))) % 2 ^ 48) (recordOf y) with
      | .ok t => t
      | .error code => s.report "record-lost" [ctx, q, code]
    let t := t.setQueue ctx q { y with cmd := 0, done := false, nodes := [], stopped := y.fail.isSome, fail := none, words := [] }
    let t := t.setCtx ctx { t.ctx ctx with crtail := (c.crtail + 1) % 2 ^ 32 }
    if t.pkg.msixMask.contains ctx then t else { t with pkg := { t.pkg with msix := t.pkg.msix ++ [ctx] } }

/-- COMPLETION_RECORD_WRITE (R408). -/
def execCompletionRecordWrite (ctx q : Nat) (s : State) : Out := .next (s.writeRecord ctx q)

end Sys2Proof.Machine
end

