-- ==== Sys2Proof/Machine/Registers.lean ====
section
/-!
DEFINITION. The line store and the fast buffer (R121 to R123), computed register indices, `give` and `claim` (R128), and registers to and
from memory (`spill`, `fill`).
-/

namespace Sys2Proof.Machine

open Sys2Proof

/-! ### The fast buffer -/

/-- The vector registers whose lines an instruction needs in the fast buffer (R122), those of a `spill` or `fill` among them; those that `rgn`
names it only prefetches. (DEDUCED, log entry 18) -/
def neededLines (i : Instr) : List Nat :=
  match i with
  | .rgn _ => []
  | _ => sortNums ((staticRegs i).flatMap fun r => if r.1 == .vector then rangeFrom r.2.1 r.2.2 else [])

/-- Lines touched become the last to be replaced. -/
def touchLines (fb regs : List Nat) : List Nat := fb.filter (!regs.contains ·) ++ regs.filter fb.contains

/-- A line enters a buffer of 32 lines (R122). -/
def enterLine (fb : List Nat) (r : Nat) : List Nat :=
  if fb.contains r then fb else (if fb.length < 32 then fb else fb.drop 1) ++ [r]

/-- Lines asked for: they are on their way unless they are already (R122, R123). -/
def Group.fetchLines (g : Group) (due : Nat) (regs : List Nat) : Group :=
  { g with fetch := g.fetch ++ ((regs.filter fun r => !g.fb.contains r && !g.fetch.any (·.1 == r)).map fun r => (r, due)) }

/-- The set that `rgn` names (R123). -/
def execRgn (f : Fields) (s : State) : Out :=
  issued (.rgn f) f s fun v =>
    let set_ := sortNums (rgnSet f)
    let g := { v.g with fb := v.g.fb.filter (!set_.contains ·) ++ v.g.fb.filter set_.contains }
    (s.setGrp v.gid (g.fetchLines ((s.core (coreOf v.gid)).cycle + 12) set_)).retire

/-- A count that wraps at 2^32. -/
def wrapCount (n : Nat) : Nat := n % 2 ^ 32

/-- Prefetched lines arrive in the order in which they were asked for, which rises for one `rgn` (R123); a line that a stalled instruction
waits for arrives on its own (R122). -/
def Group.prefetchTurn (g : Group) (reg : Nat) : Bool :=
  g.missed.contains reg || ((g.fetch.find? fun r => !g.missed.contains r.1).all (·.1 == reg))

/-- FAST_BUFFER_FILL (R122, R123): a line arrives; FBMISS counts it where a stalled instruction waits for it. -/
def execFastBufferFill (gid reg : Nat) (s : State) : Out :=
  let g := s.grp gid
  match g.fetch.find? (·.1 == reg) with
  | none => .next s
  | some r =>
      if (s.core (coreOf gid)).cycle < r.2 || !g.prefetchTurn reg then .next s
      else
        let n := if g.missed.contains reg then 1 else 0
        .next (s.setGrp gid { g with
          fetch := g.fetch.filter (·.1 != reg), missed := g.missed.filter (· != reg), fb := enterLine g.fb reg
          csr := { g.csr with fbmiss := g.count 0x050 g.csr.fbmiss (wrapCount (g.csr.fbmiss + n)) } })

/-! ### Computed indices (R121) -/

/-- Lines that an instruction touches beyond those that the buffer can hold for it at once: each that is not buffered is copied in and
counted (R122). (DEDUCED, log entry 18) -/
def Group.indexLines (g : Group) : List Nat → Group
  | [] => g
  | r :: rs =>
      (if g.fb.contains r then { g with fb := touchLines g.fb [r] }
       else { g with fb := enterLine g.fb r, csr := { g.csr with fbmiss := g.count 0x050 g.csr.fbmiss (wrapCount (g.csr.fbmiss + 1)) } }).indexLines rs

/-- The tests of a computed index (R121, R423): its bound, and for a read its word (R124). (DEDUCED, log entry 77) -/
def indexTests (f : Fields) (reads : Bool) (s : State) (v : View) (l : Nat) : Check :=
  let n := (v.a f l).toNat
  if v.g.vcnt ≤ n then .trap { s.laneTrap 0x03 l 0 with reg := n % 256 } none
  else if reads && badWord v.g [n] l then .trap (s.laneTrap 0x24 l 0) none
  else .ok

/-- The registers that the active lanes' indices name. -/
def indexRegs (f : Fields) (v : View) : List Nat := sortNums ((lanesOf v.act).map fun l => (v.a f l).toNat)

def execRdidx (f : Fields) (s : State) : Out :=
  issuedChk (.rdidx f) f s (indexTests f true s) fun v =>
    (s.setGrp v.gid ((v.g.setV f.d.toNat v.act fun l => v.g.vr (v.a f l).toNat l).indexLines (indexRegs f v))).retire

/-- Each active lane writes the register that its index names. -/
def writeIndexed (f : Fields) (v : View) : Group → List Nat → Group
  | g, [] => g
  | g, l :: ls => writeIndexed f v (g.setV (v.a f l).toNat (BitVec.ofNat 32 (2 ^ l)) fun _ => v.breg f l) ls

def execWridx (f : Fields) (s : State) : Out :=
  issuedChk (.wridx f) f s (indexTests f false s) fun v =>
    (s.setGrp v.gid ((writeIndexed f v v.g (lanesOf v.act)).indexLines (indexRegs f v))).retire

/-! ### `give` and `claim` (R128) -/

/-- The register-bound fault of `give`. Its record has REG and RCL 0, since the spec names no register for it. (DESIGN CHOICE, log entry 96) -/
def giveTests (f : Fields) (s : State) (v : View) (l : Nat) : Check :=
  if v.g.valloc < 8 * f.b.toNat + 8 then .trap (s.laneTrap 0x03 l 0) none else .ok

/-- The group after `give`: the released registers lose their values and leave the fast buffer. (DEDUCED, log entry 79) -/
def Group.give (g : Group) (n : Nat) : Group :=
  let k := g.valloc - 8 * n
  let c := Nat.min g.vcnt k
  { g with valloc := k, vcnt := c, v := g.v.filter (·.1 < c), bad := g.bad.filter (·.1 < c), weak := g.weak.filter (·.1 < c), fb := g.fb.filter (· < c)
           fetch := g.fetch.filter (·.1 < c), missed := g.missed.filter (· < c) }

def execGive (f : Fields) (s : State) : Out :=
  issuedChk (.give f) f s (giveTests f s) fun v =>
    (if v.any then
      let t := s.team v.g.team
      (s.setTeam v.g.team { t with pool := t.pool + f.b.toNat }).setGrp v.gid (v.g.give f.b.toNat)
     else s).retire

/-- `claim` (R128): it is applied at the end of its cycle. (DEDUCED, log entry 79) -/
def execClaim (f : Fields) (s : State) : Out :=
  onceOnly (.claim f) f s fun v =>
    let t := s.team v.g.team
    s.setTeam v.g.team { t with claims := t.claims ++ [{ gid := v.gid, role := v.g.role, n := f.b.toNat, d := f.d.toNat, lanes := v.iss }] }

/-- A claim applied: the granules where the pool has them, and the predicate of the issuing lanes (R128). -/
def State.applyClaim (s : State) (t : Nat) (c : Claim) : State :=
  let g := s.grp c.gid
  let x := s.team t
  let ok := c.n ≤ x.pool && g.valloc + 8 * c.n ≤ 256
  let g := if ok then { g with valloc := g.valloc + 8 * c.n, vcnt := g.valloc + 8 * c.n } else g
  (if ok then s.setTeam t { x with pool := x.pool - c.n } else s).setGrp c.gid (g.setP c.d c.lanes fun _ => boolHalf ok)

/-- A claim put into its place by ROLE. -/
def insertClaim (c : Claim) : List Claim → List Claim
  | [] => [c]
  | x :: xs => if c.role ≤ x.role then c :: x :: xs else x :: insertClaim c xs

/-- The claims of a team at the end of a cycle, after every `give`, in ascending ROLE (R128). -/
def State.settleClaims (s : State) (t : Nat) : State :=
  let x := s.team t
  (x.claims.foldr insertClaim []).foldl (fun s c => s.applyClaim t c) (s.setTeam t { x with claims := [] })

/-! ### `spill` and `fill` -/

/-- The address of register 0 of the range. -/
def rangeAddr (f : Fields) (v : View) : Nat :=
  wrap ((v.pairU f.c.toNat : Int) + (if f.len = .l64 then 0 else sext f.imm.toNat 32)) 48

/-- Where a transfer of registers stops: at register `j`, by a missing translation or by a fault; or not. -/
inductive Reach where
  | all
  | miss (j page : Nat)
  | fault (j code va : Nat)
  deriving DecidableEq, Repr

/-- The registers from `j` on whose lines are translated (R203, R208). -/
def reach (s : State) (gid addr : Nat) (k : Kind) (j : Nat) : Nat → Reach
  | 0 => .all
  | n + 1 =>
      let va := (addr + 128 * j) % 2 ^ 48
      match s.xlate gid va k with
      | .miss => .miss j (va / 65536)
      | .fault c => .fault j c va
      | .tier _ => .fault j fTier va
      | .hit _ => reach s gid addr k (j + 1) n

/-- The physical address of register `j`'s line. -/
def regPa (s : State) (gid addr : Nat) (k : Kind) (j : Nat) : Nat := (s.xlate gid ((addr + 128 * j) % 2 ^ 48) k).pa

/-- The tests of one lane's word of each register in a range (R382, R224, R249). -/
def wordTests (s : State) (v : View) (kind : Kind) (addr : Nat) (l : Nat) (regs : List Nat) : Check :=
  firstCheck (fun j =>
    markTests s v { w := .global, k := 4, kind := kind, plain := true, poison := kind == .read } l
      ((addr + 128 * j + 4 * l) % 2 ^ 48) (regPa s v.gid addr kind j + 4 * l)) regs

/-- Registers that a transfer moves before it stops. -/
def Reach.stop (r : Reach) (n : Nat) : Nat :=
  match r with
  | .all => n | .miss j _ => j | .fault j _ _ => j

/-- The tests of a lane of `spill` and `fill` before any word moves: alignment, and the tests of every word within reach. (DEDUCED, log entry 78) -/
def transferTests (f : Fields) (kind : Kind) (s : State) (v : View) (l : Nat) : Check :=
  let addr := rangeAddr f v
  let j := startReg v
  if addr % 128 ≠ 0 then .trap { s.laneTrap 0x0C l addr with k := j } none
  else match reach s v.gid addr kind j (f.b.toNat - j) with
    | .miss _ page => .miss page kind
    | r => match wordTests s v kind addr l (rangeFrom j (r.stop f.b.toNat - j)) with
      | .trap t log => .trap { t with k := j } log
      | c => c

/-- What follows a transfer: the successor, or the fault with its progress (R372). (DEDUCED, log entry 78) -/
def transferEnd (s : State) (v : View) (r : Reach) : State :=
  match r with
  | .fault j c va => s.trapNow { s.laneTrap c (lowLane v.act) va with k := j }
  | _ => s.retire

/-- The store entries of `spill` for registers `j` to `m − 1`. -/
def spillEntries (f : Fields) (s : State) (v : View) (addr j m : Nat) : List SqEntry :=
  (rangeFrom j (m - j)).flatMap fun r => (lanesOf v.act).map fun l =>
    { gid := v.gid, lane := l, space := .global, va := (addr + 128 * r + 4 * l) % 2 ^ 48
      pa := regPa s v.gid addr .write r + 4 * l, bytes := leBytes 4 (v.g.vr (f.a.toNat + r) l).toNat, kind := .spill, ord := s.seqno }

/-- The lines of a transfer beyond the 32 that the buffer holds at once (R122). -/
def State.moreLines (s : State) (i : Instr) : State := s.setGrp s.cur.gid ((s.grp s.cur.gid).indexLines ((neededLines i).drop 32))

def execSpill (f : Fields) (s : State) : Out :=
  issuedChk (.spill f) f s (transferTests f .write s) fun v =>
    if !v.any then s.retire
    else
      let addr := rangeAddr f v
      let j := startReg v
      let r := reach s v.gid addr .write j (f.b.toNat - j)
      transferEnd ((s.enqueue (spillEntries f s v addr j (r.stop f.b.toNat))).moreLines (.spill f)) v r

/-- The least time of the lines of a `fill`. -/
def fillLeast (s : State) (v : View) (addr j m : Nat) : Least :=
  (rangeFrom j (m - j)).foldl (fun t r => t.max (s.globalLeast (dieOf (coreOf v.gid)) (regPa s v.gid addr .read r))) (0, 0)

def execFill (f : Fields) (s : State) : Out :=
  issuedChk (.fill f) f s (transferTests f .read s) fun v =>
    if !v.any then (s.issueOp v.gid (s.pend (.fill f) f v (0, 0))).retire
    else
      let addr := rangeAddr f v
      let j := startReg v
      let r := reach s v.gid addr .read j (f.b.toNat - j)
      let m := r.stop f.b.toNat
      let p := { s.pend (.fill f) f v (fillLeast s v addr j m) with
        va := [addr], pa := (upto m).map (regPa s v.gid addr .read), k := j }
      match r with
      | .fault _ _ _ => transferEnd ((if j < m then s.issueOp v.gid p else s).moreLines (.fill f)) v r
      | _ => transferEnd ((s.issueOp v.gid p).moreLines (.fill f)) v r

/-- A pending `fill` may take its words. -/
def fillReady (s : State) (gid : Nat) (p : Pend) : Bool :=
  (lanesOf p.act).all fun l => (rangeFrom p.k (p.pa.length - p.k)).all fun j =>
    clearBefore s gid l p.ord .global (nth 0 p.pa j + 4 * l) 4 && noRedBefore s gid l p.ord .global (nth 0 p.pa j + 4 * l) 4

/-- The registers of a completed `fill` (R121). -/
def fillRegs (s : State) (gid : Nat) (p : Pend) (f : Fields) : Group → List Nat → Group
  | g, [] => g
  | g, j :: js =>
      fillRegs s gid p f
        (g.setV (f.d.toNat + j) p.act fun l =>
          BitVec.ofNat 32 (leVal (s.laneBytes gid l p.ord .global (nth 0 p.pa j + 4 * l) 4))) js

/-- The completion of `fill`. -/
def completeFill (s : State) (gid : Nat) (p : Pend) (f : Fields) : State :=
  let js := rangeFrom p.k (p.pa.length - p.k)
  let t := js.foldl (fun t j => (lanesOf p.act).foldl (fun t l =>
    t.markSeen (s.grp gid).team (readerOf gid l) (nth 0 p.pa j + 4 * l) 4) t) s
  (t.setGrp gid (fillRegs s gid p f (t.grp gid) js)).choicesMade

end Sys2Proof.Machine
end

