-- ==== Sys2Proof/Machine/Completion.lean ====
section
/-!
DEFINITION. Completions: long-latency instructions (R61), page-table walks and invalidations (R206, R207), instruction-cache lines (R40, R78)
and the scrubber (R125).
-/

namespace Sys2Proof.Machine

open Sys2Proof

/-! ### Long-latency instructions (R61) -/

/-- Slot instructions of one group reach the slot unit in program order (R326): an earlier `slot.ld` of the group reads first.
(DEDUCED, log entry 37) -/
def slotTurn (g : Group) (p : Pend) : Bool :=
  !g.ops.any fun q => q.ord < p.ord && q.act != 0#32 && (match q.i with | .slotLd _ => true | _ => false)

/-- A pending instruction of a group may write its destinations. -/
def pendReady (s : State) (gid : Nat) (p : Pend) : Bool :=
  match p.i with
  | .ld _ | .ldProbe _ => loadReady s gid p
  | .slotLd _ => loadReady s gid p && slotTurn (s.grp gid) p
  | .atom _ => atomReady s gid p
  | .fill _ => fillReady s gid p
  | _ => true

/-- What a pending instruction of a group writes. -/
def pendEffect (s : State) (gid : Nat) (p : Pend) : State :=
  match p.i with
  | .ld f => completeLd s gid p f
  | .ldProbe f => completeProbe s gid p f
  | .atom f => completeAtom s gid p f
  | .fill f => completeFill s gid p f
  | .cstLd f => completeCstLd s gid p f
  | .slotLd f => completeSlotLd s gid p f
  | _ => s

/-- The completion of operation `k` of a group: a staged `atom` completes through its entries (R227); one without an active lane writes
nothing. -/
def completeGroupOp (s : State) (gid k : Nat) : State :=
  match (s.grp gid).ops[k]? with
  | none => s
  | some p =>
      if !s.reached gid p.due p.dueNs then s
      else if p.act = 0#32 then s.opDone gid p.ord
      else if p.staged || !pendReady s gid p then s
      else (pendEffect s gid p).opDone gid p.ord

/-- LONG_LATENCY_COMPLETION (R61). -/
def execLongLatencyCompletion (op : OpRef) (s : State) : Out :=
  match op with
  | .group gid k => .next (completeGroupOp s gid k)
  | .team team k => .next (completeTeamOp s team k)

/-! ### Walks (R206) -/

/-- The fault of a walk for every access that waits for it. -/
def State.walkFault (s : State) (page code : Nat) (groups : List Nat) : State :=
  groups.foldl (fun s g => if (s.grp g).bound then s.setGrp g { s.grp g with tfault := Tab.set (s.grp g).tfault page code } else s) s

/-- The result of a walk for the accesses that wait on it (R203, R206): each one that the translation does not let through takes its fault, and
only a translation that lets one through enters the TLBs, those of the cores whose accesses it lets through. (DEDUCED, log entry 19) -/
def State.walkResult (s : State) (die : Nat) (w : Walk) (e : TlbE) : State :=
  let bad := fun k : Kind => match e.answer (65536 * w.page) k with | .fault c => some c | .tier _ => some fTier | _ => none
  let s := w.groups.foldl (fun s g => match bad g.2 with | some c => s.walkFault w.page c [g.1] | none => s) s
  let good := (w.groups.filter fun g => (bad g.2).isNone).map (·.1)
  if good.isEmpty then s else s.fillTlbs die e good

/-- WALK_COMPLETION (R206): one of the first 64 walks of a die ends. (DEDUCED, log entry 19) -/
def execWalkCompletion (die k : Nat) (s : State) : Out :=
  match (s.die die).walks[k]? with
  | none => .next s
  | some w =>
      if 64 ≤ k then .next s
      else
        let t := s.setDie die { s.die die with walks := dropNth (s.die die).walks k }
        match s.walk w.ctx (65536 * w.page) with
        | .ok e => .next (t.walkResult die w e)
        | .error c => .next (t.walkFault w.page c (w.groups.map (·.1)))

/-! ### Invalidation (R207) -/

/-- A translation that an invalidation names. -/
def TlbE.inRange (e : TlbE) (ctx lo hi : Nat) : Bool := e.ctx == ctx && e.va < hi && lo < e.va + (if e.big then 2 ^ 21 else 65536)

/-- The entries that are left after a command: before its completion each named one is dropped or kept, a free choice.
(DESIGN CHOICE, log entry 85) -/
def dropSome (n ctx lo hi : Nat) (es : List TlbE) : List TlbE :=
  (es.zipIdx n).filterMap fun e => if e.1.inRange ctx lo hi && freeBit e.2 then none else some e.1

/-- The cores of a die. -/
def State.coresOf (s : State) (die : Nat) : List Nat := (Tab.keys s.cores).filter fun c => dieOf c == die

/-- Every TLB of a die rewritten; each has free choices of its own. -/
def State.mapTlbs (s : State) (die : Nat) (f : Nat → List TlbE → List TlbE) : State :=
  let s := s.setDie die { s.die die with stlb := f s.fresh (s.die die).stlb }
  (s.coresOf die).foldl (fun s c => s.setCore c { s.core c with tlb := f (s.fresh + 8192 + 128 * c) (s.core c).tlb }) s

/-- TRANSLATION_INVALIDATE (R207). (DESIGN CHOICE, log entry 85) -/
def execTranslationInvalidate (die ctx lo hi : Nat) (s : State) : Out :=
  let t := s.mapTlbs die fun n => dropSome n ctx lo hi
  .next { t.setDie die { t.die die with invs := (t.die die).invs ++ [⟨ctx, lo, hi, s.seqno⟩] } with
    seqno := s.seqno + 1, fresh := s.fresh + 2 ^ 20 }

/-- A virtual range meets the range of an invalidation. -/
def Inval.meets (i : Inval) (va n : Nat) : Bool := va < i.hi && i.lo < va + n

/-- Bytes from the first address on that a pending instruction reads. -/
def Pend.span (p : Pend) : Nat :=
  match p.i with
  | .fill _ => 128 * p.pa.length
  | .cstLd _ => 65536 * p.pa.length
  | _ => 8

/-- A pending instruction uses translations of the range; `slot.ld` keeps no virtual address. -/
def Pend.uses (p : Pend) (i : Inval) : Bool :=
  p.act != 0#32 && !p.pa.isEmpty && (p.space == .global || p.space == .const) && (p.va.isEmpty || p.va.any fun a => i.meets a p.span)

/-- A queued store, a staging entry or a copy uses translations of the range. -/
def SqEntry.uses (e : SqEntry) (i : Inval) : Bool := e.space == .global && i.meets e.va e.bytes.length
def Staged.uses (e : Staged) (i : Inval) : Bool := e.space == .global && i.meets e.va 4
def Copy.uses (c : Copy) (i : Inval) : Bool := i.meets c.va c.n

/-- An operation, a held store or a staging entry of a team uses translations of the range. -/
def Team.uses (x : Team) (i : Inval) : Bool :=
  x.order.any (fun o => o.pages.any fun p => i.meets (65536 * p.1) 65536) || x.held.any (·.uses i) || (x.staged ++ x.handed).any (·.uses i)

/-- No access of the context on the die that may have used a dropped translation is left, nor one that the ticket unit holds. -/
def State.rangeQuiet (s : State) (die : Nat) (i : Inval) : Bool :=
  let here := fun gid : Nat => dieOf (coreOf gid) == die && (s.team (s.grp gid).team).ctx == i.ctx
  s.groups.all (fun e => !here e.1 || !e.2.ops.any (·.uses i))
    && s.teams.all (fun e => dieOf (coreOf e.1) != die || e.2.ctx != i.ctx
        || !e.2.uses i)
    && s.launches.all (fun e => e.2.ctx != i.ctx || !(e.2.heldOf.any (·.2.uses i) || e.2.staged.any (·.uses i)))
    && s.parked.all (fun p => dieOf (coreOf p.gid0) != die || p.team.ctx != i.ctx || !p.team.uses i)
    && (s.coresOf die).all fun c =>
        !(s.core c).sq.any (fun e => here e.gid && e.uses i) && !(s.core c).copies.any (fun x => (s.team x.team).ctx == i.ctx && x.uses i)

/-- INVALIDATE_COMPLETION (R207): every entry of the range is dropped, and every access that used one has been performed.
(DESIGN CHOICE, log entry 85) -/
def execInvalidateCompletion (die k : Nat) (s : State) : Out :=
  match (s.die die).invs[k]? with
  | none => .next s
  | some i =>
      if !s.rangeQuiet die i then .next s
      else
        let t := s.mapTlbs die fun _ es => es.filter fun e => !e.inRange i.ctx i.lo i.hi
        .next (t.setDie die { t.die die with invs := dropNth (t.die die).invs k })

/-! ### Instruction-cache lines (R40, R78) -/

/-- The number under which a group keeps the fault of a fetch from a page. -/
def fetchPage (page : Nat) : Nat := 2 ^ 32 + page

/-- Groups of a context on a core with a lane whose next word lies in a block. -/
def State.fetchers (s : State) (core ctx block : Nat) : List Nat :=
  (s.groupsOn core).filter fun g => (s.team (s.grp g).team).ctx == ctx && (s.grp g).lanes.any fun n =>
    n.live && (n.pc.toNat / 32 == block || n.pc.toNat / 32 + 1 == block)

/-- The physical address of a block of code; 0 where its page faults. -/
def State.fetchPa (s : State) (core ctx block : Nat) : Nat := (s.xlateNow core ctx (32 * block % 2 ^ 48) .fetch).pa

/-- A fetched line with an uncorrectable error ends the context, unless a clean copy exists, which is a free choice (R78).
(DESIGN CHOICE, log entry 80) -/
def State.fetchLost (s : State) (core ctx block : Nat) : Bool := (s.sideOf (s.fetchPa core ctx block / 64)).ue && freeBit s.fresh

/-- A block read anew while an old copy was in use: for each of its words the old or the new one, a free choice (R78). -/
def wordMix (n : Nat) (old new : List Byte) : List Byte :=
  (upto 8).flatMap fun k => ((if freeBit (n + k) then new else old).drop (4 * k)).take 4

/-- A block put into a core's instruction cache of 64 KiB: where it is full, the block that entered first leaves (R18).
(DEDUCED, log entry 10) -/
def CoreSt.icPut (c : CoreSt) (x : IcLine) : CoreSt :=
  let rest := c.ic.filter fun y => !(y.ctx == x.ctx && y.block == x.block)
  { c with ic := (if rest.length < 2048 then rest else rest.drop 1) ++ [x] }

/-- The fetches of a core's groups that waited for a block go on (R40); marks may clear (R41). -/
def State.fetchAgain (s : State) (core ctx block : Nat) : State :=
  (s.groupsOn core).foldl (fun s g =>
    if (s.team (s.grp g).team).ctx == ctx then
      s.setGrp g ((s.grp g).mapLanes fun _ n => if n.miss == some block then { n with miss := none } else n).clearMarks
    else s) s

/-- ICACHE_LINE_ARRIVAL (R40): the block enters the core's cache; a memory fault of its page is left to the groups that fetch there. A block
that the cache holds may be fetched again, and text changed in the meantime is seen in part or not at all (R78). (DEDUCED, log entry 10) -/
def execIcacheLineArrival (core ctx block : Nat) (s : State) : Out :=
  let c := s.core core
  let old := c.ic.find? fun y => y.ctx == ctx && y.block == block && y.key == (s.ctx ctx).key
  if (!c.icMiss.contains (ctx, block) && old.isNone) || s.walking core ctx (32 * block % 2 ^ 48) then .next s
  else
    let t := { (s.setCore core { c with icMiss := c.icMiss.filter (· != (ctx, block)) }).fetchAgain core ctx block with fresh := s.fresh + 16 }
    match s.fetchBlock core ctx block with
    | .ok bs =>
        if s.fetchLost core ctx block then .next (t.terminateFor ctx "fetch-error" [core, block])
        else
          let new := match old with | some y => wordMix (s.fresh + 1) y.bytes bs | none => bs
          .next ((t.setCore core ((t.core core).icPut ⟨ctx, (s.ctx ctx).key, block, new⟩)).noteWalk core ctx (32 * block % 2 ^ 48))
    | .error code => .next (t.walkFault (fetchPage (block / 2048)) code (s.fetchers core ctx block))

/-! ### The scrubber (R125) -/

/-- The role and register that a line holds among the lines of each role, from role `r` on. -/
def lineIn (line : Nat) : Nat → List (Nat × Nat) → Option (Nat × Nat)
  | _, [] => none
  | r, x :: xs => if x.1 ≤ line && line < x.1 + x.2 then some (r, line - x.1) else lineIn line (r + 1) xs

/-- The bound team whose storage a line of a core is, with the role and the register. -/
def State.lineOwner (s : State) (core line : Nat) : Option (Nat × Nat × Nat) :=
  (s.teams.filter fun e => e.2.bound && coreOf e.1 == core).findSome? fun e =>
    (lineIn line 0 (e.2.roleLines (s.allocsOf e.1))).map fun x => (e.1, x)

/-- The stopped team of which a line of a core is unsaved storage. -/
def State.lineParked (s : State) (core line : Nat) : Option (Nat × Nat × Nat) :=
  (upto s.parked.length).findSome? fun k => match s.parked[k]? with
    | some p =>
        if coreOf p.gid0 ≠ core then none
        else match lineIn line 0 (p.team.roleLines (p.groups.map (·.valloc))) with
          | some x => if p.saved.contains (.lines x.1 (x.2 / 8)) then none else some (k, x)
          | none => none
    | none => none

/-- A word of a group's line store marked, and the error logged (R367). -/
def Group.markWord (g : Group) (r lane : Nat) : Group :=
  logContained { g with bad := if g.bad.contains (r, lane) then g.bad else g.bad ++ [(r, lane)] } 0 { kind := 7, id := r, posa := lane }

/-- A word with one bit in error corrected. -/
def Group.healWord (g : Group) (r lane : Nat) : Group := { g with weak := g.weak.filter (· != (r, lane)) }

/-- The group of role `r` of stopped team `k` rewritten. -/
def State.mapParked (s : State) (k r : Nat) (f : Group → Group) : State :=
  { s with parked := (upto s.parked.length).filterMap fun j => (s.parked[j]?).map fun p =>
      if j = k then { p with groups := setNth (f (nth {} p.groups r)) p.groups r } else p }

/-- A word that the scrubber corrects in place; whether CECNT counts it is not said, so it is a free choice. (DESIGN CHOICE, log entry 80) -/
def State.scrubbed (s : State) (core line lane : Nat) : State :=
  let u := if freeBit s.fresh then s.countCorrected core 1 else s
  let u := match s.lineOwner core line with
    | some (t, r, n) => u.setGrp (t + r) ((u.grp (t + r)).healWord n lane)
    | none => match s.lineParked core line with
      | some (k, r, n) => u.mapParked k r fun g => g.healWord n lane
      | none => u
  { u with fresh := s.fresh + 1 }

/-- SCRUB_READ (R125): an uncorrectable word is recorded, and marked in a line that a context owns. The record of a line that none owns names the
line: the spec gives no ID for it. (DESIGN CHOICE, log entry 80) -/
def execScrubRead (core line lane : Nat) (err : EccFinding) (s : State) : Out :=
  if err = .clean || 2048 ≤ line || 32 ≤ lane then .next s
  else if err = .corrected then .next (s.scrubbed core line lane)
  else match s.lineOwner core line, s.lineParked core line with
    | some (t, r, n), _ => .next (s.setGrp (t + r) ((s.grp (t + r)).markWord n lane))
    | none, some (k, r, n) => .next (s.mapParked k r fun g => g.markWord n lane)
    | none, none =>
        let c := s.core core
        .next (s.setCore core { c with elog := c.elog ++ [merrWords { kind := 7, id := line, posa := lane } 0] })

/-! ### Errors that strike stored words (R124, R175, R211) -/

/-- A number put into a list that does not hold it. -/
def putNew (n : Nat) (l : List Nat) : List Nat := if l.contains n then l else l ++ [n]

/-- Words with one bit in error, and words with more, after an error at `n`: a second one makes a word uncorrectable.
(DESIGN CHOICE, log entry 94) -/
def strike (single : Bool) (n : Nat) (ce ue : List Nat) : List Nat × List Nat :=
  if ue.contains n then (ce, ue)
  else if single && !ce.contains n then (putNew n ce, ue)
  else (ce.filter (· != n), putNew n ue)

/-- An error in a word of a group's line store. (DESIGN CHOICE, log entry 94) -/
def Group.strike (g : Group) (reg lane : Nat) (single : Bool) : Group :=
  if !g.bound || g.valloc ≤ reg || 32 ≤ lane || g.bad.contains (reg, lane) then g
  else if single && !g.weak.contains (reg, lane) then { g with weak := g.weak ++ [(reg, lane)] }
  else { g with weak := g.weak.filter (· != (reg, lane)), bad := g.bad ++ [(reg, lane)] }

/-- An error in storage: words that a bound team does not have are not struck. A line of an expander is one that the expander reports poison for
(R209, R410). When and where errors come is an input of the machine. (DESIGN CHOICE, log entry 94) -/
def State.upset (s : State) (u : Upset) : State :=
  match u with
  | .line gid reg lane single => s.setGrp gid ((s.grp gid).strike reg lane single)
  | .elem t n w single =>
      let x := s.team t
      if !x.bound || x.desc.tiles ≤ n || 2048 ≤ w then s
      else
        let r := strike single w (x.tile n).ce (x.tile n).ue
        s.setTeam t { x with tiles := Tab.set x.tiles n { x.tile n with ce := r.1, ue := r.2 } }
  | .scale t n w single =>
      let x := s.team t
      if !x.bound || x.desc.tiles ≤ n || 128 ≤ w then s
      else
        let r := strike single w (x.tile n).ceS (x.tile n).ueS
        s.setTeam t { x with tiles := Tab.set x.tiles n { x.tile n with ceS := r.1, ueS := r.2 } }
  | .acc t n c single =>
      let x := s.team t
      if !x.bound || 16 * x.desc.accg ≤ n || 64 ≤ c then s
      else
        let r := strike single c (x.row n).ce (x.row n).ue
        s.setTeam t { x with acc := Tab.set x.acc n { x.row n with ce := r.1, ue := r.2 } }
  | .spad t w =>
      let x := s.team t
      if !x.bound || 64 * x.desc.spad ≤ w then s else s.setTeam t { x with spadUe := putNew w x.spadUe }
  | .mem l =>
      if isCxl (64 * l) then s.setSide l { s.sideOf l with pois := true } else s.setSide l { s.sideOf l with ue := true }

end Sys2Proof.Machine
end

