-- ==== Sys2Proof/Machine/Csr.lean ====
section
/-!
DEFINITION. `csr.r` and `csr.w` (R126, R127, R345, R374, R375): the value that each number reads as, and what a write to it does.
-/

namespace Sys2Proof.Machine

open Sys2Proof

/-! ### Reading -/

/-- FLAGS (R347). -/
def flagBits (g : Group) : Nat := natOfBits ((upto 12).map g.flagSet)

/-- OWNER (R374). -/
def ownerWord (c : Ctx) (n : Nat) : Nat := c.spec.toNat * 2 ^ 16 + n

/-- RELDATA (R295). -/
def State.relData (s : State) : Nat :=
  let n := bits s.pkg.relidx 10 0
  if bit s.pkg.relidx 11 then
    if n < 1664 then
      let p := 64 * (n % 52) + n / 52
      let st := Tab.get 0 s.pkg.site n
      let l := match s.pkg.l2p.find? fun e => e.2 == p with | some e => (e.1 % 48) * 2 ^ 10 + (e.1 / 48) * 2 ^ 4 | none => 0
      (s.pkg.down.contains p).toNat * 2 ^ 16 + l + st
    else 0
  else match Tab.find s.pkg.l2p n with
    | some p => 2 ^ 31 + p
    | none => 0

/-- GATE of a die (R292). -/
def State.gateWord (s : State) (d : Nat) : Nat :=
  (s.die d).shut.toNat * 2 ^ 31 + s.gateHeld d % 2 ^ 15 * 2 ^ 16 + (s.die d).margin

/-- A privileged CSR (R288, R369, R374, R127). (DEDUCED, log entry 77) -/
def State.csrPriv (s : State) (gid n : Nat) : Nat :=
  let t := (s.grp gid).team
  let c := s.ctxOf t
  if n = 0x400 then c.key
  else if n = 0x401 then ownerWord c (s.team t).ctx
  else if n = 0x402 then c.tvec.toNat
  else if n = 0x408 then (s.core (coreOf gid)).cecnt
  else if n = 0x410 then s.pkg.bindidx
  else if 0x411 ≤ n && n ≤ 0x418 then (if s.pkg.bindidx < 24576 then (s.bind s.pkg.bindidx).word (n - 0x411) else 0)
  else if 0x420 ≤ n && n ≤ 0x423 then s.gateWord (n - 0x420)
  else if n = 0x430 then s.pkg.relidx
  else if n = 0x431 then s.relData
  else if n = 0x440 then c.ttbase
  else 0

/-- The value of a CSR as it stood before the cycle (R375). (DEDUCED, log entry 77) -/
def State.csrValue (s : State) (v : View) (n : Nat) : Nat :=
  let x := s.teamBefore v.g.team
  let c := v.w.csr
  let core := s.core (coreOf v.gid)
  if 0x400 ≤ n then s.csrPriv v.gid n
  else if 0x040 ≤ n && n ≤ 0x047 then (nth {} x.cvs (n - 0x040)).cvdef.toNat
  else match n with
    | 0x000 => (s.ctxOf v.g.team).mode
    | 0x001 => v.g.role
    | 0x002 => v.gid
    | 0x003 => x.block
    | 0x004 => (Tab.find s.pkg.l2p (coreOf v.gid)).getD 0
    | 0x005 => v.w.vcnt
    | 0x010 => c.fstat.toNat
    | 0x011 => c.ffirst.toNat
    | 0x020 => core.cycle
    | 0x021 => c.gtime
    | 0x022 => s.pkg.wtime
    | 0x030 => tagBits s.tagsBefore
    | 0x050 => c.fbmiss
    | 0x051 => c.raceuntr
    | 0x052 => c.barwait
    | 0x053 => c.waitcyc
    | 0x054 => flagBits v.w
    | 0x058 => c.gtcmp
    | 0x05A => core.dstretch
    | 0x05B => (s.die (dieOf (coreOf v.gid))).edie
    | 0x060 => c.merrlog0.toNat
    | 0x061 => c.merrlog1.toNat
    | 0x062 => c.merrcnt
    | _ => 0

/-- The value that `csr.r` reads: on the secondary port that of the state before the cycle, taken when both words were chosen (R39, R375). -/
def State.csrBefore (s : State) (v : View) (n : Nat) : Nat :=
  match s.second with
  | some x => if s.cur.port2 then x.csr else s.csrValue v n
  | none => s.csrValue v n

def execCsrR (f : Fields) (s : State) : Out :=
  issued (.csrR f) f s fun v =>
    let x := s.csrBefore v f.csr
    let t := if v.any then s.writeU f.d.toNat (BitVec.ofNat 32 x) else s
    (if v.any && csrWide f.csr then t.writeU (f.d.toNat + 1) (BitVec.ofNat 32 (x / 2 ^ 32)) else t).retire

/-! ### Writing -/

/-- The value of a write. -/
def csrSource (f : Fields) (v : View) : Nat := if csrWide f.csr then v.wideU f.a.toNat else (v.w.ur f.a.toNat).toNat

/-- Both ports write one CSR in this cycle: the primary value remains (R39). -/
def State.csrTaken (s : State) (n : Nat) : Bool :=
  match s.second with
  | some y => s.cur.port2 && y.wrote.contains (4096 + n)
  | none => false

/-- A CSR instruction that writes number NUM once for its active lanes. -/
def csrWrite (i : Instr) (f : Fields) (s : State) (chk : View → Nat → Check) (k : View → Nat → State) : Out :=
  issuedChk i f s chk fun v => (if v.any && !s.csrTaken f.csr then k v (csrSource f v) else s).retire

/-- The staged words of a bind record (R289). -/
def State.stageBind (s : State) (n x : Nat) : State :=
  if s.pkg.bindidx < 24576 then { s with pkg := { s.pkg with bindSt := Tab.set s.pkg.bindSt n (BitVec.ofNat 64 x) } } else s

/-- TVEC as a write leaves it (R369). -/
def tvecMask (x : Nat) : DWord := BitVec.ofNat 64 (bits x 47 16 * 2 ^ 16 + x % 2)

/-- A count as a write leaves it: W1C per bit (R127). -/
def w1c (old x : Nat) : Nat := old - Nat.land old x

/-- CECNT after a write: an event of the cycle is lost (R127, R345). -/
def CoreSt.clearCecnt (c : CoreSt) (x : Nat) : CoreSt :=
  { c with cecnt := w1c (if c.cecntW then c.cecnt else c.cecnt0) x, cecntW := true }

/-- A privileged CSR written (R288). -/
def State.csrPrivSet (s : State) (gid n x : Nat) : State :=
  let t := (s.grp gid).team
  let c := (s.team t).ctx
  let core := coreOf gid
  if n = 0x402 then s.setCtx c { s.ctx c with tvec := tvecMask x }
  else if n = 0x408 then s.setCore core ((s.core core).clearCecnt x)
  else if n = 0x410 then { s with pkg := { s.pkg with bindidx := bits x 14 0 } }
  else if n = 0x411 then s.bindCommit (BitVec.ofNat 64 x)
  else if 0x412 ≤ n && n ≤ 0x418 then s.stageBind (n - 0x411) x
  else if 0x420 ≤ n && n ≤ 0x423 then s.setDie (n - 0x420) { s.die (n - 0x420) with margin := bits x 15 0 }
  else if n = 0x430 then { s with pkg := { s.pkg with relidx := bits x 11 0 } }
  else s

/-- The counters of a group that software may write (R345, R364). -/
def Csrs.set (c : Csrs) (n x : Nat) : Csrs :=
  match n with
  | 0x050 => { c with fbmiss := x }
  | 0x051 => { c with raceuntr := x }
  | 0x052 => { c with barwait := x }
  | 0x053 => { c with waitcyc := x }
  | 0x058 => { c with gtcmp := x }
  | 0x062 => { c with merrcnt := x }
  | _ => c

/-- `csr.w` of a counter, of GTCMP or of a privileged register (R288, R345, R364). (DEDUCED, log entry 55) -/
def execCsrW (f : Fields) (s : State) : Out :=
  csrWrite (.csrW f) f s (fun _ _ => .ok) fun v x =>
    if 0x400 ≤ f.csr then s.csrPrivSet v.gid f.csr x
    else s.setGrp v.gid { v.g with
      csr := v.g.csr.set f.csr x, csrw := v.g.csrw ++ [f.csr], gtOld := if f.csr = 0x058 then some v.g.csr.gtcmp else v.g.gtOld }

/-- FSTAT and FFIRST after a write: the bits written 1 clear, but for those that an event of the cycle sets. Where FSTAT would otherwise be
all zero, FFIRST clears or records that event (R92 to R94). -/
def Group.clearFstat (g : Group) (x : Word) : Group :=
  let old := (if g.evs = 0 then g.csr.fstat else g.evOld) &&& ~~~x
  { g with evOld := old, evV := g.evV && old != 0#32, csr := { g.csr with
      fstat := (g.csr.fstat &&& ~~~x) ||| BitVec.ofNat 32 g.evs
      ffirst := if old = 0#32 then (if g.evs = 0 then 0#64 else g.evFirst) else g.csr.ffirst } }

def execFstatWrite (f : Fields) (s : State) : Out :=
  csrWrite (.fstatWrite f) f s (fun _ _ => .ok) fun v x => s.setGrp v.gid (v.g.clearFstat (BitVec.ofNat 32 x))

/-- CVDEF (R47). -/
def execCvdefWrite (f : Fields) (s : State) : Out :=
  let n := f.csr - 0x040
  csrWrite (.cvdefWrite f) f s
    (fun v l => if (nth {} (s.teamBefore v.g.team).cvs n).signs.isEmpty then .ok else .trap (s.laneTrap 0x07 l 0) none) fun v x =>
      let t := s.team v.g.team
      s.setTeam v.g.team { t with cvs := setNth { nth {} t.cvs n with cvdef := BitVec.ofNat 64 (x % 2 ^ 48) } t.cvs n }

/-- MERRLOG0 (R366, R367): an event of the cycle stays recorded. -/
def execMerrlog0Write (f : Fields) (s : State) : Out :=
  csrWrite (.merrlog0Write f) f s (fun _ _ => .ok) fun v x =>
    if bit x 63 then
      let w := v.g.mev.getD (0, 0#64, 0#64)
      s.setGrp v.gid { v.g with mevV := false, csr := { v.g.csr with merrlog0 := w.2.1, merrlog1 := w.2.2 } }
    else s

end Sys2Proof.Machine
end

