-- ==== Sys2Proof/Machine/Gcm.lean ====
section
/-!
DEFINITION. AES in Galois/counter mode (FIPS 197, SP 800-38D) and the TLS records of RFC 8446 that it protects (R302).
-/

namespace Sys2Proof.Machine

open Sys2Proof

/-! ### AES -/

/-- Twice an element of GF(2^8). -/
def xtime (b : Byte) : Byte := (b <<< 1) ^^^ (if b.getLsbD 7 then 0x1B#8 else 0#8)

/-- The product of two elements of GF(2^8), by `n` bits of the first. -/
def gmul8 : Nat → Byte → Byte → Byte
  | 0, _, _ => 0#8
  | n + 1, a, b => (if a.getLsbD 0 then b else 0#8) ^^^ gmul8 n (a >>> 1) (xtime b)

/-- The inverse in GF(2^8), and 0 for 0: the 254th power. -/
def ginv8 (b : Byte) : Byte :=
  let m := gmul8 8
  let b2 := m b b
  let b4 := m b2 b2
  let b8 := m b4 b4
  let b16 := m b8 b8
  let b32 := m b16 b16
  let b64 := m b32 b32
  m (m b64 b64) (m (m b64 b32) (m (m b16 b8) (m b4 b2)))

/-- The substitution of a byte. -/
def aesSub (b : Byte) : Byte :=
  let i := ginv8 b
  i ^^^ i.rotateLeft 1 ^^^ i.rotateLeft 2 ^^^ i.rotateLeft 3 ^^^ i.rotateLeft 4 ^^^ 0x63#8

/-- Bytes of two lists, added. -/
def xorBytes (a b : List Byte) : List Byte := List.zipWith (· ^^^ ·) a b

/-- `n` more words of a key schedule of `nk` words, from word `i` on; the newest word first. -/
def aesSchedule (nk : Nat) : Nat → Nat → Byte → List (List Byte) → List (List Byte)
  | 0, _, _, ws => ws
  | n + 1, i, rc, ws =>
      let last := nth [] ws 0
      let t := if i % nk = 0 then xorBytes ((last.drop 1 ++ last.take 1).map aesSub) [rc, 0#8, 0#8, 0#8]
        else if 6 < nk && i % nk = 4 then last.map aesSub else last
      aesSchedule nk n (i + 1) (if i % nk = 0 then xtime rc else rc) (xorBytes t (nth [] ws (nk - 1)) :: ws)

/-- The round keys of a key of 16 or 32 bytes. -/
def aesKeys (key : List Byte) : List (List Byte) :=
  let nk := key.length / 4
  let first := (upto nk).map fun i => (key.drop (4 * i)).take 4
  let ws := (aesSchedule nk (4 * (nk + 7) - nk) nk 1#8 first.reverse).reverse
  (upto (nk + 7)).map fun r => (ws.drop (4 * r)).take 4 |>.flatten

/-- The rows of a block shifted. -/
def shiftRows (b : List Byte) : List Byte := (upto 16).map fun i => nth 0#8 b ((i + 4 * (i % 4)) % 16)

/-- The columns of a block mixed. -/
def mixColumns (b : List Byte) : List Byte :=
  (upto 16).map fun i =>
    let at' := fun k => nth 0#8 b (i / 4 * 4 + (i + k) % 4)
    xtime (at' 0) ^^^ (xtime (at' 1) ^^^ at' 1) ^^^ at' 2 ^^^ at' 3

/-- The rounds of a block: each mixes its columns but for the last. -/
def aesRounds : List (List Byte) → List Byte → List Byte
  | [], b => b
  | [k], b => xorBytes (shiftRows (b.map aesSub)) k
  | k :: ks, b => aesRounds ks (xorBytes (mixColumns (shiftRows (b.map aesSub))) k)

/-- A block under round keys. -/
def aesBlock (ks : List (List Byte)) (b : List Byte) : List Byte := aesRounds (ks.drop 1) (xorBytes b (nth [] ks 0))

/-! ### Galois/counter mode -/

/-- The product of two blocks as numbers whose most significant bit comes first, by `n` bits of the first from bit `n - 1` down. -/
def ghashMul (x : Nat) : Nat → Nat → Nat → Nat
  | 0, _, z => z
  | n + 1, v, z =>
      ghashMul x n (if v % 2 = 1 then Nat.xor (v / 2) (0xE1 * 2 ^ 120) else v / 2) (if bit x n then Nat.xor z v else z)

/-- Bytes cut into blocks of 16, the last filled with zeros. -/
def blocks16 (bs : List Byte) : List (List Byte) :=
  (upto (ceilDiv bs.length 16)).map fun i => (upto 16).map fun k => nth 0#8 (bs.drop (16 * i)) k

/-- The hash of blocks under `h`. -/
def ghash (h : Nat) (bs : List (List Byte)) : Nat := bs.foldl (fun y b => ghashMul (Nat.xor y (beVal b)) 128 h 0) 0

/-- Text under a counter that begins at 2. -/
def gcmStream (ks : List (List Byte)) (nonce text : List Byte) : List Byte :=
  xorBytes text ((upto (ceilDiv text.length 16)).flatMap fun i => aesBlock ks (nonce ++ beBytes 4 (i + 2)))

/-- Authenticated encryption with a nonce of 12 bytes: the text and its tag. -/
def gcmSeal (key nonce aad text : List Byte) : List Byte :=
  let ks := aesKeys key
  let c := gcmStream ks nonce text
  let h := beVal (aesBlock ks ((upto 16).map fun _ => 0#8))
  let s := ghash h (blocks16 aad ++ blocks16 c ++ [beBytes 8 (8 * aad.length) ++ beBytes 8 (8 * c.length)])
  c ++ xorBytes (beBytes 16 s) (aesBlock ks (nonce ++ beBytes 4 1))

/-! ### TLS records -/

/-- A record of a content type: its header, and the content and its type sealed under the nonce IV XOR RSEQ. -/
def tlsRecord (key : List Byte) (iv rseq kind : Nat) (content : List Byte) : List Byte :=
  let hd := [23#8, 3#8, 3#8] ++ beBytes 2 (content.length + 17)
  hd ++ gcmSeal key (beBytes 12 (Nat.xor iv rseq)) hd (content ++ [BitVec.ofNat 8 kind])

/-- The bytes of a text that the first `k` of the `r` records hold that share it out. -/
def recordEnd (k r : Nat) (text : List Byte) : Nat := k * text.length / r

/-- The first `m` records of application data, of `r` that share out a text. -/
def tlsRecords (key : List Byte) (iv rseq m r : Nat) (text : List Byte) : List Byte :=
  (upto m).flatMap fun k => tlsRecord key iv (rseq + k) 23 ((text.take (recordEnd (k + 1) r text)).drop (recordEnd k r text))

end Sys2Proof.Machine
end

