-- ==== Sys2Proof/Machine/Host.lean ====
section
/-!
DEFINITION. The host port: aperture (R404), mailbox commands (R405, R406), doorbells and completion registers (R407, R408), manifests and
attestation (R399 to R402).
-/

namespace Sys2Proof.Machine

open Sys2Proof

/-! ### The aperture (R404) -/

/-- Context and place of a BAR2 offset. -/
def apCtx (off : Nat) : Nat := off / 2 ^ 30
def apOff (off : Nat) : Nat := off % 2 ^ 30

/-- An access that passes the end of its context's aperture, which no rule gives a meaning: it faults. (DESIGN CHOICE, log entry 106) -/
def apCrosses (off n : Nat) : Bool := 2 ^ 30 < apOff off + n

/-- Bytes read through the aperture of a context; `none` where the access faults. -/
def State.hostRead (s : State) (off n : Nat) : Option (List Byte) :=
  let c := apCtx off
  if !(s.ctx c).live || apCrosses off n then none
  else match s.readVirt ioUnit c (((s.ctx c).hapbase + apOff off) % 2 ^ 48) n with
    | .ok bs => some bs
    | .error _ => none

/-- Bytes written through the aperture of a context. -/
def State.hostWrite (s : State) (off : Nat) (bs : List Byte) : Option State :=
  let c := apCtx off
  if !(s.ctx c).live || apCrosses off bs.length then none
  else match s.writeVirt ioUnit c (((s.ctx c).hapbase + apOff off) % 2 ^ 48) bs with
    | .ok t => some t
    | .error _ => none

/-- Bytes that leave the machine as the answer to a read. -/
def State.answer (s : State) (bs : List Byte) : State := { s with pkg := { s.pkg with out := s.pkg.out ++ [bs] } }

/-- A host read at an offset of BAR2 (R404): one that faults returns all ones, and firmware is told. -/
def State.apertureRead (s : State) (off n : Nat) : State :=
  match s.hostRead off n with
  | some bs => s.answer bs
  | none => (s.report "aperture-fault" [off, n]).answer ((upto n).map fun _ => 0xFF#8)

/-- A host write at an offset of BAR2 (R404): one that faults is dropped, and firmware is told. -/
def State.apertureWrite (s : State) (off : Nat) (bytes : List Byte) : State :=
  (s.hostWrite off bytes).getD (s.report "aperture-fault" [off, bytes.length])

/-- HOST_APERTURE_READ (R404). -/
def execHostApertureRead (off n : Nat) (s : State) : Out := .next (s.apertureRead off n)

/-- HOST_APERTURE_WRITE (R404). -/
def execHostApertureWrite (off : Nat) (bytes : List Byte) (s : State) : Out := .next (s.apertureWrite off bytes)

/-- CONFIG_REQUEST (R403): Retry Status until firmware runs. -/
def execConfigRequest (s : State) : Out := .next (s.report (if s.pkg.retry then "config-retry-status" else "config-done") [])

/-! ### The mailbox (R405) -/

/-- Word `n` of the request. -/
def State.mbWord (s : State) (n : Nat) : Nat := (nth 0#64 s.pkg.mailbox n).toNat

/-- A request ends with a STATUS. -/
def State.mbDone (s : State) (status : Nat) : State := { s with pkg := { s.pkg with mbBusy := false, mbStatus := status } }

/-- The command of number `cmd` is waiting in the mailbox. -/
def State.mbHas (s : State) (cmd : Nat) : Bool := s.pkg.mbBusy && bits (s.mbWord 0) 7 0 == cmd

/-- The context that w1 names. -/
def State.mbCtx (s : State) : Nat := bits (s.mbWord 1) 5 0

/-- A mailbox command of a context: STATUS 1 where the context does not exist. (DEDUCED, log entry 66) -/
def mailbox (cmd : Nat) (s : State) (k : Nat → State) : Out :=
  if !s.mbHas cmd then .next s
  else if !(s.ctx s.mbCtx).live then .next (s.mbDone 1)
  else .next (k s.mbCtx)

/-- The words of CREATE are well formed (R406). -/
def State.createGood (s : State) : Bool :=
  let w := s.mbWord
  let key := bits (w 1) 15 6
  bits (w 1) 63 20 == 0 && bits (w 2) 63 48 == 0 && bits (w 2) 11 4 == 0 && bits (w 2) 3 0 ≤ 8 && key != 0
    && (Tab.find s.pkg.keys key).isSome && bits (w 4) 63 48 == 0 && w 4 % 65536 == 0 && (tvecMask (w 5)).toNat == w 5
    && bits (w 6) 63 48 == 0 && w 6 % 2 ^ 30 == 0 && w 7 == 0

/-- The context of a CREATE with a level-1 table at `root`. -/
def State.newCtx (s : State) (root : Nat) : Ctx :=
  let w := s.mbWord
  { live := true, key := bits (w 1) 15 6, mode := bits (w 1) 18 16, spec := bit (w 1) 19, crbase := bits (w 2) 47 12 * 4096
    crlog := bits (w 2) 3 0, rkey := BitVec.ofNat 64 (w 3), ttbase := w 4, tvec := tvecMask (w 5), hapbase := w 6, root := root
    tables := [root] }

/-- CREATE (R406): firmware gives the context an empty level-1 table. -/
def execCreate (root : Nat) (s : State) : Out :=
  if !s.mbHas 1 then .next s
  else if !s.createGood then .next (s.mbDone 1)
  else if (s.ctx s.mbCtx).live then .next (s.mbDone 2)
  else if !s.frameOk root (2 ^ 17) then .next (s.mbDone 3)
  else .next (((s.zeroFrame root (2 ^ 17)).setCtx s.mbCtx (s.newCtx root)).mbDone 0)

/-- Translations of a context leave every TLB. (DEDUCED, log entry 68) -/
def State.dropTlbs (s : State) (ctx : Nat) : State :=
  let f := fun es : List TlbE => es.filter (·.ctx != ctx)
  { s with dies := s.dies.map fun (d : Die) => { d with stlb := f d.stlb }
           cores := s.cores.map fun (e : Nat × CoreSt) => (e.1, { e.2 with tlb := f e.2.tlb }) }

/-- DESTROY (R405): running entries complete with STATUS 0x08, and the context is no more. (DEDUCED, log entry 68) -/
def execDestroy (s : State) : Out :=
  mailbox 2 s fun c =>
    let t := s.terminate c
    let t := (Tab.keys (t.ctx c).queues).foldl (fun t q => t.writeRecord c q) t
    ({ t with ctxs := Tab.drop t.ctxs c }.dropTlbs c).mbDone 0

/-- QUEUE (R405): sets up a queue, or resets a failed one. (DEDUCED, log entry 56) -/
def execQueue (s : State) : Out :=
  mailbox 3 s fun c =>
    let w1 := s.mbWord 1
    let q := bits w1 11 8
    let n := bits w1 20 16
    let ring := s.mbWord 2
    if n < 4 || 16 < n || ring % 4096 ≠ 0 || 2 ^ 48 ≤ ring then s.mbDone 1
    else if (s.queue c q).cmd ≠ 0 then s.mbDone 2
    else (s.setQueue c q { set := true, log := n, ring := ring }).mbDone 0

/-- A rule word that the host may write (R328). -/
def ruleGood (w : Nat) : Bool :=
  bits w 62 50 == 0 && bits w 47 45 == 0 && (if bit w 63 then 1 ≤ bits w 42 32 && bits w 42 32 ≤ 1024 else w == 0)

/-- RULE (R405, R328). -/
def execRule (s : State) : Out :=
  mailbox 4 s fun c =>
    let w1 := s.mbWord 1
    let n := bits w1 11 8
    let x := s.ctx c
    if !ruleGood (s.mbWord 2) then s.mbDone 1
    else if x.queues.any fun e => e.2.cmd != 0 && !e.2.done then s.mbDone 2
    else (s.setCtx c { x with rules := Tab.set x.rules n (BitVec.ofNat 64 (s.mbWord 2)) }).mbDone 0

/-- A half of the configuration block is within its limits (R409). -/
def portGood (bs : List Byte) : Bool :=
  let at' := fun o n => leVal ((bs.drop o).take n)
  1500 ≤ at' 6 2 && at' 6 2 ≤ 9216 && at' 28 8 % 4096 == 0 && at' 28 8 < 2 ^ 48 && 4 ≤ at' 36 1 && at' 36 1 ≤ 12

/-- A half with its Z bytes zero (R7). -/
def portMasked (bs : List Byte) : List Byte := bs.take 37 ++ List.replicate 91 0#8

/-- NETCFG (R405, R409). (DEDUCED, log entry 66) -/
def execNetcfg (s : State) : Out :=
  mailbox 5 s fun c =>
    let off := s.mbWord 2
    if off % 256 ≠ 0 || apCtx off ≠ c then s.mbDone 1
    else if s.conns.any (fun e => 2 ≤ e.2.st && e.2.st ≤ 4) then s.mbDone 2
    else match s.hostRead off 256 with
      | none => s.mbDone 1
      | some bs =>
          if portGood (bs.take 128) && portGood (bs.drop 128) then
            { s with pkg := { s.pkg with netcfg := portMasked (bs.take 128) ++ portMasked (bs.drop 128), netctx := c, rxTail := [0, 0] } }.mbDone 0
          else s.mbDone 1

/-! ### MAP (R405, R202) -/

/-- The leaf that MAP writes: firmware lets the context read, write and fetch. (DESIGN CHOICE, log entry 67) -/
def mapLeaf (frame : Nat) (tier : Bool) : Nat := frame + tier.toNat * 2 ^ 5 + 2 ^ 4 + 2 ^ 3 + 2 ^ 2 + 2 + 1

/-- A page of an expander zeroed under a context's identifier. -/
def State.zeroTier (key : Nat) (s : State) (frame : Nat) : State := s.writeLines key frame 1024 fun _ => List.replicate 64 0#8

/-- One page mapped. (DESIGN CHOICE, log entry 67) -/
def State.mapPage (s : State) (ctx va frame : Nat) (tier : Bool) (free : List Nat) : Option (State × List Nat) :=
  (if tier then s else s.zeroFrame frame 65536).putLeaf ctx va (mapLeaf frame tier) free

/-- Pages mapped one after another. -/
def State.mapPages (ctx : Nat) (tier : Bool) : List (Nat × Nat) → State → List Nat → Option State
  | [], s, _ => some s
  | (va, frame) :: r, s, free => match s.mapPage ctx va frame tier free with
    | none => none
    | some (t, left) => State.mapPages ctx tier r t left

/-- A page that firmware may give: of local memory, or of an expander, where it is zero. -/
def State.pageOk (s : State) (tier : Bool) (pa : Nat) : Bool :=
  pa % 65536 == 0 && isCxl pa == tier && s.backed pa 65536

/-- A page of a context is mapped, or firmware has moved it. -/
def State.isMapped (s : State) (ctx va : Nat) : Bool :=
  (s.ctx ctx).maps.any (fun m => m.1 ≤ va / 65536 && va / 65536 < m.1 + m.2)
    || (match s.walk ctx va with | .ok _ => true | .error c => c == fTable)

/-- MAP (R405): each page of the range gets one of the frames that firmware found. (DESIGN CHOICE, log entry 67) -/
def execMap (frames tables : List Nat) (s : State) : Out :=
  mailbox 8 s fun c =>
    let w1 := s.mbWord 1
    let tier := bit w1 8
    let va := s.mbWord 2
    let n := s.mbWord 3
    let vas := (upto n).map fun k => va + 65536 * k
    if va % 65536 ≠ 0 || n = 0 || 2 ^ 48 < va + 65536 * n then s.mbDone 1
    else if vas.any (s.isMapped c) then s.mbDone 2
    else if frames.length < n || !(frames.take n).all (s.pageOk tier) then s.mbDone 3
    else
      let s := if tier then (frames.take n).foldl (State.zeroTier (s.ctx c).key) s else s
      match State.mapPages c tier (vas.zip frames) s tables with
      | none => s.mbDone 3
      | some t =>
          let x := t.ctx c
          (t.setCtx c { x with maps := x.maps ++ [(va / 65536, n)], tables := x.tables ++ tables }).mbDone 0

/-! ### Manifests (R399, R400) -/

/-- 32 free bytes. -/
def State.freeBytes (s : State) (at' n : Nat) : List Byte := (upto n).map fun k => BitVec.ofNat 8 (freeNat (s.fresh + at' + k))

/-- RELHASH: the logical entries of R295. -/
def State.relHash (s : State) : List Byte :=
  sha256 ((upto 1536).flatMap fun n => leBytes 4 (match Tab.find s.pkg.l2p n with | some p => 2 ^ 31 + p | none => 0))

/-- NETHASH; free before a block has been accepted. (DESIGN CHOICE, log entry 69) -/
def State.netHash (s : State) : List Byte := if s.pkg.netcfg.isEmpty then s.freeBytes 0 32 else sha256 s.pkg.netcfg

/-- TTHASH of a context (R298); free where the table could not be read at the node's start. (DESIGN CHOICE, log entry 69) -/
def State.ttHash (s : State) (c : Nat) : List Byte :=
  let x := s.ctx c
  if !x.started then sha256 ((upto 131072).map fun _ => 0#8)
  else if x.tthash.length = 131072 then sha256 x.tthash
  else s.freeBytes (32 + 32 * c) 32

/-- The rule words of a context. -/
def Ctx.ruleBytes (x : Ctx) : List Byte := (upto 16).flatMap fun n => leBytes 8 (Tab.get 0#64 x.rules n).toNat

/-- Zero bytes. -/
def zeros (n : Nat) : List Byte := (upto n).map fun _ => 0#8

/-- The contexts that exist. -/
def State.liveCtxs (s : State) : List Nat := (s.ctxs.filter (·.2.live)).map (·.1)

/-- The manifest of the present configuration. -/
def State.manifest (s : State) : List Byte :=
  let cs := s.liveCtxs
  leBytes 4 1 ++ leBytes 1 cs.length ++ zeros 3 ++ padTo 32 s.pkg.fwhash ++ s.relHash ++ s.netHash ++ zeros 24
    ++ cs.flatMap fun c => leBytes 1 c ++ leBytes 1 ((s.ctx c).mode % 4) ++ zeros 6 ++ s.ttHash c ++ (s.ctx c).ruleBytes ++ zeros 24

/-- Part of a list of bytes. -/
def slice (bs : List Byte) (o n : Nat) : List Byte := (bs.drop o).take n

/-- A number of a byte of a list. -/
def byteAt (bs : List Byte) (o : Nat) : Nat := (nth 0#8 bs o).toNat

/-- Entry `i` of a manifest. -/
def manEntry (m : List Byte) (i : Nat) : List Byte := slice m (128 + 192 * i) 192

/-- Numbers rise strictly. -/
def rising : List Nat → Bool
  | a :: b :: r => a < b && rising (b :: r)
  | _ => true

/-- A manifest is well formed (R400). -/
def manifestGood (m : List Byte) : Bool :=
  let n := byteAt m 4
  let es := (upto n).map (manEntry m)
  leVal (m.take 4) == 1 && n ≤ 64 && (slice m 5 3 ++ slice m 104 24).all (· == 0#8)
    && rising (es.map fun e => byteAt e 0)
    && es.all fun e => byteAt e 1 < 4 && (slice e 2 6 ++ slice e 168 24).all (· == 0#8)

/-- The result word of a comparison: FIELD, CTX and IDX. -/
def manWord (field ctx idx : Nat) : Nat := idx * 2 ^ 16 + ctx * 2 ^ 8 + field

/-- The first difference between a manifest and the present configuration (R400). -/
def State.compare (s : State) (m : List Byte) : Nat :=
  let es := (upto (byteAt m 4)).map (manEntry m)
  let ctx := fun e => byteAt e 0
  let mode := fun e => (s.ctx (ctx e)).mode
  let ruleDiff := fun e => (upto 16).find? fun i => slice e (40 + 8 * i) 8 != leBytes 8 (Tab.get 0#64 (s.ctx (ctx e)).rules i).toNat
  if !manifestGood m then manWord 8 0 0
  else match es.find? fun e => !(s.ctx (ctx e)).live with
  | some e => manWord 9 (ctx e) 0
  | none =>
  if slice m 8 32 != padTo 32 s.pkg.fwhash then manWord 1 0 0
  else if slice m 40 32 != s.relHash then manWord 2 0 0
  else match es.find? fun e => bit (byteAt e 1) 0 != bit (mode e) 0 with
  | some e => manWord 3 (ctx e) 0
  | none => match es.find? fun e => bit (byteAt e 1) 1 != bit (mode e) 1 with
  | some e => manWord 4 (ctx e) 0
  | none => match es.find? fun e => slice e 8 32 != s.ttHash (ctx e) with
  | some e => manWord 5 (ctx e) 0
  | none => match es.find? fun e => (ruleDiff e).isSome with
  | some e => manWord 6 (ctx e) ((ruleDiff e).getD 0)
  | none => if slice m 72 32 != s.netHash then manWord 7 0 0 else 0

/-- The manifest at an offset: its header, then the entries that the header counts. -/
def State.readManifest (s : State) (off : Nat) : Option (List Byte) :=
  match s.hostRead off 128 with
  | none => none
  | some hd => if byteAt hd 4 = 0 || 64 < byteAt hd 4 then some hd else if apCrosses off (128 + 192 * byteAt hd 4) then none
      else (s.hostRead (off + 128) (192 * byteAt hd 4)).map (hd ++ ·)

/-- MANIFEST (R400). (DEDUCED, log entry 66) -/
def execManifest (s : State) : Out :=
  mailbox 7 s fun c =>
    let t := { s with fresh := s.fresh + 4096 }
    if apCtx (s.mbWord 2) ≠ c || apCtx (s.mbWord 3) ≠ c then s.mbDone 1
    else match s.readManifest (s.mbWord 2) with
      | none => s.mbDone 1
      | some m => match t.hostWrite (s.mbWord 3) (leBytes 8 (s.compare m) ++ zeros 8) with
        | none => s.mbDone 1
        | some u => u.mbDone 0

/-! ### Attestation (R402) -/

/-- Enabled sites of a die (R13). -/
def State.enabledOn (s : State) (die : Nat) : Nat := (s.pkg.l2p.filter fun e => dieOf e.1 == die).length

/-- The signed part of a report. -/
def State.reportBody (s : State) (nonce : List Byte) : List Byte :=
  leBytes 4 1 ++ leBytes 2 0x0B04 ++ [0xB1#8, 0#8] ++ (upto 4).flatMap (fun d => leBytes 2 (s.enabledOn d)) ++ padTo 32 s.pkg.fwhash
    ++ s.relHash ++ nonce ++ leBytes 8 s.pkg.wtime ++ sha256 s.manifest ++ identityPublic

/-- ATTEST (R402): the nonce of the signature is free, and with it which of its valid signatures a report carries.
(DEDUCED, log entry 66; DESIGN CHOICE, log entry 69) -/
def execAttest (s : State) : Out :=
  mailbox 6 s fun c =>
    let nonce := (upto 4).flatMap fun n => leBytes 8 (s.mbWord (2 + n))
    let body := s.reportBody nonce
    let t := { s with fresh := s.fresh + 8192 }
    if apCtx (s.mbWord 6) ≠ c then s.mbDone 1
    else match t.hostWrite (s.mbWord 6) (body ++ identitySign (s.fresh + 4096) body) with
      | none => s.mbDone 1
      | some u => u.mbDone 0

/-! ### Doorbells and completion registers (R407, R408) -/

/-- TAIL of a doorbell written (R407). -/
def State.ringDoorbell (s : State) (ctx q tail : Nat) : State :=
  let y := s.queue ctx q
  if !(s.ctx ctx).live || !y.set || 2 ^ y.log < (tail + 2 ^ 32 - y.head) % 2 ^ 32 then s.report "doorbell-ignored" [ctx, q, tail]
  else s.setQueue ctx q { y with tail := tail }

/-- CRHEAD written (R408). -/
def State.setCrhead (s : State) (ctx v : Nat) : State :=
  let c := s.ctx ctx
  if !c.live || 2 ^ (8 + c.crlog) < (c.crtail + 2 ^ 32 - v) % 2 ^ 32 then s.report "crhead-ignored" [ctx, v]
  else s.setCtx ctx { c with crhead := v }

/-- DOORBELL_WRITE (R407). -/
def execDoorbellWrite (ctx q : Nat) (tail : Word) (s : State) : Out := .next (s.ringDoorbell ctx q tail.toNat)

/-- CRHEAD_WRITE (R408). -/
def execCrheadWrite (ctx : Nat) (v : Word) (s : State) : Out := .next (s.setCrhead ctx v.toNat)

end Sys2Proof.Machine
end

