-- ==== Sys2Proof/Machine/Net.lean ====
section
/-!
DEFINITION. The network engine: the connection table (R302, R303), streaming of slot blocks with hold-back (R336 to R338), and received
frames (R409).
-/

namespace Sys2Proof.Machine

open Sys2Proof

/-! ### Connection entries (R302) -/

def State.conn (s : State) (n : Nat) : Conn := Tab.get {} s.conns n
def State.setConn (s : State) (n : Nat) (x : Conn) : State := { s with conns := Tab.set s.conns n x }

/-- Word `n` of the committed entry. -/
def Conn.word (x : Conn) (n : Nat) : Nat := (Tab.get 0#64 x.w n).toNat

def Conn.ctx (x : Conn) : Nat := bits (x.word 0) 55 50
def Conn.key (x : Conn) : Nat := bits (x.word 0) 49 40

/-- A field of a committed word set. -/
def Conn.put (x : Conn) (n hi lo v : Nat) : Conn := { x with w := Tab.set x.w n (BitVec.ofNat 64 (putBits (x.word n) hi lo v)) }

def Conn.setSt (x : Conn) (st : Nat) : Conn := x.put 0 62 60 st

/-- The bits of word `n` that are no Z field; words 12 and 13 are Z for SUITE 0. -/
def connMask (suite n : Nat) : Nat :=
  if n = 0 then 0x7FFFFFF0FFFFFFFF
  else if n = 9 then 2 ^ 32 - 1
  else if n = 12 || n = 13 then (if suite = 0 then 0 else 2 ^ 64 - 1)
  else if n = 14 || n = 16 then 2 ^ 48 - 1
  else if n = 15 then 0x1F07FF
  else if n ≤ 18 then 2 ^ 64 - 1 else 0

/-- What the host reads of word `n`: WO fields, the IV and the key, read zero. -/
def Conn.seen (x : Conn) (n : Nat) : Nat := if 8 ≤ n && n ≤ 13 then 0 else x.word n

/-- A staged word `n`, 1 to 31, of an entry. -/
def State.stageConn (s : State) (n i : Nat) (v : DWord) : State :=
  let x := s.conn n
  if n < 65536 && 1 ≤ i && i ≤ 31 then s.setConn n { x with staged := Tab.set x.staged i v } else s

/-- A commit that the entry takes (R303). -/
def commitGood (x : Conn) (w0 : Nat) (w15 : Nat) : Bool :=
  (x.st ≤ 1 || x.st == 5 || x.st == 6) && (bits w0 62 60 == 1 || bits w0 62 60 == 2) && bits w0 57 56 ≤ 1 && bits w15 20 16 ≤ 16

/-- A commit of an entry (R303): it takes w0 and its staged words in one change. -/
def State.commitConn (s : State) (conn : Nat) (w0 : DWord) : State :=
  let x := s.conn conn
  let new := fun n => if n = 0 then w0.toNat else (Tab.get (Tab.get 0#64 x.w n) x.staged n).toNat
  if conn < 65536 && commitGood x w0.toNat (new 15) then
    s.setConn conn { hand := x.hand + x.due, w := (upto 19).map fun n => (n, BitVec.ofNat 64 (Nat.land (new n) (connMask (bits w0.toNat 57 56) n))) }
  else s.report "connection-commit" [conn]

/-- CONNECTION_COMMIT (R303). -/
def execConnectionCommit (conn : Nat) (w0 : DWord) (s : State) : Out := .next (s.commitConn conn w0)

/-! ### Reads of the engine (R336 to R338) -/

/-- Bytes at a virtual address of a context under a key identifier; `none` on a fault. -/
def State.readKeyed (s : State) (ctx key va n : Nat) : Option (List Byte) :=
  match s.readVirt ioUnit ctx va n with
  | .error _ => none
  | .ok _ => some ((rangeFrom va n).map fun a => s.byteAs key (s.xlateNow ioUnit ctx (a % 2 ^ 48) .read).pa)

/-- A read by the engine for a connection. -/
def State.connRead (s : State) (x : Conn) (va n : Nat) : Option (List Byte) := s.readKeyed x.ctx x.key (va % 2 ^ 48) n

/-- The bytes of a token (R337). -/
def State.tokenBytes (s : State) (x : Conn) (vocab nvocab t : Nat) : Option (List Byte) :=
  if vocab = 0 || nvocab ≤ t then some []
  else match s.connRead x (vocab + 8 * t) 8 with
    | none => none
    | some bs =>
        let e := leVal bs
        if bits e 55 48 = 0 then some [] else s.connRead x (bits e 47 0) (bits e 55 48)

/-- The bytes of tokens one after another. -/
def State.textOf (s : State) (x : Conn) (vocab nvocab : Nat) : List Nat → Option (List Byte)
  | [] => some []
  | t :: ts => match s.tokenBytes x vocab nvocab t, s.textOf x vocab nvocab ts with
    | some a, some b => some (a ++ b)
    | _, _ => none

/-- The tokens of a stop string; `none` where its entry is malformed (R338). -/
def stopString (ws : List Nat) : Option (List Nat) :=
  let lead := ws.takeWhile fun w => bit w 31
  let rest := ws.drop lead.length
  if lead.isEmpty || lead.any (fun w => bits w 30 22 != 0) || rest.any (· != 0) then none
  else some (lead.map fun w => bits w 21 0)

/-- The stop strings of entries. -/
def stopStrings : List (List Nat) → Option (List (List Nat))
  | [] => some []
  | e :: es => match stopString e, stopStrings es with
    | some a, some b => some (a :: b)
    | _, _ => none

/-- The stop set of a connection; `none` where it faults or is malformed. -/
def State.stopSet (s : State) (x : Conn) : Option (List (List Nat)) :=
  let a := bits (x.word 16) 47 0
  if a = 0 then some []
  else if a % 64 ≠ 0 then none
  else match s.connRead x a 8 with
    | none => none
    | some hd =>
        let n := leVal hd
        if n = 0 || 64 < n then none
        else match s.connRead x (a + 64) (64 * n) with
          | none => none
          | some bs => stopStrings ((upto n).map fun i => (upto 16).map fun k => leVal ((bs.drop (64 * i + 4 * k)).take 4))

/-! ### Stop strings and hold-back (R338) -/

/-- The stop strings that take part. -/
def takePart (hold : Nat) (ss : List (List Nat)) : List (List Nat) := ss.filter fun x => x.length ≤ hold + 1

/-- The longest of the strings that the first `j` tokens end in. -/
def endsIn (ss : List (List Nat)) (ts : List Nat) (j : Nat) : Nat :=
  ss.foldl (fun m x => if x.length ≤ j && (ts.take j).drop (j - x.length) == x then Nat.max m x.length else m) 0

/-- The first position at which a string completes: tokens up to its end, and its length. -/
def firstStop (ss : List (List Nat)) (ts : List Nat) : Option (Nat × Nat) :=
  ((rangeFrom 1 ts.length).find? fun j => endsIn ss ts j != 0).map fun j => (j, endsIn ss ts j)

/-- The longest tail of at most `hold` tokens that begins a string. -/
def heldTail (ss : List (List Nat)) (hold : Nat) (ts : List Nat) : Nat :=
  (upto (Nat.min hold ts.length + 1)).foldl (fun m h => if h != 0 && ss.any (fun x => x.take h == ts.drop (ts.length - h)) then h else m) 0

/-- What one reading does with the final tokens not yet sent: tokens sent, positions passed, and whether the stream ends. -/
structure Sending where
  send : List Nat
  pass : Nat
  fin  : Bool
  deriving DecidableEq, Repr

/-- The tokens to send, of those from NEXTPOS on. -/
def sending (ss : List (List Nat)) (hold next nslot : Nat) (ts : List Nat) : Sending :=
  match firstStop ss ts with
  | some (j, n) => { send := ts.take (j - n), pass := j, fin := true }
  | none =>
      if nslot ≤ next + ts.length then { send := ts, pass := ts.length, fin := true }
      else
        let h := heldTail ss hold ts
        { send := ts.take (ts.length - h), pass := ts.length - h, fin := false }

/-! ### Records and the stream (R302, R303, R336) -/

/-- The TLS records that hold `n` bytes, at most 2^14 bytes in each; boundaries are not promised. -/
def recordsFor (n asked : Nat) : Nat := Nat.max (ceilDiv n 16384) (Nat.min asked n)

/-- RSEQ at which a connection fails. -/
def rseqEnd : Nat := 2 ^ 64 - 1

/-- How far a sequence number lies past another. -/
def seqApart (a b : Nat) : Nat := (a % 2 ^ 32 + 2 ^ 32 - b % 2 ^ 32) % 2 ^ 32

/-- The TCP fields of an entry. -/
def Conn.sndNxt (x : Conn) : Nat := bits (x.word 5) 63 32
def Conn.sndUna (x : Conn) : Nat := bits (x.word 5) 31 0
def Conn.rcvNxt (x : Conn) : Nat := bits (x.word 6) 63 32
def Conn.sndWnd (x : Conn) : Nat := bits (x.word 6) 31 16
def Conn.mss (x : Conn) : Nat := bits (x.word 6) 15 0

/-- Bytes sent and not acknowledged. -/
def Conn.flight (x : Conn) : Nat := seqApart x.sndNxt x.sndUna

/-- The congestion window, with the initial window of RFC 5681 where the field is 0. -/
def Conn.cwnd (x : Conn) : Nat :=
  if bits (x.word 18) 31 0 ≠ 0 then bits (x.word 18) 31 0
  else x.mss * (if 2190 < x.mss then 2 else if 1095 < x.mss then 3 else 4)

/-- The slow-start threshold, with no bound where the field is 0. -/
def Conn.ssthresh (x : Conn) : Nat := if bits (x.word 18) 63 32 ≠ 0 then bits (x.word 18) 63 32 else 2 ^ 32 - 1

/-- Both windows set, kept to their fields. -/
def Conn.putWindows (x : Conn) (ssthresh cwnd : Nat) : Conn :=
  (x.put 18 63 32 (Nat.min ssthresh (2 ^ 32 - 1))).put 18 31 0 (Nat.min cwnd (2 ^ 32 - 1))

/-- Bytes that the windows let go now: the smaller of the scaled send window and the congestion window, less what is in flight. -/
def Conn.room (x : Conn) : Nat := Nat.min (x.sndWnd * 2 ^ bits (x.word 0) 39 36) x.cwnd - x.flight

/-- What the windows let go is sent, and behind it the FIN (RFC 9293). (DESIGN CHOICE, log entry 71) -/
def Conn.pump (x : Conn) : Conn :=
  let n := Nat.min x.room x.outq.length
  let fin := x.fin && x.outq.length < x.room
  { x with wire := x.wire ++ x.outq.take n, outq := x.outq.drop n, fin := x.fin && !fin }.put 5 63 32 (x.sndNxt + n + fin.toNat)

/-- The write key and the IV: numbers, sent in network byte order (R302). (DESIGN CHOICE, log entry 71) -/
def Conn.tlsKey (x : Conn) : List Byte :=
  let k := leVal ((rangeFrom 10 4).flatMap fun n => leBytes 8 (x.word n))
  if bits (x.word 0) 57 56 = 0 then beBytes 16 (k % 2 ^ 128) else beBytes 32 k
def Conn.tlsIv (x : Conn) : Nat := x.word 8 + 2 ^ 64 * (x.word 9 % 2 ^ 32)

/-- The entry after `r` records, with their bytes: RSEQ rises, and at its end the connection fails (R303). -/
def Conn.withRecords (x : Conn) (r : Nat) (bytes : List Byte) : Conn :=
  let q := Nat.min (x.word 7 + r) rseqEnd
  let y := ({ x with outq := x.outq ++ bytes }.put 7 63 0 q).pump
  if q = rseqEnd then y.setSt 6 else y

/-- The records that RSEQ lets a connection send: none goes out once it has reached its end (R303). -/
def Conn.records (x : Conn) (r : Nat) : Nat := Nat.min r (rseqEnd - x.word 7)

/-- Text sent in `r` records (R302), of which those go out that RSEQ allows. -/
def Conn.sendText (x : Conn) (r : Nat) (text : List Byte) : Conn :=
  let m := x.records r
  { x with sent := x.sent ++ text.take (recordEnd m r text) }.withRecords r (tlsRecords x.tlsKey x.tlsIv (x.word 7) m r text)

/-- The end of a stream: close_notify and FIN. A connection that RSEQ fails sends no FIN. -/
def Conn.close (x : Conn) : Conn :=
  let q := x.word 7 + 1
  let y := { x with fin := q < rseqEnd }.withRecords 1 (if x.records 1 = 0 then [] else tlsRecord x.tlsKey x.tlsIv (x.word 7) 21 [1#8, 0#8])
  if y.st = 6 then y else y.setSt 4

/-- A connection fails. -/
def State.failConn (s : State) (n : Nat) : State := s.setConn n ((s.conn n).setSt 6)

/-- The stop strings that a reading goes by: those read at the first record, or the set as it stands. -/
def State.stopsOf (s : State) (x : Conn) : Option (List (List Nat)) :=
  match x.stops with
  | some l => some l
  | none => s.stopSet x

/-- The tokens at positions NEXTPOS to FPFX - 1. -/
def State.newTokens (s : State) (x : Conn) (next fpfx : Nat) : Option (List Nat) :=
  if fpfx ≤ next then some []
  else (s.connRead x (bits (x.word 14) 47 0 + 64 + 8 * next) (8 * (fpfx - next))).map fun bs =>
    (upto (fpfx - next)).map fun k => bits (leVal ((bs.drop (8 * k)).take 8)) 23 2

/-- What a reading comes to on an entry, from its sending and the bytes of its tokens. -/
def Conn.stream (x : Conn) (d : Sending) (text : List Byte) (stops : List (List Nat)) (records : Nat) : Conn :=
  let y := x.put 15 10 0 (bits (x.word 15) 10 0 + d.pass)
  let y := if text.isEmpty then y
    else
      let z := { y with stops := some stops }.sendText (recordsFor text.length records) text
      if z.st = 2 then z.setSt 3 else z
  if d.fin && y.st ≠ 6 then y.close else y

/-- The reading of a block for a connection: `none` where one of its reads faults. (DESIGN CHOICE, log entry 70) -/
def State.readBlock (s : State) (x : Conn) (records : Nat) : Option Conn :=
  match s.connRead x (bits (x.word 14) 47 0) 64 with
  | none => none
  | some hd =>
      let h := (upto 8).map fun k => leVal ((hd.drop (8 * k)).take 8)
      let w0 := nth 0 h 0
      let next := bits (x.word 15) 10 0
      if headerBad h then none
      else match s.newTokens x next (hFpfx w0) with
        | none => none
        | some [] => if hNslot w0 ≤ next then some (x.stream { send := [], pass := 0, fin := true } [] [] records) else some x
        | some ts => match s.stopsOf x with
          | none => none
          | some ss =>
              let hold := bits (x.word 15) 20 16
              let d := sending (takePart hold ss) hold next (hNslot w0) ts
              (s.textOf x (bits (nth 0 h 4) 47 0) (bits (nth 0 h 5) 21 0) d.send).map fun text => x.stream d text ss records

/-- STREAM_AFTER_FIN (R336): the engine handles a `slot.fin` on the connection's block. (DEDUCED, log entry 72) -/
def execStreamAfterFin (conn records : Nat) (s : State) : Out :=
  let x := s.conn conn
  if x.due = 0 || !(x.st == 2 || x.st == 3) then .next s
  else
    let y := { x with due := x.due - 1, hand := x.hand + 1 }
    match s.readBlock y records with
    | some z => .next (s.setConn conn z)
    | none => .next ((s.setConn conn y).failConn conn)

/-! ### TCP events (R302, R303) -/

/-- FIN_ACKED (R303): of a FIN that has gone out. All that was sent is then acknowledged. -/
def execFinAcked (conn : Nat) (s : State) : Out :=
  let x := s.conn conn
  if x.st = 4 && !x.fin then .next (s.setConn conn ((x.put 5 31 0 x.sndNxt).setSt 5)) else .next s

/-- A connection that the engine runs. -/
def Conn.runs (x : Conn) : Bool := 2 ≤ x.st && x.st ≤ 4

/-- RST_RECEIVED (R303). -/
def execRstReceived (conn : Nat) (s : State) : Out :=
  if (s.conn conn).runs then .next (s.failConn conn) else .next s

/-- What a timeout does to the windows and to RTO (RFC 5681, RFC 6298): one segment may go, and RTO doubles from its first 1 s on. -/
def Conn.backOff (x : Conn) : Conn :=
  let rto := bits (x.word 17) 31 0
  (x.putWindows (Nat.max (x.flight / 2) (2 * x.mss)) x.mss).put 17 31 0 (Nat.min (2 * (if rto = 0 then 1000000 else rto)) (2 ^ 32 - 1))

/-- RETRANSMISSION_TIMEOUT (R302, R303): the timer and the windows move, or the limit fails the connection. -/
def execRetransmissionTimeout (conn : Nat) (limit : Bool) (s : State) : Out :=
  let x := s.conn conn
  if !x.runs then .next s
  else if limit then .next (s.failConn conn)
  else .next (s.setConn conn x.backOff)

/-! ### Received frames (R409) -/

/-- What the engine reads of a frame: IPv6, a fragment, TCP, the addresses, the ports, the bytes of payload, and of the TCP header the numbers,
ACK and FIN, and the window. -/
structure Frame where
  v6   : Bool := false
  frag : Bool := false
  tcp  : Bool := false
  src  : Nat := 0
  dst  : Nat := 0
  sport : Nat := 0
  dport : Nat := 0
  load : Nat := 0
  seq  : Nat := 0
  ack  : Nat := 0
  acks : Bool := false
  fin  : Bool := false
  wnd  : Nat := 0
  deriving DecidableEq, Repr

/-- The TCP part of a frame at `o`, with `n` bytes from there on. -/
def tcpPart (bs : List Byte) (o n : Nat) (f : Frame) : Frame :=
  { f with tcp := true, sport := beVal (slice bs o 2), dport := beVal (slice bs (o + 2) 2), load := n - 4 * (byteAt bs (o + 12) / 16)
           seq := beVal (slice bs (o + 4) 4), ack := beVal (slice bs (o + 8) 4), acks := bit (byteAt bs (o + 13)) 4
           fin := bit (byteAt bs (o + 13)) 0, wnd := beVal (slice bs (o + 14) 2) }

/-- The header that follows the extension headers of IPv6 from `nh` at `o` on, and its place (RFC 8200). -/
def v6Chain (bs : List Byte) : Nat → Nat → Nat → Nat × Nat
  | 0, nh, o => (nh, o)
  | n + 1, nh, o =>
      if [0, 43, 60, 135, 139, 140].contains nh then v6Chain bs n (byteAt bs o) (o + 8 * (byteAt bs (o + 1) + 1))
      else if nh = 51 then v6Chain bs n (byteAt bs o) (o + 4 * (byteAt bs (o + 1) + 2))
      else (nh, o)

/-- A frame read: untagged Ethernet, IPv4 or IPv6. -/
def readFrame (bs : List Byte) : Frame :=
  let ty := beVal (slice bs 12 2)
  if ty = 0x0800 then
    let ihl := 4 * (byteAt bs 14 % 16)
    let f : Frame := { src := beVal (slice bs 26 4), dst := beVal (slice bs 30 4), frag := beVal (slice bs 20 2) % 2 ^ 13 != 0 || bit (byteAt bs 20) 5 }
    if byteAt bs 23 = 6 && !f.frag then tcpPart bs (14 + ihl) (beVal (slice bs 16 2) - ihl) f else f
  else if ty = 0x86DD then
    let h := v6Chain bs bs.length (byteAt bs 20) 54
    let f : Frame := { v6 := true, src := beVal (slice bs 22 16), dst := beVal (slice bs 38 16), frag := h.1 == 44 }
    if h.1 = 6 then tcpPart bs h.2 (beVal (slice bs 18 2) + 54 - h.2) f else f
  else {}

/-- The address that two words of an entry hold: 128 bits, or the low 32 of them. -/
def Conn.addr (x : Conn) (n : Nat) : Nat :=
  if bit (x.word 0) 59 then x.word n + 2 ^ 64 * x.word (n + 1) else x.word n % 2 ^ 32

/-- A frame belongs to a committed entry (R409). -/
def Conn.matches (x : Conn) (port : Nat) (f : Frame) : Bool :=
  x.st != 0 && (bit (x.word 0) 58).toNat == port && f.tcp && bit (x.word 0) 59 == f.v6 && f.dst == x.addr 1 && f.src == x.addr 3
    && f.dport == bits (x.word 0) 31 16 && f.sport == bits (x.word 0) 15 0

/-- The connection of a frame. -/
def State.connFor (s : State) (port : Nat) (f : Frame) : Option Nat := (s.conns.find? fun e => e.2.matches port f).map (·.1)

/-- The port's half of the configuration block. -/
def State.portHalf (s : State) (port : Nat) : List Byte := slice s.pkg.netcfg (128 * port) 128

/-- An acknowledgement of `n` new bytes (RFC 9293, RFC 5681): slow start, congestion avoidance, or the end of fast recovery. The measured
times are free values. (DESIGN CHOICE, log entry 71) -/
def Conn.acked (x : Conn) (n ack fresh : Nat) : Conn :=
  let c := if 3 ≤ x.dups then x.ssthresh else if x.cwnd < x.ssthresh then x.cwnd + Nat.min n x.mss else x.cwnd + Nat.max 1 (x.mss * x.mss / x.cwnd)
  (({ x with dups := 0 }.put 5 31 0 ack).put 18 31 0 (Nat.min c (2 ^ 32 - 1))).put 17 63 0 (freeNat fresh)

/-- A duplicate acknowledgement: the third one in a row begins fast recovery (RFC 5681). -/
def Conn.duplicate (x : Conn) : Conn :=
  let y := { x with dups := x.dups + 1 }
  let half := Nat.max (x.flight / 2) (2 * x.mss)
  if x.dups = 2 then y.putWindows half (half + 3 * x.mss) else if 2 < x.dups then y.putWindows x.ssthresh (x.cwnd + x.mss) else y

/-- What a segment does to the send side: an acknowledgement outside what is in flight is ignored. -/
def Conn.sendSide (x : Conn) (f : Frame) (fresh : Nat) : Conn :=
  let n := seqApart f.ack x.sndUna
  if !f.acks || x.flight < n then x
  else
    let y := if n ≠ 0 then x.acked n f.ack fresh
      else if f.load = 0 && !f.fin && x.flight ≠ 0 && f.wnd = x.sndWnd then x.duplicate else x
    y.put 6 31 16 f.wnd

/-- The entry after a segment: the send side, the receive side, which takes what comes in order, and what the windows then let go.
An entry that the engine does not run stays as it is, and the acknowledgement of a FIN closes the connection (R303). (DESIGN CHOICE, log entry 71) -/
def Conn.segment (x : Conn) (f : Frame) (fresh : Nat) : Conn :=
  if !x.runs then x
  else
    let y := x.sendSide f fresh
    let z := (if f.seq = x.rcvNxt then y.put 6 63 32 (x.rcvNxt + f.load + f.fin.toNat) else y).pump
    if z.st = 4 && !x.fin && z.flight = 0 then z.setSt 5 else z

/-- A frame put into the next slot of a port's ring; one whose ring write faults is dropped and reported. -/
def State.placeFrame (s : State) (port : Nat) (conn : Option Nat) (bytes : List Byte) : State :=
  let h := s.portHalf port
  let n := nth 0 s.pkg.rxTail port
  let at' := (leVal (slice h 28 8) + 16384 * (n % 2 ^ byteAt h 36)) % 2 ^ 48
  let bs := leBytes 4 bytes.length ++ leBytes 4 (conn.getD (2 ^ 32 - 1)) ++ leBytes 8 s.pkg.wtime ++ bytes
  match s.writeVirt ioUnit s.pkg.netctx at' bs with
  | .error c => s.report "receive-ring-fault" [port, c]
  | .ok t => { t with pkg := { t.pkg with rxTail := setNth (n + 1) t.pkg.rxTail port } }

/-- SEGMENT_RECEIVE (R303, R409): fragments are dropped, and frames that the MTU does not admit; a segment of a connection moves its
TCP words and is placed if it has payload; every other frame is placed. A full ring drops: when that is so the host's reading decides,
so once the ring has been filled it is a free choice. (DESIGN CHOICE, log entry 71) -/
def execSegmentReceive (port : Nat) (conn : Option Nat) (bytes : List Byte) (s : State) : Out :=
  let f := readFrame bytes
  let h := s.portHalf port
  if 2 ≤ port || s.pkg.netcfg.isEmpty || conn ≠ s.connFor port f || f.frag || bytes.length < 14 || leVal (slice h 6 2) + 14 < bytes.length then
    .next s
  else
    let t := { s with fresh := s.fresh + 8 }
    let t := match conn with
      | some c => t.setConn c ((s.conn c).segment f s.fresh)
      | none => t
    if (conn.isSome && f.load == 0) || (2 ^ byteAt h 36 ≤ nth 0 s.pkg.rxTail port && freeBit (s.fresh + 7)) then .next t
    else .next (t.placeFrame port conn bytes)

end Sys2Proof.Machine
end

