-- ==== Sys2Proof/Machine/Firmware.lean ====
section
/-!
DEFINITION. REGISTER_WRITE (R6, R7): the registers of the firmware address map and of the host's BARs that have no step of their own, as they
are written and read, and what firmware does of its own will (R204, R268, R367).
-/

namespace Sys2Proof.Machine

open Sys2Proof

/-- A write to MBGO (R405): ignored while a request runs; a request that no command takes is malformed. The bits of w0 past CMD are Z, and what
is written there is ignored (R7). -/
def State.mailboxGo (s : State) : State :=
  let w0 := bits (s.mbWord 0) 7 0
  if s.pkg.mbBusy then s
  else if w0 = 0 || 8 < w0 then s.mbDone 1
  else { s with pkg := { s.pkg with mbBusy := true } }

/-- One of a core's comparators written (R381). -/
def State.setDbg (s : State) (core n : Nat) (data : Bool) (f : Dbg → Dbg) : State :=
  let c := s.core core
  if 1536 ≤ core then s
  else s.setCore core (if data then { c with dbgDa := setNth (f (nth {} c.dbgDa n)) c.dbgDa n } else { c with dbgPc := setNth (f (nth {} c.dbgPc n)) c.dbgPc n })

/-- Bits of DBGPC and of DBGDA that are no Z field. -/
def dbgPcMask : DWord := 0x83F0FFFFFFFFFFFF#64
def dbgDaMask : DWord := 0xE3F0FFFFFFFFFFFF#64

/-- The mask bit of an MSI-X vector (R403, R408). -/
def State.maskVector (s : State) (n : Nat) (on : Bool) : State :=
  if 64 ≤ n then s
  else { s with pkg := { s.pkg with msixMask := if on then insertNum n s.pkg.msixMask else s.pkg.msixMask.filter (· != n) } }

/-- A remote window set or, with size 0, removed (R412). -/
def State.setWindow (s : State) (n base size peer peerBase : Nat) : State :=
  if 64 ≤ n || base % 2 ^ 21 ≠ 0 || size % 2 ^ 21 ≠ 0 || isCxl base || 4096 ≤ peer then s
  else { s with pkg := { s.pkg with
    windows := if size = 0 then Tab.drop s.pkg.windows n else Tab.set s.pkg.windows n [base, size, peer, peerBase] } }

/-- A context register written by firmware. -/
def State.onCtx (s : State) (c : Nat) (f : Ctx → Ctx) : State := if c < 64 then s.setCtx c (f (s.ctx c)) else s

/-- TTBASE (R298): a multiple of 64 KiB; no write changes that of a context that exists. (DEDUCED, log entry 55) -/
def Ctx.setTtbase (x : Ctx) (v : Nat) : Ctx := if x.live || v % 65536 ≠ 0 then x else { x with ttbase := v % 2 ^ 48 }

/-- REGISTER_WRITE (R6, R7): RO fields and Z fields keep what they hold. (DESIGN CHOICE, log entry 89) -/
def execRegisterWrite (r : Reg) (v : DWord) (s : State) : Out :=
  let x := v.toNat
  .next (match r with
    | .bindidx => { s with pkg := { s.pkg with bindidx := bits x 14 0 } }
    | .bindw n => if n = 0 then s.bindCommit v else if n ≤ 7 then s.stageBind n x else s
    | .gate d => if d < 4 then s.setDie d { s.die d with margin := bits x 15 0 } else s
    | .relidx => { s with pkg := { s.pkg with relidx := bits x 11 0 } }
    | .reldata => s
    | .ttbase c => s.onCtx c fun y => y.setTtbase x
    | .tvec c => s.onCtx c fun y => { y with tvec := tvecMask x }
    | .keyid _ => s
    | .owner _ => s
    | .frcmdW1 d => if d < 4 then s.setDie d { s.die d with frcmd := v } else s
    | .frslot _ _ => s
    | .prcmdW1 => { s with pkg := { s.pkg with prcmd := v } }
    | .dbgPc c n => s.setDbg c n false fun d => { d with w := v &&& dbgPcMask }
    | .dbgPm c n => s.setDbg c n false fun d => { d with m := BitVec.ofNat 64 (bits x 31 0) }
    | .dbgDa c n => s.setDbg c n true fun d => { d with w := v &&& dbgDaMask }
    | .dbgDm c n => s.setDbg c n true fun d => { d with m := BitVec.ofNat 64 (bits x 39 0) }
    | .dmode _ => s
    | .pest _ => s
    | .cecnt c => if c < 1536 then s.setCore c { s.core c with cecnt := w1c (s.core c).cecnt x } else s
    | .commitLimit => { s with pkg := { s.pkg with commitUs := x } }
    | .mailbox n => if n < 8 then { s with pkg := { s.pkg with mailbox := setNth v s.pkg.mailbox n } } else s
    | .mbgo => s.mailboxGo
    | .mbstat => s
    | .msixMask n => s.maskVector n (bit x 0)
    | .connWord c n => s.stageConn c n v
    | .crtail _ => s
    | .remoteWindow n base size peer peerBase => s.setWindow n base size peer peerBase
    | .attach c => s.onCtx c fun y => { y with attached := bit x 0 }
    | .rewrite c w t i => (s.rewrite c w t i).noteInst c t i)

/-! ### Reads of registers (R6, R7) -/

/-- The status word FRSLOT of a slot (R319). -/
def Front.status (x : Front) : Nat := x.st + x.pts.length * 2 ^ 4 + x.cause * 2 ^ 16

/-- The doorbell of a queue (R407). -/
def Queue.doorbell (y : Queue) : Nat := y.head * 2 ^ 32 + y.tail

/-- What a read of a register returns: WO fields, the words of a command in the mailbox, Z fields and numbers that name no register read as zero. The
last three constructors of Reg are no registers. (DESIGN CHOICE, log entry 95) -/
def State.regRead (s : State) (r : Reg) : Nat :=
  match r with
  | .bindidx => s.pkg.bindidx
  | .bindw n => if s.pkg.bindidx < 24576 && n < 8 then (s.bind s.pkg.bindidx).word n else 0
  | .gate d => if d < 4 then s.gateWord d else 0
  | .relidx => s.pkg.relidx
  | .reldata => s.relData
  | .ttbase c => (s.ctx c).ttbase
  | .tvec c => (s.ctx c).tvec.toNat
  | .keyid c => (s.ctx c).key
  | .owner c => if c < 64 then ownerWord (s.ctx c) c else 0
  | .frcmdW1 _ => 0
  | .frslot d n => if d < 4 && n < 16 then (s.front d n).status else 0
  | .prcmdW1 => 0
  | .dbgPc c n => (nth {} (s.core c).dbgPc n).w.toNat
  | .dbgPm c n => (nth {} (s.core c).dbgPc n).m.toNat
  | .dbgDa c n => (nth {} (s.core c).dbgDa n).w.toNat
  | .dbgDm c n => (nth {} (s.core c).dbgDa n).m.toNat
  | .dmode d => if d < 4 then (s.die d).change.isSome.toNat * 2 + (s.die d).fixed.toNat else 0
  | .pest d => if d < 4 then (s.die d).pest else 0
  | .cecnt c => (s.core c).cecnt
  | .commitLimit => s.pkg.commitUs
  | .mailbox n => if n = 0 then bits (s.mbWord 0) 7 0 else 0
  | .mbgo => 0
  | .mbstat => s.pkg.mbStatus * 2 ^ 8 + s.pkg.mbBusy.toNat
  | .msixMask n => (s.pkg.msixMask.contains n).toNat
  | .connWord c n => (s.conn c).seen n
  | .crtail c => (s.ctx c).crtail
  | .remoteWindow _ _ _ _ _ | .attach _ | .rewrite _ _ _ _ => 0

/-! ### Accesses of the host to its BARs (R403) -/

/-- The 4-byte word at an offset of BAR0 as a read returns it: the mailbox (R405), the doorbells (R407), the completion registers (R408) and the MSI-X
table, whose layout is that of PCIe. (PRESUMED, log entry 104) -/
def State.bar0Word (s : State) (off : Nat) : Nat :=
  let half := fun v : Nat => v / 2 ^ (off % 8 * 8) % 2 ^ 32
  let o := off % 65536
  if off < 64 then half (s.regRead (.mailbox (off / 8)))
  else if off / 8 = 9 then half (s.regRead .mbstat)
  else if off / 65536 = 1 && o < 8192 then half (s.queue (o / 128) (o % 128 / 8)).doorbell
  else if off / 65536 = 2 && o < 1024 then (if off % 16 = 0 then (s.ctx (o / 16)).crtail else if off % 16 = 8 then (s.ctx (o / 16)).crhead else 0)
  else if off / 65536 = 3 && o < 1024 then
    (if off % 16 = 12 then s.regRead (.msixMask (o / 16)) else Tab.get 0 s.pkg.msixTab (o / 4))
  else 0

/-- A 4-byte word written at an offset of BAR0; where nothing is or only RO fields are it changes nothing. (PRESUMED, log entry 104) -/
def State.setBar0Word (s : State) (off v : Nat) : State :=
  let o := off % 65536
  let lo := off % 8 * 8
  if off < 64 then
    { s with pkg := { s.pkg with mailbox := setNth (BitVec.ofNat 64 (putBits (s.mbWord (off / 8)) (lo + 31) lo v)) s.pkg.mailbox (off / 8) } }
  else if off = 64 then s.mailboxGo
  else if off / 65536 = 1 && o < 8192 && off % 8 = 0 then s.ringDoorbell (o / 128) (o % 128 / 8) v
  else if off / 65536 = 2 && o < 1024 && off % 16 = 8 then s.setCrhead (o / 16) v
  else if off / 65536 = 3 && o < 1024 then
    (if off % 16 = 12 then s.maskVector (o / 16) (bit v 0)
     else { s with pkg := { s.pkg with msixTab := Tab.set s.pkg.msixTab (o / 4) (if off % 16 = 0 then v - v % 4 else v) } })
  else s

/-- An access of 4 or 8 bytes at a multiple of its size. -/
def barAligned (off n : Nat) : Bool := (n == 4 || n == 8) && off % n == 0

/-- A read of the host in a BAR (R403): the connection window holds 8-byte words (R302). What no rule places there reads as zero.
(DESIGN CHOICE, log entry 105) -/
def State.barRead (s : State) (bar off n : Nat) : State :=
  if bar = 2 then s.apertureRead off n
  else if bar = 0 && barAligned off n then s.answer ((upto (n / 4)).flatMap fun k => leBytes 4 (s.bar0Word (off + 4 * k)))
  else if bar = 4 && n = 8 && off % 8 = 0 then s.answer (leBytes 8 ((s.conn (off / 256)).seen (off / 8 % 32)))
  else s.answer (zeros n)

/-- A write of the host in a BAR (R403): w0 of a connection entry commits it (R302). What no rule places there takes no write.
(DESIGN CHOICE, log entry 105) -/
def State.barWrite (s : State) (bar off : Nat) (bytes : List Byte) : State :=
  let n := bytes.length
  if bar = 2 then s.apertureWrite off bytes
  else if bar = 0 && barAligned off n then
    (upto (n / 4)).foldl (fun t k => t.setBar0Word (off + 4 * k) (leVal ((bytes.drop (4 * k)).take 4))) s
  else if bar = 4 && n = 8 && off % 8 = 0 then
    (if off / 8 % 32 = 0 then s.commitConn (off / 256) (BitVec.ofNat 64 (leVal bytes))
     else s.stageConn (off / 256) (off / 8 % 32) (BitVec.ofNat 64 (leVal bytes)))
  else s

/-! ### Acts of firmware -/

/-- A queued task goes to the end of another die's queue that has room (R268). -/
def State.moveTask (s : State) (src k dst : Nat) : State :=
  match (s.die src).tasks[k]? with
  | none => s
  | some t =>
      if 4 ≤ dst || src = dst || 4096 ≤ (s.die dst).tasks.length then s
      else
        let u := s.setDie src { s.die src with tasks := dropNth (s.die src).tasks k }
        u.setDie dst { u.die dst with tasks := (u.die dst).tasks ++ [t] }

/-- The words of a core's error log, in the layout of MERRLOG0 and MERRLOG1 (R366, R367). -/
def CoreSt.errorBytes (c : CoreSt) : List Byte := c.elog.flatMap fun e => leBytes 8 e.1.toNat ++ leBytes 8 e.2.toNat

/-- What firmware does of its own will, and reads that have no row; a table that lies outside memory is not written. When they come is an input of
the machine. (DESIGN CHOICE, log entry 95) -/
def State.firmware (s : State) (f : Fw) : State :=
  match f with
  | .moveTask src k dst => s.moveTask src k dst
  | .readErrors core => s.answer (s.core core).errorBytes
  | .setEntry table i e => if s.backed (table + 8 * i) 8 then s.putPte table i e.toNat else s
  | .readReg r => s.answer (leBytes 8 (s.regRead r))
  | .readPcap d => s.answer (leBytes 8 (if d < 4 then (s.die d).pcap else 0))
  | .readTwdog => s.answer (leBytes 8 s.pkg.twdog)
  | .readDoorbell c q => s.answer (leBytes 8 (s.queue c q).doorbell)
  | .readCrhead c => s.answer (leBytes 8 (s.ctx c).crhead)
  | .readIdentity => s.answer (identityPublic ++ identityCert)
  | .barRead bar off n => s.barRead bar off n
  | .barWrite bar off bytes => s.barWrite bar off bytes

end Sys2Proof.Machine
end

