-- ==== Sys2Proof/Machine/Frontier.lean ====
section
/-!
DEFINITION. The frontier store: firing and completion of points (R311, R312), mirrors (R317), and the commands of FRCMD (R318 to R323).
-/

namespace Sys2Proof.Machine

open Sys2Proof

/-! ### Points -/

/-- POINT_FIRE (R311): a running slot fires its lowest ready point while fewer than 64 are in flight. -/
def execPointFire (die fid : Nat) (s : State) : Out :=
  let x := s.front die fid
  if x.st ≠ 1 || 64 ≤ x.pts.length then .next s
  else match x.nextPoint with
    | none => .next s
    | some lin => .next (s.setFront die fid { x with pts := x.pts ++ [{ lin := lin }] })

/-- A point leaves the slot with its completion recorded (R309, R312). -/
def Front.complete (x : Front) (lin : Nat) : Front :=
  let n := x.sweep.inner
  let r := lin / n
  { x with rows := Tab.set x.rows r (rowRecord (Tab.get 0#32 x.rows r) (lin % n)), pts := x.pts.filter (·.lin != lin) }

/-- POINT_COMPLETION (R312): the group of a point has ended, with its jobs, copies and programs. -/
def execPointCompletion (die fid point : Nat) (s : State) : Out :=
  let x := s.front die fid
  if x.st = 0 || 3 < x.st || !x.pts.any (fun p => p.lin == point && p.ended) then .next s
  else .next (s.setFront die fid (x.complete point))

/-! ### Mirrors (R317) -/

/-- A slot keeps the rows of its part. -/
def Front.holdsRows (x : Front) : Bool := 1 ≤ x.st && x.st ≤ 4

/-- The word of a row as the slot of the launch that owns it holds it. -/
def State.ownerWord (s : State) (x : Front) (row : Nat) : Option Word :=
  (s.dies.flatMap (·.fronts)).findSome? fun y =>
    if y.holdsRows && y.ctx == x.ctx && y.launch == x.launch && y.owns row then some (Tab.get 0#32 y.rows row) else none

/-- The halo rows of a slot. -/
def Front.haloRows (x : Front) : List Nat := x.sweep.halo x.rfirst x.rlast

/-- Mirrors of a slot brought up to date. -/
def State.mirrored (s : State) (x : Front) (rows : List Nat) : Front :=
  rows.foldl (fun y r => match s.ownerWord x r with
    | some w => { y with mirror := Tab.set y.mirror r w }
    | none => y) x

/-- MIRROR_UPDATE (R317). -/
def execMirrorUpdate (die fid row : Nat) (s : State) : Out :=
  let x := s.front die fid
  if !x.holdsRows || !x.haloRows.contains row then .next s
  else .next (s.setFront die fid (s.mirrored x [row]))

/-! ### FRCMD (R318) -/

/-- Fields of w0. -/
def frFid (w0 : DWord) : Nat := bits w0.toNat 59 56
def frCtx (w0 : DWord) : Nat := bits w0.toNat 55 50
def frAddr (w0 : DWord) : Nat := bits w0.toNat 47 0

/-- The image address of SAVE and RESTORE, a multiple of 64. (DEDUCED, log entry 64) -/
def frImage (w0 : DWord) : Nat := frAddr w0 / 64 * 64

/-- A command that is not accepted: CAUSE 5, reported. (DEDUCED, log entry 65) -/
def State.frIgnore (s : State) (die : Nat) (w0 : DWord) : State :=
  let fid := frFid w0
  (s.setFront die fid { s.front die fid with cause := 5 }).report "frontier" [die, fid, 5]

/-- The running frontier node of a context that satisfies a test: queue and node. -/
def State.frontNode (s : State) (ctx : Nat) (f : Node → Bool) : Option (Nat × Nat) :=
  (s.ctx ctx).queues.findSome? fun q =>
    ((upto q.2.nodes.length).find? fun n => (q.2.node n).st == 1 && (q.2.node n).kind == 1 && f (q.2.node n)).map fun n => (q.1, n)

/-- Queue, node and launch of a part: of the running node, else of another part of the same descriptor, else a new launch.
(DEDUCED, log entry 64) -/
def State.partLaunch (s : State) (ctx : Nat) (words : List DWord) (f : Node → Bool) : (Nat × Nat × Nat) × State :=
  match s.frontNode ctx f with
  | some (q, n) => ((q, n, ((s.queue ctx q).node n).launch), s)
  | none =>
      match (s.dies.flatMap (·.fronts)).find? fun y => y.holdsRows && y.ctx == ctx && y.words == words with
      | some y => ((y.queue, y.node, y.launch), s)
      | none =>
          let r := s.newLaunch { ctx := ctx, queue := 0, node := 0, det := bit (s.ctx ctx).mode 1, blocks := 0 }
          ((0, 0, r.1), r.2)

/-- START: the descriptor is read and the rows of the part are zero. (DEDUCED, log entry 64) -/
def State.startPart (s : State) (die fid ctx addr a b : Nat) : State :=
  let c := s.frontCheck ctx addr
  let words := c.2.take 6
  let v := sweepOf (nth 0#64 words 1).toNat (nth 0#64 words 2).toNat
  let bad := fun cause => (s.setFront die fid { st := 5, cause := cause, ctx := ctx }).report "frontier" [die, fid, cause]
  if c.1 ≠ 0 then bad 1
  else if !v.partFits a b then bad 4
  else
    let r := s.partLaunch ctx words fun n => n.desc == addr
    r.2.setFront die fid
      { st := 1, ctx := ctx, queue := r.1.1, node := r.1.2.1, launch := r.1.2.2, words := words, rfirst := a, rlast := b }

/-- FRONTIER_START (R318). A write of an OP that no command has is ignored and reported too. (DEDUCED, log entry 73) -/
def execFrontierStart (die : Nat) (w0 : DWord) (s : State) : Out :=
  let w1 := (s.die die).frcmd.toNat
  if (s.front die (frFid w0)).st ≠ 0 || bits w0.toNat 63 60 ≠ 1 then .next (s.frIgnore die w0)
  else .next (s.startPart die (frFid w0) (frCtx w0) (frAddr w0) (bits w1 13 0) (bits w1 27 14))

/-- FRONTIER_STOP (R320): firing stops, points not yet bound are withdrawn, and the watchdog of retirement starts. -/
def execFrontierStop (die : Nat) (w0 : DWord) (s : State) : Out :=
  let x := s.front die (frFid w0)
  let w := bits (s.die die).frcmd.toNat 47 32
  if x.st ≠ 1 then .next (s.frIgnore die w0)
  else .next (s.setFront die (frFid w0) { x with
    st := 2, pts := x.pts.filter fun p => p.team.isSome || p.ended || p.saved, expired := false
    due := s.pkg.wtime + 1000 * (if w = 0 then 100 else w) })

/-- FRONTIER_RETIREMENT_EXPIRY (R320): the unit asks firmware for the pre-emption of every point still in flight. (DEDUCED, log entry 65) -/
def execFrontierRetirementExpiry (die fid : Nat) (s : State) : Out :=
  let x := s.front die fid
  if x.st ≠ 2 || x.expired || s.pkg.wtime < x.due then .next s
  else .next ((s.setFront die fid { x with expired := true }).report "frontier-preempt" ([die, fid] ++ x.pts.filterMap (·.team)))

/-! ### Images (R321, R322) -/

/-- Points in ascending linear index. -/
def insertPoint (p : Point) : List Point → List Point
  | [] => [p]
  | q :: qs => if p.lin ≤ q.lin then p :: q :: qs else q :: insertPoint p qs

/-- Where the in-flight entries of an image lie. -/
def entriesAt (rows : Nat) : Nat := roundUp (64 + 4 * rows) 16

/-- The image of a slot. -/
def Front.image (x : Front) : List Byte :=
  let n := x.rlast + 1 - x.rfirst
  let entry := fun p : Point =>
    let c := x.sweep.coords p.lin
    leBytes 8 (c.2.2 * 2 ^ 24 + c.2.1 * 2 ^ 12 + c.1) ++ leBytes 8 p.cimg
  padTo (entriesAt n)
    (wordsLe ((upto 6).map (fun k => (nth 0#64 x.words k).toNat) ++ [x.pts.length * 2 ^ 32 + x.rlast * 2 ^ 16 + x.rfirst, 0])
      ++ (rangeFrom x.rfirst n).flatMap fun r => leBytes 4 (Tab.get 0#32 x.rows r).toNat)
    ++ (x.pts.foldr insertPoint []).flatMap entry

/-- FRONTIER_SAVE (R321). -/
def execFrontierSave (die : Nat) (w0 : DWord) (s : State) : Out :=
  let x := s.front die (frFid w0)
  if x.st ≠ 3 then .next (s.frIgnore die w0)
  else .next ((s.writeUnit (s.ctx x.ctx).key (frImage w0) x.image).setFront die (frFid w0) {})

/-- A row word of an image is canonical for an extent. -/
def rowGood (inner : Nat) (w : Word) : Bool := rowCount w ≤ inner && rowLook w < 2 ^ (inner - rowCount w - 1)

/-- The point of an entry in a space; `none` outside it. -/
def entryPoint (v : Sweep) (w : Nat) : Option Nat :=
  let a := bits w 11 0
  let b := bits w 23 12
  let c := bits w 35 24
  if v.dims = 1 then (if a < v.e0 then some a else none)
  else if v.dims = 2 then (if a < v.e0 && b < v.e1 then some (a * v.e1 + b) else none)
  else if a < v.e0 && b < v.e1 && c < v.e2 then some ((a * v.e1 + b) * v.e2 + c) else none

/-- A point may be in flight in a part: it lies there, is not complete, and keeps to the look-ahead limit. -/
def Front.mayFly (x : Front) (lin : Nat) : Bool :=
  let n := x.sweep.inner
  let w := Tab.get 0#32 x.rows (lin / n)
  x.owns (lin / n) && !pointDone w (lin % n) && lin % n ≤ rowCount w + 16

/-- A slot read from an image, `none` where the image is malformed (R322). (DEDUCED, log entry 64) -/
def State.frontImage (s : State) (ctx addr : Nat) : Option Front :=
  let key := (s.ctx ctx).key
  let hd := s.bytesAs key addr 64
  let words := (dwords hd 6)
  let v := sweepOf (wordLe hd 1) (wordLe hd 2)
  let w6 := wordLe hd 6
  let a := bits w6 13 0
  let b := bits w6 29 16
  let ninf := bits w6 38 32
  let entry := match s.readDesc ioUnit ctx (bits (wordLe hd 0) 47 0) with | .ok (some d) => d.team == 0 | _ => false
  if !frontWordsGood (words.map (·.toNat) ++ [w6 - bits w6 38 32 * 2 ^ 32 - b * 2 ^ 16 - a, wordLe hd 7]) || !entry || !v.partFits a b || 64 < ninf then none
  else
    let rows := (rangeFrom a (b + 1 - a)).map fun r => (r, BitVec.ofNat 32 (leVal (s.bytesAs key (addr + 64 + 4 * (r - a)) 4)))
    let x : Front := { st := 3, ctx := ctx, words := words, rfirst := a, rlast := b, rows := rows }
    let es := (upto ninf).map fun k =>
      let bs := s.bytesAs key (addr + entriesAt (b + 1 - a) + 16 * k) 16
      (entryPoint v (wordLe bs 0), bits (wordLe bs 1) 47 0)
    if rows.all (fun r => rowGood v.inner r.2) && es.all (fun e => match e.1 with | some p => x.mayFly p | none => false) then
      some { x with pts := es.map fun e => { lin := e.1.getD 0, saved := true, cimg := e.2 } }
    else none

/-- FRONTIER_RESTORE (R322). -/
def execFrontierRestore (die : Nat) (w0 : DWord) (s : State) : Out :=
  let fid := frFid w0
  if (s.front die fid).st ≠ 0 then .next (s.report "frontier" [die, fid, 2])
  else match s.frontImage (frCtx w0) (frImage w0) with
    | none => .next ((s.setFront die fid { cause := 3 }).report "frontier" [die, fid, 3])
    | some x =>
        let r := s.partLaunch x.ctx x.words fun n => n.words.drop 4 == x.words
        .next (r.2.setFront die fid { x with queue := r.1.1, node := r.1.2.1, launch := r.1.2.2 })

/-- FRONTIER_RESUME (R323): the mirrors are rebuilt and the slot runs. -/
def execFrontierResume (die : Nat) (w0 : DWord) (s : State) : Out :=
  let x := s.front die (frFid w0)
  if x.st ≠ 3 then .next (s.frIgnore die w0)
  else .next (s.setFront die (frFid w0) { s.mirrored { x with mirror := [] } x.haloRows with st := 1 })

/-- FRONTIER_RELEASE (R318): the rows of a complete part reach every mirror before the slot is free. (DEDUCED, log entry 65) -/
def execFrontierRelease (die : Nat) (w0 : DWord) (s : State) : Out :=
  let x := s.front die (frFid w0)
  if x.st != 4 && x.st != 5 then .next (s.frIgnore die w0)
  else
    let fresh := fun (y : Front) => if y.holdsRows then s.mirrored y (y.haloRows.filter x.owns) else y
    let t := { s with dies := s.dies.map fun d : Die => { d with fronts := d.fronts.map fresh } }
    .next (t.setFront die (frFid w0) {})

end Sys2Proof.Machine
end

