-- ==== Sys2Proof/Machine/Narrow.lean ====
section
/-!
DEFINITION. Conversions between the formats (R84, R161) and the block instructions across a group (R163 to R166).
-/

namespace Sys2Proof.Machine

open Sys2Proof

/-- TY codes of the floating-point, integer and narrow types. -/
def isFp (t : Nat) : Bool := 7 ≤ t && t ≤ 9
def isInt (t : Nat) : Bool := 1 ≤ t && t ≤ 6

/-- NV of a value quantised under R89. -/
def nbNv (x : FVal) : Nat := if x.finite then 0 else fNV

/-- `fcvt` of the word `a` in lane `l`, with the scale word `b` (R161). -/
def fcvtWord (f : Fields) (a b : Word) (l : Nat) : FRes :=
  let src := f.sub.toNat
  let dst := f.tyN
  if isFp src && isFp dst then
    (fmtOf dst).finish f.sat ((fmtOf dst).put f.rm ((fmtOf src).val (a.toNat % 2 ^ (fmtOf src).width)))
  else if isFp src && isInt dst then
    let r := toLimits f.rm ((fmtOf src).val (a.toNat % 2 ^ (fmtOf src).width)) (intLo dst) (intHi dst)
    ⟨(intExt dst (wrap r.1 (intWidth dst))).toNat, if r.2 then fNV else 0⟩
  else if isInt src then (fmtOf dst).finish f.sat ((fmtOf dst).ofInteger f.rm (intVal src a))
  else if isFp src then ⟨nbCode dst b.toNat l (fp32.val a.toNat), nbNv (fp32.val a.toNat)⟩
  else (fmtOf dst).finish f.sat ((fmtOf dst).put f.rm (nbVal src b.toNat l a.toNat))

def execFcvt (f : Fields) (s : State) : Out :=
  fpCompute (.fcvt f) f s fun v l => fcvtWord f (v.a f l) (v.reg f.ub f.b.toNat l) l

/-- Element `i` of the block of `nbscale` and `nbpack` (R163). -/
def blockElem (f : Fields) (v : View) (i : Nat) : FVal :=
  if v.act.getLsbD i then fp32.val (v.a f i).toNat else .fin false 0 0

/-- NV of the active lanes that hold a non-finite value. -/
def blockEvents (f : Fields) (v : View) : List Ev :=
  (lanesOf v.act).map fun l => ⟨l, nbNv (blockElem f v l)⟩

def execNbscale (f : Fields) (s : State) : Out :=
  onceOnly (.nbscale f) f s fun v =>
    (s.writeU f.d.toNat (BitVec.ofNat 32 (nbScaleWord (mkLanes (blockElem f v))))).laneEvents (blockEvents f v)

/-- The packed image of the lanes' values under the scale word in `sB` (R165). -/
def packImage (f : Fields) (v : View) : Nat :=
  nbImage f.tyN (mkLanes fun i => nbCode f.tyN (v.w.ur f.b.toNat).toNat i (blockElem f v i))

def execNbpack (f : Fields) (s : State) : Out :=
  issued (.nbpack f) f s fun v =>
    ((s.writeV f.d.toNat v.act fun l =>
        if l < nbWords f.tyN then BitVec.ofNat 32 (packImage f v / 2 ^ (32 * l)) else 0#32).laneEvents
      (blockEvents f v)).retire

/-- The image that `nbunpack` reads from the lowest lanes, as `vA` stood before the cycle (R163). -/
def unpackImage (f : Fields) (v : View) : Nat :=
  (upto (nbWords f.tyN)).foldr (fun j t => (v.w.vr f.a.toNat j).toNat + t * 2 ^ 32) 0

/-- Element `l` of the image as FP32 (R166). -/
def unpackElem (f : Fields) (v : View) (l : Nat) : FRes :=
  fp32.finish false (fp32.put f.rm
    (nbVal f.tyN (v.w.ur f.b.toNat).toNat l (nbElem f.tyN (unpackImage f v) l)))

def execNbunpack (f : Fields) (s : State) : Out :=
  fpCompute (.nbunpack f) f s fun v l => unpackElem f v l

end Sys2Proof.Machine
end

