-- ==== Sys2Proof/Machine/PageIn.lean ====
section
/-!
DEFINITION. Page-ins of a tier-miss (R209) and RESUMEG (R373), by which firmware ends a freeze once it has brought the page in.
-/

namespace Sys2Proof.Machine

open Sys2Proof

/-- A leaf as its table holds it: the table, the index and the entry, with the page that it maps. -/
structure Leaf where
  table : Nat
  index : Nat
  word  : Nat
  va    : Nat
  size  : Nat
  deriving DecidableEq, Repr

/-- The leaf that translates an address of a context; `none` where the walk of R203 ends in a fault. -/
def State.leafOf (s : State) (ctx va : Nat) : Option Leaf :=
  match s.walk ctx va with
  | .error _ => none
  | .ok e =>
      let t2 := pteBase (s.pte (s.ctx ctx).root (bits va 47 34))
      let e2 := s.pte t2 (bits va 33 21)
      if bit e2 1 then some ⟨t2, bits va 33 21, e2, e.va, 2 ^ 21⟩
      else some ⟨pteBase e2, bits va 20 16, s.pte (pteBase e2) (bits va 20 16), e.va, 65536⟩

/-- The physical base of the page that a leaf maps, and whether it lies in the far tier. -/
def Leaf.base (x : Leaf) : Nat := pteBase x.word
def Leaf.tier (x : Leaf) : Bool := bit x.word 5

/-- The entry that firmware writes: the HBM base, the tier bit clear, the permissions as they were. -/
def Leaf.moved (x : Leaf) (frame : Nat) : Nat := x.word - x.base - 2 ^ 5 * x.tier.toNat + frame

/-- The lines of a page carried in: under the context's key, with their records closed, and poisoned where the expander reported poison.
(DEDUCED, log entry 88) -/
def State.carryIn (s : State) (key src dst lines : Nat) : State :=
  let t := s.writeLines key dst lines fun l => s.bytesAs key (src + 64 * l) 64
  (upto lines).foldl (fun t l => if (s.sideOf (src / 64 + l)).pois then t.markLine (dst + 64 * l) else t) t

/-- Every TLB entry of a context in a range dropped on every die. -/
def State.dropRange (s : State) (ctx lo hi : Nat) : State :=
  let f := fun es : List TlbE => es.filter fun e => !e.inRange ctx lo hi
  { s with dies := s.dies.map fun (d : Die) => { d with stlb := f d.stlb }
           cores := s.cores.map fun (e : Nat × CoreSt) => (e.1, { e.2 with tlb := f e.2.tlb }) }

/-- The page-in (R209): the page's lines, the leaf, and the invalidation. (DEDUCED, log entry 88) -/
def State.pageIn (s : State) (ctx frame : Nat) (x : Leaf) : State :=
  let t := s.carryIn (s.ctx ctx).key x.base frame (x.size / 64)
  (t.putPte x.table x.index (x.moved frame)).dropRange ctx x.va (x.va + x.size)

/-- Firmware must wait with a page-in for every outstanding job or engine program of the context whose footprint overlaps the page. -/
def State.pageBusy (s : State) (ctx : Nat) (x : Leaf) : Bool :=
  s.feet.any fun k => k.ctx == ctx && regionsMeet [(x.va / 65536, x.size / 65536)] (k.reads ++ k.writes)

/-- What firmware does before it resumes a group that a tier-miss froze: the page is brought in to `frame` unless that has been done for another
group; `none` while it must wait, or where the frame cannot hold the page. (DEDUCED, log entry 88) -/
def State.bringIn (s : State) (ctx va frame : Nat) : Option State :=
  match s.leafOf ctx va with
  | none => some s
  | some x =>
      if !x.tier then some s
      else if s.pageBusy ctx x || !s.frameOk frame x.size then none
      else some (s.pageIn ctx frame x)

/-- A frozen group goes on exactly as captured; the access that met a fault of a walk walks again (R204). A ticket-stall fault so ended
restarts the watchdog (R257). -/
def State.unfreeze (s : State) (gid : Nat) (r : TrapInfo) : State :=
  let s := s.walkAgain gid r
  let g := s.grp gid
  let tr := { g.trap with
    frozen := none, toFw := false
    k := if isWalkFault r.code then r.k else g.trap.k, kLanes := if isWalkFault r.code then r.planes else g.trap.kLanes
    supp := if r.supp then g.trap.supp ||| r.planes else g.trap.supp }
  let u := s.setGrp gid { g with trap := tr }
  (if r.code = 0x25 then u.restartTicket (s.team g.team).launch else u).barCatch gid

/-- Firmware cannot resume the group yet (R204, R209): no CXL minimum has passed since a tier-miss, or the page of a mapped range has no
translation. (DEDUCED, log entry 88) -/
def State.resumeWaits (s : State) (gid : Nat) (r : TrapInfo) : Bool :=
  (r.code == fTier && s.pkg.wtime < (s.grp gid).trap.till)
    || (s.mappedFault gid r && match s.walk (s.team (s.grp gid).team).ctx r.addr with | .ok _ => false | .error _ => true)

/-- RESUMEG (R373, R204, R209). (DEDUCED, log entries 49, 88) -/
def execResumeg (w0 : DWord) (frame : Nat) (s : State) : Out :=
  let gid := s.cmdIndex
  let g := s.grp gid
  match g.held with
  | none => .next (s.report "prcmd-ignored" [bits w0.toNat 63 60, gid])
  | some r =>
      if s.resumeWaits gid r then .next s
      else if r.code ≠ fTier then .next (s.unfreeze gid r)
      else match s.bringIn (s.team g.team).ctx r.addr frame with
        | none => .next s
        | some t => .next (t.unfreeze gid r)

end Sys2Proof.Machine
end

