-- ==== Sys2Proof/Machine/Predicate.lean ====
section
/-!
DEFINITION. The predicate instructions (R196, R197).
-/

namespace Sys2Proof.Machine

open Sys2Proof

/-- Predicate source A, and predicate source B. -/
def View.pa (v : View) (f : Fields) (l : Nat) : Half := v.g.pr f.a.toNat l
def View.pb (v : View) (f : Fields) (l : Nat) : Half := v.g.pr f.b.toNat l

def execPand (f : Fields) (s : State) : Out := predicateOnly (.pand f) f s fun v l => v.pa f l &&& v.pb f l
def execPor (f : Fields) (s : State) : Out := predicateOnly (.por f) f s fun v l => v.pa f l ||| v.pb f l
def execPxor (f : Fields) (s : State) : Out := predicateOnly (.pxor f) f s fun v l => v.pa f l ^^^ v.pb f l
def execPnot (f : Fields) (s : State) : Out := predicateOnly (.pnot f) f s fun v l => ~~~(v.pa f l)
def execPmov (f : Fields) (s : State) : Out := predicateOnly (.pmov f) f s fun v l => v.pa f l

def execPset (f : Fields) (s : State) : Out :=
  predicateOnly (.pset f) f s fun v l => (if f.len = .l64 then v.a f l else f.imm).setWidth 16

def execPget (f : Fields) (s : State) : Out := vectorOnly (.pget f) f s fun v l => (v.pa f l).setWidth 32

/-- The operations of R197 on bit `k`. -/
def pbitOp (op : Nat) (x : Half) (k : Nat) : Half :=
  match op with
  | 0 => x ||| BitVec.ofNat 16 (2 ^ k)
  | 1 => x &&& ~~~(BitVec.ofNat 16 (2 ^ k))
  | 2 => x ^^^ BitVec.ofNat 16 (2 ^ k)
  | _ => boolHalf (x.getLsbD k)

def execPbit (f : Fields) (s : State) : Out :=
  predicateOnly (.pbit f) f s fun v l => pbitOp f.c.toNat (v.pa f l) ((v.breg f l).toNat % 16)

end Sys2Proof.Machine
end

