-- ==== Sys2Proof/Machine/Sign.lean ====
section
/-!
DEFINITION. `sign` and the convergence registers (R47, R48, R179, R181).
-/

namespace Sys2Proof.Machine

open Sys2Proof

/-- The operation word that a signature records: the encoding with bits 15 to 10 zero (R48, R181). -/
def opWord (i : Instr) : Nat := let w := ((encode i).getD 0#128).toNat; w - bits w 15 10 * 2 ^ 10

/-- The operation that follows a `sign` of the present issue. -/
def signedInstr (x : Issue) : Option Instr := match followWord x with | .instr j => some j | _ => none

/-- Lane `l` of role `r` belongs to a declared set (R47). -/
def inSet (x : Team) (d : DWord) (r l : Nat) : Bool := d.getLsbD l && l < 32 && r ≤ x.desc.team && d.getLsbD (32 + r) && r < 16

/-- The mismatch of R48 that lane `l` of the issue would raise. (DEDUCED, log entry 29) -/
def signMismatch (x : Team) (cv : CvReg) (j : Instr) (role l : Nat) : Bool :=
  !inSet x cv.cvdef role l || (match cv.word with | some j' => opWord j' != opWord j | none => false)

/-- A lane had exited before the present cycle (R48). -/
def Group.gone (g : Group) (l : Nat) : Bool := !(g.lane l).live && !g.left.getLsbD l

/-- Every lane of the declared set has signed, or had exited before the cycle (R48, R39). -/
def setComplete (s : State) (t : Nat) (cv : CvReg) : Bool :=
  let x := s.team t
  !cv.signs.isEmpty && (upto (x.desc.team + 1)).all fun r => laneNums.all fun l =>
    !inSet x cv.cvdef r l || cv.signs.any (fun n => n.gid == t + r && n.lane == l) || (s.grp (t + r)).gone l

/-- The group of lowest ROLE among the signers; identifiers rise with the role (R31). -/
def lowSigner (cv : CvReg) : Nat := match cv.signs with | [] => 0 | n :: ns => ns.foldl (fun m x => Nat.min m x.gid) n.gid

/-- The signing lanes of a group. -/
def signers (cv : CvReg) (gid : Nat) : Word := mkMask fun l => cv.signs.any fun n => n.gid == gid && n.lane == l

/-- Lanes whose race checks are suppressed among the signers of a group. (DEDUCED, log entry 29) -/
def suppSigners (cv : CvReg) (gid : Nat) : Bool := cv.signs.any fun n => n.gid == gid && n.supp

/-- The convergence register `c` of a team. -/
def Team.cv (x : Team) (c : Nat) : CvReg := nth {} x.cvs c

/-- A convergence register of a team replaced. -/
def State.setCv (s : State) (t c : Nat) (cv : CvReg) : State :=
  s.setTeam t { s.team t with cvs := setNth cv (s.team t).cvs c }

/-- A convergence register without signatures. -/
def CvReg.clear (cv : CvReg) : CvReg := { cv with word := none, signs := [] }

/-- The writer that a signed plain access races with: the access is one of the group of lowest ROLE (R180). -/
def signRace (s : State) (cv : CvReg) (gid pa : Nat) : Option Nat :=
  let x := s.sideOf (pa / 64)
  if s.racesOn gid && x.opn && x.key == s.keyOf gid && x.gid != gid && !suppSigners cv gid && !isCxl pa then some x.gid else none

/-- The group of lowest ROLE as issuer of a signed operation (R177). -/
def signIssuer (s : State) (cv : CvReg) (g : Group) : Issuer :=
  { gid := lowSigner cv, g := g, xlate := s.xlate (lowSigner cv), race := signRace s cv (lowSigner cv) }

/-- The signature that stands for the operation in its group. -/
def leadSign (cv : CvReg) : Sign :=
  (cv.signs.find? fun n => n.gid == lowSigner cv && n.lane == lowLane (signers cv (lowSigner cv))).getD
    { gid := 0, lane := 0, flag := none, next := 0, opPc := 0 }

/-- The signed operation before its operands are read, with the flag of each signing group (R178). Its events have the primary port's place in the
order of R94, which names none for it. (DESIGN CHOICE, log entry 102) -/
def signedOp (cv : CvReg) (i : Instr) : TeamOp :=
  let n := leadSign cv
  { id := 0, i := i, gid := n.gid, src := .signed, pc := n.opPc, gids := sortNums (cv.signs.map (·.gid))
    flags := if isLong i then (cv.signs.filterMap fun x => x.flag.map fun k => (x.gid, k)).eraseDups else [] }

/-- A lane after `sign` and its operation: two instructions of its clause (R181). -/
def lanePair (next opPc : Nat) (n : Lane) : Lane :=
  let c := n.clause.getD {}
  let done := c.done + 2
  let out := c.hdr.count != 0#5 && done ≥ c.hdr.count.toNat
  { n with pc := lpcOf next, came := opPc, jump := false, wait := .run, waitHdr := false
           clause := if out then none else some { c with done := done }
           fence := if c.hdr.tf && out then some opPc else n.fence, miss := none }

/-- Marks of groups clear where they may (R41). -/
def State.marksClear (s : State) (gids : List Nat) : State := gids.foldl (fun s g => s.setGrp g (s.grp g).clearMarks) s

/-- Every signed lane steps past its signing instruction (R48). -/
def State.stepSigned (s : State) (ns : List Sign) : State :=
  ns.foldl (fun s n =>
    let g := s.grp n.gid
    s.setGrp n.gid { g with lanes := setNth (lanePair n.next n.opPc (g.lane n.lane)) g.lanes n.lane }) s |>.marksClear (ns.map (·.gid))

/-- The signed lanes stay at their `sign`, eligible again (R179). -/
def State.unsign (s : State) (ns : List Sign) : State :=
  ns.foldl (fun s n =>
    let g := s.grp n.gid
    s.setGrp n.gid { g with lanes := setNth { g.lane n.lane with wait := .run } g.lanes n.lane }) s |>.marksClear (ns.map (·.gid))

/-- The trap of a signed operation: of the lanes of the group of lowest ROLE at its lowest signing lane's `sign` (R179). -/
def signTrap (s : State) (cv : CvReg) (code addr writer : Nat) : TrapInfo :=
  let gid := lowSigner cv
  let m := signers cv gid
  let pc := ((s.grp gid).lane (lowLane m)).pc
  { code := code, pc := pc.toNat, addr := addr % 2 ^ 48, gid := writer, supp := code == 0x14, lane := lowLane m
    planes := mkMask fun l => m.getLsbD l && ((s.grp gid).lane l).pc == pc }

/-- The issue of a complete convergence set, from the state `s` in which all its lanes wait; `undone` is the state that stands where the
operation is not ready, `g` the group that supplies the operands, and `rank` the operation's place among those of the cycle (R48, R177, R178, R179). -/
def convIssue (s undone : State) (t c : Nat) (cv : CvReg) (g : Group) (rank : Option Nat) : State :=
  match cv.word with
  | none => undone
  | some i =>
      let o := { signedOp cv i with rank := rank }
      let who := signIssuer s cv g
      if o.flags.any fun x => nth 0 (s.grp x.1).flags x.2 ≥ 63 then undone
      else match prepare s who i o with
        | .ok o => ((s.setCv t c ((s.team t).cv c).clear).stepSigned cv.signs).keepTensor who i o |>.enterOrder t o
        | .wait => undone
        | .miss p k => undone.startWalk who.gid p k
        | .bad k a w => raise ((undone.setCv t c ((undone.team t).cv c).clear).unsign cv.signs) who.gid (signTrap s cv k a w)

/-- Bytes of a decoded instruction. -/
def instrBytes (i : Instr) : Nat := match fieldsOf i with | some f => f.len.bytes | none => 8

/-- The successor of the operation that follows a `sign` (R181). -/
def pairNext (s : State) (j : Instr) : Nat := seqPc (seqPc s.cur.pc s.cur.len) (instrBytes j)

/-- The signatures of the active lanes of an issue. -/
def newSigns (s : State) (v : View) (j : Instr) : List Sign :=
  let flag := match fieldsOf j with
    | some f => if isLong j then flagOf s.cur.hdr f.fs else none
    | none => none
  (lanesOf v.act).map fun l =>
    { gid := v.gid, lane := l, flag := flag, next := pairNext s j, opPc := seqPc s.cur.pc s.cur.len, supp := v.g.trap.supp.getLsbD l }

/-- The lanes after `sign`: the active ones wait, the others step past the pair (R181). -/
def State.signLanes (s : State) (v : View) (c : Nat) (j : Instr) : State :=
  s.moveLanes fun l n =>
    if v.act.getLsbD l then { n with wait := .sign c }
    else if v.iss.getLsbD l then lanePair (pairNext s j) (seqPc s.cur.pc s.cur.len) n else n

/-- `sign` (R181, R48). -/
def execSign (f : Fields) (s : State) : Out :=
  match signedInstr s.cur with
  | none => issued (.sign f) f s fun _ => s
  | some j =>
      issuedChk (.sign f) f s
        (fun v l => if signMismatch (s.team v.g.team) ((s.teamBefore v.g.team).cv f.a.toNat) j v.g.role l
          then .trap (s.laneTrap 0x06 l 0) none else .ok)
        fun v =>
          let t := v.g.team
          let c := f.a.toNat
          let cv := { (s.team t).cv c with cvdef := ((s.teamBefore t).cv c).cvdef }
          let cv := if v.any then { cv with word := some (cv.word.getD j), signs := cv.signs ++ newSigns s v j } else cv
          let u := (s.signLanes v c j).setCv t c { cv with cvdef := ((s.team t).cv c).cvdef }
          let old := fun g => if g = v.gid then v.w else s.grp g
          if v.any && setComplete u t cv then convIssue u s t c cv (old (lowSigner cv)) (some s.orderRank) else u

/-- CONVERGENCE_ISSUE_ON_EXIT (R48): the last missing lane of a set has exited, so that its operation issues. -/
def execConvergenceIssueOnExit (team cv : Nat) (s : State) : Out :=
  let c := (s.team team).cv cv
  if (s.team team).bound && setComplete s team c then .next (convIssue s s team cv c (s.grp (lowSigner c)) none) else .next s

end Sys2Proof.Machine
end

