-- ==== Sys2Proof/Machine/Dispatch.lean ====
section
/-!
DEFINITION. One arm per instruction and event: its meaning.
-/

namespace Sys2Proof.Machine

open Sys2Proof

def exec (i : Instr) (s : State) : Host.Outcome State Fault Refusal :=
  match i with
  | .nop f => Sys2Proof.Machine.execNop f s
  | .br f => Sys2Proof.Machine.execBr f s
  | .brc f => Sys2Proof.Machine.execBrc f s
  | .brx f => Sys2Proof.Machine.execBrx f s
  | .call f => Sys2Proof.Machine.execCall f s
  | .ret f => Sys2Proof.Machine.execRet f s
  | .rejoin f => Sys2Proof.Machine.execRejoin f s
  | .rejoinRelease gid pc => Sys2Proof.Machine.execRejoinRelease gid pc s
  | .exit f => Sys2Proof.Machine.execExit f s
  | .yield f => Sys2Proof.Machine.execYield f s
  | .vote f => Sys2Proof.Machine.execVote f s
  | .add f => Sys2Proof.Machine.execAdd f s
  | .sub f => Sys2Proof.Machine.execSub f s
  | .mul f => Sys2Proof.Machine.execMul f s
  | .mulh f => Sys2Proof.Machine.execMulh f s
  | .mad f => Sys2Proof.Machine.execMad f s
  | .madh f => Sys2Proof.Machine.execMadh f s
  | .min f => Sys2Proof.Machine.execMin f s
  | .max f => Sys2Proof.Machine.execMax f s
  | .abs f => Sys2Proof.Machine.execAbs f s
  | .neg f => Sys2Proof.Machine.execNeg f s
  | .idiv f => Sys2Proof.Machine.execIdiv f s
  | .irem f => Sys2Proof.Machine.execIrem f s
  | .and f => Sys2Proof.Machine.execAnd f s
  | .or f => Sys2Proof.Machine.execOr f s
  | .xor f => Sys2Proof.Machine.execXor f s
  | .not f => Sys2Proof.Machine.execNot f s
  | .andn f => Sys2Proof.Machine.execAndn f s
  | .shl f => Sys2Proof.Machine.execShl f s
  | .shr f => Sys2Proof.Machine.execShr f s
  | .sar f => Sys2Proof.Machine.execSar f s
  | .rotl f => Sys2Proof.Machine.execRotl f s
  | .clz f => Sys2Proof.Machine.execClz f s
  | .popc f => Sys2Proof.Machine.execPopc f s
  | .brev f => Sys2Proof.Machine.execBrev f s
  | .bfx f => Sys2Proof.Machine.execBfx f s
  | .bfi f => Sys2Proof.Machine.execBfi f s
  | .lea f => Sys2Proof.Machine.execLea f s
  | .cmp f => Sys2Proof.Machine.execCmp f s
  | .csel f => Sys2Proof.Machine.execCsel f s
  | .mov f => Sys2Proof.Machine.execMov f s
  | .movi f => Sys2Proof.Machine.execMovi f s
  | .movs f => Sys2Proof.Machine.execMovs f s
  | .shfl f => Sys2Proof.Machine.execShfl f s
  | .rdlane f => Sys2Proof.Machine.execRdlane f s
  | .lid f => Sys2Proof.Machine.execLid f s
  | .fadd f => Sys2Proof.Machine.execFadd f s
  | .fsub f => Sys2Proof.Machine.execFsub f s
  | .fmul f => Sys2Proof.Machine.execFmul f s
  | .ffma f => Sys2Proof.Machine.execFfma f s
  | .fdiv f => Sys2Proof.Machine.execFdiv f s
  | .fmin f => Sys2Proof.Machine.execFmin f s
  | .fmax f => Sys2Proof.Machine.execFmax f s
  | .fcmp f => Sys2Proof.Machine.execFcmp f s
  | .fclass f => Sys2Proof.Machine.execFclass f s
  | .fcvt f => Sys2Proof.Machine.execFcvt f s
  | .frnd f => Sys2Proof.Machine.execFrnd f s
  | .frcp f => Sys2Proof.Machine.execFrcp f s
  | .frsq f => Sys2Proof.Machine.execFrsq f s
  | .fexp2 f => Sys2Proof.Machine.execFexp2 f s
  | .flog2 f => Sys2Proof.Machine.execFlog2 f s
  | .hpack f => Sys2Proof.Machine.execHpack f s
  | .hunpack f => Sys2Proof.Machine.execHunpack f s
  | .nbscale f => Sys2Proof.Machine.execNbscale f s
  | .nbpack f => Sys2Proof.Machine.execNbpack f s
  | .nbunpack f => Sys2Proof.Machine.execNbunpack f s
  | .lmv f => Sys2Proof.Machine.execLmv f s
  | .rnd f => Sys2Proof.Machine.execRnd f s
  | .sign f => Sys2Proof.Machine.execSign f s
  | .convergenceIssueOnExit team cv => Sys2Proof.Machine.execConvergenceIssueOnExit team cv s
  | .mma f => Sys2Proof.Machine.execMma f s
  | .tld f => Sys2Proof.Machine.execTld f s
  | .tsv f => Sys2Proof.Machine.execTsv f s
  | .tzero f => Sys2Proof.Machine.execTzero f s
  | .tpois f => Sys2Proof.Machine.execTpois f s
  | .accLd f => Sys2Proof.Machine.execAccLd f s
  | .accSt f => Sys2Proof.Machine.execAccSt f s
  | .accRd f => Sys2Proof.Machine.execAccRd f s
  | .accZero f => Sys2Proof.Machine.execAccZero f s
  | .mmask f => Sys2Proof.Machine.execMmask f s
  | .rowMax f => Sys2Proof.Machine.execRowMax f s
  | .rowSum f => Sys2Proof.Machine.execRowSum f s
  | .rowExp f => Sys2Proof.Machine.execRowExp f s
  | .rowScale f => Sys2Proof.Machine.execRowScale f s
  | .rowAdd f => Sys2Proof.Machine.execRowAdd f s
  | .rowCvt f => Sys2Proof.Machine.execRowCvt f s
  | .teamOpStart team k => Sys2Proof.Machine.execTeamOpStart team k s
  | .pand f => Sys2Proof.Machine.execPand f s
  | .por f => Sys2Proof.Machine.execPor f s
  | .pxor f => Sys2Proof.Machine.execPxor f s
  | .pnot f => Sys2Proof.Machine.execPnot f s
  | .pmov f => Sys2Proof.Machine.execPmov f s
  | .pset f => Sys2Proof.Machine.execPset f s
  | .pget f => Sys2Proof.Machine.execPget f s
  | .pbit f => Sys2Proof.Machine.execPbit f s
  | .ld f => Sys2Proof.Machine.execLd f s
  | .st f => Sys2Proof.Machine.execSt f s
  | .stGDirect f => Sys2Proof.Machine.execStGDirect f s
  | .ldProbe f => Sys2Proof.Machine.execLdProbe f s
  | .atom f => Sys2Proof.Machine.execAtom f s
  | .red f => Sys2Proof.Machine.execRed f s
  | .fence f => Sys2Proof.Machine.execFence f s
  | .fenceXp f => Sys2Proof.Machine.execFenceXp f s
  | .pf f => Sys2Proof.Machine.execPf f s
  | .cstLd f => Sys2Proof.Machine.execCstLd f s
  | .aflush f => Sys2Proof.Machine.execAflush f s
  | .stagedEntryApply team => Sys2Proof.Machine.execStagedEntryApply team s
  | .storePerform core k => Sys2Proof.Machine.execStorePerform core k s
  | .rgn f => Sys2Proof.Machine.execRgn f s
  | .fastBufferFill gid reg => Sys2Proof.Machine.execFastBufferFill gid reg s
  | .spill f => Sys2Proof.Machine.execSpill f s
  | .fill f => Sys2Proof.Machine.execFill f s
  | .give f => Sys2Proof.Machine.execGive f s
  | .claim f => Sys2Proof.Machine.execClaim f s
  | .rdidx f => Sys2Proof.Machine.execRdidx f s
  | .wridx f => Sys2Proof.Machine.execWridx f s
  | .fork f => Sys2Proof.Machine.execFork f s
  | .rdv f => Sys2Proof.Machine.execRdv f s
  | .job f => Sys2Proof.Machine.execJob f s
  | .cp f => Sys2Proof.Machine.execCp f s
  | .spawn f => Sys2Proof.Machine.execSpawn f s
  | .post f => Sys2Proof.Machine.execPost f s
  | .eflag f => Sys2Proof.Machine.execEflag f s
  | .eventSet core q => Sys2Proof.Machine.execEventSet core q s
  | .ewait f => Sys2Proof.Machine.execEwait f s
  | .ewaitCyclesExpiry core q => Sys2Proof.Machine.execEwaitCyclesExpiry core q s
  | .eloop f => Sys2Proof.Machine.execEloop f s
  | .eend f => Sys2Proof.Machine.execEend f s
  | .sequencerStart gid => Sys2Proof.Machine.execSequencerStart gid s
  | .sequencerEnd core q => Sys2Proof.Machine.execSequencerEnd core q s
  | .slotLd f => Sys2Proof.Machine.execSlotLd f s
  | .slotSc f => Sys2Proof.Machine.execSlotSc f s
  | .slotFin f => Sys2Proof.Machine.execSlotFin f s
  | .commit f => Sys2Proof.Machine.execCommit f s
  | .pvt f => Sys2Proof.Machine.execPvt f s
  | .bar f => Sys2Proof.Machine.execBar f s
  | .barExp f => Sys2Proof.Machine.execBarExp f s
  | .copyBytesLand src n => Sys2Proof.Machine.execCopyBytesLand src n s
  | .twaitAny f => Sys2Proof.Machine.execTwaitAny f s
  | .twaitAll f => Sys2Proof.Machine.execTwaitAll f s
  | .tffr f => Sys2Proof.Machine.execTffr f s
  | .fwait f => Sys2Proof.Machine.execFwait f s
  | .csrR f => Sys2Proof.Machine.execCsrR f s
  | .csrW f => Sys2Proof.Machine.execCsrW f s
  | .fstatWrite f => Sys2Proof.Machine.execFstatWrite f s
  | .cvdefWrite f => Sys2Proof.Machine.execCvdefWrite f s
  | .merrlog0Write f => Sys2Proof.Machine.execMerrlog0Write f s
  | .tfence f => Sys2Proof.Machine.execTfence f s
  | .tret f => Sys2Proof.Machine.execTret f s
  | .trap f => Sys2Proof.Machine.execTrap f s
  | .brk f => Sys2Proof.Machine.execBrk f s
  | .halt f => Sys2Proof.Machine.execHalt f s
  | .icacheLineArrival core ctx block => Sys2Proof.Machine.execIcacheLineArrival core ctx block s
  | .longLatencyCompletion op => Sys2Proof.Machine.execLongLatencyCompletion op s
  | .walkCompletion die k => Sys2Proof.Machine.execWalkCompletion die k s
  | .translationInvalidate die ctx lo hi => Sys2Proof.Machine.execTranslationInvalidate die ctx lo hi s
  | .invalidateCompletion die k => Sys2Proof.Machine.execInvalidateCompletion die k s
  | .trapDelivery gid => Sys2Proof.Machine.execTrapDelivery gid s
  | .firmwareFaultDelivery gid => Sys2Proof.Machine.execFirmwareFaultDelivery gid s
  | .timerTrap gid => Sys2Proof.Machine.execTimerTrap gid s
  | .groupEnd gid => Sys2Proof.Machine.execGroupEnd gid s
  | .taskDispatch die k => Sys2Proof.Machine.execTaskDispatch die k s
  | .bindRecordBind idx => Sys2Proof.Machine.execBindRecordBind idx s
  | .bindw0Commit w0 => Sys2Proof.Machine.execBindw0Commit w0 s
  | .powerEstimateUpdate die est => Sys2Proof.Machine.execPowerEstimateUpdate die est s
  | .pcapWrite die v => Sys2Proof.Machine.execPcapWrite die v s
  | .twdogWrite v => Sys2Proof.Machine.execTwdogWrite v s
  | .cycleStretch core => Sys2Proof.Machine.execCycleStretch core s
  | .timingViolation die => Sys2Proof.Machine.execTimingViolation die s
  | .modeSwitchComplete die => Sys2Proof.Machine.execModeSwitchComplete die s
  | .scrubRead core line lane err => Sys2Proof.Machine.execScrubRead core line lane err s
  | .ticketPass launch => Sys2Proof.Machine.execTicketPass launch s
  | .ticketWatchdogExpiry launch => Sys2Proof.Machine.execTicketWatchdogExpiry launch s
  | .copyJobStart job => Sys2Proof.Machine.execCopyJobStart job s
  | .copyJobCompletion job => Sys2Proof.Machine.execCopyJobCompletion job s
  | .localCopyCompletion core k => Sys2Proof.Machine.execLocalCopyCompletion core k s
  | .commandEntryStart ctx q => Sys2Proof.Machine.execCommandEntryStart ctx q s
  | .cmdGraph ctx q texts => Sys2Proof.Machine.execCmdGraph ctx q texts s
  | .cmdWait ctx q => Sys2Proof.Machine.execCmdWait ctx q s
  | .cmdMarker ctx q => Sys2Proof.Machine.execCmdMarker ctx q s
  | .nodeStart ctx q node insts => Sys2Proof.Machine.execNodeStart ctx q node insts s
  | .nodeCompletion ctx q node => Sys2Proof.Machine.execNodeCompletion ctx q node s
  | .completionRecordWrite ctx q => Sys2Proof.Machine.execCompletionRecordWrite ctx q s
  | .pointFire die fid => Sys2Proof.Machine.execPointFire die fid s
  | .pointCompletion die fid point => Sys2Proof.Machine.execPointCompletion die fid point s
  | .frontierRetirementExpiry die fid => Sys2Proof.Machine.execFrontierRetirementExpiry die fid s
  | .mirrorUpdate die fid row => Sys2Proof.Machine.execMirrorUpdate die fid row s
  | .frontierStart die w0 => Sys2Proof.Machine.execFrontierStart die w0 s
  | .frontierStop die w0 => Sys2Proof.Machine.execFrontierStop die w0 s
  | .frontierSave die w0 => Sys2Proof.Machine.execFrontierSave die w0 s
  | .frontierRestore die w0 => Sys2Proof.Machine.execFrontierRestore die w0 s
  | .frontierResume die w0 => Sys2Proof.Machine.execFrontierResume die w0 s
  | .frontierRelease die w0 => Sys2Proof.Machine.execFrontierRelease die w0 s
  | .stop w0 => Sys2Proof.Machine.execStop w0 s
  | .teamStopped team => Sys2Proof.Machine.execTeamStopped team s
  | .stopWatchdogExpiry team terminate => Sys2Proof.Machine.execStopWatchdogExpiry team terminate s
  | .commitPointSave ctx => Sys2Proof.Machine.execCommitPointSave ctx s
  | .commitWatchdogExpiry ctx terminate => Sys2Proof.Machine.execCommitWatchdogExpiry ctx terminate s
  | .flush w0 => Sys2Proof.Machine.execFlush w0 s
  | .restore w0 => Sys2Proof.Machine.execRestore w0 s
  | .resume w0 => Sys2Proof.Machine.execResume w0 s
  | .resumeg w0 frame => Sys2Proof.Machine.execResumeg w0 frame s
  | .forward w0 => Sys2Proof.Machine.execForward w0 s
  | .streamAfterFin conn records => Sys2Proof.Machine.execStreamAfterFin conn records s
  | .segmentReceive port conn bytes => Sys2Proof.Machine.execSegmentReceive port conn bytes s
  | .finAcked conn => Sys2Proof.Machine.execFinAcked conn s
  | .rstReceived conn => Sys2Proof.Machine.execRstReceived conn s
  | .retransmissionTimeout conn limit => Sys2Proof.Machine.execRetransmissionTimeout conn limit s
  | .connectionCommit conn w0 => Sys2Proof.Machine.execConnectionCommit conn w0 s
  | .create root => Sys2Proof.Machine.execCreate root s
  | .destroy => Sys2Proof.Machine.execDestroy s
  | .queue => Sys2Proof.Machine.execQueue s
  | .rule => Sys2Proof.Machine.execRule s
  | .netcfg => Sys2Proof.Machine.execNetcfg s
  | .attest => Sys2Proof.Machine.execAttest s
  | .manifest => Sys2Proof.Machine.execManifest s
  | .map frames tables => Sys2Proof.Machine.execMap frames tables s
  | .doorbellWrite ctx q tail => Sys2Proof.Machine.execDoorbellWrite ctx q tail s
  | .crheadWrite ctx v => Sys2Proof.Machine.execCrheadWrite ctx v s
  | .hostApertureRead off n => Sys2Proof.Machine.execHostApertureRead off n s
  | .hostApertureWrite off bytes => Sys2Proof.Machine.execHostApertureWrite off bytes s
  | .configRequest => Sys2Proof.Machine.execConfigRequest s
  | .linkFailure link => Sys2Proof.Machine.execLinkFailure link s
  | .expanderLoss port => Sys2Proof.Machine.execExpanderLoss port s
  | .coreFailure core => Sys2Proof.Machine.execCoreFailure core s
  | .packageReset defects => Sys2Proof.Machine.execPackageReset defects s
  | .bundleFetchDone ok expanders => Sys2Proof.Machine.execBundleFetchDone ok expanders s
  | .bootRetryExpiry => Sys2Proof.Machine.execBootRetryExpiry s
  | .registerWrite r v => Sys2Proof.Machine.execRegisterWrite r v s
  | .fledenlinkPeerAccess key pa n write => Sys2Proof.Machine.execFledenlinkPeerAccess key pa n write s
  | .keyInstall key pair => Sys2Proof.Machine.execKeyInstall key pair s

end Sys2Proof.Machine
end

