-- ==== Sys2Proof/Machine/Select.lean ====
section
/-!
DEFINITION. What issues: instruction fetch and clause headers (R40, R56 to R60, R78, R147), the vote (R36 to R39), readiness (R42), the
schedulers (R43), the sequencers' fetch (R270), and the passing of time (R345, R362, R363).
-/

namespace Sys2Proof.Machine

open Sys2Proof

/-! ### Fetch -/

/-- The block of code as a core's cache holds it for a context. (DEDUCED, log entry 10) -/
def State.icBlock (s : State) (core ctx block : Nat) : Option (List Byte) :=
  ((s.core core).ic.find? fun x => x.ctx == ctx && x.block == block && x.key == (s.ctx ctx).key).map (·.bytes)

/-- What a lane finds at a PC (R56, R59, R147, R78). -/
inductive Look where
  | miss (block : Nat)
  | fault (code ill pcx : Nat) (unit : Option Nat) (addr : Nat)   -- ADDR of R371: where a fetch has faulted
  | header (h : Header)
  | word (i : Instr) (raw : BitVec 128) (after : List Byte)
  deriving DecidableEq, Repr

/-- The functional unit of a major opcode (R38); 0x00 takes none. -/
def unitOf (op : Nat) : Option Nat :=
  if op = 0 then none
  else if op ≤ 0x1F then some 0
  else if op ≤ 0x5F then some 1
  else if op ≤ 0x8F then some 2
  else if op ≤ 0xAF then some 3
  else if op ≤ 0xCF then some 4
  else if op ≤ 0xEF then some 5
  else some 6

/-- The unit of the word that bytes begin with. -/
def unitAt (bs : List Byte) : Option Nat := unitOf (bits (leVal (bs.take 2)) 9 2)

/-- Whether a clause is counted and has instructions left (R59). -/
def Clause.inCount (c : Clause) : Bool := c.hdr.count != 0#5 && c.done < c.hdr.count.toNat

/-- Whether an instruction needs the word that follows it: `sign`, and any one of an uncounted clause with TF (R63, R181).
(DEDUCED, log entry 16) -/
def needsNext (h : Header) (i : Instr) : Bool :=
  (match i with | .sign _ => true | _ => false) || (h.tf && h.count == 0#5)

/-- The word at the beginning of bytes that a fetch has found, for a lane of clause `c` that was led here by `came`, a transfer where `jump`
says so. Where a header must stand, a word that is bad by itself has the lower cause of the two (R59, R74). (DEDUCED, log entry 15) -/
def lookWord (off came : Nat) (jump : Bool) (c : Option Clause) (bs : List Byte) : Look :=
  let broken := Look.fault 0x01 8 came (unitAt bs) 0
  match decodeBytes off bs, c with
  | .bad k, none => if 8 < k then broken else .fault 0x01 k (if jump then came else 0) (unitAt bs) 0
  | .bad k, some _ => .fault 0x01 k 0 (unitAt bs) 0
  | .header h, some d => if d.inCount then broken else .header h
  | .header h, none => .header h
  | .instr i, some _ => .word i (BitVec.ofNat 128 (leVal (bs.take 16))) []
  | .instr _, none => broken

/-- Whether the major opcode of a word's bytes is that of `sign` (R72). -/
def signMajor (bs : List Byte) : Bool := bits (leVal (bs.take 2)) 9 2 == 0x91

/-- A `sign` at PC `p` of clause `c`, as its causes depend on it (R181). -/
def signIssue (p : Nat) (c : Option Clause) (after : List Byte) : Issue :=
  let d := c.getD {}
  { pc := p, next := after, hdr := d.hdr, left := if d.hdr.count = 0#5 then 0 else d.hdr.count.toNat - d.done }

/-- A `sign` that has cause `ill` by itself, or for where it stands, has the lowest of that and of what the word that follows gives it (R74, R181);
PCX goes with the cause (R371). -/
def lookSign (p came : Nat) (jump : Bool) (c : Option Clause) (ill : Nat) (u : Option Nat) (after : List Byte) : Look :=
  let k := signCause (signIssue p c after)
  if k = 0 || ill ≤ k then .fault 0x01 ill (if ill = 8 then came else if jump && c.isNone then came else 0) u 0
  else .fault 0x01 k (if jump && c.isNone then came else 0) u 0

/-- A look at a word once the word that follows it is known. -/
def Look.followed (r : Look) (p came : Nat) (jump : Bool) (c : Option Clause) (after : List Byte) : Look :=
  match r with
  | .word j raw _ => .word j raw after
  | .fault _ ill _ u _ => lookSign p came jump c ill u after
  | r => r

/-- A look needs the word that follows: an instruction that says so, or a `sign` whose cause that word may lower. (DEDUCED, log entry 16) -/
def Look.needs (r : Look) (sign : Bool) (c : Option Clause) : Bool :=
  match r with
  | .word i _ _ => needsNext (match c with | some d => d.hdr | none => {}) i
  | .fault _ ill _ _ _ => sign && 3 < ill
  | _ => false

/-- A look that takes the word that follows with it: an instruction, or a `sign` that has a cause above 3. -/
def Look.follows (r : Look) (sign : Bool) : Bool :=
  match r with | .word _ _ _ => true | .fault _ ill _ _ _ => sign && 3 < ill | _ => false

/-- Bytes from a word to the one that follows it. -/
def Look.len (r : Look) : Nat := match r with | .word i _ _ => (match fieldsOf i with | some f => f.len.bytes | none => 8) | _ => 8

/-- What lanes find at PC `p`. Where the fetch of the word that follows a `sign` faults, the `sign` takes that fault. (DEDUCED, log entries 15, 16) -/
def State.lookAt (s : State) (core ctx : Nat) (fault : Nat → Option Nat) (p came : Nat) (jump : Bool) (c : Option Clause) : Look :=
  if p % 4 ≠ 0 || p % 32 = 28 then .fault 0x01 8 came none 0
  else match s.icBlock core ctx (p / 32) with
    | none => match fault (p / 65536) with
      | some code => .fault code 0 (if jump then came else 0) none p
      | none => .miss (p / 32)
    | some bs =>
        let sign := signMajor (bs.drop (p % 32))
        let r := lookWord (p % 32) came jump c (bs.drop (p % 32))
        let n := seqPc p r.len
        match s.icBlock core ctx (n / 32), fault (n / 65536) with
        | some cs, _ => if r.follows sign then r.followed p came jump c (cs.drop (n % 32)) else r
        | none, some code =>
            if !sign || !r.needs sign c then r
            else if (signIssue p c []).left == 1 then r.followed p came jump c []
            else .fault code 0 (if jump && c.isNone then came else 0) none n
        | none, none => if r.needs sign c then .miss (n / 32) else r

/-! ### Paths and the vote (R36, R37) -/

/-- A path: a PC and the eligible lanes there. -/
structure Path where
  pc    : Nat
  lanes : Word
  deriving DecidableEq, Repr

/-- The lanes of a group that are eligible (R36). -/
def State.eligibleLanes (s : State) (gid : Nat) : Word := mkMask fun l => (s.grp gid).eligible ((s.grp gid).lane l)

/-- The distinct PCs of eligible lanes in the order of the vote. -/
def State.voteOrder (s : State) (gid : Nat) : List Nat :=
  let g := s.grp gid
  let e := s.eligibleLanes gid
  let pcs := fun k : Lane → Bool => sortNums (((lanesOf e).filter fun l => k (g.lane l)).map fun l => (g.lane l).pc.toNat)
  let first := pcs fun n => !n.mark
  first ++ (pcs fun n => n.mark).filter (!first.contains ·)

/-- All yield marks of a group clear when it has eligible lanes and none of them is unmarked (R41). -/
def State.clearMarks (s : State) (gid : Nat) : State := s.setGrp gid (s.grp gid).clearMarks

/-- The path at a PC. -/
def State.pathAt (s : State) (gid pc : Nat) : Path :=
  let g := s.grp gid
  let e := s.eligibleLanes gid
  { pc := pc, lanes := mkMask fun l => e.getLsbD l && (g.lane l).pc.toNat == pc }

/-- Path `k` of the vote: 0 the primary one, 1 the secondary one. -/
def State.voted (s : State) (gid k : Nat) : Option Path := ((s.voteOrder gid)[k]?).map (s.pathAt gid)

/-- The lowest lane of a path; lanes that have come to their PC by its clause are all in that clause (R59). -/
def State.pathLane (s : State) (gid : Nat) (p : Path) : Lane := (s.grp gid).lane (lowLane p.lanes)

/-- What a lane of a path finds. -/
def State.lookLane (s : State) (gid : Nat) (p : Path) (n : Lane) : Look :=
  let g := s.grp gid
  s.lookAt (coreOf gid) (s.team g.team).ctx (fun page => Tab.find g.tfault (fetchPage page)) p.pc n.came n.jump n.clause

/-- What a look finds stops its path. -/
def Look.faulted : Look → Bool
  | .fault _ _ _ _ _ => true
  | _ => false

/-- What a path finds: what its lowest lane does, or what the lowest lane does that faults there, as one that has jumped into the middle of
the clause of the others (R59, R147). -/
def State.lookPath (s : State) (gid : Nat) (p : Path) : Look :=
  let n := s.pathLane gid p
  match ((lanesOf p.lanes).map (s.grp gid).lane).filter (·.clause != n.clause) with
  | [] => s.lookLane gid p n
  | _ => match (lanesOf p.lanes).find? fun l => (s.lookLane gid p ((s.grp gid).lane l)).faulted with
    | some l => s.lookLane gid p ((s.grp gid).lane l)
    | none => s.lookLane gid p n

/-- Every lane of a path rewritten. -/
def State.mapPath (s : State) (gid : Nat) (p : Path) (f : Lane → Lane) : State :=
  let g := s.grp gid
  s.setGrp gid (g.mapLanes fun l n => if p.lanes.getLsbD l then f n else n)

/-- A lane passes a header (R144). (DEDUCED, log entry 13) -/
def passHeaderLane (pc : Nat) (h : Header) (n : Lane) : Lane :=
  { n with pc := lpcOf (seqPc pc 8), clause := some { hpc := pc, hdr := h, done := 0 }, jump := false, waitHdr := h.wait != 0#12 }

/-- The context's instruction block is asked for (R40). -/
def State.askBlock (s : State) (core ctx block : Nat) : State :=
  let c := s.core core
  if c.icMiss.contains (ctx, block) then s else s.setCore core { c with icMiss := c.icMiss ++ [(ctx, block)] }

/-- The fetch of a path misses: its lanes stop being eligible until the block arrives (R36, R40), and marks may clear (R41). -/
def State.missPath (s : State) (gid : Nat) (p : Path) (block : Nat) : State :=
  ((s.askBlock (coreOf gid) (s.team (s.grp gid).team).ctx block).mapPath gid p fun n => { n with miss := some block }).clearMarks gid

/-- A lane at a header leaves the uncounted TF clause whose last instruction it has issued: its trap-fence is due (R63, R377). -/
def Lane.leaveClause (n : Lane) : Lane :=
  match n.clause with
  | some c => if c.hdr.tf && c.hdr.count == 0#5 && c.done != 0 then { n with clause := none, fence := some n.came } else n
  | none => n

/-! ### The paths made ready to be looked at -/

/-- What stands in the way of a path, or what it may issue. -/
inductive Ready where
  | held                                        -- not ready
  | waits (pc : Nat) (lanes : Word)             -- at a wait that a stop and a ticket-stall fault end
  | stalls (pc : Nat) (lanes : Word)            -- waiting for staging entries, which a ticket-stall fault ends (R227)
  | fault (t : TrapInfo) (unit : Option Nat)
  | go (i : Instr) (x : Issue)
  deriving DecidableEq, Repr

/-- The issue of a path. -/
def State.issueOf (s : State) (gid : Nat) (p : Path) (i : Instr) (raw : BitVec 128) (after : List Byte) : Issue :=
  let c := (s.pathLane gid p).clause.getD {}
  { gid := gid, src := .lanes p.lanes, lanes := p.lanes, pc := p.pc
    len := (match fieldsOf i with | some f => f.len.bytes | none => 8), hdr := c.hdr, raw := raw, next := after
    left := if c.hdr.count = 0#5 then 0 else c.hdr.count.toNat - c.done }

/-- Lanes of a path that still owe a trap-fence (R377). -/
def State.fenceLanes (s : State) (gid : Nat) (p : Path) : Word :=
  mkMask fun l => p.lanes.getLsbD l && ((s.grp gid).lane l).fence.isSome

/-- The record of a fault of a path. -/
def pathTrap (p : Path) (code ill pcx addr : Nat) : TrapInfo :=
  { code := code, pc := p.pc, ill := ill, planes := p.lanes, lane := lowLane p.lanes, addr := addr % 2 ^ 48, pcx := pcx }

/-- A path with its trap-fence made: it waits for the flags, then raises the arithmetic trap, or goes on (R376 to R378). -/
def State.fencePath (s : State) (gid : Nat) (p : Path) : State ⊕ Ready :=
  let g := s.grp gid
  let m := s.fenceLanes gid p
  if m = 0#32 then .inl s
  else if !g.flagsClear then .inr .held
  else if g.csr.fstat = 0#32 then .inl (s.mapPath gid p fun n => { n with fence := none })
  else .inr (.fault { code := 0x1A, pc := ((g.lane (lowLane m)).fence).getD 0, planes := m, lane := lowLane m } none)

/-- Whether a header's WAIT mask is not met (R60). -/
def headerWaits (g : Group) (n : Lane) : Bool :=
  n.waitHdr && anyFlag g (match n.clause with | some c => c.hdr.wait.toNat | none => 0)

/-- The view that an issue would have. -/
def State.viewOf (s : State) (x : Issue) (f : Fields) : View := { s with cur := x, second := none }.view f

/-- The lines that an instruction needs: those that its word names, then those that its lanes' indices do (R121, R122). (DEDUCED, log entry 18) -/
def State.operandLines (s : State) (x : Issue) (i : Instr) : List Nat :=
  neededLines i ++ match i with
    | .rdidx f | .wridx f => ((indexRegs f (s.viewOf x f)).filter (· < (s.grp x.gid).vcnt)).filter (!(neededLines i).contains ·)
    | _ => []

/-- The operand lines that an instruction waits for (R122), at most as many as the buffer holds. (DEDUCED, log entry 18) -/
def State.linesMissing (s : State) (x : Issue) (i : Instr) : List Nat :=
  if (staticFault s x i).isSome then [] else ((s.operandLines x i).take 32).filter (!(s.grp x.gid).fb.contains ·)

/-- A stalled instruction asks for its lines; those it has stay. (DEDUCED, log entry 18) -/
def State.stallLines (s : State) (x : Issue) (i : Instr) : State :=
  let g := s.grp x.gid
  let miss := s.linesMissing x i
  let g := (g.fetchLines ((s.core (coreOf x.gid)).cycle + 12) miss)
  s.setGrp x.gid { g with missed := sortNums (g.missed ++ miss), fb := touchLines g.fb (s.operandLines x i) }

/-- The tests of an instruction that may have to wait for room once they have passed (R267, R272, R281, R284). -/
def lateTests (i : Instr) (s : State) (v : View) : Nat → Check :=
  match i with
  | .spawn f => spawnTests f s v
  | .fork f => forkTests f s v
  | .job f => jobTests f s v
  | .cp f => cpLaneTests f s v
  | _ => fun _ => .ok

/-- An instruction whose tests all pass waits for room. -/
def State.heldLate (s : State) (x : Issue) (i : Instr) (v : View) : Bool :=
  waitsLate i v s && (debugFault s x).isNone && (match firstCheck (laneTest s i v (lateTests i s v)) (lanesOf v.act) with | .ok => true | _ => false)

/-- An instruction that is fetched and whose clause may run: its operands, then its own waits (R42). -/
def State.readyWord (s : State) (i : Instr) (x : Issue) : State × Ready :=
  if !(s.linesMissing x i).isEmpty then (s.stallLines x i, .held)
  else
    let u := { s with cur := x }
    match fieldsOf i with
    | none => (s, .held)
    | some f =>
        if (staticFault s x i).isSome then (s, .go i x)
        else if waits i (u.view f) u then
          (s, if countsWait i then .waits x.pc x.lanes else if stagesFull i (u.view f) u then .stalls x.pc x.lanes else .held)
        else if u.heldLate x i (u.view f) then (s, .held)
        else (s, .go i x)

/-- A path that waits stops there for a stop request (R383). -/
def State.waitPath (s : State) (gid : Nat) (p : Path) : State × Ready :=
  (if s.stopping gid then s.mapPath gid p fun m => { m with stopped := true } else s, .waits p.pc p.lanes)

/-- A path at a word: headers are passed as they come, a stop request ends it at a header or a wait (R144, R383). (DEDUCED, log entry 13) -/
def State.prepare (gid k : Nat) : Nat → State → State × Ready
  | 0, s => (s, .held)
  | n + 1, s => match s.voted gid k with
    | none => (s, .held)
    | some p => match s.fencePath gid p with
      | .inr r => (s, r)
      | .inl s => match s.lookPath gid p with
        | .miss b => (s.missPath gid p b, .held)
        | .fault code ill pcx u a =>
            if headerWaits (s.grp gid) (s.pathLane gid p) then s.waitPath gid p else (s, .fault (pathTrap p code ill pcx a) u)
        | .header h =>
            let u := s.mapPath gid p Lane.leaveClause
            if u.fenceLanes gid p != 0#32 then State.prepare gid k n u
            else if s.stopping gid then (s.mapPath gid p fun m => { m with stopped := true }, .held)
            else State.prepare gid k n (s.mapPath gid p (passHeaderLane p.pc h))
        | .word i raw after =>
            if headerWaits (s.grp gid) (s.pathLane gid p) then s.waitPath gid p
            else match s.readyWord i (s.issueOf gid p i raw after) with
              | (t, .waits _ _) => t.waitPath gid p
              | r => r

/-- More headers than an address space holds: passing one takes no cycle, and a path passes as many as stand in a row (R144).
(DEDUCED, log entry 13) -/
def headerFuel : Nat := 2 ^ 48

/-! ### One group at a pick (R38, R42, R77, R423) -/

/-- What a group does when it is picked. -/
inductive Pick where
  | none
  | trap (t : TrapInfo)
  | go (i : Instr) (x : Issue) (second : Option (Instr × Issue))
  deriving DecidableEq, Repr

/-- The PC that a path's verdict is about. -/
def Ready.pc : Ready → Nat
  | .held => 0 | .waits pc _ | .stalls pc _ => pc | .fault t _ => t.pc | .go _ x => x.pc

/-- The lanes of a path's verdict. -/
def Ready.lanes : Ready → Word
  | .held => 0#32 | .waits _ m | .stalls _ m => m | .fault t _ => t.planes | .go _ x => x.lanes

/-- The unit that a path asks for. -/
def Ready.unit : Ready → Option Nat
  | .fault _ u => u
  | .go i _ => (opcodeOf i).bind unitOf
  | _ => none

/-- Two words of one unit (R38). -/
def sameUnit (a b : Ready) : Bool := a.unit.isSome && a.unit == b.unit

/-- The faults of a path that keep both ports from issuing: of its word, or a PC comparator (R77, R382). -/
def State.portFault (s : State) (word : Bool) : Ready → Option TrapInfo
  | .fault t _ => if word then some t else none
  | .go i x => if word then staticFault s x i else debugFault s x
  | _ => none

/-- A trap before either instruction of the issue executes (R363, R257). -/
def earlyTrap (code : Nat) (r : Ready) (pc2 : Nat) : TrapInfo :=
  { code := code, pc := r.pc, pc2 := pc2, planes := r.lanes, lane := lowLane r.lanes }

/-- The secondary verdict that counts: none where the word waits, is held, or asks for the primary word's unit. (DEDUCED, log entry 14) -/
def secondOf (a b : Ready) : Ready :=
  match b with
  | .fault _ _ | .go _ _ => if sameUnit a b then .held else b
  | _ => .held

/-- A verdict with the other path's PC in its record. -/
def Ready.other (r : Ready) (pc2 : Nat) : Ready :=
  match r with
  | .fault t u => .fault { t with pc2 := pc2 } u
  | .go i x => .go i { x with pc2 := pc2 }
  | r => r

/-- What the group's two verdicts come to. (DEDUCED, log entry 8) -/
def State.decide (s : State) (gid : Nat) (a b : Ready) : Pick :=
  let g := s.grp gid
  let b := secondOf a b
  let a' := a.other b.pc
  let b' := b.other a.pc
  match a with
  | .held => .none
  | .waits _ _ | .stalls _ _ => if g.trap.stall then .trap (earlyTrap 0x25 a 0) else .none
  | _ =>
      if g.csr.tpend && !g.trap.inh then .trap (earlyTrap 0x1B a' b.pc)
      else if g.trap.stall then .trap (earlyTrap 0x25 a' b.pc)
      else match s.portFault true a', s.portFault true b', s.portFault false a', s.portFault false b' with
        | some t, _, _, _ => .trap t
        | none, some t, _, _ => .trap t
        | none, none, some t, _ => .trap t
        | none, none, none, some t => .trap t
        | none, none, none, none => match a', b' with
          | .go i x, .go j y => .go i x (some (j, { y with port2 := true }))
          | .go i x, _ => .go i x none
          | _, _ => .none

/-- A group that may be looked at: bound, not frozen, not in debug halt. -/
def Group.awake (g : Group) : Bool := g.bound && g.trap.frozen.isNone && !g.halted

/-- A group looked at in a cycle: what fetch and stalls leave, and what it does. The secondary path is looked at only where the primary
one is ready (R42). (DEDUCED, log entry 51) -/
def State.look (s : State) (gid : Nat) : State × Pick :=
  if !(s.grp gid).awake then (s, .none)
  else
    let s := s.clearMarks gid
    match State.prepare gid 0 headerFuel s with
    | (t, .held) => (t, .none)
    | (t, .waits pc m) => (t, t.decide gid (.waits pc m) .held)
    | (t, .stalls pc m) => (t, t.decide gid (.stalls pc m) .held)
    | (t, a) =>
        let r := State.prepare gid 1 headerFuel t
        (r.1, r.1.decide gid a r.2)

/-! ### Schedulers (R43) -/

/-- The groups of a scheduler in the order in which it asks whether they are ready: that of the slot which the pointer names, then by
age. (DEDUCED, log entry 83) -/
def State.askOrder (s : State) (core sched : Nat) : List Nat :=
  let gs := (s.groupsOn core).filter fun g => (s.grp g).sched == sched
  let p := 16 * core + (s.core core).cycle % 16
  let old := gs.foldr (fun g l => insertAge s g l) []
  (if gs.contains p then [p] else []) ++ old.filter (· != p)
where
  /-- A group put into its place by age. -/
  insertAge (s : State) (g : Nat) : List Nat → List Nat
    | [] => [g]
    | h :: hs => if (s.grp g).age ≤ (s.grp h).age then g :: h :: hs else h :: insertAge s g hs

/-- The first group that is ready. -/
def State.pick : List Nat → State → State × Nat × Pick
  | [], s => (s, 0, .none)
  | g :: gs, s => match s.look g with
    | (t, .none) => State.pick gs t
    | (t, p) => (t, g, p)

/-! ### The second port (R39) -/

/-- Uniform registers that an instruction writes, and 4096 + n for CSR n. -/
def uniformDests (i : Instr) : List Nat :=
  match i with
  | .movs f | .rdlane f | .nbscale f | .tffr f | .slotFin f => [f.d.toNat]
  | .rdv f => [f.a.toNat]
  | .vote f => if f.sub = 2#4 then [f.d.toNat] else []
  | .csrR f => if csrWide f.csr then [f.d.toNat, f.d.toNat + 1] else [f.d.toNat]
  | .csrW f | .fstatWrite f | .cvdefWrite f | .merrlog0Write f => [4096 + f.csr]
  | _ => if isUniform i then (match fieldsOf i with | some f => [f.d.toNat] | none => []) else []

/-- Whether an issue has an active lane. -/
def State.someActive (s : State) (x : Issue) (i : Instr) : Bool :=
  match fieldsOf i with
  | some f => guardMask (s.grp x.gid) f x.lanes != 0#32
  | none => false

/-- What an issue writes of the group-wide state: nothing without an active lane, nor where `rdlane` finds no lane (R142). -/
def State.wroteBy (s : State) (x : Issue) (i : Instr) : List Nat :=
  if !s.someActive x i then []
  else match i with
    | .rdlane f => if (rdlaneSource f (s.viewOf x f)).isSome then uniformDests i else []
    | _ => uniformDests i

/-- The secondary issue with the state before the cycle, the CSR that it reads among it (R39). -/
def State.secondFor (s : State) (i : Instr) (x : Issue) (j : Instr) (y : Issue) : Second :=
  { issue := y, i := j, group := s.grp x.gid, team := s.team (s.grp x.gid).team
    csr := match j with | .csrR f => { s with cur := y, second := none }.csrValue (s.viewOf y f) f.csr | _ => 0
    wrote := s.wroteBy x i }

/-- The operand lines of an issue become the last to be replaced (R122). -/
def State.touch (s : State) (x : Issue) (i : Instr) : State :=
  let g := s.grp x.gid
  s.setGrp x.gid { g with fb := touchLines g.fb (neededLines i) }

/-- The words of the line store that the active lanes of the present issue read (R124). -/
def State.wordsRead (s : State) (i : Instr) : List (Nat × Nat) :=
  match fieldsOf i with
  | none => []
  | some f =>
      let v := s.view f
      ((lanesOf v.act).flatMap fun l => sourceWords i v l ++ (match i with | .rdidx _ => [((v.a f l).toNat, l)] | _ => [])).eraseDups

/-- Words with one bit in error that the present issue reads, as they stood before the cycle (R131), are corrected in place, and CECNT counts
them (R124). -/
def State.correctWords (s : State) (i : Instr) : State :=
  let gid := s.cur.gid
  let g := s.grp gid
  let old := s.before.weak
  if old.isEmpty then s
  else
    let ws := s.wordsRead i
    (s.setGrp gid { g with weak := g.weak.filter (!ws.contains ·) }).countCorrected (coreOf gid) (old.filter ws.contains).length

/-! ### Sequencers (R270) -/

/-- What a sequencer finds, with the cause of a guard among those of the word. (DEDUCED, log entry 11) -/
def seqWord (p : Nat) (c : Option Clause) (bs : List Byte) : Look :=
  match lookWord (p % 32) 0 false c bs with
  | .fault code ill pcx u a => .fault code (if 4 < ill && guardBad bs then 4 else ill) pcx u a
  | r => r

/-- What a sequencer finds at its PC; code that its core does not hold is read at once, but for a walk in flight for its page (R206). -/
def State.seqLook (s : State) (gid : Nat) (x : Seq) : Look :=
  let core := coreOf gid
  let ctx := (s.team (s.grp gid).team).ctx
  let p := x.pc
  if p % 4 ≠ 0 || p % 32 = 28 then .fault 0x01 8 0 none 0
  else match s.icBlock core ctx (p / 32) with
    | some bs => seqWord p x.clause (bs.drop (p % 32))
    | none =>
        if s.walking core ctx p then .miss (p / 32)
        else match s.fetchBlock core ctx (p / 32) with
          | .ok bs => seqWord p x.clause (bs.drop (p % 32))
          | .error c => .fault c 0 0 none p

/-- The wait of an `ewait` is over. -/
def SeqWait.over (w : SeqWait) (ev cycle : Nat) : Bool :=
  match w with
  | .none => true
  | .events m => Nat.land ev m == m
  | .cycles due => due ≤ cycle

/-- A sequencer at its PC: the state that fetch leaves, and the instruction it may issue. (DEDUCED, log entry 31) -/
def State.seqPrepare (gid q : Nat) : Nat → State → State × Option (Instr × Issue)
  | 0, s => (s, none)
  | n + 1, s =>
      let g := s.grp gid
      let x := s.seqOf gid q
      match s.seqLook gid x with
      | .miss _ => (s, none)
      | .fault code ill _ _ _ =>
          if x.waitHdr && anyFlag g (x.clause.getD {}).hdr.wait.toNat then (s, none)
          else (seqStop s gid q (if code = 0x01 then ill else 0x18), none)
      | .header h =>
          if h.tf then (seqStop s gid q 0x1A, none)
          else if s.stopping gid then (s.setSeq gid q { x with halted := true }, none)
          else State.seqPrepare gid q n (s.setSeq gid q
            { x with pc := seqPc x.pc 8, clause := some { hpc := x.pc, hdr := h, done := 0 }, waitHdr := h.wait != 0#12 })
      | .word i raw _ =>
          let c := x.clause.getD {}
          if x.waitHdr && anyFlag g c.hdr.wait.toNat then (s, none)
          else (s, some (i, { gid := gid, src := .seq q, pc := x.pc
                              len := (match fieldsOf i with | some f => f.len.bytes | none => 8), hdr := c.hdr, raw := raw
                              left := if c.hdr.count = 0#5 then 0 else c.hdr.count.toNat - c.done }))

/-- A sequencer stops for a request at its `ewait`: what remains of a wait for cycles stays (R383, R384). -/
def Seq.haltAt (x : Seq) (cycle : Nat) : Seq :=
  { x with halted := true, wait := match x.wait with | .cycles due => .cycles (due - cycle) | w => w }

/-- A sequencer's turn: it waits at an `ewait`, stops there for a request (R383), or issues. -/
def State.seqTurn (s : State) (core q : Nat) : State × Option (Instr × Issue) :=
  match s.seqGroup core q with
  | none => (s, none)
  | some gid =>
      let x := s.seqOf gid q
      if !x.started || x.stopping || x.halted then (s, none)
      else if !x.wait.over (s.grp gid).ev (s.core core).cycle then
        (if s.stopping gid then s.setSeq gid q (x.haltAt (s.core core).cycle) else s, none)
      else State.seqPrepare gid q headerFuel (s.setSeq gid q { x with wait := .none })

/-! ### Time -/

/-- Whether a path of a group waits at `bar`. (DEDUCED, log entry 12) -/
def Group.atBar (g : Group) : Bool := g.lanes.any fun n => match n.wait with | .bar _ _ _ _ _ _ => true | _ => false

/-- A lane stands where it stood before the cycle. -/
def Group.stayed (g : Group) (l : Nat) : Bool := g.pcs0[l]? == some (g.lane l).pc

/-- A path of the vote waits in `fwait`, `twait.any` or `twait.all` (R345), and has done so in the cycle: some lane of it has not moved.
(DEDUCED, log entry 12) -/
def State.atWait (s : State) (gid k : Nat) : Bool :=
  match s.voted gid k with
  | none => false
  | some p => (lanesOf p.lanes).any (s.grp gid).stayed && match s.lookPath gid p with
    | .word i raw after =>
        countsWait i && !headerWaits (s.grp gid) (s.pathLane gid p) && (match fieldsOf i with
          | some f => let u := { s with cur := s.issueOf gid p i raw after }; waits i (u.view f) u
          | none => false)
    | _ => false

/-- A group once `k` cycles have passed in which nothing of it moved but what these cycles end: the timer, the counters, and the marks of the
cycle (R345, R346, R362, R363). (DEDUCED, log entry 12) -/
def Group.endCycle (g : Group) (k : Nat) (bar wait : Bool) : Group :=
  let g := g.timerEnd k
  let c := g.csr
  { g with
    flags0 := g.flags, left := 0#32, csrw := [], evs := 0, evFirst := 0#64, evOld := 0#32, evRank := 0, evV := false
    mev := none, mevV := false, gtOld := none, pcs0 := g.lanes.map (·.pc)
    csr := { c with
      gtime := (c.gtime + k) % 2 ^ 64
      barwait := g.count 0x052 c.barwait (wrapCount (c.barwait + if bar then k else 0))
      waitcyc := g.count 0x053 c.waitcyc (wrapCount (c.waitcyc + if wait then k else 0)) } }

/-- The rejoins of a group whose conditions hold release their lanes before its next cycle (R49), but for a frozen or stopping group. -/
def State.releaseGroup (s : State) (gid : Nat) : State :=
  let g := s.grp gid
  if g.trap.frozen.isSome || s.stopping gid then s else s.setGrp gid g.releaseRejoins

/-- `k` cycles of a group end. -/
def State.groupCycles (s : State) (gid k : Nat) : State :=
  let g := s.grp gid
  (s.setGrp gid (g.endCycle k g.atBar (g.awake && (s.atWait gid 0 || s.atWait gid 1)))).releaseGroup gid

/-- A group over `n` cycles: the present one, and those in which nothing of it moves. (DEDUCED, log entry 12) -/
def State.groupTick (s : State) (gid n : Nat) : State :=
  let s := s.groupCycles gid 1
  if n ≤ 1 then s else s.groupCycles gid (n - 1)

/-- A core once a cycle of it has passed: the tags and CECNT as the next cycle finds them, and no turn taken yet (R345, R350). -/
def CoreSt.endCycle (c : CoreSt) (n : Nat) : CoreSt :=
  { c with cycle := (c.cycle + n) % 2 ^ 64, turns := [], tags0 := c.tags, cecntW := false, cecnt0 := c.cecnt }

/-- `n` cycles of a core pass. A throttled die stretches one cycle in eight (R394). (DEDUCED, log entry 74) -/
def State.coreTick (s : State) (core n : Nat) : State :=
  if n = 0 then s
  else
    let s := (s.groupsOn core).foldl (fun s g => s.groupTick g n) s
    let c := (s.core core).cycle
    let s := if (s.die (dieOf core)).throt then s.stretch core ((c + n) / 8 - c / 8) else s
    s.setCore core ((s.core core).endCycle n)

/-- Wall time passes. -/
def State.wallTick (s : State) (ns : Nat) : State := { s with pkg := { s.pkg with wtime := (s.pkg.wtime + ns) % 2 ^ 64 } }

/-- The staging entries in the image of a stopped team follow a flush that has taken some of them (R361, R385). -/
def State.imagesFollow (old s : State) : State :=
  (upto s.parked.length).foldl (fun u k => match old.parked[k]?, s.parked[k]? with
    | some a, some b =>
        if b.header && a.team.staged != b.team.staged then u.writeUnit b.key b.image (teamState u b (b.all.all b.saved.contains)) else u
    | _, _ => u) s

/-- What is applied once every issue of a cycle has been made: claims (R128), barrier words (R357) and the places in the team orders (R178).
(DEDUCED, log entry 83) -/
def State.settle (s : State) : State :=
  let t := ((s.teams.filter fun e => !e.2.claims.isEmpty).map (·.1)).foldl State.settleClaims s
  (State.imagesFollow t t.settleBars).ordersDone

/-- A core that has had a turn takes none any more until a cycle of its own has passed. (DEDUCED, log entry 83) -/
def CoreSt.close (c : CoreSt) : CoreSt := if c.turns.isEmpty then c else { c with turns := c.turns ++ [9] }

/-- The time of a turn passes, with the cycle that stood before it settled. (DESIGN CHOICE, log entry 1; DEDUCED, log entry 83) -/
def State.pass (s : State) (t : Turn) : State :=
  if t.cycles = 0 && t.ns = 0 then s
  else
    let s := s.settle
    let u : State := { s with turnAt := 0, cores := s.cores.map fun e => (e.1, e.2.close) }
    ((t.core :: t.also).eraseDups.foldl (fun s c => s.coreTick c t.cycles) u).wallTick t.ns

/-- The turn of agent `k` of a core, schedulers before sequencers, has gone by in its cycle: it or a later agent of the core, a later core or
an event has moved (R43, R178, R286, R357). (DEDUCED, log entry 83) -/
def State.hadTurn (s : State) (core k : Nat) : Bool := core + 1 < s.turnAt || (s.core core).turns.any (k ≤ ·)

/-- A turn of an agent of a core in a cycle; each has one (R43). (DEDUCED, log entry 83) -/
def State.takeTurn (s : State) (core k : Nat) : State :=
  { s.setCore core { s.core core with turns := (s.core core).turns ++ [k] } with turnAt := core + 1 }

end Sys2Proof.Machine
end

