-- ==== Sys2Proof/Machine/Step.lean ====
section
/-!
DEFINITION. One step of the machine: the first turn of the agenda passes its time and then acts. A scheduler or a sequencer that has a turn issues
what it finds; an event happens.
-/

namespace Sys2Proof.Machine

open Sys2Proof

/-- What a trap that a pick ends in has used up: a timer trap or a ticket-stall fault that was due is taken (R363, R257), and a trap-fence
that traps has been made (R376, R378). -/
def Group.trapTaken (g : Group) (t : TrapInfo) : Group :=
  if t.code = 0x1B then { g with csr := { g.csr with tpend := false } }
  else if t.code = 0x25 then { g with trap := { g.trap with stall := false } }
  else if t.code = 0x1A then g.mapLanes fun l n => if t.planes.getLsbD l then { n with fence := none } else n
  else g

/-- A trap that a pick ends in. -/
def State.takeTrap (s : State) (gid : Nat) (t : TrapInfo) : State := raise (s.setGrp gid ((s.grp gid).trapTaken t)) gid t

/-- The state in which an instruction executes: its issue, its operand lines used and their words corrected (R122, R124). -/
def State.issuing (s : State) (x : Issue) (i : Instr) (second : Option Second) : State :=
  { s.touch x i with cur := x, second := second }.correctWords i

/-- The secondary instruction of a cycle, unless the primary one has stopped the group or was not ready, which its lanes show (R39, R42, R370).
(DEDUCED, log entry 14) -/
def secondPort (b : Second) (s : State) : Out :=
  let g := s.grp b.issue.gid
  if g.awake && g.lanes != b.group.lanes then exec b.i (s.issuing b.issue b.i (some b)) else .next s

/-- The instructions of a pick. (DEDUCED, log entry 14) -/
def State.run (s : State) (i : Instr) (x : Issue) (second : Option (Instr × Issue)) : Out :=
  match second with
  | none => exec i (s.issuing x i none)
  | some (j, y) => match exec i (s.issuing x i none) with
    | .next t => secondPort (s.secondFor i x j y) t
    | o => o

/-- A scheduler's turn (R43). -/
def schedTurn (core sched : Nat) (s : State) : Out :=
  if s.hadTurn core sched then .next s
  else
    let s := s.takeTurn core sched
    match State.pick (s.askOrder core sched) s with
    | (t, _, .none) => .next t
    | (t, g, .trap r) => .next (t.takeTrap g r)
    | (t, _, .go i x second) => t.run i x second

/-- A sequencer's turn (R270). -/
def engineTurn (core q : Nat) (s : State) : Out :=
  if s.hadTurn core (4 + q) then .next s
  else match (s.takeTurn core (4 + q)).seqTurn core q with
    | (t, none) => .next t
    | (t, some (i, x)) => exec i { t with cur := x, second := none }

/-- Bytes that land in a window and may count a barrier down: they do so before the issues of their cycle (R357). -/
def lands : Instr → Bool
  | .localCopyCompletion _ _ | .copyBytesLand _ _ | .copyJobCompletion _ => true
  | _ => false

/-- The end of the issues of a cycle: what they leave is settled, and none follows. (DEDUCED, log entry 83) -/
def State.endIssues (s : State) : State := { s.settle with turnAt := 2 ^ 20 }

/-- An event of the package; a word that only lanes and sequencers issue is none. Bytes land before the issues of a cycle and every other event
comes after them. What firmware does waits for the verified firmware to run (R415). (DESIGN CHOICE, log entry 2; DEDUCED, log entries 6, 83) -/
def eventTurn (i : Instr) (s : State) : Out :=
  if (fieldsOf i).isSome || (awaitsFirmware i && !s.firmwareRuns) then .next s
  else if lands i then (if s.turnAt = 0 then exec i s else .next s)
  else exec i s.endIssues

/-- What a turn does once its time has passed. (DESIGN CHOICE, log entry 1) -/
def actTurn (a : Act) (s : State) : Out :=
  match a with
  | .issue core sched => schedTurn core sched s
  | .seq core q => engineTurn core q s
  | .event i => eventTurn i s
  | .upset u => .next (s.endIssues.upset u)
  | .firmware f => .next (if s.firmwareRuns || f == .readIdentity then s.endIssues.firmware f else s)

/-- One step: the first turn of the agenda; where it is empty nothing moves. (DESIGN CHOICE, log entry 1) -/
def step (s : State) : Out :=
  match s.agenda with
  | [] => .next s
  | t :: ts => actTurn t.act ({ s with agenda := ts }.pass t)

/-! ### A word placed where the next step fetches -/

/-- The block of code that holds a word of the opcode table at its first byte. (DESIGN CHOICE, log entry 7) -/
def wordBlock (nbits w : Nat) : List Byte := leBytes 16 (w % 2 ^ nbits) ++ leBytes 16 0

/-- A clause that names both flags. -/
def openClause : Clause := { hpc := 24, hdr := { av := true, bv := true, setb := 1#4 } }

/-- A group with every register, all of whose lanes stand at the word. (DEDUCED, log entry 6) -/
def wordGroup (i : Option Instr) : Group :=
  { bound := true, lanes := mkLanes fun _ => { pc := lpcOf 32, clause := some openClause }, valloc := 256, vcnt := 256, sregs := 64, rejd := 8
    fb := match i with | some i => neededLines i | none => []
    seqs := [{ st := 1, pc := 32, clause := some openClause, started := true }, {}, {}] }

/-- The state with an instruction where the next step fetches: a bound group of core 0, or its first sequencer where only sequencers run
the word. (DEDUCED, log entry 6) -/
def State.withFetchWord (s : State) (nbits w : Nat) : State :=
  let i := decodeTableWord nbits w
  let act := match i with
    | some j => if seqOnly j then Act.seq 0 0 else .issue 0 0
    | none => .issue 0 0
  { (((s.setGrp 0 (wordGroup i)).setTeam 0
        { bound := true, desc := { vregs := 256, sregs := 64, tiles := 8, accg := 16, cvr := 8, rejd := 8, spad := 768, barw := 255 }
          cvs := (upto 8).map fun _ => {} }).setCore 0
        { s.core 0 with ic := [⟨0, 0, 1, wordBlock nbits w⟩, ⟨0, 0, 2, wordBlock 0 0⟩], icMiss := [], turns := [] }).setCtx 0
        { s.ctx 0 with live := true, key := 0 } with
    agenda := [{ act := act }], turnAt := 0 }

end Sys2Proof.Machine
end

