-- ==== Sys2Proof/Safety.lean ====
section
/-!
DEFINITION. What a safe run is, and the words in which claims speak of one instruction: when nothing stands in its way, and which parts of the
machine two states share.
-/

namespace Sys2Proof

open Sys2Proof.Machine

/-- Physical memory, the scratchpads and the constant stores are in canonical form. -/
def Machine.State.memOk (s : State) : Prop :=
  Memory.wf s.mem = true ∧ (∀ e ∈ s.teams, Memory.wf e.2.spad = true) ∧ ∀ e ∈ s.cores, Memory.wf e.2.kst = true

/-- A step answers a next state whose memory is in canonical form. -/
def Safe (s : State) : Prop := ∃ t, step s = .next t ∧ t.memOk

/-- A run of `n` steps is safe. -/
def SafeRun : Nat → State → Prop
  | 0, s => s.memOk
  | n + 1, s => s.memOk ∧ ∃ t, step s = .next t ∧ SafeRun n t

/-! ### An instruction of the lanes with nothing in its way -/

/-- The present issue is one of lanes, not of a sequencer. -/
def ofLanes (s : State) : Bool := match s.cur.src with | .seq _ => false | _ => true

/-- The group of the present issue. -/
def Machine.State.me (s : State) : Group := s.grp s.cur.gid

/-- Lanes of a bound group issue the instruction; its word raises no fault (R74, R75), it is ready (R42), no PC comparator matches (R382), the
tests of its active lanes answer nothing (R423), and it waits for nothing that it tests after its faults (R267, R272, R281, R284). -/
def runs (i : Instr) (f : Fields) (s : State) (chk : View → Nat → Check) : Bool :=
  ofLanes s && s.me.bound && (staticFault s s.cur i).isNone && !waits i (s.view f) s && (debugFault s s.cur).isNone
    && firstCheck (laneTest s i (s.view f) (chk (s.view f))) (lanesOf (s.view f).act) == .ok
    && !waitsLate i (s.view f) s

/-- `runs` for an instruction whose lanes have no tests of their own. -/
def free (i : Instr) (f : Fields) (s : State) : Bool := runs i f s fun _ _ => .ok

/-- Sequencer `q` runs, and the word that it issues stops it for none of the causes of R274 that the word shows, and its flag is not full. -/
def seqRuns (i : Instr) (f : Fields) (s : State) (q : Nat) (inClass : Bool) : Bool :=
  s.cur.src == .seq q && (nth {} s.me.seqs q).st == 1 && !(nth {} s.me.seqs q).stopping && seqCause i f inClass s == 0 && !flagFull s i

/-! ### What an instruction leaves -/

/-- A group without its registers, its sticky flags with their first record, its lanes, and what an issue of its lanes uses up. -/
def Machine.Group.rest (g : Group) : Group :=
  { g with v := [], s := [], p := [], bad := [], weak := [], lanes := [], tfault := []
           evs := 0, evFirst := 0#64, evOld := 0#32, evRank := 0, evV := false
           trap := { g.trap with supp := 0#32, kLanes := 0#32 }, csr := { g.csr with fstat := 0#32, ffirst := 0#64 } }

/-- Two states differ in the issuing group alone. -/
def onlyGroup (s t : State) : Prop := t = { s with groups := t.groups } ∧ ∀ g, g ≠ s.cur.gid → t.grp g = s.grp g

/-- Every byte of physical memory reads as before. -/
def sameMem (s t : State) : Prop := ∀ a, readCell t.mem a = readCell s.mem a

/-- The frame of an instruction that acts on registers: nothing but the issuing group's registers, sticky flags and lanes may change. -/
def framed (s t : State) : Prop := onlyGroup s t ∧ sameMem s t ∧ t.me.rest = s.me.rest

/-- The vector, uniform and predicate registers as before. -/
def sameV (s t : State) : Prop := ∀ n l, l < 32 → t.me.vr n l = s.me.vr n l
def sameU (s t : State) : Prop := ∀ n, t.me.ur n = s.me.ur n
def sameP (s t : State) : Prop := ∀ n l, l < 32 → t.me.pr n l = s.me.pr n l

/-- Vector register `d` has `x l` in each lane `l` of `m`; every other word is as before. -/
def writesV (s t : State) (d : Nat) (m : Word) (x : Nat → Word) : Prop :=
  ∀ n l, l < 32 → t.me.vr n l = if n = d ∧ m.getLsbD l then x l else s.me.vr n l

/-- Predicate register `d` has `x l` in each lane `l` of `m`, but for `p15`, which is hard-wired (R118); every other one is as before. -/
def writesP (s t : State) (d : Nat) (m : Word) (x : Nat → Half) : Prop :=
  ∀ n l, l < 32 → t.me.pr n l = if n ≠ 15 ∧ n = d ∧ m.getLsbD l then x l else s.me.pr n l

/-- The primary instruction of the cycle wrote the uniform register (or the CSR, from 4096 on) that the secondary one would write (R39). -/
def taken (s : State) (n : Nat) : Bool := match s.second with | some y => s.cur.port2 && y.wrote.contains n | none => false

/-- Uniform register `d` has `x`, where some lane is active and the other port did not write it (R39); every other one is as before. -/
def writesU (s t : State) (f : Fields) (d : Nat) (x : Word) : Prop :=
  ∀ n, t.me.ur n = if n = d ∧ (s.view f).act ≠ 0#32 ∧ taken s d = false then x else s.me.ur n

/-- The sticky flags and their first record as before. -/
def sameFlags (s t : State) : Prop := t.me.csr.fstat = s.me.csr.fstat ∧ t.me.csr.ffirst = s.me.csr.ffirst

/-- FFIRST after events of an issuer of place `rank`, of an instruction at `pc`: where V was 0 before the events of the cycle it takes the first
event that sets a flag, unless an issuer whose place in the cycle is no later had one (R93, R94). -/
def firstRecord (g : Group) (rank src pc : Nat) (evs : List Ev) : DWord :=
  match evs.find? (·.flags != 0) with
  | some e =>
      if (if g.evs = 0 then g.csr.ffirst.getLsbD 63 else g.evV) then g.csr.ffirst
      else if g.evs = 0 ∨ rank < g.evRank then ffirstWord src e.flags e.index pc else g.evFirst
  | none => g.csr.ffirst

/-- The sticky flags of events are set, and FFIRST keeps or takes its record (R92 to R94). -/
def events (s t : State) (evs : List Ev) : Prop :=
  t.me.csr.fstat = s.me.csr.fstat ||| BitVec.ofNat 32 (allFlags evs)
  ∧ t.me.csr.ffirst = firstRecord s.me s.portHere 0 s.cur.pc evs

/-- Each issuing lane goes to the address that `tgt` gives it, else to the sequential successor (R144); every other lane stays. -/
def goes (s t : State) (tgt : Nat → Option Nat) : Prop :=
  ∀ l, l < 32 → (t.me.lane l).pc
    = if s.cur.lanes.getLsbD l then lpcOf ((tgt l).getD (seqPc s.cur.pc s.cur.len)) else (s.me.lane l).pc

/-- The issuing lanes step to the sequential successor. -/
def steps (s t : State) : Prop := goes s t fun _ => none

/-- What a computing instruction leaves (R130): its result in `vD` of each active lane, or in uniform execution once in `sD` as the lowest
active lane has it; its sticky flags; and the step to the successor. -/
def computed (i : Instr) (f : Fields) (s t : State) (x : Nat → Word) (fl : Nat → Nat) : Prop :=
  framed s t ∧ steps s t ∧ sameP s t ∧ events s t (laneEvs i (s.view f) fl)
  ∧ (if isUniform i then sameV s t ∧ writesU s t f f.d.toNat (x (lowLane (s.view f).act))
     else writesV s t f.d.toNat (s.view f).act x ∧ sameU s t)

/-! ### Accesses, pending operations and queued stores -/

/-- Nothing stands in the way of lane `l`'s access (R214 to R217, R203, R382, R224, R249): a global one is aligned, its page is translated and
permits it, no data comparator matches, and its line has no mark that it would read, but one that an earlier store of the lane clears (R221), and no open record of another group that it would race
with; one of a window lies in it, aligned, and reads no word with an error, but one that an earlier store of the lane writes whole. -/
def mayAccess (f : Fields) (a : AccSpec) (s : State) (l : Nat) : Prop :=
  let v := s.view f
  let x := v.gaddr f l
  let y := v.laddr f l
  let inside := fun len : Nat => 0 ≤ y ∧ y + (a.k : Int) ≤ (len : Int) ∧ y.toNat % a.k = 0
  match a.w with
  | .global => x % a.k = 0 ∧ ∃ pa, s.xlate v.gid x a.kind = .hit pa ∧ dataMatch s v a.kind l x a.k = none
      ∧ (a.poison = true → lineMarked s v.gid l pa = false) ∧ (a.plain = true → raceWith s v l pa = none)
  | .own => inside (s.window v.g.team) ∧ (a.poison = true → wordMarked s v.gid l v.g.team y.toNat a.k = false)
  | .const => inside 65536
  | .cluster => ∃ t, s.placed v.gid f.row.toNat f.col.toNat = some t ∧ inside (s.window t)
      ∧ (a.poison = true → wordMarked s v.gid l t y.toNat a.k = false)

/-- A flag's count one up, and one down (R346). -/
def countUp (k : Option Nat) (fl : List Nat) : List Nat := match k with | some i => setNth (nth 0 fl i + 1) fl i | none => fl
def countDown (k : Option Nat) (fl : List Nat) : List Nat := match k with | some i => setNth (nth 0 fl i - 1) fl i | none => fl

/-- A long-latency instruction of the lanes is pending (R61, R346): it is the group's last operation and `P` holds of it, and its flag counts one
more; the lanes step, and all else is as before. -/
def queued (i : Instr) (f : Fields) (s t : State) (P : Pend → Prop) : Prop :=
  t = { s with groups := t.groups, seqno := s.seqno + 1 } ∧ (∀ g, g ≠ s.cur.gid → t.grp g = s.grp g) ∧ sameMem s t
    ∧ { t.me.rest with ops := [], flags := [] } = { s.me.rest with ops := [], flags := [] }
    ∧ steps s t ∧ sameV s t ∧ sameU s t ∧ sameP s t ∧ sameFlags s t ∧ t.me.flags = countUp (s.flagHere f) s.me.flags
    ∧ ∃ p, t.me.ops = s.me.ops ++ [p] ∧ p.i = i ∧ p.pc = s.cur.pc ∧ p.act = (s.view f).act ∧ p.flag = s.flagHere f ∧ p.ord = s.seqno ∧ P p

/-- Stores have entered the queue of the group's core (R220), marked where they write a whole line together (R224); no byte of memory and no register has changed. -/
def enqueued (s t : State) (es : List SqEntry) : Prop :=
  t = { s with groups := t.groups, cores := t.cores, seqno := s.seqno + 1 } ∧ (∀ g, g ≠ s.cur.gid → t.grp g = s.grp g)
    ∧ (∀ c, c ≠ s.cur.gid / 16 → t.core c = s.core c)
    ∧ t.core (s.cur.gid / 16) = { s.core (s.cur.gid / 16) with sq := (s.core (s.cur.gid / 16)).sq ++ markWhole es }
    ∧ t.me.rest = s.me.rest ∧ steps s t ∧ sameV s t ∧ sameU s t ∧ sameP s t ∧ sameFlags s t ∧ sameMem s t

/-- A state with the issuing group's fast buffer and its count of misses as another state has them (R122). -/
def Machine.State.linesOf (t s : State) : State :=
  t.setGrp s.cur.gid { t.me with fb := s.me.fb, csr := { t.me.csr with fbmiss := s.me.csr.fbmiss } }

/-- An accumulator row and a tile without the notes of single-bit errors, which change no value (R175). -/
def Machine.AccRow.plain (r : AccRow) : AccRow := { r with ce := [] }
def Machine.Tile.plain (x : Tile) : Tile := { x with ce := [], ceS := [] }

/-- No register and no byte of physical memory has changed, and no sticky flag. -/
def quiet (s t : State) : Prop := sameV s t ∧ sameU s t ∧ sameP s t ∧ sameFlags s t ∧ sameMem s t

/-- Operation `k` of a group may complete: it is not staged, its time has come, and nothing before it in its lanes' order stands before it. -/
def mayComplete (s : State) (gid k : Nat) (p : Pend) : Prop :=
  (s.grp gid).ops[k]? = some p ∧ p.act ≠ 0#32 ∧ p.staged = false ∧ s.reached gid p.due p.dueNs = true ∧ pendReady s gid p = true

/-- An operation of a group has left it (R61, R346): the flag of the operation of its number counts one less. -/
def left (s t : State) (gid : Nat) (p : Pend) : Prop :=
  (t.grp gid).ops = (s.grp gid).ops.filter (·.ord != p.ord)
    ∧ (t.grp gid).flags = countDown (((s.grp gid).ops.find? (·.ord == p.ord)).bind (·.flag)) (s.grp gid).flags

/-- The bytes at a physical address, as the context of a group sees them, are those of memory: it owns the line, under the key in force. -/
def ownLine (s : State) (key pa : Nat) : Prop := (s.sideOf (pa / 64)).key = key ∧ (s.sideOf (pa / 64)).gen = s.keyGenOf key

end Sys2Proof
end

