-- ==== Sys2Proof/Certificates/Slice0/Obligations.lean ====
section
/-!
DEFINITION. The statements about the model that the provers settle. Each says of every state and every operand what the spec's rules say; the
tables before them give the rules' formulas.
-/

namespace Sys2Proof

open Sys2Proof.Machine

/-! ### Formulas of the rules -/

/-- The exact results of R132, by instruction. -/
def intRule (i : Instr) : Option (Fields × (Int → Int → Int → Int)) :=
  match i with
  | .add f => some (f, fun a b _ => a + b)
  | .sub f => some (f, fun a b _ => a - b)
  | .mul f => some (f, fun a b _ => a * b)
  | .mulh f => some (f, fun a b _ => Int.fdiv (a * b) (2 ^ intWidth f.tyN))
  | .mad f => some (f, fun a b c => a * b + c)
  | .madh f => some (f, fun a b c => Int.fdiv (a * b) (2 ^ intWidth f.tyN) + c)
  | .min f => some (f, fun a b _ => Min.min a b)
  | .max f => some (f, fun a b _ => Max.max a b)
  | .abs f => some (f, fun a _ _ => |a|)
  | .neg f => some (f, fun a _ _ => -a)
  | _ => none

/-- The results of R134 on 32-bit words, by instruction. -/
def logicRule (i : Instr) : Option (Fields × (Word → Word → Word)) :=
  match i with
  | .and f => some (f, fun a b => a &&& b)
  | .or f => some (f, fun a b => a ||| b)
  | .xor f => some (f, fun a b => a ^^^ b)
  | .not f => some (f, fun a _ => ~~~a)
  | .andn f => some (f, fun a b => a &&& ~~~b)
  | .shl f => some (f, fun a b => BitVec.ofNat 32 (if b.toNat < 32 then a.toNat * 2 ^ b.toNat else 0))
  | .shr f => some (f, fun a b => BitVec.ofNat 32 (if b.toNat < 32 then a.toNat / 2 ^ b.toNat else 0))
  | .sar f => some (f, fun a b => BitVec.ofInt 32 (Int.fdiv a.toInt (2 ^ Nat.min b.toNat 31)))
  | .rotl f => some (f, fun a b =>
      BitVec.ofNat 32 (a.toNat * 2 ^ (b.toNat % 32) + a.toNat / 2 ^ (32 - b.toNat % 32)))
  | _ => none

/-- The relations of R138. -/
def cmpRule (sub : Nat) (a b : Int) : Prop :=
  match sub with
  | 0 => a = b | 1 => a ≠ b | 2 => a < b | 3 => a ≤ b | 4 => a > b | _ => a ≥ b

/-- The predicates that R196 and R197 write, by instruction, with bit `k` of R197 from the second source. -/
def predRule (i : Instr) : Option (Fields × (View → Nat → Half)) :=
  match i with
  | .pand f => some (f, fun v l => v.g.pr f.a.toNat l &&& v.g.pr f.b.toNat l)
  | .por f => some (f, fun v l => v.g.pr f.a.toNat l ||| v.g.pr f.b.toNat l)
  | .pxor f => some (f, fun v l => v.g.pr f.a.toNat l ^^^ v.g.pr f.b.toNat l)
  | .pnot f => some (f, fun v l => ~~~(v.g.pr f.a.toNat l))
  | .pmov f => some (f, fun v l => v.g.pr f.a.toNat l)
  | .pset f => some (f, fun v l => BitVec.ofNat 16 (if f.len = .l64 then v.a f l else f.imm).toNat)
  | .pbit f => some (f, fun v l =>
      let k := (v.breg f l).toNat % 16
      let x := v.g.pr f.a.toNat l
      match f.c.toNat with
      | 0 => x ||| BitVec.twoPow 16 k
      | 1 => x &&& ~~~(BitVec.twoPow 16 k)
      | 2 => x ^^^ BitVec.twoPow 16 k
      | _ => if x.getLsbD k then 1#16 else 0#16)
  | _ => none

/-- The words that moves and selections write in each active lane (R139 to R143, R196). -/
def moveRule (i : Instr) : Option (Fields × (View → Nat → Word)) :=
  match i with
  | .mov f => some (f, fun v l => v.a f l)
  | .movi f => some (f, fun _ _ => f.imm)
  | .lid f => some (f, fun _ l => BitVec.ofNat 32 l)
  | .csel f => some (f, fun v l => if (v.g.pr f.c.toNat l).getLsbD 0 then v.a f l else v.breg f l)
  | .pget f => some (f, fun v l => BitVec.ofNat 32 (v.g.pr f.a.toNat l).toNat)
  | .shfl f => some (f, fun v l =>
      let w := if f.len = .l64 then 32 else 2 ^ (f.imm.toNat % 8)
      let b := (v.breg f l).toNat
      v.w.vr f.a.toNat (match f.sub.toNat with
        | 0 => l - l % w + b % w
        | 1 => if b ≤ l % w then l - b else l
        | 2 => if l % w + b < w then l + b else l
        | _ => l - l % w + ((l % w) ^^^ b) % w))
  | _ => none

/-- The results in a floating-point format of R155 to R158, before `.sat`, by instruction. -/
def floatRule (i : Instr) : Option (Fields × (FVal → FVal → FVal → FRes)) :=
  match i with
  | .fadd f => some (f, fun a b _ => (fmtOf f.tyN).add f.rm a b)
  | .fsub f => some (f, fun a b _ => (fmtOf f.tyN).sub f.rm a b)
  | .fmul f => some (f, fun a b _ => (fmtOf f.tyN).mul f.rm a b)
  | .ffma f => some (f, fun a b c => (fmtOf f.tyN).fma f.rm a b c)
  | .fdiv f => some (f, fun a b _ => (fmtOf f.tyN).div f.rm a b)
  | .frnd f => some (f, fun a _ _ => (fmtOf f.tyN).rnd f.rm a)
  | .frcp f => some (f, fun a _ _ => (fmtOf f.tyN).rcp f.rm a)
  | .frsq f => some (f, fun a _ _ => (fmtOf f.tyN).rsq f.rm a)
  | .fexp2 f => some (f, fun a _ _ => (fmtOf f.tyN).exp2 f.rm a)
  | .flog2 f => some (f, fun a _ _ => (fmtOf f.tyN).log2 f.rm a)
  | _ => none

/-- The results of the other floating-point and narrow instructions that write a word and sticky flags in each lane (R157, R161, R162, R166). -/
def convertRule (i : Instr) : Option (Fields × (View → Nat → FRes)) :=
  match i with
  | .fmin f => some (f, fun v l => (fmtOf f.tyN).finish false
      ((fmtOf f.tyN).pick false (fpBits f (v.a f l)) (fpBits f (v.b f l))))
  | .fmax f => some (f, fun v l => (fmtOf f.tyN).finish false
      ((fmtOf f.tyN).pick true (fpBits f (v.a f l)) (fpBits f (v.b f l))))
  | .fcvt f => some (f, fun v l => fcvtWord f (v.a f l) (v.reg f.ub f.b.toNat l) l)
  | .hpack f => some (f, fun v l =>
      let lo := (fmtOf f.tyN).finish f.sat ((fmtOf f.tyN).put f.rm (fp32.val (v.a f l).toNat))
      let hi := (fmtOf f.tyN).finish f.sat ((fmtOf f.tyN).put f.rm (fp32.val (v.b f l).toNat))
      ⟨hi.x * 2 ^ 16 + lo.x, lo.fl ||| hi.fl⟩)
  | .hunpack f => some (f, fun v l => fp32.finish false (fp32.put 0 ((fmtOf f.tyN).val
      (if f.sub = 0#4 then (v.a f l).toNat % 2 ^ 16 else (v.a f l).toNat / 2 ^ 16))))
  | .nbunpack f => some (f, fun v l => fp32.finish false (fp32.put f.rm
      (nbVal f.tyN (v.w.ur f.b.toNat).toNat l (nbElem f.tyN (unpackImage f v) l))))
  | _ => none

/-- The bit that R160 gives the class of a format's bits: sign, exponent field and fraction. -/
def classRule (f : Fmt) (x : Nat) : Nat :=
  let neg := x / 2 ^ (f.eb + f.fb) % 2 = 1
  let e := x / 2 ^ f.fb % 2 ^ f.eb
  let m := x % 2 ^ f.fb
  if e = 2 ^ f.eb - 1 then (if m = 0 then (if neg then 0 else 7) else if m < 2 ^ (f.fb - 1) then 8 else 9)
  else if e = 0 then (if m = 0 then (if neg then 3 else 4) else if neg then 2 else 5)
  else if neg then 1 else 6

end Sys2Proof

open Sys2Proof Sys2Proof.Machine

/-! ### Integer, logic and predicate instructions -/

/-- R132, R133, R79, R80, R130: the integer instructions complete with the exact result wrapped or saturated into the type and extended to the
destination word; nothing else changes and no sticky flag is set. -/
def Obligations.IntegerArithmeticWritesItsResult : Prop :=
  ∀ (i : Instr) (f : Fields) (r : Int → Int → Int → Int) (s : State), intRule i = some (f, r) → Sys2Proof.free i f s = true →
    ∃ t, exec i s = .next t ∧ computed i f s t
      (fun l => let v := s.view f
        intResult f.tyN f.sat (r (intVal f.tyN (v.a f l)) (intVal f.tyN (v.b f l)) (intVal f.tyN (v.c f l)))) (fun _ => 0)

/-- R81: `idiv` and `irem` truncate toward zero, give all ones of the type and the dividend for a zero divisor, and set DZ for it. -/
def Obligations.IntegerDivisionTruncatesAndFlagsZero : Prop :=
  ∀ (f : Fields) (s : State),
    let v := s.view f
    let a := fun l => intVal f.tyN (v.a f l)
    let b := fun l => intVal f.tyN (v.b f l)
    let dz := fun l => if b l = 0 then fDZ else 0
    (Sys2Proof.free (.idiv f) f s = true → ∃ t, exec (.idiv f) s = .next t ∧ computed (.idiv f) f s t
      (fun l => if b l = 0 then intExt f.tyN (2 ^ intWidth f.tyN - 1) else intExt f.tyN (wrap (Int.tdiv (a l) (b l)) (intWidth f.tyN))) dz)
    ∧ (Sys2Proof.free (.irem f) f s = true → ∃ t, exec (.irem f) s = .next t ∧ computed (.irem f) f s t
      (fun l => intExt f.tyN (wrap (if b l = 0 then a l else a l - b l * Int.tdiv (a l) (b l)) (intWidth f.tyN))) dz)

/-- R134: the logic, shift and rotate instructions complete with the word of the rule's table; `clz` counts the zeros above the highest one bit, `popc`
the one bits, and `brev` reverses the bits. Nothing else changes. -/
def Obligations.LogicShiftsAndBitCounts : Prop :=
  (∀ (i : Instr) (f : Fields) (r : Word → Word → Word) (s : State), logicRule i = some (f, r) → Sys2Proof.free i f s = true →
    ∃ t, exec i s = .next t ∧ computed i f s t (fun l => r ((s.view f).a f l) ((s.view f).b f l)) (fun _ => 0))
  ∧ (∀ (f : Fields) (s : State),
    let a := (s.view f).a f
    (Sys2Proof.free (.clz f) f s = true → ∃ t x, exec (.clz f) s = .next t ∧ computed (.clz f) f s t x (fun _ => 0)
      ∧ ∀ l, x l = BitVec.ofNat 32 (if a l = 0#32 then 32 else 31 - Nat.log2 (a l).toNat))
    ∧ (Sys2Proof.free (.popc f) f s = true → ∃ t x, exec (.popc f) s = .next t ∧ computed (.popc f) f s t x (fun _ => 0)
      ∧ ∀ l, x l = BitVec.ofNat 32 ((List.range 32).countP fun k => (a l).getLsbD k))
    ∧ (Sys2Proof.free (.brev f) f s = true → ∃ t x, exec (.brev f) s = .next t ∧ computed (.brev f) f s t x (fun _ => 0)
      ∧ ∀ l k, k < 32 → (x l).getLsbD k = (a l).getLsbD (31 - k)))

/-- R136, R137: `bfx` and `bfi` move the bits of the field that the control word names, clipped at bit 31, and `lea` adds a scaled value. -/
def Obligations.BitFieldsAndScaledAdds : Prop :=
  ∀ (f : Fields) (s : State),
    let v := s.view f
    let ctl := fun l => (if f.len = .l64 then v.c f l else f.imm).toNat
    let p := fun l => ctl l % 32
    let w := fun l => Nat.min (ctl l / 2 ^ 8 % 64) (32 - p l)
    (Sys2Proof.free (.bfx f) f s = true → ∃ t x, exec (.bfx f) s = .next t ∧ computed (.bfx f) f s t x (fun _ => 0)
      ∧ ∀ l k, k < 32 → (x l).getLsbD k = if k < w l then (v.a f l).getLsbD (p l + k)
          else f.ty == 1#4 && 0 < w l && (v.a f l).getLsbD (p l + w l - 1))
    ∧ (Sys2Proof.free (.bfi f) f s = true → ∃ t x, exec (.bfi f) s = .next t ∧ computed (.bfi f) f s t x (fun _ => 0)
      ∧ ∀ l k, k < 32 → (x l).getLsbD k = if p l ≤ k ∧ k < p l + w l then (v.breg f l).getLsbD (k - p l) else (v.a f l).getLsbD k)
    ∧ (Sys2Proof.free (.lea f) f s = true → ∃ t, exec (.lea f) s = .next t ∧ computed (.lea f) f s t
        (fun l => BitVec.ofInt 32 ((v.a f l).toNat + (v.breg f l).toNat * 2 ^ f.c.toNat + (if f.len = .l64 then 0 else f.imm.toInt))) (fun _ => 0))

/-- R139 to R143, R196: the moves, `csel`, `shfl`, `lid` and `pget` write their word in every active lane; `movs` writes a uniform register once where some
lane is active, and `rdlane` the word of the lane that it names. Nothing else changes. -/
def Obligations.MovesAndExchanges : Prop :=
  (∀ (i : Instr) (f : Fields) (x : View → Nat → Word) (s : State), moveRule i = some (f, x) → Sys2Proof.free i f s = true →
    ∃ t, exec i s = .next t ∧ framed s t ∧ steps s t ∧ sameU s t ∧ sameP s t ∧ sameFlags s t
      ∧ writesV s t f.d.toNat (s.view f).act (x (s.view f)))
  ∧ (∀ (f : Fields) (s : State),
    let v := s.view f
    (Sys2Proof.free (.movs f) f s = true → ∃ t, exec (.movs f) s = .next t ∧ framed s t ∧ steps s t ∧ sameV s t ∧ sameP s t ∧ sameFlags s t
      ∧ writesU s t f f.d.toNat (if f.len = .l64 then v.w.ur f.a.toNat else f.imm))
    ∧ (Sys2Proof.free (.rdlane f) f s = true → ∃ t, exec (.rdlane f) s = .next t ∧ framed s t ∧ steps s t ∧ sameV s t ∧ sameP s t ∧ sameFlags s t
      ∧ (f.len = .l64 → writesU s t f f.d.toNat (v.w.vr f.a.toNat ((v.breg f 0).toNat % 32)))
      ∧ (f.len ≠ .l64 → v.act &&& f.imm = 0#32 → sameU s t)
      ∧ (f.len ≠ .l64 → ∀ j, (v.act &&& f.imm).getLsbD j = true → (∀ k, k < j → (v.act &&& f.imm).getLsbD k = false) →
          writesU s t f f.d.toNat (v.w.vr f.a.toNat j))))

/-- R196, R197, R138, R151: the predicate instructions write their predicate in every active lane, `cmp` 1 or 0 by the relation of the two values, and
`vote` 1 or 0 by bit 0 of its source over the active lanes, or their mask to a uniform register; nothing else changes. -/
def Obligations.PredicatesAndCompares : Prop :=
  (∀ (i : Instr) (f : Fields) (x : View → Nat → Half) (s : State), predRule i = some (f, x) → Sys2Proof.free i f s = true →
    ∃ t, exec i s = .next t ∧ framed s t ∧ steps s t ∧ sameV s t ∧ sameU s t ∧ sameFlags s t
      ∧ writesP s t f.d.toNat (s.view f).act (x (s.view f)))
  ∧ (∀ (f : Fields) (s : State), Sys2Proof.free (.cmp f) f s = true →
    ∃ t x, exec (.cmp f) s = .next t ∧ framed s t ∧ steps s t ∧ sameV s t ∧ sameU s t ∧ sameFlags s t
      ∧ writesP s t f.d.toNat (s.view f).act x
      ∧ ∀ l, (cmpRule f.sub.toNat (intVal f.tyN ((s.view f).a f l)) (intVal f.tyN ((s.view f).b f l)) → x l = 1#16)
        ∧ (¬ cmpRule f.sub.toNat (intVal f.tyN ((s.view f).a f l)) (intVal f.tyN ((s.view f).b f l)) → x l = 0#16))
  ∧ (∀ (f : Fields) (s : State), Sys2Proof.free (.vote f) f s = true →
    let yes := fun l => (s.view f).act.getLsbD l = true ∧ (s.me.pr f.a.toNat l).getLsbD 0 = true
    ∃ t, exec (.vote f) s = .next t ∧ framed s t ∧ steps s t ∧ sameV s t ∧ sameFlags s t
      ∧ (f.sub ≠ 2#4 → sameU s t ∧ ∃ x, writesP s t f.d.toNat (s.view f).act x
          ∧ ∀ l, (s.view f).act.getLsbD l = true → (x l = 1#16 ∨ x l = 0#16)
            ∧ (f.sub = 0#4 → (x l = 1#16 ↔ ∃ k, yes k))
            ∧ (f.sub = 1#4 → (x l = 1#16 ↔ ∀ k, (s.view f).act.getLsbD k = true → yes k))
            ∧ (f.sub = 3#4 → (x l = 1#16 ↔ yes l ∧ ∀ k, k < l → ¬ yes k)))
      ∧ (f.sub = 2#4 → sameP s t ∧ ∃ m, writesU s t f f.d.toNat m ∧ ∀ l, m.getLsbD l = true ↔ yes l))

/-! ### Floating point, narrow formats, matrices and random numbers of lanes -/

/-- R153 to R158, R130: a floating-point operation completes with the rounded result of its format, saturated under `.sat`, and with its sticky
flags; nothing else changes. -/
def Obligations.FloatOperationsWriteTheRoundedResult : Prop :=
  ∀ (i : Instr) (f : Fields) (r : FVal → FVal → FVal → FRes) (s : State), floatRule i = some (f, r) → Sys2Proof.free i f s = true →
    let v := s.view f
    let res := fun l => (fmtOf f.tyN).finish f.sat (r (fpVal f (v.a f l)) (fpVal f (v.b f l)) (fpVal f (v.c f l)))
    ∃ t, exec i s = .next t ∧ computed i f s t (fun l => BitVec.ofNat 32 (res l).x) (fun l => (res l).fl)

/-- R157, R161, R162, R164 to R166: `fmin`, `fmax`, the conversions and the packings of halves and blocks complete with their word and flags; `nbscale`
writes the scale word of the 32 lanes' block to a uniform register, and `nbpack` the image of the block under a scale word to the lowest active lanes'
words, zero in the others; NV is set by each active lane that holds a non-finite value. -/
def Obligations.ConversionsAndNarrowBlocks : Prop :=
  (∀ (i : Instr) (f : Fields) (r : View → Nat → FRes) (s : State), convertRule i = some (f, r) → Sys2Proof.free i f s = true →
    ∃ t, exec i s = .next t
      ∧ computed i f s t (fun l => BitVec.ofNat 32 (r (s.view f) l).x) (fun l => (r (s.view f) l).fl))
  ∧ (∀ (f : Fields) (s : State),
    let v := s.view f
    let elem := fun i => if v.act.getLsbD i then fp32.val (v.a f i).toNat else FVal.fin false 0 0
    let evs := (lanesOf v.act).map fun l => (⟨l, if (elem l).finite then 0 else fNV⟩ : Ev)
    (Sys2Proof.free (.nbscale f) f s = true → ∃ t, exec (.nbscale f) s = .next t ∧ framed s t ∧ steps s t ∧ sameV s t ∧ sameP s t
      ∧ writesU s t f f.d.toNat (BitVec.ofNat 32 (nbScaleWord (mkLanes elem))) ∧ events s t evs)
    ∧ (Sys2Proof.free (.nbpack f) f s = true → ∃ t, exec (.nbpack f) s = .next t ∧ framed s t ∧ steps s t ∧ sameU s t ∧ sameP s t
      ∧ events s t evs
      ∧ writesV s t f.d.toNat v.act (fun l => if l < nbWords f.tyN then
          BitVec.ofNat 32 (nbImage f.tyN (mkLanes fun i => nbCode f.tyN (v.w.ur f.b.toNat).toNat i (elem i)) / 2 ^ (32 * l)) else 0#32)))

/-- R159, R160: `fcmp` writes the relation and sets NV for a signalling NaN, or for any NaN under an ordered relation; `fclass` writes the
bit of the class and sets no flag. -/
def Obligations.FloatComparesAndClasses : Prop :=
  ∀ (f : Fields) (s : State),
    let v := s.view f
    let a := fun l => fpVal f (v.a f l)
    let b := fun l => fpVal f (v.b f l)
    (Sys2Proof.free (.fcmp f) f s = true → ∃ t, exec (.fcmp f) s = .next t ∧ framed s t ∧ steps s t ∧ sameV s t ∧ sameU s t
      ∧ writesP s t f.d.toNat v.act (fun l => if fpRelation f.sub.toNat (a l) (b l) then 1#16 else 0#16)
      ∧ events s t ((lanesOf v.act).map fun l => ⟨l, if (a l).sig || (b l).sig
          || (2 ≤ f.sub.toNat && f.sub.toNat ≤ 5 && ((a l).isNan || (b l).isNan)) then fNV else 0⟩))
    ∧ (Sys2Proof.free (.fclass f) f s = true → ∃ t, exec (.fclass f) s = .next t
      ∧ computed (.fclass f) f s t (fun l => BitVec.twoPow 32 (classRule (fmtOf f.tyN) (fpBits f (v.a f l)))) (fun _ => 0))

/-- R168, R171, R342: `lmv` writes the products of the constant-store matrix with the lane's vector, `rnd` the four words of Philox4x32-10 of the
lane's counter under the context's key, and `pvt` the counts of active lanes at or above the pivot, below the lane and in all, to consecutive
registers of each active lane. -/
def Obligations.RegisterRangesOfLaneComputations : Prop :=
  ∀ (f : Fields) (s : State),
    let v := s.view f
    let writes := fun (t : State) (n : Nat) (x : Nat → Nat → Word) => ∀ r l, l < 32 →
      t.me.vr r l = if f.d.toNat ≤ r ∧ r < f.d.toNat + n ∧ v.act.getLsbD l then x l (r - f.d.toNat) else s.me.vr r l
    (Sys2Proof.free (.lmv f) f s = true → ∃ t, exec (.lmv f) s = .next t
      ∧ framed { s with fresh := s.fresh + 2 ^ 52 } t ∧ steps s t ∧ sameU s t ∧ sameP s t
      ∧ events s t ((lanesOf v.act).map fun l => ⟨l, (lmvLane f (lmvMatrix f s) v l).foldl (fun m r => m ||| r.fl) 0⟩)
      ∧ writes t (lmvN f) (fun l i => BitVec.ofNat 32 (fp32.finish false (fp32.dot f.rm
          (((upto (lmvN f)).map fun j => lmvWeight f s i j).zip
            ((upto (lmvN f)).map fun j => fp32.val (v.g.vr (f.a.toNat + j) l).toNat)))).x))
    ∧ (Sys2Proof.free (.rnd f) f s = true → ∃ t, exec (.rnd f) s = .next t ∧ framed s t ∧ steps s t ∧ sameU s t ∧ sameP s t ∧ sameFlags s t
      ∧ writes t 4 (fun l i =>
          let c := fun n => (v.reg f.ua (f.a.toNat + n) l).toNat
          let key := (s.ctxOf s.me.team).rkey.toNat
          let r := philox 10 (key % 2 ^ 32) (key / 2 ^ 32) (c 0, c 1, c 2, c 3)
          BitVec.ofNat 32 (match i with | 0 => r.1 | 1 => r.2.1 | 2 => r.2.2.1 | _ => r.2.2.2)))
    ∧ (Sys2Proof.free (.pvt f) f s = true → ∃ t, exec (.pvt f) s = .next t ∧ framed s t ∧ steps s t ∧ sameU s t ∧ sameP s t ∧ sameFlags s t
      ∧ writes t 2 (fun l i => BitVec.ofNat 32 ((lanesOf v.act).countP fun k => pvtCounts f v k && (i == 1 || k < l))))

/-! ### Control flow of lanes -/

/-- R145, R146: the branches send each active lane that takes them to its target and every other issuing lane to the successor; `call` writes the
return address first. -/
def Obligations.BranchesSendActiveLanes : Prop :=
  ∀ (f : Fields) (s : State),
    let v := s.view f
    let near := wrap ((s.cur.pc : Int) + f.imm.toInt) 48
    let far := fun l => (v.reg f.ua f.a.toNat l).toNat + (v.reg f.ua (f.a.toNat + 1) l).toNat % 2 ^ 16 * 2 ^ 32
    let ra := seqPc s.cur.pc s.cur.len
    let quiet := fun t => framed s t ∧ sameV s t ∧ sameU s t ∧ sameP s t ∧ sameFlags s t
    (Sys2Proof.free (.br f) f s = true → ∃ t, exec (.br f) s = .next t ∧ quiet t
      ∧ goes s t (fun l => if v.act.getLsbD l then some near else none))
    ∧ (Sys2Proof.free (.brc f) f s = true → ∃ t, exec (.brc f) s = .next t ∧ quiet t
      ∧ goes s t (fun l => if v.act.getLsbD l ∧ (f.sub = 0#4 ↔ v.a f l = 0#32) then some near else none))
    ∧ (Sys2Proof.free (.brx f) f s = true → ∃ t, exec (.brx f) s = .next t ∧ quiet t
      ∧ goes s t (fun l => if v.act.getLsbD l then some (far l) else none))
    ∧ (Sys2Proof.free (.ret f) f s = true → ∃ t, exec (.ret f) s = .next t ∧ quiet t
      ∧ goes s t (fun l => if v.act.getLsbD l then some (far l) else none))
    ∧ (Sys2Proof.free (.call f) f s = true → ∃ t, exec (.call f) s = .next t ∧ framed s t ∧ sameU s t ∧ sameP s t ∧ sameFlags s t
      ∧ goes s t (fun l => if v.act.getLsbD l then some (if f.len = .l64 then far l else near) else none)
      ∧ ∀ n l, l < 32 → t.me.vr n l = if v.act.getLsbD l ∧ n = f.d.toNat + 1 then BitVec.ofNat 32 (ra / 2 ^ 32 % 2 ^ 16)
          else if v.act.getLsbD l ∧ n = f.d.toNat then BitVec.ofNat 32 ra else s.me.vr n l)

/-- R148, R151, R269: `nop` only steps, for lanes and for a sequencer; `yield` gives each active lane a yield mark and leaves the other marks, unless
the group then has eligible lanes and all of them are marked, when all marks clear (R41); `vote` combines bit 0 of the predicate over the active lanes. -/
def Obligations.StepsMarksAndVotes : Prop :=
  ∀ (f : Fields) (s : State),
    let v := s.view f
    let yes := fun l => v.act.getLsbD l && (s.me.pr f.a.toNat l).getLsbD 0
    let first := fun l => yes l && (List.range l).all fun k => !yes k
    let marked := fun l => (s.me.lane l).mark || v.act.getLsbD l
    let allMarked := fun t : State => (∃ l, l < 32 ∧ t.me.eligible (t.me.lane l) = true)
      ∧ ∀ l, l < 32 → t.me.eligible (t.me.lane l) = true → marked l = true
    (Sys2Proof.free (.nop f) f s = true → ∃ t, exec (.nop f) s = .next t ∧ framed s t ∧ steps s t ∧ sameV s t ∧ sameU s t ∧ sameP s t ∧ sameFlags s t)
    ∧ (∀ q, q < s.me.seqs.length → seqRuns (.nop f) f s q true = true → ∃ t, exec (.nop f) s = .next t ∧ onlyGroup s t
      ∧ t.me = { s.me with seqs := t.me.seqs } ∧ (nth {} t.me.seqs q).pc = seqPc s.cur.pc s.cur.len
      ∧ ∀ r, r ≠ q → nth {} t.me.seqs r = nth {} s.me.seqs r)
    ∧ (Sys2Proof.free (.yield f) f s = true → ∃ t, exec (.yield f) s = .next t ∧ framed s t ∧ steps s t ∧ sameV s t ∧ sameU s t ∧ sameP s t
      ∧ sameFlags s t ∧ ∀ l, l < 32 → ((t.me.lane l).mark = true ↔ marked l = true ∧ ¬ allMarked t))
    ∧ (Sys2Proof.free (.vote f) f s = true → ∃ t, exec (.vote f) s = .next t ∧ framed s t ∧ steps s t ∧ sameV s t ∧ sameFlags s t
      ∧ (f.sub = 0#4 → sameU s t ∧ writesP s t f.d.toNat v.act (fun _ => if (List.range 32).any yes then 1#16 else 0#16))
      ∧ (f.sub = 1#4 → sameU s t ∧ writesP s t f.d.toNat v.act (fun _ => if (lanesOf v.act).all yes then 1#16 else 0#16))
      ∧ (f.sub = 2#4 → sameP s t ∧ writesU s t f f.d.toNat (mkMask yes))
      ∧ (f.sub = 3#4 → sameU s t ∧ writesP s t f.d.toNat v.act (fun l => if first l then 1#16 else 0#16)))

/-- R49, R149, R150: an active lane that exits has the exited `lpc`, one that rejoins waits with its mask, and every other issuing lane steps; no
register and no memory changes. A waiting set that is complete is released past its `rejoin`. -/
def Obligations.ExitAndRejoin : Prop :=
  (∀ (f : Fields) (s : State), Sys2Proof.free (.exit f) f s = true →
    ((s.view f).act = 0#32 ∨ s.cur.hdr.tf = false ∨ s.before.csr.fstat = 0#32) →
    ∃ t, exec (.exit f) s = .next t ∧ sameMem s t ∧ sameV s t ∧ sameU s t ∧ sameP s t ∧ sameFlags s t
      ∧ ∀ l, l < 32 → (t.me.lane l).pc = if (s.view f).act.getLsbD l then BitVec.allOnes 64
          else if s.cur.lanes.getLsbD l then lpcOf (seqPc s.cur.pc s.cur.len) else (s.me.lane l).pc)
  ∧ (∀ (f : Fields) (s : State), Sys2Proof.free (.rejoin f) f s = true →
    ((s.view f).act = 0#32 ∨ s.me.rejoinPcs.contains s.cur.pc = true ∨ s.me.rejoinPcs.length < s.me.rejd) →
    ∃ t, exec (.rejoin f) s = .next t ∧ sameMem s t ∧ sameV s t ∧ sameU s t ∧ sameP s t ∧ sameFlags s t
      ∧ (∀ l, (s.view f).act.getLsbD l = true → (t.me.lane l).pc = (s.me.lane l).pc ∧ (t.me.lane l).wait = .rejoin s.cur.len
          ∧ (t.me.lane l).mask = if f.len = .l64 then (s.view f).a f l else f.imm)
      ∧ ∀ l, l < 32 → (s.view f).act.getLsbD l = false → (t.me.lane l).pc
          = if s.cur.lanes.getLsbD l then lpcOf (seqPc s.cur.pc s.cur.len) else (s.me.lane l).pc)
  ∧ (∀ (gid pc : Nat) (s : State), (s.grp gid).bound = true → (s.grp gid).trap.frozen = none → s.stopping gid = false →
    (s.grp gid).rejoinMet pc = true →
    ∃ t, exec (.rejoinRelease gid pc) s = .next t ∧ t = { s with groups := t.groups } ∧ (∀ g, g ≠ gid → t.grp g = s.grp g)
      ∧ (t.grp gid).rest = (s.grp gid).rest ∧ (t.grp gid).v = (s.grp gid).v ∧ (t.grp gid).s = (s.grp gid).s ∧ (t.grp gid).p = (s.grp gid).p
      ∧ ∀ l, l < 32 → (∀ len, ((s.grp gid).lane l).wait = .rejoin len → ((s.grp gid).lane l).pc = lpcOf pc →
          ((t.grp gid).lane l).pc = lpcOf (seqPc (pc % 2 ^ 48) len) ∧ ((t.grp gid).lane l).wait = .run)
        ∧ ((((s.grp gid).lane l).wait.atRejoin = false ∨ ((s.grp gid).lane l).pc ≠ lpcOf pc) → (t.grp gid).lane l = (s.grp gid).lane l))

/-! ### Waiting, faults of the word, special registers -/

/-- R42, R346, R350, R227, R230, R231, R348, R351, R352: an instruction of the lanes that is not ready changes nothing, whichever instruction it is.
So does one whose tests pass and that then waits for room: a `spawn`, a `fork`, a `cp` and a `job` (R267, R272, R281, R284). Once they are ready,
`nop`, `pf`, `fence.xp`, `fwait`, `twait.any` and `twait.all` only step, `yield` steps with no change but of marks, and `tffr` writes the number of
the lowest ready tag of its mask, or 64. That a turn whose instruction is not ready leaves the state as it is, is the model's choice (assumption 2). -/
def Obligations.WaitingAndWaitsThatAreMet : Prop :=
  (∀ (i : Instr) (f : Fields) (s : State), fieldsOf i = some f → ofLanes s = true → s.me.bound = true → staticFault s s.cur i = none →
    waits i (s.view f) s = true → exec i s = .next s)
  ∧ (∀ (i : Instr) (f : Fields) (s : State), fieldsOf i = some f → ofLanes s = true → s.me.bound = true → staticFault s s.cur i = none →
    waits i (s.view f) s = false → debugFault s s.cur = none →
    firstCheck (laneTest s i (s.view f) (lateTests i s (s.view f))) (lanesOf (s.view f).act) = .ok → waitsLate i (s.view f) s = true →
    exec i s = .next s)
  ∧ ((∀ (i : Instr) (f : Fields) (s : State), i = .nop f ∨ i = .yield f ∨ i = .pf f ∨ i = .fenceXp f ∨ i = .fwait f ∨ i = .twaitAny f
      ∨ i = .twaitAll f →
    Sys2Proof.free i f s = true → ∃ t, exec i s = .next t ∧ framed s t ∧ steps s t ∧ sameV s t ∧ sameU s t ∧ sameP s t ∧ sameFlags s t)
  ∧ ∀ (f : Fields) (s : State), Sys2Proof.free (.tffr f) f s = true →
    let ready := fun k => (Tab.get 0 s.tagsBefore k == 0) && (tagMask (s.view f) f).testBit k
    ∃ t k, exec (.tffr f) s = .next t ∧ framed s t ∧ steps s t ∧ sameV s t ∧ sameP s t ∧ sameFlags s t
      ∧ writesU s t f f.d.toNat (BitVec.ofNat 32 k) ∧ k ≤ 64 ∧ (k < 64 → ready k = true) ∧ ∀ j, j < k → ready j = false)

/-- R74, R75, R121, R370 step 1, R382: every instruction of the lanes takes the fault that its clause or its registers show, with the lowest cause,
the register or the privilege, and every instruction that is ready takes the debug trap of a PC comparator that it matches: the group freezes with the
record's words, and no lane moves and no register or byte of memory changes. A turn of a scheduler whose group stands with one path at a word that the
decoder refuses freezes it with the illegal-instruction trap and the cause that the decoder names, or for a `sign` the lower one that the word after it
gives (R181). The order of the tests and the cause 7 of a
crossing word are the model's reading (assumptions 8 and 9). -/
def Obligations.WordFaultsFreezeTheGroup : Prop :=
  (∀ (i : Instr) (f : Fields) (s : State), fieldsOf i = some f → ofLanes s = true → s.me.bound = true → s.me.trap.frozen = none →
    let faulted := fun (t : State) (r : TrapInfo) => t.me.trap.frozen = some r ∧ r.pc = s.cur.pc ∧ r.planes = s.cur.lanes
      ∧ (∀ l, l < 32 → (t.me.lane l).pc = (s.me.lane l).pc) ∧ sameV s t ∧ sameU s t ∧ sameP s t ∧ sameFlags s t ∧ sameMem s t
    (issueCause i s.cur ≠ 0 → ∃ t r, exec i s = .next t ∧ faulted t r ∧ r.code = 0x01 ∧ r.ill = issueCause i s.cur)
    ∧ (∀ k n, issueCause i s.cur = 0 → boundBreak s (s.boundGroup s.cur) (issueRegs i s.cur) = some (k, n) →
        ∃ t r, exec i s = .next t ∧ faulted t r ∧ r.code = 0x03 ∧ r.rcl = k ∧ r.reg = n)
    ∧ (issueCause i s.cur = 0 → boundBreak s (s.boundGroup s.cur) (issueRegs i s.cur) = none → privileged i = true →
        (s.ctxOf (s.boundGroup s.cur).team).key ≠ 0 →
        ∃ t r, exec i s = .next t ∧ faulted t r ∧ r.code = 0x02)
    ∧ (∀ n, staticFault s s.cur i = none → waits i (s.view f) s = false → pcMatch s s.cur = some n →
        ∃ t r, exec i s = .next t ∧ faulted t r ∧ r.code = 0x27 ∧ r.info = n))
  ∧ ∀ (tn : Turn) (ts : List Turn) (core sched gid p k : Nat) (rest : List Nat) (bs : List Byte) (s : State),
    let u := ({ s with agenda := ts }.pass tn).takeTurn core sched
    let v := u.clearMarks gid
    let path := v.pathAt gid p
    let clause := (v.pathLane gid path).clause
    let own := if clause = none ∧ 8 < k then 8 else k
    let refused := fun (ill : Nat) => ∃ t r, step s = .next t ∧ (t.grp gid).trap.frozen = some r ∧ r.code = 0x01 ∧ r.ill = ill ∧ r.pc = p
      ∧ r.planes = path.lanes ∧ t.mem = v.mem ∧ (t.grp gid).v = (v.grp gid).v ∧ ∀ l, l < 32 → ((t.grp gid).lane l).pc = ((v.grp gid).lane l).pc
    s.agenda = tn :: ts → tn.act = .issue core sched → ({ s with agenda := ts }.pass tn).hadTurn core sched = false →
    u.askOrder core sched = gid :: rest → (u.grp gid).awake = true → v.voteOrder gid = [p] → v.fenceLanes gid path = 0#32 →
    (v.pathLane gid path).waitHdr = false →
    p % 4 = 0 → p % 32 ≠ 28 → v.icBlock (gid / 16) (v.team (v.grp gid).team).ctx (p / 32) = some bs →
    decodeBytes (p % 32) (bs.drop (p % 32)) = .bad k → (v.grp gid).csr.tpend = false → (v.grp gid).trap.stall = false →
    (signMajor (bs.drop (p % 32)) = false ∨ own ≤ 3 → refused own)
    ∧ ∀ cs, signMajor (bs.drop (p % 32)) = true → 3 < own → v.icBlock (gid / 16) (v.team (v.grp gid).team).ctx (seqPc p 8 / 32) = some cs →
      let follows := signCause (signIssue p clause (cs.drop (seqPc p 8 % 32)))
      refused (if follows = 0 ∨ own ≤ follows then own else follows)

/-- R375, R126, R345, R92, R93, R47, R366, R369: `csr.r` writes the CSR as it stood before the cycle to one uniform register or to a pair, on the
secondary port as it was when the cycle's two issues were chosen (R39); unassigned unprivileged numbers read as zero. A `csr.w` acts once for its active lanes: a counter of the group takes the value; the bits of FSTAT written 1
clear, and FFIRST with the last of them; CVDEF takes its 48 bits; a 1 in V of MERRLOG0 clears both words. Nothing else of the group, no register and
no memory changes. The order of a write with the events of its cycle, the counters' cycles, TTBASE and the zero of unassigned numbers are the model's
reading (assumptions 12, 17, 55 and 77). -/
def Obligations.SpecialRegistersReadAndWrite : Prop :=
  (∀ (f : Fields) (s : State),
    let v := s.view f
    let x := s.csrBefore v f.csr
    (Sys2Proof.free (.csrR f) f s = true → ∃ t, exec (.csrR f) s = .next t ∧ framed s t ∧ steps s t ∧ sameV s t ∧ sameP s t ∧ sameFlags s t
      ∧ ∀ n, t.me.ur n = if v.act ≠ 0#32 ∧ csrWide f.csr = true ∧ n = f.d.toNat + 1 ∧ taken s n = false then BitVec.ofNat 32 (x / 2 ^ 32)
          else if v.act ≠ 0#32 ∧ n = f.d.toNat ∧ taken s n = false then BitVec.ofNat 32 x else s.me.ur n)
    ∧ s.csrValue v 0x002 = s.cur.gid ∧ s.csrValue v 0x010 = s.before.csr.fstat.toNat ∧ s.csrValue v 0x011 = s.before.csr.ffirst.toNat
    ∧ s.csrValue v 0x020 = (s.core (s.cur.gid / 16)).cycle ∧ s.csrValue v 0x022 = s.pkg.wtime
    ∧ (∀ n, 0x063 ≤ n → n < 0x400 → s.csrValue v n = 0)
    ∧ (s.cur.port2 = false → x = s.csrValue v f.csr)
    ∧ ∀ (i : Instr) (y : Issue), (s.secondFor i s.cur (.csrR f) y).csr = { s with cur := y, second := none }.csrValue (s.viewOf y f) f.csr)
  ∧ (∀ (f : Fields) (s : State),
    let v := s.view f
    let lo := (v.w.ur f.a.toNat).toNat
    let wide := lo + (v.w.ur (f.a.toNat + 1)).toNat * 2 ^ 32
    let quiet := fun (t : State) => steps s t ∧ sameV s t ∧ sameU s t ∧ sameP s t ∧ sameMem s t
    v.act ≠ 0#32 → taken s (4096 + f.csr) = false →
    (Sys2Proof.free (.csrW f) f s = true → f.csr = 0x050 ∨ f.csr = 0x051 ∨ f.csr = 0x052 ∨ f.csr = 0x053 ∨ f.csr = 0x062 ∨ f.csr = 0x058 →
      ∃ t, exec (.csrW f) s = .next t ∧ quiet t ∧ onlyGroup s t
        ∧ t.me.csr = s.me.csr.set f.csr (if f.csr = 0x058 then wide else lo))
    ∧ (Sys2Proof.free (.csrW f) f s = true → f.csr = 0x402 →
      ∃ t, exec (.csrW f) s = .next t ∧ quiet t ∧ t.me.csr = s.me.csr
        ∧ (t.ctx (s.team s.me.team).ctx).tvec = BitVec.ofNat 64 (bits wide 47 16 * 2 ^ 16 + wide % 2)
        ∧ ∀ c, c ≠ (s.team s.me.team).ctx → t.ctx c = s.ctx c)
    ∧ (Sys2Proof.free (.fstatWrite f) f s = true → f.csr = 0x010 → s.me.evs = 0 →
      ∃ t, exec (.fstatWrite f) s = .next t ∧ quiet t ∧ onlyGroup s t
        ∧ t.me.csr = { s.me.csr with
            fstat := s.me.csr.fstat &&& ~~~(BitVec.ofNat 32 lo)
            ffirst := if s.me.csr.fstat &&& ~~~(BitVec.ofNat 32 lo) = 0#32 then 0#64 else s.me.csr.ffirst })
    ∧ (Sys2Proof.free (.cvdefWrite f) f s = true → 0x040 ≤ f.csr → f.csr ≤ 0x047 → f.csr - 0x040 < (s.team s.me.team).cvs.length →
      (nth {} (s.teamBefore s.me.team).cvs (f.csr - 0x040)).signs = [] →
      ∃ t, exec (.cvdefWrite f) s = .next t ∧ quiet t ∧ t.me.csr = s.me.csr
        ∧ (nth {} (t.team s.me.team).cvs (f.csr - 0x040)).cvdef = BitVec.ofNat 64 (wide % 2 ^ 48)
        ∧ ∀ c, c ≠ f.csr - 0x040 → nth {} (t.team s.me.team).cvs c = nth {} (s.team s.me.team).cvs c)
    ∧ (Sys2Proof.free (.merrlog0Write f) f s = true → f.csr = 0x060 → s.me.mev = none →
      ∃ t, exec (.merrlog0Write f) s = .next t ∧ quiet t ∧ onlyGroup s t
        ∧ t.me.csr = if wide.testBit 63 then { s.me.csr with merrlog0 := 0#64, merrlog1 := 0#64 } else s.me.csr))

/-! ### Traps -/

/-- R376, R378, R380: with an active lane, `trap` and `brk` freeze the group with code 0x1C or 0x26 and B in INFO, with every issuing lane at the
successor; `halt` halts every group of the team while a debugger is attached to its context, and else ends the context; `tfence` only steps while FSTAT is zero, and else raises the arithmetic trap at its own PC. What a
trap-fence that is due becomes over a handler is the model's choice (assumption 46). -/
def Obligations.SoftwareTrapsAndTrapFence : Prop :=
  ∀ (f : Fields) (s : State),
    let v := s.view f
    let quiet := fun (t : State) => sameV s t ∧ sameU s t ∧ sameP s t ∧ sameFlags s t ∧ sameMem s t
    v.act ≠ 0#32 → s.me.trap.frozen = none →
    (Sys2Proof.free (.trap f) f s = true → ∃ t r, exec (.trap f) s = .next t ∧ quiet t ∧ steps s t ∧ t.me.trap.frozen = some r
      ∧ r.code = 0x1C ∧ r.info = f.b.toNat ∧ r.pc = s.cur.pc ∧ r.planes = s.cur.lanes ∧ r.lane = lowLane v.act)
    ∧ (Sys2Proof.free (.brk f) f s = true → ∃ t r, exec (.brk f) s = .next t ∧ quiet t ∧ steps s t ∧ t.me.trap.frozen = some r
      ∧ r.code = 0x26 ∧ r.info = f.b.toNat ∧ r.pc = s.cur.pc ∧ r.planes = s.cur.lanes ∧ r.lane = lowLane v.act)
    ∧ (Sys2Proof.free (.halt f) f s = true → (s.ctxOf s.me.team).attached = true → ∃ t, exec (.halt f) s = .next t ∧ quiet t ∧ steps s t
      ∧ ∀ e ∈ t.groups, e.2.bound = true → e.2.team = s.me.team → e.2.halted = true)
    ∧ (Sys2Proof.free (.halt f) f s = true → (s.ctxOf s.me.team).attached = false → ∃ t, exec (.halt f) s = .next t ∧ t.mem = s.mem
      ∧ (∀ e ∈ t.teams, e.2.ctx ≠ (s.team s.me.team).ctx) ∧ ∀ e ∈ (t.ctx (s.team s.me.team).ctx).queues, e.2.cmd = 0 ∨ e.2.done = true)
    ∧ (Sys2Proof.free (.tfence f) f s = true → s.before.csr.fstat = 0#32 →
      ∃ t, exec (.tfence f) s = .next t ∧ framed s t ∧ quiet t ∧ steps s t)
    ∧ (Sys2Proof.free (.tfence f) f s = true → s.before.csr.fstat ≠ 0#32 →
      ∃ t r, exec (.tfence f) s = .next t ∧ quiet t ∧ t.me.trap.frozen = some r ∧ r.code = 0x1A ∧ r.pc = s.cur.pc
        ∧ ∀ l, l < 32 → (t.me.lane l).pc = (s.me.lane l).pc)

/-- R369 to R371, R373: a handler trap whose group has drained is delivered, by TRAP_DELIVERY, or by FORWARD for a fault that firmware holds, but for a
tier-miss and a page fault in a mapped range, which FORWARD leaves (R204): the 512 bytes of the record lie at RECVA, or are held with the stores of a
block that waits for the ticket, every live lane stands at BASE without a wait and without a yield mark, `s0` and `s1` hold RECVA, INH is set, and the
group is no longer frozen. That the record is in memory, or held, with the step of the delivery is the model's reading (assumption 44). -/
def Obligations.TrapDeliveryEntersTheHandler : Prop :=
  ∀ (gid : Nat) (r : TrapInfo) (w0 : DWord) (s : State) (pa : Nat),
    let g := s.grp gid
    let c := s.ctxOf g.team
    let base := bits c.tvec.toNat 47 16 * 2 ^ 16
    let ra := (base + 0x10000 + 512 * gid) % 2 ^ 48
    let entered := fun (u t : State) =>
      (s.opens g.team = true → (∀ k, k < 512 → readCell t.mem (pa + k) = nth 0#8 (recordBytes u gid r) k)
        ∧ ∀ a, a / 64 < pa / 64 ∨ (pa + 511) / 64 < a / 64 → readCell t.mem a = readCell s.mem a)
      ∧ (s.opens g.team = false → t.mem = s.mem ∧ (t.team g.team).held = (s.team g.team).held ++ recordStores u gid pa r)
      ∧ (∀ l, l < 32 → (t.grp gid).lane l = if (g.lane l).live then ({ pc := lpcOf base } : Lane) else g.lane l)
      ∧ (t.grp gid).ur 0 = BitVec.ofNat 32 ra ∧ (t.grp gid).ur 1 = BitVec.ofNat 32 (ra / 2 ^ 32)
      ∧ (t.grp gid).trap.inh = true ∧ (t.grp gid).trap.recva = ra ∧ (t.grp gid).trap.frozen = none
      ∧ (t.grp gid).v = g.v ∧ (t.grp gid).p = g.p ∧ (t.grp gid).csr.fstat = g.csr.fstat
    g.bound = true → g.trap.frozen = some r → g.trap.inh = false → c.tvec.getLsbD 0 = true → 2 ≤ g.sregs → g.lanes.length = 32 →
    Memory.wf s.mem = true →
    let found := fun u : State => u.xlateNow (gid / 16) (s.team g.team).ctx ra .write = .hit pa
    (found s → r.code < 0x20 → g.trap.toFw = false → s.drained gid = true → s.recordWalks gid = false →
      ∃ t, exec (.trapDelivery gid) s = .next t ∧ entered s t)
    ∧ (found (s.walkAgain gid r) → r.code ≠ 0x22 → s.mappedFault gid r = false → g.trap.toFw = true → s.pkg.prcmd.toNat % 2 ^ 15 = gid →
      ∃ t, exec (.forward w0) s = .next t ∧ entered (s.walkAgain gid r) t)
    ∧ (g.trap.toFw = true → r.code = 0x22 ∨ s.mappedFault gid r = true → s.pkg.prcmd.toNat % 2 ^ 15 = gid →
      ∃ t, exec (.forward w0) s = .next t ∧ t.groups = s.groups ∧ t.mem = s.mem)
    ∧ (found s → r.code = 0x26 → g.trap.toFw = false → s.drained gid = true → c.attached = false →
      ∃ t, exec (.firmwareFaultDelivery gid) s = .next t ∧ entered s t)

/-- R363, R373, R209: a firmware fault that is no register-data or table fault is reported with the record's words and held; RESUMEG lets the group go on
with its lanes as captured, and after a tier-miss brings its page in before: the frame holds the page's bytes under the context's key with their
records closed, the leaf names it outside the tier with the permissions as they were, and no TLB holds the old translation; and a timer fires once GTIME has reached a GTCMP that is not 0, which becomes 0, or the value
that a `csr.w` of the cycle wrote. RESUMEG waits while `resumeWaits` holds: before the CXL minimum of R27 has passed since a tier-miss (R209), or while a
mapped page has no translation (R204). When the model ends a context for a firmware fault is its reading (assumption 49), and so are the one step of a page-in and its frame (assumption 88). -/
def Obligations.FirmwareFaultsAndTimers : Prop :=
  (∀ (gid : Nat) (r : TrapInfo) (s : State), (s.grp gid).bound = true → (s.grp gid).trap.frozen = some r → 0x20 ≤ r.code → r.code ≠ 0x24 →
    r.code ≠ 0x23 → (r.code = 0x26 → (s.ctxOf (s.grp gid).team).attached = true) → (s.grp gid).trap.toFw = false → s.drained gid = true →
    ∃ t, exec (.firmwareFaultDelivery gid) s = .next t ∧ (t.grp gid).trap = { (s.grp gid).trap with toFw := true }
      ∧ (t.grp gid).lanes = (s.grp gid).lanes ∧ t.mem = s.mem
      ∧ t.pkg.log = s.pkg.log ++ [⟨"fault", gid :: recordWords r ((s.grp gid).ur 0) ((s.grp gid).ur 1)⟩])
  ∧ (∀ (w0 : DWord) (frame : Nat) (r : TrapInfo) (s : State), let gid := s.pkg.prcmd.toNat % 2 ^ 15
    let ctx := (s.team (s.grp gid).team).ctx
    let key := (s.ctx ctx).key
    let resumed := fun (t : State) => exec (.resumeg w0 frame) s = .next t ∧ (t.grp gid).trap.frozen = none ∧ (t.grp gid).trap.toFw = false
      ∧ (∀ l, l < 32 → (t.grp gid).lane l = (s.grp gid).lane l) ∧ (t.grp gid).v = (s.grp gid).v ∧ (t.grp gid).s = (s.grp gid).s
    (s.grp gid).bound = true → (s.grp gid).trap.toFw = true → (s.grp gid).trap.frozen = some r →
    (∀ l, l < 32 → ∀ a b c d e k, ((s.grp gid).lane l).wait ≠ .bar a b c d e k) →
    (s.resumeWaits gid r = true → exec (.resumeg w0 frame) s = .next s)
    ∧ (s.resumeWaits gid r = false → r.code ≠ 0x22 → ∃ t, resumed t ∧ t.mem = s.mem)
    ∧ (∀ x, s.resumeWaits gid r = false → r.code = 0x22 → s.leafOf ctx r.addr = some x →
      (x.word / 2 ^ 5 % 2 = 0 → ∃ t, resumed t ∧ t.mem = s.mem)
      ∧ (x.word / 2 ^ 5 % 2 = 1 → Memory.wf s.mem = true → s.pageBusy ctx x = false → frame % x.size = 0 → frame + x.size ≤ 512 * 10 ^ 9 →
          let entry := (x.table + 8 * x.index) / 64
          (entry < frame / 64 ∨ (frame + x.size) / 64 ≤ entry) →
          ∃ t, resumed t ∧ t.bytesAs key frame x.size = s.bytesAs key x.base x.size
            ∧ pteBase (t.pte x.table x.index) = frame ∧ t.pte x.table x.index % 2 ^ 5 = x.word % 2 ^ 5 ∧ t.pte x.table x.index / 2 ^ 5 % 2 = 0
            ∧ (∀ c e, e ∈ (t.core c).tlb ↔ e ∈ (s.core c).tlb ∧ e.inRange ctx x.va (x.va + x.size) = false)
            ∧ ∀ l, l < x.size / 64 → (t.sideOf (frame / 64 + l)).opn = false)))
  ∧ (∀ (gid : Nat) (s : State), let g := s.grp gid
    let cmp := g.gtOld.getD g.csr.gtcmp
    g.bound = true → cmp ≠ 0 → cmp ≤ g.csr.gtime →
    ∃ t, exec (.timerTrap gid) s = .next t
      ∧ t = s.setGrp gid { g with
          gtOld := some 0, csr := { g.csr with gtcmp := if g.gtOld = none then 0 else g.csr.gtcmp, tpend := true } })

/-- R379: `tret` restores each lane that is live now and was live at the delivery from the record, and `s0` and `s1` from its words, and clears INH;
every other lane stays. It is stated for lanes that the record makes eligible. The 48 bits of a restored PC, HOFF modulo 256 and the code that clauses
are formed from are the model's reading (assumptions 44, 47 and 48). -/
def Obligations.TrapReturnRestoresTheRecord : Prop :=
  ∀ (f : Fields) (s : State) (pa : Nat),
    let g := s.me
    let rcd := s.teamBytes g.team (readerOf s.cur.gid 0) (s.keyOf s.cur.gid) pa 512
    let back := fun l => (g.lane l).live && g.trap.atEntry.getLsbD l
    Sys2Proof.free (.tret f) f s = true → (s.view f).act ≠ 0#32 → g.trap.inh = true → s.recordPending s.cur.gid = false →
    s.xlate s.cur.gid g.trap.recva .read = .hit pa → (∀ l, l < 32 → bits (leVal ((rcd.drop (448 + 2 * l)).take 2)) 10 8 = 0) →
    (∀ l, l < 32 → (g.lane l).wait = .run) →
    ∃ t, exec (.tret f) s = .next t ∧ sameMem s t ∧ sameV s t ∧ sameP s t ∧ sameFlags s t ∧ t.me.trap.inh = false
      ∧ (∀ l, l < 32 → (t.me.lane l).pc = if back l then
            (if leVal ((rcd.drop (64 + 8 * l)).take 8) = 2 ^ 64 - 1 then BitVec.allOnes 64 else lpcOf (leVal ((rcd.drop (64 + 8 * l)).take 8)))
          else (g.lane l).pc)
      ∧ t.me.ur 0 = BitVec.ofNat 32 (leVal ((rcd.drop 32).take 4)) ∧ t.me.ur 1 = BitVec.ofNat 32 (leVal ((rcd.drop 36).take 4))
      ∧ ∀ n, 2 ≤ n → t.me.ur n = g.ur n

/-! ### Loads, stores and atomics -/

/-- R61, R219, R223, R226, R232, R334, R346, R372: a load, an atomic outside deterministic mode, `cst.ld`, `slot.ld` and `fill` whose tests pass
become the group's last pending operation, with the address of every active lane; nothing else changes until they complete, but for the lines of a
`fill` beyond 32, which take their turn in the fast buffer (R122). That a load is one pending
operation of all its lanes is the model's reading (assumptions 22 and 78). -/
def Obligations.LoadsBecomePending : Prop :=
  (∀ (i : Instr) (f : Fields) (a : AccSpec) (s : State),
    let v := s.view f
    (i = .ld f ∧ a = ldSpec f) ∨ (i = .ldProbe f ∧ a = probeSpec f)
      ∨ (i = .atom f ∧ a = atomSpec f s v ∧ (s.det s.me.team = false ∨ v.act = 0#32)) →
    Sys2Proof.free i f s = true →
    (∀ l, v.act.getLsbD l = true → mayAccess f a s l ∨ (i = .ldProbe f ∧ v.gaddr f l % a.k = 0
      ∧ (∃ pa, s.xlate v.gid (v.gaddr f l) .read = .tier pa) ∧ dataMatch s v .read l (v.gaddr f l) a.k = none)) →
    ∃ t, exec i s = .next t ∧ queued i f s t fun p => p.space = spaceOf f a.w s v ∧ p.staged = false
      ∧ ∀ l, v.act.getLsbD l = true → nth 0 p.va l = (if a.w = .global then v.gaddr f l else (v.laddr f l).toNat)
        ∧ (a.w = .global → nth 0 p.pa l = (s.xlate v.gid (v.gaddr f l) a.kind).pa)
        ∧ (i = .atom f → nth 0#32 p.val l = v.c f l ∧ (f.sub.toNat % 8 = 7 → nth 0#32 p.val2 l = v.reg f.uc (f.c.toNat + 1) l))
        ∧ (i = .ldProbe f → (p.far.getLsbD l = true ↔ ∃ pa, s.xlate v.gid (v.gaddr f l) .read = .tier pa)))
  ∧ (∀ (f : Fields) (s : State), let a := (s.view f).pairU f.a.toNat
    runs (.cstLd f) f s (cstTests f s) = true → (s.view f).act ≠ 0#32 →
    ∃ t, exec (.cstLd f) s = .next t ∧ queued (.cstLd f) f s t fun p => p.va = [a] ∧ p.pa = pageBases s s.cur.gid a (cstBytes f) .read)
  ∧ (∀ (f : Fields) (s : State),
    runs (.fill f) f s (transferTests f .read s) = true → (s.view f).act ≠ 0#32 → s.me.trap.kLanes &&& s.cur.lanes = 0#32 →
    (∀ j, j < f.b.toNat → ∃ pa, s.xlate s.cur.gid ((rangeAddr f (s.view f) + 128 * j) % 2 ^ 48) .read = .hit pa) →
    ∃ t, exec (.fill f) s = .next t ∧ (f.b.toNat ≤ 32 → t.me.fb = s.me.fb ∧ t.me.csr.fbmiss = s.me.csr.fbmiss)
      ∧ queued (.fill f) f s (t.linesOf s) fun p => p.k = 0 ∧ p.pa.length = f.b.toNat
      ∧ ∀ j, j < f.b.toNat → s.xlate s.cur.gid ((rangeAddr f (s.view f) + 128 * j) % 2 ^ 48) .read = .hit (nth 0 p.pa j))
  ∧ ∀ (f : Fields) (s : State), let v := s.view f
    runs (.slotLd f) f s (slotTests f .read false s) = true →
    ∃ t, exec (.slotLd f) s = .next t ∧ queued (.slotLd f) f s t fun p => p.space = .global
      ∧ ∀ l, v.act.getLsbD l = true → nth 0 p.pa l
          = (s.xlate v.gid (slotVa (v.pairU f.a.toNat) ((v.breg f l).toNat + if f.len = .l64 then 0 else f.imm.toNat)) .read).pa

/-- R216, R217, R203, R208, R215, R224, R249, R423: the lowest lane whose access may not be made raises its fault, for the instructions that access
memory lane by lane: misaligned, not translated, in the far tier, marked, racing, outside a window or off the mesh. No store and no load happens. -/
def Obligations.AccessFaultsAreOfTheLowestLane : Prop :=
  ∀ (i : Instr) (f : Fields) (a : AccSpec) (s : State) (l : Nat),
    let v := s.view f
    let x := v.gaddr f l
    let y := v.laddr f l
    let traps := fun (code addr writer : Nat) => ∃ t r, exec i s = .next t ∧ t.me.trap.frozen = some r ∧ r.code = code ∧ r.lane = l
      ∧ r.addr = addr ∧ r.gid = writer ∧ r.pc = s.cur.pc ∧ quiet s t ∧ t.cores = s.cores ∧ ∀ l, l < 32 → (t.me.lane l).pc = (s.me.lane l).pc
    (i = .ld f ∧ a = ldSpec f) ∨ (i = .st f ∧ a = stSpec f) ∨ (i = .stGDirect f ∧ a = stSpec f)
      ∨ (i = .atom f ∧ a = atomSpec f s v) ∨ (i = .red f ∧ a = redSpec f) →
    Sys2Proof.free i f s = true → s.me.trap.frozen = none → v.act.getLsbD l = true →
    (∀ j, j < l → v.act.getLsbD j = true → mayAccess f a s j) →
    (a.w = .global → x % a.k ≠ 0 → traps 0x0C x 0)
    ∧ (a.w = .global → x % a.k = 0 → ∀ c, s.xlate v.gid x a.kind = .fault c → traps c x 0)
    ∧ (a.w = .global → x % a.k = 0 → ∀ pa, s.xlate v.gid x a.kind = .tier pa → traps 0x22 x 0)
    ∧ (∀ pa, a.w = .global → x % a.k = 0 → s.xlate v.gid x a.kind = .hit pa → dataMatch s v a.kind l x a.k = none →
        (a.poison = true → lineMarked s v.gid l pa = true → traps 0x10 x 0)
        ∧ ((a.poison && lineMarked s v.gid l pa) = false → a.plain = true → ∀ g, raceWith s v l pa = some g → traps 0x14 (x - x % 64) g))
    ∧ (a.w = .own → (y < 0 ∨ (s.window v.g.team : Int) < y + a.k) → traps 0x0D (wrap y 48) 0)
    ∧ (a.w = .const → (y < 0 ∨ 65536 < y + a.k) → traps 0x0E (wrap y 48) 0)
    ∧ (a.w = .cluster → s.placed v.gid f.row.toNat f.col.toNat = none → traps 0x0F 0 0)

/-- R219, R223, R232, R334, R226, R221, R61, R346, R212, R210: a completing load writes the extended bytes of memory, with the lane's own queued
stores over them, in its active lanes; `ld.probe` also the predicate of the far lanes; `fill` each register of its range; `cst.ld` the constant store;
`slot.ld` the entry; and `atom` its old word, with the new word in memory. The operation leaves the group and its flag counts down. Where the lane has
no earlier store in the queue and no store of a block is held, a global load reads memory itself. That every performed store is seen at once, and the
marks of owner, key and generation, are the model's reading (assumptions 21, 22 and 86). -/
def Obligations.LoadsCompleteWithTheirValue : Prop :=
  (∀ (gid k : Nat) (p : Pend) (f : Fields) (s : State), mayComplete s gid k p →
    let g := s.grp gid
    let key := s.keyOf gid
    let done := fun t : State => exec (.longLatencyCompletion (.group gid k)) s = .next t ∧ left s t gid p
    let loaded := fun l => loadWord f.tyN (s.laneBytes gid l p.ord p.space (p.at l) (accSize f.tyN))
    (p.i = .ld f → ∃ t, done t ∧ t.mem = s.mem ∧ (∀ n l, l < 32 → (t.grp gid).pr n l = g.pr n l)
      ∧ ∀ n l, l < 32 → (t.grp gid).vr n l = if n = f.d.toNat ∧ p.act.getLsbD l = true then loaded l else g.vr n l)
    ∧ (p.i = .ldProbe f → ∃ t, done t ∧ t.mem = s.mem
      ∧ (∀ n l, l < 32 → (t.grp gid).vr n l
          = if n = f.d.toNat ∧ p.act.getLsbD l = true ∧ p.far.getLsbD l = false then loaded l else g.vr n l)
      ∧ ∀ n l, l < 32 → (t.grp gid).pr n l = if n ≠ 15 ∧ n = f.c.toNat ∧ p.act.getLsbD l = true then
            (if p.far.getLsbD l then 1#16 else 0#16) else g.pr n l)
    ∧ (p.i = .fill f → p.k = 0 → ∃ t, done t ∧ t.mem = s.mem
      ∧ ∀ n l, l < 32 → (t.grp gid).vr n l
          = if f.d.toNat ≤ n ∧ n < f.d.toNat + p.pa.length ∧ p.act.getLsbD l = true then
              BitVec.ofNat 32 (leVal (s.laneBytes gid l p.ord .global (nth 0 p.pa (n - f.d.toNat) + 4 * l) 4)) else g.vr n l)
    ∧ (p.i = .slotLd f → ∃ t, done t ∧ t.mem = s.mem
      ∧ ∀ n l, l < 32 → (t.grp gid).vr n l
          = if p.act.getLsbD l = true ∧ n = f.d.toNat + 1 then BitVec.ofNat 32 (leVal (s.bytesAs key (nth 0 p.pa l) 8) / 2 ^ 32)
            else if p.act.getLsbD l = true ∧ n = f.d.toNat then BitVec.ofNat 32 (leVal (s.bytesAs key (nth 0 p.pa l) 8)) else g.vr n l)
    ∧ (p.i = .cstLd f → Memory.wf (s.core (gid / 16)).kst = true → ∃ t, done t ∧ t.mem = s.mem ∧ (t.grp gid).v = g.v
      ∧ ∀ x, readCell (t.core (gid / 16)).kst x = if f.imm.toNat % 65536 ≤ x ∧ x < f.imm.toNat % 65536 + cstBytes f then
            s.byteAs key (pagePa (nth 0 p.va 0) p.pa (x - f.imm.toNat % 65536)) else readCell (s.core (gid / 16)).kst x)
    ∧ ∀ l, p.i = .atom f → p.space = .global → p.act = BitVec.twoPow 32 l → l < 32 → p.at l % 4 = 0 → ownLine s key (p.at l) →
      Memory.wf s.mem = true →
      let w := BitVec.ofNat 32 (leVal (readCells s.mem (p.at l) 4))
      ∃ t, done t ∧ (∀ n j, j < 32 → (t.grp gid).vr n j = if n = f.d.toNat ∧ j = l then w else g.vr n j)
        ∧ readCells t.mem (p.at l) 4 = leBytes 4 (atomWord (f.sub.toNat % 8) f.tyN w (nth 0#32 p.val l) (nth 0#32 p.val2 l)).toNat
        ∧ ∀ a, a < p.at l ∨ p.at l + 4 ≤ a → readCell t.mem a = readCell s.mem a)
  ∧ (∀ (gid l ord pa n : Nat) (s : State), (∀ e ∈ (s.core (gid / 16)).sq, e.gid = gid → e.lane = l → ord ≤ e.ord) →
    (s.team (s.grp gid).team).held = [] → s.heldBlock (s.grp gid).team = false → (∀ k, k < n → ownLine s (s.keyOf gid) (pa + k)) →
    s.laneBytes gid l ord .global pa n = readCells s.mem pa n)

/-- The queue entries of a store of the present issue (R220, R225): one for each active lane, ascending. -/
def storeRule (f : Fields) (kind : StKind) (w : Where) (k : Kind) (bytes : Nat → List Byte) (s : State) : List SqEntry :=
  let v := s.view f
  (lanesOf v.act).map fun l =>
    { gid := s.cur.gid, lane := l, space := spaceOf f w s v, va := if w = .global then v.gaddr f l else (v.laddr f l).toNat
      pa := if w = .global then (s.xlate s.cur.gid (v.gaddr f l) k).pa else 0, bytes := bytes l, kind := kind, rel := f.scope, ord := s.seqno }

/-- R220, R225, R226, R227: `st`, `st.g.direct`, a `red` outside deterministic mode and `spill` put the bytes of their active lanes, with their
addresses, into the store queue, and step; memory is still as before. Those that write a whole line together are marked so (R224). The queue of lane entries and its length are the model's choice (assumptions 22
and 23). -/
def Obligations.StoresEnterTheQueue : Prop :=
  ∀ (f : Fields) (s : State),
    let v := s.view f
    let addr := rangeAddr f v
    (Sys2Proof.free (.st f) f s = true → (∀ l, v.act.getLsbD l = true → mayAccess f (stSpec f) s l) →
      ∃ t, exec (.st f) s = .next t
        ∧ enqueued s t (storeRule f .plain (whereLd f) .write (fun l => leBytes (accSize f.tyN) (v.c f l).toNat) s))
    ∧ (Sys2Proof.free (.stGDirect f) f s = true → (∀ l, v.act.getLsbD l = true → mayAccess f (stSpec f) s l) →
      ∃ t, exec (.stGDirect f) s = .next t
        ∧ enqueued s t (storeRule f .direct (whereLd f) .write (fun l => leBytes (accSize f.tyN) (v.c f l).toNat) s))
    ∧ (Sys2Proof.free (.red f) f s = true → s.det s.me.team = false → (∀ l, v.act.getLsbD l = true → mayAccess f (redSpec f) s l) →
      ∃ t, exec (.red f) s = .next t
        ∧ enqueued s t (storeRule f (.red (f.sub.toNat % 8) f.tyN) (whereAtom f) .both (fun l => leBytes 4 (v.c f l).toNat) s))
    ∧ (Sys2Proof.free (.spill f) f s = true → v.act ≠ 0#32 → s.me.trap.kLanes &&& s.cur.lanes = 0#32 → addr % 128 = 0 →
      (∀ j, j < f.b.toNat → ∃ pa, s.xlate s.cur.gid ((addr + 128 * j) % 2 ^ 48) .write = .hit pa
        ∧ ∀ l, v.act.getLsbD l = true → dataMatch s v .write l ((addr + 128 * j + 4 * l) % 2 ^ 48) 4 = none ∧ raceWith s v l (pa + 4 * l) = none) →
      ∃ t, exec (.spill f) s = .next t ∧ (f.b.toNat ≤ 32 → t.me.fb = s.me.fb ∧ t.me.csr.fbmiss = s.me.csr.fbmiss)
        ∧ enqueued s (t.linesOf s) ((rangeFrom 0 f.b.toNat).flatMap fun j => (lanesOf v.act).map fun l =>
        { gid := s.cur.gid, lane := l, space := .global, va := (addr + 128 * j + 4 * l) % 2 ^ 48
          pa := (s.xlate s.cur.gid ((addr + 128 * j) % 2 ^ 48) .write).pa + 4 * l, bytes := leBytes 4 (s.me.vr (f.a.toNat + j) l).toNat
          kind := .spill, ord := s.seqno }))

/-- R220, R221, R226, R212, R254: when a queued entry is performed it leaves the queue and its bytes lie in global memory or in the window that it
names, with every byte outside them as before; a `red` combines them with the word there; and the ticket unit holds the plain global store of a block
that is not the holder. That every performed store is seen at once is the model's reading (assumption 22). -/
def Obligations.StorePerformWritesItsBytes : Prop :=
  ∀ (core k : Nat) (e : SqEntry) (s : State), (s.core core).sq[k]? = some e → storeReady s core k e = true →
    let performed := fun t : State => exec (.storePerform core k) s = .next t ∧ (t.core core).sq = dropNth (s.core core).sq k
    let plain := e.kind = .plain ∨ e.kind = .direct ∨ e.kind = .spill
    (plain → e.space = .global → s.holdsBack e = false → e.bytes ≠ [] → Memory.wf s.mem = true →
      (∀ j, j < e.bytes.length → ownLine s (s.keyOf e.gid) (e.pa + j)) →
      ∃ t, performed t ∧ ∀ a, readCell t.mem a
        = if e.pa ≤ a ∧ a < e.pa + e.bytes.length then nth 0#8 e.bytes (a - e.pa) else readCell s.mem a)
    ∧ (∀ w, plain → e.space = .spad w → Memory.wf (s.team w).spad = true →
      ∃ t, performed t ∧ sameMem s t ∧ ∀ a, readCell (t.team w).spad a
        = if e.va ≤ a ∧ a < e.va + e.bytes.length then nth 0#8 e.bytes (a - e.va) else readCell (s.team w).spad a)
    ∧ (∀ op ty, e.kind = .red op ty → e.space = .global → e.pa % 4 = 0 → ownLine s (s.keyOf e.gid) e.pa → Memory.wf s.mem = true →
      ∃ t, performed t
        ∧ readCells t.mem e.pa 4 = leBytes 4 (atomWord op ty (BitVec.ofNat 32 (leVal (readCells s.mem e.pa 4)))
            (BitVec.ofNat 32 (leVal e.bytes)) 0#32).toNat
        ∧ ∀ a, a < e.pa ∨ e.pa + 4 ≤ a → readCell t.mem a = readCell s.mem a)
    ∧ (s.holdsBack e = true → ∃ t, performed t ∧ sameMem s t
      ∧ (t.team (s.grp e.gid).team).held = (s.team (s.grp e.gid).team).held ++ [e])

/-- R227, R228, R314: in deterministic mode `red` and `atom` put one entry for each active lane into the team's staging buffer, and `aflush` hands the
entries over as one flush; the entries that the teams of a cluster have handed over and that may be applied now, none of them behind one whose lane
has an earlier access to wait for (R222), are applied in ascending order of block, flush, role, lane and issue, each to the word that the ones before it have left, and the others stay handed over. The application is stated for entries of `red`. The place
of applications between the tickets of blocks is the model's reading (assumption 43). -/
def Obligations.DeterministicAtomicsAreStagedAndApplied : Prop :=
  (∀ (f : Fields) (s : State),
    let v := s.view f
    let x := s.team s.me.team
    let entries := fun (atom : Option (Nat × Nat)) (es : List Staged) => es.map (·.lane) = lanesOf v.act
      ∧ ∀ e ∈ es, e.role = s.me.role ∧ e.ord = s.seqno ∧ e.block = x.block ∧ e.ctx = x.ctx ∧ e.op = f.sub.toNat % 8 ∧ e.ty = f.tyN
        ∧ e.space = spaceOf f (whereAtom f) s v ∧ e.opnd = v.c f e.lane ∧ e.atom = atom
        ∧ e.va = (if whereAtom f = .global then v.gaddr f e.lane else (v.laddr f e.lane).toNat)
        ∧ (whereAtom f = .global → e.pa = (s.xlate s.cur.gid (v.gaddr f e.lane) .both).pa)
    (Sys2Proof.free (.atom f) f s = true → s.det s.me.team = true → v.act ≠ 0#32 →
      (∀ l, v.act.getLsbD l = true → mayAccess f (atomSpec f s v) s l) →
      ∃ t es p, exec (.atom f) s = .next t ∧ steps s t ∧ quiet s t ∧ (t.team s.me.team).staged = x.staged ++ es
        ∧ entries (some (s.cur.gid, s.seqno)) es ∧ t.me.ops = s.me.ops ++ [p] ∧ p.i = .atom f ∧ p.staged = true ∧ p.act = v.act ∧ p.ord = s.seqno
        ∧ p.flag = s.flagHere f ∧ t.me.flags = countUp (s.flagHere f) s.me.flags)
    ∧ (Sys2Proof.free (.red f) f s = true → s.det s.me.team = true → v.act ≠ 0#32 →
      (∀ l, v.act.getLsbD l = true → mayAccess f (redSpec f) s l) →
      ∃ t es, exec (.red f) s = .next t ∧ steps s t ∧ quiet s t ∧ (t.team s.me.team).staged = x.staged ++ es ∧ entries none es
        ∧ t.me.ops = s.me.ops ∧ t.me.flags = s.me.flags)
    ∧ (Sys2Proof.free (.aflush f) f s = true → ∃ t, exec (.aflush f) s = .next t ∧ steps s t ∧ quiet s t
      ∧ (t.team s.me.team).handed = (if s.det s.me.team = true ∧ v.act ≠ 0#32 then x.handed ++ x.staged.map fun e => { e with flush := s.seqno }
          else x.handed)
      ∧ (t.team s.me.team).staged = (if s.det s.me.team = true ∧ v.act ≠ 0#32 then [] else x.staged)))
  ∧ (∀ (team : Nat) (s : State), (s.team team).bound = true →
    (∀ u ∈ s.clusterOf team, ∀ e ∈ (s.team u).handed, e.atom = none ∧ e.space = .global) →
    ∃ (t : State) (es rest : List Staged), exec (.stagedEntryApply team) s = .next t
      ∧ (es ++ rest).Perm ((s.clusterOf team).flatMap fun u => (s.team u).handed.filter fun e => s.canApply e u)
      ∧ (es ++ rest).Pairwise (fun a b => [a.block, a.flush, a.role, a.lane, a.ord] ≤ [b.block, b.flush, b.role, b.lane, b.ord])
      ∧ (∀ e ∈ es, s.stagedReady e = true) ∧ (∀ e ∈ rest.head?, s.stagedReady e = false)
      ∧ (∀ u ∈ s.clusterOf team, (t.team u).handed = (s.team u).handed.filter fun e => !es.contains e)
      ∧ t.mem = (es.foldl (fun u e => u.writeAs (s.ctx e.ctx).key e.pa
          (leBytes 4 (atomWord e.op e.ty (BitVec.ofNat 32 (leVal (u.bytesAs (s.ctx e.ctx).key e.pa 4))) e.opnd e.opnd2).toNat)) s).mem)

/-- R229, R250, R339: a `fence` with an active lane closes every line of the group's write filter whose record still names the group, and empties the
filter; `commit` steps, and its active lanes stop where pre-emption of a speculative context is requested. -/
def Obligations.FencesCloseTheWriteFilter : Prop :=
  (∀ (f : Fields) (s : State), Sys2Proof.free (.fence f) f s = true →
    ∃ t, exec (.fence f) s = .next t ∧ steps s t ∧ quiet s t
      ∧ t.me.filter = (if (s.view f).act = 0#32 then s.me.filter else [])
      ∧ ∀ n, t.sideOf n = if (s.view f).act ≠ 0#32 ∧ n ∈ s.me.filter ∧ (s.sideOf n).gid = s.cur.gid then { s.sideOf n with opn := false }
          else s.sideOf n)
  ∧ ∀ (f : Fields) (s : State), Sys2Proof.free (.commit f) f s = true →
    ∃ t, exec (.commit f) s = .next t ∧ framed s t ∧ steps s t ∧ quiet s t
      ∧ ∀ l, (s.view f).act.getLsbD l = true → (t.me.lane l).wait
          = if (s.ctxOf s.me.team).committing = true then .commit else (s.me.lane l).wait

/-! ### The line store and the register pool -/

/-- R121 to R123, R128: `rgn` asks for the lines of its set that are neither buffered nor on their way; a line that a stalled
instruction waits for, and of the prefetched ones the first, arrives and is buffered, and is counted where an instruction waits for it; `rdidx` reads and `wridx` writes the register that each active lane's index names. `give` moves its granules of
eight registers from the end of the group's allocation to the team's pool; `claim` is noted for its team, and at the end of the cycle the claims take
them in ascending ROLE, each where the pool has them and its group stays within 256 registers; it writes 1 or 0 to its predicate in every issuing lane. The registers that stay keep their values. What the fast buffer holds and
waits for, and which registers `give` takes, are the model's reading (assumptions 18 and 79). -/
def Obligations.LineStoreAndRegisterPool : Prop :=
  ((∀ (f : Fields) (s : State), Sys2Proof.free (.rgn f) f s = true →
    ∃ t, exec (.rgn f) s = .next t ∧ onlyGroup s t ∧ steps s t ∧ quiet s t
      ∧ (∀ r, r ∈ t.me.fb ↔ r ∈ s.me.fb)
      ∧ ∀ r, (∃ d, (r, d) ∈ t.me.fetch) ↔ (∃ d, (r, d) ∈ s.me.fetch) ∨ (r ∈ rgnSet f ∧ r ∉ s.me.fb))
  ∧ (∀ (gid r due : Nat) (s : State), (s.grp gid).fetch.find? (·.1 == r) = some (r, due) → due ≤ (s.core (gid / 16)).cycle →
    (r ∈ (s.grp gid).missed ∨ ∃ d, (s.grp gid).fetch.find? (fun e => !(s.grp gid).missed.contains e.1) = some (r, d)) →
    ∃ t, exec (.fastBufferFill gid r) s = .next t ∧ r ∈ (t.grp gid).fb ∧ ((s.grp gid).fb.length ≤ 32 → (t.grp gid).fb.length ≤ 32)
      ∧ (t.grp gid).v = (s.grp gid).v ∧ t.mem = s.mem
      ∧ (t.grp gid).csr = { (s.grp gid).csr with fbmiss :=
          if 0x050 ∈ (s.grp gid).csrw then (s.grp gid).csr.fbmiss
          else ((s.grp gid).csr.fbmiss + if r ∈ (s.grp gid).missed then 1 else 0) % 2 ^ 32 })
  ∧ (∀ (f : Fields) (s : State), let v := s.view f
    Sys2Proof.free (.rdidx f) f s = true → (∀ l, v.act.getLsbD l = true → (v.a f l).toNat < s.me.vcnt ∧ ((v.a f l).toNat, l) ∉ s.me.bad) →
    ∃ t, exec (.rdidx f) s = .next t ∧ onlyGroup s t ∧ steps s t ∧ sameU s t ∧ sameP s t ∧ sameFlags s t ∧ sameMem s t
      ∧ writesV s t f.d.toNat v.act fun l => s.me.vr (v.a f l).toNat l)
  ∧ ∀ (f : Fields) (s : State), let v := s.view f
    Sys2Proof.free (.wridx f) f s = true → (∀ l, v.act.getLsbD l = true → (v.a f l).toNat < s.me.vcnt) →
    ∃ t, exec (.wridx f) s = .next t ∧ onlyGroup s t ∧ steps s t ∧ sameU s t ∧ sameP s t ∧ sameFlags s t ∧ sameMem s t
      ∧ ∀ n l, l < 32 → t.me.vr n l = if v.act.getLsbD l = true ∧ n = (v.a f l).toNat then v.breg f l else s.me.vr n l)
  ∧ ((∀ (f : Fields) (s : State), Sys2Proof.free (.give f) f s = true → (s.view f).act ≠ 0#32 → 8 * f.b.toNat + 8 ≤ s.me.valloc →
    let k := s.me.valloc - 8 * f.b.toNat
    ∃ t, exec (.give f) s = .next t ∧ steps s t ∧ sameU s t ∧ sameP s t ∧ sameFlags s t ∧ sameMem s t
      ∧ t.me.valloc = k ∧ t.me.vcnt = min s.me.vcnt k ∧ (t.team s.me.team).pool = (s.team s.me.team).pool + f.b.toNat
      ∧ ∀ n l, n < t.me.vcnt → l < 32 → t.me.vr n l = s.me.vr n l)
  ∧ (∀ (f : Fields) (s : State), Sys2Proof.free (.claim f) f s = true → (s.view f).act ≠ 0#32 →
    let x := s.team s.me.team
    ∃ t, exec (.claim f) s = .next t ∧ steps s t ∧ quiet s t ∧ t.me.rest = s.me.rest
      ∧ t.team s.me.team = { x with claims := x.claims ++
          [{ gid := s.cur.gid, role := s.me.role, n := f.b.toNat, d := f.d.toNat, lanes := s.cur.lanes }] })
  ∧ (∀ (team : Nat) (c : Claim) (s : State), (s.team team).claims = [c] →
    let g := s.grp c.gid
    let ok := c.n ≤ (s.team team).pool ∧ g.valloc + 8 * c.n ≤ 256
    let t := s.settleClaims team
    let h := t.grp c.gid
    (t.team team).claims = [] ∧ t.mem = s.mem ∧ h.v = g.v ∧ h.s = g.s ∧ h.lanes = g.lanes
      ∧ (ok → h.valloc = g.valloc + 8 * c.n ∧ h.vcnt = h.valloc ∧ (t.team team).pool = (s.team team).pool - c.n)
      ∧ (¬ok → h.valloc = g.valloc ∧ h.vcnt = g.vcnt ∧ (t.team team).pool = (s.team team).pool)
      ∧ ∀ n l, l < 32 → h.pr n l = if n ≠ 15 ∧ n = c.d ∧ c.lanes.getLsbD l = true then (if ok then 1#16 else 0#16) else g.pr n l)
  ∧ ∀ (team : Nat) (a b : Claim) (s : State), (s.team team).claims = [a, b] → b.role < a.role → a.gid ≠ b.gid →
    b.n ≤ (s.team team).pool → (s.team team).pool < a.n + b.n → (s.grp b.gid).valloc + 8 * b.n ≤ 256 →
    let t := s.settleClaims team
    (t.grp b.gid).valloc = (s.grp b.gid).valloc + 8 * b.n ∧ (t.grp a.gid).valloc = (s.grp a.gid).valloc
      ∧ (t.team team).pool = (s.team team).pool - b.n)

/-! ### Team operations -/

/-- One operation more in a team's order, at its place among those of its cycle (R178), and the flag that it set counts up; the lanes step, and registers, memory and tiles are as
before. -/
def joined (s t : State) (i : Instr) (f : Fields) (o : TeamOp) : Prop :=
  let x := s.team s.me.team
  steps s t ∧ quiet s t ∧ t.team s.me.team = { x with order := insertOp { o with id := s.seqno } x.order }
    ∧ (∀ u, u ≠ s.me.team → t.team u = s.team u) ∧ t.me.flags = (if isLong i then countUp (s.flagHere f) s.me.flags else s.me.flags)
    ∧ o.i = i ∧ o.gid = s.cur.gid ∧ o.src = .lanes (s.view f).act ∧ o.pc = s.cur.pc ∧ o.started = false

/-- R177 to R179, R184 to R195: a team operation with an active lane joins the order of its team once, with its operand values and the translations
that its tests found; `acc.rd` and `mmask` join it too. With no active lane a short one only steps. What an operation reads at issue is the model's
reading (assumption 24). -/
def Obligations.TeamOperationsJoinTheOrder : Prop :=
  (∀ (i : Instr) (f : Fields) (s : State), let o := opHere s i f (.lanes (s.view f).act)
    (i = .mma f ∧ f.sub ≠ 1#4) ∨ i = .tzero f ∨ i = .accZero f ∨ i = .rowMax f ∨ i = .rowSum f ∨ i = .rowExp f ∨ i = .rowScale f
      ∨ i = .rowAdd f ∨ i = .rowCvt f ∨ i = .accRd f →
    Sys2Proof.free i f s = true → (s.view f).act ≠ 0#32 → ∃ t, exec i s = .next t ∧ joined s t i f o ∧ t.ctxs = s.ctxs)
  ∧ (∀ (f : Fields) (s : State), let v := s.view f
    Sys2Proof.free (.tpois f) f s = true → v.act ≠ 0#32 → ∃ t o, exec (.tpois f) s = .next t ∧ joined s t (.tpois f) f o
      ∧ o.args = [(v.w.ur f.a.toNat).toNat + 2 ^ 32 * (v.w.ur f.b.toNat).toNat])
  ∧ (∀ (f : Fields) (s : State), let v := s.view f
    Sys2Proof.free (.mmask f) f s = true → v.act ≠ 0#32 → ∃ t o, exec (.mmask f) s = .next t ∧ joined s t (.mmask f) f o
      ∧ ∀ l, l < 32 → nth 0 o.args l = (if f.imm.getLsbD 3 then ~~~(s.me.pr f.a.toNat l) else s.me.pr f.a.toNat l).toNat)
  ∧ (∀ (i : Instr) (f : Fields) (o : TeamOp) (s : State), i = .mma f ∨ i = .tld f ∨ i = .tsv f ∨ i = .accLd f ∨ i = .accSt f →
    Sys2Proof.free i f s = true → (s.view f).act ≠ 0#32 →
    prepare s (laneIssuer s (s.view f)) i (opHere s i f (.lanes (s.view f).act)) = .ok o → ∃ t, exec i s = .next t ∧ joined s t i f o)
  ∧ ∀ (i : Instr) (f : Fields) (s : State), isTeamOp i = true ∨ i = .mmask f → isLong i = false → fieldsOf i = some f →
    Sys2Proof.free i f s = true → (s.view f).act = 0#32 → ∃ t, exec i s = .next t ∧ framed s t ∧ steps s t ∧ quiet s t

/-- R270, R269, R274, R179, R183, R185, R189, R298, R215: a sequencer whose matrix engine cannot accept an `mma` yet waits; one that accepts a
team operation puts it into the order and steps; one that meets a
value fault stops with its cause and puts nothing there. In lanes the value faults at issue freeze the group, and the operation does not join the
order: the tensor fault of an entry that is not valid, the format fault of one of another format, the alignment fault of `acc.ld` and `acc.st`, and
for `mma` with B in a scratchpad the placement and the range fault. The order of a sequencer's causes is the model's reading (assumption 30). -/
def Obligations.SequencersAndFaultsOfTeamOperations : Prop :=
  (∀ (i : Instr) (f : Fields) (q : Nat) (s : State), isTeamOp i = true → fieldsOf i = some f → seqRuns i f s q (opSeq i == q) = true →
    s.me.bound = true →
    let x := s.team s.me.team
    let found := prepare s (seqIssuer s s.cur.gid) i (opHere s i f (.seq q))
    (engineBusy s (s.cur.gid / 16) i = true → exec i s = .next s)
    ∧ (∀ o, engineBusy s (s.cur.gid / 16) i = false → found = .ok o → ∃ t, exec i s = .next t ∧ (t.team s.me.team).order = insertOp { o with id := s.seqno } x.order
      ∧ o.src = .seq q ∧ o.i = i ∧ t.me.lanes = s.me.lanes ∧ quiet s t
      ∧ (nth {} t.me.seqs q).pc = seqPc s.cur.pc s.cur.len ∧ (nth {} t.me.seqs q).stopping = false)
    ∧ ∀ c a w, engineBusy s (s.cur.gid / 16) i = false → found = .bad c a w → ∃ t, exec i s = .next t ∧ t.teams = s.teams ∧ t.me.lanes = s.me.lanes ∧ quiet s t
      ∧ (nth {} t.me.seqs q).stopping = true ∧ (nth {} t.me.seqs q).pc = (nth {} s.me.seqs q).pc
      ∧ (nth {} t.me.seqs q).cause = (if c = 0x12 ∨ c = 0x13 then 0x15 else if c = 0x0D ∨ c = 0x0F then 0x16 else if c = 0x0C then 0x17
          else if c = 0x11 then 0x19 else 0x18))
  ∧ (∀ (i : Instr) (f : Fields) (s : State),
    let v := s.view f
    let who := laneIssuer s v
    let traps := fun (code : Nat) => ∃ t r, exec i s = .next t ∧ t.me.trap.frozen = some r ∧ r.code = code ∧ r.lane = lowLane v.act
      ∧ r.pc = s.cur.pc ∧ quiet s t ∧ (t.team s.me.team).order = (s.team s.me.team).order
    let fmt := match i with | .tld f | .tsv f => f.tyN | _ => 7
    Sys2Proof.free i f s = true → s.me.trap.frozen = none → v.act ≠ 0#32 →
    (∀ w, i = .tld f ∨ i = .tsv f ∨ (f.len = .l128 ∧ (i = .accLd f ∨ i = .accSt f)) → tensorWords s who (f.ext.toNat % 4096) = .ok w →
      let e := tensorOf (nth 0#64 w 0).toNat (nth 0#64 w 1).toNat (nth 0#64 w 2).toNat (nth 0#64 w 3).toNat
      (e = none → traps 0x12) ∧ ∀ x, e = some x → x.fmt ≠ fmt → traps 0x13)
    ∧ (f.len ≠ .l128 → i = .accLd f ∨ i = .accSt f → pairVal (v.w.ur f.a.toNat) (v.w.ur (f.a.toNat + 1)) % 4 ≠ 0 → traps 0x0C)
    ∧ (i = .mma f → f.sub = 1#4 → s.placed s.cur.gid f.row.toNat f.col.toNat = none → traps 0x0F)
    ∧ (i = .mma f → f.sub = 1#4 → (s.placed s.cur.gid f.row.toNat f.col.toNat).isSome →
        (v.w.ur f.b.toNat).toNat % 2 ^ 16 % 4 ≠ 0 ∨ (v.w.ur f.b.toNat).toNat % 2 ^ 16 < imageRowBytes f.tyN
          ∨ (v.w.ur f.b.toNat).toNat / 2 ^ 16 % 4 ≠ 0 → traps 0x0D))

/-- Operation `k` of a team's order has started and taken effect: it leaves the order, and its flags count down (R178). -/
def finished (s t : State) (team : Nat) (o : TeamOp) : Prop :=
  (t.team team).order = (s.team team).order.filter (·.id != o.id) ∧ (∀ u, u ≠ team → t.team u = s.team u)
    ∧ (o.flags = [] → ∀ g, (t.grp g).flags = (s.grp g).flags)
    ∧ ∀ g n, o.flags = [(g, n)] → (t.grp g).flags = countDown (some n) (s.grp g).flags

/-- R178, R188, R191, R192, R194, R187, R189: a short operation of the team order that nothing earlier conflicts with takes effect when it starts:
`tzero`, `tpois`, `acc.zero`, `mmask`, the row instructions, and the stores `tsv` and `acc.st` of a row that the ticket unit does not hold. Of what it
only reads, no more than the notes of single-bit errors change, which it corrects (R175). A long one only runs from then on. That
memory is read when the operation takes effect, and that any number of row operations may run, is the model's reading (assumptions 24 and 27). -/
def Obligations.ShortTeamOperationsTakeEffect : Prop :=
  ∀ (team k : Nat) (o : TeamOp) (f : Fields) (s : State), (s.team team).order[k]? = some o → o.started = false →
    canStart s team o ((s.team team).order.take k) = true →
    let x := s.team team
    let starts := fun t : State => exec (.teamOpStart team k) s = .next t ∧ finished s t team o
    let otherRows := fun (t : State) (d n : Nat) =>
      (∀ r, r < d ∨ d + n ≤ r → ((t.team team).row r).plain = (x.row r).plain) ∧ (t.team team).tiles = x.tiles
    let otherTiles := fun (t : State) => t.mem = s.mem ∧ (t.team team).spad = x.spad
      ∧ (∀ r, ((t.team team).row r).plain = (x.row r).plain) ∧ ∀ n, n ≠ f.d.toNat → (t.team team).tile n = x.tile n
    let only := fun (t : State) => otherTiles t ∧ (t.team team).acc = x.acc
    let marks := (x.tile f.d.toNat).pois
    (o.i = .tzero f → ∃ t, starts t ∧ only t ∧ (t.team team).tile f.d.toNat = {})
    ∧ (o.i = .tpois f → ∃ t, starts t ∧ only t ∧
      (t.team team).tile f.d.toNat = { x.tile f.d.toNat with pois := if f.c = 0#8 then marks ||| nth 0 o.args 0 else marks - (marks &&& nth 0 o.args 0) })
    ∧ (o.i = .accZero f → ∃ t, starts t ∧ t.mem = s.mem ∧ (t.team team).tiles = x.tiles
      ∧ (∀ r, r < f.d.toNat ∨ f.d.toNat + f.b.toNat ≤ r → (t.team team).row r = x.row r)
      ∧ ∀ r, f.d.toNat ≤ r → r < f.d.toNat + f.b.toNat → (t.team team).row r = {})
    ∧ (∀ act, o.i = .mmask f → o.src = .lanes act → ∃ t, starts t ∧ t.mem = s.mem ∧ (t.team team).acc = x.acc ∧ (t.team team).tiles = x.tiles
      ∧ ∀ r j, r < 64 → j < 64 → (Tab.get 0#64 (t.team team).mb r).getLsbD j =
          if r / 32 = bits f.imm.toNat 2 2 ∧ act.getLsbD (r % 32) = true ∧ j / 16 = bits f.imm.toNat 1 0 then
            (nth 0 o.args (r % 32)).testBit (j % 16) else (Tab.get 0#64 x.mb r).getLsbD j)
    ∧ (o.i = .rowMax f → ∃ t, starts t ∧ t.mem = s.mem ∧ otherRows t f.d.toNat 1
      ∧ ∀ c, c < 64 → ((t.team team).row f.d.toNat).at c = if c < f.c.toNat then
          BitVec.ofNat 32 (greatest (x.row (f.a.toNat + c)).all).x else (x.row f.d.toNat).at c)
    ∧ (o.i = .rowSum f → ∃ t, starts t ∧ t.mem = s.mem ∧ otherRows t f.d.toNat 1
      ∧ ∀ c, c < 64 → ((t.team team).row f.d.toNat).at c = if c < f.c.toNat then
          BitVec.ofNat 32 (fp32.sumVals 0 false ((x.row (f.a.toNat + c)).all.map fun w => fp32.val w.toNat)).x else (x.row f.d.toNat).at c)
    ∧ (o.i = .rowExp f → ∃ t, starts t ∧ t.mem = s.mem ∧ otherRows t f.d.toNat f.c.toNat
      ∧ ∀ i c, i < f.c.toNat → c < 64 → ((t.team team).row (f.d.toNat + i)).at c =
          BitVec.ofNat 32 (rowExpElem (if f.len = .l64 then 0x3F800000 else f.imm.toNat) ((x.row (f.a.toNat + i)).at c).toNat
            ((x.row f.b.toNat).at i).toNat).x)
    ∧ (o.i = .rowScale f → ∃ t, starts t ∧ t.mem = s.mem ∧ otherRows t f.d.toNat f.c.toNat
      ∧ ∀ i c, i < f.c.toNat → c < 64 → ((t.team team).row (f.d.toNat + i)).at c =
          BitVec.ofNat 32 (fp32.mul 0 (fp32.val ((x.row (f.a.toNat + i)).at c).toNat)
            (fp32.val (if f.len = .l64 then ((x.row f.b.toNat).at i).toNat else f.imm.toNat))).x)
    ∧ (o.i = .rowAdd f → ∃ t, starts t ∧ t.mem = s.mem ∧ otherRows t f.d.toNat f.c.toNat
      ∧ ∀ i c, i < f.c.toNat → c < 64 → ((t.team team).row (f.d.toNat + i)).at c =
          BitVec.ofNat 32 (fp32.add 0 (fp32.val ((x.row (f.a.toNat + i)).at c).toNat)
            (fp32.val ((x.row (f.b.toNat + i)).at c).toNat)).x)
    ∧ (o.i = .rowCvt f → f.tyN = 8 ∨ f.tyN = 9 → ∃ t, starts t ∧ otherTiles t
      ∧ ∀ i c, i < 64 → c < 64 → readCells ((t.team team).tile f.d.toNat).elem (128 * i + 2 * c) 2 =
          leBytes 2 ((fmtOf f.tyN).finish false ((fmtOf f.tyN).put 0 (fp32.val ((x.row (f.a.toNat + i)).at c).toNat))).x)
    ∧ (∀ i r base, o.i = .tsv f ∨ o.i = .accSt f → s.holdsOp team o = false → storeRows x o = [i] → o.runsAt i = [r] → r.scale = none → 0 < r.n →
        r.va / 65536 = (r.va + r.n - 1) / 65536 → r.va + r.n ≤ 2 ^ 48 → Memory.wf s.mem = true →
        o.pages.find? (fun p => p.1 == r.va / 65536) = some (r.va / 65536, base) →
        let pa := base + r.va % 65536
        (∀ j, j < r.n → ownLine s (s.ctxOf team).key (pa + j)) →
        ∃ t, starts t
          ∧ (o.i = .tsv f → f.tyN = 8 ∨ f.tyN = 9 → r.n = 128 → r.elems = 64 → r.off = 0 → (x.tile f.d.toNat).ue = [] →
              ∀ j, j < 128 → readCell t.mem (pa + j) = readCell (x.tile f.d.toNat).elem (128 * i + j))
          ∧ (o.i = .accSt f → r.n = 256 → ∀ c, c < 64 → readCells t.mem (pa + 4 * c) 4 = leBytes 4 ((x.row (f.d.toNat + i)).at c).toNat)
          ∧ ∀ a, a < pa ∨ pa + r.n ≤ a → readCell t.mem a = readCell s.mem a)
    ∧ (isLong o.i = true → ∃ t, exec (.teamOpStart team k) s = .next t ∧ t.mem = s.mem ∧ (t.team team).acc = x.acc
      ∧ (t.team team).tiles = x.tiles ∧ ∃ p, (t.team team).order[k]? = some p ∧ p.i = o.i ∧ p.started = true
      ∧ (s.core (o.gid / 16)).cycle ≤ p.due)

/-- R61, R178, R184, R97, R186, R189, R190: a started long-latency operation takes effect at its completion and leaves the order: `mma` writes its 64
rows, each element the exact products of both k-blocks of every image added in turn; `tld` and `acc.ld` hold the bytes of memory, and `acc.rd` the
row's half in its lanes. That memory is read when the operation takes effect, and the order of the places with an error, are the model's reading
(assumptions 24 and 25). -/
def Obligations.LongTeamOperationsComplete : Prop :=
  ∀ (team k : Nat) (o : TeamOp) (f : Fields) (s : State), (s.team team).order[k]? = some o → o.started = true →
    s.reached o.gid o.due o.dueNs = true →
    let x := s.team team
    let key := (s.ctxOf team).key
    let completes := fun t : State => exec (.longLatencyCompletion (.team team k)) s = .next t ∧ finished s t team o ∧ t.mem = s.mem
    let word := fun va : Nat => BitVec.ofNat 32 (leVal ((rangeFrom va 4).map fun a => s.byteAs key (pageLook o.pages (a % 2 ^ 48))))
    (o.i = .mma f → ∃ t, completes t ∧ (∀ n, ((t.team team).tile n).plain = (x.tile n).plain)
      ∧ (∀ r, r < f.d.toNat ∨ f.d.toNat + 64 ≤ r → (t.team team).row r = x.row r)
      ∧ ∀ i j, i < 64 → j < 64 → ((t.team team).row (f.d.toNat + i)).at j =
          let skip := if f.c.getLsbD 0 then (Tab.get 0#64 x.mb i).toNat else 0
          let images := if f.sub = 1#4 then f.ext.toNat % 8 + 1 else 1
          BitVec.ofNat 32 (mmaElem skip ((x.row (f.d.toNat + i)).at j) ((upto images).map fun n =>
            ((x.tile (f.a.toNat + n)).vals f.tyN i, (mmaB s x o f n j).1.vals f.tyN (mmaB s x o f n j).2))).x)
    ∧ (o.i = .tld f → ∃ t, completes t ∧ (t.team team).acc = x.acc ∧ (∀ n, n ≠ f.d.toNat → (t.team team).tile n = x.tile n)
      ∧ ∀ i r, i < 64 → o.runsAt i = [r] → r.scale = none → f.tyN = 8 ∨ f.tyN = 9 → r.n = 128 →
          ∀ j, j < 128 → readCell ((t.team team).tile f.d.toNat).elem (128 * i + j) = s.byteAs key (pageLook o.pages ((r.va + j) % 2 ^ 48)))
    ∧ (o.i = .accLd f → ∃ t, completes t ∧ (t.team team).tiles = x.tiles
      ∧ (∀ r, r < f.d.toNat ∨ f.d.toNat + f.b.toNat ≤ r → (t.team team).row r = x.row r)
      ∧ ∀ i r c, i < f.b.toNat → o.runsAt i = [r] → c < 64 → 4 * c + 4 ≤ r.n →
          ((t.team team).row (f.d.toNat + i)).at c = word (r.va + 4 * c))
    ∧ ∀ act, o.i = .accRd f → o.src = .lanes act → ∃ t, completes t
      ∧ { t.team team with acc := [] } = { x with order := x.order.filter (·.id != o.id), acc := [] }
      ∧ (∀ r, ((t.team team).row r).plain = (x.row r).plain)
      ∧ (∀ n l, l < 32 → (t.grp o.gid).vr n l = if n = f.d.toNat ∧ act.getLsbD l = true then
          (x.row f.a.toNat).at (32 * (f.b.toNat / 32 % 2) + l) else (s.grp o.gid).vr n l)
      ∧ ∀ n l, l < 32 → (t.grp o.gid).pr n l = if n ≠ 15 ∧ f.b.getLsbD 7 = true ∧ n = f.c.toNat ∧ act.getLsbD l = true then
          (if (x.row f.a.toNat).pois then 1#16 else 0#16) else (s.grp o.gid).pr n l

/-! ### Signed operations and engines -/

/-- Operations that read no operand and set no flag at their issue. -/
def plainOp : Instr → Bool
  | .tzero _ | .accZero _ | .rowMax _ | .rowSum _ | .rowExp _ | .rowScale _ | .rowAdd _ | .rowCvt _ => true
  | _ => false

/-- R47, R48, R181, R177, R178: the active lanes of a `sign` that mismatches nothing sign its convergence register and wait there, and the other
issuing lanes step past the pair. Once every lane of the declared set has signed or exited, be it at this `sign` or at an exit, the recorded operation
joins the team's order once, as signed, in the group of lowest role; the register is clear and every signed lane steps past its pair. CVDEF is tested
as it was before the cycle (R39). What is recorded
with a signature and waited for is the model's reading (assumptions 16, 28 and 29). -/
def Obligations.SignaturesIssueOnceTheSetIsComplete : Prop :=
  (∀ (f : Fields) (j : Instr) (s : State),
    let v := s.view f
    let x := s.team s.me.team
    let c := f.a.toNat
    let cv := x.cv c
    let before := (s.teamBefore s.me.team).cv c
    let made := { cv with cvdef := before.cvdef, word := some (cv.word.getD j), signs := cv.signs ++ newSigns s v j }
    let full := setComplete (s.signLanes v c j) s.me.team made
    signedInstr s.cur = some j → Sys2Proof.free (.sign f) f s = true → v.act ≠ 0#32 → c < x.cvs.length →
    (∀ l, v.act.getLsbD l = true → inSet x before.cvdef s.me.role l = true ∧ ∀ i, before.word = some i → opWord i = opWord j) →
    (full = false → ∃ t, exec (.sign f) s = .next t ∧ quiet s t ∧ (t.team s.me.team).cv c = { made with cvdef := cv.cvdef } ∧ (t.team s.me.team).order = x.order
      ∧ (∀ l, l < 32 → v.act.getLsbD l = true → (t.me.lane l).wait = .sign c ∧ (t.me.lane l).pc = (s.me.lane l).pc)
      ∧ ∀ l, l < 32 → s.cur.lanes.getLsbD l = true → v.act.getLsbD l = false → (t.me.lane l).pc = lpcOf (pairNext s j))
    ∧ ∀ i, full = true → made.word = some i → plainOp i = true → ∃ t o, exec (.sign f) s = .next t ∧ quiet s t
      ∧ (t.team s.me.team).order = insertOp o x.order ∧ o.i = i ∧ o.src = .signed
      ∧ ((∀ n ∈ made.signs, n.lane < 32) → o.gid = lowSigner made)
      ∧ (t.team s.me.team).cv c = { cv with word := none, signs := [] }
      ∧ ∀ l, l < 32 → v.act.getLsbD l = true → (t.me.lane l).wait = .run ∧ (t.me.lane l).pc = lpcOf (pairNext s j))
  ∧ ∀ (team c : Nat) (i : Instr) (s : State),
    let x := s.team team
    let cv := x.cv c
    x.bound = true → c < x.cvs.length → setComplete s team cv = true → cv.word = some i → plainOp i = true →
    ∃ t o, exec (.convergenceIssueOnExit team c) s = .next t ∧ t.mem = s.mem ∧ (t.team team).order = x.order ++ [o] ∧ o.i = i
      ∧ o.src = .signed ∧ ((∀ n ∈ cv.signs, n.lane < 32) → o.gid = lowSigner cv) ∧ (t.team team).cv c = { cv with word := none, signs := [] }
      ∧ ∀ n ∈ cv.signs, (s.grp n.gid).lanes.length = 32 → n.lane < 32 → ∃ m ∈ cv.signs, m.gid = n.gid ∧ m.lane = n.lane
          ∧ ((t.grp n.gid).lane n.lane).wait = .run ∧ ((t.grp n.gid).lane n.lane).pc = lpcOf m.next

/-- R271 to R274, R285, R286: `fork` sets the named sequencers running at their start PCs, clears the event word, and makes a footprint entry that
waits for the earlier ones which it shares a written page with; the programs start once no edge is left, each ends once it has stopped and its
operations are complete, and the entry goes with the last; `rdv` writes the causes of the ended ones and makes them idle. How a sequencer fetches is
the model's reading (assumption 31). -/
def Obligations.ForkAndRendezvous : Prop :=
  (∀ (f : Fields) (s : State), let v := s.view f
    runs (.fork f) f s (forkTests f s) = true → v.act ≠ 0#32 →
    ∃ t k, exec (.fork f) s = .next t ∧ steps s t ∧ quiet s t ∧ t.me.ev = 0 ∧ t.feet = s.feet ++ [k] ∧ k.id = s.seqno ∧ k.gid = s.cur.gid
      ∧ k.job = none ∧ k.started = false ∧ (f.imm.getLsbD 31 = true → k.reads = [] ∧ k.writes = [])
      ∧ (∀ n, n ∈ k.edges ↔ ∃ e ∈ s.feet, e.id = n ∧ e.ctx = k.ctx
          ∧ (regionsMeet k.writes e.reads = true ∨ regionsMeet k.writes e.writes = true ∨ regionsMeet k.reads e.writes = true))
      ∧ ∀ q, q < 3 → nth {} t.me.seqs q = if f.sub.getLsbD q then
          { st := 1, pc := wrap ((s.cur.pc : Int) + sext (v.w.ur (nth 0#8 [f.a, f.b, f.c] q).toNat).toNat 32) 48, foot := s.seqno }
        else nth {} s.me.seqs q)
  ∧ (∀ (f : Fields) (s : State), let v := s.view f
    let cause := fun q => if f.sub.getLsbD q = true ∧ (nth {} v.w.seqs q).st = 2 then (nth {} v.w.seqs q).cause else 0
    let st := cause 0 + 256 * cause 1 + 65536 * cause 2
    Sys2Proof.free (.rdv f) f s = true → v.act ≠ 0#32 →
    ∃ t, exec (.rdv f) s = .next t ∧ steps s t ∧ sameV s t ∧ sameFlags s t ∧ sameMem s t ∧ writesU s t f f.a.toNat (BitVec.ofNat 32 st)
      ∧ writesP s t f.d.toNat v.act (fun _ => if st = 0 then 1#16 else 0#16)
      ∧ ∀ q, q < 3 → nth {} t.me.seqs q = if f.sub.getLsbD q = true ∧ (nth {} s.me.seqs q).st = 2 then { nth {} s.me.seqs q with st := 0 }
        else nth {} s.me.seqs q)
  ∧ (∀ (gid : Nat) (s : State), let may := fun x : Seq => x.st = 1 ∧ x.started = false
      ∧ ∃ k ∈ s.feet, k.id = x.foot ∧ ∀ n ∈ k.edges, ∀ e ∈ s.feet, e.id ≠ n
    ∃ t, exec (.sequencerStart gid) s = .next t ∧ t.mem = s.mem ∧ (t.grp gid).lanes = (s.grp gid).lanes
      ∧ ∀ q, q < 3 → (may (s.seqOf gid q) → t.seqOf gid q = { s.seqOf gid q with started := true })
        ∧ (¬may (s.seqOf gid q) → t.seqOf gid q = s.seqOf gid q))
  ∧ ∀ (core q gid : Nat) (s : State), let x := s.seqOf gid q
    s.seqGroup core q = some gid → x.stopping = true → s.seqOps gid q = [] → x.eflags = [] →
    ∃ t, exec (.sequencerEnd core q) s = .next t ∧ t.mem = s.mem ∧ t.seqOf gid q = { x with st := 2 }
      ∧ (∀ p, p ≠ q → t.seqOf gid p = s.seqOf gid p)
      ∧ ((∀ p, p ≠ q → (s.seqOf gid p).st = 1 → (s.seqOf gid p).foot ≠ x.foot) → ∀ k, k ∈ t.feet ↔ k ∈ s.feet ∧ k.id ≠ x.foot)

/-- R270, R274 to R277: a sequencer's own instructions: `eflag` records the event with the operations that stand before it, and EVENT_SET sets the
event once they are complete; `ewait` sets what the sequencer waits for, and a count of cycles runs out; `eloop` counts its loop and jumps back, falls
through, or stops with cause 0x12 where four loops are nested; `eend` stops fetch. Nothing else of the group changes. How a sequencer fetches and the
order of its causes are the model's reading (assumptions 30 and 31). -/
def Obligations.SequencerInstructionsActOnTheirSequencer : Prop :=
  (∀ (f : Fields) (q : Nat) (s : State),
    let x := s.seqOf s.cur.gid q
    let next := seqPc s.cur.pc s.cur.len
    let acts := fun (t : State) => t.me.lanes = s.me.lanes ∧ quiet s t ∧ t.teams = s.teams ∧ ∀ p, p ≠ q → t.seqOf s.cur.gid p = s.seqOf s.cur.gid p
    (seqRuns (.eflag f) f s q true = true → ∃ t, exec (.eflag f) s = .next t ∧ acts t ∧ (t.seqOf s.cur.gid q).pc = next
      ∧ (t.seqOf s.cur.gid q).eflags = x.eflags ++ [(f.b.toNat, s.seqOps s.cur.gid q)])
    ∧ (seqRuns (.ewait f) f s q true = true → ∃ t, exec (.ewait f) s = .next t ∧ acts t ∧ (t.seqOf s.cur.gid q).pc = next
      ∧ (t.seqOf s.cur.gid q).wait = if f.len = .l64 then .events f.b.toNat else .cycles ((s.core (s.cur.gid / 16)).cycle + f.imm.toNat))
    ∧ (seqRuns (.eend f) f s q true = true → ∃ t, exec (.eend f) s = .next t ∧ acts t
      ∧ t.seqOf s.cur.gid q = { x with stopping := true, cause := 0 })
    ∧ (seqRuns (.eloop f) f s q true = true →
      let back := wrap ((s.cur.pc : Int) + sext f.imm.toNat 16) 48
      let n := f.imm.toNat / 65536 - 1
      ∃ t, exec (.eloop f) s = .next t ∧ acts t
        ∧ (∀ m rest, x.loops = (s.cur.pc, m) :: rest → 0 < m → (t.seqOf s.cur.gid q).pc = back
            ∧ (t.seqOf s.cur.gid q).loops = (s.cur.pc, m - 1) :: rest)
        ∧ (∀ rest, x.loops = (s.cur.pc, 0) :: rest → (t.seqOf s.cur.gid q).pc = next ∧ (t.seqOf s.cur.gid q).loops = rest)
        ∧ ((∀ m rest, x.loops ≠ (s.cur.pc, m) :: rest) →
            (4 ≤ x.loops.length → (t.seqOf s.cur.gid q).stopping = true ∧ (t.seqOf s.cur.gid q).cause = 0x12)
            ∧ (x.loops.length < 4 → 0 < n → (t.seqOf s.cur.gid q).pc = back ∧ (t.seqOf s.cur.gid q).loops = (s.cur.pc, n - 1) :: x.loops)
            ∧ (x.loops.length < 4 → n = 0 → (t.seqOf s.cur.gid q).pc = next ∧ (t.seqOf s.cur.gid q).loops = x.loops))))
  ∧ (∀ (core q gid e : Nat) (ops : List Nat) (rest : List (Nat × List Nat)) (s : State), s.seqGroup core q = some gid →
    (s.seqOf gid q).eflags = (e, ops) :: rest → (∀ o ∈ ops, o ∉ s.seqOps gid q) →
    ∃ t, exec (.eventSet core q) s = .next t ∧ t.mem = s.mem ∧ (t.grp gid).ev = (s.grp gid).ev ||| 2 ^ e
      ∧ t.seqOf gid q = { s.seqOf gid q with eflags := rest })
  ∧ ∀ (core q gid due : Nat) (s : State), s.seqGroup core q = some gid → (s.seqOf gid q).wait = .cycles due → (s.seqOf gid q).halted = false →
    due ≤ (s.core core).cycle → ∃ t, exec (.ewaitCyclesExpiry core q) s = .next t ∧ t.mem = s.mem ∧ t.seqOf gid q = { s.seqOf gid q with wait := .none }

/-- The count of a tag of a core goes down by one, where the launch that it belongs to still holds the core's counts (R349, R350). -/
def countsDown (s t : State) (core tag launch : Nat) : Prop :=
  ((s.core core).owner = none ∨ (s.core core).owner = some launch → (t.core core).tagCount tag = (s.core core).tagCount tag - 1)
    ∧ ∀ o, (s.core core).owner = some o → o ≠ launch → (t.core core).tagCount tag = (s.core core).tagCount tag

/-- R284, R349, R350, R354, R270: `cp` submits a local copy and raises its tag's pending count, for the lanes once or for sequencer 2; a copy of no
bytes submits nothing. What is left of a copy lands at its completion: in the window as the context sees memory, or in memory as the window holds it,
and nowhere else but in the barrier word of a copy that has one; the copy is gone and the count is one less, unless a later launch has the core's
counts. Bytes that land in a window count the barrier word of their copy down, one for each byte; this is stated for bytes that do not cover the word
itself. The order of its tests and the moving in
units of 16 bytes are the model's reading (assumptions 32 and 33). -/
def Obligations.LocalCopiesMoveTheirBytes : Prop :=
  (∀ (f : Fields) (s : State) (pages : List Nat),
    let submits := fun (g : Group) (src : Src) (t : State) =>
      (cpLen g f = 0 → t.cores = s.cores) ∧ (cpLen g f ≠ 0 →
        (t.core (s.cur.gid / 16)).tagCount f.d.toNat = (s.core (s.cur.gid / 16)).tagCount f.d.toNat + 1
        ∧ ∃ c, (t.core (s.cur.gid / 16)).copies = (s.core (s.cur.gid / 16)).copies ++ [c] ∧ c.gid = s.cur.gid ∧ c.src = src
          ∧ c.inn = (f.sub == 0#4) ∧ c.tag = f.d.toNat ∧ c.va = pairVal (g.ur f.a.toNat) (g.ur (f.a.toNat + 1))
          ∧ c.off = (g.ur f.b.toNat).toNat ∧ c.n = (g.ur f.c.toNat).toNat ∧ c.bar = (if f.len = .l96 then some (bits f.imm.toNat 17 0) else none)
          ∧ c.moved = 0 ∧ c.team = g.team ∧ c.pages = pages)
    (runs (.cp f) f s (cpLaneTests f s) = true → (s.view f).act ≠ 0#32 → cpTests s (s.view f).w f (s.xlate s.cur.gid) = .ok pages →
      ∃ t, exec (.cp f) s = .next t ∧ steps s t ∧ quiet s t ∧ submits (s.view f).w (.lanes (s.view f).act) t)
    ∧ (∀ q, seqRuns (.cp f) f s q (q == 2) = true → (s.core (s.cur.gid / 16)).tagCount f.d.toNat < 15 →
      cpTests s s.me f (s.xlateWait (s.cur.gid / 16) (s.team s.me.team).ctx) = .ok pages →
      ∃ t, exec (.cp f) s = .next t ∧ quiet s t ∧ submits s.me (.seq q) t ∧ (t.seqOf s.cur.gid q).pc = seqPc s.cur.pc s.cur.len))
  ∧ ∀ (core k : Nat) (c : Copy) (s : State), (s.core core).copies[k]? = some c → c.n % 16 = 0 → c.moved % 16 = 0 → c.moved ≤ c.n →
    let key := (s.ctxOf c.team).key
    let place := fun j => pagePa c.va c.pages (j - j % 16) + j % 16
    let done := fun t : State => exec (.localCopyCompletion core k) s = .next t ∧ (t.core core).copies = dropNth (s.core core).copies k
      ∧ countsDown s t core c.tag (s.team c.team).launch
    let landed := fun (t : State) (n : Nat) => t.mem = s.mem ∧ ∀ a, (∀ off, c.bar = some off → a < off ∨ off + 8 ≤ a) →
      readCell (t.team c.team).spad a = if c.off + c.moved ≤ a ∧ a < c.off + c.moved + n then s.byteAs key (place (a - c.off))
        else readCell (s.team c.team).spad a
    (∃ t, done t)
    ∧ (c.inn = true → Memory.wf (s.team c.team).spad = true → ∃ t, done t ∧ landed t (c.n - c.moved))
    ∧ (c.bar = none → c.inn = false → Memory.wf s.mem = true → c.va / 65536 = (c.va + c.n - 1) / 65536 →
      (∀ j, j < c.n → ownLine s key (pagePa c.va c.pages 0 + j)) → ∃ t, done t ∧ (t.team c.team).spad = (s.team c.team).spad
      ∧ ∀ a, readCell t.mem a = if pagePa c.va c.pages 0 + c.moved ≤ a ∧ a < pagePa c.va c.pages 0 + c.n then
            readCell (s.team c.team).spad (c.off + (a - pagePa c.va c.pages 0)) else readCell s.mem a)
    ∧ ∀ n off, c.bar = some off → c.inn = true → n % 16 = 0 → n ≤ c.n - c.moved → off + 8 ≤ c.off + c.moved ∨ c.off + c.moved + n ≤ off →
      Memory.wf (s.team c.team).spad = true →
      ∃ t, exec (.copyBytesLand (.local core k) n) s = .next t ∧ (t.core core).copies[k]? = some { c with moved := c.moved + n } ∧ landed t n
        ∧ (t.barAt c.team off).pend = wrap (((s.barAt c.team off).pend : Int) - (n : Int)) 24

/-- R279 to R283, R285, R286, R349: `job` submits the card in the window: the job with its words, one more on its tag, and a footprint entry with its
edges; it starts once no edge is left and one of the 24 copy engines is free. Sixteen bytes of it move from the source to the destination of their
row and, where the card has a barrier word, count it down by 16 (R354); at its completion it writes its record over the card's first word, counts its
tag down, and leaves the footprint unit; where its link was lost its context ends (R25). The units of 16 bytes and the poison policy of a job are the
model's reading (assumptions 33 and 35). -/
def Obligations.CopyJobsMoveAndRecord : Prop :=
  (∀ (f : Fields) (s : State) (k : Card) (tag : Nat), let v := s.view f
    runs (.job f) f s (jobTests f s) = true → v.act ≠ 0#32 → jobCard f s v = (k, some tag) → (s.core (tag / 16)).tagCount k.tag < 15 →
    ∃ t x p, exec (.job f) s = .next t ∧ steps s t ∧ quiet s t ∧ Tab.find t.jobs s.seqno = some x ∧ x.gid = s.cur.gid ∧ x.team = s.me.team
      ∧ x.words = s.cardWords s.me.team (v.w.ur f.a.toNat).toNat ∧ x.card = (v.w.ur f.a.toNat).toNat ∧ x.tagTeam = tag ∧ x.started = false
      ∧ x.moved = 0 ∧ (t.core (tag / 16)).tagCount k.tag = (s.core (tag / 16)).tagCount k.tag + 1 ∧ t.feet = s.feet ++ [p] ∧ p.job = some s.seqno
      ∧ p.reads = regionsOf k.src (k.regions.take 4) ∧ p.writes = regionsOf k.dst (k.regions.drop 4))
  ∧ (∀ (job : Nat) (x : Job) (p : Foot) (s : State), Tab.find s.jobs job = some x → s.feet.find? (·.job == some job) = some p →
    x.started = false → (s.enginesFree = false → exec (.copyJobStart job) s = .next s) ∧
    ((∀ n ∈ p.edges, ∀ e ∈ s.feet, e.id ≠ n) → s.enginesFree = true →
    ∃ t y, exec (.copyJobStart job) s = .next t ∧ t.mem = s.mem ∧ t.teams = s.teams ∧ Tab.find t.jobs job = some y ∧ y.started = true
      ∧ y.words = x.words ∧ y.moved = x.moved ∧ y.ended = x.ended))
  ∧ (∀ (job a b : Nat) (x : Job) (s : State), let k := cardOf x.words
    let o := 16 * (x.moved % (k.len / 16))
    let src := fun pa => if k.sspc then s.spadRead x.team ((a + o) % 2 ^ 48) 16 else s.bytesAs x.key pa 16
    Tab.find s.jobs job = some x → x.started = true → x.ended = false → x.tensor = none → k.opc < 3 → 16 ≤ k.len →
    x.moved < k.rows * (k.len / 16) → unitWaits s x k x.moved = false → jobRow s x k (x.moved / (k.len / 16)) = (some a, some b) →
    ∀ spa, (k.sspc = false → engXlate s x ((a + o) % 2 ^ 48) .read = .ok spa ∧ s.windowOf spa = none) →
    (k.dspc = true → (s.team x.tagTeam).bound = true → Memory.wf (s.team x.tagTeam).spad = true →
      (k.be = true → k.boff + 8 ≤ (b + o) % 2 ^ 48 ∨ (b + o) % 2 ^ 48 + 16 ≤ k.boff) →
      ∃ t y, exec (.copyBytesLand (.job job) 16) s = .next t ∧ Tab.find t.jobs job = some y ∧ y.moved = x.moved + 1 ∧ t.mem = s.mem
        ∧ t.spadRead x.tagTeam ((b + o) % 2 ^ 48) 16 = src spa
        ∧ (k.be = true → (t.barAt x.tagTeam k.boff).pend = wrap (((s.barAt x.tagTeam k.boff).pend : Int) - 16) 24)
        ∧ ∀ c, c < (b + o) % 2 ^ 48 ∨ (b + o) % 2 ^ 48 + 16 ≤ c → (k.be = true → c < k.boff ∨ k.boff + 8 ≤ c) →
            readCell (t.team x.tagTeam).spad c = readCell (s.team x.tagTeam).spad c)
    ∧ (∀ dpa, k.dspc = false → k.be = false → engXlate s x ((b + o) % 2 ^ 48) .write = .ok dpa → s.windowOf dpa = none → dpa % 16 = 0 → ownLine s x.key dpa →
      Memory.wf s.mem = true →
      ∃ t y, exec (.copyBytesLand (.job job) 16) s = .next t ∧ Tab.find t.jobs job = some y ∧ y.moved = x.moved + 1 ∧ (∀ w, (t.team w).spad = (s.team w).spad)
        ∧ readCells t.mem dpa 16 = src spa ∧ ∀ c, c < dpa ∨ dpa + 16 ≤ c → readCell t.mem c = readCell s.mem c))
  ∧ ∀ (job : Nat) (x : Job) (s : State), let k := cardOf x.words
    Tab.find s.jobs job = some x → x.started = true → s.reached x.gid x.due x.dueNs = true → x.moved = k.rows * (k.len / 16) ∨ x.ended = true →
    (k.dspc = true → (s.team x.tagTeam).bound = true) → Memory.wf (s.team x.team).spad = true →
    (x.status = 5 → ∃ t, exec (.copyJobCompletion job) s = .next t ∧ t.mem = s.mem ∧ ∀ e ∈ t.teams, e.2.ctx ≠ x.ctx)
    ∧ (x.status ≠ 5 → ∃ t, exec (.copyJobCompletion job) s = .next t ∧ t.mem = s.mem ∧ Tab.find t.jobs job = none
      ∧ countsDown s t x.tagCore k.tag x.launch
      ∧ (∀ p ∈ s.feet, p.job ≠ some job → (∀ q ∈ s.feet, q.job = some job → q.id ≠ p.id) → p ∈ t.feet)
      ∧ t.spadDword x.team x.card
          = (2 ^ 63 + x.status * 2 ^ 60 + if x.status = 0 then 0 else x.row * 2 ^ 32 + x.vpage % 2 ^ 32) % 2 ^ 64)

/-! ### Tasks, blocks and tickets -/

/-- Groups of roles 0 to TEAM stand bound at an entry PC (R34, R44, R120): every lane there, arguments in the first uniform registers, and all other
registers, flags and CSRs zero. -/
def freshTeam (t : State) (gid0 : Nat) (d : EntryDesc) (pc depth : Nat) (sched : Nat → Nat) (args : List Word) : Prop :=
  ∀ r, r ≤ d.team → let g := t.grp (gid0 + r)
    g.bound = true ∧ g.team = gid0 ∧ g.role = r ∧ g.sched = sched r ∧ g.valloc = roundUp d.vregs 8 ∧ g.vcnt = d.vregs ∧ g.sregs = d.sregs
      ∧ g.rejd = d.rejd ∧ g.depth = depth ∧ (∀ l, l < 32 → g.lane l = { pc := lpcOf pc }) ∧ (∀ n, g.ur n = nth 0#32 args n)
      ∧ (∀ n l, g.vr n l = 0#32) ∧ (∀ n l, n ≠ 15 → g.pr n l = 0#16) ∧ (∀ k, g.flagSet k = false) ∧ g.csr = {} ∧ g.trap = {} ∧ g.ops = []

/-- R46, R267, R266, R262, R45, R34, R268: `spawn` appends a task with its eight arguments to the queue of its die; `post` combines its value into the
result word of its node; and a queued task that a pool can hold leaves the queue and is bound there. Which pool and which place a task gets is the
model's choice (assumptions 41 and 87). -/
def Obligations.TasksAreSpawnedPostedAndDispatched : Prop :=
  (∀ (f : Fields) (s : State), let v := s.view f
    let x := s.team s.me.team
    let d := dieOf (s.cur.gid / 16)
    runs (.spawn f) f s (spawnTests f s) = true → v.act ≠ 0#32 → d < s.dies.length →
    ∃ t, exec (.spawn f) s = .next t ∧ steps s t ∧ quiet s t ∧ (∀ e, e ≠ d → t.die e = s.die e)
      ∧ (t.die d).tasks = (s.die d).tasks ++ [⟨x.ctx, x.queue, x.node, x.launch, pairVal (v.w.ur f.a.toNat) (v.w.ur (f.a.toNat + 1)),
          (upto 8).map fun n => v.w.ur (f.b.toNat + n), s.me.depth + 1⟩])
  ∧ (∀ (f : Fields) (y : Queue) (s : State), let v := s.view f
    let x := s.team s.me.team
    let n := s.node x.ctx x.queue x.node
    let val := if f.len = .l64 then v.w.ur f.a.toNat else f.imm
    Sys2Proof.free (.post f) f s = true → v.act ≠ 0#32 → Tab.find (s.ctx x.ctx).queues x.queue = some y → x.node < y.nodes.length →
    ∃ t, exec (.post f) s = .next t ∧ steps s t ∧ quiet s t ∧ t.node x.ctx x.queue x.node = { n with
        r := if n.rcomb = 1 then (if n.r.toNat < val.toNat then val else n.r) else if n.rcomb = 2 then (if val.toNat < n.r.toNat then val else n.r)
          else if n.rcomb = 3 then n.r ||| val else if n.rcomb = 4 then n.r &&& val else if n.rcomb = 5 then n.r + val else val })
  ∧ ∀ (die k idx : Nat) (x : Task) (d : EntryDesc) (p : Place) (s : State), (s.die die).tasks[k]? = some x →
    s.readDesc ioUnit x.ctx x.pc = .ok (some d) → s.poolFor die 1 x.ctx 0 x.launch d = some (idx, p) →
    let gid := 16 * (idx / 16) + p.slots.1
    ∃ t, exec (.taskDispatch die k) s = .next t ∧ (∃ more, (t.die die).tasks = dropNth (s.die die).tasks k ++ more)
      ∧ freshTeam t gid d (s.entryOn x.launch (idx / 16) x.pc) x.depth (fun r => (p.slots.1 + r) % 4) x.args ∧ (t.team gid).bound = true ∧ (t.team gid).work = .task idx
      ∧ (t.team gid).ctx = x.ctx ∧ (t.team gid).place = p ∧ (t.team gid).launch = x.launch

/-- R289 to R291, R6, R7, R13: the commit of BINDW0 makes the record that BINDIDX names of its staged words, with Z fields zero and, without V, with ST and
CAUSE as dispatch left them; one with V is refused with the lowest cause that it meets, and else a pool is bound and a block waits. A waiting block
whose turn it is, whose storage is free and whose core is up is bound at its entry PC. That the lowest cause is recorded, and the
states of records, are the model's choice (assumptions 38 and 39). -/
def Obligations.BindRecordsAreCheckedAndBound : Prop :=
  (∀ (w0 : DWord) (s : State), let idx := s.pkg.bindidx
    let words := w0 :: (rangeFrom 1 7).map fun n => Tab.get (nth 0#64 (s.bind idx).w n) s.pkg.bindSt n
    idx < 24576 → (s.bind idx).st ≠ 1 →
    ∃ t, exec (.bindw0Commit w0) s = .next t ∧ t.mem = s.mem ∧ t.groups = s.groups ∧ t.teams = s.teams
      ∧ (w0.getLsbD 63 = false → (t.bind idx).st = (s.bind idx).st ∧ (t.bind idx).cause = (s.bind idx).cause ∧ t.pkg.bindSt = []
          ∧ ∀ n, n < 8 → n ≠ 5 → (t.bind idx).word n = bindMask (w0.toNat / 2 ^ 60 % 8) n (nth 0#64 words n).toNat)
      ∧ (w0.getLsbD 63 = true →
          let u := (({ s.setBind idx { w := words, ord := s.seqno } with seqno := s.seqno + 1, pkg := { s.pkg with bindSt := [] } }).bindState
            idx 0 0).bindCtx idx
          (u.bindCause idx ≠ 0 → (t.bind idx).st = 3 ∧ (t.bind idx).cause = u.bindCause idx)
          ∧ (u.bindCause idx = 0 → (u.bind idx).kind = 0 → (t.bind idx).waiting = true ∧ (t.bind idx).w = (u.bind idx).w)
          ∧ (u.bindCause idx = 0 → (u.bind idx).kind ≠ 0 → (s.die (bindDie idx)).change = none →
              (u.ctx (u.bind idx).ctx).fixed = (s.die (bindDie idx)).fixed → (t.bind idx).st = 1)))
  ∧ (∀ (w0 : DWord) (s : State), let idx := s.pkg.bindidx
    idx < 24576 → (s.bind idx).st = 1 → (s.bind idx).kind ≠ 0 → w0.getLsbD 63 = false → (s.bind idx).w.length = 8 →
    (∀ e ∈ s.teams, e.2.bound = true → e.2.ridx ≠ idx) → ∃ t, exec (.bindw0Commit w0) s = .next t ∧ (t.bind idx).v = false ∧ (t.bind idx).st = 2)
  ∧ ∀ (idx k : Nat) (d : EntryDesc) (s : State), let b := s.bind idx
    b.waiting = true → b.w.length = 8 → b.restore = none → (s.die (bindDie idx)).change = none →
    (s.ctx b.ctx).fixed = (s.die (bindDie idx)).fixed → (s.dieBusy (bindDie idx) = true ∨ s.lowerMode idx = false) →
    s.coreUp (idx / 16) = true → s.bindTurn idx = true → s.bindDesc idx = some d → d.team = b.gcnt → (b.place idx).short (some d) = false →
    s.launchOf b.ctx b.queue b.node = some k → (∀ p ∈ s.usedOn (idx / 16), (b.place idx).meets p = false) → s.kstFree (idx / 16) k = true →
    ∃ t, exec (.bindRecordBind idx) s = .next t ∧ freshTeam t idx d b.pc 0 b.sched [] ∧ (t.bind idx).st = 1 ∧ (t.team idx).bound = true
      ∧ (t.team idx).block = b.block ∧ (t.team idx).launch = k ∧ (t.team idx).ctx = b.ctx ∧ (t.team idx).work = .block

/-- R35, R227, R290, R254, R257: once every lane of a team has exited, its staged entries are handed over; a group that has ended closes the
lines of its write filter and leaves with the lines of its registers, and with the last one the team ends at once and the record of a block with it, and
the team's storage stays while its programs, copies and jobs use it. The ticket passes from a holder that has ended to the next block, whose held stores are performed; where
its watchdog expires and work is held, the ticket-stall fault falls due in the groups of the holder's block, or is taken by those that wait at a barrier.
What holds the storage of a team that has ended, and how often the watchdog fires, are the model's reading (assumptions 40 and 43). -/
def Obligations.GroupsEndAndTheTicketPasses : Prop :=
  (∀ (gid : Nat) (s : State), let g := s.grp gid
    let x := s.team g.team
    let peers := s.groups.filter fun e => e.2.bound && e.2.team == g.team
    g.bound = true → (∀ n ∈ g.lanes, n.pc = BitVec.allOnes 64) →
    ((∀ e ∈ peers, ∀ n ∈ e.2.lanes, n.pc = BitVec.allOnes 64) → x.staged ≠ [] → ∃ t, exec (.groupEnd gid) s = .next t ∧ t.mem = s.mem
      ∧ (t.team g.team).handed = x.handed ++ x.staged.map (fun e => { e with flush := s.seqno }) ∧ (t.team g.team).staged = [])
    ∧ (x.staged = [] → g.flagsClear = true →
        ((∃ e ∈ peers, e.1 ≠ gid) → ∃ t, exec (.groupEnd gid) s = .next t ∧ (t.grp gid).bound = false ∧ (t.grp gid).valloc = 0
          ∧ (t.team g.team).gone = (x.freeLines g.role g.valloc).gone
          ∧ ((∀ e ∈ (s.core (gid / 16)).sq, e.gid ≠ gid) → t.mem = s.mem ∧ t.team g.team = x.freeLines g.role g.valloc
            ∧ (∀ n ∈ g.filter, (s.sideOf n).gid = gid → (t.sideOf n).opn = false)
            ∧ (∀ u, u ≠ g.team → t.team u = s.team u) ∧ ∀ h, h ≠ gid → t.grp h = s.grp h))
        ∧ ((∀ e ∈ peers, e.1 = gid) → x.done = false →
            let ended := fun t : State => x.work = .block → (s.bind x.ridx).w.length = 8 → (t.bind x.ridx).st = 2 ∧ (t.bind x.ridx).cause = 0
            (s.teamBusy g.team = false → g.team ≤ gid → gid < g.team + 16 → ∃ t, exec (.groupEnd gid) s = .next t
              ∧ (t.grp gid).bound = false ∧ (t.team g.team).bound = false ∧ ended t
              ∧ (x.handed = [] → (∀ c, c = g.team / 16 ∨ c = gid / 16 → ∀ e ∈ (s.core c).sq, (s.grp e.gid).team ≠ g.team) → t.mem = s.mem))
            ∧ (s.teamBusy g.team = true → ∃ t, exec (.groupEnd gid) s = .next t ∧ (t.team g.team).bound = x.bound ∧ (t.team g.team).done = true
              ∧ (t.team g.team).place = x.place ∧ ended t))))
  ∧ ((∀ (launch : Nat) (l : Launch) (s : State), Tab.find s.launches launch = some l → l.det = true → l.holder ∈ l.ended →
    let b := l.holder + 1
    ∃ t, exec (.ticketPass launch) s = .next t
      ∧ (∀ m, Tab.find t.launches launch = some m → m.holder = b ∧ l.holder ∉ m.ended)
      ∧ ∀ team x, s.teams.find? (fun e => e.2.bound && !e.2.done && e.2.launch == launch && e.2.work == .block && e.2.block == b) = some (team, x) →
          (t.team team).held = []
          ∧ ((∀ e ∈ l.staged, e.block ≠ b) → (x.held = [] → t.mem = s.mem)
          ∧ ∀ h, x.held = [h] → h.kind = .plain → h.space = .global → h.bytes ≠ [] → Memory.wf s.mem = true →
              (∀ j, j < h.bytes.length → ownLine s (s.ctx l.ctx).key (h.pa + j)) →
              ∀ a, readCell t.mem a = if h.pa ≤ a ∧ a < h.pa + h.bytes.length then nth 0#8 h.bytes (a - h.pa) else readCell s.mem a))
  ∧ ∀ (launch due : Nat) (l : Launch) (s : State), Tab.find s.launches launch = some l → l.wdog = some due → due ≤ s.pkg.wtime →
    ∃ t, exec (.ticketWatchdogExpiry launch) s = .next t ∧ t.mem = s.mem
      ∧ (s.ticketWork launch = false → t.groups = s.groups ∧ Tab.find t.launches launch = some { l with wdog := none })
      ∧ (s.ticketWork launch = true → ∀ e ∈ s.groups, s.grp e.1 = e.2 → e.2.bound = true → (s.team e.2.team).launch = launch → (s.team e.2.team).work = .block →
          (s.team e.2.team).block = l.holder → e.2.trap.frozen = none →
          (t.grp e.1).trap.stall = true ∨ ∃ r, (t.grp e.1).trap.frozen = some r ∧ r.code = 0x25))

/-! ### Slot blocks and barriers -/

/-- R324 to R332: `slot.sc` proposes in ascending lane order: a lane's token is taken where its slot is open and the token in range, and the predicate
says so. `slot.fin` makes one pass: what it finalises is tentative, and outranks every candidate that it leaves; the slots, the header word and the
result follow the rule's thresholds. What `slot.fin` waits for is the model's reading (assumption 37). -/
def Obligations.SlotBlocksAreProposedAndFinalised : Prop :=
  (∀ (f : Fields) (s : State), let v := s.view f
    let a := v.pairU f.a.toNat
    let pass := hPass (nth 0 (headerOf s v .both a) 0)
    runs (.slotSc f) f s (slotTests f .both true s) = true →
    (∃ t, exec (.slotSc f) s = .next t ∧ steps s t ∧ sameV s t ∧ sameU s t ∧ sameFlags s t)
    ∧ ∀ l, l < 32 → v.act = BitVec.twoPow 32 l →
      let p := slotPos f v l
      let e := entryOf s v .both a p
      let pa := (s.xlate s.cur.gid (slotVa a p) .both).pa
      let new : Slot := { e with token := (v.c f l).toNat, conf := (v.reg f.uc (f.c.toNat + 1) l).toNat % 65536, st := 1, passno := pass }
      let ok := e.st ≤ 1 ∧ (v.c f l).toNat < 2 ^ 22
      ∃ t, exec (.slotSc f) s = .next t ∧ (∀ n j, j < 32 → t.me.pr n j = if n ≠ 15 ∧ n = f.d.toNat ∧ j = l then
            (if ok then 1#16 else 0#16) else s.me.pr n j)
        ∧ (¬ok → t.mem = s.mem)
        ∧ (ok → Memory.wf s.mem = true → (∀ j, j < 8 → ownLine s (s.keyOf s.cur.gid) (pa + j)) →
            ∀ b, readCell t.mem b = if pa ≤ b ∧ b < pa + 8 then nth 0#8 (leBytes 8 new.word) (b - pa) else readCell s.mem b))
  ∧ (∀ (r : Rule) (es : List Slot), let fin := finalised r es
    let at' := fun p => nth (slotOf 0) es p
    (∀ p ∈ fin.1, p < es.length ∧ (at' p).st = 1) ∧ fin.1.Nodup
    ∧ (fin.2 = false → fin.1.length ≤ r.k ∧ (∀ p ∈ fin.1, r.fth ≤ (at' p).conf)
        ∧ (∀ p q, p ∈ fin.1 → q ∉ fin.1 → q < es.length → (at' q).st = 1 → r.fth ≤ (at' q).conf →
            (at' q).conf < (at' p).conf ∨ ((at' q).conf = (at' p).conf ∧ if r.ord then q < p else p < q))
        ∧ (fin.1.length < r.k → ∀ q, q < es.length → (at' q).st = 1 → r.fth ≤ (at' q).conf → q ∈ fin.1))
    ∧ (fin.2 = true → r.fp = true ∧ fin.1.length = 1 ∧ ∀ p ∈ fin.1, ∀ q, q < es.length → (at' q).st = 1 → (at' q).conf ≤ (at' p).conf))
  ∧ ∀ (f : Fields) (s : State) (pa : Nat), let v := s.view f
    let a := v.pairU f.a.toNat
    let w0 := nth 0 (headerOf s v .both a) 0
    let r := ruleOf (s.ruleWord s.me.team (f.imm.toNat % 16)).toNat
    let es := (upto (hNslot w0)).map (entryOf s v .both a)
    let fin := finalised r es
    let new := fun p => let e := nth (slotOf 0) es p
      if p ∈ fin.1 then { e with st := 2, passno := hPass w0 }
      else if e.st = 1 ∧ e.conf < r.rth ∧ e.reopen < 3 then { e with st := 0, token := 0, conf := 0, reopen := e.reopen + 1, passno := hPass w0 }
      else e
    runs (.slotFin f) f s (finTests f s) = true → v.act ≠ 0#32 →
    (∀ k, k < 8 + hNslot w0 → s.gpa s.cur.gid .both (a + 8 * k) = pa + 8 * k) → Memory.wf s.mem = true →
    (∀ j, j < 64 + 8 * hNslot w0 → ownLine s (s.keyOf s.cur.gid) (pa + j)) →
    ∃ t, exec (.slotFin f) s = .next t ∧ steps s t ∧ sameV s t ∧ sameP s t ∧ sameFlags s t
      ∧ writesU s t f f.d.toNat (finResult fin ((upto es.length).map new))
      ∧ (∀ p, p < hNslot w0 → readCells t.mem (pa + 64 + 8 * p) 8 = leBytes 8 (new p).word)
      ∧ readCells t.mem pa 8 = leBytes 8 (passHeader w0 ((upto es.length).map new))
      ∧ ∀ b, b < pa ∨ pa + 64 + 8 * hNslot w0 ≤ b → readCell t.mem b = readCell s.mem b

/-- R353 to R358: `bar.exp` adds to the pending count of its word; an arrival at `bar` closes the group's written lines and makes its issuing lanes
wait; the word is then due. At the end of the cycle its arrivals are counted one after another, in ascending order of port, scheduler and core: each
is added, or refused with the barrier fault where the word does not admit it, and its group's lanes are at their `bar` again. After them a word whose arrivals are complete, with nothing pending, starts anew with the other
parity and releases every waiting path past its `bar`, with 1 in the predicate of the group that arrived last and 0 in the others; any other word, and
its groups, stay. The last arriver is that of the last arrival counted. The release is stated outside deterministic
mode. Where in the phase the last arriver is chosen is the model's reading (assumption 36). -/
def Obligations.BarriersCountAndRelease : Prop :=
  (∀ (f : Fields) (u : Nat) (s : State), let v := s.view f
    let off := (v.w.ur f.a.toNat).toNat
    let b := s.barAt u off
    s.barTeam s.me.team f = some u → Sys2Proof.free (.barExp f) f s = true → v.act ≠ 0#32 → off < 8 * (s.team u).desc.barw → off % 8 = 0 →
    Memory.wf (s.team u).spad = true →
    ∃ t, exec (.barExp f) s = .next t ∧ steps s t ∧ quiet s t ∧ (u, off) ∈ t.bars
      ∧ t.barAt u off = { b with pend := wrap ((b.pend : Int) + barExpCount f v) 24 }
      ∧ ∀ a, a < off ∨ off + 8 ≤ a → readCell (t.team u).spad a = readCell (s.team u).spad a)
  ∧ (∀ (f : Fields) (s : State), let v := s.view f
    let u := (s.barTeam s.me.team f).getD 0
    let off := (barOff f v).toNat
    let b := s.barAt u off
    runs (.bar f) f s (barTests f s) = true → v.act ≠ 0#32 →
    ∃ t, exec (.bar f) s = .next t ∧ quiet s t ∧ (u, off) ∈ t.bars ∧ t.me.filter = [] ∧ t.teams = s.teams
      ∧ t.arrivals = s.arrivals ++ [{ team := u, off := off, rank := (s.portHere * 4 + s.me.sched % 4) * 2 ^ 16 + s.cur.gid / 16
                                      gid := s.cur.gid, n := barCount f v, trap := s.laneTrap 0x15 (lowLane v.act) 0
                                      arr := { off := off, key := s.groupKey s.me, ord := s.seqno, wide := f.mod.toNat % 8 != 1 } }]
      ∧ ∀ l, l < 32 → (t.me.lane l).pc = (s.me.lane l).pc ∧ (s.cur.lanes.getLsbD l = true →
          (t.me.lane l).wait = .bar u off b.ph f (v.act.getLsbD l) s.seqno))
  ∧ (∀ (a : Arrival) (s : State), (s.team a.team).bound = true → Memory.wf (s.team a.team).spad = true →
    let b := s.barAt a.team a.off
    let t := s.applyArrival a
    (b.refuses a.n = false → t.mem = s.mem ∧ t.groups = s.groups ∧ (t.team a.team).arrs = (s.team a.team).arrs ++ [a.arr]
      ∧ t.barAt a.team a.off = { b with
          need := if b.arr = 0 then a.n else b.need, arr := (b.arr + 1) % 256
          hi := if s.det (s.grp a.gid).team = true then Nat.max b.hi (a.arr.key + 1) % 256 else b.hi }
      ∧ ∀ x, x < a.off ∨ a.off + 8 ≤ x → readCell (t.team a.team).spad x = readCell (s.team a.team).spad x)
    ∧ (b.refuses a.n = true → (s.grp a.gid).trap.frozen = none → t.mem = s.mem ∧ t.barAt a.team a.off = b
      ∧ (t.team a.team).arrs = (s.team a.team).arrs ∧ (t.grp a.gid).trap.frozen = some a.trap
      ∧ ∀ l f act ph, l < 32 → ((s.grp a.gid).lane l).wait = .bar a.team a.off ph f act a.arr.ord → ((t.grp a.gid).lane l).wait = .run))
  ∧ (∀ s : State, ∃ es : List Arrival, es.Perm s.arrivals ∧ es.Pairwise (fun a b => a.rank ≤ b.rank)
    ∧ s.takeArrivals = es.foldl State.applyArrival { s with arrivals := [] })
  ∧ (∀ (u off : Nat) (s : State), s.arrivals = [] → s.bars = [(u, off)] → (s.team u).bound = true → s.det u = false → Memory.wf (s.team u).spad = true →
    let b := s.barAt u off
    let t := s.settleBars
    let last := lastArrival ((s.team u).arrs.filter (·.off == off))
    let stays := b.need = 0 ∨ b.arr ≠ b.need ∨ b.pend ≠ 0
    t.bars = [] ∧ t.mem = s.mem
      ∧ (stays → t.groups = s.groups ∧ t.barAt u off = b)
      ∧ (¬stays → t.barAt u off = { ph := !b.ph, need := 0, hi := 0, arr := 0, pend := 0 }
        ∧ ∀ h l k act ord, (s.grp h).bound = true → (s.grp h).trap.frozen = none → l < 32 → ((s.grp h).lane l).wait = .bar u off b.ph k act ord →
          ((t.grp h).lane l).wait = .run ∧ ((t.grp h).lane l).pc = lpcOf (seqPc ((s.grp h).lane l).pc.toNat k.len.bytes)
            ∧ (act = true → k.d.toNat ≠ 15 → (t.grp h).pr k.d.toNat l = if s.groupKey (s.grp h) = last then 1#16 else 0#16)))
  ∧ ∀ (arrs : List BarArr) (a : BarArr), lastArrival (arrs ++ [a]) = a.key

/-! ### Clocks, power and registers -/

/-- R390, R391, R392, R292, R365, R393, R394: a stretched cycle counts on an elastic die alone; a timing violation is reported and ends the fixed-timing
contexts with a bound team on the die; a mode change that is due gives the die the other mode and binds its record; an update of the estimate
takes it, adds it to the energy, moves the gate by its two thresholds and throttles an elastic die, or reports a fixed-timing one, above the cap; a
cap that would take the four above 1380 W is ignored and reported. That the gate and the throttle move at the updates alone is the model's reading
(assumption 74). -/
def Obligations.ClocksAndPowerFollowTheirRules : Prop :=
  (∀ (core : Nat) (s : State), let fixed := (s.die (dieOf core)).fixed
    ∃ t, exec (.cycleStretch core) s = .next t ∧ (fixed = true → t = s)
      ∧ (fixed = false → t = { s with cores := t.cores } ∧ (∀ c, c ≠ core → t.core c = s.core c)
          ∧ t.core core = { s.core core with dstretch := ((s.core core).dstretch + 1) % 2 ^ 64 }))
  ∧ (∀ (die : Nat) (s : State), (s.die die).fixed = true →
    ∃ (t : State) (more : List Report), exec (.timingViolation die) s = .next t ∧ t.mem = s.mem
      ∧ t.pkg.log = s.pkg.log ++ ⟨"timing-violation", [die]⟩ :: more
      ∧ ∀ e ∈ t.teams, e.2.bound = true → dieOf (e.1 / 16) = die → (s.ctx e.2.ctx).fixed = false)
  ∧ (∀ (die idx due : Nat) (s : State), (s.die die).change = some (idx, due) → due ≤ s.pkg.wtime →
    ∃ t, exec (.modeSwitchComplete die) s = .next t
      ∧ exec (.bindRecordBind idx) (s.setDie die { s.die die with fixed := !(s.die die).fixed, change := none }) = .next t)
  ∧ (∀ (die : Nat) (est : Half) (s : State), let d := s.die die
    let p : Int := est.toNat
    let cap : Int := 16 * d.pcap
    let margin : Int := 16 * d.margin
    die < 4 → die < s.dies.length → d.pnext ≤ s.pkg.wtime →
    ∃ t, exec (.powerEstimateUpdate die est) s = .next t ∧ (∀ e, e ≠ die → t.die e = s.die e)
      ∧ t.die die = { d with
          pest := est.toNat, pnext := d.pnext + 16000, edie := (d.edie + est.toNat) % 2 ^ 64
          shut := (t.die die).shut, throt := (t.die die).throt }
      ∧ (cap - margin ≤ p → (t.die die).shut = true) ∧ (p < cap - 2 * margin → (t.die die).shut = false)
      ∧ (cap - 2 * margin ≤ p → p < cap - margin → (t.die die).shut = d.shut)
      ∧ ((t.die die).throt = true ↔ cap < p ∧ d.fixed = false)
      ∧ t.pkg.log = s.pkg.log ++ if cap < p ∧ d.fixed = true then [⟨"over-cap", [die, est.toNat]⟩] else [])
  ∧ ∀ (die : Nat) (v : Word) (s : State), let cap := v.toNat % 2 ^ 10
    let sum := (((List.range 4).filter fun d => d ≠ die).map fun d => (s.die d).pcap).sum + cap
    die < 4 → die < s.dies.length →
    ∃ t, exec (.pcapWrite die v) s = .next t ∧ (∀ e, e ≠ die → t.die e = s.die e)
      ∧ (sum ≤ 1380 → t = { s with dies := t.dies } ∧ t.die die = { s.die die with pcap := cap })
      ∧ (1380 < sum → t = { s with pkg := { s.pkg with log := s.pkg.log ++ [⟨"pcap-ignored", [die, cap]⟩] } })

/-- R398: TWDOG holds 100 at reset; a write stores its low 16 bits, and 100 for 0, and changes nothing else, so that the running watchdogs stand; a
watchdog that restarts takes its limit from it, in ms of wall time. -/
def Obligations.TicketWatchdogTakesItsLimit : Prop :=
  State.reset.pkg.twdog = 100
  ∧ (∀ (v : Word) (s : State), ∃ t, exec (.twdogWrite v) s = .next t
    ∧ t = { s with pkg := { s.pkg with twdog := if v.toNat % 2 ^ 16 = 0 then 100 else v.toNat % 2 ^ 16 } })
  ∧ ∀ (k : Nat) (l : Launch) (s : State), Tab.find s.launches k = some l → l.det = true → s.ticketWork k = true →
    Tab.find (s.restartTicket k).launches k = some { l with wdog := some (s.pkg.wtime + s.pkg.twdog * 10 ^ 6) }

/-- What a write of `v` to a register leaves (R6, R7, R288, R289, R292, R295, R298, R318, R369, R381, R386, R341, R405, R408): its fields that can
be written, and nothing else; a read-only register stays. -/
def registerRule (v : DWord) (s t : State) : Reg → Prop
  | .bindidx => t = { s with pkg := { s.pkg with bindidx := v.toNat % 2 ^ 15 } }
  | .bindw n => (n = 0 → exec (.bindw0Commit v) s = .next t)
      ∧ (1 ≤ n → n ≤ 7 → s.pkg.bindidx < 24576 → t = { s with pkg := { s.pkg with bindSt := t.pkg.bindSt } }
          ∧ ∀ m, Tab.find t.pkg.bindSt m = if m = n then some v else Tab.find s.pkg.bindSt m)
  | .gate d => d < 4 → t = { s with dies := t.dies } ∧ ∀ e, e < s.dies.length →
      t.die e = if e = d then { s.die e with margin := v.toNat % 2 ^ 16 } else s.die e
  | .relidx => t = { s with pkg := { s.pkg with relidx := v.toNat % 2 ^ 12 } }
  | .ttbase c => c < 64 → t = { s with ctxs := t.ctxs } ∧ ∀ d, t.ctx d =
      if d = c ∧ (s.ctx c).live = false ∧ v.toNat % 65536 = 0 then { s.ctx d with ttbase := v.toNat % 2 ^ 48 } else s.ctx d
  | .tvec c => c < 64 → t = { s with ctxs := t.ctxs } ∧ ∀ d, t.ctx d = if d = c then
      { s.ctx d with tvec := BitVec.ofNat 64 (v.toNat % 2 ^ 48 / 2 ^ 16 * 2 ^ 16 + v.toNat % 2) } else s.ctx d
  | .frcmdW1 d => d < 4 → t = { s with dies := t.dies } ∧ ∀ e, e < s.dies.length →
      t.die e = if e = d then { s.die e with frcmd := v } else s.die e
  | .prcmdW1 => t = { s with pkg := { s.pkg with prcmd := v } }
  | .commitLimit => t = { s with pkg := { s.pkg with commitUs := v.toNat } }
  | .cecnt c => c < 1536 → t = { s with cores := t.cores } ∧ (∀ d, d ≠ c → t.core d = s.core d)
      ∧ ∀ k, (t.core c).cecnt.testBit k = ((s.core c).cecnt.testBit k && !v.toNat.testBit k)
  | .dbgPc c n => c < 1536 → n < (s.core c).dbgPc.length → t = { s with cores := t.cores } ∧ (∀ d, d ≠ c → t.core d = s.core d)
      ∧ ∀ m, nth {} (t.core c).dbgPc m = if m = n then
          { nth {} (s.core c).dbgPc m with w := v &&& 0x83F0FFFFFFFFFFFF#64 } else nth {} (s.core c).dbgPc m
  | .dbgDa c n => c < 1536 → n < (s.core c).dbgDa.length → t = { s with cores := t.cores } ∧ (∀ d, d ≠ c → t.core d = s.core d)
      ∧ ∀ m, nth {} (t.core c).dbgDa m = if m = n then
          { nth {} (s.core c).dbgDa m with w := v &&& 0xE3F0FFFFFFFFFFFF#64 } else nth {} (s.core c).dbgDa m
  | .dbgPm c n => c < 1536 → n < (s.core c).dbgPc.length → t = { s with cores := t.cores } ∧ (∀ d, d ≠ c → t.core d = s.core d)
      ∧ ∀ m, nth {} (t.core c).dbgPc m = if m = n then
          { nth {} (s.core c).dbgPc m with m := BitVec.ofNat 64 (v.toNat % 2 ^ 32) } else nth {} (s.core c).dbgPc m
  | .dbgDm c n => c < 1536 → n < (s.core c).dbgDa.length → t = { s with cores := t.cores } ∧ (∀ d, d ≠ c → t.core d = s.core d)
      ∧ ∀ m, nth {} (t.core c).dbgDa m = if m = n then
          { nth {} (s.core c).dbgDa m with m := BitVec.ofNat 64 (v.toNat % 2 ^ 40) } else nth {} (s.core c).dbgDa m
  | .mailbox n => n < 8 → t = { s with pkg := { s.pkg with mailbox := setNth v s.pkg.mailbox n } }
  | .mbgo => let cmd := (nth 0#64 s.pkg.mailbox 0).toNat % 2 ^ 8
      (s.pkg.mbBusy = true → t = s)
      ∧ (s.pkg.mbBusy = false → 1 ≤ cmd → cmd ≤ 8 → t = { s with pkg := { s.pkg with mbBusy := true } })
      ∧ (s.pkg.mbBusy = false → cmd = 0 ∨ 8 < cmd → t = { s with pkg := { s.pkg with mbBusy := false, mbStatus := 1 } })
  | .msixMask n => n < 64 → t = { s with pkg := { s.pkg with msixMask := t.pkg.msixMask } }
      ∧ ∀ m, m ∈ t.pkg.msixMask ↔ if m = n then v.getLsbD 0 = true else m ∈ s.pkg.msixMask
  | .connWord c n => c < 65536 → 1 ≤ n → n ≤ 31 → t = { s with conns := t.conns } ∧ (∀ d, d ≠ c → t.conn d = s.conn d)
      ∧ (t.conn c).w = (s.conn c).w ∧ ∀ m, Tab.find (t.conn c).staged m = if m = n then some v else Tab.find (s.conn c).staged m
  | .remoteWindow n base size peer peerBase => n < 64 → base % 2 ^ 21 = 0 → base < 2 ^ 48 → size % 2 ^ 21 = 0 → peer < 4096 →
      t = { s with pkg := { s.pkg with windows := t.pkg.windows } }
      ∧ ∀ m, Tab.find t.pkg.windows m = if m = n then (if size = 0 then none else some [base, size, peer, peerBase])
          else Tab.find s.pkg.windows m
  | .attach c => c < 64 → t = { s with ctxs := t.ctxs } ∧ ∀ d, t.ctx d =
      if d = c then { s.ctx d with attached := v.getLsbD 0 } else s.ctx d
  | .rewrite c _ x _ => t = { s with mem := t.mem, side := t.side, launches := t.launches }
      ∧ (x.recs = [] → t.mem = s.mem ∧ t.side = s.side) ∧ ((∀ e ∈ s.launches, e.2.ctx ≠ c ∨ e.2.text ≠ some x) → t.launches = s.launches)
  | .reldata | .keyid _ | .owner _ | .frslot _ _ | .dmode _ | .pest _ | .mbstat | .crtail _ => t = s

/-- R6, R7 and the registers' rules, R210, R125, R367: a register write leaves the fields that can be written, and a read answers a status word, a
committed word of a connection but zero for its keys, or zero for a command register and the words of a mailbox command; another key pair under an identifier is
a new generation of it, and the same pair changes nothing; the scrubber changes no value that a program sees, counts at most what it corrects,
heals the word in a bound or a stopped team's line, and marks and records an uncorrectable word in a line that a team owns. The generations of keys, whether a corrected word counts, and the register by
which firmware notes a debugger and the step by which it rewrites an instance are the model's choice (assumptions 21, 55, 62, 80 and 89). -/
def Obligations.RegistersKeysAndScrubber : Prop :=
  (∀ (r : Reg) (v : DWord) (s : State), ∃ t, exec (.registerWrite r v) s = .next t ∧ registerRule v s t r)
  ∧ (∀ (r : Reg) (s : State), let t := s.firmware (.readReg r)
    t = { s with pkg := { s.pkg with out := t.pkg.out } }
    ∧ ∀ x, r = .mbstat ∧ x = s.pkg.mbStatus * 2 ^ 8 + s.pkg.mbBusy.toNat
        ∨ (∃ c n, r = .connWord c n ∧ x = if 8 ≤ n ∧ n ≤ 13 then 0 else (Tab.get 0#64 (s.conn c).w n).toNat)
        ∨ (r = .mailbox 0 ∧ x = (nth 0#64 s.pkg.mailbox 0).toNat % 2 ^ 8) ∨ (∃ n, 1 ≤ n ∧ r = .mailbox n ∧ x = 0)
        ∨ (∃ d, r = .frcmdW1 d ∧ x = 0) ∨ (r = .prcmdW1 ∧ x = 0) ∨ (r = .mbgo ∧ x = 0) →
      t.pkg.out = s.pkg.out ++ [leBytes 8 x])
  ∧ (∀ (key : Nat) (pair : BitVec 512) (s : State), key < 1024 →
    ((∀ k, Tab.find s.pkg.keys key = some k → k.pair ≠ pair) → ∃ t, exec (.keyInstall key pair) s = .next t
      ∧ t = { s with pkg := { s.pkg with keys := t.pkg.keys, keyGen := s.pkg.keyGen + 1 } }
      ∧ ∀ n, Tab.find t.pkg.keys n = if n = key then some ⟨pair, s.pkg.keyGen + 1⟩ else Tab.find s.pkg.keys n)
    ∧ (∀ k, Tab.find s.pkg.keys key = some k → k.pair = pair → ∃ t, exec (.keyInstall key pair) s = .next t ∧ t = s))
  ∧ ∀ (core line lane : Nat) (s : State), line < 2048 → lane < 32 →
    (∃ t, exec (.scrubRead core line lane .clean) s = .next t ∧ t = s)
    ∧ (∃ t, exec (.scrubRead core line lane .corrected) s = .next t ∧ t = { s with cores := t.cores, groups := t.groups, parked := t.parked, fresh := s.fresh + 1 }
      ∧ (∀ g, { t.grp g with weak := [] } = { s.grp g with weak := [] })
      ∧ (∀ team r n, s.lineOwner core line = some (team, r, n) → t.parked = s.parked ∧ (n, lane) ∉ (t.grp (team + r)).weak)
      ∧ (∀ k r n p, s.lineOwner core line = none → s.lineParked core line = some (k, r, n) → s.parked[k]? = some p → r < p.groups.length →
          t.groups = s.groups ∧ ∃ q, t.parked[k]? = some q ∧ (n, lane) ∉ (nth {} q.groups r).weak ∧ q = { p with groups := q.groups }
            ∧ ∀ m, { nth {} q.groups m with weak := [] } = { nth {} p.groups m with weak := [] })
      ∧ ∀ c, t.core c = s.core c ∨ (c = core ∧ t.core c = { s.core c with cecnt := min ((s.core c).cecnt + 1) (2 ^ 32 - 1) }))
    ∧ (∀ team r n, s.lineOwner core line = some (team, r, n) →
      ∃ t, exec (.scrubRead core line lane .uncorrectable) s = .next t ∧ t = { s with groups := t.groups }
        ∧ (∀ g, g ≠ team + r → t.grp g = s.grp g) ∧ (t.grp (team + r)).v = (s.grp (team + r)).v
        ∧ (n, lane) ∈ (t.grp (team + r)).bad
        ∧ ((s.grp (team + r)).mev = none → (s.grp (team + r)).csr.merrlog0.getLsbD 63 = true → (t.grp (team + r)).csr.merrlog0 = (s.grp (team + r)).csr.merrlog0)
        ∧ (0x062 ∉ (s.grp (team + r)).csrw →
            (t.grp (team + r)).csr.merrcnt = min ((s.grp (team + r)).csr.merrcnt + 1) (2 ^ 32 - 1)))
    ∧ (s.lineOwner core line = none → s.lineParked core line = none →
      ∃ t, exec (.scrubRead core line lane .uncorrectable) s = .next t ∧ t = { s with cores := t.cores }
        ∧ (∀ c, c ≠ core → t.core c = s.core c) ∧ ∃ e, t.core core = { s.core core with elog := (s.core core).elog ++ [e] })

/-! ### Translation and fetch -/

/-- R40, R78, R206, R207: a block that is missed enters the core's cache as memory holds it under the context's key and the fetches that waited for
it go on, or its page's fault is left to the groups that fetch there; a walk's translation enters the die's TLB and those of the cores whose accesses
it lets through, and a fault of the walk, or one that the translation gives an access of its kind, a tier-miss among them, is left to the group that
waits; an invalidation drops nothing outside its range, and completes, once the range is quiet, with every entry of the range dropped. The free choice
of old or new bytes and entries, and how a walk's fault reaches its groups, are the model's reading (assumptions 10, 19 and 85). -/
def Obligations.TranslationsWalksAndFetches : Prop :=
  (∀ (core ctx block : Nat) (s : State),
    let x := s.xlateNow core ctx (32 * block % 2 ^ 48) .fetch
    let unmarked := fun n : Lane => { n with mark := false }
    (ctx, block) ∈ (s.core core).icMiss → s.walking core ctx (32 * block % 2 ^ 48) = false → (∀ y ∈ (s.core core).ic, y.ctx = ctx → y.block = block → y.key ≠ (s.ctx ctx).key) →
    (∀ pa, x = .hit pa → (s.sideOf (pa / 64)).ue = false → ∃ t, exec (.icacheLineArrival core ctx block) s = .next t ∧ t.mem = s.mem
      ∧ (∀ g, { t.grp g with lanes := [] } = { s.grp g with lanes := [] })
      ∧ (∀ g l, l < 32 → unmarked ((t.grp g).lane l) = unmarked ((s.grp g).lane l)
          ∨ ((s.grp g).lane l).miss = some block ∧ unmarked ((t.grp g).lane l) = unmarked { (s.grp g).lane l with miss := none })
      ∧ (∀ g ∈ s.groupsOn core, (s.team (s.grp g).team).ctx = ctx → ∀ l, l < 32 → ((t.grp g).lane l).miss ≠ some block)
      ∧ t.icBlock core ctx block = some (s.bytesAs (s.ctx ctx).key pa 32)
      ∧ ∀ m, m ∈ (t.core core).icMiss ↔ m ∈ (s.core core).icMiss ∧ m ≠ (ctx, block))
    ∧ ∀ c, x = .fault c ∨ (c = 0x22 ∧ ∃ pa, x = .tier pa) → ∃ t, exec (.icacheLineArrival core ctx block) s = .next t ∧ t.mem = s.mem
      ∧ (t.core core).ic = (s.core core).ic
      ∧ ∀ g ∈ s.fetchers core ctx block, Tab.find (t.grp g).tfault (2 ^ 32 + block / 2048) = some c)
  ∧ (∀ (die k : Nat) (w : Walk) (s : State), (s.die die).walks[k]? = some w → k < 64 → die < s.dies.length →
    let va := 65536 * w.page
    (∀ e, s.walk w.ctx va = .ok e → ∃ t, exec (.walkCompletion die k) s = .next t ∧ t.mem = s.mem
      ∧ (t.die die).walks = dropNth (s.die die).walks k
      ∧ (∀ g ∈ w.groups, ∀ pa, e.answer va g.2 = .hit pa → e ∈ (t.die die).stlb ∧ e ∈ (t.core (g.1 / 16)).tlb)
      ∧ (∀ g ∈ w.groups, ∀ c, e.answer va g.2 = .fault c ∨ (c = 0x22 ∧ ∃ pa, e.answer va g.2 = .tier pa) → (s.grp g.1).bound = true →
          (∀ h ∈ w.groups, h.1 = g.1 → h.2 = g.2) → Tab.find (t.grp g.1).tfault w.page = some c)
      ∧ ((∀ g ∈ w.groups, ∀ pa, e.answer va g.2 ≠ .hit pa) → t.cores = s.cores ∧ (t.die die).stlb = (s.die die).stlb)
      ∧ ((∀ g ∈ w.groups, ∃ pa, e.answer va g.2 = .hit pa) → t.groups = s.groups))
    ∧ ∀ c, s.walk w.ctx va = .error c → ∃ t, exec (.walkCompletion die k) s = .next t ∧ t.mem = s.mem ∧ t.cores = s.cores
      ∧ t.die die = { s.die die with walks := dropNth (s.die die).walks k }
      ∧ ∀ g ∈ w.groups, (s.grp g.1).bound = true → Tab.find (t.grp g.1).tfault w.page = some c)
  ∧ (∀ (die ctx lo hi : Nat) (s : State), die < s.dies.length → ∃ t, exec (.translationInvalidate die ctx lo hi) s = .next t ∧ t.mem = s.mem
    ∧ t.groups = s.groups ∧ (t.die die).invs = (s.die die).invs ++ [⟨ctx, lo, hi, s.seqno⟩]
    ∧ (∀ e ∈ (t.die die).stlb, e ∈ (s.die die).stlb) ∧ ∀ e ∈ (s.die die).stlb, e.inRange ctx lo hi = false → e ∈ (t.die die).stlb)
  ∧ ∀ (die k : Nat) (i : Inval) (s : State), (s.die die).invs[k]? = some i → s.rangeQuiet die i = true → die < s.dies.length →
    ∃ t, exec (.invalidateCompletion die k) s = .next t ∧ t.mem = s.mem ∧ t.groups = s.groups ∧ (t.die die).invs = dropNth (s.die die).invs k
      ∧ (∀ e, e ∈ (t.die die).stlb ↔ e ∈ (s.die die).stlb ∧ e.inRange i.ctx i.lo i.hi = false)
      ∧ ∀ c e, dieOf c = die → (e ∈ (t.core c).tlb ↔ e ∈ (s.core c).tlb ∧ e.inRange i.ctx i.lo i.hi = false)

/-! ### Command queues and graphs -/

/-- R259 to R261, R306, R407, R408, R71, R293: the entry at the head of a queue that is idle is read and runs, or fails with STATUS 1; an entry that waits completes
once its queue has come so far, and a marker at once; the checked records of a graph become its nodes, or it fails with the STATUS and the index of
the first bad one, 0x06 for a relocation record that is refused and 0x09 for a frontier launch of an entry that declares no frontier; an absolute PLACE field takes its physical site from the relocation table; and the
record of a completed entry is written to the ring, whose tail moves. The sequence number, the entry that cannot be read
and the lost record are the model's choice (assumptions 56, 57 and 63), and so is when the loader acts (assumption 62). -/
def Obligations.CommandEntriesRunAndComplete : Prop :=
  (∀ (ctx q : Nat) (bs : List Byte) (s : State), let y := s.queue ctx q
    (s.ctx ctx).live = true → y.set = true → y.stopped = false → y.cmd = 0 → y.head ≠ y.tail →
    s.readVirt ioUnit ctx ((y.ring + 64 * (y.head % 2 ^ y.log)) % 2 ^ 48) 64 = .ok bs →
    let w := (List.range 8).map fun k => leVal ((bs.drop (8 * k)).take 8)
    ∃ t, exec (.commandEntryStart ctx q) s = .next t ∧ t.mem = s.mem ∧ (t.queue ctx q).head = (y.head + 1) % 2 ^ 32
      ∧ (t.queue ctx q).tail = y.tail ∧ (∀ k, k < 8 → (t.queue ctx q).word k = nth 0 w k)
      ∧ (entryBad w = false → (t.queue ctx q).cmd = nth 0 w 0 % 256 ∧ (t.queue ctx q).done = false ∧ (t.queue ctx q).seq = y.seq)
      ∧ (entryBad w = true → (t.queue ctx q).fail = some (1, 0) ∧ (t.queue ctx q).done = true
          ∧ (t.queue ctx q).seq = (y.seq + 1) % 2 ^ 64))
  ∧ (∀ (ctx q : Nat) (s : State), let y := s.queue ctx q
    let completes := fun (i : Instr) => ∃ t, exec i s = .next t ∧ t = { s with ctxs := t.ctxs }
      ∧ t.queue ctx q = { y with done := true, seq := (y.seq + 1) % 2 ^ 64 } ∧ ∀ r, r ≠ q → t.queue ctx r = s.queue ctx r
    let want := y.word 2 / 2 ^ 4
    y.done = false →
    (y.cmd = 3 → completes (.cmdMarker ctx q))
    ∧ (y.cmd = 2 → want ≤ (s.queue ctx (y.word 2 % 16)).seq → completes (.cmdWait ctx q))
    ∧ (y.cmd = 2 → (s.queue ctx (y.word 2 % 16)).seq < want → ∃ t, exec (.cmdWait ctx q) s = .next t ∧ t = s))
  ∧ (∀ (ctx q : Nat) (texts : List (Nat × Text)) (record : Nat → List Byte) (s : State), let y := s.queue ctx q
    let n := y.word 2 % 2 ^ 16
    let words := fun k => dwords (record k) 8
    let node := fun k => ({ words := (words k).take 4, text := Tab.find texts k } : Node)
    let good := fun k => nodeGood n ((words k).map (·.toNat))
    y.cmd = 1 → y.done = false → y.nodes = [] → y.fail = none → y.backs = [] → 0 < n →
    (∀ k, k < n → s.readVirt ioUnit ctx ((y.word 1 % 2 ^ 48 + 64 * k) % 2 ^ 48) 64 = .ok (record k)) →
    let fails := fun (status k : Nat) => ∃ t, exec (.cmdGraph ctx q texts) s = .next t ∧ t.mem = s.mem
      ∧ (t.queue ctx q).fail = some (status, k) ∧ (t.queue ctx q).done = true ∧ (t.queue ctx q).nodes = []
    (∀ k, k < n → (∀ j, j < k → good j = true) → good k = false → fails 2 k)
    ∧ ((∀ k, k < n → good k = true) →
      (∀ k, k < n → (∀ j, j < k → s.nodeCheck ctx (node j) = 0) → s.nodeCheck ctx (node k) ≠ 0 → fails (s.nodeCheck ctx (node k)) k)
      ∧ ((∀ k, k < n → s.nodeCheck ctx (node k) = 0) → (∃ k, k < n ∧ (node k).npred = 0) →
          let u := ((List.range n).filterMap fun k => Tab.find texts k).foldl (fun u x => u.relocate ctx x) s
          ∃ t, exec (.cmdGraph ctx q texts) s = .next t ∧ t = { u with ctxs := t.ctxs }
            ∧ t.queue ctx q = { y with nodes := (List.range n).map node })))
  ∧ (∀ (ctx : Nat) (n : Node) (x : Text) (r : Reloc) (s : State), let g := (s.gridCheck ctx n.desc).2
    n.kind = 0 → (s.gridCheck ctx n.desc).1 = 0 → n.text = some x → r ∈ x.recs →
    (r.kind ≠ 1 ∧ r.kind ≠ 2) ∨ (r.kind = 1 ∧ (g.h ≤ r.row ∨ g.w ≤ r.col))
      ∨ (r.kind = 2 ∧ (48 ≤ r.col ∨ Tab.find s.pkg.l2p (48 * r.row + r.col) = none)) →
    s.nodeCheck ctx n = 6)
  ∧ (∀ (ctx : Nat) (n : Node) (x : Text) (s : State), n.kind = 1 → n.text = some x → x.front = false → s.nodeCheck ctx n = 9)
  ∧ (∀ (ctx pa site : Nat) (x : Text) (r : Reloc) (s : State), x.recs = [r] → r.kind = 2 → Tab.find s.pkg.l2p (48 * r.row + r.col) = some site →
    s.xlateNow ioUnit ctx ((x.base + r.off + 12) % 2 ^ 48) .fetch = .hit pa → pa % 4 = 0 → (∀ j, j < 2 → ownLine s (s.ctx ctx).key (pa + j)) →
    Memory.wf s.mem = true →
    leVal (readCells (s.relocate ctx x).mem pa 2) = site % 64 + 64 * (site / 64 % 64) + 4096 * (leVal (readCells s.mem pa 2) / 4096)
      ∧ ∀ a, a < pa ∨ pa + 2 ≤ a → readCell (s.relocate ctx x).mem a = readCell s.mem a)
  ∧ ∀ (ctx q pa : Nat) (s : State), let y := s.queue ctx q
    let c := s.ctx ctx
    let va := (c.crbase + 16 * (c.crtail % 2 ^ (8 + c.crlog))) % 2 ^ 48
    let status := (y.fail.getD (0, 0)).1
    let record := leBytes 8 y.seq ++ leBytes 4 (y.word 0 / 2 ^ 32) ++ leBytes 1 status ++ leBytes 2 (y.fail.getD (0, 0)).2 ++ [0#8]
    y.done = true → y.cmd ≠ 0 → (c.crtail + 2 ^ 32 - c.crhead) % 2 ^ 32 < 2 ^ (8 + c.crlog) → c.crbase % 16 = 0 → pa % 16 = 0 →
    s.xlateNow ioUnit ctx va .write = .hit pa → (s.xlateNow ioUnit ctx (va - va % 65536) .write).code = 0 →
    (∀ j, j < 16 → ownLine s c.key (pa + j)) → Memory.wf s.mem = true →
    ∃ t, exec (.completionRecordWrite ctx q) s = .next t
      ∧ (∀ a, readCell t.mem a = if pa ≤ a ∧ a < pa + 16 then nth 0#8 record (a - pa) else readCell s.mem a)
      ∧ (t.ctx ctx).crtail = (c.crtail + 1) % 2 ^ 32 ∧ (t.queue ctx q).cmd = 0 ∧ (t.queue ctx q).done = false
      ∧ ((t.queue ctx q).stopped = true ↔ y.fail ≠ none)
      ∧ t.pkg.msix = if ctx ∈ s.pkg.msixMask then s.pkg.msix else s.pkg.msix ++ [ctx]

/-- R262 to R265, R298, R300, R316, R71: a node that its arrivals start runs: its result word takes its initial value and its tensor entries are
read anew, once the instances of its text are placed, with the blocks of a grid or the rows of a frontier launch still to end; a node whose arrivals were all skipped is skipped. A node that has
done its work sends a taken arrival to the successor of its condition and a skipped one to the other, and its tensor entries go. It is stated where no back edge waits. When a
graph with loops ends, and how rows become parts, are the model's reading (assumptions 58, 60, 61 and 62). -/
def Obligations.GraphNodesStartAndComplete : Prop :=
  (∀ (ctx q node : Nat) (insts : List Placed) (s : State), let y := s.queue ctx q
    let x := y.node node
    let runs := fun (u : State) (left : Nat → Prop) => ∃ t, exec (.nodeStart ctx q node insts) s = .next t ∧ t.mem = u.mem ∧ t.groups = s.groups
      ∧ ((t.queue ctx q).node node).st = 1 ∧ ((t.queue ctx q).node node).r = x.rinit ∧ left ((t.queue ctx q).node node).left
      ∧ (∀ m, m ≠ node → (t.queue ctx q).node m = y.node m) ∧ (t.ctx ctx).started = true
      ∧ ∀ e, e ∈ (t.ctx ctx).ttent ↔ e ∈ (s.ctx ctx).ttent ∧ e.1 / ttKey 0 1 0 0 ≠ q * 65536 + node
    y.cmd = 1 → y.done = false → y.fail = none → y.backs = [] → node < y.nodes.length → x.st = 0 → x.npred ≤ x.taken + x.skipped →
    (0 < x.npred → x.taken = 0 → ∃ t, exec (.nodeStart ctx q node insts) s = .next t ∧ t = { s with ctxs := t.ctxs }
      ∧ ((t.queue ctx q).node node).st = 2
      ∧ (∀ d, d = x.succ0 → d ≠ x.succ1 → d ≠ 0xFFFF → node < d → d < y.nodes.length →
          (t.queue ctx q).node d = { y.node d with skipped := (y.node d).skipped + 1 }))
    ∧ (x.npred = 0 ∨ 0 < x.taken →
      (∀ g u, x.kind = 0 → s.gridCheck ctx x.desc = (0, g) → g.pgt = 0 → State.placeAll ctx g.w x.text insts s = some u →
          runs u fun left => left = g.x * g.y * g.z * g.h * g.w)
      ∧ (∀ w u, x.kind = 1 → s.frontCheck ctx x.desc = (0, w) →
          splits (sweepOf (nth 0#64 w 1).toNat (nth 0#64 w 2).toNat) 4 0 = true → State.placeAll ctx 1 x.text insts s = some u →
          runs u fun left => left = (sweepOf (nth 0#64 w 1).toNat (nth 0#64 w 2).toNat).nrows)
      ∧ (∀ u, x.kind = 2 → x.ntask = 0 → State.placeAll ctx 1 x.text insts s = some u → runs u fun left => left = 0)
      ∧ ∀ u, x.kind = 3 → State.placeAll ctx 1 x.text insts s = some u → runs u fun left => left = 0))
  ∧ ∀ (ctx q node : Nat) (s : State), let y := s.queue ctx q
    let x := y.node node
    let arrives := fun (n : Node) (taken : Bool) =>
      if taken then { n with taken := n.taken + 1 } else { n with skipped := n.skipped + 1 }
    s.nodeDone ctx q node = true → y.fail = none → y.backs = [] → node < y.nodes.length →
    (node < x.succ0 ∨ x.holds = false) → (node < x.succ1 ∨ x.holds = true) → x.succ0 ≠ x.succ1 →
    ∃ t, exec (.nodeCompletion ctx q node) s = .next t ∧ t.mem = s.mem ∧ t.groups = s.groups
      ∧ ((t.queue ctx q).node node).st = 2 ∧ ((t.queue ctx q).node node).r = x.r
      ∧ (∀ e, e ∈ (t.ctx ctx).ttent ↔ e ∈ (s.ctx ctx).ttent ∧ e.1 / ttKey 0 1 0 0 ≠ q * 65536 + node)
      ∧ (node < x.succ0 → x.succ0 < y.nodes.length → x.succ0 ≠ 0xFFFF →
          (t.queue ctx q).node x.succ0 = arrives (y.node x.succ0) x.holds)
      ∧ (node < x.succ1 → x.succ1 < y.nodes.length → x.succ1 ≠ 0xFFFF →
          (t.queue ctx q).node x.succ1 = arrives (y.node x.succ1) (!x.holds))

/-! ### The frontier store -/

/-- R309 to R312, R317 to R323: a running slot fires its lowest ready point; a completed point leaves the slot and its row word records it; START,
STOP, the retirement watchdog, SAVE, RESTORE, RESUME and RELEASE change the slot as their rules say, and a mirror takes the owner's word. The kinds of
the commands' addresses, and what retirement and RELEASE tell others, are the model's reading (assumptions 64, 65 and 73). -/
def Obligations.FrontierSlotsFireRecordAndObey : Prop :=
  (∀ (w : Word) (x y : Nat), rowCount w ≤ 4096 → rowCount w ≤ x → x ≤ rowCount w + 16 →
    pointDone (rowRecord w x) y = (pointDone w y || y == x))
  ∧ (∀ (x : Front) (lin : Nat), let n := x.sweep.inner
    x.nextPoint = some lin → x.owns (lin / n) = true ∧ x.pointReady (lin / n) (lin % n) = true
      ∧ ∀ m, m < lin → x.owns (m / n) = true → x.pointReady (m / n) (m % n) = false)
  ∧ (∀ (die fid : Nat) (s : State), let x := s.front die fid
    die < s.dies.length → fid < (s.die die).fronts.length →
    (∀ lin, x.st = 1 → x.pts.length < 64 → x.nextPoint = some lin → ∃ t, exec (.pointFire die fid) s = .next t ∧ t.mem = s.mem
      ∧ t.front die fid = { x with pts := x.pts ++ [{ lin := lin }] })
    ∧ (∀ p ∈ x.pts, 1 ≤ x.st → x.st ≤ 3 → p.ended = true → ∃ t, exec (.pointCompletion die fid p.lin) s = .next t ∧ t.mem = s.mem
      ∧ (t.front die fid).pts = x.pts.filter (fun z => z.lin != p.lin)
      ∧ ∀ r, Tab.get 0#32 (t.front die fid).rows r = if r = p.lin / x.sweep.inner then
          rowRecord (Tab.get 0#32 x.rows r) (p.lin % x.sweep.inner) else Tab.get 0#32 x.rows r)
    ∧ (x.st = 2 → x.expired = false → x.due ≤ s.pkg.wtime → ∃ t, exec (.frontierRetirementExpiry die fid) s = .next t ∧ t.mem = s.mem
      ∧ (t.front die fid).expired = true ∧ (t.front die fid).pts = x.pts
      ∧ t.pkg.log = s.pkg.log ++ [⟨"frontier-preempt", [die, fid] ++ x.pts.filterMap (·.team)⟩])
    ∧ ∀ row w, 1 ≤ x.st → x.st ≤ 4 → row ∈ x.haloRows → s.ownerWord x row = some w →
      ∃ t, exec (.mirrorUpdate die fid row) s = .next t ∧ t.mem = s.mem ∧ (t.front die fid).rows = x.rows
        ∧ ∀ r, Tab.find (t.front die fid).mirror r = if r = row then some w else Tab.find x.mirror r)
  ∧ ∀ (die : Nat) (w0 : DWord) (s : State), let fid := w0.toNat / 2 ^ 56 % 16
    let x := s.front die fid
    let ctx := w0.toNat / 2 ^ 50 % 64
    let addr := w0.toNat % 2 ^ 48
    let w1 := (s.die die).frcmd.toNat
    let ignored := fun (i : Instr) => ∃ t, exec i s = .next t ∧ t.mem = s.mem ∧ (t.front die fid).cause = 5
      ∧ (t.front die fid).rows = x.rows ∧ (t.front die fid).pts = x.pts
    die < s.dies.length → fid < (s.die die).fronts.length →
    (w0.toNat / 2 ^ 60 = 1 → x.st = 0 →
      (∀ w, s.frontCheck ctx addr = (0, w) →
        (sweepOf (nth 0#64 w 1).toNat (nth 0#64 w 2).toNat).partFits (w1 % 2 ^ 14) (w1 / 2 ^ 14 % 2 ^ 14) = true →
        ∃ t, exec (.frontierStart die w0) s = .next t ∧ t.mem = s.mem ∧ (t.front die fid).st = 1 ∧ (t.front die fid).ctx = ctx
          ∧ (t.front die fid).words = w.take 6 ∧ (t.front die fid).rfirst = w1 % 2 ^ 14 ∧ (t.front die fid).rlast = w1 / 2 ^ 14 % 2 ^ 14
          ∧ (t.front die fid).pts = [] ∧ ∀ r, Tab.get 0#32 (t.front die fid).rows r = 0#32)
      ∧ ((s.frontCheck ctx addr).1 ≠ 0 → ∃ t, exec (.frontierStart die w0) s = .next t ∧ (t.front die fid).st = 5 ∧ (t.front die fid).cause = 1))
    ∧ (x.st ≠ 0 → ignored (.frontierStart die w0))
    ∧ (x.st = 1 → let kept := x.pts.filter fun p => p.team.isSome || p.ended || p.saved
      let limit := w1 / 2 ^ 32 % 2 ^ 16
      ∃ t, exec (.frontierStop die w0) s = .next t ∧ t.mem = s.mem ∧ (t.front die fid).pts = kept
        ∧ (t.front die fid).due = s.pkg.wtime + 1000 * (if limit = 0 then 100 else limit)
        ∧ ((∃ p ∈ kept, p.saved = false) → (t.front die fid).st = 2) ∧ ((∀ p ∈ kept, p.saved = true) → 3 ≤ (t.front die fid).st))
    ∧ (x.st ≠ 1 → ignored (.frontierStop die w0))
    ∧ (x.st = 3 → ∃ t, exec (.frontierSave die w0) s = .next t ∧ t.front die fid = {}
      ∧ t.mem = (s.writeAs (s.ctx x.ctx).key (addr / 64 * 64) x.image).mem)
    ∧ (x.st ≠ 3 → ignored (.frontierSave die w0) ∧ ignored (.frontierResume die w0))
    ∧ (x.st = 0 → (∀ y, s.frontImage ctx (addr / 64 * 64) = some y → ∃ t, exec (.frontierRestore die w0) s = .next t ∧ t.mem = s.mem
        ∧ 3 ≤ (t.front die fid).st ∧ (t.front die fid).words = y.words ∧ (t.front die fid).rows = y.rows ∧ (t.front die fid).pts = y.pts
        ∧ (t.front die fid).rfirst = y.rfirst ∧ (t.front die fid).rlast = y.rlast)
      ∧ (s.frontImage ctx (addr / 64 * 64) = none → ∃ t, exec (.frontierRestore die w0) s = .next t ∧ t.mem = s.mem
        ∧ t.front die fid = { cause := 3 }))
    ∧ (x.st = 3 → ∃ t, exec (.frontierResume die w0) s = .next t ∧ t.mem = s.mem ∧ (t.front die fid).rows = x.rows
      ∧ (t.front die fid).pts = x.pts ∧ (x.pts ≠ [] → (t.front die fid).st = 1)
      ∧ ∀ r ∈ x.haloRows, ∀ w, s.ownerWord x r = some w → Tab.find (t.front die fid).mirror r = some w)
    ∧ (x.st = 4 ∨ x.st = 5 → ∃ t, exec (.frontierRelease die w0) s = .next t ∧ t.mem = s.mem ∧ t.front die fid = {})

/-! ### Pre-emption -/

/-- R383, R339, R341: STOP puts the request with its image and its watchdog onto the bound team, and makes a speculative context pending; a team whose
groups have all stopped leaves its core with its registers kept and nothing saved yet, and so does every team of a pending context at its commit
point; an expired watchdog ends the context or starts anew. The limit that an extended watchdog gets, and 0 for the default, are the model's choice
(assumption 50). -/
def Obligations.StopsAndWatchdogs : Prop :=
  (∀ (w0 : DWord) (s : State), let u := s.pkg.prcmd.toNat % 2 ^ 15
    let x := s.team u
    let c := s.ctx x.ctx
    let limit := s.pkg.prcmd.toNat / 2 ^ 32 % 2 ^ 16
    let due := s.pkg.wtime + 1000 * (if limit = 0 then (if c.spec then s.pkg.commitUs else 1000) else limit)
    x.bound = true → x.done = false → w0.toNat / 2 ^ 60 = 1 →
    ∃ t, exec (.stop w0) s = .next t ∧ t = { s with teams := t.teams, ctxs := t.ctxs }
      ∧ t.team u = { x with stop := some { image := w0.toNat % 2 ^ 48 / 4096 * 4096, due := due } }
      ∧ ∀ k, t.ctx k = if k = x.ctx ∧ c.spec = true ∧ c.pending = none then { c with pending := some due } else s.ctx k)
  ∧ (∀ (u : Nat) (r : StopSt) (s : State), let x := s.team u
    x.bound = true → x.stop = some r → (s.ctx x.ctx).spec = false → (∀ k, k ≤ x.desc.team → s.groupStopped (u + k) = true) →
    s.enginesDone u = true → s.teamStored u = true →
    ∃ t p, exec (.teamStopped u) s = .next t ∧ t.mem = s.mem ∧ (t.team u).bound = false ∧ p ∈ t.parked ∧ p.gid0 = u ∧ p.image = r.image
      ∧ p.saved = [] ∧ p.groups.length = x.desc.team + 1
      ∧ ∀ k, k ≤ x.desc.team → (nth {} p.groups k).v = (s.grp (u + k)).v ∧ (nth {} p.groups k).s = (s.grp (u + k)).s
          ∧ (nth {} p.groups k).p = (s.grp (u + k)).p)
  ∧ (∀ (u : Nat) (r : StopSt) (s : State), let x := s.team u
    x.bound = true → x.stop = some r → (s.ctx x.ctx).spec = false → r.due ≤ s.pkg.wtime →
    (∃ t, exec (.stopWatchdogExpiry u false) s = .next t ∧ t.mem = s.mem
      ∧ t.team u = { x with stop := some { r with due := s.pkg.wtime + 1000000 } }
      ∧ t.pkg.log = s.pkg.log ++ [⟨"stop-watchdog", [u]⟩])
    ∧ ∃ t, exec (.stopWatchdogExpiry u true) s = .next t ∧ t.mem = s.mem ∧ ∀ e ∈ t.teams, e.2.ctx ≠ x.ctx)
  ∧ ∀ (ctx : Nat) (s : State), let c := s.ctx ctx
    (c.spec = true → c.pending.isSome = true → (∀ g ∈ s.groupsOf ctx, s.atCommit g = true) →
      (∀ e ∈ s.teams, e.2.bound = true → e.2.done = false → e.2.ctx = ctx →
        s.enginesDone e.1 = true ∧ s.teamStored e.1 = true ∧ (s.team e.1).stop.isSome = true) →
      ∃ t, exec (.commitPointSave ctx) s = .next t ∧ t.mem = s.mem ∧ (t.ctx ctx).pending = none
        ∧ ∀ e ∈ s.teams, e.2.bound = true → e.2.done = false → e.2.ctx = ctx → (t.team e.1).bound = false ∧ ∃ p ∈ t.parked, p.gid0 = e.1)
    ∧ ∀ due, c.pending = some due → due ≤ s.pkg.wtime →
      (∃ t, exec (.commitWatchdogExpiry ctx false) s = .next t ∧ t.mem = s.mem ∧ t.teams = s.teams
        ∧ t.ctx ctx = { c with pending := some (s.pkg.wtime + 1000 * s.pkg.commitUs) })
      ∧ ∃ t, exec (.commitWatchdogExpiry ctx true) s = .next t ∧ t.mem = s.mem ∧ ∀ e ∈ t.teams, e.2.ctx ≠ ctx

/-- R385, R386, R388, R290: FLUSH saves every granule of the team that INDEX names and that stopped last under it, and the core's constant store with the last of its launch there; RESTORE through a pool's record binds a stopped team in the storage that it
left, with its registers as they were where none has been saved; RESUME withdraws a stop that has not taken effect and ends the team's debug halt. V
of the header, and how a restore waits for its storage, are the model's reading (assumptions 52, 53 and 54). -/
def Obligations.FlushRestoreAndResume : Prop :=
  (∀ (w0 : DWord) (k : Nat) (p : Parked) (s : State), s.parked[k]? = some p → p.gid0 = s.pkg.prcmd.toNat % 2 ^ 15 →
    (s.team p.gid0).bound = false → (∀ j q, k < j → s.parked[j]? = some q → q.gid0 ≠ p.gid0) →
    ∃ t q, exec (.flush w0) s = .next t ∧ t.teams = s.teams ∧ t.groups = s.groups ∧ t.parked[k]? = some q ∧ q.image = p.image
      ∧ q.team = p.team ∧ q.groups = p.groups ∧ (∀ g ∈ p.all, g ∈ q.saved) ∧ (s.ownsKst k p = true → .kst ∈ q.saved) ∧ ∀ j, j ≠ k → t.parked[j]? = s.parked[j]?)
  ∧ (∀ (w0 : DWord) (k : Nat) (p : Parked) (s : State), let idx := s.pkg.prcmd.toNat % 2 ^ 15
    let image := w0.toNat % 2 ^ 48 / 4096 * 4096
    let b := s.bind idx
    b.v = true → b.kind ≠ 0 → b.st = 1 → s.coreUp (idx / 16) = true → (b.eclass = 3 → (s.die (bindDie idx)).shut = false) →
    s.parkedHere idx image = some (k, p) → p.saved = [] →
    (headerOfImage (s.restoreHeader idx image)).fits b idx = true → (∀ u ∈ s.usedOn (idx / 16), p.team.place.meets u = false) →
    s.kstFree (idx / 16) p.team.launch = true →
    ∃ t, exec (.restore w0) s = .next t ∧ (t.team p.gid0).bound = true ∧ (t.team p.gid0).stop = none ∧ (t.team p.gid0).ridx = idx
      ∧ ∀ n, n < p.groups.length → (t.grp (p.gid0 + n)).v = (nth {} p.groups n).v ∧ (t.grp (p.gid0 + n)).s = (nth {} p.groups n).s
          ∧ (t.grp (p.gid0 + n)).role = (nth {} p.groups n).role ∧ (t.grp (p.gid0 + n)).team = p.gid0)
  ∧ ∀ (w0 : DWord) (s : State), let u := s.pkg.prcmd.toNat % 2 ^ 15
    let x := s.team u
    x.bound = true → (s.ctx x.ctx).spec = false →
    ∃ t, exec (.resume w0) s = .next t ∧ t.mem = s.mem ∧ t.team u = { x with stop := none }
      ∧ (∀ e ∈ t.groups, e.2.bound = true → e.2.team = u → e.2.halted = false)
      ∧ ∀ g, (t.grp g).v = (s.grp g).v ∧ (t.grp g).s = (s.grp g).s

/-! ### The network -/

/-- R302, R303, R336 to R338, R409: a commit that an entry takes replaces its words but for the bits that are zero; the engine's events move the state
of a connection; a reading sends a prefix of the new tokens, ends at the first stop string, and holds back at most HOLD tokens that begin one; a segment
moves the TCP words of a connection that the engine runs, and closes one whose FIN it acknowledges; and a frame, but for a segment without payload, lies in the ring of its port with its length, its mark and the
time. The malformed header as a fault, the windows, the measured times and the count of readings are the model's choice (assumptions 70, 71 and 72). -/
def Obligations.ConnectionsStreamAndReceive : Prop :=
  (∀ (conn : Nat) (w0 : DWord) (s : State), let x := s.conn conn
    let new := fun n => if n = 0 then w0.toNat else (Tab.get (Tab.get 0#64 x.w n) x.staged n).toNat
    let st := w0.toNat / 2 ^ 60 % 8
    let takes := conn < 65536 ∧ (x.st ≤ 1 ∨ x.st = 5 ∨ x.st = 6) ∧ (st = 1 ∨ st = 2) ∧ w0.toNat / 2 ^ 56 % 4 ≤ 1 ∧ new 15 / 2 ^ 16 % 32 ≤ 16
    (takes → ∃ t, exec (.connectionCommit conn w0) s = .next t ∧ t = { s with conns := t.conns } ∧ (∀ d, d ≠ conn → t.conn d = s.conn d)
      ∧ (t.conn conn).staged = [] ∧ (t.conn conn).st = st
      ∧ ∀ n, n < 19 → (t.conn conn).word n = Nat.land (new n) (connMask (w0.toNat / 2 ^ 56 % 4) n))
    ∧ (¬takes → ∃ t, exec (.connectionCommit conn w0) s = .next t ∧ t.conns = s.conns))
  ∧ (∀ (conn : Nat) (s : State), let x := s.conn conn
    let rto := x.word 17 % 2 ^ 32
    let moved := fun (t : State) (st : Nat) => t = { s with conns := t.conns }
      ∧ (∀ d, d ≠ conn → t.conn d = s.conn d) ∧ (t.conn conn).st = st ∧ ∀ n, n ≠ 0 → n ≠ 5 → (t.conn conn).word n = x.word n
    let failed := fun t : State => moved t 6 ∧ (t.conn conn).word 5 = x.word 5
    (x.st = 4 → x.fin = false → ∃ t, exec (.finAcked conn) s = .next t ∧ moved t 5
      ∧ (t.conn conn).sndNxt = x.sndNxt ∧ (t.conn conn).sndUna = x.sndNxt)
    ∧ (2 ≤ x.st → x.st ≤ 4 → (∃ t, exec (.rstReceived conn) s = .next t ∧ failed t)
        ∧ (∃ t, exec (.retransmissionTimeout conn true) s = .next t ∧ failed t)
        ∧ ∃ t, exec (.retransmissionTimeout conn false) s = .next t ∧ t = { s with conns := t.conns } ∧ (∀ d, d ≠ conn → t.conn d = s.conn d)
          ∧ (∀ n, n < 17 → (t.conn conn).word n = x.word n)
          ∧ (t.conn conn).word 17 % 2 ^ 32 = min (2 * (if rto = 0 then 10 ^ 6 else rto)) (2 ^ 32 - 1) ∧ (t.conn conn).cwnd = x.mss))
  ∧ (∀ (ss : List (List Nat)) (hold next nslot : Nat) (ts : List Nat), let d := sending ss hold next nslot ts
    let ends := fun (j : Nat) (x : List Nat) => x ∈ ss ∧ x ≠ [] ∧ j ≤ ts.length ∧ x.length ≤ j ∧ (ts.take j).drop (j - x.length) = x
    d.send <+: ts
    ∧ (∀ j x, ends j x → (∀ i y, i < j → ¬ends i y) → (∀ y, ends j y → y.length ≤ x.length) →
        d.fin = true ∧ d.pass = j ∧ d.send = ts.take (j - x.length))
    ∧ ((∀ j x, ¬ends j x) → nslot ≤ next + ts.length → d.fin = true ∧ d.send = ts ∧ d.pass = ts.length)
    ∧ ((∀ j x, ¬ends j x) → next + ts.length < nslot → d.fin = false ∧ d.pass = d.send.length ∧ ts.length ≤ d.send.length + hold
        ∧ (d.send ≠ ts → ∃ x ∈ ss, ts.drop d.send.length <+: x)))
  ∧ (∀ (conn records : Nat) (s : State), let x := s.conn conn
    let y := { x with due := x.due - 1, hand := x.hand + 1 }
    0 < x.due → x.st = 2 ∨ x.st = 3 →
    (∀ z, s.readBlock y records = some z → ∃ t, exec (.streamAfterFin conn records) s = .next t ∧ t.mem = s.mem ∧ t.conn conn = z)
    ∧ (s.readBlock y records = none → ∃ t, exec (.streamAfterFin conn records) s = .next t ∧ t.mem = s.mem ∧ (t.conn conn).st = 6
        ∧ (t.conn conn).sent = x.sent))
  ∧ ∀ (port : Nat) (bytes : List Byte) (s u : State), let half := s.portHalf port
    let f := readFrame bytes
    let n := nth 0 s.pkg.rxTail port
    let size := 2 ^ byteAt half 36
    let slot := (leVal ((half.drop 28).take 8) + 16384 * (n % size)) % 2 ^ 48
    let record := fun c : Nat => leBytes 4 bytes.length ++ leBytes 4 c ++ leBytes 8 s.pkg.wtime ++ bytes
    port < 2 → s.pkg.netcfg ≠ [] → f.frag = false → 14 ≤ bytes.length → bytes.length ≤ leVal ((half.drop 6).take 2) + 14 →
    (s.connFor port f = none → n < size → { s with fresh := s.fresh + 8 }.writeVirt ioUnit s.pkg.netctx slot (record (2 ^ 32 - 1)) = .ok u →
      ∃ t, exec (.segmentReceive port none bytes) s = .next t ∧ t.mem = u.mem ∧ t.conns = u.conns
        ∧ (port < s.pkg.rxTail.length → nth 0 t.pkg.rxTail port = n + 1))
    ∧ ∀ c, s.connFor port f = some c → let x := s.conn c
      let moved := fun t : State => (∀ d, d ≠ c → t.conn d = s.conn d) ∧ ((x.st < 2 ∨ 4 < x.st) → t.conn c = x) ∧ (2 ≤ x.st → x.st ≤ 4 →
        (t.conn c).st = (if x.st = 4 ∧ x.fin = false ∧ (t.conn c).flight = 0 then 5 else x.st)
        ∧ (t.conn c).rcvNxt = (if f.seq = x.rcvNxt then (x.rcvNxt + f.load + f.fin.toNat) % 2 ^ 32 else x.rcvNxt)
        ∧ (f.acks = true → seqApart f.ack x.sndUna ≤ x.flight → (t.conn c).sndUna = f.ack % 2 ^ 32 ∧ (t.conn c).sndWnd = f.wnd % 2 ^ 16))
      (f.load = 0 → ∃ t, exec (.segmentReceive port (some c) bytes) s = .next t ∧ moved t ∧ t.mem = s.mem)
      ∧ (f.load ≠ 0 → n < size →
          ({ s with fresh := s.fresh + 8 }.setConn c (x.segment f s.fresh)).writeVirt ioUnit s.pkg.netctx slot (record c) = .ok u →
          ∃ t, exec (.segmentReceive port (some c) bytes) s = .next t ∧ moved t ∧ t.mem = u.mem
            ∧ (port < s.pkg.rxTail.length → nth 0 t.pkg.rxTail port = n + 1))

/-! ### The host port, boot and failures -/

/-- R399 to R408, R202, R328, R409: each mailbox command that waits ends with STATUS 0 and its effect where its words are good, and with STATUS 1
where its context does not exist; a doorbell or a completion head within its ring is taken, and another one is ignored; an access through the aperture
reads or writes the context's memory, and a read that faults answers all ones; configuration requests answer Retry Status until firmware runs. The
access that passes its context's aperture, the offsets of commands, the permissions and frames of MAP, and what DESTROY drops are the model's choice (assumptions 66, 67, 68 and 69). -/
def Obligations.HostCommandsAndAperture : Prop :=
  (∀ (s : State), let w := s.mbWord
    let c := s.mbCtx
    let done := fun (i : Instr) (status : Nat) (P : State → Prop) => ∃ t, exec i s = .next t ∧ t.pkg.mbBusy = false
      ∧ t.pkg.mbStatus = status ∧ P t
    let has := fun cmd : Nat => s.pkg.mbBusy = true ∧ w 0 % 2 ^ 8 = cmd
    let q := w 1 / 2 ^ 8 % 2 ^ 4
    (∀ root, has 1 → s.createGood = true → (s.ctx c).live = false → s.frameOk root (2 ^ 17) = true →
      done (.create root) 0 fun t => (t.ctx c).live = true ∧ (t.ctx c).key = w 1 / 2 ^ 6 % 2 ^ 10 ∧ (t.ctx c).mode = w 1 / 2 ^ 16 % 2 ^ 3
        ∧ (t.ctx c).root = root ∧ (t.ctx c).queues = [] ∧ (t.ctx c).rkey = BitVec.ofNat 64 (w 3) ∧ (t.ctx c).ttbase = w 4
        ∧ (t.ctx c).tvec = BitVec.ofNat 64 (w 5) ∧ (t.ctx c).hapbase = w 6 ∧ ∀ d, d ≠ c → t.ctx d = s.ctx d)
    ∧ (∀ root, has 1 → s.createGood = false → done (.create root) 1 fun t => t.ctxs = s.ctxs)
    ∧ ((s.ctx c).live = false → ∀ (i : Instr) (cmd : Nat), (i, cmd) = (.destroy, 2) ∨ (i, cmd) = (.queue, 3) ∨ (i, cmd) = (.rule, 4)
        ∨ (i, cmd) = (.netcfg, 5) ∨ (i, cmd) = (.attest, 6) ∨ (i, cmd) = (.manifest, 7) ∨ (∃ frames tables, (i, cmd) = (.map frames tables, 8)) →
        has cmd → done i 1 fun t => t.mem = s.mem ∧ t.ctxs = s.ctxs)
    ∧ ((s.ctx c).live = true →
      (has 2 → done .destroy 0 fun t => (t.ctx c).live = false ∧ ∀ e ∈ t.teams, e.2.ctx ≠ c)
      ∧ (has 3 → 4 ≤ w 1 / 2 ^ 16 % 2 ^ 5 → w 1 / 2 ^ 16 % 2 ^ 5 ≤ 16 →
          w 2 % 4096 = 0 → w 2 < 2 ^ 48 → (s.queue c q).cmd = 0 →
          done .queue 0 fun t => t.queue c q = { set := true, log := w 1 / 2 ^ 16 % 2 ^ 5, ring := w 2 }
            ∧ ∀ r, r ≠ q → t.queue c r = s.queue c r)
      ∧ (has 4 → ruleGood (w 2) = true → (∀ e ∈ (s.ctx c).queues, e.2.cmd = 0 ∨ e.2.done = true) →
          done .rule 0 fun t => ∀ n, Tab.get 0#64 (t.ctx c).rules n = if n = q then BitVec.ofNat 64 (w 2) else Tab.get 0#64 (s.ctx c).rules n)
      ∧ (∀ bs, has 5 → w 2 % 256 = 0 → w 2 / 2 ^ 30 = c → (∀ e ∈ s.conns, e.2.st < 2 ∨ 4 < e.2.st) → s.hostRead (w 2) 256 = some bs →
          portGood (bs.take 128) = true → portGood (bs.drop 128) = true →
          done .netcfg 0 fun t => t.pkg.netcfg = bs.take 37 ++ List.replicate 91 0#8 ++ (bs.drop 128).take 37 ++ List.replicate 91 0#8 ∧ t.pkg.netctx = c ∧ t.mem = s.mem)
      ∧ (∀ u, has 6 → w 6 / 2 ^ 30 = c → let body := s.reportBody ((List.range 4).flatMap fun n => leBytes 8 (w (2 + n)))
          { s with fresh := s.fresh + 8192 }.hostWrite (w 6) (body ++ identitySign (s.fresh + 4096) body) = some u →
          done .attest 0 fun t => t.mem = u.mem)
      ∧ (∀ m u, has 7 → w 2 / 2 ^ 30 = c → w 3 / 2 ^ 30 = c → s.readManifest (w 2) = some m →
          { s with fresh := s.fresh + 4096 }.hostWrite (w 3) (leBytes 8 (s.compare m) ++ leBytes 8 0) = some u →
          done .manifest 0 fun t => t.mem = u.mem)
      ∧ ∀ frames tables u, let tier := (w 1).testBit 8
          let clean := if tier then frames.foldl (State.zeroTier (s.ctx c).key) s else s
          has 8 → w 2 % 65536 = 0 → 0 < w 3 → w 2 + 65536 * w 3 ≤ 2 ^ 48 →
          (∀ k, k < w 3 → s.isMapped c (w 2 + 65536 * k) = false) → frames.length = w 3 → frames.all (s.pageOk tier) = true →
          State.mapPages c tier (((List.range (w 3)).map fun k => w 2 + 65536 * k).zip frames) clean tables = some u →
          done (.map frames tables) 0 fun t => t.mem = u.mem ∧ (t.ctx c).maps = (u.ctx c).maps ++ [(w 2 / 65536, w 3)]))
  ∧ (∀ (ctx q : Nat) (tail v : Word) (s : State), let y := s.queue ctx q
    let c := s.ctx ctx
    (c.live = true → y.set = true → (tail.toNat + 2 ^ 32 - y.head) % 2 ^ 32 ≤ 2 ^ y.log →
      ∃ t, exec (.doorbellWrite ctx q tail) s = .next t ∧ t = { s with ctxs := t.ctxs } ∧ t.queue ctx q = { y with tail := tail.toNat })
    ∧ (2 ^ y.log < (tail.toNat + 2 ^ 32 - y.head) % 2 ^ 32 → ∃ t, exec (.doorbellWrite ctx q tail) s = .next t ∧ t.ctxs = s.ctxs)
    ∧ (c.live = true → (c.crtail + 2 ^ 32 - v.toNat) % 2 ^ 32 ≤ 2 ^ (8 + c.crlog) →
      ∃ t, exec (.crheadWrite ctx v) s = .next t ∧ t = { s with ctxs := t.ctxs } ∧ t.ctx ctx = { c with crhead := v.toNat })
    ∧ (2 ^ (8 + c.crlog) < (c.crtail + 2 ^ 32 - v.toNat) % 2 ^ 32 → ∃ t, exec (.crheadWrite ctx v) s = .next t ∧ t.ctxs = s.ctxs))
  ∧ ∀ (off n : Nat) (bytes : List Byte) (s : State), let c := off / 2 ^ 30
    let va := ((s.ctx c).hapbase + off % 2 ^ 30) % 2 ^ 48
    let inside := fun n : Nat => off % 2 ^ 30 + n ≤ 2 ^ 30
    let readFaults := ∃ t, exec (.hostApertureRead off n) s = .next t ∧ t.mem = s.mem ∧ t.pkg.out = s.pkg.out ++ [List.replicate n 0xFF#8]
      ∧ t.pkg.log = s.pkg.log ++ [⟨"aperture-fault", [off, n]⟩]
    let writeFaults := ∃ t, exec (.hostApertureWrite off bytes) s = .next t ∧ t.mem = s.mem
      ∧ t.pkg.log = s.pkg.log ++ [⟨"aperture-fault", [off, bytes.length]⟩]
    (∀ bs, (s.ctx c).live = true → inside n → s.readVirt ioUnit c va n = .ok bs → ∃ t, exec (.hostApertureRead off n) s = .next t
      ∧ t = { s with pkg := { s.pkg with out := s.pkg.out ++ [bs] } })
    ∧ (∀ e, (s.ctx c).live = true → inside n → s.readVirt ioUnit c va n = .error e → readFaults)
    ∧ (∀ u, (s.ctx c).live = true → inside bytes.length → s.writeVirt ioUnit c va bytes = .ok u →
        ∃ t, exec (.hostApertureWrite off bytes) s = .next t ∧ t = u)
    ∧ (∀ e, (s.ctx c).live = true → inside bytes.length → s.writeVirt ioUnit c va bytes = .error e → writeFaults)
    ∧ ((s.ctx c).live = false ∨ ¬inside n → readFaults) ∧ ((s.ctx c).live = false ∨ ¬inside bytes.length → writeFaults)
    ∧ ∃ t, exec .configRequest s = .next t ∧ t = { s with pkg := { s.pkg with
        log := s.pkg.log ++ [⟨if s.pkg.retry then "config-retry-status" else "config-done", []⟩] } }

/-- R13, R25, R293 to R295, R401, R403, R410 to R412, R414, R415: a package reset clears the machine and its memory, maps the cores that self-test
passes, and begins the fetch; a fetch of a bundle that verifies ends in running firmware with the hash of that bundle, and any other in the next
target, in a wait or in a halt; the jobs that use a failed link end with
STATUS 5 at their first access that the link carries, the contexts that hold a page on a lost expander end, and a failed core is marked; a peer's
access is made on this device's memory, and where nothing is backed a read answers free bytes and a write changes nothing. The boot list and the
ROM's hash, the fields of the header, the jobs that a link ends and the memory of peers are the model's choice (assumptions 3, 34, 69, 75 and 76). -/
def Obligations.BootFailuresAndPeers : Prop :=
  (∀ (defects : List Site) (s : State), ∃ t, exec (.packageReset defects) s = .next t ∧ t.pkg.boot = .fetch 0 0 ∧ (∀ a, readCell t.mem a = 0#8)
    ∧ t.groups = [] ∧ t.teams = [] ∧ t.ctxs = [] ∧ t.binds = [] ∧ t.side = [] ∧ t.pkg.idkey = true ∧ t.pkg.retry = true ∧ t.pkg.twdog = 100
    ∧ (defects = [] → ∀ core, core < 1536 →
        Tab.find t.pkg.l2p core = some (64 * (core % 24 + 26 * (core / 24 % 2)) + core / 48)))
  ∧ (∀ (target round : Nat) (expanders : List Nat) (s : State), s.pkg.boot = .fetch target round →
    let fails := fun t : State => t.pkg.retry = s.pkg.retry ∧ t.pkg.fwhash = s.pkg.fwhash ∧ t.mem = s.mem
      ∧ (target + 1 < bootTargets → t.pkg.boot = .fetch (target + 1) round)
      ∧ (bootTargets ≤ target + 1 → round < 2 → t.pkg.boot = .wait round (s.pkg.wtime + 10 ^ 9))
      ∧ (bootTargets ≤ target + 1 → 2 ≤ round → t.pkg.boot = .halted)
    (∀ b : Bundle, ∃ t, exec (.bundleFetchDone (some b) expanders) s = .next t ∧
      if bundleGood romKeyHash b = true then t.pkg.boot = .running ∧ t.pkg.retry = false
        ∧ t.pkg.fwhash = sha256 (b.header ++ b.image ++ b.sig) ∧ t.pkg.faddr = b.faddr % 4096 ∧ t.mem = s.mem
        ∧ ∀ p, p < 4 → nth 0 t.pkg.expand p = nth 0 expanders p / 2 ^ 28 * 2 ^ 28
      else fails t)
    ∧ ∃ t, exec (.bundleFetchDone none expanders) s = .next t ∧ fails t)
  ∧ (∀ (root : List Byte) (b : Bundle), bundleGood root b = true → b.magic = [0x4A#8, 0x42#8, 0x34#8, 0x46#8] ∧ b.version = 1
    ∧ b.length ≤ 2 ^ 26 ∧ b.header.length = 64 ∧ b.image.length = b.length ∧ b.sig.length = 64
    ∧ sha256 (beBytes 32 b.keyX ++ beBytes 32 b.keyY) = root)
  ∧ (∀ (round due : Nat) (s : State), s.pkg.boot = .wait round due → due ≤ s.pkg.wtime →
    ∃ t, exec .bootRetryExpiry s = .next t ∧ t = { s with pkg := { s.pkg with boot := .fetch 0 (round + 1), log := t.pkg.log } })
  ∧ (∀ (link : Nat) (s : State), link < 18 → link ∉ s.pkg.links → ∃ t, exec (.linkFailure link) s = .next t
    ∧ t.pkg.links = s.pkg.links ++ [link]
    ∧ let uses := fun x : Job => x.started = true ∧ x.ended = false ∧ x.link = some link
      let units := fun x : Job => let k := cardOf x.words; k.rows * (k.len / 16)
      (∀ n x, Tab.find s.jobs n = some x → ¬uses x → Tab.find t.jobs n = some x)
      ∧ ((∀ n x, Tab.find s.jobs n = some x → uses x → x.moved < units x ∧ unitRemote s x (cardOf x.words) x.moved ≠ none) →
          t.mem = s.mem ∧ t.teams = s.teams
          ∧ ∀ n x, Tab.find s.jobs n = some x → uses x → ∃ y, Tab.find t.jobs n = some y
              ∧ y.status = 5 ∧ y.ended = true ∧ y.ctx = x.ctx ∧ y.moved = x.moved)
      ∧ ∀ n x u, Tab.find s.jobs n = some x → uses x → (∀ m y, m ≠ n → Tab.find s.jobs m = some y → ¬uses y) → x.moved ≤ u → u < units x →
          (∀ v, x.moved ≤ v → v < u → unitRemote s x (cardOf x.words) v = none) → unitRemote s x (cardOf x.words) u ≠ none →
          ∃ y, Tab.find t.jobs n = some y ∧ y.ended = true ∧ y.ctx = x.ctx ∧ y.moved ≤ u ∧ (y.status = 5 ∨ y.moved < u))
  ∧ (∀ (port : Nat) (s : State), port < 4 → ∃ t, exec (.expanderLoss port) s = .next t ∧ t.mem = s.mem
    ∧ t.pkg.expand = setNth 0 s.pkg.expand port
    ∧ ∀ e ∈ s.ctxs, s.holdsTier e.1 port = true → ∀ x ∈ t.teams, x.2.ctx ≠ e.1)
  ∧ (∀ (core p : Nat) (s : State), Tab.find s.pkg.l2p core = some p → ∃ t, exec (.coreFailure core) s = .next t ∧ t.mem = s.mem
    ∧ ∀ q, q ∈ t.pkg.down ↔ q = p ∨ q ∈ s.pkg.down)
  ∧ ∀ (key pa n : Nat) (bs : List Byte) (s : State),
    (pa < 2 ^ 48 → pa + n ≤ 512 * 10 ^ 9 → ∃ t, exec (.fledenlinkPeerAccess key pa n none) s = .next t
      ∧ t = { s with pkg := { s.pkg with out := s.pkg.out ++ [s.bytesAs key pa n] }, fresh := t.fresh })
    ∧ (pa < 2 ^ 48 → pa + bs.length ≤ 512 * 10 ^ 9 → pa % 64 + bs.length ≤ 64 → (∀ j, j < bs.length → ownLine s key (pa + j)) →
      Memory.wf s.mem = true → ∃ t, exec (.fledenlinkPeerAccess key pa n (some bs)) s = .next t
        ∧ (∀ a, readCell t.mem a = if pa ≤ a ∧ a < pa + bs.length then nth 0#8 bs (a - pa) else readCell s.mem a)
        ∧ (bs ≠ [] → (t.sideOf (pa / 64)).opn = false))
    ∧ (∃ t out, exec (.fledenlinkPeerAccess key pa n none) s = .next t ∧ t = { s with pkg := { s.pkg with out := s.pkg.out ++ [out] }, fresh := t.fresh }
        ∧ out.length = n ∧ ∀ i, i < n → s.backed (pa + i) 1 = true → nth 0#8 out i = s.byteAs key (pa + i))
    ∧ ((∀ i, i < bs.length → s.backed (pa + i) 1 = false) → bs ≠ [] → ∃ t, exec (.fledenlinkPeerAccess key pa n (some bs)) s = .next t ∧ t = s)

/-! ### Words, steps and reset -/

/-- R55, R58, R64, R69, R70, R74: the words that the spec writes out for `add`, `ld`, `ffma`, `mma`, `st`, `fork`, `slot.sc`, `pvt`, `bar`, `csr.r` and a clause header decode to
what they stand for. -/
def Obligations.WordsOfTheSpecDecode : Prop :=
  decode 0x10 0x0010000201053C81#128 = .instr (.add { d := 5#8, a := 1#8, b := 2#8, ty := 1#4 })
  ∧ decode 0x08 0x9000004006043EC1#128 = .instr (.ld { d := 4#8, a := 6#8, b := 0x40#8, ua := true, bi := true })
  ∧ decode 0 0x0070030201043D8D#128 = .instr (.ffma { d := 4#8, a := 1#8, b := 2#8, c := 3#8, ty := 7#4 })
  ∧ decode 0x10 0x009000010000BE41#128 = .instr (.mma { b := 1#8, ty := 9#4, fs := true })
  ∧ decode 0 0x000001005B00090004000AC6#128
      = .instr (.st { len := .l96, g := 2#4, a := 4#8, c := 9#8, mod := 0xB#4, ua := true, uc := true, imm := 0x100#32 })
  ∧ decode 0x08 0x800000000003000908003F42#128 = .instr (.fork { len := .l96, a := 8#8, b := 9#8, sub := 3#4, imm := 0x80000000#32 })
  ∧ decode 0 0x0000080204033F85#128 = .instr (.slotSc { d := 3#8, a := 4#8, b := 2#8, c := 8#8 })
  ∧ decode 0 0x20700006010A3F91#128 = .instr (.pvt { d := 10#8, a := 1#8, b := 6#8, ty := 7#4, ub := true })
  ∧ decode 0 0x8900000203013FA1#128 = .instr (.bar { d := 1#8, a := 3#8, b := 2#8, mod := 9#4, bi := true })
  ∧ decode 0 0x0000110000063FC1#128 = .instr (.csrR { d := 6#8, b := 0#8, c := 0x11#8 })
  ∧ decode 0 0x0000000394000001#128 = .header { av := true, seta := 0#4, bv := true, setb := 2#4, count := 3#5 }
  ∧ decode 0 0x0000000000003C00#128 = .bad 1

/-- R55 to R58, R64 to R72, R74: the encoder writes every well-formed instruction so that the decoder reads it back, at every offset where it fits its fetch
block; and the decoder gives none but well-formed instructions, whose encoding is the word read, up to its length. A header whose flags exist is
read back too. -/
def Obligations.DecodingInvertsEncoding : Prop :=
  (∀ (i : Instr) (f : Fields) (w : BitVec 128) (off : Nat), i.wf = true → fieldsOf i = some f → encode i = some w → off + f.len.bytes ≤ 32 →
    decode off w = .instr i)
  ∧ (∀ (i : Instr) (w : BitVec 128) (off : Nat), decode off w = .instr i → i.wf = true
    ∧ ∃ f x, fieldsOf i = some f ∧ encode i = some x ∧ off + f.len.bytes ≤ 32
      ∧ ∀ k, x.getLsbD k = (decide (k < 8 * f.len.bytes) && w.getLsbD k))
  ∧ ∀ (h : Header) (off : Nat), (h.bv = true → h.setb.toNat ≤ 11) → (h.av = true → h.seta.toNat ≤ 11) → off + 8 ≤ 32 →
    decode off ((encodeHeader h).setWidth 128) = .header h

/-- R37, R42, R43, R56, R59, R64, R270: a turn of a scheduler in which its first group stands with one path in a clause, at bytes of the cache that
decode to an instruction which is ready and raises nothing, is that instruction executed for the path; a sequencer's turn executes what the bytes at
its PC decode to; and the turn of an event executes the event: after the issues of the cycle, or, of bytes that land in a window, before them; one in
which firmware acts waits until it runs (R415). The passing of headers, the marks, the order of a turn and which events wait for firmware are the model's
reading (assumptions 1, 2, 6, 13, 14 and 83). -/
def Obligations.StepRunsTheDecodedInstruction : Prop :=
  (∀ (tn : Turn) (ts : List Turn) (core sched gid p : Nat) (rest : List Nat) (c : Clause) (i : Instr) (f : Fields) (bs : List Byte) (s : State),
    let u := ({ s with agenda := ts }.pass tn).takeTurn core sched
    let v := u.clearMarks gid
    let path := v.pathAt gid p
    let w := bs.drop (p % 32)
    let n := seqPc p f.len.bytes
    let x : Issue := {
      gid := gid, src := .lanes path.lanes, lanes := path.lanes, pc := p, len := f.len.bytes, hdr := c.hdr
      raw := BitVec.ofNat 128 (leVal (w.take 16)), left := if c.hdr.count = 0#5 then 0 else c.hdr.count.toNat - c.done
      next := ((v.icBlock (gid / 16) (v.team (v.grp gid).team).ctx (n / 32)).map fun cs => cs.drop (n % 32)).getD [] }
    s.agenda = tn :: ts → tn.act = .issue core sched → ({ s with agenda := ts }.pass tn).hadTurn core sched = false →
    u.askOrder core sched = gid :: rest → (u.grp gid).awake = true → v.voteOrder gid = [p] →
    (∀ l ∈ lanesOf path.lanes, ((v.grp gid).lane l).clause = some c) → (v.pathLane gid path).waitHdr = false → v.fenceLanes gid path = 0#32 →
    p % 4 = 0 → p % 32 ≠ 28 → v.icBlock (gid / 16) (v.team (v.grp gid).team).ctx (p / 32) = some bs →
    decodeBytes (p % 32) w = .instr i → fieldsOf i = some f →
    (needsNext c.hdr i = true → (v.icBlock (gid / 16) (v.team (v.grp gid).team).ctx (n / 32)).isSome = true) →
    v.linesMissing x i = [] → staticFault v x i = none → waits i ({ v with cur := x }.view f) { v with cur := x } = false →
    { v with cur := x }.heldLate x i ({ v with cur := x }.view f) = false →
    debugFault v x = none → (v.grp gid).csr.tpend = false → (v.grp gid).trap.stall = false →
    step s = exec i (v.issuing x i none))
  ∧ (∀ (tn : Turn) (ts : List Turn) (core q : Nat) (i : Instr) (x : Issue) (s t : State),
    let u := { s with agenda := ts }.pass tn
    s.agenda = tn :: ts → tn.act = .seq core q → u.hadTurn core (4 + q) = false →
    (u.takeTurn core (4 + q)).seqTurn core q = (t, some (i, x)) →
    step s = exec i { t with cur := x, second := none } ∧ decode (x.pc % 32) x.raw = .instr i ∧ x.src = .seq q)
  ∧ (∀ (tn : Turn) (ts : List Turn) (i : Instr) (s : State), let u := { s with agenda := ts }.pass tn
    s.agenda = tn :: ts → tn.act = .event i → fieldsOf i = none →
    (awaitsFirmware i = true → u.pkg.boot ≠ .running → step s = .next u)
    ∧ (awaitsFirmware i = false ∨ u.pkg.boot = .running →
        (lands i = false → step s = exec i u.endIssues) ∧ (lands i = true → u.turnAt = 0 → step s = exec i u)))
  ∧ ∀ (tn : Turn) (s : State), 0 < tn.cycles ∨ 0 < tn.ns → (s.pass tn).turnAt = 0

/-- What reset leaves, as R24, R292, R363, R392, R393, R398 and R403 state it, and physical memory with every byte zero in canonical form. That an unwritten byte reads zero
before the boot of R415 is the model's choice (assumption 3). -/
def Obligations.ResetLeavesTheStatedValues : Prop :=
  (∀ d, d < 4 → let x := State.reset.die d
    x.pcap = 345 ∧ x.pest = 0 ∧ x.margin = 0x28 ∧ x.shut = false ∧ x.fixed = false ∧ x.change = none ∧ x.edie = 0)
  ∧ State.reset.pkg.twdog = 100 ∧ State.reset.pkg.retry = true ∧ State.reset.pkg.mbBusy = false ∧ State.reset.pkg.wtime = 0
  ∧ (∀ g, (State.reset.grp g).bound = false) ∧ (∀ c, (State.reset.core c).cycle = 0) ∧ (∀ c n, (nth {} (State.reset.core c).dbgPc n).w = 0#64)
  ∧ (∀ d k, (State.reset.front d k).st = 0) ∧ (∀ n, (State.reset.conn n).st = 0)
  ∧ Memory.wf State.reset.mem = true ∧ ∀ a, readCell State.reset.mem a = 0#8

/-- Every step keeps physical memory in canonical form: addresses rise and no cell holds what an unlisted byte reads as. That a byte which nothing has
written reads as zero is the model's choice (assumption 3). -/
def Obligations.EveryStepKeepsMemoryCanonical : Prop :=
  ∀ s t : State, Memory.wf s.mem = true → step s = .next t → Memory.wf t.mem = true

/-- R6, R412: every step answers a state, whatever moves and whatever the state: nothing faults and nothing is refused. That a turn which names a
move too early leaves the state is the model's choice (assumption 2). -/
def Obligations.EveryStepAnswersAState : Prop := ∀ s : State, ∃ t, step s = .next t
end

