-- ==== Sys2Proof/Laws/Exec.lean ====
section
/-!
SUPPORT. The meaning that `exec` calls for each constructor.
-/

namespace Sys2Proof.Machine

theorem exec_nop (f) (s : State) : exec (.nop f) s = execNop f s := rfl
theorem exec_br (f) (s : State) : exec (.br f) s = execBr f s := rfl
theorem exec_brc (f) (s : State) : exec (.brc f) s = execBrc f s := rfl
theorem exec_brx (f) (s : State) : exec (.brx f) s = execBrx f s := rfl
theorem exec_call (f) (s : State) : exec (.call f) s = execCall f s := rfl
theorem exec_ret (f) (s : State) : exec (.ret f) s = execRet f s := rfl
theorem exec_rejoin (f) (s : State) : exec (.rejoin f) s = execRejoin f s := rfl
theorem exec_rejoinRelease (gid) (pc) (s : State) : exec (.rejoinRelease gid pc) s = execRejoinRelease gid pc s := rfl
theorem exec_exit (f) (s : State) : exec (.exit f) s = execExit f s := rfl
theorem exec_yield (f) (s : State) : exec (.yield f) s = execYield f s := rfl
theorem exec_vote (f) (s : State) : exec (.vote f) s = execVote f s := rfl
theorem exec_add (f) (s : State) : exec (.add f) s = execAdd f s := rfl
theorem exec_sub (f) (s : State) : exec (.sub f) s = execSub f s := rfl
theorem exec_mul (f) (s : State) : exec (.mul f) s = execMul f s := rfl
theorem exec_mulh (f) (s : State) : exec (.mulh f) s = execMulh f s := rfl
theorem exec_mad (f) (s : State) : exec (.mad f) s = execMad f s := rfl
theorem exec_madh (f) (s : State) : exec (.madh f) s = execMadh f s := rfl
theorem exec_min (f) (s : State) : exec (.min f) s = execMin f s := rfl
theorem exec_max (f) (s : State) : exec (.max f) s = execMax f s := rfl
theorem exec_abs (f) (s : State) : exec (.abs f) s = execAbs f s := rfl
theorem exec_neg (f) (s : State) : exec (.neg f) s = execNeg f s := rfl
theorem exec_idiv (f) (s : State) : exec (.idiv f) s = execIdiv f s := rfl
theorem exec_irem (f) (s : State) : exec (.irem f) s = execIrem f s := rfl
theorem exec_and (f) (s : State) : exec (.and f) s = execAnd f s := rfl
theorem exec_or (f) (s : State) : exec (.or f) s = execOr f s := rfl
theorem exec_xor (f) (s : State) : exec (.xor f) s = execXor f s := rfl
theorem exec_not (f) (s : State) : exec (.not f) s = execNot f s := rfl
theorem exec_andn (f) (s : State) : exec (.andn f) s = execAndn f s := rfl
theorem exec_shl (f) (s : State) : exec (.shl f) s = execShl f s := rfl
theorem exec_shr (f) (s : State) : exec (.shr f) s = execShr f s := rfl
theorem exec_sar (f) (s : State) : exec (.sar f) s = execSar f s := rfl
theorem exec_rotl (f) (s : State) : exec (.rotl f) s = execRotl f s := rfl
theorem exec_clz (f) (s : State) : exec (.clz f) s = execClz f s := rfl
theorem exec_popc (f) (s : State) : exec (.popc f) s = execPopc f s := rfl
theorem exec_brev (f) (s : State) : exec (.brev f) s = execBrev f s := rfl
theorem exec_bfx (f) (s : State) : exec (.bfx f) s = execBfx f s := rfl
theorem exec_bfi (f) (s : State) : exec (.bfi f) s = execBfi f s := rfl
theorem exec_lea (f) (s : State) : exec (.lea f) s = execLea f s := rfl
theorem exec_cmp (f) (s : State) : exec (.cmp f) s = execCmp f s := rfl
theorem exec_csel (f) (s : State) : exec (.csel f) s = execCsel f s := rfl
theorem exec_mov (f) (s : State) : exec (.mov f) s = execMov f s := rfl
theorem exec_movi (f) (s : State) : exec (.movi f) s = execMovi f s := rfl
theorem exec_movs (f) (s : State) : exec (.movs f) s = execMovs f s := rfl
theorem exec_shfl (f) (s : State) : exec (.shfl f) s = execShfl f s := rfl
theorem exec_rdlane (f) (s : State) : exec (.rdlane f) s = execRdlane f s := rfl
theorem exec_lid (f) (s : State) : exec (.lid f) s = execLid f s := rfl
theorem exec_fadd (f) (s : State) : exec (.fadd f) s = execFadd f s := rfl
theorem exec_fsub (f) (s : State) : exec (.fsub f) s = execFsub f s := rfl
theorem exec_fmul (f) (s : State) : exec (.fmul f) s = execFmul f s := rfl
theorem exec_ffma (f) (s : State) : exec (.ffma f) s = execFfma f s := rfl
theorem exec_fdiv (f) (s : State) : exec (.fdiv f) s = execFdiv f s := rfl
theorem exec_fmin (f) (s : State) : exec (.fmin f) s = execFmin f s := rfl
theorem exec_fmax (f) (s : State) : exec (.fmax f) s = execFmax f s := rfl
theorem exec_fcmp (f) (s : State) : exec (.fcmp f) s = execFcmp f s := rfl
theorem exec_fclass (f) (s : State) : exec (.fclass f) s = execFclass f s := rfl
theorem exec_fcvt (f) (s : State) : exec (.fcvt f) s = execFcvt f s := rfl
theorem exec_frnd (f) (s : State) : exec (.frnd f) s = execFrnd f s := rfl
theorem exec_frcp (f) (s : State) : exec (.frcp f) s = execFrcp f s := rfl
theorem exec_frsq (f) (s : State) : exec (.frsq f) s = execFrsq f s := rfl
theorem exec_fexp2 (f) (s : State) : exec (.fexp2 f) s = execFexp2 f s := rfl
theorem exec_flog2 (f) (s : State) : exec (.flog2 f) s = execFlog2 f s := rfl
theorem exec_hpack (f) (s : State) : exec (.hpack f) s = execHpack f s := rfl
theorem exec_hunpack (f) (s : State) : exec (.hunpack f) s = execHunpack f s := rfl
theorem exec_nbscale (f) (s : State) : exec (.nbscale f) s = execNbscale f s := rfl
theorem exec_nbpack (f) (s : State) : exec (.nbpack f) s = execNbpack f s := rfl
theorem exec_nbunpack (f) (s : State) : exec (.nbunpack f) s = execNbunpack f s := rfl
theorem exec_lmv (f) (s : State) : exec (.lmv f) s = execLmv f s := rfl
theorem exec_rnd (f) (s : State) : exec (.rnd f) s = execRnd f s := rfl
theorem exec_sign (f) (s : State) : exec (.sign f) s = execSign f s := rfl
theorem exec_convergenceIssueOnExit (team) (cv) (s : State) : exec (.convergenceIssueOnExit team cv) s = execConvergenceIssueOnExit team cv s := rfl
theorem exec_mma (f) (s : State) : exec (.mma f) s = execMma f s := rfl
theorem exec_tld (f) (s : State) : exec (.tld f) s = execTld f s := rfl
theorem exec_tsv (f) (s : State) : exec (.tsv f) s = execTsv f s := rfl
theorem exec_tzero (f) (s : State) : exec (.tzero f) s = execTzero f s := rfl
theorem exec_tpois (f) (s : State) : exec (.tpois f) s = execTpois f s := rfl
theorem exec_accLd (f) (s : State) : exec (.accLd f) s = execAccLd f s := rfl
theorem exec_accSt (f) (s : State) : exec (.accSt f) s = execAccSt f s := rfl
theorem exec_accRd (f) (s : State) : exec (.accRd f) s = execAccRd f s := rfl
theorem exec_accZero (f) (s : State) : exec (.accZero f) s = execAccZero f s := rfl
theorem exec_mmask (f) (s : State) : exec (.mmask f) s = execMmask f s := rfl
theorem exec_rowMax (f) (s : State) : exec (.rowMax f) s = execRowMax f s := rfl
theorem exec_rowSum (f) (s : State) : exec (.rowSum f) s = execRowSum f s := rfl
theorem exec_rowExp (f) (s : State) : exec (.rowExp f) s = execRowExp f s := rfl
theorem exec_rowScale (f) (s : State) : exec (.rowScale f) s = execRowScale f s := rfl
theorem exec_rowAdd (f) (s : State) : exec (.rowAdd f) s = execRowAdd f s := rfl
theorem exec_rowCvt (f) (s : State) : exec (.rowCvt f) s = execRowCvt f s := rfl
theorem exec_teamOpStart (team) (k) (s : State) : exec (.teamOpStart team k) s = execTeamOpStart team k s := rfl
theorem exec_pand (f) (s : State) : exec (.pand f) s = execPand f s := rfl
theorem exec_por (f) (s : State) : exec (.por f) s = execPor f s := rfl
theorem exec_pxor (f) (s : State) : exec (.pxor f) s = execPxor f s := rfl
theorem exec_pnot (f) (s : State) : exec (.pnot f) s = execPnot f s := rfl
theorem exec_pmov (f) (s : State) : exec (.pmov f) s = execPmov f s := rfl
theorem exec_pset (f) (s : State) : exec (.pset f) s = execPset f s := rfl
theorem exec_pget (f) (s : State) : exec (.pget f) s = execPget f s := rfl
theorem exec_pbit (f) (s : State) : exec (.pbit f) s = execPbit f s := rfl
theorem exec_ld (f) (s : State) : exec (.ld f) s = execLd f s := rfl
theorem exec_st (f) (s : State) : exec (.st f) s = execSt f s := rfl
theorem exec_stGDirect (f) (s : State) : exec (.stGDirect f) s = execStGDirect f s := rfl
theorem exec_ldProbe (f) (s : State) : exec (.ldProbe f) s = execLdProbe f s := rfl
theorem exec_atom (f) (s : State) : exec (.atom f) s = execAtom f s := rfl
theorem exec_red (f) (s : State) : exec (.red f) s = execRed f s := rfl
theorem exec_fence (f) (s : State) : exec (.fence f) s = execFence f s := rfl
theorem exec_fenceXp (f) (s : State) : exec (.fenceXp f) s = execFenceXp f s := rfl
theorem exec_pf (f) (s : State) : exec (.pf f) s = execPf f s := rfl
theorem exec_cstLd (f) (s : State) : exec (.cstLd f) s = execCstLd f s := rfl
theorem exec_aflush (f) (s : State) : exec (.aflush f) s = execAflush f s := rfl
theorem exec_stagedEntryApply (team) (s : State) : exec (.stagedEntryApply team) s = execStagedEntryApply team s := rfl
theorem exec_storePerform (core) (k) (s : State) : exec (.storePerform core k) s = execStorePerform core k s := rfl
theorem exec_rgn (f) (s : State) : exec (.rgn f) s = execRgn f s := rfl
theorem exec_fastBufferFill (gid) (reg) (s : State) : exec (.fastBufferFill gid reg) s = execFastBufferFill gid reg s := rfl
theorem exec_spill (f) (s : State) : exec (.spill f) s = execSpill f s := rfl
theorem exec_fill (f) (s : State) : exec (.fill f) s = execFill f s := rfl
theorem exec_give (f) (s : State) : exec (.give f) s = execGive f s := rfl
theorem exec_claim (f) (s : State) : exec (.claim f) s = execClaim f s := rfl
theorem exec_rdidx (f) (s : State) : exec (.rdidx f) s = execRdidx f s := rfl
theorem exec_wridx (f) (s : State) : exec (.wridx f) s = execWridx f s := rfl
theorem exec_fork (f) (s : State) : exec (.fork f) s = execFork f s := rfl
theorem exec_rdv (f) (s : State) : exec (.rdv f) s = execRdv f s := rfl
theorem exec_job (f) (s : State) : exec (.job f) s = execJob f s := rfl
theorem exec_cp (f) (s : State) : exec (.cp f) s = execCp f s := rfl
theorem exec_spawn (f) (s : State) : exec (.spawn f) s = execSpawn f s := rfl
theorem exec_post (f) (s : State) : exec (.post f) s = execPost f s := rfl
theorem exec_eflag (f) (s : State) : exec (.eflag f) s = execEflag f s := rfl
theorem exec_eventSet (core) (q) (s : State) : exec (.eventSet core q) s = execEventSet core q s := rfl
theorem exec_ewait (f) (s : State) : exec (.ewait f) s = execEwait f s := rfl
theorem exec_ewaitCyclesExpiry (core) (q) (s : State) : exec (.ewaitCyclesExpiry core q) s = execEwaitCyclesExpiry core q s := rfl
theorem exec_eloop (f) (s : State) : exec (.eloop f) s = execEloop f s := rfl
theorem exec_eend (f) (s : State) : exec (.eend f) s = execEend f s := rfl
theorem exec_sequencerStart (gid) (s : State) : exec (.sequencerStart gid) s = execSequencerStart gid s := rfl
theorem exec_sequencerEnd (core) (q) (s : State) : exec (.sequencerEnd core q) s = execSequencerEnd core q s := rfl
theorem exec_slotLd (f) (s : State) : exec (.slotLd f) s = execSlotLd f s := rfl
theorem exec_slotSc (f) (s : State) : exec (.slotSc f) s = execSlotSc f s := rfl
theorem exec_slotFin (f) (s : State) : exec (.slotFin f) s = execSlotFin f s := rfl
theorem exec_commit (f) (s : State) : exec (.commit f) s = execCommit f s := rfl
theorem exec_pvt (f) (s : State) : exec (.pvt f) s = execPvt f s := rfl
theorem exec_bar (f) (s : State) : exec (.bar f) s = execBar f s := rfl
theorem exec_barExp (f) (s : State) : exec (.barExp f) s = execBarExp f s := rfl
theorem exec_copyBytesLand (src) (n) (s : State) : exec (.copyBytesLand src n) s = execCopyBytesLand src n s := rfl
theorem exec_twaitAny (f) (s : State) : exec (.twaitAny f) s = execTwaitAny f s := rfl
theorem exec_twaitAll (f) (s : State) : exec (.twaitAll f) s = execTwaitAll f s := rfl
theorem exec_tffr (f) (s : State) : exec (.tffr f) s = execTffr f s := rfl
theorem exec_fwait (f) (s : State) : exec (.fwait f) s = execFwait f s := rfl
theorem exec_csrR (f) (s : State) : exec (.csrR f) s = execCsrR f s := rfl
theorem exec_csrW (f) (s : State) : exec (.csrW f) s = execCsrW f s := rfl
theorem exec_fstatWrite (f) (s : State) : exec (.fstatWrite f) s = execFstatWrite f s := rfl
theorem exec_cvdefWrite (f) (s : State) : exec (.cvdefWrite f) s = execCvdefWrite f s := rfl
theorem exec_merrlog0Write (f) (s : State) : exec (.merrlog0Write f) s = execMerrlog0Write f s := rfl
theorem exec_tfence (f) (s : State) : exec (.tfence f) s = execTfence f s := rfl
theorem exec_tret (f) (s : State) : exec (.tret f) s = execTret f s := rfl
theorem exec_trap (f) (s : State) : exec (.trap f) s = execTrap f s := rfl
theorem exec_brk (f) (s : State) : exec (.brk f) s = execBrk f s := rfl
theorem exec_halt (f) (s : State) : exec (.halt f) s = execHalt f s := rfl
theorem exec_icacheLineArrival (core) (ctx) (block) (s : State) : exec (.icacheLineArrival core ctx block) s = execIcacheLineArrival core ctx block s := rfl
theorem exec_longLatencyCompletion (op) (s : State) : exec (.longLatencyCompletion op) s = execLongLatencyCompletion op s := rfl
theorem exec_walkCompletion (die) (k) (s : State) : exec (.walkCompletion die k) s = execWalkCompletion die k s := rfl
theorem exec_translationInvalidate (die) (ctx) (lo) (hi) (s : State) : exec (.translationInvalidate die ctx lo hi) s = execTranslationInvalidate die ctx lo hi s := rfl
theorem exec_invalidateCompletion (die) (k) (s : State) : exec (.invalidateCompletion die k) s = execInvalidateCompletion die k s := rfl
theorem exec_trapDelivery (gid) (s : State) : exec (.trapDelivery gid) s = execTrapDelivery gid s := rfl
theorem exec_firmwareFaultDelivery (gid) (s : State) : exec (.firmwareFaultDelivery gid) s = execFirmwareFaultDelivery gid s := rfl
theorem exec_timerTrap (gid) (s : State) : exec (.timerTrap gid) s = execTimerTrap gid s := rfl
theorem exec_groupEnd (gid) (s : State) : exec (.groupEnd gid) s = execGroupEnd gid s := rfl
theorem exec_taskDispatch (die) (k) (s : State) : exec (.taskDispatch die k) s = execTaskDispatch die k s := rfl
theorem exec_bindRecordBind (idx) (s : State) : exec (.bindRecordBind idx) s = execBindRecordBind idx s := rfl
theorem exec_bindw0Commit (w0) (s : State) : exec (.bindw0Commit w0) s = execBindw0Commit w0 s := rfl
theorem exec_powerEstimateUpdate (die) (est) (s : State) : exec (.powerEstimateUpdate die est) s = execPowerEstimateUpdate die est s := rfl
theorem exec_pcapWrite (die) (v) (s : State) : exec (.pcapWrite die v) s = execPcapWrite die v s := rfl
theorem exec_twdogWrite (v) (s : State) : exec (.twdogWrite v) s = execTwdogWrite v s := rfl
theorem exec_cycleStretch (core) (s : State) : exec (.cycleStretch core) s = execCycleStretch core s := rfl
theorem exec_timingViolation (die) (s : State) : exec (.timingViolation die) s = execTimingViolation die s := rfl
theorem exec_modeSwitchComplete (die) (s : State) : exec (.modeSwitchComplete die) s = execModeSwitchComplete die s := rfl
theorem exec_scrubRead (core) (line) (lane) (err) (s : State) : exec (.scrubRead core line lane err) s = execScrubRead core line lane err s := rfl
theorem exec_ticketPass (launch) (s : State) : exec (.ticketPass launch) s = execTicketPass launch s := rfl
theorem exec_ticketWatchdogExpiry (launch) (s : State) : exec (.ticketWatchdogExpiry launch) s = execTicketWatchdogExpiry launch s := rfl
theorem exec_copyJobStart (job) (s : State) : exec (.copyJobStart job) s = execCopyJobStart job s := rfl
theorem exec_copyJobCompletion (job) (s : State) : exec (.copyJobCompletion job) s = execCopyJobCompletion job s := rfl
theorem exec_localCopyCompletion (core) (k) (s : State) : exec (.localCopyCompletion core k) s = execLocalCopyCompletion core k s := rfl
theorem exec_commandEntryStart (ctx) (q) (s : State) : exec (.commandEntryStart ctx q) s = execCommandEntryStart ctx q s := rfl
theorem exec_cmdGraph (ctx) (q) (texts) (s : State) : exec (.cmdGraph ctx q texts) s = execCmdGraph ctx q texts s := rfl
theorem exec_cmdWait (ctx) (q) (s : State) : exec (.cmdWait ctx q) s = execCmdWait ctx q s := rfl
theorem exec_cmdMarker (ctx) (q) (s : State) : exec (.cmdMarker ctx q) s = execCmdMarker ctx q s := rfl
theorem exec_nodeStart (ctx) (q) (node) (insts) (s : State) : exec (.nodeStart ctx q node insts) s = execNodeStart ctx q node insts s := rfl
theorem exec_nodeCompletion (ctx) (q) (node) (s : State) : exec (.nodeCompletion ctx q node) s = execNodeCompletion ctx q node s := rfl
theorem exec_completionRecordWrite (ctx) (q) (s : State) : exec (.completionRecordWrite ctx q) s = execCompletionRecordWrite ctx q s := rfl
theorem exec_pointFire (die) (fid) (s : State) : exec (.pointFire die fid) s = execPointFire die fid s := rfl
theorem exec_pointCompletion (die) (fid) (point) (s : State) : exec (.pointCompletion die fid point) s = execPointCompletion die fid point s := rfl
theorem exec_frontierRetirementExpiry (die) (fid) (s : State) : exec (.frontierRetirementExpiry die fid) s = execFrontierRetirementExpiry die fid s := rfl
theorem exec_mirrorUpdate (die) (fid) (row) (s : State) : exec (.mirrorUpdate die fid row) s = execMirrorUpdate die fid row s := rfl
theorem exec_frontierStart (die) (w0) (s : State) : exec (.frontierStart die w0) s = execFrontierStart die w0 s := rfl
theorem exec_frontierStop (die) (w0) (s : State) : exec (.frontierStop die w0) s = execFrontierStop die w0 s := rfl
theorem exec_frontierSave (die) (w0) (s : State) : exec (.frontierSave die w0) s = execFrontierSave die w0 s := rfl
theorem exec_frontierRestore (die) (w0) (s : State) : exec (.frontierRestore die w0) s = execFrontierRestore die w0 s := rfl
theorem exec_frontierResume (die) (w0) (s : State) : exec (.frontierResume die w0) s = execFrontierResume die w0 s := rfl
theorem exec_frontierRelease (die) (w0) (s : State) : exec (.frontierRelease die w0) s = execFrontierRelease die w0 s := rfl
theorem exec_stop (w0) (s : State) : exec (.stop w0) s = execStop w0 s := rfl
theorem exec_teamStopped (team) (s : State) : exec (.teamStopped team) s = execTeamStopped team s := rfl
theorem exec_stopWatchdogExpiry (team) (terminate) (s : State) : exec (.stopWatchdogExpiry team terminate) s = execStopWatchdogExpiry team terminate s := rfl
theorem exec_commitPointSave (ctx) (s : State) : exec (.commitPointSave ctx) s = execCommitPointSave ctx s := rfl
theorem exec_commitWatchdogExpiry (ctx) (terminate) (s : State) : exec (.commitWatchdogExpiry ctx terminate) s = execCommitWatchdogExpiry ctx terminate s := rfl
theorem exec_flush (w0) (s : State) : exec (.flush w0) s = execFlush w0 s := rfl
theorem exec_restore (w0) (s : State) : exec (.restore w0) s = execRestore w0 s := rfl
theorem exec_resume (w0) (s : State) : exec (.resume w0) s = execResume w0 s := rfl
theorem exec_resumeg (w0 frame) (s : State) : exec (.resumeg w0 frame) s = execResumeg w0 frame s := rfl
theorem exec_forward (w0) (s : State) : exec (.forward w0) s = execForward w0 s := rfl
theorem exec_streamAfterFin (conn) (records) (s : State) : exec (.streamAfterFin conn records) s = execStreamAfterFin conn records s := rfl
theorem exec_segmentReceive (port) (conn) (bytes) (s : State) : exec (.segmentReceive port conn bytes) s = execSegmentReceive port conn bytes s := rfl
theorem exec_finAcked (conn) (s : State) : exec (.finAcked conn) s = execFinAcked conn s := rfl
theorem exec_rstReceived (conn) (s : State) : exec (.rstReceived conn) s = execRstReceived conn s := rfl
theorem exec_retransmissionTimeout (conn) (limit) (s : State) : exec (.retransmissionTimeout conn limit) s = execRetransmissionTimeout conn limit s := rfl
theorem exec_connectionCommit (conn) (w0) (s : State) : exec (.connectionCommit conn w0) s = execConnectionCommit conn w0 s := rfl
theorem exec_create (root) (s : State) : exec (.create root) s = execCreate root s := rfl
theorem exec_destroy (s : State) : exec (.destroy) s = execDestroy s := rfl
theorem exec_queue (s : State) : exec (.queue) s = execQueue s := rfl
theorem exec_rule (s : State) : exec (.rule) s = execRule s := rfl
theorem exec_netcfg (s : State) : exec (.netcfg) s = execNetcfg s := rfl
theorem exec_attest (s : State) : exec (.attest) s = execAttest s := rfl
theorem exec_manifest (s : State) : exec (.manifest) s = execManifest s := rfl
theorem exec_map (frames) (tables) (s : State) : exec (.map frames tables) s = execMap frames tables s := rfl
theorem exec_doorbellWrite (ctx) (q) (tail) (s : State) : exec (.doorbellWrite ctx q tail) s = execDoorbellWrite ctx q tail s := rfl
theorem exec_crheadWrite (ctx) (v) (s : State) : exec (.crheadWrite ctx v) s = execCrheadWrite ctx v s := rfl
theorem exec_hostApertureRead (off) (n) (s : State) : exec (.hostApertureRead off n) s = execHostApertureRead off n s := rfl
theorem exec_hostApertureWrite (off) (bytes) (s : State) : exec (.hostApertureWrite off bytes) s = execHostApertureWrite off bytes s := rfl
theorem exec_configRequest (s : State) : exec (.configRequest) s = execConfigRequest s := rfl
theorem exec_linkFailure (link) (s : State) : exec (.linkFailure link) s = execLinkFailure link s := rfl
theorem exec_expanderLoss (port) (s : State) : exec (.expanderLoss port) s = execExpanderLoss port s := rfl
theorem exec_coreFailure (core) (s : State) : exec (.coreFailure core) s = execCoreFailure core s := rfl
theorem exec_packageReset (defects) (s : State) : exec (.packageReset defects) s = execPackageReset defects s := rfl
theorem exec_bundleFetchDone (bundle) (expanders) (s : State) : exec (.bundleFetchDone bundle expanders) s = execBundleFetchDone bundle expanders s := rfl
theorem exec_bootRetryExpiry (s : State) : exec (.bootRetryExpiry) s = execBootRetryExpiry s := rfl
theorem exec_registerWrite (r) (v) (s : State) : exec (.registerWrite r v) s = execRegisterWrite r v s := rfl
theorem exec_fledenlinkPeerAccess (key) (pa) (n) (write) (s : State) : exec (.fledenlinkPeerAccess key pa n write) s = execFledenlinkPeerAccess key pa n write s := rfl
theorem exec_keyInstall (key) (pair) (s : State) : exec (.keyInstall key pair) s = execKeyInstall key pair s := rfl

end Sys2Proof.Machine
end

