-- ==== Sys2Proof/Laws/Lists.lean ====
section
/-!
SUPPORT. Lanes, lane masks, lists by number and tables: what a reader finds after a writer.
-/

namespace Sys2Proof

theorem mem_laneNums {l : Nat} : l ∈ laneNums ↔ l < 32 := by
  constructor
  · intro h; simp [laneNums] at h; omega
  · intro h; simp [laneNums]; omega

@[simp] theorem mkLanes_length {α : Type} (f : Nat → α) : (mkLanes f).length = 32 := rfl

/-- Lane `l` of a per-lane list. -/
theorem nth_mkLanes {α : Type} (d : α) (f : Nat → α) {l : Nat} (h : l < 32) : nth d (mkLanes f) l = f l := by
  interval_cases l <;> rfl

/-- Beyond the lanes a per-lane list has the default. -/
theorem nth_mkLanes_out {α : Type} (d : α) (f : Nat → α) {l : Nat} (h : 32 ≤ l) : nth d (mkLanes f) l = d := by
  obtain ⟨k, rfl⟩ := Nat.exists_eq_add_of_le h
  rw [Nat.add_comm]; rfl

theorem mkLanes_congr {α : Type} {f g : Nat → α} (h : ∀ l, l < 32 → f l = g l) : mkLanes f = mkLanes g :=
  List.map_congr_left fun l hl => h l (mem_laneNums.mp hl)

theorem natOfBits_testBit (bs : List Bool) (i : Nat) : (natOfBits bs).testBit i = nth false bs i := by
  induction bs generalizing i with
  | nil => simp [natOfBits, nth]
  | cons b bs ih =>
    have e : natOfBits (b :: bs) = 2 * natOfBits bs + b.toNat := by simp [natOfBits]; omega
    rw [e]
    cases i with
    | zero => cases b <;> simp [nth, Nat.testBit_zero]
    | succ n =>
      rw [Nat.testBit_succ]
      have : (2 * natOfBits bs + b.toNat) / 2 = natOfBits bs := by cases b <;> (simp; try omega)
      rw [this, ih]; rfl

/-- Bit `l` of the lane mask of a condition. -/
theorem mkMask_bit (f : Nat → Bool) {l : Nat} (h : l < 32) : (mkMask f).getLsbD l = f l := by
  rw [mkMask, BitVec.getLsbD_ofNat, natOfBits_testBit, nth_mkLanes false f h]; simp [h]

theorem mem_lanesOf {m : Word} {l : Nat} : l ∈ lanesOf m ↔ m.getLsbD l = true := by
  simp only [lanesOf, List.mem_filter, mem_laneNums]
  exact ⟨fun h => h.2, fun h => ⟨BitVec.lt_of_getLsbD h, h⟩⟩

@[simp] theorem lanesOf_zero : lanesOf 0#32 = [] := by decide

theorem nth_setNth {α : Type} (d x : α) (xs : List α) (n m : Nat) :
    nth d (setNth x xs n) m = if m = n ∧ n < xs.length then x else nth d xs m := by
  induction xs generalizing n m with
  | nil => simp [setNth, nth]
  | cons y ys ih =>
    cases n with
    | zero => cases m <;> simp [setNth, nth]
    | succ n =>
      cases m with
      | zero => simp [setNth, nth]
      | succ m => simp [setNth, nth, ih]

@[simp] theorem setNth_length {α : Type} (x : α) (xs : List α) (n : Nat) : (setNth x xs n).length = xs.length := by
  induction xs generalizing n with
  | nil => rfl
  | cons y ys ih => cases n <;> simp [setNth, ih]

namespace Machine

/-- The number just set. -/
@[simp] theorem Tab.find_set {α : Type} (t : Tab α) (n : Nat) (x : α) : Tab.find (Tab.set t n x) n = some x := by
  induction t with
  | nil => simp [Tab.set, Tab.find]
  | cons e t ih =>
    obtain ⟨k, y⟩ := e
    simp only [Tab.set]
    split
    · simp [Tab.find]
    · split
      · simp [Tab.find]
      · simp [Tab.find, *]

/-- Every other number. -/
theorem Tab.find_set_ne {α : Type} (t : Tab α) {n m : Nat} (x : α) (h : m ≠ n) : Tab.find (Tab.set t n x) m = Tab.find t m := by
  induction t with
  | nil => simp [Tab.set, Tab.find, Ne.symm h]
  | cons e t ih =>
    obtain ⟨k, y⟩ := e
    simp only [Tab.set]
    split
    · subst_vars; simp [Tab.find, Ne.symm h]
    · split
      · simp [Tab.find, Ne.symm h]
      · simp [Tab.find, ih]

@[simp] theorem Tab.get_set {α : Type} (d : α) (t : Tab α) (n : Nat) (x : α) : Tab.get d (Tab.set t n x) n = x := by
  simp [Tab.get]

theorem Tab.get_set_ne {α : Type} (d : α) (t : Tab α) {n m : Nat} (x : α) (h : m ≠ n) :
    Tab.get d (Tab.set t n x) m = Tab.get d t m := by
  simp [Tab.get, Tab.find_set_ne t x h]

theorem Tab.set_set {α : Type} (t : Tab α) (n : Nat) (x y : α) : Tab.set (Tab.set t n x) n y = Tab.set t n y := by
  induction t with
  | nil => simp [Tab.set]
  | cons e t ih =>
    obtain ⟨k, z⟩ := e
    simp only [Tab.set]
    split
    · simp [Tab.set]
    · split
      · simp [Tab.set]
      · simp [Tab.set, *]

/-- An entry of a table with a number set is the new one or an old one. -/
theorem Tab.mem_set {α : Type} {t : Tab α} {n : Nat} {x : α} {e : Nat × α} (h : e ∈ Tab.set t n x) : e = (n, x) ∨ e ∈ t := by
  induction t with
  | nil => simpa [Tab.set] using h
  | cons f t ih =>
    obtain ⟨k, y⟩ := f
    simp only [Tab.set] at h
    split at h
    · rcases List.mem_cons.mp h with h | h
      · exact .inl h
      · exact .inr (List.mem_cons_of_mem _ h)
    · split at h
      · rcases List.mem_cons.mp h with h | h
        · exact .inl h
        · exact .inr h
      · rcases List.mem_cons.mp h with h | h
        · exact .inr (h ▸ List.mem_cons_self)
        · exact (ih h).imp id (List.mem_cons_of_mem _)

/-- What a table gives is the default or one of its entries. -/
theorem Tab.get_mem {α : Type} (d : α) (t : Tab α) (n : Nat) : Tab.get d t n = d ∨ (n, Tab.get d t n) ∈ t := by
  induction t with
  | nil => exact .inl rfl
  | cons e t ih =>
    obtain ⟨k, y⟩ := e
    by_cases h : k = n
    · subst h; exact .inr (by simp [Tab.get, Tab.find])
    · have : Tab.get d ((k, y) :: t) n = Tab.get d t n := by simp [Tab.get, Tab.find, h]
      rw [this]; exact ih.imp id (List.mem_cons_of_mem _)

/-- The number just dropped. -/
@[simp] theorem Tab.find_drop {α : Type} (t : Tab α) (n : Nat) : Tab.find (Tab.drop t n) n = none := by
  induction t with
  | nil => rfl
  | cons e t ih =>
    obtain ⟨k, y⟩ := e
    simp only [Tab.drop]
    split
    · exact ih
    · simp [Tab.find, *]

/-- Every other number than a dropped one. -/
theorem Tab.find_drop_ne {α : Type} (t : Tab α) {n m : Nat} (h : m ≠ n) : Tab.find (Tab.drop t n) m = Tab.find t m := by
  induction t with
  | nil => rfl
  | cons e t ih =>
    obtain ⟨k, y⟩ := e
    simp only [Tab.drop]
    split
    · subst_vars; simp [Tab.find, Ne.symm h, ih]
    · simp [Tab.find, ih]

@[simp] theorem Tab.get_drop {α : Type} (d : α) (t : Tab α) (n : Nat) : Tab.get d (Tab.drop t n) n = d := by simp [Tab.get]

theorem Tab.get_drop_ne {α : Type} (d : α) (t : Tab α) {n m : Nat} (h : m ≠ n) : Tab.get d (Tab.drop t n) m = Tab.get d t m := by
  simp [Tab.get, Tab.find_drop_ne t h]

/-- An entry of a table with a number dropped was there before. -/
theorem Tab.mem_drop {α : Type} {t : Tab α} {n : Nat} {e : Nat × α} (h : e ∈ Tab.drop t n) : e ∈ t := by
  induction t with
  | nil => exact h
  | cons f t ih =>
    obtain ⟨k, y⟩ := f
    simp only [Tab.drop] at h
    split at h
    · exact List.mem_cons_of_mem _ (ih h)
    · exact (List.mem_cons.mp h).elim (fun e => e ▸ List.mem_cons_self) fun e => List.mem_cons_of_mem _ (ih e)

/-- An entry found stands in the table. -/
theorem Tab.find_mem {α : Type} {t : Tab α} {n : Nat} {x : α} (h : Tab.find t n = some x) : (n, x) ∈ t := by
  induction t with
  | nil => simp [Tab.find] at h
  | cons e t ih =>
    obtain ⟨k, y⟩ := e
    simp only [Tab.find] at h
    split at h
    · simp_all
    · exact List.mem_cons_of_mem _ (ih h)

end Machine

end Sys2Proof
end

