-- ==== Sys2Proof/Laws/State.lean ====
section
/-!
SUPPORT. What each update of the state leaves in each field, and what a reader of a group, team, core, die or context finds after it.
-/

namespace Sys2Proof.Machine

/-! ### `State.setGrp` -/

@[simp] theorem State.setGrp_groups (s : State) (g : Nat) (x : Group) : (s.setGrp g x).groups = Tab.set s.groups g x := rfl
@[simp] theorem State.setGrp_teams (s : State) (g : Nat) (x : Group) : (s.setGrp g x).teams = s.teams := rfl
@[simp] theorem State.setGrp_cores (s : State) (g : Nat) (x : Group) : (s.setGrp g x).cores = s.cores := rfl
@[simp] theorem State.setGrp_dies (s : State) (g : Nat) (x : Group) : (s.setGrp g x).dies = s.dies := rfl
@[simp] theorem State.setGrp_ctxs (s : State) (g : Nat) (x : Group) : (s.setGrp g x).ctxs = s.ctxs := rfl
@[simp] theorem State.setGrp_binds (s : State) (g : Nat) (x : Group) : (s.setGrp g x).binds = s.binds := rfl
@[simp] theorem State.setGrp_launches (s : State) (g : Nat) (x : Group) : (s.setGrp g x).launches = s.launches := rfl
@[simp] theorem State.setGrp_parked (s : State) (g : Nat) (x : Group) : (s.setGrp g x).parked = s.parked := rfl
@[simp] theorem State.setGrp_jobs (s : State) (g : Nat) (x : Group) : (s.setGrp g x).jobs = s.jobs := rfl
@[simp] theorem State.setGrp_feet (s : State) (g : Nat) (x : Group) : (s.setGrp g x).feet = s.feet := rfl
@[simp] theorem State.setGrp_conns (s : State) (g : Nat) (x : Group) : (s.setGrp g x).conns = s.conns := rfl
@[simp] theorem State.setGrp_mem (s : State) (g : Nat) (x : Group) : (s.setGrp g x).mem = s.mem := rfl
@[simp] theorem State.setGrp_side (s : State) (g : Nat) (x : Group) : (s.setGrp g x).side = s.side := rfl
@[simp] theorem State.setGrp_pkg (s : State) (g : Nat) (x : Group) : (s.setGrp g x).pkg = s.pkg := rfl
@[simp] theorem State.setGrp_cur (s : State) (g : Nat) (x : Group) : (s.setGrp g x).cur = s.cur := rfl
@[simp] theorem State.setGrp_second (s : State) (g : Nat) (x : Group) : (s.setGrp g x).second = s.second := rfl
@[simp] theorem State.setGrp_agenda (s : State) (g : Nat) (x : Group) : (s.setGrp g x).agenda = s.agenda := rfl
@[simp] theorem State.setGrp_turnAt (s : State) (g : Nat) (x : Group) : (s.setGrp g x).turnAt = s.turnAt := rfl
@[simp] theorem State.setGrp_bars (s : State) (g : Nat) (x : Group) : (s.setGrp g x).bars = s.bars := rfl
@[simp] theorem State.setGrp_arrivals (s : State) (g : Nat) (x : Group) : (s.setGrp g x).arrivals = s.arrivals := rfl
@[simp] theorem State.setGrp_seqno (s : State) (g : Nat) (x : Group) : (s.setGrp g x).seqno = s.seqno := rfl
@[simp] theorem State.setGrp_fresh (s : State) (g : Nat) (x : Group) : (s.setGrp g x).fresh = s.fresh := rfl

/-! ### `State.setTeam` -/

@[simp] theorem State.setTeam_groups (s : State) (t : Nat) (x : Team) : (s.setTeam t x).groups = s.groups := rfl
@[simp] theorem State.setTeam_teams (s : State) (t : Nat) (x : Team) : (s.setTeam t x).teams = Tab.set s.teams t x := rfl
@[simp] theorem State.setTeam_cores (s : State) (t : Nat) (x : Team) : (s.setTeam t x).cores = s.cores := rfl
@[simp] theorem State.setTeam_dies (s : State) (t : Nat) (x : Team) : (s.setTeam t x).dies = s.dies := rfl
@[simp] theorem State.setTeam_ctxs (s : State) (t : Nat) (x : Team) : (s.setTeam t x).ctxs = s.ctxs := rfl
@[simp] theorem State.setTeam_binds (s : State) (t : Nat) (x : Team) : (s.setTeam t x).binds = s.binds := rfl
@[simp] theorem State.setTeam_launches (s : State) (t : Nat) (x : Team) : (s.setTeam t x).launches = s.launches := rfl
@[simp] theorem State.setTeam_parked (s : State) (t : Nat) (x : Team) : (s.setTeam t x).parked = s.parked := rfl
@[simp] theorem State.setTeam_jobs (s : State) (t : Nat) (x : Team) : (s.setTeam t x).jobs = s.jobs := rfl
@[simp] theorem State.setTeam_feet (s : State) (t : Nat) (x : Team) : (s.setTeam t x).feet = s.feet := rfl
@[simp] theorem State.setTeam_conns (s : State) (t : Nat) (x : Team) : (s.setTeam t x).conns = s.conns := rfl
@[simp] theorem State.setTeam_mem (s : State) (t : Nat) (x : Team) : (s.setTeam t x).mem = s.mem := rfl
@[simp] theorem State.setTeam_side (s : State) (t : Nat) (x : Team) : (s.setTeam t x).side = s.side := rfl
@[simp] theorem State.setTeam_pkg (s : State) (t : Nat) (x : Team) : (s.setTeam t x).pkg = s.pkg := rfl
@[simp] theorem State.setTeam_cur (s : State) (t : Nat) (x : Team) : (s.setTeam t x).cur = s.cur := rfl
@[simp] theorem State.setTeam_second (s : State) (t : Nat) (x : Team) : (s.setTeam t x).second = s.second := rfl
@[simp] theorem State.setTeam_agenda (s : State) (t : Nat) (x : Team) : (s.setTeam t x).agenda = s.agenda := rfl
@[simp] theorem State.setTeam_turnAt (s : State) (t : Nat) (x : Team) : (s.setTeam t x).turnAt = s.turnAt := rfl
@[simp] theorem State.setTeam_bars (s : State) (t : Nat) (x : Team) : (s.setTeam t x).bars = s.bars := rfl
@[simp] theorem State.setTeam_arrivals (s : State) (t : Nat) (x : Team) : (s.setTeam t x).arrivals = s.arrivals := rfl
@[simp] theorem State.setTeam_seqno (s : State) (t : Nat) (x : Team) : (s.setTeam t x).seqno = s.seqno := rfl
@[simp] theorem State.setTeam_fresh (s : State) (t : Nat) (x : Team) : (s.setTeam t x).fresh = s.fresh := rfl

/-! ### `State.setCore` -/

@[simp] theorem State.setCore_groups (s : State) (c : Nat) (x : CoreSt) : (s.setCore c x).groups = s.groups := rfl
@[simp] theorem State.setCore_teams (s : State) (c : Nat) (x : CoreSt) : (s.setCore c x).teams = s.teams := rfl
@[simp] theorem State.setCore_cores (s : State) (c : Nat) (x : CoreSt) : (s.setCore c x).cores = Tab.set s.cores c x := rfl
@[simp] theorem State.setCore_dies (s : State) (c : Nat) (x : CoreSt) : (s.setCore c x).dies = s.dies := rfl
@[simp] theorem State.setCore_ctxs (s : State) (c : Nat) (x : CoreSt) : (s.setCore c x).ctxs = s.ctxs := rfl
@[simp] theorem State.setCore_binds (s : State) (c : Nat) (x : CoreSt) : (s.setCore c x).binds = s.binds := rfl
@[simp] theorem State.setCore_launches (s : State) (c : Nat) (x : CoreSt) : (s.setCore c x).launches = s.launches := rfl
@[simp] theorem State.setCore_parked (s : State) (c : Nat) (x : CoreSt) : (s.setCore c x).parked = s.parked := rfl
@[simp] theorem State.setCore_jobs (s : State) (c : Nat) (x : CoreSt) : (s.setCore c x).jobs = s.jobs := rfl
@[simp] theorem State.setCore_feet (s : State) (c : Nat) (x : CoreSt) : (s.setCore c x).feet = s.feet := rfl
@[simp] theorem State.setCore_conns (s : State) (c : Nat) (x : CoreSt) : (s.setCore c x).conns = s.conns := rfl
@[simp] theorem State.setCore_mem (s : State) (c : Nat) (x : CoreSt) : (s.setCore c x).mem = s.mem := rfl
@[simp] theorem State.setCore_side (s : State) (c : Nat) (x : CoreSt) : (s.setCore c x).side = s.side := rfl
@[simp] theorem State.setCore_pkg (s : State) (c : Nat) (x : CoreSt) : (s.setCore c x).pkg = s.pkg := rfl
@[simp] theorem State.setCore_cur (s : State) (c : Nat) (x : CoreSt) : (s.setCore c x).cur = s.cur := rfl
@[simp] theorem State.setCore_second (s : State) (c : Nat) (x : CoreSt) : (s.setCore c x).second = s.second := rfl
@[simp] theorem State.setCore_agenda (s : State) (c : Nat) (x : CoreSt) : (s.setCore c x).agenda = s.agenda := rfl
@[simp] theorem State.setCore_turnAt (s : State) (c : Nat) (x : CoreSt) : (s.setCore c x).turnAt = s.turnAt := rfl
@[simp] theorem State.setCore_bars (s : State) (c : Nat) (x : CoreSt) : (s.setCore c x).bars = s.bars := rfl
@[simp] theorem State.setCore_arrivals (s : State) (c : Nat) (x : CoreSt) : (s.setCore c x).arrivals = s.arrivals := rfl
@[simp] theorem State.setCore_seqno (s : State) (c : Nat) (x : CoreSt) : (s.setCore c x).seqno = s.seqno := rfl
@[simp] theorem State.setCore_fresh (s : State) (c : Nat) (x : CoreSt) : (s.setCore c x).fresh = s.fresh := rfl

/-! ### `State.setDie` -/

@[simp] theorem State.setDie_groups (s : State) (d : Nat) (x : Die) : (s.setDie d x).groups = s.groups := rfl
@[simp] theorem State.setDie_teams (s : State) (d : Nat) (x : Die) : (s.setDie d x).teams = s.teams := rfl
@[simp] theorem State.setDie_cores (s : State) (d : Nat) (x : Die) : (s.setDie d x).cores = s.cores := rfl
@[simp] theorem State.setDie_dies (s : State) (d : Nat) (x : Die) : (s.setDie d x).dies = setNth x s.dies d := rfl
@[simp] theorem State.setDie_ctxs (s : State) (d : Nat) (x : Die) : (s.setDie d x).ctxs = s.ctxs := rfl
@[simp] theorem State.setDie_binds (s : State) (d : Nat) (x : Die) : (s.setDie d x).binds = s.binds := rfl
@[simp] theorem State.setDie_launches (s : State) (d : Nat) (x : Die) : (s.setDie d x).launches = s.launches := rfl
@[simp] theorem State.setDie_parked (s : State) (d : Nat) (x : Die) : (s.setDie d x).parked = s.parked := rfl
@[simp] theorem State.setDie_jobs (s : State) (d : Nat) (x : Die) : (s.setDie d x).jobs = s.jobs := rfl
@[simp] theorem State.setDie_feet (s : State) (d : Nat) (x : Die) : (s.setDie d x).feet = s.feet := rfl
@[simp] theorem State.setDie_conns (s : State) (d : Nat) (x : Die) : (s.setDie d x).conns = s.conns := rfl
@[simp] theorem State.setDie_mem (s : State) (d : Nat) (x : Die) : (s.setDie d x).mem = s.mem := rfl
@[simp] theorem State.setDie_side (s : State) (d : Nat) (x : Die) : (s.setDie d x).side = s.side := rfl
@[simp] theorem State.setDie_pkg (s : State) (d : Nat) (x : Die) : (s.setDie d x).pkg = s.pkg := rfl
@[simp] theorem State.setDie_cur (s : State) (d : Nat) (x : Die) : (s.setDie d x).cur = s.cur := rfl
@[simp] theorem State.setDie_second (s : State) (d : Nat) (x : Die) : (s.setDie d x).second = s.second := rfl
@[simp] theorem State.setDie_agenda (s : State) (d : Nat) (x : Die) : (s.setDie d x).agenda = s.agenda := rfl
@[simp] theorem State.setDie_turnAt (s : State) (d : Nat) (x : Die) : (s.setDie d x).turnAt = s.turnAt := rfl
@[simp] theorem State.setDie_bars (s : State) (d : Nat) (x : Die) : (s.setDie d x).bars = s.bars := rfl
@[simp] theorem State.setDie_arrivals (s : State) (d : Nat) (x : Die) : (s.setDie d x).arrivals = s.arrivals := rfl
@[simp] theorem State.setDie_seqno (s : State) (d : Nat) (x : Die) : (s.setDie d x).seqno = s.seqno := rfl
@[simp] theorem State.setDie_fresh (s : State) (d : Nat) (x : Die) : (s.setDie d x).fresh = s.fresh := rfl

/-! ### `State.setCtx` -/

@[simp] theorem State.setCtx_groups (s : State) (c : Nat) (x : Ctx) : (s.setCtx c x).groups = s.groups := rfl
@[simp] theorem State.setCtx_teams (s : State) (c : Nat) (x : Ctx) : (s.setCtx c x).teams = s.teams := rfl
@[simp] theorem State.setCtx_cores (s : State) (c : Nat) (x : Ctx) : (s.setCtx c x).cores = s.cores := rfl
@[simp] theorem State.setCtx_dies (s : State) (c : Nat) (x : Ctx) : (s.setCtx c x).dies = s.dies := rfl
@[simp] theorem State.setCtx_ctxs (s : State) (c : Nat) (x : Ctx) : (s.setCtx c x).ctxs = Tab.set s.ctxs c x := rfl
@[simp] theorem State.setCtx_binds (s : State) (c : Nat) (x : Ctx) : (s.setCtx c x).binds = s.binds := rfl
@[simp] theorem State.setCtx_launches (s : State) (c : Nat) (x : Ctx) : (s.setCtx c x).launches = s.launches := rfl
@[simp] theorem State.setCtx_parked (s : State) (c : Nat) (x : Ctx) : (s.setCtx c x).parked = s.parked := rfl
@[simp] theorem State.setCtx_jobs (s : State) (c : Nat) (x : Ctx) : (s.setCtx c x).jobs = s.jobs := rfl
@[simp] theorem State.setCtx_feet (s : State) (c : Nat) (x : Ctx) : (s.setCtx c x).feet = s.feet := rfl
@[simp] theorem State.setCtx_conns (s : State) (c : Nat) (x : Ctx) : (s.setCtx c x).conns = s.conns := rfl
@[simp] theorem State.setCtx_mem (s : State) (c : Nat) (x : Ctx) : (s.setCtx c x).mem = s.mem := rfl
@[simp] theorem State.setCtx_side (s : State) (c : Nat) (x : Ctx) : (s.setCtx c x).side = s.side := rfl
@[simp] theorem State.setCtx_pkg (s : State) (c : Nat) (x : Ctx) : (s.setCtx c x).pkg = s.pkg := rfl
@[simp] theorem State.setCtx_cur (s : State) (c : Nat) (x : Ctx) : (s.setCtx c x).cur = s.cur := rfl
@[simp] theorem State.setCtx_second (s : State) (c : Nat) (x : Ctx) : (s.setCtx c x).second = s.second := rfl
@[simp] theorem State.setCtx_agenda (s : State) (c : Nat) (x : Ctx) : (s.setCtx c x).agenda = s.agenda := rfl
@[simp] theorem State.setCtx_turnAt (s : State) (c : Nat) (x : Ctx) : (s.setCtx c x).turnAt = s.turnAt := rfl
@[simp] theorem State.setCtx_bars (s : State) (c : Nat) (x : Ctx) : (s.setCtx c x).bars = s.bars := rfl
@[simp] theorem State.setCtx_arrivals (s : State) (c : Nat) (x : Ctx) : (s.setCtx c x).arrivals = s.arrivals := rfl
@[simp] theorem State.setCtx_seqno (s : State) (c : Nat) (x : Ctx) : (s.setCtx c x).seqno = s.seqno := rfl
@[simp] theorem State.setCtx_fresh (s : State) (c : Nat) (x : Ctx) : (s.setCtx c x).fresh = s.fresh := rfl

/-! ### `State.report` -/

@[simp] theorem State.report_groups (s : State) (w : String) (a : List Nat) : (s.report w a).groups = s.groups := rfl
@[simp] theorem State.report_teams (s : State) (w : String) (a : List Nat) : (s.report w a).teams = s.teams := rfl
@[simp] theorem State.report_cores (s : State) (w : String) (a : List Nat) : (s.report w a).cores = s.cores := rfl
@[simp] theorem State.report_dies (s : State) (w : String) (a : List Nat) : (s.report w a).dies = s.dies := rfl
@[simp] theorem State.report_ctxs (s : State) (w : String) (a : List Nat) : (s.report w a).ctxs = s.ctxs := rfl
@[simp] theorem State.report_binds (s : State) (w : String) (a : List Nat) : (s.report w a).binds = s.binds := rfl
@[simp] theorem State.report_launches (s : State) (w : String) (a : List Nat) : (s.report w a).launches = s.launches := rfl
@[simp] theorem State.report_parked (s : State) (w : String) (a : List Nat) : (s.report w a).parked = s.parked := rfl
@[simp] theorem State.report_jobs (s : State) (w : String) (a : List Nat) : (s.report w a).jobs = s.jobs := rfl
@[simp] theorem State.report_feet (s : State) (w : String) (a : List Nat) : (s.report w a).feet = s.feet := rfl
@[simp] theorem State.report_conns (s : State) (w : String) (a : List Nat) : (s.report w a).conns = s.conns := rfl
@[simp] theorem State.report_mem (s : State) (w : String) (a : List Nat) : (s.report w a).mem = s.mem := rfl
@[simp] theorem State.report_side (s : State) (w : String) (a : List Nat) : (s.report w a).side = s.side := rfl
@[simp] theorem State.report_pkg (s : State) (w : String) (a : List Nat) : (s.report w a).pkg = { s.pkg with log := s.pkg.log ++ [⟨w, a⟩] } := rfl
@[simp] theorem State.report_cur (s : State) (w : String) (a : List Nat) : (s.report w a).cur = s.cur := rfl
@[simp] theorem State.report_second (s : State) (w : String) (a : List Nat) : (s.report w a).second = s.second := rfl
@[simp] theorem State.report_agenda (s : State) (w : String) (a : List Nat) : (s.report w a).agenda = s.agenda := rfl
@[simp] theorem State.report_turnAt (s : State) (w : String) (a : List Nat) : (s.report w a).turnAt = s.turnAt := rfl
@[simp] theorem State.report_bars (s : State) (w : String) (a : List Nat) : (s.report w a).bars = s.bars := rfl
@[simp] theorem State.report_arrivals (s : State) (w : String) (a : List Nat) : (s.report w a).arrivals = s.arrivals := rfl
@[simp] theorem State.report_seqno (s : State) (w : String) (a : List Nat) : (s.report w a).seqno = s.seqno := rfl
@[simp] theorem State.report_fresh (s : State) (w : String) (a : List Nat) : (s.report w a).fresh = s.fresh := rfl

/-! ### `State.choicesMade` -/

@[simp] theorem State.choicesMade_groups (s : State) : s.choicesMade.groups = s.groups := rfl
@[simp] theorem State.choicesMade_teams (s : State) : s.choicesMade.teams = s.teams := rfl
@[simp] theorem State.choicesMade_cores (s : State) : s.choicesMade.cores = s.cores := rfl
@[simp] theorem State.choicesMade_dies (s : State) : s.choicesMade.dies = s.dies := rfl
@[simp] theorem State.choicesMade_ctxs (s : State) : s.choicesMade.ctxs = s.ctxs := rfl
@[simp] theorem State.choicesMade_binds (s : State) : s.choicesMade.binds = s.binds := rfl
@[simp] theorem State.choicesMade_launches (s : State) : s.choicesMade.launches = s.launches := rfl
@[simp] theorem State.choicesMade_parked (s : State) : s.choicesMade.parked = s.parked := rfl
@[simp] theorem State.choicesMade_jobs (s : State) : s.choicesMade.jobs = s.jobs := rfl
@[simp] theorem State.choicesMade_feet (s : State) : s.choicesMade.feet = s.feet := rfl
@[simp] theorem State.choicesMade_conns (s : State) : s.choicesMade.conns = s.conns := rfl
@[simp] theorem State.choicesMade_mem (s : State) : s.choicesMade.mem = s.mem := rfl
@[simp] theorem State.choicesMade_side (s : State) : s.choicesMade.side = s.side := rfl
@[simp] theorem State.choicesMade_pkg (s : State) : s.choicesMade.pkg = s.pkg := rfl
@[simp] theorem State.choicesMade_cur (s : State) : s.choicesMade.cur = s.cur := rfl
@[simp] theorem State.choicesMade_second (s : State) : s.choicesMade.second = s.second := rfl
@[simp] theorem State.choicesMade_agenda (s : State) : s.choicesMade.agenda = s.agenda := rfl
@[simp] theorem State.choicesMade_turnAt (s : State) : s.choicesMade.turnAt = s.turnAt := rfl
@[simp] theorem State.choicesMade_bars (s : State) : s.choicesMade.bars = s.bars := rfl
@[simp] theorem State.choicesMade_arrivals (s : State) : s.choicesMade.arrivals = s.arrivals := rfl
@[simp] theorem State.choicesMade_seqno (s : State) : s.choicesMade.seqno = s.seqno := rfl
@[simp] theorem State.choicesMade_fresh (s : State) : s.choicesMade.fresh = s.fresh + 2 ^ 52 := rfl

/-! ### Readers -/

@[simp] theorem State.grp_setGrp (s : State) (g : Nat) (x : Group) : (s.setGrp g x).grp g = x := by simp [State.grp]
theorem State.grp_setGrp_ne (s : State) {g h : Nat} (x : Group) (n : h ≠ g) : (s.setGrp g x).grp h = s.grp h := by
  simp [State.grp, Tab.get_set_ne _ _ _ n]
@[simp] theorem State.setGrp_setGrp (s : State) (g : Nat) (x y : Group) : (s.setGrp g x).setGrp g y = s.setGrp g y := by
  simp [State.setGrp, Tab.set_set]
@[simp] theorem State.team_setTeam (s : State) (t : Nat) (x : Team) : (s.setTeam t x).team t = x := by simp [State.team]
theorem State.team_setTeam_ne (s : State) {t u : Nat} (x : Team) (n : u ≠ t) : (s.setTeam t x).team u = s.team u := by
  simp [State.team, Tab.get_set_ne _ _ _ n]
@[simp] theorem State.core_setCore (s : State) (c : Nat) (x : CoreSt) : (s.setCore c x).core c = x := by simp [State.core]
theorem State.core_setCore_ne (s : State) {c d : Nat} (x : CoreSt) (n : d ≠ c) : (s.setCore c x).core d = s.core d := by
  simp [State.core, Tab.get_set_ne _ _ _ n]
@[simp] theorem State.ctx_setCtx (s : State) (c : Nat) (x : Ctx) : (s.setCtx c x).ctx c = x := by simp [State.ctx]
theorem State.ctx_setCtx_ne (s : State) {c d : Nat} (x : Ctx) (n : d ≠ c) : (s.setCtx c x).ctx d = s.ctx d := by
  simp [State.ctx, Tab.get_set_ne _ _ _ n]
theorem State.die_setDie (s : State) (d : Nat) (x : Die) (h : d < s.dies.length) : (s.setDie d x).die d = x := by
  simp [State.die, nth_setNth, h]
theorem State.die_setDie_ne (s : State) {d e : Nat} (x : Die) (n : e ≠ d) : (s.setDie d x).die e = s.die e := by
  simp [State.die, nth_setNth, n]

@[simp] theorem State.team_setGrp (s : State) (g : Nat) (x : Group) (k : Nat) : (s.setGrp g x).team k = s.team k := rfl
@[simp] theorem State.core_setGrp (s : State) (g : Nat) (x : Group) (k : Nat) : (s.setGrp g x).core k = s.core k := rfl
@[simp] theorem State.die_setGrp (s : State) (g : Nat) (x : Group) (k : Nat) : (s.setGrp g x).die k = s.die k := rfl
@[simp] theorem State.ctx_setGrp (s : State) (g : Nat) (x : Group) (k : Nat) : (s.setGrp g x).ctx k = s.ctx k := rfl
@[simp] theorem State.grp_setTeam (s : State) (t : Nat) (x : Team) (k : Nat) : (s.setTeam t x).grp k = s.grp k := rfl
@[simp] theorem State.core_setTeam (s : State) (t : Nat) (x : Team) (k : Nat) : (s.setTeam t x).core k = s.core k := rfl
@[simp] theorem State.die_setTeam (s : State) (t : Nat) (x : Team) (k : Nat) : (s.setTeam t x).die k = s.die k := rfl
@[simp] theorem State.ctx_setTeam (s : State) (t : Nat) (x : Team) (k : Nat) : (s.setTeam t x).ctx k = s.ctx k := rfl
@[simp] theorem State.grp_setCore (s : State) (c : Nat) (x : CoreSt) (k : Nat) : (s.setCore c x).grp k = s.grp k := rfl
@[simp] theorem State.team_setCore (s : State) (c : Nat) (x : CoreSt) (k : Nat) : (s.setCore c x).team k = s.team k := rfl
@[simp] theorem State.die_setCore (s : State) (c : Nat) (x : CoreSt) (k : Nat) : (s.setCore c x).die k = s.die k := rfl
@[simp] theorem State.ctx_setCore (s : State) (c : Nat) (x : CoreSt) (k : Nat) : (s.setCore c x).ctx k = s.ctx k := rfl
@[simp] theorem State.grp_setDie (s : State) (d : Nat) (x : Die) (k : Nat) : (s.setDie d x).grp k = s.grp k := rfl
@[simp] theorem State.team_setDie (s : State) (d : Nat) (x : Die) (k : Nat) : (s.setDie d x).team k = s.team k := rfl
@[simp] theorem State.core_setDie (s : State) (d : Nat) (x : Die) (k : Nat) : (s.setDie d x).core k = s.core k := rfl
@[simp] theorem State.ctx_setDie (s : State) (d : Nat) (x : Die) (k : Nat) : (s.setDie d x).ctx k = s.ctx k := rfl
@[simp] theorem State.grp_setCtx (s : State) (c : Nat) (x : Ctx) (k : Nat) : (s.setCtx c x).grp k = s.grp k := rfl
@[simp] theorem State.team_setCtx (s : State) (c : Nat) (x : Ctx) (k : Nat) : (s.setCtx c x).team k = s.team k := rfl
@[simp] theorem State.core_setCtx (s : State) (c : Nat) (x : Ctx) (k : Nat) : (s.setCtx c x).core k = s.core k := rfl
@[simp] theorem State.die_setCtx (s : State) (c : Nat) (x : Ctx) (k : Nat) : (s.setCtx c x).die k = s.die k := rfl
@[simp] theorem State.grp_report (s : State) (w : String) (a : List Nat) (k : Nat) : (s.report w a).grp k = s.grp k := rfl
@[simp] theorem State.team_report (s : State) (w : String) (a : List Nat) (k : Nat) : (s.report w a).team k = s.team k := rfl
@[simp] theorem State.core_report (s : State) (w : String) (a : List Nat) (k : Nat) : (s.report w a).core k = s.core k := rfl
@[simp] theorem State.die_report (s : State) (w : String) (a : List Nat) (k : Nat) : (s.report w a).die k = s.die k := rfl
@[simp] theorem State.ctx_report (s : State) (w : String) (a : List Nat) (k : Nat) : (s.report w a).ctx k = s.ctx k := rfl
@[simp] theorem State.grp_choicesMade (s : State) (k : Nat) : s.choicesMade.grp k = s.grp k := rfl
@[simp] theorem State.team_choicesMade (s : State) (k : Nat) : s.choicesMade.team k = s.team k := rfl
@[simp] theorem State.core_choicesMade (s : State) (k : Nat) : s.choicesMade.core k = s.core k := rfl
@[simp] theorem State.die_choicesMade (s : State) (k : Nat) : s.choicesMade.die k = s.die k := rfl
@[simp] theorem State.ctx_choicesMade (s : State) (k : Nat) : s.choicesMade.ctx k = s.ctx k := rfl

end Sys2Proof.Machine
end

