-- ==== Sys2Proof/Laws/Memory.lean ====
section
/-!
SUPPORT. Memory: a read after a write, and the canonical form that every memory operation keeps.
-/

namespace Sys2Proof.Machine

/-! ### The canonical form -/

theorem risingFrom_weaken {a b : Nat} (h : b ≤ a) : ∀ {m : List Host.Cell}, risingFrom a m = true → risingFrom b m = true
  | [], _ => rfl
  | (x, v) :: t, hm => by
    simp only [risingFrom, Bool.and_eq_true, decide_eq_true_eq] at hm ⊢
    exact ⟨⟨by omega, hm.1.2⟩, hm.2⟩

theorem writeCell_rising (m : List Host.Cell) (a x : Nat) (v : Byte) (h : risingFrom a m = true) (hx : a < x) :
    risingFrom a (writeCell m x v) = true := by
  induction m generalizing a with
  | nil => unfold writeCell; split <;> simp_all [risingFrom]
  | cons c t ih =>
    obtain ⟨b, w⟩ := c
    simp only [risingFrom, Bool.and_eq_true, decide_eq_true_eq] at h
    unfold writeCell
    split
    · subst_vars
      split
      · exact risingFrom_weaken (by omega) h.2
      · simp_all [risingFrom]
    · split
      · split
        · simp_all [risingFrom]
        · simp_all [risingFrom]
      · have := ih b h.2 (by omega)
        simp_all [risingFrom]

/-- A written byte keeps the canonical form. -/
theorem writeCell_wf (m : List Host.Cell) (x : Nat) (v : Byte) (h : Memory.wf m = true) : Memory.wf (writeCell m x v) = true := by
  cases m with
  | nil => unfold writeCell; split <;> simp_all [Memory.wf, risingFrom]
  | cons c t =>
    obtain ⟨b, w⟩ := c
    simp only [Memory.wf, Bool.and_eq_true] at h
    unfold writeCell
    split
    · subst_vars
      split
      · cases t with
        | nil => rfl
        | cons d u => obtain ⟨d, e⟩ := d; simp_all [risingFrom, Memory.wf]
      · simp_all [Memory.wf]
    · split
      · split
        · simp_all [Memory.wf]
        · simp_all [Memory.wf, risingFrom]
      · have := writeCell_rising t b x v h.2 (by omega)
        simp_all [Memory.wf]

/-- Written bytes keep the canonical form. -/
theorem writeCells_wf (m : List Host.Cell) (a : Nat) (bs : List Byte) (h : Memory.wf m = true) :
    Memory.wf (writeCells m a bs) = true := by
  induction bs generalizing m a with
  | nil => exact h
  | cons b bs ih => exact ih _ _ (writeCell_wf m a b h)

theorem risingFrom_filter (p : Host.Cell → Bool) : ∀ {m : List Host.Cell} {a : Nat}, risingFrom a m = true → risingFrom a (m.filter p) = true
  | [], _, _ => rfl
  | (x, v) :: t, a, h => by
    simp only [risingFrom, Bool.and_eq_true, decide_eq_true_eq] at h
    simp only [List.filter_cons]
    split
    · simp [risingFrom, h, risingFrom_filter p h.2]
    · exact risingFrom_filter p (risingFrom_weaken (by omega) h.2)

theorem wf_of_rising {a : Nat} : ∀ {m : List Host.Cell}, risingFrom a m = true → Memory.wf m = true
  | [], _ => rfl
  | (x, v) :: t, h => by simp_all [risingFrom, Memory.wf]

/-- A cleared range keeps the canonical form. -/
theorem clearCells_wf (m : List Host.Cell) (a n : Nat) (h : Memory.wf m = true) : Memory.wf (clearCells m a n) = true := by
  cases m with
  | nil => rfl
  | cons c t =>
    obtain ⟨x, v⟩ := c
    simp only [Memory.wf, Bool.and_eq_true] at h
    simp only [clearCells, List.filter_cons]
    split
    · simp [Memory.wf, h.1, risingFrom_filter _ h.2]
    · exact wf_of_rising (risingFrom_filter _ h.2)

/-! ### Reading after writing -/

theorem readCell_below {m : List Host.Cell} {a x : Nat} (h : risingFrom a m = true) (hx : x ≤ a) : readCell m x = 0#8 := by
  cases m with
  | nil => rfl
  | cons c t =>
    obtain ⟨b, v⟩ := c
    simp only [risingFrom, Bool.and_eq_true, decide_eq_true_eq] at h
    simp only [readCell]
    rw [if_neg (by omega), if_pos (by omega)]

theorem tail_rising {b : Nat} {v : Byte} {t : List Host.Cell} (h : Memory.wf ((b, v) :: t) = true) : risingFrom b t = true := by
  simp only [Memory.wf, Bool.and_eq_true] at h; exact h.2

/-- The byte just written. -/
theorem readCell_writeCell (m : List Host.Cell) (x : Nat) (v : Byte) (h : Memory.wf m = true) : readCell (writeCell m x v) x = v := by
  induction m with
  | nil => unfold writeCell; split <;> simp_all [readCell]
  | cons c t ih =>
    obtain ⟨b, w⟩ := c
    have ht := tail_rising h
    unfold writeCell
    split
    · subst_vars
      split
      · subst_vars; exact readCell_below ht (Nat.le_refl _)
      · simp [readCell]
    · split
      · split
        · subst_vars; rw [readCell, if_neg (by omega), if_pos (by omega)]
        · simp [readCell]
      · rw [readCell, if_neg (by omega), if_neg (by omega), ih (wf_of_rising ht)]

/-- Every other byte. -/
theorem readCell_writeCell_ne (m : List Host.Cell) {x y : Nat} (v : Byte) (h : Memory.wf m = true) (n : y ≠ x) :
    readCell (writeCell m x v) y = readCell m y := by
  induction m with
  | nil =>
    unfold writeCell; split
    · rfl
    · simp only [readCell]; rw [if_neg (Ne.symm n)]; split <;> rfl
  | cons c t ih =>
    obtain ⟨b, w⟩ := c
    have ht := tail_rising h
    unfold writeCell
    split
    · subst_vars
      split
      · rw [readCell, if_neg (Ne.symm n)]
        split
        · exact readCell_below ht (by omega)
        · rfl
      · rw [readCell, readCell, if_neg (Ne.symm n), if_neg (Ne.symm n)]
    · split
      · split
        · rfl
        · rename_i hb _
          rw [readCell, if_neg (Ne.symm n)]
          split
          · rw [readCell, if_neg (by omega), if_pos (by omega)]
          · rfl
      · rw [readCell, readCell, ih (wf_of_rising ht)]

/-- A byte of a range just written, and a byte outside it. -/
theorem readCell_writeCells (m : List Host.Cell) (a : Nat) (bs : List Byte) (h : Memory.wf m = true) (y : Nat) :
    readCell (writeCells m a bs) y = if a ≤ y ∧ y < a + bs.length then nth 0#8 bs (y - a) else readCell m y := by
  induction bs generalizing m a with
  | nil => simp only [writeCells, List.length_nil]; rw [if_neg (by omega)]
  | cons b bs ih =>
    rw [writeCells, ih _ _ (writeCell_wf m a b h)]
    simp only [List.length_cons]
    by_cases e : y = a
    · subst e
      rw [if_neg (by omega), if_pos (by omega), readCell_writeCell m y b h]; simp [nth]
    · by_cases g : a + 1 ≤ y ∧ y < a + 1 + bs.length
      · rw [if_pos g, if_pos (by omega)]
        obtain ⟨k, hk⟩ : ∃ k, y - a = k + 1 := ⟨y - a - 1, by omega⟩
        rw [hk, show y - (a + 1) = k by omega]; rfl
      · rw [if_neg g, readCell_writeCell_ne m b h e, if_neg (by omega)]

@[simp] theorem rangeFrom_length (a n : Nat) : (rangeFrom a n).length = n := by
  induction n generalizing a with
  | zero => rfl
  | succ n ih => simp [rangeFrom, ih]

theorem mem_rangeFrom {a n x : Nat} : x ∈ rangeFrom a n ↔ a ≤ x ∧ x < a + n := by
  induction n generalizing a with
  | zero => simp [rangeFrom]
  | succ n ih => simp [rangeFrom, ih]; omega

theorem nth_rangeFrom (d a n i : Nat) : nth d (rangeFrom a n) i = if i < n then a + i else d := by
  induction n generalizing a i with
  | zero => simp [rangeFrom, nth]
  | succ n ih =>
    cases i with
    | zero => simp [rangeFrom, nth]
    | succ i => simp [rangeFrom, nth, ih, Nat.add_assoc, Nat.add_comm 1]

theorem nth_map {α β : Type} (d : β) (e : α) (f : α → β) (xs : List α) (i : Nat) (h : i < xs.length) :
    nth d (xs.map f) i = f (nth e xs i) := by
  induction xs generalizing i with
  | nil => simp at h
  | cons x xs ih => cases i with
    | zero => rfl
    | succ i => exact ih i (by simpa using h)

/-! ### Lines and side-band words -/

@[simp] theorem State.setSide_mem (s : State) (l : Nat) (x : Side) : (s.setSide l x).mem = s.mem := rfl
@[simp] theorem State.setSide_groups (s : State) (l : Nat) (x : Side) : (s.setSide l x).groups = s.groups := rfl
@[simp] theorem State.setSide_teams (s : State) (l : Nat) (x : Side) : (s.setSide l x).teams = s.teams := rfl
@[simp] theorem State.setSide_cores (s : State) (l : Nat) (x : Side) : (s.setSide l x).cores = s.cores := rfl

/-- A written line keeps the canonical form of physical memory. -/
theorem State.writeLine_wf (s : State) (key line pa : Nat) (bs : List Byte) (h : Memory.wf s.mem = true) :
    Memory.wf (s.writeLine key line pa bs).mem = true := by
  simp only [State.writeLine, State.setSide_mem]
  exact writeCells_wf _ _ _ h

/-- So do bytes written over several lines. -/
theorem State.writeAs_wf (s : State) (key pa : Nat) (bs : List Byte) (h : Memory.wf s.mem = true) :
    Memory.wf (s.writeAs key pa bs).mem = true := by
  unfold State.writeAs
  split
  · exact h
  · generalize rangeFrom (pa / 64) _ = ls
    induction ls generalizing s with
    | nil => exact h
    | cons l ls ih => rw [List.foldl_cons]; exact ih _ (s.writeLine_wf key l pa bs h)

@[simp] theorem State.closeLine_mem (s : State) (l : Nat) : (s.closeLine l).mem = s.mem := by
  simp only [State.closeLine]; split <;> rfl

theorem State.writeUnit_wf (s : State) (key pa : Nat) (bs : List Byte) (h : Memory.wf s.mem = true) :
    Memory.wf (s.writeUnit key pa bs).mem = true := by
  have w := s.writeAs_wf key pa bs h
  have fold : ∀ (ls : List Nat) (t : State), (ls.foldl State.closeLine t).mem = t.mem := fun ls => by
    induction ls with
    | nil => exact fun _ => rfl
    | cons l ls ih => exact fun t => (ih _).trans (t.closeLine_mem l)
  unfold State.writeUnit
  simp only
  split
  · exact w
  · rw [fold]; exact w

/-! ### What a write leaves (R212) -/

/-- A state that differs from another in the memory and side-band words of some lines alone. -/
structure State.SameBut (L : Nat → Prop) (s t : State) : Prop where
  wf   : Memory.wf t.mem = true
  pkg  : t.pkg = s.pkg
  ctxs : t.ctxs = s.ctxs
  cell : ∀ x, ¬L (x / 64) → readCell t.mem x = readCell s.mem x
  side : ∀ l, ¬L l → t.sideOf l = s.sideOf l

namespace State.SameBut

theorem refl (L : Nat → Prop) {s : State} (h : Memory.wf s.mem = true) : SameBut L s s := ⟨h, rfl, rfl, fun _ _ => rfl, fun _ _ => rfl⟩

theorem trans {L : Nat → Prop} {s t u : State} (a : SameBut L s t) (b : SameBut L t u) : SameBut L s u :=
  ⟨b.wf, b.pkg.trans a.pkg, b.ctxs.trans a.ctxs, fun x n => (b.cell x n).trans (a.cell x n), fun l n => (b.side l n).trans (a.side l n)⟩

/-- What each step of a fold keeps, the fold keeps. -/
theorem fold {α : Type} {L : Nat → Prop} (f : State → α → State) (xs : List α)
    (h : ∀ x ∈ xs, ∀ s : State, Memory.wf s.mem = true → SameBut L s (f s x)) (s : State) (w : Memory.wf s.mem = true) : SameBut L s (xs.foldl f s) := by
  induction xs generalizing s with
  | nil => exact refl L w
  | cons x xs ih =>
    have a := h x (List.mem_cons_self ..) s w
    exact a.trans (ih (fun y m => h y (List.mem_cons_of_mem x m)) _ a.wf)

end State.SameBut

/-- The side-band word of another line. -/
theorem State.sideOf_setSide_ne (s : State) {l m : Nat} (x : Side) (h : m ≠ l) : (s.setSide l x).sideOf m = s.sideOf m := by
  simp only [State.setSide, State.sideOf]
  split
  · simp [Tab.get, Tab.find_drop_ne _ h]
  · exact Tab.get_set_ne _ _ _ h

theorem State.setSide_sameBut (s : State) (l : Nat) (x : Side) (w : Memory.wf s.mem = true) : State.SameBut (· = l) s (s.setSide l x) :=
  ⟨w, rfl, rfl, fun _ _ => rfl, fun _ n => s.sideOf_setSide_ne x n⟩

theorem State.closeLine_sameBut (s : State) (l : Nat) (w : Memory.wf s.mem = true) : State.SameBut (· = l) s (s.closeLine l) := by
  simp only [State.closeLine]
  split
  · exact s.setSide_sameBut l _ w
  · exact .refl _ w

theorem State.writeLine_sameBut (s : State) (key line pa : Nat) (bs : List Byte) (w : Memory.wf s.mem = true) :
    State.SameBut (· = line) s (s.writeLine key line pa bs) := by
  have wf := s.writeLine_wf key line pa bs w
  revert wf
  simp only [State.writeLine]
  generalize new : List.map _ (rangeFrom (64 * line) 64) = bytes
  have len : bytes.length = 64 := by rw [← new, List.length_map, rangeFrom_length]
  refine fun wf => ⟨wf, rfl, rfl, fun x n => ?_, fun l n => State.sideOf_setSide_ne _ _ n⟩
  rw [State.setSide_mem, readCell_writeCells _ _ _ w, if_neg (by omega)]

theorem State.SameBut.weaken {L M : Nat → Prop} {s t : State} (a : State.SameBut L s t) (h : ∀ l, L l → M l) : State.SameBut M s t :=
  ⟨a.wf, a.pkg, a.ctxs, fun x n => a.cell x fun y => n (h _ y), fun l n => a.side l fun y => n (h _ y)⟩

/-- A write of a party that is no group changes the lines that it covers alone. -/
theorem State.writeUnit_sameBut (s : State) (key pa : Nat) (bs : List Byte) (w : Memory.wf s.mem = true) :
    State.SameBut (fun l => pa / 64 ≤ l ∧ l ≤ (pa + bs.length - 1) / 64) s (s.writeUnit key pa bs) := by
  have inside : ∀ {l : Nat}, l ∈ rangeFrom (pa / 64) ((pa + bs.length - 1) / 64 + 1 - pa / 64) → pa / 64 ≤ l ∧ l ≤ (pa + bs.length - 1) / 64 :=
    fun m => by rw [mem_rangeFrom] at m; omega
  have written : State.SameBut (fun l => pa / 64 ≤ l ∧ l ≤ (pa + bs.length - 1) / 64) s (s.writeAs key pa bs) := by
    unfold State.writeAs
    split
    · exact .refl _ w
    · exact .fold _ _ (fun l m t h => (t.writeLine_sameBut key l pa bs h).weaken fun _ e => e ▸ inside m) s w
  simp only [State.writeUnit]
  split
  · exact written
  · exact written.trans (.fold _ _ (fun l m t h => (t.closeLine_sameBut l h).weaken fun _ e => e ▸ inside m) _ written.wf)

/-- A byte of any other line reads as before, under every identifier. -/
theorem State.SameBut.byteAs {L : Nat → Prop} {s t : State} (a : State.SameBut L s t) (key x : Nat) (n : ¬L (x / 64)) :
    t.byteAs key x = s.byteAs key x := by
  have block : t.block16 x = s.block16 x := by
    unfold State.block16 readCells
    congr 1
    refine List.map_congr_left fun y m => a.cell y ?_
    rw [mem_rangeFrom] at m
    rwa [show y / 64 = x / 64 by omega]
  have gen : t.keyGenOf key = s.keyGenOf key := by simp only [State.keyGenOf, a.pkg]
  simp only [State.byteAs, a.side _ n, a.cell x n, block, gen]

/-- Bytes written into a window keep the canonical form of every window. -/
theorem State.spadWrite_wf (s : State) (team off : Nat) (bs : List Byte) (h : ∀ t, Memory.wf (s.team t).spad = true) (t : Nat) :
    Memory.wf ((s.spadWrite team off bs).team t).spad = true := by
  by_cases e : t = team
  · subst e; simpa [State.spadWrite] using writeCells_wf _ _ _ (h t)
  · rw [State.spadWrite, State.team_setTeam_ne _ _ e]; exact h t

end Sys2Proof.Machine
end

