-- ==== Sys2Proof/Laws/Host.lean ====
section
/-!
SUPPORT. The lengths of what firmware writes for the host: hashes, reports and the words beside them; and a write of the aperture within one page.
-/

namespace Sys2Proof.Machine

open Sys2Proof

@[simp] theorem leBytes_length (n x : Nat) : (leBytes n x).length = n := by
  induction n generalizing x with
  | zero => rfl
  | succ n ih => simp [leBytes, ih]

@[simp] theorem upto_length (n : Nat) : (upto n).length = n := rangeFrom_length 0 n

@[simp] theorem mem_upto {n k : Nat} : k ∈ upto n ↔ k < n := by simp [upto, mem_rangeFrom]

theorem padTo_length (n : Nat) (bs : List Byte) (h : bs.length ≤ n) : (padTo n bs).length = n := by
  simp [padTo]; omega

theorem shaRounds_length (r : List (Word × Word)) (h : List Word) (e : h.length = 8) : (shaRounds h r).length = 8 := by
  induction r generalizing h with
  | nil => exact e
  | cons _ _ ih => exact ih _ rfl

theorem shaBlock_length (h : List Word) (bs : List Byte) (e : h.length = 8) : (shaBlock h bs).length = 8 := by
  simp [shaBlock, shaRounds_length _ h e, e]

theorem shaBlocks_length (n : Nat) (h : List Word) (bs : List Byte) (e : h.length = 8) : (shaBlocks n h bs).length = 8 := by
  induction n generalizing h bs with
  | zero => exact e
  | succ n ih => exact ih _ _ (shaBlock_length h _ e)

/-- A hash is 32 bytes. -/
@[simp] theorem sha256_length (bs : List Byte) : (sha256 bs).length = 32 := by
  simp [sha256, List.length_flatMap, shaBlocks_length _ shaInit _ rfl]

@[simp] theorem beBytes_length (n x : Nat) : (beBytes n x).length = n := by simp [beBytes]

/-- The public key of the device is 64 bytes, and its signatures are. -/
@[simp] theorem identityPublic_length : identityPublic.length = 64 := by rw [identityPublic]; simp
@[simp] theorem identitySign_length (n : Nat) (msg : List Byte) : (identitySign n msg).length = 64 := by rw [identitySign]; simp

/-- The signed part of a report over a nonce of 32 bytes is 216 bytes. -/
theorem reportBody_length (s : State) (nonce : List Byte) (n : nonce.length = 32) (h : s.pkg.fwhash.length ≤ 32) :
    (s.reportBody nonce).length = 216 := by
  simp [State.reportBody, State.relHash, List.length_flatMap, n, padTo_length _ _ h]

/-- A write that stays in one page which its translation lets through succeeds. -/
theorem writeVirt_page (s : State) (u ctx va : Nat) (bs : List Byte) (fits : va % 65536 + bs.length ≤ 65536) (n : bs ≠ [])
    (ok : (s.xlateNow u ctx (va / 65536 * 65536 % 2 ^ 48) .write).code = 0) : ∃ t, s.writeVirt u ctx va bs = .ok t := by
  have pos := List.length_pos_of_ne_nil n
  have span : (va + bs.length - 1) / 65536 + 1 - va / 65536 = 1 := by omega
  have quiet : (rangeFrom (va / 65536) 1).find? (fun p => (s.xlateNow u ctx (p * 65536 % 2 ^ 48) .write).code != 0) = none := by
    simp only [rangeFrom, List.find?_cons, List.find?_nil, ok, bne_self_eq_false]
  simp only [State.writeVirt, span, quiet]
  exact ⟨_, rfl⟩

/-- A write through the aperture of a live context that stays in one page which its translation lets through succeeds. -/
theorem hostWrite_page (s : State) (off va : Nat) (bs : List Byte) (live : (s.ctx (apCtx off)).live = true)
    (at' : ((s.ctx (apCtx off)).hapbase + apOff off) % 2 ^ 48 = va) (fits : va % 65536 + bs.length ≤ 65536) (n : bs ≠ []) (inside : apCrosses off bs.length = false)
    (ok : (s.xlateNow ioUnit (apCtx off) (va / 65536 * 65536 % 2 ^ 48) .write).code = 0) : ∃ t, s.hostWrite off bs = some t := by
  obtain ⟨t, e⟩ := writeVirt_page s ioUnit (apCtx off) va bs fits n ok
  refine ⟨t, ?_⟩
  simp only [State.hostWrite, live, inside, at', e, Bool.not_true, Bool.or_self, Bool.false_eq_true, if_false]

/-- A page of an expander zeroed leaves every entry of a page table that lies elsewhere. -/
theorem State.zeroTier_pte (key : Nat) (s : State) (frame table i : Nat) (w : Memory.wf s.mem = true)
    (n : ∀ k, k < 8 → (table + 8 * i + k) / 64 < frame / 64 ∨ frame / 64 + 1024 < (table + 8 * i + k) / 64) :
    (State.zeroTier key s frame).pte table i = s.pte table i ∧ (State.zeroTier key s frame).pkg = s.pkg
      ∧ (State.zeroTier key s frame).ctxs = s.ctxs := by
  have a : State.SameBut (fun l => frame / 64 ≤ l ∧ l ≤ frame / 64 + 1024) s (State.zeroTier key s frame) := by
    refine .fold _ _ (fun l m t h => (t.writeUnit_sameBut key (frame + 64 * l) _ h).weaken fun k e => ?_) s w
    rw [mem_upto] at m
    rw [List.length_replicate] at e
    omega
  refine ⟨?_, a.pkg, a.ctxs⟩
  rw [State.pte, State.pte, State.bytesAs, State.bytesAs]
  refine congrArg leVal (List.map_congr_left fun x m => a.byteAs 0 x ?_)
  rw [mem_rangeFrom] at m
  have := n (x - (table + 8 * i)) (by omega)
  rw [show table + 8 * i + (x - (table + 8 * i)) = x by omega] at this
  omega

end Sys2Proof.Machine
end

