-- ==== Sys2Proof/Laws/Issue.lean ====
section
/-!
SUPPORT. One lemma per shared operation of the lanes' instructions: what an issue with nothing in its way answers, what the step to the
successor changes, and what a computing instruction leaves.
-/

namespace Sys2Proof

open Sys2Proof.Machine

/-! ### The frame of an issue -/

theorem runs_split {i : Instr} {f : Fields} {s : State} {chk : View → Nat → Check} (h : runs i f s chk = true) :
    ofLanes s = true ∧ s.me.bound = true ∧ staticFault s s.cur i = none ∧ waits i (s.view f) s = false ∧ debugFault s s.cur = none
      ∧ firstCheck (laneTest s i (s.view f) (chk (s.view f))) (lanesOf (s.view f).act) = .ok
      ∧ waitsLate i (s.view f) s = false := by
  simpa [runs, Bool.and_eq_true, and_assoc] using h

/-- With nothing in its way an instruction of the lanes has its effect. -/
theorem issuedChk_runs {i : Instr} {f : Fields} {s : State} {chk : View → Nat → Check} (k : View → State)
    (h : runs i f s chk = true) : issuedChk i f s chk k = .next (k (s.view f)) := by
  obtain ⟨a, b, c, d, e, g, w⟩ := runs_split h
  unfold issuedChk
  cases hs : s.cur.src with
  | seq q => simp [ofLanes, hs] at a
  | lanes m => simp only [State.me] at b; simp [b, c, d, e, g, w]
  | signed => simp only [State.me] at b; simp [b, c, d, e, g, w]

theorem issued_runs {i : Instr} {f : Fields} {s : State} (k : View → State) (h : free i f s = true) :
    issued i f s k = .next (k (s.view f)) := issuedChk_runs k h

/-- A fault of the word is taken, whatever the instruction. -/
theorem issuedChk_static {i : Instr} {f : Fields} {s : State} {chk : View → Nat → Check} (k : View → State) {r : TrapInfo}
    (a : ofLanes s = true) (b : s.me.bound = true) (c : staticFault s s.cur i = some r) :
    issuedChk i f s chk k = .next (s.trapNow r) := by
  unfold issuedChk
  cases hs : s.cur.src with
  | seq q => simp [ofLanes, hs] at a
  | lanes m => simp only [State.me] at b; simp [b, c]
  | signed => simp only [State.me] at b; simp [b, c]

/-- An instruction that is not ready changes nothing. -/
theorem issuedChk_waits {i : Instr} {f : Fields} {s : State} {chk : View → Nat → Check} (k : View → State)
    (a : ofLanes s = true) (b : s.me.bound = true) (c : staticFault s s.cur i = none) (d : waits i (s.view f) s = true) :
    issuedChk i f s chk k = .next s := by
  unfold issuedChk
  cases hs : s.cur.src with
  | seq q => simp [ofLanes, hs] at a
  | lanes m => simp only [State.me] at b; simp [b, c, d]
  | signed => simp only [State.me] at b; simp [b, c, d]

/-- A sequencer's instruction of its class has its effect. -/
theorem sequenced_runs {i : Instr} {f : Fields} {s : State} {q : Nat} {c : Bool} (k : State → State)
    (h : seqRuns i f s q c = true) : sequenced i f s q c k = .next (k s) := by
  simp only [seqRuns, Bool.and_eq_true, beq_iff_eq, Bool.not_eq_true', State.me] at h
  obtain ⟨⟨⟨⟨-, a⟩, b⟩, d⟩, e⟩ := h
  simp [sequenced, a, b, d, e]

/-! ### The view -/

@[simp] theorem view_g (s : State) (f : Fields) : (s.view f).g = s.me := rfl
@[simp] theorem view_gid (s : State) (f : Fields) : (s.view f).gid = s.cur.gid := rfl
@[simp] theorem view_iss (s : State) (f : Fields) : (s.view f).iss = s.cur.lanes := rfl
@[simp] theorem view_w (s : State) (f : Fields) : (s.view f).w = s.before := rfl

theorem any_iff (s : State) (f : Fields) : (s.view f).any = true ↔ (s.view f).act ≠ 0#32 := by simp [View.any]

/-! ### Registers of a group -/

@[simp] theorem setV_rest (g : Group) (n : Nat) (m : Word) (x : Nat → Word) : (g.setV n m x).rest = g.rest := rfl
@[simp] theorem setP_rest (g : Group) (n : Nat) (m : Word) (x : Nat → Half) : (g.setP n m x).rest = g.rest := rfl
@[simp] theorem setU_rest (g : Group) (n : Nat) (x : Word) : (g.setU n x).rest = g.rest := rfl

/-- A vector register after lanes of one are written. -/
theorem vr_setV (g : Group) (d : Nat) (m : Word) (x : Nat → Word) (n : Nat) {l : Nat} (hl : l < 32) :
    (g.setV d m x).vr n l = if n = d ∧ m.getLsbD l then x l else g.vr n l := by
  by_cases h : n = d
  · subst h; simp [Group.setV, Group.vr, nth_mkLanes _ _ hl]
  · simp [Group.setV, Group.vr, Tab.get_set_ne _ _ _ h, h]

/-- A predicate register after lanes of one are written; `p15` reads as before. -/
theorem pr_setP (g : Group) (d : Nat) (m : Word) (x : Nat → Half) (n : Nat) {l : Nat} (hl : l < 32) :
    (g.setP d m x).pr n l = if n ≠ 15 ∧ n = d ∧ m.getLsbD l then x l else g.pr n l := by
  by_cases h15 : n = 15
  · simp [Group.pr, h15]
  by_cases h : n = d
  · subst h
    simp only [Group.pr, if_neg h15, Group.setP, Tab.get_set, nth_mkLanes _ _ hl]
    simp [h15]
  · simp [Group.setP, Group.pr, Tab.get_set_ne _ _ _ h, h]

/-- A uniform register after one is written. -/
theorem ur_setU (g : Group) (d : Nat) (x : Word) (n : Nat) : (g.setU d x).ur n = if n = d then x else g.ur n := by
  by_cases h : n = d
  · subst h; simp [Group.setU, Group.ur]
  · simp [Group.setU, Group.ur, Tab.get_set_ne _ _ _ h, h]

@[simp] theorem ur_setV (g : Group) (d : Nat) (m : Word) (x : Nat → Word) (n : Nat) : (g.setV d m x).ur n = g.ur n := rfl
@[simp] theorem pr_setV (g : Group) (d : Nat) (m : Word) (x : Nat → Word) (n l : Nat) : (g.setV d m x).pr n l = g.pr n l := rfl
@[simp] theorem vr_setP (g : Group) (d : Nat) (m : Word) (x : Nat → Half) (n l : Nat) : (g.setP d m x).vr n l = g.vr n l := rfl
@[simp] theorem ur_setP (g : Group) (d : Nat) (m : Word) (x : Nat → Half) (n : Nat) : (g.setP d m x).ur n = g.ur n := rfl
@[simp] theorem vr_setU (g : Group) (d : Nat) (x : Word) (n l : Nat) : (g.setU d x).vr n l = g.vr n l := rfl
@[simp] theorem pr_setU (g : Group) (d : Nat) (x : Word) (n l : Nat) : (g.setU d x).pr n l = g.pr n l := rfl
@[simp] theorem setV_lanes (g : Group) (d : Nat) (m : Word) (x : Nat → Word) : (g.setV d m x).lanes = g.lanes := rfl
@[simp] theorem setP_lanes (g : Group) (d : Nat) (m : Word) (x : Nat → Half) : (g.setP d m x).lanes = g.lanes := rfl
@[simp] theorem setU_lanes (g : Group) (d : Nat) (x : Word) : (g.setU d x).lanes = g.lanes := rfl
@[simp] theorem setV_s (g : Group) (d : Nat) (m : Word) (x : Nat → Word) : (g.setV d m x).s = g.s := rfl
@[simp] theorem setV_p (g : Group) (d : Nat) (m : Word) (x : Nat → Word) : (g.setV d m x).p = g.p := rfl
@[simp] theorem setP_v (g : Group) (d : Nat) (m : Word) (x : Nat → Half) : (g.setP d m x).v = g.v := rfl
@[simp] theorem setP_s (g : Group) (d : Nat) (m : Word) (x : Nat → Half) : (g.setP d m x).s = g.s := rfl
@[simp] theorem setU_v (g : Group) (d : Nat) (x : Word) : (g.setU d x).v = g.v := rfl
@[simp] theorem setU_p (g : Group) (d : Nat) (x : Word) : (g.setU d x).p = g.p := rfl
@[simp] theorem setV_csr (g : Group) (d : Nat) (m : Word) (x : Nat → Word) : (g.setV d m x).csr = g.csr := rfl
@[simp] theorem setP_csr (g : Group) (d : Nat) (m : Word) (x : Nat → Half) : (g.setP d m x).csr = g.csr := rfl
@[simp] theorem setU_csr (g : Group) (d : Nat) (x : Word) : (g.setU d x).csr = g.csr := rfl

theorem lane_mapLanes (g : Group) (f : Nat → Lane → Lane) {l : Nat} (h : l < 32) : (g.mapLanes f).lane l = f l (g.lane l) := by
  simp [Group.mapLanes, Group.lane, nth_mkLanes _ _ h]

@[simp] theorem mapLanes_rest (g : Group) (f : Nat → Lane → Lane) : (g.mapLanes f).rest = g.rest := rfl

/-- Clearing the yield marks changes the lanes' marks alone. -/
theorem clearMarks_eq (g : Group) : ∃ ls, g.clearMarks = { g with lanes := ls }
    ∧ ∀ l, l < 32 → (nth {} ls l).pc = (g.lane l).pc := by
  unfold Group.clearMarks
  split
  · exact ⟨_, rfl, fun l h => by rw [nth_mkLanes _ _ h]⟩
  · exact ⟨g.lanes, rfl, fun _ _ => rfl⟩

/-! ### Effects on one group -/

@[simp] theorem me_setGrp (s : State) (h : Group) : (s.setGrp s.cur.gid h).me = h := by simp [State.me]

theorem onlyGroup_setGrp (s : State) (h : Group) : onlyGroup s (s.setGrp s.cur.gid h) :=
  ⟨rfl, fun _ n => State.grp_setGrp_ne s h n⟩

theorem onlyGroup_refl (s : State) : onlyGroup s s := ⟨rfl, fun _ _ => rfl⟩

/-- A state whose issuing group alone is replaced is framed where the group's rest is as before. -/
theorem framed_setGrp (s : State) {h : Group} (e : h.rest = s.me.rest) : framed s (s.setGrp s.cur.gid h) :=
  ⟨onlyGroup_setGrp s h, fun _ => rfl, by rw [me_setGrp]; exact e⟩

/-- The lanes of an issue rewritten: one group is replaced, by one that differs in its lanes and in what an issue uses up. -/
theorem moveLanes_eq (s : State) (f : Nat → Lane → Lane) :
    ∃ h, s.moveLanes f = s.setGrp s.cur.gid h ∧ h.rest = s.me.rest ∧ h.v = s.me.v ∧ h.s = s.me.s ∧ h.p = s.me.p ∧ h.csr = s.me.csr
      ∧ h.bad = s.me.bad ∧ ∀ l, l < 32 → (h.lane l).pc = (f l (s.me.lane l)).pc := by
  obtain ⟨ls, e, hl⟩ := clearMarks_eq (s.me.mapLanes f)
  refine ⟨_, rfl, ?_⟩
  simp only [State.me] at e hl ⊢
  rw [e]
  exact ⟨rfl, rfl, rfl, rfl, rfl, rfl, fun l h => (hl l h).trans (by rw [lane_mapLanes _ _ h])⟩

/-- The step of the issuing lanes, each to its target or to the successor. -/
theorem retireTo_eq (s : State) (tgt : Nat → Option Nat) :
    ∃ h, s.retireTo tgt = s.setGrp s.cur.gid h ∧ h.rest = s.me.rest ∧ h.v = s.me.v ∧ h.s = s.me.s ∧ h.p = s.me.p ∧ h.csr = s.me.csr
      ∧ h.bad = s.me.bad ∧ ∀ l, l < 32 → (h.lane l).pc
        = if s.cur.lanes.getLsbD l then lpcOf ((tgt l).getD (seqPc s.cur.pc s.cur.len)) else (s.me.lane l).pc := by
  obtain ⟨h, e, a, b, c, d, g, i, hl⟩ := moveLanes_eq s fun l n =>
    if s.cur.lanes.getLsbD l then laneAfter s.cur ((tgt l).getD (seqPc s.cur.pc s.cur.len)) (tgt l).isSome n else n
  refine ⟨h, e, a, b, c, d, g, i, fun l hlt => (hl l hlt).trans ?_⟩
  split <;> rfl

/-- What an instruction leaves that replaces its group by `h`, with the lanes as they were, and steps. -/
theorem retireTo_group (s : State) (h : Group) (tgt : Nat → Option Nat) (e : h.rest = s.me.rest) (el : h.lanes = s.me.lanes) :
    let t := (s.setGrp s.cur.gid h).retireTo tgt
    framed s t ∧ goes s t tgt ∧ t.me.v = h.v ∧ t.me.s = h.s ∧ t.me.p = h.p ∧ t.me.csr = h.csr := by
  obtain ⟨k, ek, a, b, c, d, g, -, hl⟩ := retireTo_eq (s.setGrp s.cur.gid h) tgt
  simp only [State.setGrp_cur, me_setGrp, State.setGrp_setGrp] at ek a b c d g hl
  simp only [ek]
  refine ⟨framed_setGrp s (a.trans e), fun l hlt => ?_, ?_, ?_, ?_, ?_⟩
  · rw [me_setGrp]
    refine (hl l hlt).trans ?_
    have : h.lane l = s.me.lane l := by simp [Group.lane, el]
    rw [this]
  all_goals rw [me_setGrp]; assumption

theorem sameV_of {s t : State} {h : Group} (e : t.me.v = h.v) (k : h.v = s.me.v) : sameV s t := by
  intro n l _; simp [Group.vr, e, k]
theorem sameU_of {s t : State} {h : Group} (e : t.me.s = h.s) (k : h.s = s.me.s) : sameU s t := by
  intro n; simp [Group.ur, e, k]
theorem sameP_of {s t : State} {h : Group} (e : t.me.p = h.p) (k : h.p = s.me.p) : sameP s t := by
  intro n l _; simp [Group.pr, e, k]
theorem vr_of {g h : Group} (e : g.v = h.v) (n l : Nat) : g.vr n l = h.vr n l := by simp [Group.vr, e]
theorem ur_of {g h : Group} (e : g.s = h.s) (n : Nat) : g.ur n = h.ur n := by simp [Group.ur, e]
theorem pr_of {g h : Group} (e : g.p = h.p) (n l : Nat) : g.pr n l = h.pr n l := by simp [Group.pr, e]

/-! ### Sticky flags -/

theorem allFlags_from (m : Nat) (evs : List Ev) : evs.foldl (fun m e => m ||| e.flags) m = m ||| allFlags evs := by
  induction evs generalizing m with
  | nil => simp [allFlags]
  | cons e es ih => simp only [allFlags, List.foldl_cons] at ih ⊢; rw [ih, ih (0 ||| e.flags)]; simp [Nat.or_assoc]

theorem allFlags_cons (e : Ev) (es : List Ev) : allFlags (e :: es) = e.flags ||| allFlags es := by
  show es.foldl _ (0 ||| e.flags) = _
  rw [allFlags_from]; simp

theorem allFlags_filter (evs : List Ev) : allFlags (evs.filter (·.flags != 0)) = allFlags evs := by
  induction evs with
  | nil => rfl
  | cons e es ih =>
    rw [List.filter_cons, allFlags_cons]
    split
    · rw [allFlags_cons, ih]
    · rename_i h; simp at h; rw [ih, h]; simp

/-- Recorded events change the sticky flags and their first record alone. -/
theorem recordRanked_spec (g : Group) (rank src pc : Nat) (evs : List Ev) :
    let h := recordRanked g rank src pc evs
    h.rest = g.rest ∧ h.v = g.v ∧ h.s = g.s ∧ h.p = g.p ∧ h.lanes = g.lanes
      ∧ h.csr.fstat = g.csr.fstat ||| BitVec.ofNat 32 (allFlags evs)
      ∧ h.csr.ffirst = firstRecord g rank src pc evs := by
  have hf : evs.find? (·.flags != 0) = (evs.filter (·.flags != 0)).head? := by rw [List.head?_filter]
  have ha := allFlags_filter evs
  simp only [firstRecord, hf]
  cases he : evs.filter (·.flags != 0) with
  | nil =>
    rw [he] at ha
    have : recordRanked g rank src pc evs = g := by unfold recordRanked; rw [he]
    simp only [this, List.head?_nil]
    refine ⟨trivial, trivial, trivial, trivial, trivial, ?_, trivial⟩
    rw [← ha]; simp [allFlags]
  | cons e es =>
    rw [he] at ha
    unfold recordRanked
    simp only [he, List.head?_cons, ha]
    refine ⟨rfl, trivial, trivial, trivial, trivial, trivial, ?_⟩
    simp [Bool.or_eq_true]

/-! ### Results -/

theorem view_act_result (s : State) (f : Fields) : (s.view f).act = guardMask s.me f s.cur.lanes := rfl

/-- A uniform register written by the present issue, unless the primary instruction of the cycle wrote it. -/
theorem writeU_eq (s : State) (n : Nat) (x : Word) :
    s.writeU n x = s.setGrp s.cur.gid (if taken s n then s.me else s.me.setU n x) ∨ (taken s n = true ∧ s.writeU n x = s) := by
  unfold State.writeU taken
  cases s.second with
  | none => simp [State.me]
  | some y =>
    by_cases h : (s.cur.port2 && y.wrote.contains n) = true
    · exact .inr ⟨h, if_pos h⟩
    · exact .inl (by simp only [if_neg h]; rfl)

/-- A state in which the issuing group stands as `g`, and all else as before. -/
def withMe (s r : State) (g : Group) : Prop := r.me = g ∧ r.cur = s.cur ∧ ∀ k, r.setGrp s.cur.gid k = s.setGrp s.cur.gid k

theorem withMe_setGrp (s : State) (g : Group) : withMe s (s.setGrp s.cur.gid g) g := ⟨by simp, rfl, fun k => by simp⟩
theorem withMe_refl (s : State) : withMe s s s.me := ⟨rfl, rfl, fun _ => rfl⟩

/-- What an instruction leaves that has made its group `g` and steps. -/
theorem withMe_retireTo {s r : State} {g : Group} (w : withMe s r g) (tgt : Nat → Option Nat) (e : g.rest = s.me.rest)
    (el : g.lanes = s.me.lanes) :
    framed s (r.retireTo tgt) ∧ goes s (r.retireTo tgt) tgt ∧ (r.retireTo tgt).me.v = g.v ∧ (r.retireTo tgt).me.s = g.s
      ∧ (r.retireTo tgt).me.p = g.p ∧ (r.retireTo tgt).me.csr = g.csr := by
  have h : r.retireTo tgt = (s.setGrp s.cur.gid g).retireTo tgt := by
    obtain ⟨a, b, c⟩ := w
    have d : r.grp s.cur.gid = g := by rw [← b]; exact a
    have e : (s.setGrp s.cur.gid g).grp s.cur.gid = g := by simp
    unfold State.retireTo State.moveLanes
    simp only [b, d, c, State.setGrp_cur]
    rw [State.setGrp_setGrp, e]
    rfl
  rw [h]
  exact retireTo_group s g tgt e el

/-- The result of an instruction in lane or uniform execution (R130). -/
theorem result_spec (i : Instr) (f : Fields) (s : State) (x : Nat → Word) :
    ∃ g, withMe s (s.result i (s.view f) f x) g ∧ g.rest = s.me.rest ∧ g.lanes = s.me.lanes ∧ g.p = s.me.p ∧ g.csr = s.me.csr
      ∧ (∀ r a p e, firstRecord g r a p e = firstRecord s.me r a p e)
      ∧ (if isUniform i then g.v = s.me.v
          ∧ ∀ n, g.ur n = if n = f.d.toNat ∧ (s.view f).act ≠ 0#32 ∧ taken s f.d.toNat = false then x (lowLane (s.view f).act) else s.me.ur n
        else g = s.me.setV f.d.toNat (s.view f).act x) := by
  unfold State.result
  by_cases hu : isUniform i = true
  · simp only [hu, if_true]
    by_cases ha : (s.view f).any = true
    · rw [if_pos ha]
      have ha' := (any_iff s f).mp ha
      rcases writeU_eq s f.d.toNat (x (lowLane (s.view f).act)) with e | ⟨e1, e2⟩
      · rw [e]
        refine ⟨_, withMe_setGrp s _, ?_, ?_, ?_, ?_, ?_, ?_, ?_⟩
        all_goals (by_cases ht : taken s f.d.toNat = true <;> simp [ht, ur_setU, ha'])
        exact fun _ _ _ _ => rfl
      · rw [e2]
        exact ⟨s.me, withMe_refl s, rfl, rfl, rfl, rfl, fun _ _ _ _ => rfl, rfl, fun n => by simp [e1]⟩
    · rw [if_neg ha]
      have ha' : (s.view f).act = 0#32 := by simpa [View.any] using ha
      exact ⟨s.me, withMe_refl s, rfl, rfl, rfl, rfl, fun _ _ _ _ => rfl, rfl, fun n => by simp [ha']⟩
  · simp only [hu, Bool.false_eq_true, if_false]
    exact ⟨_, withMe_setGrp s _, rfl, rfl, rfl, rfl, fun _ _ _ _ => rfl, rfl⟩

/-- The events of the present issue. -/
theorem laneEvents_spec {s r : State} {g : Group} (w : withMe s r g) (evs : List Ev) :
    withMe s (r.laneEvents evs) (recordRanked g s.portHere 0 s.cur.pc evs) := by
  obtain ⟨a, b, c⟩ := w
  have : r.laneEvents evs = s.setGrp s.cur.gid (recordRanked g s.portHere 0 s.cur.pc evs) := by
    unfold State.laneEvents
    have e : r.grp r.cur.gid = g := a
    have p : r.portHere = s.portHere := by simp [State.portHere, b]
    rw [e, p, b, c]
  rw [this]; exact withMe_setGrp s _

theorem allFlags_zero (evs : List Ev) (h : ∀ e ∈ evs, e.flags = 0) : allFlags evs = 0 ∧ ∀ g r a p, firstRecord g r a p evs = g.csr.ffirst := by
  have hf : evs.find? (·.flags != 0) = none := by simpa [List.find?_eq_none] using h
  refine ⟨?_, fun g r a p => by simp [firstRecord, hf]⟩
  induction evs with
  | nil => rfl
  | cons e es ih =>
    rw [allFlags_cons, h e List.mem_cons_self]
    simp only [Nat.zero_or]
    exact ih (fun e he => h e (List.mem_cons_of_mem _ he)) (by simp only [List.find?_cons] at hf; split at hf <;> simp_all)

theorem laneEvs_zero (i : Instr) (v : View) : ∀ e ∈ laneEvs i v (fun _ => 0), e.flags = 0 := by
  intro e he
  unfold laneEvs at he
  split at he
  · split at he
    · simp only [List.mem_singleton] at he; simp [he]
    · simp at he
  · obtain ⟨l, -, rfl⟩ := List.mem_map.mp he; rfl

/-- What a computing instruction leaves (R130). -/
theorem compute_computed {i : Instr} {f : Fields} {s : State} (x : View → Nat → Word) (fl : View → Nat → Nat)
    (h : free i f s = true) :
    ∃ t, compute i f s x fl = .next t ∧ computed i f s t (x (s.view f)) (fl (s.view f)) := by
  refine ⟨_, issued_runs _ h, ?_⟩
  obtain ⟨g, w, e1, e2, e3, e4, er, e5⟩ := result_spec i f s (x (s.view f))
  obtain ⟨a, b, c, d, k, l, m⟩ := recordRanked_spec g s.portHere 0 s.cur.pc (laneEvs i (s.view f) (fl (s.view f)))
  obtain ⟨fr, go, tv, ts, tp, tc⟩ := withMe_retireTo (laneEvents_spec w _) (fun _ => none) (a.trans e1) (k.trans e2)
  refine ⟨fr, go, sameP_of tp (d.trans e3), ⟨?_, ?_⟩, ?_⟩
  · rw [State.retire, tc, l, e4]
  · rw [State.retire, tc, m, er]
  · split
    · rename_i hu; rw [if_pos hu] at e5
      exact ⟨sameV_of (tv.trans b) e5.1, fun n => (ur_of (ts.trans c) n).trans (e5.2 n)⟩
    · rename_i hu; rw [if_neg hu] at e5
      subst e5
      exact ⟨fun n l hl => (vr_of (tv.trans b) n l).trans (vr_setV _ _ _ _ _ hl), sameU_of (ts.trans c) rfl⟩

/-- The same of an instruction that sets no sticky flag. -/
theorem computeQuiet_computed {i : Instr} {f : Fields} {s : State} (x : View → Nat → Word) (h : free i f s = true) :
    ∃ t, computeQuiet i f s x = .next t ∧ computed i f s t (x (s.view f)) (fun _ => 0) := by
  refine ⟨_, issued_runs _ h, ?_⟩
  obtain ⟨g, w, e1, e2, e3, e4, er, e5⟩ := result_spec i f s (x (s.view f))
  obtain ⟨fr, go, tv, ts, tp, tc⟩ := withMe_retireTo w (fun _ => none) e1 e2
  obtain ⟨z1, z2⟩ := allFlags_zero _ (laneEvs_zero i (s.view f))
  refine ⟨fr, go, sameP_of tp e3, ⟨?_, ?_⟩, ?_⟩
  · rw [State.retire, tc, e4, z1]; simp
  · rw [State.retire, tc, e4, z2]
  · split
    · rename_i hu; rw [if_pos hu] at e5
      exact ⟨sameV_of tv e5.1, fun n => (ur_of ts n).trans (e5.2 n)⟩
    · rename_i hu; rw [if_neg hu] at e5
      subst e5
      exact ⟨fun n l hl => (vr_of tv n l).trans (vr_setV _ _ _ _ _ hl), sameU_of ts rfl⟩

/-- What an instruction leaves that writes a vector register in its active lanes. -/
theorem vectorOnly_spec {i : Instr} {f : Fields} {s : State} (x : View → Nat → Word) (h : free i f s = true) :
    ∃ t, vectorOnly i f s x = .next t ∧ framed s t ∧ steps s t ∧ sameU s t ∧ sameP s t ∧ sameFlags s t
      ∧ writesV s t f.d.toNat (s.view f).act (x (s.view f)) := by
  refine ⟨_, issued_runs _ h, ?_⟩
  obtain ⟨fr, go, tv, ts, tp, tc⟩ := withMe_retireTo (withMe_setGrp s (s.me.setV f.d.toNat (s.view f).act (x (s.view f))))
    (fun _ => none) rfl rfl
  exact ⟨fr, go, sameU_of ts rfl, sameP_of tp rfl, ⟨congrArg (·.fstat) tc, congrArg (·.ffirst) tc⟩,
    fun n l hl => (vr_of tv n l).trans (vr_setV _ _ _ _ _ hl)⟩

/-- What an instruction leaves that writes a predicate in its active lanes. -/
theorem predicateOnly_spec {i : Instr} {f : Fields} {s : State} (x : View → Nat → Half) (h : free i f s = true) :
    ∃ t, predicateOnly i f s x = .next t ∧ framed s t ∧ steps s t ∧ sameV s t ∧ sameU s t ∧ sameFlags s t
      ∧ writesP s t f.d.toNat (s.view f).act (x (s.view f)) := by
  refine ⟨_, issued_runs _ h, ?_⟩
  obtain ⟨fr, go, tv, ts, tp, tc⟩ := withMe_retireTo (withMe_setGrp s (s.me.setP f.d.toNat (s.view f).act (x (s.view f))))
    (fun _ => none) rfl rfl
  exact ⟨fr, go, sameV_of tv rfl, sameU_of ts rfl, ⟨congrArg (·.fstat) tc, congrArg (·.ffirst) tc⟩,
    fun n l hl => (pr_of tp n l).trans (pr_setP _ _ _ _ _ hl)⟩

/-- What an instruction leaves that only steps, or sends lanes elsewhere. -/
theorem retireTo_spec (s : State) (tgt : Nat → Option Nat) :
    framed s (s.retireTo tgt) ∧ goes s (s.retireTo tgt) tgt ∧ sameV s (s.retireTo tgt) ∧ sameU s (s.retireTo tgt)
      ∧ sameP s (s.retireTo tgt) ∧ sameFlags s (s.retireTo tgt) := by
  obtain ⟨fr, go, tv, ts, tp, tc⟩ := withMe_retireTo (withMe_refl s) tgt rfl rfl
  exact ⟨fr, go, sameV_of tv rfl, sameU_of ts rfl, sameP_of tp rfl, congrArg (·.fstat) tc, congrArg (·.ffirst) tc⟩

end Sys2Proof
end

