-- ==== Sys2Proof/Laws/PerInstr.lean ====
section
/-!
SUPPORT. What holds of each instruction as syntax, one lemma per constructor.
-/

namespace Sys2Proof.Laws

/-- The fields that tell the rows of one opcode apart are those of the constructor (R72, R193). -/
def OpcodeNames.own : Instr → Bool
  | .st f => f.sub != 8#4
  | .stGDirect f => f.sub == 8#4
  | i => i.kindOk

/-- The decoder's reading of a major opcode gives back the instruction that has it, where the fields that tell rows of one opcode apart
are its own. -/
def OpcodeNames.Statement (i : Instr) : Prop :=
  ∀ (f : Fields) (op : Nat), fieldsOf i = some f → opcodeOf i = some op → OpcodeNames.own i = true → instrOf op f = .ok i

theorem OpcodeNames.nop (f : Fields) : OpcodeNames.Statement (.nop f) := by
  intro f op hf ho _; cases hf; cases ho; rfl
theorem OpcodeNames.br (f : Fields) : OpcodeNames.Statement (.br f) := by
  intro f op hf ho _; cases hf; cases ho; rfl
theorem OpcodeNames.brc (f : Fields) : OpcodeNames.Statement (.brc f) := by
  intro f op hf ho _; cases hf; cases ho; rfl
theorem OpcodeNames.brx (f : Fields) : OpcodeNames.Statement (.brx f) := by
  intro f op hf ho _; cases hf; cases ho; rfl
theorem OpcodeNames.call (f : Fields) : OpcodeNames.Statement (.call f) := by
  intro f op hf ho _; cases hf; cases ho; rfl
theorem OpcodeNames.ret (f : Fields) : OpcodeNames.Statement (.ret f) := by
  intro f op hf ho _; cases hf; cases ho; rfl
theorem OpcodeNames.rejoin (f : Fields) : OpcodeNames.Statement (.rejoin f) := by
  intro f op hf ho _; cases hf; cases ho; rfl
theorem OpcodeNames.rejoinRelease (gid pc : Nat) : OpcodeNames.Statement (.rejoinRelease gid pc) := by
  intro f op hf; cases hf
theorem OpcodeNames.exit (f : Fields) : OpcodeNames.Statement (.exit f) := by
  intro f op hf ho _; cases hf; cases ho; rfl
theorem OpcodeNames.yield (f : Fields) : OpcodeNames.Statement (.yield f) := by
  intro f op hf ho _; cases hf; cases ho; rfl
theorem OpcodeNames.vote (f : Fields) : OpcodeNames.Statement (.vote f) := by
  intro f op hf ho _; cases hf; cases ho; rfl
theorem OpcodeNames.add (f : Fields) : OpcodeNames.Statement (.add f) := by
  intro f op hf ho _; cases hf; cases ho; rfl
theorem OpcodeNames.sub (f : Fields) : OpcodeNames.Statement (.sub f) := by
  intro f op hf ho _; cases hf; cases ho; rfl
theorem OpcodeNames.mul (f : Fields) : OpcodeNames.Statement (.mul f) := by
  intro f op hf ho _; cases hf; cases ho; rfl
theorem OpcodeNames.mulh (f : Fields) : OpcodeNames.Statement (.mulh f) := by
  intro f op hf ho _; cases hf; cases ho; rfl
theorem OpcodeNames.mad (f : Fields) : OpcodeNames.Statement (.mad f) := by
  intro f op hf ho _; cases hf; cases ho; rfl
theorem OpcodeNames.madh (f : Fields) : OpcodeNames.Statement (.madh f) := by
  intro f op hf ho _; cases hf; cases ho; rfl
theorem OpcodeNames.min (f : Fields) : OpcodeNames.Statement (.min f) := by
  intro f op hf ho _; cases hf; cases ho; rfl
theorem OpcodeNames.max (f : Fields) : OpcodeNames.Statement (.max f) := by
  intro f op hf ho _; cases hf; cases ho; rfl
theorem OpcodeNames.abs (f : Fields) : OpcodeNames.Statement (.abs f) := by
  intro f op hf ho _; cases hf; cases ho; rfl
theorem OpcodeNames.neg (f : Fields) : OpcodeNames.Statement (.neg f) := by
  intro f op hf ho _; cases hf; cases ho; rfl
theorem OpcodeNames.idiv (f : Fields) : OpcodeNames.Statement (.idiv f) := by
  intro f op hf ho _; cases hf; cases ho; rfl
theorem OpcodeNames.irem (f : Fields) : OpcodeNames.Statement (.irem f) := by
  intro f op hf ho _; cases hf; cases ho; rfl
theorem OpcodeNames.and (f : Fields) : OpcodeNames.Statement (.and f) := by
  intro f op hf ho _; cases hf; cases ho; rfl
theorem OpcodeNames.or (f : Fields) : OpcodeNames.Statement (.or f) := by
  intro f op hf ho _; cases hf; cases ho; rfl
theorem OpcodeNames.xor (f : Fields) : OpcodeNames.Statement (.xor f) := by
  intro f op hf ho _; cases hf; cases ho; rfl
theorem OpcodeNames.not (f : Fields) : OpcodeNames.Statement (.not f) := by
  intro f op hf ho _; cases hf; cases ho; rfl
theorem OpcodeNames.andn (f : Fields) : OpcodeNames.Statement (.andn f) := by
  intro f op hf ho _; cases hf; cases ho; rfl
theorem OpcodeNames.shl (f : Fields) : OpcodeNames.Statement (.shl f) := by
  intro f op hf ho _; cases hf; cases ho; rfl
theorem OpcodeNames.shr (f : Fields) : OpcodeNames.Statement (.shr f) := by
  intro f op hf ho _; cases hf; cases ho; rfl
theorem OpcodeNames.sar (f : Fields) : OpcodeNames.Statement (.sar f) := by
  intro f op hf ho _; cases hf; cases ho; rfl
theorem OpcodeNames.rotl (f : Fields) : OpcodeNames.Statement (.rotl f) := by
  intro f op hf ho _; cases hf; cases ho; rfl
theorem OpcodeNames.clz (f : Fields) : OpcodeNames.Statement (.clz f) := by
  intro f op hf ho _; cases hf; cases ho; rfl
theorem OpcodeNames.popc (f : Fields) : OpcodeNames.Statement (.popc f) := by
  intro f op hf ho _; cases hf; cases ho; rfl
theorem OpcodeNames.brev (f : Fields) : OpcodeNames.Statement (.brev f) := by
  intro f op hf ho _; cases hf; cases ho; rfl
theorem OpcodeNames.bfx (f : Fields) : OpcodeNames.Statement (.bfx f) := by
  intro f op hf ho _; cases hf; cases ho; rfl
theorem OpcodeNames.bfi (f : Fields) : OpcodeNames.Statement (.bfi f) := by
  intro f op hf ho _; cases hf; cases ho; rfl
theorem OpcodeNames.lea (f : Fields) : OpcodeNames.Statement (.lea f) := by
  intro f op hf ho _; cases hf; cases ho; rfl
theorem OpcodeNames.cmp (f : Fields) : OpcodeNames.Statement (.cmp f) := by
  intro f op hf ho _; cases hf; cases ho; rfl
theorem OpcodeNames.csel (f : Fields) : OpcodeNames.Statement (.csel f) := by
  intro f op hf ho _; cases hf; cases ho; rfl
theorem OpcodeNames.mov (f : Fields) : OpcodeNames.Statement (.mov f) := by
  intro f op hf ho _; cases hf; cases ho; rfl
theorem OpcodeNames.movi (f : Fields) : OpcodeNames.Statement (.movi f) := by
  intro f op hf ho _; cases hf; cases ho; rfl
theorem OpcodeNames.movs (f : Fields) : OpcodeNames.Statement (.movs f) := by
  intro f op hf ho _; cases hf; cases ho; rfl
theorem OpcodeNames.shfl (f : Fields) : OpcodeNames.Statement (.shfl f) := by
  intro f op hf ho _; cases hf; cases ho; rfl
theorem OpcodeNames.rdlane (f : Fields) : OpcodeNames.Statement (.rdlane f) := by
  intro f op hf ho _; cases hf; cases ho; rfl
theorem OpcodeNames.lid (f : Fields) : OpcodeNames.Statement (.lid f) := by
  intro f op hf ho _; cases hf; cases ho; rfl
theorem OpcodeNames.fadd (f : Fields) : OpcodeNames.Statement (.fadd f) := by
  intro f op hf ho _; cases hf; cases ho; rfl
theorem OpcodeNames.fsub (f : Fields) : OpcodeNames.Statement (.fsub f) := by
  intro f op hf ho _; cases hf; cases ho; rfl
theorem OpcodeNames.fmul (f : Fields) : OpcodeNames.Statement (.fmul f) := by
  intro f op hf ho _; cases hf; cases ho; rfl
theorem OpcodeNames.ffma (f : Fields) : OpcodeNames.Statement (.ffma f) := by
  intro f op hf ho _; cases hf; cases ho; rfl
theorem OpcodeNames.fdiv (f : Fields) : OpcodeNames.Statement (.fdiv f) := by
  intro f op hf ho _; cases hf; cases ho; rfl
theorem OpcodeNames.fmin (f : Fields) : OpcodeNames.Statement (.fmin f) := by
  intro f op hf ho _; cases hf; cases ho; rfl
theorem OpcodeNames.fmax (f : Fields) : OpcodeNames.Statement (.fmax f) := by
  intro f op hf ho _; cases hf; cases ho; rfl
theorem OpcodeNames.fcmp (f : Fields) : OpcodeNames.Statement (.fcmp f) := by
  intro f op hf ho _; cases hf; cases ho; rfl
theorem OpcodeNames.fclass (f : Fields) : OpcodeNames.Statement (.fclass f) := by
  intro f op hf ho _; cases hf; cases ho; rfl
theorem OpcodeNames.fcvt (f : Fields) : OpcodeNames.Statement (.fcvt f) := by
  intro f op hf ho _; cases hf; cases ho; rfl
theorem OpcodeNames.frnd (f : Fields) : OpcodeNames.Statement (.frnd f) := by
  intro f op hf ho _; cases hf; cases ho; rfl
theorem OpcodeNames.frcp (f : Fields) : OpcodeNames.Statement (.frcp f) := by
  intro f op hf ho _; cases hf; cases ho; rfl
theorem OpcodeNames.frsq (f : Fields) : OpcodeNames.Statement (.frsq f) := by
  intro f op hf ho _; cases hf; cases ho; rfl
theorem OpcodeNames.fexp2 (f : Fields) : OpcodeNames.Statement (.fexp2 f) := by
  intro f op hf ho _; cases hf; cases ho; rfl
theorem OpcodeNames.flog2 (f : Fields) : OpcodeNames.Statement (.flog2 f) := by
  intro f op hf ho _; cases hf; cases ho; rfl
theorem OpcodeNames.hpack (f : Fields) : OpcodeNames.Statement (.hpack f) := by
  intro f op hf ho _; cases hf; cases ho; rfl
theorem OpcodeNames.hunpack (f : Fields) : OpcodeNames.Statement (.hunpack f) := by
  intro f op hf ho _; cases hf; cases ho; rfl
theorem OpcodeNames.nbscale (f : Fields) : OpcodeNames.Statement (.nbscale f) := by
  intro f op hf ho _; cases hf; cases ho; rfl
theorem OpcodeNames.nbpack (f : Fields) : OpcodeNames.Statement (.nbpack f) := by
  intro f op hf ho _; cases hf; cases ho; rfl
theorem OpcodeNames.nbunpack (f : Fields) : OpcodeNames.Statement (.nbunpack f) := by
  intro f op hf ho _; cases hf; cases ho; rfl
theorem OpcodeNames.lmv (f : Fields) : OpcodeNames.Statement (.lmv f) := by
  intro f op hf ho _; cases hf; cases ho; rfl
theorem OpcodeNames.rnd (f : Fields) : OpcodeNames.Statement (.rnd f) := by
  intro f op hf ho _; cases hf; cases ho; rfl
theorem OpcodeNames.sign (f : Fields) : OpcodeNames.Statement (.sign f) := by
  intro f op hf ho _; cases hf; cases ho; rfl
theorem OpcodeNames.convergenceIssueOnExit (team cv : Nat) : OpcodeNames.Statement (.convergenceIssueOnExit team cv) := by
  intro f op hf; cases hf
theorem OpcodeNames.mma (f : Fields) : OpcodeNames.Statement (.mma f) := by
  intro f op hf ho _; cases hf; cases ho; rfl
theorem OpcodeNames.tld (f : Fields) : OpcodeNames.Statement (.tld f) := by
  intro f op hf ho _; cases hf; cases ho; rfl
theorem OpcodeNames.tsv (f : Fields) : OpcodeNames.Statement (.tsv f) := by
  intro f op hf ho _; cases hf; cases ho; rfl
theorem OpcodeNames.tzero (f : Fields) : OpcodeNames.Statement (.tzero f) := by
  intro f op hf ho _; cases hf; cases ho; rfl
theorem OpcodeNames.tpois (f : Fields) : OpcodeNames.Statement (.tpois f) := by
  intro f op hf ho _; cases hf; cases ho; rfl
theorem OpcodeNames.accLd (f : Fields) : OpcodeNames.Statement (.accLd f) := by
  intro f op hf ho _; cases hf; cases ho; rfl
theorem OpcodeNames.accSt (f : Fields) : OpcodeNames.Statement (.accSt f) := by
  intro f op hf ho _; cases hf; cases ho; rfl
theorem OpcodeNames.accRd (f : Fields) : OpcodeNames.Statement (.accRd f) := by
  intro f op hf ho _; cases hf; cases ho; rfl
theorem OpcodeNames.accZero (f : Fields) : OpcodeNames.Statement (.accZero f) := by
  intro f op hf ho _; cases hf; cases ho; rfl
theorem OpcodeNames.mmask (f : Fields) : OpcodeNames.Statement (.mmask f) := by
  intro f op hf ho _; cases hf; cases ho; rfl
theorem OpcodeNames.rowMax (f : Fields) : OpcodeNames.Statement (.rowMax f) := by
  intro f op hf ho hk; cases hf; cases ho; simp_all [OpcodeNames.own, Instr.kindOk, instrOf]
theorem OpcodeNames.rowSum (f : Fields) : OpcodeNames.Statement (.rowSum f) := by
  intro f op hf ho hk; cases hf; cases ho; simp_all [OpcodeNames.own, Instr.kindOk, instrOf]
theorem OpcodeNames.rowExp (f : Fields) : OpcodeNames.Statement (.rowExp f) := by
  intro f op hf ho hk; cases hf; cases ho; simp_all [OpcodeNames.own, Instr.kindOk, instrOf]
theorem OpcodeNames.rowScale (f : Fields) : OpcodeNames.Statement (.rowScale f) := by
  intro f op hf ho hk; cases hf; cases ho; simp_all [OpcodeNames.own, Instr.kindOk, instrOf]
theorem OpcodeNames.rowAdd (f : Fields) : OpcodeNames.Statement (.rowAdd f) := by
  intro f op hf ho hk; cases hf; cases ho; simp_all [OpcodeNames.own, Instr.kindOk, instrOf]
theorem OpcodeNames.rowCvt (f : Fields) : OpcodeNames.Statement (.rowCvt f) := by
  intro f op hf ho hk; cases hf; cases ho; simp_all [OpcodeNames.own, Instr.kindOk, instrOf]
theorem OpcodeNames.teamOpStart (team k : Nat) : OpcodeNames.Statement (.teamOpStart team k) := by
  intro f op hf; cases hf
theorem OpcodeNames.pand (f : Fields) : OpcodeNames.Statement (.pand f) := by
  intro f op hf ho _; cases hf; cases ho; rfl
theorem OpcodeNames.por (f : Fields) : OpcodeNames.Statement (.por f) := by
  intro f op hf ho _; cases hf; cases ho; rfl
theorem OpcodeNames.pxor (f : Fields) : OpcodeNames.Statement (.pxor f) := by
  intro f op hf ho _; cases hf; cases ho; rfl
theorem OpcodeNames.pnot (f : Fields) : OpcodeNames.Statement (.pnot f) := by
  intro f op hf ho _; cases hf; cases ho; rfl
theorem OpcodeNames.pmov (f : Fields) : OpcodeNames.Statement (.pmov f) := by
  intro f op hf ho _; cases hf; cases ho; rfl
theorem OpcodeNames.pset (f : Fields) : OpcodeNames.Statement (.pset f) := by
  intro f op hf ho _; cases hf; cases ho; rfl
theorem OpcodeNames.pget (f : Fields) : OpcodeNames.Statement (.pget f) := by
  intro f op hf ho _; cases hf; cases ho; rfl
theorem OpcodeNames.pbit (f : Fields) : OpcodeNames.Statement (.pbit f) := by
  intro f op hf ho _; cases hf; cases ho; rfl
theorem OpcodeNames.ld (f : Fields) : OpcodeNames.Statement (.ld f) := by
  intro f op hf ho _; cases hf; cases ho; rfl
theorem OpcodeNames.st (f : Fields) : OpcodeNames.Statement (.st f) := by
  intro f op hf ho hk; cases hf; cases ho; simp_all [OpcodeNames.own, instrOf]
theorem OpcodeNames.stGDirect (f : Fields) : OpcodeNames.Statement (.stGDirect f) := by
  intro f op hf ho hk; cases hf; cases ho; simp_all [OpcodeNames.own, instrOf]
theorem OpcodeNames.ldProbe (f : Fields) : OpcodeNames.Statement (.ldProbe f) := by
  intro f op hf ho _; cases hf; cases ho; rfl
theorem OpcodeNames.atom (f : Fields) : OpcodeNames.Statement (.atom f) := by
  intro f op hf ho _; cases hf; cases ho; rfl
theorem OpcodeNames.red (f : Fields) : OpcodeNames.Statement (.red f) := by
  intro f op hf ho _; cases hf; cases ho; rfl
theorem OpcodeNames.fence (f : Fields) : OpcodeNames.Statement (.fence f) := by
  intro f op hf ho _; cases hf; cases ho; rfl
theorem OpcodeNames.fenceXp (f : Fields) : OpcodeNames.Statement (.fenceXp f) := by
  intro f op hf ho _; cases hf; cases ho; rfl
theorem OpcodeNames.pf (f : Fields) : OpcodeNames.Statement (.pf f) := by
  intro f op hf ho _; cases hf; cases ho; rfl
theorem OpcodeNames.cstLd (f : Fields) : OpcodeNames.Statement (.cstLd f) := by
  intro f op hf ho _; cases hf; cases ho; rfl
theorem OpcodeNames.aflush (f : Fields) : OpcodeNames.Statement (.aflush f) := by
  intro f op hf ho _; cases hf; cases ho; rfl
theorem OpcodeNames.stagedEntryApply (team : Nat) : OpcodeNames.Statement (.stagedEntryApply team) := by
  intro f op hf; cases hf
theorem OpcodeNames.storePerform (core k : Nat) : OpcodeNames.Statement (.storePerform core k) := by
  intro f op hf; cases hf
theorem OpcodeNames.rgn (f : Fields) : OpcodeNames.Statement (.rgn f) := by
  intro f op hf ho _; cases hf; cases ho; rfl
theorem OpcodeNames.fastBufferFill (gid reg : Nat) : OpcodeNames.Statement (.fastBufferFill gid reg) := by
  intro f op hf; cases hf
theorem OpcodeNames.spill (f : Fields) : OpcodeNames.Statement (.spill f) := by
  intro f op hf ho _; cases hf; cases ho; rfl
theorem OpcodeNames.fill (f : Fields) : OpcodeNames.Statement (.fill f) := by
  intro f op hf ho _; cases hf; cases ho; rfl
theorem OpcodeNames.give (f : Fields) : OpcodeNames.Statement (.give f) := by
  intro f op hf ho _; cases hf; cases ho; rfl
theorem OpcodeNames.claim (f : Fields) : OpcodeNames.Statement (.claim f) := by
  intro f op hf ho _; cases hf; cases ho; rfl
theorem OpcodeNames.rdidx (f : Fields) : OpcodeNames.Statement (.rdidx f) := by
  intro f op hf ho _; cases hf; cases ho; rfl
theorem OpcodeNames.wridx (f : Fields) : OpcodeNames.Statement (.wridx f) := by
  intro f op hf ho _; cases hf; cases ho; rfl
theorem OpcodeNames.fork (f : Fields) : OpcodeNames.Statement (.fork f) := by
  intro f op hf ho _; cases hf; cases ho; rfl
theorem OpcodeNames.rdv (f : Fields) : OpcodeNames.Statement (.rdv f) := by
  intro f op hf ho _; cases hf; cases ho; rfl
theorem OpcodeNames.job (f : Fields) : OpcodeNames.Statement (.job f) := by
  intro f op hf ho _; cases hf; cases ho; rfl
theorem OpcodeNames.cp (f : Fields) : OpcodeNames.Statement (.cp f) := by
  intro f op hf ho _; cases hf; cases ho; rfl
theorem OpcodeNames.spawn (f : Fields) : OpcodeNames.Statement (.spawn f) := by
  intro f op hf ho _; cases hf; cases ho; rfl
theorem OpcodeNames.post (f : Fields) : OpcodeNames.Statement (.post f) := by
  intro f op hf ho _; cases hf; cases ho; rfl
theorem OpcodeNames.eflag (f : Fields) : OpcodeNames.Statement (.eflag f) := by
  intro f op hf ho _; cases hf; cases ho; rfl
theorem OpcodeNames.eventSet (core q : Nat) : OpcodeNames.Statement (.eventSet core q) := by
  intro f op hf; cases hf
theorem OpcodeNames.ewait (f : Fields) : OpcodeNames.Statement (.ewait f) := by
  intro f op hf ho _; cases hf; cases ho; rfl
theorem OpcodeNames.ewaitCyclesExpiry (core q : Nat) : OpcodeNames.Statement (.ewaitCyclesExpiry core q) := by
  intro f op hf; cases hf
theorem OpcodeNames.eloop (f : Fields) : OpcodeNames.Statement (.eloop f) := by
  intro f op hf ho _; cases hf; cases ho; rfl
theorem OpcodeNames.eend (f : Fields) : OpcodeNames.Statement (.eend f) := by
  intro f op hf ho _; cases hf; cases ho; rfl
theorem OpcodeNames.sequencerStart (gid : Nat) : OpcodeNames.Statement (.sequencerStart gid) := by
  intro f op hf; cases hf
theorem OpcodeNames.sequencerEnd (core q : Nat) : OpcodeNames.Statement (.sequencerEnd core q) := by
  intro f op hf; cases hf
theorem OpcodeNames.slotLd (f : Fields) : OpcodeNames.Statement (.slotLd f) := by
  intro f op hf ho _; cases hf; cases ho; rfl
theorem OpcodeNames.slotSc (f : Fields) : OpcodeNames.Statement (.slotSc f) := by
  intro f op hf ho _; cases hf; cases ho; rfl
theorem OpcodeNames.slotFin (f : Fields) : OpcodeNames.Statement (.slotFin f) := by
  intro f op hf ho _; cases hf; cases ho; rfl
theorem OpcodeNames.commit (f : Fields) : OpcodeNames.Statement (.commit f) := by
  intro f op hf ho _; cases hf; cases ho; rfl
theorem OpcodeNames.pvt (f : Fields) : OpcodeNames.Statement (.pvt f) := by
  intro f op hf ho _; cases hf; cases ho; rfl
theorem OpcodeNames.bar (f : Fields) : OpcodeNames.Statement (.bar f) := by
  intro f op hf ho _; cases hf; cases ho; rfl
theorem OpcodeNames.barExp (f : Fields) : OpcodeNames.Statement (.barExp f) := by
  intro f op hf ho _; cases hf; cases ho; rfl
theorem OpcodeNames.copyBytesLand (src : CopyRef) (n : Nat) : OpcodeNames.Statement (.copyBytesLand src n) := by
  intro f op hf; cases hf
theorem OpcodeNames.twaitAny (f : Fields) : OpcodeNames.Statement (.twaitAny f) := by
  intro f op hf ho _; cases hf; cases ho; rfl
theorem OpcodeNames.twaitAll (f : Fields) : OpcodeNames.Statement (.twaitAll f) := by
  intro f op hf ho _; cases hf; cases ho; rfl
theorem OpcodeNames.tffr (f : Fields) : OpcodeNames.Statement (.tffr f) := by
  intro f op hf ho _; cases hf; cases ho; rfl
theorem OpcodeNames.fwait (f : Fields) : OpcodeNames.Statement (.fwait f) := by
  intro f op hf ho _; cases hf; cases ho; rfl
theorem OpcodeNames.csrR (f : Fields) : OpcodeNames.Statement (.csrR f) := by
  intro f op hf ho _; cases hf; cases ho; rfl
theorem OpcodeNames.csrW (f : Fields) : OpcodeNames.Statement (.csrW f) := by
  intro f op hf ho hk; cases hf; cases ho; simp_all [OpcodeNames.own, Instr.kindOk, instrOf]; omega
theorem OpcodeNames.fstatWrite (f : Fields) : OpcodeNames.Statement (.fstatWrite f) := by
  intro f op hf ho hk; cases hf; cases ho; simp_all [OpcodeNames.own, Instr.kindOk, instrOf]
theorem OpcodeNames.cvdefWrite (f : Fields) : OpcodeNames.Statement (.cvdefWrite f) := by
  intro f op hf ho hk; cases hf; cases ho; simp_all [OpcodeNames.own, Instr.kindOk, instrOf]; omega
theorem OpcodeNames.merrlog0Write (f : Fields) : OpcodeNames.Statement (.merrlog0Write f) := by
  intro f op hf ho hk; cases hf; cases ho; simp_all [OpcodeNames.own, Instr.kindOk, instrOf]
theorem OpcodeNames.tfence (f : Fields) : OpcodeNames.Statement (.tfence f) := by
  intro f op hf ho _; cases hf; cases ho; rfl
theorem OpcodeNames.tret (f : Fields) : OpcodeNames.Statement (.tret f) := by
  intro f op hf ho _; cases hf; cases ho; rfl
theorem OpcodeNames.trap (f : Fields) : OpcodeNames.Statement (.trap f) := by
  intro f op hf ho _; cases hf; cases ho; rfl
theorem OpcodeNames.brk (f : Fields) : OpcodeNames.Statement (.brk f) := by
  intro f op hf ho _; cases hf; cases ho; rfl
theorem OpcodeNames.halt (f : Fields) : OpcodeNames.Statement (.halt f) := by
  intro f op hf ho _; cases hf; cases ho; rfl
theorem OpcodeNames.icacheLineArrival (core ctx block : Nat) : OpcodeNames.Statement (.icacheLineArrival core ctx block) := by
  intro f op hf; cases hf
theorem OpcodeNames.longLatencyCompletion (op : OpRef) : OpcodeNames.Statement (.longLatencyCompletion op) := by
  intro f op hf; cases hf
theorem OpcodeNames.walkCompletion (die k : Nat) : OpcodeNames.Statement (.walkCompletion die k) := by
  intro f op hf; cases hf
theorem OpcodeNames.translationInvalidate (die ctx lo hi : Nat) : OpcodeNames.Statement (.translationInvalidate die ctx lo hi) := by
  intro f op hf; cases hf
theorem OpcodeNames.invalidateCompletion (die k : Nat) : OpcodeNames.Statement (.invalidateCompletion die k) := by
  intro f op hf; cases hf
theorem OpcodeNames.trapDelivery (gid : Nat) : OpcodeNames.Statement (.trapDelivery gid) := by
  intro f op hf; cases hf
theorem OpcodeNames.firmwareFaultDelivery (gid : Nat) : OpcodeNames.Statement (.firmwareFaultDelivery gid) := by
  intro f op hf; cases hf
theorem OpcodeNames.timerTrap (gid : Nat) : OpcodeNames.Statement (.timerTrap gid) := by
  intro f op hf; cases hf
theorem OpcodeNames.groupEnd (gid : Nat) : OpcodeNames.Statement (.groupEnd gid) := by
  intro f op hf; cases hf
theorem OpcodeNames.taskDispatch (die k : Nat) : OpcodeNames.Statement (.taskDispatch die k) := by
  intro f op hf; cases hf
theorem OpcodeNames.bindRecordBind (idx : Nat) : OpcodeNames.Statement (.bindRecordBind idx) := by
  intro f op hf; cases hf
theorem OpcodeNames.bindw0Commit (w0 : DWord) : OpcodeNames.Statement (.bindw0Commit w0) := by
  intro f op hf; cases hf
theorem OpcodeNames.powerEstimateUpdate (die : Nat) (est : Half) : OpcodeNames.Statement (.powerEstimateUpdate die est) := by
  intro f op hf; cases hf
theorem OpcodeNames.pcapWrite (die : Nat) (v : Word) : OpcodeNames.Statement (.pcapWrite die v) := by
  intro f op hf; cases hf
theorem OpcodeNames.twdogWrite (v : Word) : OpcodeNames.Statement (.twdogWrite v) := by
  intro f op hf; cases hf
theorem OpcodeNames.cycleStretch (core : Nat) : OpcodeNames.Statement (.cycleStretch core) := by
  intro f op hf; cases hf
theorem OpcodeNames.timingViolation (die : Nat) : OpcodeNames.Statement (.timingViolation die) := by
  intro f op hf; cases hf
theorem OpcodeNames.modeSwitchComplete (die : Nat) : OpcodeNames.Statement (.modeSwitchComplete die) := by
  intro f op hf; cases hf
theorem OpcodeNames.scrubRead (core line lane : Nat) (err : EccFinding) : OpcodeNames.Statement (.scrubRead core line lane err) := by
  intro f op hf; cases hf
theorem OpcodeNames.ticketPass (launch : Nat) : OpcodeNames.Statement (.ticketPass launch) := by
  intro f op hf; cases hf
theorem OpcodeNames.ticketWatchdogExpiry (launch : Nat) : OpcodeNames.Statement (.ticketWatchdogExpiry launch) := by
  intro f op hf; cases hf
theorem OpcodeNames.copyJobStart (job : Nat) : OpcodeNames.Statement (.copyJobStart job) := by
  intro f op hf; cases hf
theorem OpcodeNames.copyJobCompletion (job : Nat) : OpcodeNames.Statement (.copyJobCompletion job) := by
  intro f op hf; cases hf
theorem OpcodeNames.localCopyCompletion (core k : Nat) : OpcodeNames.Statement (.localCopyCompletion core k) := by
  intro f op hf; cases hf
theorem OpcodeNames.commandEntryStart (ctx q : Nat) : OpcodeNames.Statement (.commandEntryStart ctx q) := by
  intro f op hf; cases hf
theorem OpcodeNames.cmdGraph (ctx q : Nat) (texts : List (Nat × Text)) : OpcodeNames.Statement (.cmdGraph ctx q texts) := by
  intro f op hf; cases hf
theorem OpcodeNames.cmdWait (ctx q : Nat) : OpcodeNames.Statement (.cmdWait ctx q) := by
  intro f op hf; cases hf
theorem OpcodeNames.cmdMarker (ctx q : Nat) : OpcodeNames.Statement (.cmdMarker ctx q) := by
  intro f op hf; cases hf
theorem OpcodeNames.nodeStart (ctx q node : Nat) (insts : List Placed) : OpcodeNames.Statement (.nodeStart ctx q node insts) := by
  intro f op hf; cases hf
theorem OpcodeNames.nodeCompletion (ctx q node : Nat) : OpcodeNames.Statement (.nodeCompletion ctx q node) := by
  intro f op hf; cases hf
theorem OpcodeNames.completionRecordWrite (ctx q : Nat) : OpcodeNames.Statement (.completionRecordWrite ctx q) := by
  intro f op hf; cases hf
theorem OpcodeNames.pointFire (die fid : Nat) : OpcodeNames.Statement (.pointFire die fid) := by
  intro f op hf; cases hf
theorem OpcodeNames.pointCompletion (die fid point : Nat) : OpcodeNames.Statement (.pointCompletion die fid point) := by
  intro f op hf; cases hf
theorem OpcodeNames.frontierRetirementExpiry (die fid : Nat) : OpcodeNames.Statement (.frontierRetirementExpiry die fid) := by
  intro f op hf; cases hf
theorem OpcodeNames.mirrorUpdate (die fid row : Nat) : OpcodeNames.Statement (.mirrorUpdate die fid row) := by
  intro f op hf; cases hf
theorem OpcodeNames.frontierStart (die : Nat) (w0 : DWord) : OpcodeNames.Statement (.frontierStart die w0) := by
  intro f op hf; cases hf
theorem OpcodeNames.frontierStop (die : Nat) (w0 : DWord) : OpcodeNames.Statement (.frontierStop die w0) := by
  intro f op hf; cases hf
theorem OpcodeNames.frontierSave (die : Nat) (w0 : DWord) : OpcodeNames.Statement (.frontierSave die w0) := by
  intro f op hf; cases hf
theorem OpcodeNames.frontierRestore (die : Nat) (w0 : DWord) : OpcodeNames.Statement (.frontierRestore die w0) := by
  intro f op hf; cases hf
theorem OpcodeNames.frontierResume (die : Nat) (w0 : DWord) : OpcodeNames.Statement (.frontierResume die w0) := by
  intro f op hf; cases hf
theorem OpcodeNames.frontierRelease (die : Nat) (w0 : DWord) : OpcodeNames.Statement (.frontierRelease die w0) := by
  intro f op hf; cases hf
theorem OpcodeNames.stop (w0 : DWord) : OpcodeNames.Statement (.stop w0) := by
  intro f op hf; cases hf
theorem OpcodeNames.teamStopped (team : Nat) : OpcodeNames.Statement (.teamStopped team) := by
  intro f op hf; cases hf
theorem OpcodeNames.stopWatchdogExpiry (team : Nat) (terminate : Bool) : OpcodeNames.Statement (.stopWatchdogExpiry team terminate) := by
  intro f op hf; cases hf
theorem OpcodeNames.commitPointSave (ctx : Nat) : OpcodeNames.Statement (.commitPointSave ctx) := by
  intro f op hf; cases hf
theorem OpcodeNames.commitWatchdogExpiry (ctx : Nat) (terminate : Bool) : OpcodeNames.Statement (.commitWatchdogExpiry ctx terminate) := by
  intro f op hf; cases hf
theorem OpcodeNames.flush (w0 : DWord) : OpcodeNames.Statement (.flush w0) := by
  intro f op hf; cases hf
theorem OpcodeNames.restore (w0 : DWord) : OpcodeNames.Statement (.restore w0) := by
  intro f op hf; cases hf
theorem OpcodeNames.resume (w0 : DWord) : OpcodeNames.Statement (.resume w0) := by
  intro f op hf; cases hf
theorem OpcodeNames.resumeg (w0 : DWord) (frame : Nat) : OpcodeNames.Statement (.resumeg w0 frame) := by
  intro f op hf; cases hf
theorem OpcodeNames.forward (w0 : DWord) : OpcodeNames.Statement (.forward w0) := by
  intro f op hf; cases hf
theorem OpcodeNames.streamAfterFin (conn records : Nat) : OpcodeNames.Statement (.streamAfterFin conn records) := by
  intro f op hf; cases hf
theorem OpcodeNames.segmentReceive (port : Nat) (conn : Option Nat) (bytes : List Byte) : OpcodeNames.Statement (.segmentReceive port conn bytes) := by
  intro f op hf; cases hf
theorem OpcodeNames.finAcked (conn : Nat) : OpcodeNames.Statement (.finAcked conn) := by
  intro f op hf; cases hf
theorem OpcodeNames.rstReceived (conn : Nat) : OpcodeNames.Statement (.rstReceived conn) := by
  intro f op hf; cases hf
theorem OpcodeNames.retransmissionTimeout (conn : Nat) (limit : Bool) : OpcodeNames.Statement (.retransmissionTimeout conn limit) := by
  intro f op hf; cases hf
theorem OpcodeNames.connectionCommit (conn : Nat) (w0 : DWord) : OpcodeNames.Statement (.connectionCommit conn w0) := by
  intro f op hf; cases hf
theorem OpcodeNames.create (root : Nat) : OpcodeNames.Statement (.create root) := by
  intro f op hf; cases hf
theorem OpcodeNames.destroy : OpcodeNames.Statement (.destroy) := by
  intro f op hf; cases hf
theorem OpcodeNames.queue : OpcodeNames.Statement (.queue) := by
  intro f op hf; cases hf
theorem OpcodeNames.rule : OpcodeNames.Statement (.rule) := by
  intro f op hf; cases hf
theorem OpcodeNames.netcfg : OpcodeNames.Statement (.netcfg) := by
  intro f op hf; cases hf
theorem OpcodeNames.attest : OpcodeNames.Statement (.attest) := by
  intro f op hf; cases hf
theorem OpcodeNames.manifest : OpcodeNames.Statement (.manifest) := by
  intro f op hf; cases hf
theorem OpcodeNames.map (frames tables : List Nat) : OpcodeNames.Statement (.map frames tables) := by
  intro f op hf; cases hf
theorem OpcodeNames.doorbellWrite (ctx q : Nat) (tail : Word) : OpcodeNames.Statement (.doorbellWrite ctx q tail) := by
  intro f op hf; cases hf
theorem OpcodeNames.crheadWrite (ctx : Nat) (v : Word) : OpcodeNames.Statement (.crheadWrite ctx v) := by
  intro f op hf; cases hf
theorem OpcodeNames.hostApertureRead (off n : Nat) : OpcodeNames.Statement (.hostApertureRead off n) := by
  intro f op hf; cases hf
theorem OpcodeNames.hostApertureWrite (off : Nat) (bytes : List Byte) : OpcodeNames.Statement (.hostApertureWrite off bytes) := by
  intro f op hf; cases hf
theorem OpcodeNames.configRequest : OpcodeNames.Statement (.configRequest) := by
  intro f op hf; cases hf
theorem OpcodeNames.linkFailure (link : Nat) : OpcodeNames.Statement (.linkFailure link) := by
  intro f op hf; cases hf
theorem OpcodeNames.expanderLoss (port : Nat) : OpcodeNames.Statement (.expanderLoss port) := by
  intro f op hf; cases hf
theorem OpcodeNames.coreFailure (core : Nat) : OpcodeNames.Statement (.coreFailure core) := by
  intro f op hf; cases hf
theorem OpcodeNames.packageReset (defects : List Site) : OpcodeNames.Statement (.packageReset defects) := by
  intro f op hf; cases hf
theorem OpcodeNames.bundleFetchDone (bundle : Option Bundle) (expanders : List Nat) : OpcodeNames.Statement (.bundleFetchDone bundle expanders) := by
  intro f op hf; cases hf
theorem OpcodeNames.bootRetryExpiry : OpcodeNames.Statement (.bootRetryExpiry) := by
  intro f op hf; cases hf
theorem OpcodeNames.registerWrite (r : Reg) (v : DWord) : OpcodeNames.Statement (.registerWrite r v) := by
  intro f op hf; cases hf
theorem OpcodeNames.fledenlinkPeerAccess (key pa n : Nat) (write : Option (List Byte)) : OpcodeNames.Statement (.fledenlinkPeerAccess key pa n write) := by
  intro f op hf; cases hf
theorem OpcodeNames.keyInstall (key : Nat) (pair : BitVec 512) : OpcodeNames.Statement (.keyInstall key pair) := by
  intro f op hf; cases hf

end Sys2Proof.Laws
end

