-- ==== Sys2Proof/Machine/AsmText.lean ====
section
/-!
DEFINITION. The text that `dxas` reads: its tokens (R101, R103), its expressions and their values (R103, R104, R114), the written forms of operands
(R102), and one source line (R101).
-/

namespace Sys2Proof.Machine

open Sys2Proof

/-! ### Tokens -/

/-- A token of a source line. -/
inductive Tok where
  | name (s : String)
  | num (n : Nat)
  | chr (c : Char)
  | shl
  | shr
  | str (s : String)
  | bad                   -- a malformed number or a stray character
  deriving DecidableEq, Repr

def nameStart (c : Char) : Bool := c.isAlpha || c == '_' || c == '.'
def nameChar (c : Char) : Bool := c.isAlphanum || c == '_' || c == '.' || c == '$'

/-- The longest run of characters that satisfy `f`, and the rest. -/
def takeRun (f : Char → Bool) : List Char → List Char × List Char
  | [] => ([], [])
  | c :: cs => if f c then let r := takeRun f cs; (c :: r.1, r.2) else ([], c :: cs)

def digitVal (c : Char) : Option Nat :=
  if c.isDigit then some (c.toNat - 48)
  else if 'a' ≤ c && c ≤ 'f' then some (c.toNat - 87)
  else if 'A' ≤ c && c ≤ 'F' then some (c.toNat - 55)
  else none

/-- Digits of a base, with underscores between them; `d` says whether a digit stands just before. Two underscores side by side make no number.
(DESIGN CHOICE, log entry 99) -/
def readDigits (base : Nat) : Bool → Nat → List Char → Option Nat
  | d, n, [] => if d then some n else none
  | d, n, '_' :: cs => if d && !cs.isEmpty then readDigits base false n cs else none
  | _, n, c :: cs => match digitVal c with
    | some k => if k < base then readDigits base true (n * base + k) cs else none
    | none => none

/-- A number of R103. -/
def readNumber : List Char → Option Nat
  | '0' :: 'x' :: cs => readDigits 16 false 0 cs
  | '0' :: 'b' :: cs => readDigits 2 false 0 cs
  | cs => readDigits 10 false 0 cs

/-- The tokens of a line, up to its comment. -/
def lex : Nat → List Char → List Tok
  | 0, _ => []
  | _, [] => []
  | n + 1, c :: cs =>
      match c, cs with
      | ';', _ => []
      | '/', '/' :: _ => []
      | '<', '<' :: r => .shl :: lex n r
      | '>', '>' :: r => .shr :: lex n r
      | '"', _ => let r := takeRun (· != '"') cs
                  if r.2.isEmpty then [.bad] else .str (String.ofList r.1) :: lex n (r.2.drop 1)
      | _, _ =>
          if c == ' ' || c == '\t' then lex n cs
          else if c.isDigit then
            let r := takeRun nameChar (c :: cs)
            (match readNumber r.1 with | some v => .num v | none => .bad) :: lex n r.2
          else if nameStart c then
            let r := takeRun nameChar (c :: cs)
            .name (String.ofList r.1) :: lex n r.2
          else if "[](),:=+-*/%&^|~!".toList.contains c then .chr c :: lex n cs
          else .bad :: lex n cs

def lexLine (cs : List Char) : List Tok := lex (cs.length + 1) cs

/-- A line without its comment. -/
def stripComment : Bool → List Char → List Char
  | _, [] => []
  | q, '"' :: cs => '"' :: stripComment (!q) cs
  | false, ';' :: _ => []
  | false, '/' :: '/' :: _ => []
  | q, c :: cs => c :: stripComment q cs

def isBlank (c : Char) : Bool := c == ' ' || c == '\t'

def trim (cs : List Char) : List Char := ((cs.dropWhile isBlank).reverse.dropWhile isBlank).reverse

/-! ### Registers (R66, R101) -/

/-- The classes of registers that a source line names. -/
inductive RC where
  | v | s | p | t | cv | f
  deriving DecidableEq, Repr

/-- The greatest number of a class (R66). -/
def RC.top : RC → Nat
  | .v => 255 | .s => 63 | .p => 15 | .t => 7 | .cv => 7 | .f => 11

/-- The number written after the letters of a register. -/
def regNumber (c : RC) (cs : List Char) : Option (RC × Nat) :=
  if cs.isEmpty || !cs.all Char.isDigit then none else (readDigits 10 false 0 cs).map fun n => (c, n)

/-- A register that a name spells, whatever its number. -/
def regOf (s : String) : Option (RC × Nat) :=
  match s.toList with
  | 'c' :: 'v' :: r => regNumber .cv r
  | 'v' :: r => regNumber .v r
  | 's' :: r => regNumber .s r
  | 'p' :: r => regNumber .p r
  | 't' :: r => regNumber .t r
  | 'f' :: r => regNumber .f r
  | _ => none

/-- A name that spells a register, which is no symbol (R101). -/
def spellsReg (s : String) : Bool := (regOf s).isSome || s == "acc" || s == "lpc"

/-! ### Expressions (R103) -/

inductive BinOp where
  | mul | div | rem | add | sub | shl | shr | and | xor | or
  deriving DecidableEq, Repr

inductive Ex where
  | num (n : Nat)
  | sym (s : String)
  | neg (e : Ex)
  | not (e : Ex)
  | hi (e : Ex)
  | bin (o : BinOp) (a b : Ex)
  deriving DecidableEq, Repr

/-- A binary operator and its rank; rank 1 binds most. -/
def binOf : Tok → Option (BinOp × Nat)
  | .chr '*' => some (.mul, 1) | .chr '/' => some (.div, 1) | .chr '%' => some (.rem, 1)
  | .chr '+' => some (.add, 2) | .chr '-' => some (.sub, 2)
  | .shl => some (.shl, 3) | .shr => some (.shr, 3)
  | .chr '&' => some (.and, 4) | .chr '^' => some (.xor, 5) | .chr '|' => some (.or, 6)
  | _ => none

/-- An expression of rank at most `k` (0: an operand), from the left operand where it is read already, and the tokens after it. -/
def parseEx : Nat → Nat → Option Ex → List Tok → Option (Ex × List Tok)
  | 0, _, _, _ => none
  | n + 1, 0, _, ts => match ts with
    | .num v :: r => some (.num v, r)
    | .name "hi" :: .chr '(' :: r => match parseEx n 6 none r with
      | some (e, .chr ')' :: q) => some (.hi e, q)
      | _ => none
    | .name s :: r => if spellsReg s then none else some (.sym s, r)
    | .chr '-' :: r => (parseEx n 0 none r).map fun x => (.neg x.1, x.2)
    | .chr '~' :: r => (parseEx n 0 none r).map fun x => (.not x.1, x.2)
    | .chr '(' :: r => match parseEx n 6 none r with
      | some (e, .chr ')' :: q) => some (e, q)
      | _ => none
    | _ => none
  | n + 1, k + 1, none, ts => match parseEx n k none ts with
    | some (a, r) => parseEx n (k + 1) (some a) r
    | none => none
  | n + 1, k + 1, some a, ts => match ts with
    | [] => some (a, [])
    | t :: r => match binOf t with
      | none => some (a, ts)
      | some (o, rank) =>
          if rank ≠ k + 1 then some (a, ts)
          else match parseEx n k none r with
            | some (b, q) => parseEx n (k + 1) (some (.bin o a b)) q
            | none => none

/-- An expression that takes all of the tokens. -/
def exprOf (ts : List Tok) : Option Ex :=
  match parseEx (16 * (ts.length + 1)) 6 none ts with
  | some (e, []) => some e
  | _ => none

/-! ### Values (R103, R104, R114) -/

/-- The sections of a source file. -/
inductive Sect where
  | text | data | cdata | shared
  deriving DecidableEq, Repr

/-- What a symbol stands for. -/
inductive SymDef where
  | label (s : Sect) (off : Nat)
  | value (n : Int)
  deriving DecidableEq, Repr

/-- The value of an expression: a number; the loaded address of a place in a section; a symbol that `dxld` may resolve; or bits [47:32] of one of the
two latter. -/
inductive Val where
  | num (n : Int)
  | at (s : Sect) (off : Int) (hi : Bool)
  | ext (s : String) (add : Int) (hi : Bool)
  deriving DecidableEq, Repr

/-- Two's complement in 64 bits. -/
def int64 (x : Int) : Int := (BitVec.ofInt 64 x).toInt

/-- A binary operation on numbers; the errors are the codes of R117. -/
def BinOp.eval (o : BinOp) (a b : Int) : Except String Int :=
  match o with
  | .mul => .ok (int64 (a * b))
  | .div => if b = 0 then .error "E108" else .ok (int64 (Int.tdiv a b))
  | .rem => if b = 0 then .error "E108" else .ok (int64 (Int.tmod a b))
  | .add => .ok (int64 (a + b))
  | .sub => .ok (int64 (a - b))
  | .shl => if b < 0 then .error "E108" else if 64 ≤ b then .ok 0 else .ok (int64 (a * 2 ^ b.toNat))
  | .shr => if b < 0 then .error "E108" else if 64 ≤ b then .ok (if a < 0 then -1 else 0) else .ok (a / 2 ^ b.toNat)
  | .and => .ok (BitVec.ofInt 64 a &&& BitVec.ofInt 64 b).toInt
  | .xor => .ok (BitVec.ofInt 64 a ^^^ BitVec.ofInt 64 b).toInt
  | .or => .ok (BitVec.ofInt 64 a ||| BitVec.ofInt 64 b).toInt

/-- What stands where a constant must: the code of an expression that is none. -/
def Val.notConst : Val → String
  | .ext _ _ _ => "E106"
  | _ => "E108"

/-- Addition and subtraction of a place and a number, and the difference of two places of one section; nothing else is constant, and what an undefined
symbol is part of beyond that is an undefined symbol (R104). -/
def BinOp.evalVal (o : BinOp) (a b : Val) : Except String Val :=
  match o, a, b with
  | _, .num x, .num y => (o.eval x y).map .num
  | .add, .at s x false, .num y => .ok (.at s (x + y) false)
  | .add, .num y, .at s x false => .ok (.at s (x + y) false)
  | .sub, .at s x false, .num y => .ok (.at s (x - y) false)
  | .sub, .at s x false, .at t y false => if s = t then .ok (.num (x - y)) else .error "E108"
  | .add, .ext s x false, .num y => .ok (.ext s (x + y) false)
  | .add, .num y, .ext s x false => .ok (.ext s (x + y) false)
  | .sub, .ext s x false, .num y => .ok (.ext s (x - y) false)
  | _, .ext _ _ _, _ => .error "E106"
  | _, _, b => .error b.notConst

/-- The value of an expression over a table of symbols. With `fixed`, every label stands for its offset, as where an expression must be constant when
its line is read; else a label of `.text` or `.data` stands for its address. -/
def Ex.eval (look : String → Option SymDef) (fixed : Bool) : Ex → Except String Val
  | .num n => .ok (.num (int64 n))
  | .sym s => match look s with
    | none => .ok (.ext s 0 false)
    | some (.value n) => .ok (.num n)
    | some (.label .shared o) | some (.label .cdata o) => .ok (.num o)
    | some (.label t o) => if fixed then .ok (.num o) else .ok (.at t o false)
  | .neg e => match e.eval look fixed with
    | .ok (.num n) => .ok (.num (int64 (-n)))
    | .ok v => .error v.notConst
    | .error c => .error c
  | .not e => match e.eval look fixed with
    | .ok (.num n) => .ok (.num (-n - 1))
    | .ok v => .error v.notConst
    | .error c => .error c
  | .hi e => match e.eval look fixed with
    | .ok (.num n) => .ok (.num (bits (BitVec.ofInt 64 n).toNat 47 32))
    | .ok (.at s o false) => .ok (.at s o true)
    | .ok (.ext s o false) => .ok (.ext s o true)
    | .ok v => .error v.notConst
    | .error c => .error c
  | .bin o a b => match a.eval look fixed, b.eval look fixed with
    | .ok x, .ok y => o.evalVal x y
    | .error c, _ => .error c
    | _, .error c => .error c

/-! ### Operands (R102) -/

/-- What follows the base in a memory operand. -/
inductive MemOff where
  | none
  | reg (c : RC) (n : Nat)
  | ex (e : Ex)
  deriving DecidableEq, Repr

inductive Opd where
  | reg (c : RC) (n : Nat)
  | ex (e : Ex)
  | mem (c : RC) (n : Nat) (off : MemOff)
  | acc (r c : Ex)
  | place (i j : Ex)
  | flags (fs : List Nat)
  | kw (k : String) (v : List Tok)
  deriving DecidableEq, Repr

/-- The tokens between commas that stand outside all brackets; `d` is the depth. -/
def splitArgs : Nat → List Tok → List Tok → List (List Tok)
  | _, acc, [] => if acc.isEmpty then [] else [acc.reverse]
  | d, acc, t :: ts =>
      if t = .chr ',' && d = 0 then acc.reverse :: (if ts.isEmpty then [[]] else splitArgs 0 [] ts)
      else
        let e := if t = .chr '(' || t = .chr '[' then d + 1 else if t = .chr ')' || t = .chr ']' then d - 1 else d
        splitArgs e (t :: acc) ts

/-- Two expressions between brackets, which `r` closes. -/
def twoExprs (r : Char) (ts : List Tok) : Option (Ex × Ex) :=
  if ts.getLast? ≠ some (.chr r) then none
  else match splitArgs 0 [] ts.dropLast with
    | [a, b] => match exprOf a, exprOf b with
      | some x, some y => some (x, y)
      | _, _ => none
    | _ => none

/-- Flags joined by `+`. -/
def flagList : List Tok → Option (List Nat)
  | [.name s] => match regOf s with | some (.f, n) => some [n] | _ => none
  | .name s :: .chr '+' :: r => match regOf s with
    | some (.f, n) => (flagList r).map (n :: ·)
    | _ => none
  | _ => none

/-- A memory operand with an expression behind its base; one that breaks the grammar is E124. -/
def memEx (c : RC) (n : Nat) (ts : List Tok) (f : Ex → Ex) : Except String Opd :=
  match exprOf ts with
  | some e => .ok (.mem c n (.ex (f e)))
  | none => .error "E124"

/-- What stands behind the base of a memory operand. `[base-expr]` stands for an offset of −(expr). -/
def memTail (c : RC) (n : Nat) : List Tok → Except String Opd
  | [] => .ok (.mem c n .none)
  | .chr '+' :: [.name o] => match regOf o with
    | some (d, k) => if k ≤ d.top then .ok (.mem c n (.reg d k)) else .error "E102"
    | none => .ok (.mem c n (.ex (.sym o)))
  | .chr '+' :: q => memEx c n q id
  | .chr '-' :: q => memEx c n q .neg
  | _ => .error "E102"

/-- What stands inside the brackets of a memory operand: a base within its class, and what follows it. -/
def memOf (ts : List Tok) : Except String Opd :=
  match ts with
  | .name b :: r => match regOf b with
    | some (c, n) => if n ≤ c.top then memTail c n r else .error "E102"
    | none => .error "E102"
  | _ => .error "E102"

/-- An operand; an error where the text is none of the forms. -/
def opdOf (ts : List Tok) : Except String Opd :=
  let or := fun (o : Option Opd) => match o with | some x => Except.ok x | none => .error "E124"
  match ts with
  | .name k :: .chr '=' :: r => .ok (.kw k r)
  | .chr '[' :: r => if r.getLast? = some (.chr ']') then memOf r.dropLast else .error "E124"
  | .name "acc" :: .chr '[' :: r => or ((twoExprs ']' r).map fun x => .acc x.1 x.2)
  | .name "place" :: .chr '(' :: r => or ((twoExprs ')' r).map fun x => .place x.1 x.2)
  | .name s :: r => match regOf s, r with
    | some (c, n), [] => if n ≤ c.top then .ok (.reg c n) else .error "E102"
    | some (.f, _), _ => (match flagList ts with | some fs => .ok (.flags fs) | none => .error "E102")
    | some _, _ => .error "E102"
    | none, _ => or ((exprOf ts).map .ex)
  | _ => or ((exprOf ts).map .ex)

/-! ### Lines (R101) -/

/-- A source line: its label, guard, mnemonic or directive, and what follows it. -/
structure SrcLine where
  label : Option String := none
  guard : Option (Bool × Nat) := none     -- negated, number
  word  : Option String := none
  args  : List Tok := []
  bad   : Option String := none           -- the error of its guard, or that the line as a whole is
  deriving DecidableEq, Repr

/-- The part of a line after its label. -/
def restOf (label : Option String) (ts : List Tok) : SrcLine :=
  let op := fun (g : Option (Bool × Nat)) (r : List Tok) => match r with
    | .name w :: a => ({ label := label, guard := g, word := some w, args := a } : SrcLine)
    | _ => { label := label, bad := some "E124" }
  let wrong := fun (c : String) (r : List Tok) => let l := op (some (false, 0)) r; if l.word.isSome then { l with bad := some c } else l
  let guarded := fun (neg : Bool) (s : String) (r : List Tok) => match regOf s with
    | some (.p, n) =>
        if n > 15 then wrong "E102" r
        else if neg && n = 15 then wrong "E120" r
        else op (some (neg, n)) r
    | _ => wrong "E102" r
  match ts with
  | [] => { label := label }
  | .chr '(' :: .name s :: .chr ')' :: r => guarded false s r
  | .chr '(' :: .chr '!' :: .name s :: .chr ')' :: r => guarded true s r
  | r => op none r

def lineOf (ts : List Tok) : SrcLine :=
  match ts with
  | .name l :: .chr ':' :: r => restOf (some l) r
  | r => restOf none r

end Sys2Proof.Machine
end

