-- ==== Sys2Proof/Machine/AsmCode.lean ====
section
/-!
DEFINITION. How `dxas` turns one written instruction into a word: the mnemonics with their modifiers and operands, as the instruction entries write them
(R101, R102), the choice of the length (R109), and the words that it refuses because they always trap (R110).
-/

namespace Sys2Proof.Machine

open Sys2Proof

/-- An operand field of word 0. -/
inductive Fld where
  | d | a | b | c
  deriving DecidableEq, Repr

/-- Where a written operand goes. -/
inductive Slot1 where
  | reg (f : Fld) (cs : List RC) (sel : Bool)       -- a register of these classes; `sel`: a uniform one sets the select bit
  | val (cs : List RC) (sel bi imm : Bool)          -- source B: a register, or a constant in BI or in IMM32
  | imm                                             -- a constant in IMM32
  | part (hi lo : Nat)                              -- a constant in some bits of IMM32
  | rel                                             -- a label, as a distance in IMM32
  | relLow                                          -- the same in IMM32[15:0]
  | num (f : Fld)                                   -- a number in a field
  | mem                                             -- an address of R214
  | ptr (f : Fld) (sel off : Bool)                  -- a uniform register in brackets, perhaps with a constant offset in IMM32
  | acc (f : Fld)                                   -- an accumulator row
  | accHalf                                         -- row in A, column half in B (R190)
  | poisonTo                                        -- a predicate in C, with PE of R190
  | place
  | tensor
  | extReg                                          -- a vector register in EXT (R123)
  | csr
  | flags
  | sub (n : Nat)                                   -- no operand: the form has this SUB
  | base                                            -- no operand: IMM32 is made by keywords
  deriving DecidableEq, Repr

/-- How MOD names a scope (R68). -/
inductive ScopeK where
  | none | ordered | fence | plain
  deriving DecidableEq, Repr

/-- A mnemonic: its opcode, SUB, forms, and the modifiers that it takes. -/
structure Row where
  op    : Nat
  sub   : Nat := 0
  forms : List (List Slot1) := [[]]
  subs  : List (String × Nat) := []     -- modifiers that add to SUB, of which one is written
  cs    : List (String × Nat) := []     -- modifiers that set C
  csReq : Bool := false
  dty   : Nat := 0                      -- TY where no type is written
  ord   : List String := []
  scope : ScopeK := .none
  deriving DecidableEq, Repr

/-! ### The mnemonics -/

def dU : Slot1 := .reg .d [.v, .s] false
def dV : Slot1 := .reg .d [.v] false
def dS : Slot1 := .reg .d [.s] false
def dP : Slot1 := .reg .d [.p] false
def dT : Slot1 := .reg .d [.t] false
def aVS : Slot1 := .reg .a [.v, .s] true
def aV : Slot1 := .reg .a [.v] false
def aS : Slot1 := .reg .a [.s] false
def aP : Slot1 := .reg .a [.p] false
def aT : Slot1 := .reg .a [.t] false
def bVS : Slot1 := .reg .b [.v, .s] true
def bS : Slot1 := .reg .b [.s] false
def cVS : Slot1 := .reg .c [.v, .s] true
def bBi : Slot1 := .val [.v, .s] true true false
def bAny : Slot1 := .val [.v, .s] true true true
def bFp : Slot1 := .val [.v, .s] true false true
def block : Slot1 := .ptr .a false false

/-- Rows of one shape: mnemonics of consecutive opcodes. -/
def rowsFrom (op : Nat) (forms : List (List Slot1)) : List String → List (String × Row)
  | [] => []
  | s :: ss => (s, { op := op, forms := forms }) :: rowsFrom (op + 1) forms ss

def relations : List (String × Nat) := [("eq", 0), ("ne", 1), ("lt", 2), ("le", 3), ("gt", 4), ("ge", 5)]

/-- Control transfers and lane states (R145 to R151). -/
def rowsControl : List (String × Row) :=
  rowsFrom 0x01 [[]] ["nop"] ++ rowsFrom 0x02 [[.rel]] ["br"] ++ rowsFrom 0x08 [[]] ["exit", "yield"]
    ++ [("brc", { op := 0x03, forms := [[aVS, .rel]], subs := [("z", 0), ("nz", 1)] }),
        ("brx", { op := 0x04, forms := [[aVS]] }),
        ("call", { op := 0x05, forms := [[dV, aVS], [dV, .rel]] }),
        ("ret", { op := 0x06, forms := [[aVS]] }),
        ("rejoin", { op := 0x07, forms := [[aVS], [.imm]] }),
        ("vote.any", { op := 0x0A, sub := 0, forms := [[dP, aP]] }),
        ("vote.all", { op := 0x0A, sub := 1, forms := [[dP, aP]] }),
        ("vote.ballot", { op := 0x0A, sub := 2, forms := [[dS, aP]] }),
        ("vote.elect", { op := 0x0A, sub := 3, forms := [[dP, aP]] })]

/-- Integers, words, moves and lane exchange (R132 to R143). -/
def rowsInteger : List (String × Row) :=
  rowsFrom 0x20 [[dU, aVS, bAny]] ["add", "sub", "mul", "mulh"]
    ++ rowsFrom 0x24 [[dU, aVS, bAny, cVS]] ["mad", "madh"]
    ++ rowsFrom 0x26 [[dU, aVS, bAny]] ["min", "max"]
    ++ rowsFrom 0x28 [[dU, aVS]] ["abs", "neg"]
    ++ rowsFrom 0x2A [[dU, aVS, bAny]] ["idiv", "irem"]
    ++ rowsFrom 0x30 [[dU, aVS, bAny]] ["and", "or", "xor"]
    ++ rowsFrom 0x33 [[dU, aVS]] ["not"]
    ++ rowsFrom 0x34 [[dU, aVS, bAny]] ["andn", "shl", "shr", "sar", "rotl"]
    ++ rowsFrom 0x39 [[dU, aVS]] ["clz", "popc", "brev"]
    ++ [("bfx", { op := 0x3C, forms := [[dU, aVS, cVS], [dU, aVS, .imm]] }),
        ("bfi", { op := 0x3D, forms := [[dU, aVS, bBi, cVS], [dU, aVS, bBi, .imm]] }),
        ("lea", { op := 0x40, forms := [[dU, aVS, bBi, .num .c], [dU, aVS, bBi, .num .c, .imm]] }),
        ("cmp", { op := 0x41, forms := [[dP, aVS, bAny]], subs := relations }),
        ("csel", { op := 0x42, forms := [[dV, aVS, bBi, .reg .c [.p] false]] }),
        ("mov", { op := 0x43, forms := [[dV, aVS]] }),
        ("movi", { op := 0x44, forms := [[dV, .imm]] }),
        ("movs", { op := 0x45, forms := [[dS, .reg .a [.s] true], [dS, .imm]] }),
        ("shfl", { op := 0x48, forms := [[dV, aV, bBi]], subs := [("idx", 0), ("up", 1), ("down", 2), ("xor", 3)] }),
        ("rdlane", { op := 0x49, forms := [[dS, aV, .val [.s] true true false]] }),
        ("rdlane.first", { op := 0x49, forms := [[dS, aV, .imm]] }),
        ("lid", { op := 0x4A, forms := [[dV]] })]

/-- Floating point, narrow formats, `lmv` and `rnd` (R155 to R170). -/
def rowsFloat : List (String × Row) :=
  rowsFrom 0x60 [[dU, aVS, bFp]] ["fadd", "fsub", "fmul"]
    ++ rowsFrom 0x63 [[dU, aVS, bFp, cVS]] ["ffma"]
    ++ rowsFrom 0x64 [[dU, aVS, bFp]] ["fmin", "fmax"]
    ++ [("fcmp", { op := 0x66, forms := [[dP, aVS, bFp]], subs := relations ++ [("num", 6), ("nan", 7)] })]
    ++ rowsFrom 0x67 [[dU, aVS]] ["fclass"]
    ++ [("fcvt", { op := 0x68, forms := [[dU, aVS], [dV, aVS, bVS]] })]
    ++ rowsFrom 0x69 [[dU, aVS]] ["frnd", "frcp", "frsq", "fexp2", "flog2"]
    ++ rowsFrom 0x6E [[dU, aVS, bFp]] ["fdiv"] ++ rowsFrom 0x6F [[dU, aVS, bVS]] ["hpack"]
    ++ [("hunpack", { op := 0x70, forms := [[dU, aVS]], subs := [("lo", 0), ("hi", 1)] }),
        ("nbscale", { op := 0x78, forms := [[dS, aVS]] }),
        ("nbpack", { op := 0x79, forms := [[dV, aVS, bS]] }),
        ("nbunpack", { op := 0x7A, forms := [[dV, aV, bS]] }),
        ("lmv", { op := 0x80, forms := [[dV, aV, .imm]], subs := [("x4", 0), ("x8", 1)] }),
        ("rnd", { op := 0x81, forms := [[dV, aVS]] })]

/-- Team operations (R181 to R195). -/
def rowsTeam : List (String × Row) :=
  let store : List (List Slot1) := [[.acc .d, aS, .num .b, .imm], [.acc .d, .tensor, aS, .num .b, .imm]]
  [("mma", { op := 0x90, forms := [[.acc .d, aT, .reg .b [.t] false], [.sub 1, .acc .d, aT, bS, .imm, .place]], cs := [("m", 1)] }),
   ("sign", { op := 0x91, forms := [[.reg .a [.cv] false]] }),
   ("tld", { op := 0x92, forms := [[dT, .tensor, aS, .imm]], ord := ["acq"], scope := .ordered }),
   ("tsv", { op := 0x93, forms := [[dT, .tensor, aS, .imm]], ord := ["rel"], scope := .ordered }),
   ("tzero", { op := 0x94, forms := [[dT]] }),
   ("tpois", { op := 0x95, forms := [[dT, aS, bS]], cs := [("clr", 1)] }),
   ("acc.ld", { op := 0x96, forms := store, ord := ["acq"], scope := .ordered }),
   ("acc.st", { op := 0x97, forms := store, ord := ["rel"], scope := .ordered }),
   ("acc.rd", { op := 0x98, forms := [[dV, .accHalf], [dV, .accHalf, .poisonTo]] }),
   ("acc.zero", { op := 0x99, forms := [[.acc .d, .num .b]] }),
   ("mmask", { op := 0x9A, forms := [[aP, .base]] }),
   ("row.max", { op := 0xA0, sub := 0, dty := 7, forms := [[.acc .d, .acc .a, .num .c]] }),
   ("row.sum", { op := 0xA0, sub := 1, dty := 7, forms := [[.acc .d, .acc .a, .num .c]] }),
   ("row.exp", { op := 0xA0, sub := 2, dty := 7,
                 forms := [[.acc .d, .acc .a, .acc .b, .num .c], [.acc .d, .acc .a, .acc .b, .num .c, .imm]] }),
   ("row.scale", { op := 0xA0, sub := 3, dty := 7, forms := [[.acc .d, .acc .a, .acc .b, .num .c], [.acc .d, .acc .a, .num .c, .imm]] }),
   ("row.add", { op := 0xA0, sub := 4, dty := 7, forms := [[.acc .d, .acc .a, .acc .b, .num .c]] }),
   ("row.cvt", { op := 0xA0, sub := 5, forms := [[dT, .acc .a]] })]

/-- Predicates and memory (R196, R197, R214 to R232). -/
def rowsMemory : List (String × Row) :=
  let ops : List (String × Nat) := [("add", 0), ("min", 1), ("max", 2), ("and", 3), ("or", 4), ("xor", 5), ("xchg", 6), ("cas", 7)]
  let ld := fun sub fs => ({ op := 0xB0, sub := sub, forms := fs, ord := ["acq"], scope := .ordered } : Row)
  let st := fun sub fs => ({ op := 0xB1, sub := sub, forms := fs, ord := ["rel"], scope := .ordered } : Row)
  let atom := fun sub fs => ({ op := 0xB4, sub := sub, forms := fs, subs := ops, ord := ["ar"], scope := .ordered } : Row)
  let red := fun sub fs => ({ op := 0xB5, sub := sub, forms := fs, subs := ops, ord := ["rel"], scope := .ordered } : Row)
  rowsFrom 0xA8 [[dP, aP, .reg .b [.p] false]] ["pand", "por", "pxor"] ++ rowsFrom 0xAB [[dP, aP]] ["pnot", "pmov"]
    ++ [("pset", { op := 0xAD, forms := [[dP, aVS], [dP, .imm]] }),
        ("pget", { op := 0xAE, forms := [[dV, aP]] }),
        ("pbit", { op := 0xAF, forms := [[dP, aP, bBi]], cs := [("set", 0), ("clr", 1), ("flip", 2), ("test", 3)], csReq := true }),
        ("ld.g", ld 0 [[dV, .mem]]), ("ld.s", ld 1 [[dV, .mem]]), ("ld.c", ld 2 [[dV, .mem, .place]]), ("ld.k", ld 3 [[dV, .mem]]),
        ("st.g", st 0 [[.mem, cVS]]), ("st.s", st 1 [[.mem, cVS]]), ("st.c", st 2 [[.mem, cVS, .place]]),
        ("st.g.direct", st 8 [[.mem, cVS]]),
        ("ld.probe", { op := 0xB2, forms := [[dV, .mem, .reg .c [.p] false]], ord := ["acq"], scope := .ordered }),
        ("atom", atom 0 [[dV, .mem, cVS]]), ("atom.s", atom 8 [[dV, .mem, cVS]]), ("atom.c", atom 8 [[dV, .mem, cVS, .place]]),
        ("red", red 0 [[.mem, cVS]]), ("red.s", red 8 [[.mem, cVS]]), ("red.c", red 8 [[.mem, cVS, .place]]),
        ("fence", { op := 0xB8, scope := .fence }), ("fence.xp", { op := 0xB9 }), ("pf", { op := 0xBA, forms := [[.mem]] }),
        ("cst.ld", { op := 0xBB, forms := [[.ptr .a true false, .part 15 0, .part 24 16]] }), ("aflush", { op := 0xBC }),
        ("rgn", { op := 0xC0, forms := [[aV, .imm], [aV, .reg .b [.v] false, .reg .c [.v] false, .extReg, .imm]] }),
        ("spill", { op := 0xC1, forms := [[aV, .num .b, .ptr .c false true]] }),
        ("fill", { op := 0xC2, forms := [[dV, .num .b, .ptr .c false true]] }),
        ("give", { op := 0xC3, forms := [[.num .b]] }), ("claim", { op := 0xC4, forms := [[dP, .num .b]] }),
        ("rdidx", { op := 0xC5, forms := [[dV, aVS]] }), ("wridx", { op := 0xC6, forms := [[aVS, bVS]] })]

/-- Queues, slots, waiting and the system (R266 to R284, R329 to R356, R375 to R380). -/
def rowsSystem : List (String × Row) :=
  let cp : List (List Slot1) := [[.num .d, block, bS, .reg .c [.s] false]]
  let bBar : Slot1 := .val [.s] false true false
  [("fork", { op := 0xD0, forms := [[.base]] }),
   ("rdv", { op := 0xD1, forms := [[dP, aS]], subs := [("m", 1), ("r", 2), ("mr", 3), ("c", 4), ("mc", 5), ("rc", 6), ("mrc", 7)] }),
   ("job", { op := 0xD2, forms := [[aS]] }), ("cp.in", { op := 0xD3, sub := 0, forms := cp }),
   ("cp.out", { op := 0xD3, sub := 1, forms := cp }), ("spawn", { op := 0xD4, forms := [[aS, bS]] }),
   ("post", { op := 0xD5, forms := [[aS], [.imm]] }), ("eflag", { op := 0xD8, forms := [[.num .b]] }),
   ("ewait", { op := 0xD9, forms := [[], [.imm]] }), ("eloop", { op := 0xDA, forms := [[.part 31 16, .relLow]] }),
   ("eend", { op := 0xDB }),
   ("slot.ld", { op := 0xE0, forms := [[dV, block, bBi], [dV, block, bBi, .imm]], ord := ["acq"], scope := .ordered }),
   ("slot.sc", { op := 0xE1, forms := [[dP, block, bBi, cVS]] }), ("slot.fin", { op := 0xE2, forms := [[dS, block, .imm]] }),
   ("commit", { op := 0xE3 }), ("pvt", { op := 0xE4, forms := [[dV, aVS, bBi]] }),
   ("bar", { op := 0xE8, forms := [[dP, block, bBar], [dP, block, bBar, .imm]], scope := .fence }),
   ("bar.exp", { op := 0xE9, forms := [[block, .val [.s] false true true]], scope := .plain }),
   ("twait.any", { op := 0xEA, forms := [[aS], [.imm]] }), ("twait.all", { op := 0xEB, forms := [[aS], [.imm]] }),
   ("tffr", { op := 0xEC, forms := [[dS, aS]] }), ("fwait", { op := 0xED, forms := [[.flags]] }),
   ("csr.r", { op := 0xF0, forms := [[dS, .csr]] }), ("csr.w", { op := 0xF1, forms := [[.csr, aS]] }),
   ("tfence", { op := 0xF2 }), ("tret", { op := 0xF3 }), ("trap", { op := 0xF4, forms := [[.num .b]] }),
   ("brk", { op := 0xF5, forms := [[.num .b]] }), ("halt", { op := 0xF6 })]

def mnemonics : List (String × Row) := rowsControl ++ rowsInteger ++ rowsFloat ++ rowsTeam ++ rowsMemory ++ rowsSystem

/-- The pieces of a name between its dots. -/
def dotParts : List Char → List Char → List String
  | acc, [] => [String.ofList acc.reverse]
  | acc, '.' :: cs => String.ofList acc.reverse :: dotParts [] cs
  | acc, c :: cs => dotParts (c :: acc) cs

/-- The longest mnemonic at the head of a list of pieces, with its modifiers. -/
def rowOf (ps : List String) : Option (String × Row × List String) :=
  let try1 := fun (n : Nat) =>
    let s := String.intercalate "." (ps.take n)
    if n ≤ ps.length then (mnemonics.find? (·.1 == s)).map fun r => (s, r.2, ps.drop n) else none
  match try1 3, try1 2, try1 1 with
  | some r, _, _ => some r
  | none, some r, _ => some r
  | none, none, r => r

/-! ### Modifiers -/

/-- A type suffix (R67). -/
def typeOf (s : String) : Option Nat :=
  (["b32", "i32", "n32", "i16", "n16", "i8", "n8", "f32", "f16", "bf16", "nb7", "nb4", "nb2"].findIdx? (· == s))

def scopeOf (s : String) : Option Nat := ["grp", "team", "clu", "dev", "sys"].findIdx? (· == s)
def roundOf (s : String) : Option Nat := ["rn", "rz", "rm", "rp"].findIdx? (· == s)

/-- The modifiers read so far. -/
structure Mods where
  tys   : List Nat := []
  sub   : Option Nat := none
  c     : Option Nat := none
  sat   : Bool := false
  rm    : Option Nat := none
  ord   : Bool := false
  scope : Option Nat := none
  fb    : Bool := false
  deriving DecidableEq, Repr

def listed (t : List (String × Nat)) (s : String) : Option Nat := (t.find? (·.1 == s)).map (·.2)

/-- One modifier more; none where the mnemonic does not take it, or has one of the kind. -/
def Mods.take (m : Mods) (r : Row) (s : String) : Option Mods :=
  match listed r.subs s, listed r.cs s, typeOf s, roundOf s, scopeOf s with
  | some n, _, _, _, _ => if m.sub.isNone then some { m with sub := some n } else none
  | none, some n, _, _, _ => if m.c.isNone then some { m with c := some n } else none
  | none, none, some n, _, _ => some { m with tys := m.tys ++ [n] }
  | none, none, none, some n, _ => if m.rm.isNone then some { m with rm := some n } else none
  | none, none, none, none, some n => if m.scope.isNone && r.scope != .none then some { m with scope := some n } else none
  | none, none, none, none, none =>
      if s == "sat" && !m.sat then some { m with sat := true }
      else if s == "fb" && !m.fb then some { m with fb := true }
      else if r.ord.contains s && !m.ord then some { m with ord := true }
      else none

/-- The fields that the modifiers fix: SUB, TY, MOD, C and FS; E103 where they do not belong together. (DEDUCED, log entry 91) -/
def modFields (r : Row) (ss : List String) : Except String Fields :=
  match ss.foldl (fun (m : Option Mods) s => m.bind fun m => m.take r s) (some {}) with
  | none => .error "E103"
  | some m =>
      let fcvt := r.op == 0x68
      let scopeOk := match r.scope with
        | .none => m.scope.isNone && !m.ord
        | .ordered => m.ord == m.scope.isSome
        | .fence | .plain => m.scope.isSome
      if m.sub.isNone && !r.subs.isEmpty || m.c.isNone && r.csReq || !scopeOk || (if fcvt then m.tys.length != 2 else 1 < m.tys.length) then
        .error "E103"
      else
        let sc := m.scope.getD 0
        let ordered := m.ord || r.scope == .fence
        .ok { ty := BitVec.ofNat 4 (m.tys.head?.getD r.dty)
              sub := BitVec.ofNat 4 (if fcvt then m.tys.getLast?.getD 0 else r.sub + m.sub.getD 0)
              mod := BitVec.ofNat 4 (m.rm.getD 0 + 4 * m.sat.toNat + sc + 8 * ordered.toNat)
              c := BitVec.ofNat 8 (m.c.getD 0), fs := m.fb }

/-! ### Operands -/

/-- A word in the making. -/
structure Making where
  f      : Fields
  bConst : Option Val := none        -- the constant of source B, and where it may stand
  bi     : Bool := false
  bImm   : Bool := false
  imm    : Option Val := none
  rel    : Option (Val × Bool) := none     -- a label as a distance; whether in the low half of IMM32 only
  place  : Option (Int × Int) := none
  long   : Bool := false
  dest   : Option RC := none         -- the class written for D
  deriving DecidableEq, Repr

def Making.reg (m : Making) (fl : Fld) (n : Nat) (sel : Bool) : Making :=
  let x := BitVec.ofNat 8 n
  match fl with
  | .d => { m with f := { m.f with d := x } }
  | .a => { m with f := { m.f with a := x, ua := sel } }
  | .b => { m with f := { m.f with b := x, ub := sel } }
  | .c => { m with f := { m.f with c := x, uc := sel } }

/-- Bits of IMM32 that a part or a keyword fills. -/
def Making.immBits (m : Making) (lo v : Nat) : Making :=
  match m.imm with
  | none => { m with imm := some (.num (v * 2 ^ lo)) }
  | some (.num x) => { m with imm := some (.num (x + v * 2 ^ lo)) }
  | some _ => m

/-- A constant that must be a number when all is read. -/
def constOf (look : String → Option SymDef) (e : Ex) : Except String Int :=
  match e.eval look false with
  | .ok (.num n) => .ok n
  | .ok (.ext _ _ _) => .error "E106"
  | .ok (.at _ _ _) => .error "E108"
  | .error c => .error c

/-- A constant within bounds. -/
def constIn (look : String → Option SymDef) (lo hi : Int) (e : Ex) : Except String Nat :=
  match constOf look e with
  | .ok n => if lo ≤ n && n ≤ hi then .ok n.toNat else .error "E104"
  | .error c => .error c

/-- What the operands of a line are read with: the symbols, and the tensors by name. -/
structure AsmEnv where
  look    : String → Option SymDef
  tensors : List (String × Nat)

/-- A tensor by its name, or by its number. A name used before its `.tensor` line is E106. (DESIGN CHOICE, log entry 99) -/
def AsmEnv.tensor (v : AsmEnv) (e : Ex) : Except String Nat :=
  match e with
  | .sym s => match listed v.tensors s, v.look s with
    | some n, _ => .ok n
    | none, none => .error "E106"
    | none, some _ => constIn v.look 0 4095 e
  | _ => constIn v.look 0 4095 e

/-- One operand put where its slot says. -/
def Making.put (m : Making) (v : AsmEnv) (s : Slot1) (o : Opd) : Except String Making :=
  match s, o with
  | .reg f cs sel, .reg c n =>
      if !cs.contains c then .error "E102"
      else if f = .d && c = .p && n = 15 then .error "E121"
      else
        let x := m.reg f n (sel && c == .s)
        .ok (if f = .d then { x with dest := some c } else x)
  | .val cs sel _ _, .reg c n => if cs.contains c then .ok (m.reg .b n (sel && c == .s)) else .error "E102"
  | .val _ _ bi imm, .ex e => (e.eval v.look false).map fun x => { m with bConst := some x, bi := bi, bImm := imm }
  | .imm, .ex e => (e.eval v.look false).map fun x => { m with imm := some x }
  | .part hi lo, .ex e => (constIn v.look 0 (2 ^ (hi + 1 - lo) - 1) e).map fun n => m.immBits lo n
  | .rel, .ex e => (e.eval v.look false).map fun x => { m with rel := some (x, false), imm := some (.num 0) }
  | .relLow, .ex e => (e.eval v.look false).map fun x => { m with rel := some (x, true) }
  | .num f, .ex e => (constIn v.look 0 255 e).map fun n => m.reg f n false
  | .mem, .mem c n off =>
      if c != .v && c != .s then .error "E102"
      else
        let x := m.reg .a n (c == .s)
        match off with
        | .none => .ok { x with bConst := some (.num 0), bi := true, bImm := true }
        | .reg d k => if (d != .v && d != .s) || k > d.top then .error "E102" else .ok (x.reg .b k (d == .s))
        | .ex e => (e.eval v.look false).map fun y => { x with bConst := some y, bi := true, bImm := true }
  | .ptr f sel _, .mem .s n .none => .ok (m.reg f n sel)
  | .ptr f sel true, .mem .s n (.ex e) => (e.eval v.look false).map fun x => { m.reg f n sel with imm := some x }
  | .acc f, .acc r c => match constIn v.look 0 255 r, constOf v.look c with
    | .ok n, .ok 0 => .ok (m.reg f n false)
    | .ok _, .ok _ => .error "E102"
    | .error x, _ => .error x
    | _, .error x => .error x
  | .accHalf, .acc r c => match constIn v.look 0 255 r, constOf v.look c with
    | .ok n, .ok 0 => .ok (m.reg .a n false)
    | .ok n, .ok 32 => .ok ((m.reg .a n false).reg .b 0x20 false)
    | .ok _, .ok _ => .error "E102"
    | .error x, _ => .error x
    | _, .error x => .error x
  | .poisonTo, .reg .p 15 => .error "E121"
  | .poisonTo, .reg .p n => .ok { (m.reg .c n false) with f := { (m.reg .c n false).f with b := m.f.b ||| 0x80#8 } }
  | .place, .place i j => match constOf v.look i, constOf v.look j with
    | .ok x, .ok y => .ok { m with place := some (x, y), long := true }
    | .error x, _ => .error x
    | _, .error x => .error x
  | .tensor, .ex e => (v.tensor e).map fun n => { m with f := { m.f with ext := BitVec.ofNat 20 n }, long := true }
  | .extReg, .reg .v n => .ok { m with f := { m.f with ext := BitVec.ofNat 20 n }, long := true }
  | .csr, .ex e => (constIn v.look 0 4095 e).map fun n =>
      { m with f := { m.f with sub := BitVec.ofNat 4 (n / 256), c := BitVec.ofNat 8 n } }
  | .flags, .reg .f n => .ok { m with f := { m.f with b := BitVec.ofNat 8 (2 ^ n), c := BitVec.ofNat 8 (2 ^ n / 256) } }
  | .flags, .flags fs =>
      if fs.any (· > 11) then .error "E102"
      else
        let x := fs.foldl (fun a n => a ||| 2 ^ n) 0
        .ok { m with f := { m.f with b := BitVec.ofNat 8 x, c := BitVec.ofNat 8 (x / 256) } }
  | _, _ => .error "E102"

/-- The operands of a line: each as it is read, or its error. -/
abbrev Opds := List (Except String Opd)

/-- The operands put into the slots of a form, with every error on the way; none where the form has another number of operands. -/
def Making.fill (m : Making) (v : AsmEnv) : List Slot1 → Opds → Option (Making × List String)
  | .sub n :: ss, os => Making.fill { m with f := { m.f with sub := BitVec.ofNat 4 n } } v ss os
  | .base :: ss, os => Making.fill (m.immBits 0 0) v ss os
  | [], [] => some (m, [])
  | s :: ss, o :: os => match o with
    | .error c => (Making.fill m v ss os).map fun r => (r.1, c :: r.2)
    | .ok x => match m.put v s x with
      | .ok y => Making.fill y v ss os
      | .error c => (Making.fill m v ss os).map fun r => (r.1, c :: r.2)
  | _, _ => none

/-- The operands that fit no slot of their form. -/
def misfits (es : List String) : Nat := (es.filter (· == "E102")).length

/-- The first of the forms that the fewest operands misfit, with the errors of those (R116); E102 where no form has that number of operands. -/
def Making.anyForm (m : Making) (v : AsmEnv) (os : Opds) (fs : List (List Slot1)) : Making × List String :=
  let rs := fs.filterMap fun f => m.fill v f os
  match rs with
  | [] => (m, (os.filterMap fun o => match o with | .error c => some c | .ok _ => none) ++ ["E102"])
  | r :: rs => rs.foldl (fun b x => if misfits x.2 < misfits b.2 then x else b) r

/-! ### Keywords -/

/-- A keyword of a mnemonic and its value. -/
def Making.kw (m : Making) (v : AsmEnv) (base k : String) (ts : List Tok) : Except String Making :=
  let num := fun (lo hi : Int) => match exprOf ts with
    | some e => constIn v.look lo hi e
    | none => .error "E124"
  let uni := match ts with | [.name s] => (match regOf s with | some (.s, n) => if n ≤ 63 then some n else none | _ => none) | _ => none
  let named := fun (f : Fld) (bit : Nat) => match uni with
    | some n => .ok { m.reg f n false with f := { (m.reg f n false).f with sub := m.f.sub ||| BitVec.ofNat 4 bit } }
    | none => .error "E102"
  match base, k with
  | "shfl", "width" => match num 1 32 with
    | .ok w => if [1, 2, 4, 8, 16, 32].contains w then .ok (m.immBits 0 (Nat.log2 w)) else .error "E104"
    | .error c => .error c
  | "mma", "kt" => (num 1 8).map fun n => { m with f := { m.f with ext := m.f.ext ||| BitVec.ofNat 20 (n - 1) } }
  | "mma", "rot" => (num 0 7).map fun n => { m with f := { m.f with ext := m.f.ext ||| BitVec.ofNat 20 (8 * n) } }
  | "mmask", "q" => (num 0 3).map fun n => m.immBits 0 n
  | "mmask", "h" => (num 0 1).map fun n => m.immBits 2 n
  | "fork", "m" => named .a 1
  | "fork", "r" => named .b 2
  | "fork", "c" => named .c 4
  | "fork", "fp" => if ts = [.name "none"] then .ok (m.immBits 31 1) else (num 0 (2 ^ 18 - 1)).map fun n => m.immBits 0 n
  | "cp.in", "bar" => (num 0 (2 ^ 18 - 1)).map fun n => (m.immBits 0 n).immBits 31 1
  | "ewait", "ev" => (num 0 255).map fun n => m.reg .b n false
  | _, _ => .error "E102"

/-- A bare keyword. -/
def Making.bare (m : Making) (base k : String) : Option Making :=
  match base, k with
  | "mmask", "inv" => some (m.immBits 3 1)
  | "twait.any", "hi" => some { m with f := { m.f with c := 1#8 } }
  | "twait.all", "hi" => some { m with f := { m.f with c := 1#8 } }
  | _, _ => none

/-- Keywords and bare keywords taken out of a list of operands and applied. -/
def Making.kws (m : Making) (v : AsmEnv) (base : String) : Opds → Making × Opds × List String
  | [] => (m, [], [])
  | o :: os =>
      let keep := fun (_ : Unit) => let r := m.kws v base os; (r.1, o :: r.2.1, r.2.2)
      match o with
      | .ok (.kw k ts) => (match m.kw v base k ts with
        | .ok x => x.kws v base os
        | .error c => let r := m.kws v base os; (r.1, r.2.1, c :: r.2.2))
      | .ok (.ex (.sym k)) => (match m.bare base k with
        | some x => x.kws v base os
        | none => keep ())
      | _ => keep ()

/-! ### The word -/

/-- An instruction as it is coded: what is filled in once its place is known, or by `dxld`. -/
structure Coded where
  i     : Instr
  f     : Fields
  rel   : Option (Val × Bool) := none
  sym   : Option Val := none             -- a symbol whose value goes into IMM32
  place : Option (Int × Int) := none
  deriving DecidableEq, Repr

/-- A constant as IMM32: a number of 32 bits, signed or unsigned; or zero and a symbol. -/
def imm32 (x : Val) : Except String (BitVec 32 × Option Val) :=
  match x with
  | .num n => if -(2 ^ 31) ≤ n && n < 2 ^ 32 then .ok (BitVec.ofInt 32 n, none) else .error "E104"
  | y => .ok (0#32, some y)

/-- The error of a value that does not stand in BI: an undefined symbol is E106 (R114). -/
def Val.badByte : Val → String
  | .ext _ _ _ => "E106"
  | _ => "E104"

/-- The length and the constants of a word (R109). -/
def Making.sized (m : Making) : Except String (Fields × Option Val) :=
  let len := if m.long then Len.l128 else .l96
  match m.imm, m.bConst with
  | some x, some (.num n) =>
      if m.bi && !m.long && -128 ≤ n && n ≤ 127 then
        (imm32 x).map fun y => ({ m.f with len := len, b := BitVec.ofInt 8 n, bi := true, imm := y.1 }, y.2)
      else .error "E104"
  | some _, some y => .error y.badByte
  | some x, none => (imm32 x).map fun y => ({ m.f with len := len, imm := y.1 }, y.2)
  | none, some x =>
      let short := match x with | .num n => m.bi && !m.long && -128 ≤ n && n ≤ 127 | _ => false
      if short then (match x with | .num n => .ok ({ m.f with len := .l64, b := BitVec.ofInt 8 n, bi := true }, none) | _ => .error "E104")
      else if m.bImm then (imm32 x).map fun y => ({ m.f with len := len, imm := y.1 }, y.2)
      else .error x.badByte
  | none, none => .ok ({ m.f with len := if m.long then .l128 else .l64 }, none)

/-- The error that a cause of R74 is in source text (R110). (DEDUCED, log entry 91) -/
def causeError (c : Nat) : String := if c = 5 then "E104" else if c = 6 then "E102" else "E103"

/-- Whether the destination is written in the class that its sources call for (R130). -/
def destOk (i : Instr) (dest : Option RC) : Bool :=
  match desc i, dest with
  | some k, some c => k.d != .dU || (c == .s) == isUniform i
  | _, _ => true

/-- Predicate 15 as a destination (E121), in field D or in field C. -/
def dest15 (i : Instr) (f : Fields) : Bool :=
  match i with
  | .accRd _ => f.b.getLsbD 7 && f.c == 15#8
  | _ => match desc i with
    | some k => (k.d == .pd && f.d == 15#8) || (k.c == .pd && f.c == 15#8)
    | none => false

/-- Opcode and fields as an instruction; a word that would always trap is refused. -/
def Making.code (m : Making) (op : Nat) (guard : Option (Bool × Nat)) : Except String Coded :=
  match m.sized with
  | .error c => .error c
  | .ok (f, sym) =>
      let g := match guard with
        | some (neg, n) => { f with g := BitVec.ofNat 4 n, gn := neg }
        | none => f
      let h := if m.place.isSome then { g with row := 63#6, col := 63#6 } else g
      match instrOf op h with
      | .error c => .error (causeError c)
      | .ok i =>
          let late := if m.rel.isSome then nearCause i else staticCause i
          if h.fs && !isLong i then .error "E103"
          else if dest15 i h then .error "E121"
          else if late ≠ 0 then .error (causeError late)
          else if !destOk i m.dest then .error "E102"
          else .ok { i := i, f := h, rel := m.rel, sym := sym, place := m.place }

/-- The operands of a line. -/
def readOpds (os : List (List Tok)) : Opds := os.map opdOf

/-- The fields with the operands in their places, and every error of the operands. -/
def Making.whole (m : Making) (v : AsmEnv) (base : String) (r : Row) (os : Opds) : Making × List String :=
  let k := m.kws v base os
  let x := k.1.anyForm v k.2.1 r.forms
  (x.1, k.2.2 ++ x.2)

/-- A written instruction as a word, or every error of its modifiers and of its operands (R116). -/
def codeLine (v : AsmEnv) (word : String) (guard : Option (Bool × Nat)) (ts : List Tok) : Except (List String) Coded :=
  match rowOf (dotParts [] word.toList) with
  | none => .error ["E101"]
  | some (base, r, ss) =>
      let f := modFields r ss
      let mods := match f with | .ok _ => [] | .error c => [c]
      let x := ({ f := f.toOption.getD {} } : Making).whole v base r (readOpds (splitArgs 0 [] ts))
      if mods.isEmpty && x.2.isEmpty then (match x.1.code r.op guard with | .ok c => .ok c | .error c => .error [c])
      else .error (mods ++ x.2 ++ (match x.1.sized with | .ok _ => [] | .error c => [c]))

end Sys2Proof.Machine
end

