-- ==== Sys2Proof/Machine/AsmClause.lean ====
section
/-!
DEFINITION. How `dxas` places words and builds clauses: the fetch blocks of R57, the clause headers written by hand and their checks (R111), and
automatic clauses (R112), over the state of one pass through the source.
-/

namespace Sys2Proof.Machine

open Sys2Proof

/-! ### Registers that a word reads and writes -/

/-- A register as the clause checks see it: a row of the accumulator is one of its own. -/
inductive RK where
  | v | s | p | t | acc | cv
  deriving DecidableEq, Repr

abbrev Loc := RK × Nat

/-- A range of registers of one kind. -/
def locs (k : RK) (first n : Nat) : List Loc := (rangeFrom first n).map fun i => (k, i)

/-- What an operand field names. -/
def fieldLocs (k : FK) (v : Nat) (sel bi uni : Bool) : List Loc :=
  match k with
  | .pd | .ps => if v < 15 then [(.p, v)] else []
  | _ => (fieldRegs k v sel bi uni).flatMap fun r => match r.1 with
    | .vector => locs .v r.2.1 r.2.2
    | .uniform => locs .s r.2.1 r.2.2
    | .tile => locs .t r.2.1 r.2.2
    | _ => []

/-- Accumulator rows that a word names, destination first. -/
def accRows (k : Desc) : List (List Loc) := (k.regs.filter (·.1 == .acc)).map fun r => locs .acc r.2.1 r.2.2

/-- Whether the field D of an instruction is a source. -/
def dIsRead : Instr → Bool
  | .tsv _ | .accSt _ => true
  | _ => false

/-- Whether the first rows that an instruction names are written, and whether they are read. -/
def rowsRole : Instr → Bool × Bool
  | .accLd _ | .accZero _ => (true, false)
  | .accSt _ | .accRd _ | .rowCvt _ => (false, true)
  | .mma _ => (true, true)
  | _ => (true, false)

/-- The registers that an instruction reads and those that it writes. A predicate destination may stand in any field; `rdv` writes its A (R267). -/
def regUse (i : Instr) : List Loc × List Loc :=
  match desc i, fieldsOf i with
  | some k, some f =>
      let u := k.uniform f
      let d := fieldLocs k.d f.d.toNat false false u
      let a := fieldLocs k.a f.a.toNat f.ua false u
      let b := fieldLocs k.b f.b.toNat f.ub f.bi u
      let c := fieldLocs k.c f.c.toNat f.uc false u
      let g := if f.g == 15#4 then [] else [(RK.p, f.g.toNat)]
      let rows := accRows k
      let first := rows.head?.getD []
      let role := rowsRole i
      let aW := match i with | .rdv _ => true | _ => false
      let cW := k.c == .pd
      (g ++ (if dIsRead i then d else []) ++ (if aW then [] else a) ++ b ++ (if cW then [] else c) ++ (if role.2 then first else [])
          ++ (rows.drop 1).flatten,
        (if dIsRead i then [] else d) ++ (if aW then a else []) ++ (if cW then c else []) ++ (if role.1 then first else []))
  | _, _ => ([], [])

/-- A control transfer of R111 and R112: `exit` is one, since the example of R112 has it stay in its clause for the reason that no register is
pending. (DEDUCED, log entry 91) -/
def isTransfer : Instr → Bool
  | .br _ | .brc _ | .brx _ | .call _ | .ret _ | .exit _ => true
  | _ => false

/-- The instructions after which a new clause starts (R112). -/
def endsClause : Instr → Bool
  | .br _ | .brx _ | .call _ | .ret _ | .exit _ => true
  | _ => false

/-! ### The state of a pass -/

/-- Where a source line stands: its file and number, and the lines that invoked the macro or named the file. -/
structure Pos where
  file  : String := ""
  line  : Nat := 0
  calls : List (String × Nat) := []
  text  : String := ""       -- the line as it was read
  deriving DecidableEq, Repr

/-- A diagnostic (R116, R117). -/
structure Diag where
  pos  : Pos
  seq  : Nat                 -- the number of the source line in the order of reading
  code : String
  loc  : Option Loc := none  -- the register that it names
  say  : String := ""        -- its message and its remedy, where they are not the code's own
  cure : String := ""
  deriving DecidableEq, Repr

/-- A word or a number in a section. -/
structure Piece where
  addr : Nat
  len  : Nat
  val  : Nat
  pos  : Pos
  gen  : Bool := false       -- generated: a header, padding, a tail word
  text : String := ""
  deriving DecidableEq, Repr

/-- How a field takes the value of a symbol (R114). -/
inductive How where
  | value        -- bits [31:0], or bits [47:32] of `hi`
  | dist         -- the distance from the instruction
  | distLow      -- the same in 16 bits
  deriving DecidableEq, Repr

/-- A symbol relocation: the field's section and offset, the instruction's offset, and the place or symbol. -/
structure SymReloc where
  sect   : Sect
  off    : Nat
  pc     : Nat
  how    : How
  target : Val
  deriving DecidableEq, Repr

/-- The open clause. -/
structure OpenClause where
  pc   : Nat
  pos  : Pos
  seq  : Nat
  h    : Header
  auto : Bool
  want : Nat            -- by hand: the instructions that `count=` asks for; 0 for none
  held : Nat := 0       -- instructions, padding with them
  pads : Nat := 0
  deriving DecidableEq, Repr

/-- A pending destination: its flag and the line that set it. -/
structure PendingDest where
  loc  : Loc
  flag : Nat
  line : Nat
  deriving DecidableEq, Repr

/-- A frontier declaration (R107). -/
structure FrontierDecl where
  dims : Nat
  deps : List (List Int)
  deriving DecidableEq, Repr

/-- An entry in the making (R106). -/
structure Entry where
  name     : String
  pc       : Nat
  pos      : Pos
  seq      : Nat
  vregs    : Option Nat := none
  sregs    : Nat := 0
  groups   : Option Nat := none
  tiles    : Nat := 0
  acc      : Nat := 0
  spad     : Option Nat := none
  cv       : Nat := 0
  rejoin   : Nat := 1
  barriers : Nat := 0
  cluster  : Nat × Nat := (1, 1)
  frontier : Option FrontierDecl := none
  uses     : List (Pos × Nat × Loc) := []      -- registers named, with the line
  signs    : List (Nat × Nat × Option (Int × Int)) := []
  deriving DecidableEq, Repr

/-- Automatic clauses (R112). -/
structure Auto where
  a  : Nat := 0
  b  : Nat := 1
  tf : Bool := false
  deriving DecidableEq, Repr

/-- The state of one pass. -/
structure AsmSt where
  prev    : List (String × SymDef) := []      -- the symbols at the end of the pass before
  cur     : List (String × SymDef) := []
  tensors : List (String × Nat) := []
  sect    : Sect := .text
  text    : List Piece := []                  -- latest first
  data    : List Piece := []
  cdata   : List Piece := []
  tpos    : Nat := 0
  dpos    : Nat := 0
  cpos    : Nat := 0
  spos    : Nat := 0
  auto    : Option Auto := none
  abs     : Bool := false                     -- `.place abs`
  clause  : Option OpenClause := none
  fresh   : Bool := true                      -- automatic: the next instruction starts a clause
  called  : Bool := false                     -- by hand: a `call` stands just before
  pend    : List PendingDest := []
  held    : List (String × Pos × Nat) := []   -- labels that wait for the next word
  entry   : Option Entry := none
  entries : List Entry := []                  -- ended, latest first
  relocs  : List SymReloc := []
  places  : List Reloc := []
  labels  : List (Nat × Pos × Nat) := []      -- labels of `.text`, with their lines
  targets : List Int := []                    -- offsets that branches name
  diags   : List Diag := []
  pos     : Pos := {}
  seq     : Nat := 0
  deriving DecidableEq, Repr

def AsmSt.diag (a : AsmSt) (code : String) : AsmSt := { a with diags := { pos := a.pos, seq := a.seq, code := code } :: a.diags }

/-- The name of a register. -/
def RK.name : RK → String
  | .v => "v" | .s => "s" | .p => "p" | .t => "t" | .acc => "acc" | .cv => "cv"
def locName (l : Loc) : String := l.1.name ++ toString l.2

/-- A diagnostic of a pending register, in the words of the example of R112. -/
def AsmSt.pendDiag (a : AsmSt) (code what : String) (p : PendingDest) : AsmSt :=
  let flag := "f" ++ toString p.flag
  { a with diags := { pos := a.pos, seq := a.seq, code := code, loc := some p.loc
                      say := locName p.loc ++ " " ++ what ++ " while pending on " ++ flag ++ " (set at line " ++ toString p.line ++ ")"
                      cure := "add wait=" ++ flag ++ " to a header before this line" } :: a.diags }

/-- A symbol by its name: of this pass, or of the one before. -/
def AsmSt.look (a : AsmSt) (s : String) : Option SymDef :=
  match a.cur.find? (·.1 == s), a.prev.find? (·.1 == s) with
  | some x, _ => some x.2
  | none, some x => some x.2
  | none, none => none

/-! ### Placing words (R57) -/

/-- A word at the present place of `.text`. -/
def AsmSt.putText (a : AsmSt) (len val : Nat) (gen : Bool) (text : String) : AsmSt :=
  { a with text := { addr := a.tpos, len := len, val := val, pos := a.pos, gen := gen, text := text } :: a.text, tpos := a.tpos + len }

/-- The 64-bit `nop` (R57). -/
def nopWord : Nat := (word0 0x01#8 { g := 15#4 }).toNat

/-- One padding `nop`, counted in the open clause. -/
def AsmSt.putNop (a : AsmSt) : AsmSt :=
  let b := a.putText 8 nopWord true "nop"
  { b with clause := a.clause.map fun c => { c with held := c.held + 1, pads := c.pads + 1 } }

def AsmSt.putTail (a : AsmSt) : AsmSt := a.putText 4 0 true ""

def AsmSt.putNops : Nat → AsmSt → AsmSt
  | 0, a => a
  | n + 1, a => AsmSt.putNops n a.putNop

/-- The padding `nop`s before a word of `len` bytes at `pos`, and whether a tail word follows them. -/
def gapBefore (pos len : Nat) : Nat × Bool :=
  let off := pos % 32
  if off + len ≤ 32 then (0, false) else ((32 - off) / 8, (32 - off) % 8 == 4)

/-- The place made ready for a word of `len` bytes. (DEDUCED, log entry 91) -/
def AsmSt.pad (a : AsmSt) (len : Nat) : AsmSt :=
  let a := if a.tpos % 4 = 0 then a else a.putText (4 - a.tpos % 4) 0 true ""
  let g := gapBefore a.tpos len
  let a := AsmSt.putNops g.1 a
  if g.2 then a.putTail else a

/-- The labels that wait stand at the present place of `.text`. (DEDUCED, log entry 91) -/
def AsmSt.bindLabels (a : AsmSt) : AsmSt :=
  { a with cur := (a.held.map fun l => (l.1, SymDef.label .text a.tpos)) ++ a.cur, labels := (a.held.map fun l => (a.tpos, l.2)) ++ a.labels, held := [] }

/-! ### Clauses -/

/-- The text of a generated header. -/
def headerText (h : Header) : String :=
  let f := fun (n : Nat) => "f" ++ toString n
  let waits := ((upto 12).filter fun n => h.wait.getLsbD n).map f
  "clause count=" ++ toString h.count.toNat ++ (if h.av then ", a=" ++ f h.seta.toNat else "") ++ (if h.bv then ", b=" ++ f h.setb.toNat else "")
    ++ (if waits.isEmpty then "" else ", wait=" ++ String.intercalate "+" waits) ++ (if h.tf then ", tf" else "")

/-- The open clause closed: its COUNT is written (R57, R111). -/
def AsmSt.closeClause (a : AsmSt) : AsmSt :=
  match a.clause with
  | none => a
  | some c =>
      let n := if c.auto then c.held else if c.want = 0 then 0 else c.want + c.pads
      let h := { c.h with count := BitVec.ofNat 5 n }
      let a := { a with clause := none, text := a.text.map fun p =>
                   if p.addr = c.pc && p.len ≠ 0 then { p with val := (encodeHeader h).toNat, text := if c.auto then headerText h else p.text } else p }
      if n ≤ 31 then a else { a with diags := { pos := c.pos, seq := c.seq, code := "E109" } :: a.diags }

/-- A header at the next place; what waits on its flags is no longer pending. -/
def AsmSt.openClause (a : AsmSt) (h : Header) (auto : Bool) (want : Nat) (text : String) : AsmSt :=
  let a := (a.closeClause.pad 8).bindLabels
  let pc := a.tpos
  let a := a.putText 8 (encodeHeader h).toNat auto text
  { a with clause := some { pc := pc, pos := a.pos, seq := a.seq, h := h, auto := auto, want := want }, fresh := false, called := false
           pend := a.pend.filter fun p => !h.wait.getLsbD p.flag }

/-- A header inside a counted clause written by hand, before its COUNT instructions (R111). -/
def AsmSt.earlyCheck (a : AsmSt) : AsmSt :=
  match a.clause with
  | some c => if !c.auto && c.want ≠ 0 && c.held - c.pads < c.want then a.diag "E112" else a
  | none => a

/-- A `clause` line (R111). (DEDUCED, log entry 91) -/
def AsmSt.handHeader (a : AsmSt) (h : Header) (want : Nat) (text : String) : AsmSt :=
  let a := if a.held.isEmpty then a else { a with pend := [] }
  a.earlyCheck.openClause h false want text

/-- The mask of the flags of some pending destinations. -/
def waitMask (ps : List PendingDest) : BitVec 12 := ps.foldl (fun m p => m ||| BitVec.ofNat 12 (2 ^ p.flag)) 0#12

/-- The pending destinations that an instruction reads or writes. -/
def AsmSt.hits (a : AsmSt) (i : Instr) : List PendingDest :=
  let u := regUse i
  a.pend.filter fun p => u.1.contains p.loc || u.2.contains p.loc

/-- The header that rules 1 to 5 of R112 ask for before an instruction of `len` bytes, if any. That of rule 4 before a label stands at the label, so
that every branch to the label passes its WAIT. (DESIGN CHOICE, log entry 99; the rest DEDUCED, log entry 91) -/
def AsmSt.autoHeader (a : AsmSt) (o : Auto) (i : Instr) (len : Nat) : AsmSt :=
  let rule4 := (isTransfer i || !a.held.isEmpty) && !a.pend.isEmpty
  let wait := waitMask (a.hits i) ||| (if rule4 then waitMask a.pend else 0#12)
  let full := match a.clause with
    | some c => 31 < c.held + (gapBefore a.tpos len).1 + 1
    | none => true
  if a.fresh || !a.held.isEmpty || wait ≠ 0#12 || full then
    (if rule4 then a.earlyCheck.diag "W208" else a.earlyCheck).openClause
      { tf := o.tf, bv := true, setb := BitVec.ofNat 4 o.b, av := true, seta := BitVec.ofNat 4 o.a, wait := wait } true 0 ""
  else a

/-- Whether an instruction written by hand stands where R59 asks for a header. (DEDUCED, log entry 91) -/
def AsmSt.needsHeader (a : AsmSt) : Bool :=
  match a.clause with
  | none => true
  | some c => c.auto || a.called || (c.want ≠ 0 && c.want ≤ c.held - c.pads)

/-- By hand, data in `.text` straight behind a `call` or a finished counted clause stand where a header must (R111). -/
def AsmSt.dataInCode (a : AsmSt) : AsmSt :=
  let after := match a.clause with
    | some c => !c.auto && (a.called || (c.want ≠ 0 && c.want ≤ c.held - c.pads))
    | none => false
  { (if after then a.diag "E112" else a) with called := false }

/-- The warnings of R111 for an instruction, in the order of the registers. (DEDUCED, log entry 91) -/
def AsmSt.warn (a : AsmSt) (i : Instr) : AsmSt :=
  let u := regUse i
  let reads := a.pend.filter fun p => u.1.contains p.loc
  let writes := a.pend.filter fun p => u.2.contains p.loc
  let a := reads.foldl (fun a p => a.pendDiag "W201" "read" p) a
  writes.foldl (fun a p => a.pendDiag (if isLong i then "W203" else "W202") "written" p) a

/-- The destinations of a long-latency instruction pend on the flag that it sets. -/
def AsmSt.setPend (a : AsmSt) (i : Instr) : AsmSt :=
  match a.clause, fieldsOf i with
  | some c, some f =>
      if !isLong i then a
      else
        let a := if f.fs && !c.h.bv then a.diag "E110" else a
        let valid := if f.fs then c.h.bv else c.h.av
        let flag := (if f.fs then c.h.setb else c.h.seta).toNat
        let ws := (regUse i).2
        if !valid then a
        else { a with pend := (a.pend.filter fun p => !ws.contains p.loc) ++ ws.map fun l => { loc := l, flag := flag, line := a.pos.line } }
  | _, _ => a

/-- Registers that an instruction names, kept for the checks at the end of its entry (R110, R115). -/
def AsmSt.note (a : AsmSt) (i : Instr) : AsmSt :=
  let named := (staticRegs i).flatMap fun r => match r.1 with
    | .vector => locs .v r.2.1 r.2.2
    | .uniform => locs .s r.2.1 r.2.2
    | _ => []
  let cv := match i with | .sign f => [(RK.cv, f.a.toNat)] | _ => []
  { a with entry := a.entry.map fun e => { e with uses := (named ++ cv).map (fun l => (a.pos, a.seq, l)) ++ e.uses } }

/-- An instruction placed, in a clause by hand or an automatic one; its word is made for its address. -/
def AsmSt.putInstr (a : AsmSt) (i : Instr) (len : Nat) (text : String) (word : Nat → AsmSt → Nat × AsmSt) : AsmSt :=
  let a := a.note i
  let a := match a.auto with
    | some o => a.autoHeader o i len
    | none =>
        let b := if a.held.isEmpty then a else { a with pend := [] }
        (if b.needsHeader then b.diag "E112" else b).warn i
  let a := (a.pad len).bindLabels
  let w := word a.tpos a
  let a := w.2.putText len w.1 false text
  let a := AsmSt.setPend { a with clause := a.clause.map fun c => { c with held := c.held + 1 } } i
  let call := match i with | .call _ => true | _ => false
  { a with fresh := a.fresh || endsClause i, called := call, pend := if isTransfer i then [] else a.pend }

/-! ### Alignment -/

/-- The `nop` of the padding, as an instruction. -/
def padNop : Instr := .nop { g := 15#4 }

/-- By hand, a padding `nop` of `.align` stands where R59 asks for a header: at an entry or in no clause, or after a `call`. -/
def AsmSt.nopBreaks (a : AsmSt) : Bool := a.auto.isNone && (a.called || a.clause.isNone)

/-- `.align` in `.text`: padding as in R57, one word at a time; with automatic clauses a `nop` gets the header that any instruction would get there.
(DEDUCED, log entry 91) -/
def AsmSt.alignText (goal : Nat) : Nat → AsmSt → AsmSt
  | 0, a => a
  | n + 1, a =>
      if goal ≤ a.tpos then a
      else if a.tpos % 4 ≠ 0 then AsmSt.alignText goal n (a.putText 1 0 true "")
      else if a.tpos % 32 = 28 || goal < a.tpos + 8 then AsmSt.alignText goal n a.putTail
      else
        let b := match a.auto with | some o => a.autoHeader o padNop 8 | none => if a.nopBreaks then a.diag "E112" else a
        AsmSt.alignText goal n (if b.tpos = a.tpos then { b.putNop with called := false } else b)

/-- `.align` by hand binds the labels before it to the place where it stands; what is pending does not reach past them. -/
def AsmSt.alignHere (a : AsmSt) (n : Nat) : AsmSt :=
  let b := if a.auto.isSome || a.held.isEmpty then a else { a.bindLabels with pend := [] }
  AsmSt.alignText (roundUp b.tpos n) (n + 1) b

end Sys2Proof.Machine
end

