-- ==== Sys2Proof/Machine/DraftTree.lean ====
section
/-!
DEFINITION. Draft tree records (R343) and what a program restores from them when a proposal is rejected (R344). No hardware reads a draft tree: it is
a record in memory that programs and tools agree on.
-/

namespace Sys2Proof.Machine

open Sys2Proof

/-- A node entry. -/
structure DraftNode where
  snap   : Nat
  depth  : Nat
  root   : Bool
  parent : Nat
  pos    : Nat
  token  : Nat
  deriving DecidableEq, Repr

/-- A snapshot of the grammar automaton. -/
structure GrammarSnap where
  gdepth : Nat
  state  : Nat
  top    : Nat
  deriving DecidableEq, Repr

/-- A draft tree: its nodes, and where its snapshots begin. -/
structure DraftTree where
  snapBase : Nat
  nodes    : List DraftNode
  deriving DecidableEq, Repr

/-- The fields of a node word. -/
def draftNodeOf (w : Nat) : DraftNode :=
  { snap := bits w 63 48, depth := bits w 45 40, root := bit w 38, parent := bits w 37 32, pos := bits w 31 22, token := bits w 21 0 }

/-- The word of a node, its unnamed bits zero. -/
def DraftNode.word (n : DraftNode) : Nat :=
  n.token % 2 ^ 22 + n.pos % 2 ^ 10 * 2 ^ 22 + n.parent % 2 ^ 6 * 2 ^ 32 + n.root.toNat * 2 ^ 38 + n.depth % 2 ^ 6 * 2 ^ 40 + n.snap % 2 ^ 16 * 2 ^ 48

/-- The fields of a snapshot. -/
def grammarSnapOf (w0 w1 : Nat) : GrammarSnap := { gdepth := bits w0 47 32, state := bits w0 31 0, top := bits w1 47 0 }

/-- The 8-byte words of a record in the memory of a context, as its own accesses see them; `none` where a page faults. -/
def State.recordOf (s : State) (ctx va n : Nat) : Option (List Nat) :=
  match s.readVirt ioUnit ctx (va % 2 ^ 48) (8 * n) with
  | .ok bs => some ((upto n).map (wordLe bs))
  | .error _ => none

/-- The tree at an address: a multiple of 16, with 1 to 64 nodes. (DEDUCED, log entry 93) -/
def State.draftTree (s : State) (ctx va : Nat) : Option DraftTree :=
  match s.recordOf ctx va 2 with
  | none => none
  | some h =>
      let n := nth 0 h 0
      if va % 16 ≠ 0 || n = 0 || 64 < n || 2 ^ 48 ≤ nth 0 h 1 then none
      else (s.recordOf ctx (va + 16) n).map fun ws => { snapBase := nth 0 h 1, nodes := ws.map draftNodeOf }

/-- A node `k` agrees with the nodes before it: only node 0 is the root, a parent comes before its children, and depths count from 0 at the root. -/
def DraftTree.nodeOk (t : DraftTree) (k : Nat) (n : DraftNode) : Bool :=
  if k = 0 then n.root && n.parent == 0 && n.depth == 0
  else !n.root && n.parent < k && (t.nodes[n.parent]?).any fun p => n.depth == p.depth + 1

/-- Every node of a tree agrees with those before it. (DEDUCED, log entry 93) -/
def DraftTree.wf (t : DraftTree) : Bool :=
  (upto t.nodes.length).all fun k => (t.nodes[k]?).any (t.nodeOk k)

/-- The nodes on the path from `n` up to the root, `n` first. -/
def DraftTree.path (t : DraftTree) : Nat → Nat → List Nat
  | 0, _ => []
  | fuel + 1, n => match t.nodes[n]? with
    | none => []
    | some x => if x.root then [n] else n :: t.path fuel x.parent

/-- The children of a node, other than one of them. -/
def DraftTree.siblings (t : DraftTree) (n : Nat) : List Nat :=
  match t.nodes[n]? with
  | none => []
  | some x => (upto t.nodes.length).filter fun k => k != n && (t.nodes[k]?).any fun y => !y.root && y.parent == x.parent

/-- The snapshot of a node. -/
def State.snapOf (s : State) (ctx : Nat) (t : DraftTree) (n : Nat) : Option GrammarSnap :=
  match t.nodes[n]? with
  | none => none
  | some x => (s.recordOf ctx (t.snapBase + 16 * x.snap) 2).map fun ws => grammarSnapOf (nth 0 ws 0) (nth 0 ws 1)

/-- The values of the stack cells from `top`, at most `fuel` of them; `none` where a cell cannot be read. -/
def State.grammarStack (s : State) (ctx : Nat) : Nat → Nat → Option (List Nat)
  | 0, _ => some []
  | fuel + 1, top =>
      if top = 0 then some []
      else match s.recordOf ctx top 2 with
        | none => none
        | some ws => (s.grammarStack ctx fuel (bits (nth 0 ws 1) 47 0)).map fun vs => bits (nth 0 ws 0) 31 0 :: vs

/-- What a program goes on with (R344): the node, the automaton as its snapshot has it, the whole stack, and the proposals that are left. -/
structure Resumption where
  node  : Nat
  snap  : GrammarSnap
  stack : List Nat
  rest  : List Nat
  deriving DecidableEq, Repr

/-- Node `n` is rejected: the program falls back to its parent with the parent's snapshot, and the other children are left. The root has no node to
fall back to. (DEDUCED, log entry 93) -/
def State.rejectNode (s : State) (ctx : Nat) (t : DraftTree) (n : Nat) : Option Resumption :=
  match t.nodes[n]? with
  | none => none
  | some x =>
      if x.root then none
      else match s.snapOf ctx t x.parent with
        | none => none
        | some g => (s.grammarStack ctx g.gdepth g.top).map fun vs =>
            { node := x.parent, snap := g, stack := vs, rest := t.siblings n }

/-- Going on with any other state than the snapshot's is the program error of R344. -/
def Resumption.agrees (r : Resumption) (g : GrammarSnap) : Bool := r.snap == g

end Sys2Proof.Machine
end

