-- ==== Sys2Proof/Machine/Dxas.lean ====
section
/-!
DEFINITION. `dxas` (R98 to R116): its options and exit status, the directives, macros, included files and conditions, entry descriptors, symbols and
relocations, the passes over a source file, the object, and the listing.
-/

namespace Sys2Proof.Machine

open Sys2Proof

/-! ### Invocation (R98) -/

/-- The options of a run. -/
structure AsmOpts where
  source  : Option String := none
  object  : Option String := none
  dirs    : List String := []
  defs    : List (String × String) := []
  listing : Option String := none
  auto    : Bool := false
  werror  : Bool := false
  wall    : Bool := false
  noWarn  : List String := []
  deriving DecidableEq, Repr

/-- The name and the value of a `-D`, whose value is 1 where none is given. -/
def defOf (s : String) : String × String :=
  let r := takeRun (· != '=') s.toList
  (String.ofList r.1, if r.2.isEmpty then "1" else String.ofList (r.2.drop 1))

/-- One word of a command line that stands alone; none for an unknown option, or a second source. -/
def AsmOpts.word (o : AsmOpts) (s : String) : Option AsmOpts :=
  match s.toList with
  | ['-', 'a'] => some { o with auto := true }
  | ['-', 'W', 'e', 'r', 'r', 'o', 'r'] => some { o with werror := true }
  | ['-', 'W', 'a', 'l', 'l'] => some { o with wall := true }
  | '-' :: 'W' :: 'n' :: 'o' :: '-' :: '2' :: [x, y] =>
      if x.isDigit && y.isDigit then some { o with noWarn := String.ofList ['W', '2', x, y] :: o.noWarn } else none
  | '-' :: _ => none
  | _ => if o.source.isNone then some { o with source := some s } else none

/-- A command line; none where it ends the run with status 2. -/
def parseOpts : List String → AsmOpts → Option AsmOpts
  | [], o => if o.source.isSome && o.object.isSome then some o else none
  | [s], o => match o.word s with | some x => parseOpts [] x | none => none
  | s :: t :: r, o =>
      if s == "-o" then parseOpts r { o with object := some t }
      else if s == "-I" then parseOpts r { o with dirs := o.dirs ++ [t] }
      else if s == "-D" then parseOpts r { o with defs := o.defs ++ [defOf t] }
      else if s == "-l" then parseOpts r { o with listing := some t }
      else match o.word s with
        | some x => parseOpts (t :: r) x
        | none => none

/-! ### Names -/

def directives : List String :=
  [".text", ".data", ".cdata", ".shared", ".kernel", ".regs", ".team", ".cluster", ".frontier", ".tensor", ".autoclause", ".place", ".align", ".word",
   ".half", ".byte", ".equ", ".macro", ".endm", ".include", ".if", ".else", ".endif"]

/-- A name that cannot be a symbol (R101). -/
def reservedName (s : String) : Bool :=
  spellsReg s || directives.contains s || (rowOf [s]).isSome || (mnemonics.any (·.1 == s))
    || ["clause", "vote", "ld", "st", "cp"].contains s

/-! ### Constant expressions (R104) -/

def Ex.syms : Ex → List String
  | .num _ => []
  | .sym s => [s]
  | .neg e | .not e | .hi e => e.syms
  | .bin _ a b => a.syms ++ b.syms

/-- An expression that must be constant when its line is read. -/
def AsmSt.constNow (a : AsmSt) (e : Ex) : Except String Int :=
  let known := fun s => (a.cur.find? (·.1 == s)).isSome || a.held.any (·.1 == s)
  match e.syms.find? fun s => !known s with
  | some s => if (a.prev.find? (·.1 == s)).isSome then .error "E108" else .error "E106"
  | none =>
      let look := fun s => match a.held.find? (·.1 == s) with
        | some _ => some ((a.prev.find? (·.1 == s)).map (·.2) |>.getD (.label .text a.tpos))
        | none => (a.cur.find? (·.1 == s)).map (·.2)
      match e.eval look true with
      | .ok (.num n) => .ok n
      | .ok _ => .error "E108"
      | .error c => .error c

/-- A constant that tokens give. -/
def AsmSt.const (a : AsmSt) (ts : List Tok) : Except String Int :=
  match exprOf ts with
  | none => .error "E124"
  | some e => constOf a.look e

/-- A number that an operand of a directive gives, within bounds. -/
def AsmSt.num (a : AsmSt) (lo hi : Int) (bad : String) (ts : List Tok) : Except String Nat :=
  match a.const ts with
  | .ok n => if lo ≤ n && n ≤ hi then .ok n.toNat else .error bad
  | .error c => .error c

/-! ### Symbols -/

/-- A symbol defined. -/
def AsmSt.define (a : AsmSt) (s : String) (d : SymDef) : AsmSt :=
  if reservedName s then a.diag "E123"
  else if a.cur.any (·.1 == s) || a.held.any (·.1 == s) then a.diag "E107"
  else { a with cur := (s, d) :: a.cur }

/-- A label at the present place. One in `.text` stands for the next word, past its padding. (DEDUCED, log entry 91) -/
def AsmSt.label (a : AsmSt) (s : String) : AsmSt :=
  match a.sect with
  | .text =>
      if reservedName s then a.diag "E123"
      else if a.cur.any (·.1 == s) || a.held.any (·.1 == s) then a.diag "E107"
      else { a with held := a.held ++ [(s, a.pos, a.seq)] }
  | .data => a.define s (.label .data a.dpos)
  | .cdata => a.define s (.label .cdata a.cpos)
  | .shared => a.define s (.label .shared a.spos)

/-! ### Data -/

/-- A number of `len` bytes in the selected section. -/
def AsmSt.putData (a : AsmSt) (len val : Nat) : AsmSt :=
  let p := fun (x : Nat) => ({ addr := x, len := len, val := val, pos := a.pos } : Piece)
  match a.sect with
  | .text => let b := a.bindLabels; b.putText len val false (String.ofList (trim (stripComment false a.pos.text.toList)))
  | .data => { a with data := p a.dpos :: a.data, dpos := a.dpos + len }
  | .cdata => { a with cdata := p a.cpos :: a.cdata, cpos := a.cpos + len }
  | .shared => { a with spos := a.spos + len }

def AsmSt.here (a : AsmSt) : Nat := match a.sect with | .text => a.tpos | .data => a.dpos | .cdata => a.cpos | .shared => a.spos

/-- One value of `.word`, `.half` or `.byte`. -/
def AsmSt.value (a : AsmSt) (len : Nat) (ts : List Tok) : AsmSt :=
  match exprOf ts with
  | none => a.diag "E124"
  | some e => match e.eval a.look false with
    | .error c => a.diag c
    | .ok (.num n) =>
        if -(2 ^ (8 * len - 1) : Int) ≤ n && n < 2 ^ (8 * len) then a.putData len (wrap n (8 * len)) else (a.putData len 0).diag "E104"
    | .ok v =>
        if len ≠ 4 then (a.putData len 0).diag (match v with | .ext _ _ _ => "E106" | _ => "E104")
        else
          let b := a.putData 4 0
          { b with relocs := { sect := a.sect, off := a.here, pc := a.here, how := .value, target := v } :: b.relocs }

/-- Zero bytes up to a multiple, in a section other than `.text`. -/
def AsmSt.alignData (a : AsmSt) (n : Nat) : AsmSt :=
  let gap := roundUp a.here n - a.here
  if gap = 0 then a else a.putData gap 0

/-! ### Directives of an entry (R105 to R107) -/

/-- `name=value` in tokens. -/
def kvOf : List Tok → Option (String × List Tok)
  | .name k :: .chr '=' :: r => some (k, r)
  | _ => none

/-- A field of `.regs` or `.team`. -/
def Entry.field (e : Entry) (k : String) (n : Nat) : Option Entry :=
  match k with
  | "v" => some { e with vregs := some n }
  | "s" => some { e with sregs := n }
  | "groups" => some { e with groups := some n }
  | "tiles" => some { e with tiles := n }
  | "acc" => some { e with acc := n }
  | "spad" => some { e with spad := some n }
  | "cv" => some { e with cv := n }
  | "rejoin" => some { e with rejoin := n }
  | "barriers" => some { e with barriers := n }
  | _ => none

/-- The bounds of a field (R33, R105). -/
def fieldBounds (k : String) : Nat × Nat :=
  match k with
  | "v" => (1, 256) | "s" => (0, 64) | "groups" => (1, 16) | "tiles" => (0, 8) | "acc" => (0, 256) | "spad" => (0, 768 * 256)
  | "cv" => (0, 8) | "rejoin" => (1, 8) | _ => (0, 255)

/-- Keywords of `.regs` or `.team` one after another. (DEDUCED, log entry 91) -/
def AsmSt.fields (keys : List String) : List (List Tok) → AsmSt → AsmSt
  | [], a => a
  | o :: os, a => match kvOf o, a.entry with
    | some (k, ts), some e =>
        if !keys.contains k then AsmSt.fields keys os (a.diag "E124")
        else match a.num (fieldBounds k).1 (fieldBounds k).2 "E114" ts with
          | .ok n => AsmSt.fields keys os { a with entry := e.field k n }
          | .error c => AsmSt.fields keys os { a.diag c with entry := e.field k (fieldBounds k).2 }
    | some _, none => a.diag "E114"
    | none, _ => AsmSt.fields keys os (a.diag "E124")

/-- A shape of R30. -/
def clusterShape (h w : Nat) : Bool := (1 ≤ h && h ≤ 3 && 1 ≤ w && w ≤ 4) || (h == 4 && 1 ≤ w && w ≤ 3)

/-- A vector is negative in lexicographic order. -/
def lexNegative : List Int → Bool
  | [] => false
  | x :: xs => x < 0 || (x == 0 && lexNegative xs)

/-- Results one after another: the first error, or all of them. -/
def okAll {α : Type} : List (Except String α) → Except String (List α)
  | [] => .ok []
  | .error c :: _ => .error c
  | .ok x :: r => (okAll r).map (x :: ·)

/-- A vector between parentheses. -/
def AsmSt.vector (a : AsmSt) (ts : List Tok) : Except String (List Int) :=
  match ts with
  | .chr '(' :: r => if r.getLast? ≠ some (.chr ')') then .error "E124" else okAll ((splitArgs 0 [] r.dropLast).map a.const)
  | _ => .error "E124"

/-- `.frontier` (R107). -/
def AsmSt.frontierDecl (a : AsmSt) (os : List (List Tok)) : Except String FrontierDecl :=
  let go := fun (d : List Tok) (vs : List (List Tok)) =>
    match a.num 1 3 "E119" d with
    | .error c => Except.error c
    | .ok n =>
        match okAll (vs.map a.vector) with
        | .error c => .error c
        | .ok ds =>
          if ds.length ≤ 4 && ds.all fun v => v.length == n && v.all (fun x => -15 ≤ x && x ≤ 0) && lexNegative v then .ok { dims := n, deps := ds }
          else .error "E119"
  match os with
  | [d] => match kvOf d with
    | some ("dims", t) => go t []
    | _ => .error "E124"
  | d :: v :: vs => match kvOf d, kvOf v with
    | some ("dims", t), some ("deps", x) => go t (x :: vs)
    | _, _ => .error "E124"
  | [] => .error "E124"

/-- The entry ends: the code after it belongs to none. -/
def AsmSt.endEntry (a : AsmSt) : AsmSt :=
  match a.entry with
  | none => a
  | some e => { a with entry := none, entries := e :: a.entries }

/-- Zero words up to `goal`, in pieces that end at multiples of 8 bytes (R106, R116). -/
def AsmSt.putZeros (goal : Nat) : Nat → AsmSt → AsmSt
  | 0, a => a
  | n + 1, a => if goal ≤ a.tpos then a else AsmSt.putZeros goal n (a.putText (Nat.min (8 - a.tpos % 8) (goal - a.tpos)) 0 true "")

/-- `.kernel` (R106): zero words to a multiple of 32, the four words of the descriptor, and the entry PC. -/
def AsmSt.kernel (a : AsmSt) (name : String) : AsmSt :=
  let a := a.endEntry.closeClause.bindLabels
  let a := AsmSt.putZeros (roundUp a.tpos 32) 32 a
  let a := (((a.putText 8 0 false "descriptor word 0").putText 8 0 false "descriptor word 1").putText 8 0 false "descriptor Z").putText 8 0 false
    "descriptor Z"
  let a := a.define name (.label .text a.tpos)
  { a with entry := some { name := name, pc := a.tpos, pos := a.pos, seq := a.seq }, clause := none, fresh := true, called := false, pend := [] }

/-- `.autoclause` (R105, R112). -/
def AsmSt.autoclause (a : AsmSt) (os : List (List Tok)) : AsmSt :=
  let flag := fun (ts : List Tok) => match ts with
    | [.name s] => (match regOf s with | some (.f, n) => if n ≤ 11 then Except.ok n else .error "E111" | _ => .error "E102")
    | _ => .error "E102"
  let set := fun (x : Except String Auto) (o : List Tok) => match x with
    | .error c => Except.error c
    | .ok x => match kvOf o, o with
      | some ("a", t), _ => (flag t).map fun n => { x with a := n }
      | some ("b", t), _ => (flag t).map fun n => { x with b := n }
      | none, [.name "tf"] => .ok { x with tf := true }
      | _, _ => .error "E124"
  match os with
  | [.name s] :: r => match s == "on" || s == "off", r.foldl set (.ok {}) with
    | true, .ok x => { (if s == "on" then a else a.closeClause) with auto := if s == "on" then some x else none, fresh := true }
    | true, .error c => a.diag c
    | false, _ => a.diag "E124"
  | _ => a.diag "E124"

/-- A directive other than those that steer the reading. A `.tensor` name that is reserved is E123, and one that is given twice E107.
(DESIGN CHOICE, log entry 99) -/
def AsmSt.directive (a : AsmSt) (d : String) (ts : List Tok) : AsmSt :=
  let os := splitArgs 0 [] ts
  let none0 := fun (x : AsmSt) => if os.isEmpty then x else a.diag "E124"
  let data := fun (len : Nat) =>
    if os.isEmpty then a.diag "E124"
    else os.foldl (fun a o => a.value len o) (if a.sect = .text then a.dataInCode.diag "W206" else a)
  match d, os with
  | ".text", _ => none0 { a with sect := .text }
  | ".data", _ => none0 { a with sect := .data }
  | ".cdata", _ => none0 { a with sect := .cdata }
  | ".shared", _ => none0 { a with sect := .shared }
  | ".kernel", [[.name s]] => a.kernel s
  | ".regs", _ => if os.isEmpty then a.diag "E124" else AsmSt.fields ["v", "s"] os a
  | ".team", _ => if os.isEmpty then a.diag "E124" else AsmSt.fields ["groups", "tiles", "acc", "spad", "cv", "rejoin", "barriers"] os a
  | ".cluster", [x, y] => match a.num 0 64 "E114" x, a.num 0 64 "E114" y, a.entry with
    | .ok h, .ok w, some e => if clusterShape h w then { a with entry := some { e with cluster := (h, w) } } else a.diag "E114"
    | .error c, .error d, _ => (a.diag c).diag d
    | .error c, _, _ => a.diag c
    | _, .error c, _ => a.diag c
    | _, _, none => a.diag "E114"
  | ".frontier", _ => match a.frontierDecl os, a.entry with
    | .ok f, some e => { a with entry := some { e with frontier := some f } }
    | .error c, _ => a.diag c
    | _, none => a.diag "E114"
  | ".tensor", [[.name s], x] => match a.num 0 4095 "E104" x with
    | .ok n =>
        if reservedName s then a.diag "E123" else if a.tensors.any (·.1 == s) then a.diag "E107" else { a with tensors := (s, n) :: a.tensors }
    | .error c => a.diag c
  | ".autoclause", _ => a.autoclause os
  | ".place", [[.name "cluster"]] => { a with abs := false }
  | ".place", [[.name "abs"]] => { a with abs := true }
  | ".align", [x] => match a.num 4 4096 "E104" x with
    | .ok n =>
        if n ≠ 2 ^ Nat.log2 n then a.diag "E104"
        else if a.sect = .text then a.alignHere n
        else a.alignData n
    | .error c => a.diag c
  | ".word", _ => data 4
  | ".half", _ => data 2
  | ".byte", _ => data 1
  | ".equ", [[.name s], x] => match exprOf x with
    | none => a.diag "E124"
    | some e => match a.constNow e with
      | .ok n => a.define s (.value n)
      | .error c => a.diag c
  | _, _ => if directives.contains d then a.diag "E124" else a.diag "E101"

/-! ### Instructions -/

/-- A `clause` line (R111). -/
def AsmSt.clauseLine (a : AsmSt) (ts : List Tok) (text : String) : AsmSt :=
  let flags := fun (ts : List Tok) => match flagList ts with
    | some fs => if fs.all (· ≤ 11) then Except.ok fs else .error "E111"
    | none => .error "E102"
  let set := fun (x : Header × Nat) (o : List Tok) => match x with
    | (h, n) => match kvOf o, o with
      | some ("count", t), _ => (match a.num 0 1000000 "E104" t with | .ok k => Except.ok (h, k) | .error c => .error c)
      | some ("a", t), _ => (match flags t with
        | .ok [f] => .ok ({ h with av := true, seta := BitVec.ofNat 4 f }, n) | .ok _ => .error "E102" | .error c => .error c)
      | some ("b", t), _ => (match flags t with
        | .ok [f] => .ok ({ h with bv := true, setb := BitVec.ofNat 4 f }, n) | .ok _ => .error "E102" | .error c => .error c)
      | some ("wait", t), _ => (match flags t with
        | .ok fs => .ok ({ h with wait := fs.foldl (fun m f => m ||| BitVec.ofNat 12 (2 ^ f)) h.wait }, n) | .error c => .error c)
      | none, [.name "tf"] => .ok ({ h with tf := true }, n)
      | _, _ => .error "E102"
  if a.auto.isSome then a.diag "E122"
  else
    let r := (splitArgs 0 [] ts).foldl (fun (x : AsmSt × Header × Nat) o => match set x.2 o with
      | .ok y => (x.1, y)
      | .error c => (x.1.diag c, x.2)) (a, {}, 0)
    r.1.handHeader r.2.1 r.2.2 text

/-- A PLACE operand inside the cluster or the grid (R113). -/
def AsmSt.placeOk (a : AsmSt) (p : Option (Int × Int)) : Bool :=
  match p with
  | none => true
  | some (i, j) =>
      if a.abs then 0 ≤ i && i ≤ 31 && 0 ≤ j && j ≤ 51
      else
        let c := match a.entry with | some e => e.cluster | none => (1, 1)
        0 ≤ i && i < (c.1 : Nat) && 0 ≤ j && j < (c.2 : Nat)

/-- The operation word of the `sign` at `pos`, on the line before, compared with the others of its register in the entry (R115). -/
def AsmSt.signed (a : AsmSt) (pos : Pos) (cv : Nat) (w : Nat) (p : Option (Int × Int)) : AsmSt :=
  match a.entry with
  | none => a
  | some e =>
      let b := { a with entry := some { e with signs := e.signs ++ [(cv, w, p)] } }
      if e.signs.any (fun x => x.1 == cv && x.2 != (w, p)) then { b with diags := { pos := pos, seq := a.seq - 1, code := "W204" } :: b.diags } else b

/-- The word of an instruction at its address: distances filled in, relocations kept (R113, R114). (DEDUCED, log entry 91) -/
def wordAt (c : Coded) (len : Nat) (pc : Nat) (a : AsmSt) : Nat × AsmSt :=
  let w := (encode c.i).getD 0#128 |>.toNat
  let a := match c.sym with
    | some v => { a with relocs := { sect := .text, off := pc + 8, pc := pc, how := .value, target := v } :: a.relocs }
    | none => a
  let a := match c.place with
    | some (i, j) => { a with places := { off := pc, kind := if a.abs then 2 else 1, row := i.toNat, col := j.toNat } :: a.places }
    | none => a
  match c.rel with
  | none => (w % 2 ^ (8 * len), a)
  | some (.at .text o false, low) =>
      let d := o - pc
      let n := if low then 16 else 32
      let branch := match c.i with | .br _ | .brc _ | .call _ => true | _ => false
      let a := if branch then { a with targets := o :: a.targets } else a
      if -(2 ^ (n - 1) : Int) ≤ d && d < 2 ^ (n - 1) then
        let x := w + wrap d n * 2 ^ 64
        let bad := match decode 0 (BitVec.ofNat 128 x) with | .bad k => k | _ => 0
        (x % 2 ^ (8 * len), if bad = 0 then a else a.diag (causeError bad))
      else (w % 2 ^ (8 * len), a.diag "E104")
  | some (.num _, _) => (w % 2 ^ (8 * len), a.diag "E102")
  | some (v, low) =>
      (w % 2 ^ (8 * len), { a with relocs := { sect := .text, off := pc + 8, pc := pc, how := if low then .distLow else .dist, target := v } :: a.relocs })

/-- The registers that the operands of a line in error name, kept for the checks at the end of its entry (R110, R116). -/
def AsmSt.noteOpds (a : AsmSt) (ts : List Tok) : AsmSt :=
  let one := fun (c : RC) (n : Nat) => match c with | .v => [(RK.v, n)] | .s => [(RK.s, n)] | _ => []
  let ls := (readOpds (splitArgs 0 [] ts)).flatMap fun o => match o with
    | .ok (.reg c n) | .ok (.mem c n .none) | .ok (.mem c n (.ex _)) => one c n
    | .ok (.mem c n (.reg d k)) => one c n ++ one d k
    | _ => []
  { a with entry := a.entry.map fun e => { e with uses := ls.map (fun l => (a.pos, a.seq, l)) ++ e.uses } }

/-- An instruction line: the `sign` that stands just before it, if one does, takes it as its operation. One in error takes the place of a `nop`, so that
what follows is checked as it would be (R116). (DESIGN CHOICE, log entry 99) -/
def AsmSt.instrLine (a : AsmSt) (word : String) (guard : Option (Bool × Nat)) (ts : List Tok) (text : String) : AsmSt :=
  match codeLine { look := a.look, tensors := a.tensors } word guard ts with
  | .error cs => ((cs.foldl AsmSt.diag a).noteOpds ts).putInstr padNop 8 text fun _ a => (nopWord, a)
  | .ok c =>
        let a := if a.placeOk c.place then a else a.diag "E113"
        let before := match a.text.find? fun p => !p.gen with
          | some p => (match decode 0 (BitVec.ofNat 128 p.val) with | .instr (.sign f) => some (p.pos, f.a.toNat) | _ => none)
          | none => none
        let a := match before with
          | some (q, cv) => a.signed q cv (let w := ((encode c.i).getD 0#128).toNat; w - bits w 15 10 * 2 ^ 10) c.place
          | none => a
        a.putInstr c.i c.f.len.bytes text (wordAt c c.f.len.bytes)

/-! ### The reading of a file: conditions, macros and included files -/

/-- A `.if` that is open. -/
structure Cond where
  on    : Bool          -- its present part is assembled
  outer : Bool          -- what surrounds it is
  other : Bool          -- `.else` has been read
  pos   : Pos
  seq   : Nat
  deriving DecidableEq, Repr

/-- A macro. -/
structure Macro where
  name   : String
  params : List String
  body   : List (Nat × String)
  file   : String
  deriving DecidableEq, Repr

/-- The state of the reading. -/
structure Reader where
  a      : AsmSt
  conds  : List Cond := []
  macros : List Macro := []
  making : Option (Macro × Pos × Nat) := none
  serial : Nat := 0
  deriving DecidableEq, Repr

def Reader.on (r : Reader) : Bool := match r.conds with | [] => true | c :: _ => c.on

def Reader.diag (r : Reader) (c : String) : Reader := { r with a := r.a.diag c }

/-- What follows the first word of a line, past its label. -/
def afterWord (cs : List Char) : List Char :=
  let r := takeRun nameChar (cs.dropWhile isBlank)
  match r.2.dropWhile isBlank with
  | ':' :: q => (takeRun nameChar (q.dropWhile isBlank)).2
  | _ => r.2

/-- Text between commas outside brackets. -/
def splitText : Nat → List Char → List Char → List (List Char)
  | _, acc, [] => [trim acc.reverse]
  | d, acc, c :: cs =>
      if c == ',' && d == 0 then trim acc.reverse :: splitText 0 [] cs
      else splitText (if c == '(' || c == '[' then d + 1 else if c == ')' || c == ']' then d - 1 else d) (c :: acc) cs

/-- A body line with its parameters replaced; `n` bounds the length. The name behind the backslash is read as letters, digits and `_`, so that a
parameter with `.` or `$` in its name is never replaced. (DESIGN CHOICE, log entry 99) -/
def subst (args : List (String × List Char)) : Nat → List Char → List Char
  | 0, _ => []
  | _, [] => []
  | n + 1, c :: cs =>
      if c == '\\' then
        let r := takeRun (fun c => c.isAlphanum || c == '_') cs
        match args.find? (·.1 == String.ofList r.1) with
        | some x => x.2 ++ subst args n r.2
        | none => c :: subst args n cs
      else c :: subst args n cs

/-- Names of a list given a suffix. -/
def renameIn (names : List String) (suffix : List Char) : Nat → List Char → List Char
  | 0, _ => []
  | _, [] => []
  | n + 1, c :: cs =>
      if nameChar c then
        let r := takeRun nameChar (c :: cs)
        (if names.contains (String.ofList r.1) then r.1 ++ suffix else r.1) ++ renameIn names suffix n r.2
      else c :: renameIn names suffix n cs

/-- The lines of one expansion (R108): its labels that end in `$` get a suffix of their own. -/
def Macro.expand (m : Macro) (args : List (List Char)) (serial : Nat) : List (Nat × String) :=
  let vals := m.params.zip args
  let ls := m.body.map fun l => (l.1, subst vals (l.2.length + 1) l.2.toList)
  let local' := ls.filterMap fun l => match lexLine l.2 with
    | .name s :: .chr ':' :: _ => if s.toList.getLast? == some '$' then some s else none
    | _ => none
  let suffix := '$' :: (toString serial).toList
  ls.map fun l => (l.1, String.ofList (renameIn local' suffix (l.2.length + 1) l.2))

/-- The directory of a path, with its slash. -/
def dirOf (s : String) : String := String.ofList (s.toList.reverse.dropWhile (· != '/')).reverse

/-- The files that a run can read. -/
abbrev Files := List (String × List String)

def fileNamed (fs : Files) (s : String) : Option (List String) := (fs.find? (·.1 == s)).map (·.2)

/-- An included file: beside the source file, then along the search path. -/
def findInclude (fs : Files) (o : AsmOpts) (s : String) : Option (String × List String) :=
  ((dirOf (o.source.getD "") ++ s) :: o.dirs.map (fun d => d ++ "/" ++ s)).findSome? fun p => (fileNamed fs p).map fun l => (p, l)

/-- Where a line is read: its file, what invoked it, and the depths of inclusion and expansion. -/
structure ReadAt where
  file  : String
  calls : List (String × Nat) := []
  incl  : Nat := 0
  mac   : Nat := 0
  deriving DecidableEq, Repr

/-- Lines numbered from 1. -/
def numbered (ls : List String) : List (Nat × String) := (rangeFrom 1 ls.length).zip ls

/-- The label of a line. -/
def Reader.labelled (r : Reader) (l : SrcLine) : Reader := match l.label with | some s => { r with a := r.a.label s } | none => r

/-- The error of a line's guard, or of the line as a whole. -/
def Reader.badPart (r : Reader) (l : SrcLine) : Reader := match l.bad with | some c => r.diag c | none => r

/-- The label and the guard of a line that steers the reading: the label is defined where the lines around it are assembled, and a guard is E124.
(DESIGN CHOICE, log entry 99) -/
def Reader.steered (r : Reader) (l : SrcLine) (on : Bool) : Reader :=
  if !on then r
  else
    let r := (r.labelled l).badPart l
    if l.guard.isSome then r.diag "E124" else r

/-- E124 of a directive that takes no operand and has one. -/
def Reader.bareWord (r : Reader) (l : SrcLine) (on : Bool) : Reader := if on && !l.args.isEmpty then r.diag "E124" else r

/-- What surrounds the innermost open `.if` is assembled. -/
def Reader.outer (r : Reader) : Bool := match r.conds with | c :: _ => c.outer | [] => true

/-- A `.macro` line: its body follows. A second macro of a name is E107 and leaves the first one, and a body follows a malformed line too.
(DESIGN CHOICE, log entry 99) -/
def Reader.macroLine (r : Reader) (w : ReadAt) (args : List Tok) : Reader :=
  let start := fun (r : Reader) (s : String) (ps : List String) =>
    { r with making := some ({ name := s, params := ps, body := [], file := w.file }, r.a.pos, r.a.seq) }
  match args with
  | .name s :: ps =>
      let names := (splitArgs 0 [] ps).map fun t => match t with | [.name p] => some p | _ => none
      if reservedName s then start (r.diag "E123") "" []
      else if names.any (·.isNone) then start (r.diag "E124") "" []
      else start (if r.macros.any (·.name == s) then r.diag "E107" else r) s (names.map (·.getD ""))
  | _ => start (r.diag "E124") "" []

/-- `.macro`, `.if`, `.else` and `.endif`; the other lines go to `go`. -/
def Reader.steer (r : Reader) (w : ReadAt) (l : SrcLine) (go : Reader → Reader) : Reader :=
  match l.word, r.on with
  | some ".if", on =>
      let r := r.steered l on
      let open' := fun (v : Bool) (r : Reader) => { r with conds := { on := v, outer := on, other := false, pos := r.a.pos, seq := r.a.seq } :: r.conds }
      if !on then open' false r
      else match exprOf l.args with
        | none => open' false (r.diag "E124")
        | some e => match r.a.constNow e with
          | .ok n => open' (n ≠ 0) r
          | .error c => open' false (r.diag c)
  | some ".else", _ =>
      let r := (r.steered l r.outer).bareWord l r.outer
      match r.conds with
      | c :: cs => if c.other then r.diag "E118" else { r with conds := { c with on := c.outer && !c.on, other := true } :: cs }
      | [] => r.diag "E118"
  | some ".endif", _ =>
      let r := (r.steered l r.outer).bareWord l r.outer
      match r.conds with
      | _ :: cs => { r with conds := cs }
      | [] => r.diag "E118"
  | some ".macro", true => (r.steered l true).macroLine w l.args
  | some ".endm", true => (r.steered l true).diag "E116"
  | _, true => go r
  | _, false => r

/-- A line inside the body of a macro that is being defined. -/
def Reader.bodyLine (r : Reader) (m : Macro) (p : Pos) (q : Nat) (l : SrcLine) (no : Nat) (text : String) : Reader :=
  match l.word with
  | some ".endm" =>
      let r := { r with making := none, macros := if m.name == "" || r.macros.any (·.name == m.name) then r.macros else { m with body := m.body.reverse } :: r.macros }
      (r.steered l true).bareWord l true
  | some ".macro" => r.diag "E116"
  | _ => { r with making := some ({ m with body := (no, text) :: m.body }, p, q) }

/-- A line read; `nest` reads the lines of a macro or of an included file. A guard before a directive or a `clause` line is E124, and so is a line
that begins with no name. (DESIGN CHOICE, log entry 99) -/
def Reader.line (fs : Files) (o : AsmOpts) (w : ReadAt) (nest : ReadAt → List (Nat × String) → Reader → Reader) (r : Reader) (no : Nat)
    (text : String) : Reader :=
  let cs := stripComment false text.toList
  let l := lineOf (lexLine cs)
  let r := { r with a := { r.a with pos := { file := w.file, line := no, calls := w.calls, text := text }, seq := r.a.seq + 1 } }
  match r.making with
  | some (m, p, q) => r.bodyLine m p q l no text
  | none => r.steer w l fun r =>
        let r := (r.labelled l).badPart l
        match l.word with
        | none => r
        | some x =>
            match r.macros.find? (·.name == x) with
            | some m =>
                let raw := trim (afterWord cs)
                let args := if raw.isEmpty then [] else splitText 0 [] raw
                if l.guard.isSome || args.length ≠ m.params.length || 16 ≤ w.mac then r.diag "E116"
                else nest { file := m.file, calls := w.calls ++ [(w.file, no)], incl := w.incl, mac := w.mac + 1 } (m.expand args r.serial)
                  { r with serial := r.serial + 1 }
            | none =>
                if x == ".include" then
                  match l.args with
                  | [.str s] => match findInclude fs o s with
                    | some (p, ls) =>
                        if 8 ≤ w.incl then r.diag "E117"
                        else nest { file := p, calls := w.calls ++ [(w.file, no)], incl := w.incl + 1, mac := w.mac } (numbered ls) r
                    | none => r.diag "E117"
                  | _ => r.diag "E124"
                else if x.toList.head? == some '.' then (if l.guard.isSome then r.diag "E124" else { r with a := r.a.directive x l.args })
                else if r.a.sect ≠ .text then r.diag "E125"
                else if x == "clause" then (if l.guard.isSome then r.diag "E124" else { r with a := r.a.clauseLine l.args (String.ofList cs) })
                else { r with a := r.a.instrLine x l.guard l.args (String.ofList cs) }

/-- Lines read one after another, to a depth of `n` expansions and inclusions. -/
def readLines (fs : Files) (o : AsmOpts) : Nat → ReadAt → List (Nat × String) → Reader → Reader
  | 0, _, _, r => r
  | n + 1, w, ls, r => ls.foldl (fun r l => r.line fs o w (fun w ls r => readLines fs o n w ls r) l.1 l.2) r

/-! ### The end of a pass -/

/-- The scratchpad bytes of an entry: its own, or the file's whole `.shared` section (R106). -/
def Entry.spadUnits (e : Entry) (shared : Nat) : Nat := ceilDiv (e.spad.getD shared) 256

/-- Word 0 and word 1 of an entry's descriptor (R33). -/
def Entry.words (e : Entry) (shared : Nat) : Nat × Nat :=
  (e.vregs.getD 0 + e.sregs * 2 ^ 16 + e.tiles * 2 ^ 24 + ceilDiv e.acc 16 * 2 ^ 29 + (e.groups.getD 1 - 1) * 2 ^ 34 + e.cv * 2 ^ 38 + e.rejoin * 2 ^ 42
     + e.spadUnits shared * 2 ^ 46, e.barriers)

/-- The message of W207, which names the registers between VREGS and the next multiple of 8. -/
def Entry.slackText (e : Entry) : String :=
  let n := e.vregs.getD 8
  "VREGS not a multiple of 8: slack " ++ String.intercalate ", " ((rangeFrom n (roundUp n 8 - n)).map fun r => "v" ++ toString r)

/-- The checks at the end of an entry (R106, R107, R110, R115). -/
def Entry.diags (e : Entry) (shared : Nat) : List Diag :=
  let at' := fun (c : String) => ({ pos := e.pos, seq := e.seq, code := c } : Diag)
  let bad := (e.uses.filterMap fun u =>
    let beyond : Bool := match u.2.2 with
      | (.v, n) => (match e.vregs with | some k => k ≤ n | none => false)
      | (.s, n) => e.sregs ≤ n
      | _ => false
    if beyond then some ({ pos := u.1, seq := u.2.1, code := "E105", loc := some u.2.2 } : Diag)
    else match u.2.2 with
      | (.cv, n) => if e.cv ≤ n then some { pos := u.1, seq := u.2.1, code := "W205", loc := some u.2.2 } else none
      | _ => none).eraseDups
  (if e.vregs.isNone then [at' "E114"] else []) ++ (if (e.spad.any (· < shared)) || 768 < e.spadUnits shared then [at' "E114"] else [])
    ++ (if e.frontier.isSome && 1 < e.groups.getD 1 then [at' "E119"] else []) ++ (if e.vregs.getD 8 % 8 ≠ 0 then [{ at' "W207" with say := e.slackText }] else []) ++ bad

/-- A piece inserted before those of later source lines. -/
def insertDiag (d : Diag) : List Diag → List Diag
  | [] => [d]
  | x :: xs => if d.seq < x.seq then d :: x :: xs else x :: insertDiag d xs

/-- Diagnostics in line order. -/
def sortDiags (ds : List Diag) : List Diag := ds.foldl (fun l d => insertDiag d l) []

/-- Branch targets with a label that is no header (R111). -/
def AsmSt.targetDiags (a : AsmSt) : List Diag :=
  (a.labels.filter fun l => a.targets.contains (l.1 : Int)).filterMap fun l =>
    match a.text.find? fun p => p.addr == l.1 && p.len ≠ 0 with
    | some p => (match decode 0 (BitVec.ofNat 128 p.val) with | .header _ => none | _ => some { pos := l.2.1, seq := l.2.2, code := "E112" })
    | none => none

/-- The end of the source: descriptors, and the checks that need all of it. -/
def Reader.finish (r : Reader) : AsmSt :=
  let a := r.a.closeClause.bindLabels.endEntry
  let es := a.entries.reverse
  let texts := a.text.map fun p => match es.find? fun e => p.addr + 32 == e.pc || p.addr + 24 == e.pc with
    | some e => { p with val := if p.addr + 32 == e.pc then (e.words a.spos).1 else (e.words a.spos).2 }
    | none => p
  let conds := r.conds.map fun c => ({ pos := c.pos, seq := c.seq, code := "E118" } : Diag)
  let mac := match r.making with | some (_, p, q) => [({ pos := p, seq := q, code := "E116" } : Diag)] | none => []
  { a with text := texts
           diags := sortDiags (a.diags.reverse ++ es.flatMap (fun e => e.diags a.spos) ++ a.targetDiags ++ conds ++ mac) }

/-- One pass, with the symbols of the pass before. -/
def onePass (fs : Files) (o : AsmOpts) (src : List String) (prev : List (String × SymDef)) : AsmSt :=
  let a : AsmSt := { prev := prev, auto := if o.auto then some {} else none }
  let r := o.defs.foldl (fun (r : Reader) d =>
    { r with a := r.a.directive ".equ" (.name d.1 :: .chr ',' :: lexLine d.2.toList) }) { a := { a with pos := { file := o.source.getD "" } } }
  (readLines fs o 26 { file := o.source.getD "" } (numbered src) r).finish

/-- Passes until the symbols stand still. (DEDUCED, log entry 91) -/
def passes (fs : Files) (o : AsmOpts) (src : List String) : Nat → List (String × SymDef) → AsmSt
  | 0, prev => onePass fs o src prev
  | n + 1, prev =>
      let a := onePass fs o src prev
      if a.cur = prev then a else passes fs o src n a.cur

/-! ### The object and the run (R99, R100) -/

/-- A kernel's record in `.launch` (R100, R107). -/
structure LaunchRec where
  name     : String
  pc       : Nat
  cluster  : Nat × Nat
  frontier : Option FrontierDecl
  deriving DecidableEq, Repr

/-- An object: its sections, relocation records and symbols. -/
structure Object where
  machine : Nat := 0x4A42
  text    : List Byte
  data    : List Byte
  cdata   : List Byte
  shared  : Nat
  places  : List Reloc                    -- `.reloc.place`
  relocs  : List SymReloc
  symbols : List (String × Sect × Nat)
  launch  : List LaunchRec
  deriving DecidableEq, Repr

/-- The bytes of a section. -/
def pieceBytes (ps : List Piece) : List Byte := ps.reverse.flatMap fun p => leBytes p.len p.val

def AsmSt.object (a : AsmSt) : Object where
  text := pieceBytes a.text
  data := pieceBytes a.data
  cdata := pieceBytes a.cdata
  shared := a.spos
  places := a.places.reverse
  relocs := a.relocs.reverse
  symbols := a.cur.reverse.filterMap fun s => match s.2 with | .label t o => some (s.1, t, o) | .value _ => none
  launch := a.entries.reverse.map fun e => { name := e.name, pc := e.pc, cluster := e.cluster, frontier := e.frontier }

/-- A line of a listing (R116), of which there is one for each word of `.text`; data sections have none: its file, the number of its line, the mark of a generated word, the address, and the word. (DESIGN CHOICE, log entry 90) -/
structure ListLine where
  file : String
  line : Nat
  gen  : Bool
  addr : Nat
  len  : Nat
  word : Nat
  text : String
  deriving DecidableEq, Repr

/-- The listing of an assembly: the words of `.text` in ascending address. (DESIGN CHOICE, log entry 90) -/
def AsmSt.listing (a : AsmSt) : List ListLine :=
  (a.text.reverse.filter (·.len ≠ 0)).map fun p => { file := p.pos.file, line := p.pos.line, gen := p.gen, addr := p.addr, len := p.len, word := p.val, text := p.text }

/-- `n` hexadecimal digits of a number, the least first (R3). -/
def hexDigits : Nat → Nat → List Char
  | 0, _ => []
  | n + 1, x => (let d := x % 16; Char.ofNat (if d < 10 then 48 + d else 55 + d)) :: hexDigits n (x / 16)

/-- `n` digits of a number as the listing writes them. -/
def hexText (n x : Nat) : String :=
  let groups := (rangeFrom 0 (n / 4)).reverse.map fun i => String.ofList ((hexDigits 4 (x / 2 ^ (16 * i) % 2 ^ 16)).reverse)
  String.intercalate "_" groups

/-- The lines of text of a listing line. -/
def ListLine.render (l : ListLine) : List String :=
  let first := toString l.line ++ (if l.gen then "+" else " ") ++ " " ++ hexText 8 l.addr ++ "  " ++ hexText 16 (l.word % 2 ^ 64)
    ++ (if l.text == "" then "" else "   ; " ++ l.text)
  if l.len ≤ 8 then [first] else [first, hexText (2 * (l.len - 8)) (l.word / 2 ^ 64)]

/-- Diagnostics as the options have them: the warnings that are wanted. -/
def AsmOpts.wanted (o : AsmOpts) (d : Diag) : Bool := !o.noWarn.contains d.code && (d.code != "W208" || o.wall)

/-- A diagnostic that makes the status 1. -/
def AsmOpts.isError (o : AsmOpts) (d : Diag) : Bool := d.code.toList.head? == some 'E' || o.werror

/-- What a run leaves: its status, its diagnostics, the object (none where an object of that name is removed), and the listing. -/
structure AsmRun where
  status  : Nat
  diags   : List Diag := []
  object  : Option Object := none
  listing : List ListLine := []
  deriving DecidableEq, Repr

/-- A run of `dxas` (R98, R99). (DESIGN CHOICE, log entry 90) -/
def dxas (fs : Files) (args : List String) : AsmRun :=
  match parseOpts args {} with
  | none => { status := 2 }
  | some o => match fileNamed fs (o.source.getD "") with
    | none => { status := 2 }
    | some src =>
        let a := passes fs o src 8 []
        let ds := a.diags.filter o.wanted
        let bad := ds.any o.isError
        { status := if bad then 1 else 0, diags := ds, object := if bad then none else some a.object
          listing := if o.listing.isSome then a.listing else [] }

end Sys2Proof.Machine
end

