-- ==== Sys2Proof/Machine/Dxld.lean ====
section
/-!
DEFINITION. `dxld` and what the loader takes from an object: placement records (R71), symbol relocations (R114), and the grid and frontier descriptors
of a launch request (R107, R263, R306).
-/

namespace Sys2Proof.Machine

open Sys2Proof

/-! ### Placement records (R71) -/

/-- A placement record in its 128 bits. -/
def relocWord (r : Reloc) : Nat := r.off % 2 ^ 64 + r.kind % 256 * 2 ^ 64 + r.row % 256 * 2 ^ 72 + r.col % 256 * 2 ^ 80

/-- The record that 128 bits hold. -/
def relocOf (w : Nat) : Reloc := { off := bits w 63 0, kind := bits w 71 64, row := bits w 79 72, col := bits w 87 80 }

/-- The bytes of the section `.reloc.place`. -/
def Object.placeSection (o : Object) : List Byte := o.places.flatMap fun r => leBytes 16 (relocWord r)

/-- Whether the word at an offset of a text section is a 128-bit instruction that uses PLACE. Its coordinates are those that `dxas` writes. -/
def usesPlace (text : List Byte) (off : Nat) : Bool :=
  match decodeBytes (off % 32) ((text.drop off).take 16) with
  | .instr i => (match desc i, fieldsOf i with
    | some k, some f => k.place && f.len == .l128
    | _, _ => false)
  | _ => false

/-- A record that `dxld` accepts. -/
def Object.placeGood (o : Object) (r : Reloc) : Bool :=
  (if r.kind = 1 then o.launch.any fun k => r.row < k.cluster.1 && r.col < k.cluster.2 else r.kind == 2 && r.row ≤ 31 && r.col ≤ 51)
    && usesPlace o.text r.off

/-! ### Symbol relocations (R114) -/

/-- The addresses at which the sections of an object are loaded. -/
structure Bases where
  text  : Nat
  data  : Nat
  deriving DecidableEq, Repr

/-- The loaded address of a place, or the offset that a label of `.cdata` or `.shared` stands for. -/
def Bases.addr (b : Bases) (s : Sect) (off : Int) : Int :=
  match s with
  | .text => b.text + off
  | .data => b.data + off
  | .cdata | .shared => off

/-- A symbol among the objects of a program, those of the object itself first. -/
def symbolAt (os : List (Object × Bases)) (s : String) : Option Int :=
  os.findSome? fun o => (o.1.symbols.find? (·.1 == s)).map fun x => o.2.addr x.2.1 x.2.2

/-- The address that a relocation names, and whether its bits [47:32] are meant; none where the symbol is defined nowhere. -/
def Val.resolve (os : List (Object × Bases)) (b : Bases) : Val → Option (Int × Bool)
  | .num n => some (n, false)
  | .at s o hi => some (b.addr s o, hi)
  | .ext s add hi => (symbolAt os s).map fun x => (x + add, hi)

/-- Bytes of a list replaced from an offset on. -/
def patch (bs : List Byte) (off : Nat) (new : List Byte) : List Byte := bs.take off ++ new ++ bs.drop (off + new.length)

/-- The bytes that a relocation writes; none where the symbol is undefined, or a distance does not fit. -/
def SymReloc.bytes (r : SymReloc) (os : List (Object × Bases)) (b : Bases) : Option (List Byte) :=
  match r.target.resolve os b with
  | none => none
  | some (x, hi) =>
      let d := x - b.addr r.sect r.pc
      match r.how with
      | .value => some (leBytes 4 (if hi then bits (wrap x 48) 47 32 else bits (wrap x 48) 31 0))
      | .dist => if -(2 ^ 31) ≤ d && d < 2 ^ 31 then some (leBytes 4 (wrap d 32)) else none
      | .distLow => if -(2 ^ 15) ≤ d && d < 2 ^ 15 then some (leBytes 2 (wrap d 16)) else none

/-- One relocation written into its section. -/
def Object.relocate (os : List (Object × Bases)) (b : Bases) (o : Option Object) (r : SymReloc) : Option Object :=
  match o, r.bytes os b with
  | some o, some bs => match r.sect with
    | .text => some { o with text := patch o.text r.off bs }
    | .data => some { o with data := patch o.data r.off bs }
    | .cdata => some { o with cdata := patch o.cdata r.off bs }
    | .shared => some o
  | _, _ => none

/-- One object of a program linked: none where `dxld` refuses it. -/
def Object.link (os : List (Object × Bases)) (o : Object) (b : Bases) : Option Object :=
  if !o.places.all o.placeGood then none
  else (o.relocs.foldl (Object.relocate ((o, b) :: os) b) (some o)).map fun x => { x with relocs := [] }

/-- A program linked for the addresses at which it is loaded. -/
def dxld (os : List (Object × Bases)) : Option (List (Object × Bases)) :=
  os.foldr (fun o acc => match o.1.link os o.2, acc with
    | some x, some l => some ((x, o.2) :: l)
    | _, _ => none) (some [])

/-! ### What the loader takes (R263, R306) -/

/-- A kernel of an object by its name, or the only one. -/
def Object.kernel (o : Object) (name : Option String) : Option LaunchRec :=
  match name, o.launch with
  | some n, ks => ks.find? (·.name == n)
  | none, [k] => some k
  | none, _ => none

/-- The text section as the loader has it for a launch of a kernel. -/
def Object.loaded (o : Object) (b : Bases) (name : Option String) : Text :=
  { base := b.text, size := o.text.length, recs := o.places, front := (o.kernel name).any (·.frontier.isSome) }

/-- The grid descriptor of a launch request (R263): extents `x`, `y`, `z` and the process-group table. -/
def LaunchRec.grid (k : LaunchRec) (b : Bases) (x y z pgt : Nat) : List DWord :=
  [BitVec.ofNat 64 ((b.text + k.pc) % 2 ^ 48),
    BitVec.ofNat 64 (x % 2 ^ 16 + y % 2 ^ 16 * 2 ^ 16 + z % 2 ^ 9 * 2 ^ 32 + k.cluster.1 * 2 ^ 41 + k.cluster.2 * 2 ^ 44),
    BitVec.ofNat 64 (pgt % 2 ^ 48), 0#64]

/-- A dependence vector as the magnitudes of its components (R306). -/
def depWord (v : List Int) : Nat := ((upto 3).zip v).foldl (fun n x => n + x.2.natAbs % 16 * 2 ^ (4 * x.1)) 0

/-- The frontier descriptor of a launch request (R306): the extents and the argument words; none where the entry declares no frontier, or the request
names another number of axes. -/
def LaunchRec.sweep (k : LaunchRec) (b : Bases) (ext : List Nat) (args : List Word) : Option (List DWord) :=
  match k.frontier with
  | none => none
  | some f =>
      if ext.length ≠ f.dims then none
      else
        let e := fun n => match ext[n]? with | some x => (x - 1) % 2 ^ 12 | none => 0
        let a := fun n => (nth 0#32 args n).toNat
        let deps := ((upto 4).zip f.deps).foldl (fun n x => n + depWord x.2 * 2 ^ (12 * x.1)) 0
        some [BitVec.ofNat 64 ((b.text + k.pc) % 2 ^ 48),
          BitVec.ofNat 64 (e 0 + e 1 * 2 ^ 12 + e 2 * 2 ^ 24 + f.dims * 2 ^ 36 + f.deps.length * 2 ^ 38), BitVec.ofNat 64 deps,
          BitVec.ofNat 64 (a 0 + a 1 * 2 ^ 32), BitVec.ofNat 64 (a 2 + a 3 * 2 ^ 32), BitVec.ofNat 64 (a 4), 0#64, 0#64]

/-- The bytes of words. -/
def wordsBytes (ws : List DWord) : List Byte := ws.flatMap fun w => leBytes 8 w.toNat

end Sys2Proof.Machine
end

