-- ==== Sys2Proof/Machine/Dxdb.lean ====
section
/-!
DEFINITION. `dxdb` (R416 to R422): what its commands read of a state, under the key of the attached context, and the events by which firmware and the
host carry out those that act. The text that it prints around the values is not modelled. (DESIGN CHOICE, log entry 92)
-/

namespace Sys2Proof.Machine

open Sys2Proof

/-! ### Reads (R416, R418, R420 to R422) -/

/-- `x/w`: words of global memory as the context would read them, `step` bytes apart; none where a read faults. -/
def State.dbgWords (s : State) (ctx addr n step : Nat) : Option (List Word) :=
  (upto n).foldr (fun k acc => match s.readVirt ioUnit ctx ((addr + step * k) % 2 ^ 48) 4, acc with
    | .ok bs, some l => some (BitVec.ofNat 32 (leVal bs) :: l)
    | _, _ => none) (some [])

/-- The team of a context that runs a block, by role 0. A frontier point has block 0. (DESIGN CHOICE, log entry 92) -/
def State.dbgTeam (s : State) (ctx b : Nat) : Option Nat :=
  (s.teams.find? fun e => e.2.bound && e.2.ctx == ctx && e.2.block == b).map (·.1)

/-- The group of a block and a role. -/
def State.dbgGroup (s : State) (ctx b r : Nat) : Option Nat :=
  (s.groups.find? fun e => e.2.bound && e.2.role == r && some e.2.team == s.dbgTeam ctx b).map (·.1)

/-- What `print` shows of a register of a group (R118): a value for each lane asked for, or one value. Registers of a team are no group's. -/
def State.dbgPrint (s : State) (gid : Nat) (reg : String) (lanes : List Nat) : List Nat :=
  let g := s.grp gid
  if reg == "lpc" then lanes.map fun l => (g.lane l).pc.toNat
  else match regOf reg with
    | some (.v, n) => lanes.map fun l => (g.vr n l).toNat
    | some (.p, n) => lanes.map fun l => (g.pr n l).toNat
    | some (.s, n) => [(g.ur n).toNat]
    | some (.f, n) => [nth 0 g.flags n]
    | _ => []

/-- `x/i`: the place in its text section and the word of a line of a source file. -/
def lineWord (ls : List ListLine) (file : String) (line : Nat) : Option (Nat × Nat) :=
  (ls.find? fun l => !l.gen && l.file == file && l.line == line).map fun l => (l.addr, l.word)

/-- The side-band word (R211). -/
def Side.word (x : Side) : Nat := x.key + x.gid * 2 ^ 10 + x.opn.toNat * 2 ^ 25 + x.pois.toNat * 2 ^ 26 + x.ue.toNat * 2 ^ 27

/-- `sband`: the side-band word of the line that holds an address. -/
def State.dbgSband (s : State) (ctx addr : Nat) : Option Nat :=
  match s.walk ctx (addr % 2 ^ 48) with
  | .ok e => if isCxl (e.addr addr) then none else some (s.sideOf (e.addr addr / 64)).word
  | .error _ => none

/-- `bar`: the barrier word at an offset of a block's window. -/
def State.dbgBar (s : State) (ctx b off : Nat) : Option Nat := (s.dbgTeam ctx b).map fun t => s.spadDword t off

/-- `x/s`: words of a block's window from an offset on. -/
def State.dbgSpad (s : State) (ctx b off n : Nat) : Option (List Nat) :=
  (s.dbgTeam ctx b).map fun t => (upto n).map fun k => s.spadWord t (off + 4 * k)

/-- The numbers of the CSRs by name (R126, R288, R345, R369). -/
def csrNumber (name : String) : Option Nat :=
  listed ([("MODE", 0x000), ("ROLE", 0x001), ("GIDX", 0x002), ("BLOCK", 0x003), ("PLACE", 0x004), ("VCNT", 0x005), ("FSTAT", 0x010),
    ("FFIRST", 0x011), ("CYCLE", 0x020), ("GTIME", 0x021), ("WTIME", 0x022), ("TAGS", 0x030), ("FBMISS", 0x050), ("RACEUNTR", 0x051),
    ("BARWAIT", 0x052), ("WAITCYC", 0x053), ("FLAGS", 0x054), ("GTCMP", 0x058), ("DSTRETCH", 0x05A), ("EDIE", 0x05B)]
    ++ [("MERRLOG0", 0x060), ("MERRLOG1", 0x061), ("MERRCNT", 0x062), ("CVDEF0", 0x040), ("CVDEF1", 0x041), ("CVDEF2", 0x042),
    ("CVDEF3", 0x043), ("CVDEF4", 0x044), ("CVDEF5", 0x045), ("CVDEF6", 0x046), ("CVDEF7", 0x047), ("KEYID", 0x400), ("OWNER", 0x401),
    ("TVEC", 0x402), ("CECNT", 0x408), ("BINDIDX", 0x410), ("BINDW0", 0x411), ("BINDW1", 0x412), ("BINDW2", 0x413), ("BINDW3", 0x414),
    ("BINDW4", 0x415), ("BINDW5", 0x416), ("BINDW6", 0x417), ("BINDW7", 0x418), ("GATE0", 0x420), ("GATE1", 0x421), ("GATE2", 0x422),
    ("GATE3", 0x423), ("RELIDX", 0x430), ("RELDATA", 0x431), ("TTBASE", 0x440)]) name

/-- `csr`: a CSR as a read by the named group would find it. -/
def State.dbgCsr (s : State) (gid : Nat) (name : String) : Option Nat :=
  let g := s.grp gid
  (csrNumber name).map fun n => s.csrValue { gid := gid, g := g, w := g, iss := 0#32, act := 0#32 } n

/-- A group is held: frozen in a debug event, or in debug halt (R380, R417). -/
def Group.dbgHalted (g : Group) : Bool :=
  g.halted || (match g.held with | some t => t.code == 0x26 || t.code == 0x27 | none => false)

/-- `mb` (R420): rows of the mask block of a group's team; none while a group of it runs, or an operation that entered the team order before the halts
is outstanding. -/
def State.dbgMask (s : State) (gid : Nat) (rows : List Nat) : Option (List Nat) :=
  let t := (s.grp gid).team
  let gs := (s.groups.filter fun e => e.2.bound && e.2.team == t).map (·.2)
  let last := gs.foldl (fun m g => Nat.max m g.trap.since) 0
  if gs.all Group.dbgHalted && (s.team t).order.all fun o => last ≤ o.id then some (rows.map fun r => (Tab.get 0#64 (s.team t).mb r).toNat)
  else none

/-- The letter of a slot's STATE (R421). -/
def slotLetter (e : Nat) : Char := match e % 4 with | 0 => 'M' | 1 => 'T' | 2 => 'F' | _ => 'R'

/-- The header and the entries of a slot block as `slots` prints them: w0 with its fields, and each entry with its letter. -/
structure DbgSlots where
  w0    : Nat
  nslot : Nat
  pass  : Nat
  fpfx  : Nat
  nfin  : Nat
  ents  : List (Nat × Char)
  deriving DecidableEq, Repr

/-- `slots` (R421). -/
def State.dbgSlots (s : State) (ctx addr : Nat) : Option DbgSlots :=
  match s.readVirt ioUnit ctx (addr % 2 ^ 48) 8 with
  | .error _ => none
  | .ok bs =>
      let w0 := leVal bs
      ((upto (hNslot w0)).foldr (fun p acc => match s.readVirt ioUnit ctx ((addr + 64 + 8 * p) % 2 ^ 48) 8, acc with
        | .ok b, some l => some ((leVal b, slotLetter (leVal b)) :: l)
        | _, _ => none) (some [])).map fun l => { w0 := w0, nslot := hNslot w0, pass := hPass w0, fpfx := hFpfx w0, nfin := hNfin w0, ents := l }

/-- `conn` (R421): ST, NEXTPOS, HOLDWIN and SLOTBLK of a connection. With `settle`, none until the engine has handled as many `slot.fin`s on its block
as had been applied at the command, in state `s0`; a connection that does not stream handles none. (DESIGN CHOICE, log entry 92) -/
def State.dbgConn (s0 s : State) (n : Nat) (settle : Bool) : Option (Nat × Nat × Nat × Nat) :=
  let x := s.conn n
  if settle && (x.st == 2 || x.st == 3) && x.hand < (s0.conn n).hand + (s0.conn n).due then none
  else some (x.st, bits (x.word 15) 10 0, bits (x.word 15) 20 16, bits (x.word 14) 47 0)

/-- No point of the slot can fire, and every point in flight is halted or pre-empted (R418). -/
def State.frontIdle (s : State) (die fid : Nat) : Bool :=
  let x := s.front die fid
  (x.st != 1 || x.nextPoint.isNone || 64 ≤ x.pts.length)
    && x.pts.all fun p => match p.team with
      | some t => s.groups.all fun e => !e.2.bound || e.2.team != t || e.2.dbgHalted
      | none => p.saved

/-- `frontier` (R418): FRSLOT and the part's row words; with `idle`, none until the slot is idle. -/
def State.dbgFrontier (s : State) (die fid : Nat) (idle : Bool) : Option (Nat × List Word) :=
  let x := s.front die fid
  if idle && !s.frontIdle die fid then none
  else some (x.status, (rangeFrom x.rfirst (x.rlast + 1 - x.rfirst)).map fun r => Tab.get 0#32 x.rows r)

/-! ### Breakpoints (R381, R382, R416, R417) -/

/-- A breakpoint: the offset of its word in the text section, and its filters. -/
structure Break where
  off   : Nat
  block : Option Nat := none
  role  : Option Nat := none
  point : Option (Nat × Nat) := none
  deriving DecidableEq, Repr

/-- The teams of a launch: of the node that it enqueued. -/
def State.dbgTeams (s : State) (ctx q n : Nat) : List (Nat × Team) :=
  s.teams.filter fun e => e.2.bound && e.2.ctx == ctx && e.2.queue == q && e.2.node == n

/-- Where the text section that is loaded at `base` stands for a team: in the instances of the clusters of its core, where it has cluster-relative
fields (R71). -/
def State.dbgBases (s : State) (base gid : Nat) : List Nat :=
  match Tab.find s.launches (s.team gid).launch with
  | some l => if l.relative then (l.insts.filter fun x => x.sites.contains ((Tab.find s.pkg.l2p (coreOf gid)).getD 0)).map (·.base) else [base]
  | none => [base]

/-- The cores that bind a team of a launch, with the PCs there of the word at an offset of the text. -/
def State.breakSites (s : State) (ctx q n base off : Nat) : List (Nat × Nat) :=
  ((s.dbgTeams ctx q n).flatMap fun e => (s.dbgBases base e.1).map fun b => (coreOf e.1, (b + off) % 2 ^ 48)).eraseDups

/-- DBGPC of a comparator armed on a PC of a context. -/
def armWord (ctx pc : Nat) : DWord := BitVec.ofNat 64 (2 ^ 63 + ctx % 64 * 2 ^ 52 + pc % 2 ^ 48)

/-- The events that arm a comparator of one core for every lane. (DESIGN CHOICE, log entry 92) -/
def armEvents (core n ctx pc : Nat) : List Instr :=
  [.registerWrite (.dbgPm core n) 0xFFFFFFFF#64, .registerWrite (.dbgPc core n) (armWord ctx pc)]

/-- Comparators of a core that are not armed. -/
def State.freeDbgs (s : State) (core : Nat) : List Nat := (upto 4).filter fun n => !(nth {} (s.core core).dbgPc n).w.getLsbD 63

/-- A comparator armed for each core and PC, each time another one; `used` are the cores of those armed before. None where a core has four already. -/
def State.armAll (s : State) (ctx : Nat) : List Nat → List (Nat × Nat) → Option (List Instr)
  | _, [] => some []
  | used, (core, pc) :: r => match (s.freeDbgs core)[used.count core]?, s.armAll ctx (core :: used) r with
    | some n, some es => some (armEvents core n ctx pc ++ es)
    | _, _ => none

/-- `break` on every core that binds a team of the launch (R416, R417): what is armed there already stays. `dxdb` gives it again whenever the launch
binds a team on another core. (DESIGN CHOICE, log entry 92) -/
def State.breakEvents (s : State) (ctx q n base off : Nat) : Option (List Instr) :=
  s.armAll ctx [] ((s.breakSites ctx q n base off).filter fun x => !(upto 4).any fun k => (nth {} (s.core x.1).dbgPc k).w == armWord ctx x.2)

/-- A group inside the filters of a breakpoint. -/
def Break.covers (k : Break) (s : State) (gid : Nat) : Bool :=
  let g := s.grp gid
  (k.block.isNone || k.block == some (s.team g.team).block) && (k.role.isNone || k.role == some g.role)
    && (match k.point with | some (r, c) => (g.ur 0).toNat == r && (g.ur 1).toNat == c | none => true)

/-- The groups of a context that a comparator holds, in ascending GIDX. -/
def State.matched (s : State) (ctx : Nat) : List Nat :=
  sortNums ((s.groups.filter fun e => e.2.bound && (s.ctxOf e.2.team).attached && (s.team e.2.team).ctx == ctx
    && (match e.2.held with | some t => t.code == 0x27 | none => false)).map (·.1))

/-- RESUMEG of a group of a context (R386). -/
def resumeEvents (ctx gid : Nat) : List Instr :=
  [.registerWrite .prcmdW1 (BitVec.ofNat 64 (gid % 2 ^ 15)), .resumeg (BitVec.ofNat 64 (5 * 2 ^ 60 + ctx % 64 * 2 ^ 52)) 0]

/-- The groups that `dxdb` resumes at once, and those for which it prints `stop`: of each group, the breakpoint whose word it meets, in the instance that
it runs in, decides. -/
def State.sift (s : State) (ctx base : Nat) (ks : List Break) : List Nat × List Nat :=
  (s.matched ctx).partition fun gid =>
    let pc := match (s.grp gid).trap.frozen with | some t => t.pc | none => 0
    !((ks.filter fun k => (s.dbgBases base (s.grp gid).team).any fun b => (b + k.off) % 2 ^ 48 == pc).any fun k => k.covers s gid)

/-- The events by which filtered groups go on (R417). -/
def State.filterEvents (s : State) (ctx base : Nat) (ks : List Break) : List Instr := (s.sift ctx base ks).1.flatMap (resumeEvents ctx)

/-- `continue`: RESUMEG of every halted group of the context, in ascending GIDX. (DESIGN CHOICE, log entry 92) -/
def State.continueEvents (s : State) (ctx : Nat) : List Instr :=
  (sortNums ((s.groups.filter fun e => e.2.bound && (s.team e.2.team).ctx == ctx && e.2.dbgHalted).map (·.1))).flatMap (resumeEvents ctx)

/-- `attach`. -/
def attachEvents (ctx : Nat) : List Instr := [.registerWrite (.attach ctx) 1#64]

/-! ### Launches (R259, R262, R263, R306, R416, R418, R422) -/

/-- A place of a context's memory as the host's aperture reaches it (R404). -/
def State.apertureOf (s : State) (ctx va : Nat) : Nat := ctx * 2 ^ 30 + (va + 2 ^ 48 - (s.ctx ctx).hapbase) % 2 ^ 48

/-- Bytes written by the host into a context's memory. -/
def State.hostPut (s : State) (ctx va : Nat) (ws : List DWord) : Instr := .hostApertureWrite (s.apertureOf ctx va) (wordsBytes ws)

/-- A graph of one node enqueued on a queue: descriptor and node record at `va`, the entry in the ring, and the doorbell. `kind` is KIND of R262.
(DESIGN CHOICE, log entry 92) -/
def State.enqueueEvents (s : State) (ctx q va kind : Nat) (desc : List DWord) : List Instr :=
  let y := s.queue ctx q
  let node := va + 64
  [s.hostPut ctx va desc,
    s.hostPut ctx node [BitVec.ofNat 64 kind, BitVec.ofNat 64 va, BitVec.ofNat 64 0xFFFFFFFF, 0#64, 0#64, 0#64, 0#64, 0#64],
    s.hostPut ctx (y.ring + 64 * (y.tail % 2 ^ y.log)) [1#64, BitVec.ofNat 64 node, 1#64, 0#64, 0#64, 0#64, 0#64, 0#64],
    .doorbellWrite ctx q (BitVec.ofNat 32 (y.tail + 1))]

/-- `launch` of a kernel of an object over a grid. -/
def State.launchEvents (s : State) (ctx q va : Nat) (o : Object) (b : Bases) (kernel : Option String) (x y z : Nat) : Option (List Instr) :=
  (o.kernel kernel).map fun k => s.enqueueEvents ctx q va 0 (k.grid b x y z 0)

/-- `flaunch` of a frontier. Of an entry that declares none the loader builds no descriptor, and the entry fails (R306); a request that names
another number of axes is no launch. (DESIGN CHOICE, log entry 92) -/
def State.flaunchEvents (s : State) (ctx q va : Nat) (o : Object) (b : Bases) (ext : List Nat) (args : List Word) : Option (List Instr) :=
  match o.kernel none with
  | none => none
  | some k => match k.frontier with
    | none => some (s.enqueueEvents ctx q va 1 [])
    | some _ => (k.sweep b ext args).map (s.enqueueEvents ctx q va 1)

/-- A logical core and its physical site, as `dxdb` prints them. -/
def State.dbgCore (s : State) (core : Nat) : Nat × Nat := (core, (Tab.find s.pkg.l2p core).getD 0)

/-- Where the blocks of a node were bound, as `launch` prints it: block, logical core, PLACE, and the first and last GIDX. -/
def State.dbgBlocks (s : State) (ctx q n : Nat) : List (Nat × (Nat × Nat) × Nat × Nat) :=
  (s.teams.filter fun e => e.2.bound && e.2.ctx == ctx && e.2.queue == q && e.2.node == n && e.2.work == .block).map fun e =>
    (e.2.block, s.dbgCore (coreOf e.1), e.1, e.1 + e.2.desc.team)

/-- The slots of a node's parts, as `flaunch` prints them: die, slot, first and last row. -/
def State.dbgParts (s : State) (ctx q n : Nat) : List (Nat × Nat × Nat × Nat) :=
  (upto 4).flatMap fun d => (upto 16).filterMap fun k =>
    let x := s.front d k
    if x.st ≠ 0 && x.ctx == ctx && x.queue == q && x.node == n then some (d, k, x.rfirst, x.rlast) else none

/-- The pools that firmware has bound for a slot, as `flaunch` prints them: bind record, logical core, PLACE. -/
def State.dbgPools (s : State) (die fid : Nat) : List (Nat × Nat × Nat) :=
  (s.binds.filter fun e => bindDie e.1 == die && e.2.st == 1 && e.2.kind == 2 && e.2.fid == fid).map fun e => (e.1, s.dbgCore (bindCore e.1))

/-- The points in flight of a slot, as `frestore` prints where each was bound: linear index, image, pool, logical core, PLACE, GIDX. -/
def State.dbgPoints (s : State) (die fid : Nat) : List (Nat × Nat × Nat × (Nat × Nat) × Nat) :=
  (s.front die fid).pts.filterMap fun p => p.team.map fun t => (p.lin, p.cimg, (s.team t).ridx, s.dbgCore (coreOf t), t)

/-- The points of a slot that a stop has pre-empted, as `fstop` prints them once the slot is Quiescent. -/
def State.dbgStopped (s : State) (die fid : Nat) : Option (List Nat) :=
  let x := s.front die fid
  if x.st = 3 then some ((x.pts.filter (·.saved)).map (·.lin)) else none

/-! ### Frontier commands (R318, R418) -/

/-- FRCMD with its two words. -/
def frWord (op fid ctx addr : Nat) : DWord := BitVec.ofNat 64 (op * 2 ^ 60 + fid % 16 * 2 ^ 56 + ctx % 64 * 2 ^ 50 + addr % 2 ^ 48)

def fstopEvents (die fid ctx : Nat) : List Instr := [.registerWrite (.frcmdW1 die) 0#64, .frontierStop die (frWord 2 fid ctx 0)]
def fsaveEvents (die fid ctx addr : Nat) : List Instr := [.frontierSave die (frWord 3 fid ctx addr)]
def fresumeEvents (die fid ctx : Nat) : List Instr := [.frontierResume die (frWord 5 fid ctx 0)]

/-- Words of a saved image (R321), as `fsave` prints them. -/
def State.dbgImage (s : State) (ctx addr n : Nat) : List Nat := (upto n).map fun k => leVal (s.bytesAs (s.ctx ctx).key (addr + 8 * k) 8)

/-- The images of the groups in flight that an image names. -/
def State.imageCimgs (s : State) (ctx addr : Nat) : List Nat :=
  let w6 := leVal (s.bytesAs (s.ctx ctx).key (addr + 48) 8)
  let rows := bits w6 29 16 + 1 - bits w6 13 0
  (upto (bits w6 38 32)).map fun k => bits (leVal (s.bytesAs (s.ctx ctx).key (addr + entriesAt rows + 16 * k + 8) 8)) 47 0

/-- The pool that takes an image back: of those that name the slot, the first with room for it. -/
def State.frestorePool (s : State) (die fid image : Nat) : Option Nat :=
  ((s.dbgPools die fid).map (·.1)).find? fun idx => (s.restorePlace idx image (headerOfImage (s.restoreHeader idx image))).isSome

/-- The steps of `frestore`, each on the state that the step before has left: step 0 is RESTORE of the slot, and step `k` after it brings the `k`-th group
in flight into a pool that names the slot; none while none of them has room. (DESIGN CHOICE, log entry 92) -/
def State.frestoreEvents (s : State) (die fid ctx addr : Nat) : Nat → List Instr
  | 0 => [.registerWrite (.frcmdW1 die) 0#64, .frontierRestore die (frWord 4 fid ctx addr)]
  | k + 1 =>
      let image := nth 0 (s.imageCimgs ctx addr) k
      match s.frestorePool die fid image with
      | some idx => [.registerWrite .prcmdW1 (BitVec.ofNat 64 (idx % 2 ^ 15)), .restore (BitVec.ofNat 64 (3 * 2 ^ 60 + ctx % 64 * 2 ^ 52 + image % 2 ^ 48))]
      | none => []

end Sys2Proof.Machine
end

