-- ==== Sys2Proof/Machine/Elf.lean ====
section
/-!
DEFINITION. What `dxas` writes: the ELF64 object of R100, and the text of its diagnostics (R116, R117).
-/

namespace Sys2Proof.Machine

open Sys2Proof

/-! ### Diagnostics (R116, R117) -/

/-- The meaning and the remedy of each code. -/
def codeTexts : List (String × String × String) :=
  [("E101", "Unknown mnemonic or directive", "Correct the spelling"),
   ("E102", "Operand class or range, under R110", "Use a register of the class the entry names"),
   ("E103", "Modifier not accepted or illegal combination", "Remove or change the modifier"),
   ("E104", "Constant fits no accepted length, data width or directive range", "Load it with movi, split it, or correct the value"),
   ("E105", "Register at or above .regs count", "Raise .regs or renumber"),
   ("E106", "Undefined symbol", "Define it, or export it from another object"),
   ("E107", "Symbol defined twice", "Rename one of them"),
   ("E108", "Zero divisor, negative shift count, or non-constant where a constant is required", "Fix the expression")]
  ++ [("E109", "Clause over 31 instructions after padding", "Split the clause"),
   ("E110", ".fb without flag B in the header", "Add b= to the header"),
   ("E111", "Flag number above 11", "Use f0-f11"),
   ("E112", "Clause structure of R59 broken", "Place a header there"),
   ("E113", "place outside the cluster shape or the grid", "Correct the coordinates or .place"),
   ("E114", "Descriptor or shape field out of range", "Correct .regs, .team or .cluster"),
   ("E116", "Macro misuse under R108", "Match parameters and .endm"),
   ("E117", ".include not found or too deep", "Fix the path or flatten")]
  ++ [("E118", "Unbalanced .if", "Match .else and .endif"),
   ("E119", "Invalid frontier declaration", "Correct dims or deps"),
   ("E120", "Guard (!p15)", "Remove the guard"),
   ("E121", "p15 as a destination", "Use p0-p14"),
   ("E122", "clause line under .autoclause on", "Remove it, or turn automatic clauses off"),
   ("E123", "Register name, mnemonic or directive defined as a symbol", "Choose another name"),
   ("E124", "Malformed expression, or wrong number of operands for a directive", "Fix the expression or the operand list"),
   ("E125", "Instruction while a section other than .text is selected", "Select .text first")]
  ++ [("W201", "Read of a pending long-latency result", "Add a WAIT on its flag"),
   ("W202", "Short-latency write to a pending destination", "Wait first, or rename"),
   ("W203", "Two outstanding long-latency writes to one register", "Wait between them"),
   ("W204", "Differing operation words on one cv register", "Use one operation per convergence register"),
   ("W205", "cv register not below .team cv=", "Raise cv="),
   ("W206", "Data directive in .text", "Move the data to .data or .cdata"),
   ("W207", "VREGS not a multiple of 8", "None needed; slack registers fault"),
   ("W208", "Header generated before a label or transfer", "Write the clause by hand to overlap latency")]

/-- Where a name first stands in a line, from 1 on; 0 where it does not. -/
def nameColumn (s : String) : Nat → Nat → List Char → Nat
  | 0, _, _ => 0
  | _, _, [] => 0
  | n + 1, k, c :: cs =>
      if nameChar c then
        let r := takeRun nameChar (c :: cs)
        if String.ofList r.1 == s then k else nameColumn s n (k + r.1.length) r.2
      else nameColumn s n (k + 1) cs

/-- The column of a diagnostic: of the register that it names, else of the first character of its line. (DESIGN CHOICE, log entry 90) -/
def Diag.column (d : Diag) : Nat :=
  let cs := d.pos.text.toList
  let at' := match d.loc with | some l => nameColumn (locName l) (cs.length + 1) 1 cs | none => 0
  if at' ≠ 0 then at' else (takeRun isBlank cs).1.length + 1

/-- The message and the remedy of a diagnostic: those of the example of R112 where a pending register is meant, else those of R117's table, with the
register that it names. (DESIGN CHOICE, log entry 90) -/
def Diag.words (d : Diag) : String × String :=
  let t := ((codeTexts.find? (·.1 == d.code)).map (·.2)).getD ("", "")
  (if d.say ≠ "" then d.say else t.1 ++ (match d.loc with | some l => " (" ++ locName l ++ ")" | none => ""), if d.cure ≠ "" then d.cure else t.2)

/-- A diagnostic as it is written: `file:line:column: code: message; remedy`, and behind it the lines that invoked the expansion (R108). -/
def Diag.render (d : Diag) : String :=
  let w := d.words
  d.pos.file ++ ":" ++ toString d.pos.line ++ ":" ++ toString d.column ++ ": " ++ d.code ++ ": " ++ w.1 ++ "; " ++ w.2
    ++ String.join (d.pos.calls.reverse.map fun c => " (from " ++ c.1 ++ ":" ++ toString c.2 ++ ")")

/-! ### The object file (R100) -/

/-- A section of an ELF file. -/
structure ElfSec where
  name  : String
  type  : Nat
  flags : Nat := 0
  bytes : List Byte := []
  size  : Nat                    -- of a section without bytes as well
  link  : Nat := 0
  info  : Nat := 0
  entry : Nat := 0
  deriving DecidableEq, Repr

def textBytes (s : String) : List Byte := s.toList.map fun c => BitVec.ofNat 8 c.toNat

/-- A table of names, each with a zero behind it, after a first zero. -/
def nameTable (ns : List String) : List Byte := 0#8 :: ns.flatMap fun s => textBytes s ++ [0#8]

/-- The place of name `n` in the table. -/
def nameAt (ns : List String) (n : Nat) : Nat := 1 + ((ns.take n).map fun s => s.length + 1).sum

/-- The number of a section in the file. -/
def Sect.index : Sect → Nat
  | .text => 1 | .data => 2 | .cdata => 3 | .shared => 4

/-- The symbols that relocations name and no label of the object defines. -/
def Object.externs (o : Object) : List String :=
  (o.relocs.filterMap fun r => match r.target with | .ext s _ _ => some s | _ => none).eraseDups

/-- Names of the symbol table: labels, then undefined ones. -/
def Object.symNames (o : Object) : List String := o.symbols.map (·.1) ++ o.externs

/-- An entry of the symbol table. -/
def symEntry (name info sect value : Nat) : List Byte :=
  leBytes 4 name ++ leBytes 1 info ++ leBytes 1 0 ++ leBytes 2 sect ++ leBytes 8 value ++ leBytes 8 0

/-- The symbol table: the null symbol, one of each section, and the global ones. -/
def Object.symTable (o : Object) : List Byte :=
  let ns := o.symNames
  symEntry 0 0 0 0 ++ (rangeFrom 1 4).flatMap (fun k => symEntry 0 3 k 0)
    ++ (o.symbols.zipIdx.flatMap fun s => symEntry (nameAt ns s.2) 0x10 s.1.2.1.index s.1.2.2)
    ++ (upto o.externs.length).flatMap fun k => symEntry (nameAt ns (o.symbols.length + k)) 0x10 0 0

/-- A relocation with its addend: types 1 and 2 are bits [31:0] and [47:32] of an address, 3 and 4 a distance in 32 and in 16 bits.
(DESIGN CHOICE, log entry 90) -/
def Object.rela (o : Object) (r : SymReloc) : List Byte :=
  let t := match r.target with
    | .at s off hi => (s.index, off, hi)
    | .ext s add hi => (5 + o.symNames.findIdx (· == s), add, hi)
    | .num n => (0, n, false)
  let kind := match r.how with | .value => if t.2.2 then 2 else 1 | .dist => 3 | .distLow => 4
  let add := match r.how with | .value => t.2.1 | _ => t.2.1 + (r.off - r.pc : Nat)
  leBytes 8 r.off ++ leBytes 8 (t.1 * 2 ^ 32 + kind) ++ leBytes 8 (wrap add 64)

/-- The relocations of a section. -/
def Object.relas (o : Object) (s : Sect) : List Byte := (o.relocs.filter (·.sect == s)).flatMap o.rela

/-- A record of `.launch`: the entry's offset, the cluster shape, and the frontier declaration, whose absence is 0 axes.
(DESIGN CHOICE, log entry 90) -/
def LaunchRec.bytes (k : LaunchRec) : List Byte :=
  let f := k.frontier.getD { dims := 0, deps := [] }
  leBytes 8 k.pc ++ leBytes 1 k.cluster.1 ++ leBytes 1 k.cluster.2 ++ leBytes 1 f.dims ++ leBytes 1 f.deps.length
    ++ (upto 4).flatMap fun n => (upto 3).flatMap fun c => leBytes 1 (wrap (nth 0 (nth [] f.deps n) c) 8)

/-- The sections of the file, but for the table of their own names. -/
def Object.sections (o : Object) : List ElfSec :=
  let sec := fun (name : String) (type flags : Nat) (bs : List Byte) => ({ name := name, type := type, flags := flags, bytes := bs, size := bs.length } : ElfSec)
  let rel := fun (name : String) (s : Sect) => { sec name 4 0 (o.relas s) with link := 10, info := s.index, entry := 24 }
  [sec ".text" 1 6 o.text, sec ".data" 1 3 o.data, sec ".cdata" 1 2 o.cdata, { sec ".shared" 8 3 [] with size := o.shared },
   sec ".reloc.place" 1 0 o.placeSection, sec ".launch" 1 0 (o.launch.flatMap LaunchRec.bytes),
   rel ".rela.text" .text, rel ".rela.data" .data, rel ".rela.cdata" .cdata,
   { sec ".symtab" 2 0 o.symTable with link := 11, info := 5, entry := 24 }, sec ".strtab" 3 0 (nameTable o.symNames)]

/-- A section header. -/
def elfHeader (name : Nat) (x : ElfSec) (off : Nat) : List Byte :=
  leBytes 4 name ++ leBytes 4 x.type ++ leBytes 8 x.flags ++ leBytes 8 0 ++ leBytes 8 off ++ leBytes 8 x.size ++ leBytes 4 x.link ++ leBytes 4 x.info
    ++ leBytes 8 32 ++ leBytes 8 x.entry

/-- Bytes filled with zeros to a multiple of 32. -/
def pad32 (bs : List Byte) : List Byte := bs ++ (upto (roundUp bs.length 32 - bs.length)).map fun _ => 0#8

/-- The offsets of sections one after another from `a` on. -/
def offsets (a : Nat) : List ElfSec → List Nat
  | [] => []
  | x :: xs => a :: offsets (a + roundUp x.bytes.length 32) xs

/-- The ELF64 little-endian relocatable file of an object (R100). (DESIGN CHOICE, log entry 90) -/
def Object.elf (o : Object) : List Byte :=
  let names := o.sections.map (·.name) ++ [".shstrtab"]
  let table := nameTable names
  let secs := o.sections ++ [{ name := ".shstrtab", type := 3, bytes := table, size := table.length }]
  let body := secs.flatMap fun x => pad32 x.bytes
  let hdr := [0x7F#8, 0x45#8, 0x4C#8, 0x46#8, 2#8, 1#8, 1#8] ++ leBytes 9 0 ++ leBytes 2 1 ++ leBytes 2 o.machine ++ leBytes 4 1 ++ leBytes 8 0
    ++ leBytes 8 0 ++ leBytes 8 (64 + body.length) ++ leBytes 4 0 ++ leBytes 2 64 ++ leBytes 2 0 ++ leBytes 2 0 ++ leBytes 2 64
    ++ leBytes 2 (secs.length + 1) ++ leBytes 2 secs.length
  hdr ++ body ++ leBytes 64 0 ++ (secs.zip (offsets 64 secs)).zipIdx.flatMap fun e => elfHeader (nameAt names e.2) e.1.1 e.1.2

/-- The file that a run writes; none where its status is not 0, and a file of that name is removed then (R99). -/
def AsmRun.file (r : AsmRun) : Option (List Byte) := r.object.map Object.elf

/-- The text that a run writes of its diagnostics, in line order. -/
def AsmRun.text (r : AsmRun) : List String := r.diags.map Diag.render

end Sys2Proof.Machine
end

