-- ==== Sys2Proof/Tests/Slice0.lean ====
section
/-!
SUPPORT. Tests: ill-formed words that are refused, the words that the spec writes out, results that its tables and worked examples give, and for
every statement about the machine a state and operands that meet its hypotheses.
-/

namespace Sys2Proof.Tests

-- one theorem at a time: the kernel's evaluations side by side would need a thread each
set_option Elab.async false

open Sys2Proof Sys2Proof.Machine

/-! ### Ill-formed instructions (R55, R66 to R70, R74) -/

/-- A word with destination 1 and sources 2 and 3. -/
def abc : Fields := { d := 1#8, a := 2#8, b := 3#8 }

/-- The 96-bit form of a word. -/
def wide (f : Fields) (n : Nat) : Fields := { f with len := .l96, imm := BitVec.ofNat 32 n }

/-- A word of a type. -/
def typed (f : Fields) (ty : Nat) : Fields := { f with ty := BitVec.ofNat 4 ty }

theorem test_wf_accepts : Instr.wf (.add (typed abc 1)) = true := by decide +kernel
theorem test_wf_fits_imm : Instr.wf (.add { typed abc 1 with imm := 1#32 }) = false := by decide +kernel
theorem test_wf_fits_ext : Instr.wf (.tld { typed {} 8 with len := .l96, ext := 1#20 }) = false := by decide +kernel
theorem test_wf_kind_row : Instr.wf (.rowSum { typed {} 7 with c := 1#8 }) = false := by decide +kernel
theorem test_wf_kind_csr : Instr.wf (.csrW { c := 0x10#8 }) = false := by decide +kernel
theorem test_wf_sub : staticCause (.add { typed abc 1 with sub := 1#4 }) = 3 := by decide +kernel
theorem test_wf_length : staticCause (.br {}) = 3 := by decide +kernel
theorem test_wf_type : staticCause (.add (typed abc 7)) = 4 := by decide +kernel
theorem test_wf_mod : staticCause (.min { typed abc 1 with mod := 4#4 }) = 4 := by decide +kernel
theorem test_wf_guard : staticCause (.nop { gn := true }) = 4 := by decide +kernel
theorem test_wf_zero_field : staticCause (.not { abc with b := 1#8 }) = 5 := by decide +kernel
theorem test_wf_zero_imm : staticCause (.pset { len := .l96, imm := 0x10000#32 }) = 5 := by decide +kernel
theorem test_wf_range : staticCause (.tzero { d := 8#8 }) = 6 := by decide +kernel
theorem test_wf_p15 : staticCause (.pnot { d := 15#8 }) = 6 := by decide +kernel
theorem test_wf_uniform_range : staticCause (.mov { abc with b := 0#8, a := 64#8, ua := true }) = 6 := by decide +kernel
theorem test_wf_fs : staticCause (.add { typed abc 1 with fs := true }) = 9 := by decide +kernel
theorem test_wf_lowest : staticCause (.pset { len := .l96, d := 15#8, imm := 0x10000#32 }) = 5 := by decide +kernel
theorem test_wf_event : Instr.wf (.timerTrap 0) = false := by decide +kernel

/-! ### Words that the spec writes out -/

-- 03_encoding.md, worked clause; 07_integer_control.md, worked loop
theorem test_word_header : decode 0 0x0000000204000001#128 = .header { av := true, count := 2#5 } := by decide +kernel
theorem test_word_header_wait : decode 24 0x0000000100000401#128 = .header { wait := 1#12, count := 1#5 } := by decide +kernel
theorem test_word_lid : decode 8 0x0000000000013D29#128 = .instr (.lid { d := 1#8 }) := by decide +kernel
theorem test_word_and : decode 16 0x8000000101023CC1#128 = .instr (.and { d := 2#8, a := 1#8, b := 1#8, bi := true }) := by decide +kernel
theorem test_word_nop : decode 24 0x0000000000003C05#128 = .instr (.nop {}) := by decide +kernel
theorem test_word_brc : decode 0 0x0000002C0001000002003C0E#128 = .instr (.brc { len := .l96, a := 2#8, sub := 1#4, imm := 0x2C#32 }) := by
  decide +kernel
theorem test_word_br : decode 0 0x000000200000000000003C0A#128 = .instr (.br { len := .l96, imm := 0x20#32 }) := by decide +kernel
theorem test_word_add_imm : decode 20 0x8010006401033C81#128 = .instr (.add { d := 3#8, a := 1#8, b := 100#8, ty := 1#4, bi := true }) := by
  decide +kernel
theorem test_word_mul : decode 20 0x8010000301033C89#128 = .instr (.mul { d := 3#8, a := 1#8, b := 3#8, ty := 1#4, bi := true }) := by
  decide +kernel
theorem test_word_rejoin : decode 8 0xFFFFFFFF0000000000003C1E#128 = .instr (.rejoin { len := .l96, imm := 0xFFFFFFFF#32 }) := by decide +kernel
theorem test_word_shfl : decode 20 0x8003000103043D21#128 = .instr (.shfl { d := 4#8, a := 3#8, b := 1#8, sub := 3#4, bi := true }) := by
  decide +kernel
theorem test_word_exit : decode 0 0x0000000000003C21#128 = .instr (.exit {}) := by decide +kernel
-- 08_float_narrow.md
theorem test_word_lmv : decode 8 0x0000010000700000080C4602#128
    = .instr (.lmv { len := .l96, g := 1#4, gn := true, d := 12#8, a := 8#8, ty := 7#4, imm := 0x100#32 }) := by decide +kernel
-- 09_tiles_accumulators.md
theorem test_word_sign : decode 8 0x0000000001003E45#128 = .instr (.sign { a := 1#8 }) := by decide +kernel
theorem test_word_acc_rd : decode 0 0x0070000000083E61#128 = .instr (.accRd { d := 8#8, ty := 7#4 }) := by decide +kernel
theorem test_word_fadd : decode 16 0x0070000808093D81#128 = .instr (.fadd { d := 9#8, a := 8#8, b := 8#8, ty := 7#4 }) := by decide +kernel
-- 11_memory_instructions.md
theorem test_word_atom : decode 8 0x90200104060206D1#128
    = .instr (.atom { g := 1#4, d := 2#8, a := 6#8, b := 4#8, c := 1#8, ty := 2#4, ua := true, bi := true }) := by decide +kernel
theorem test_word_aflush : decode 16 0x0000000000003EF1#128 = .instr (.aflush {}) := by decide +kernel
theorem test_word_st : decode 0 0x90000208060006C5#128
    = .instr (.st { g := 1#4, a := 6#8, b := 8#8, c := 2#8, ua := true, bi := true }) := by decide +kernel
-- 13_queues_engines.md
theorem test_word_rdv : decode 20 0x000300000A023F45#128 = .instr (.rdv { d := 2#8, a := 10#8, sub := 3#4 }) := by decide +kernel
theorem test_word_mma_nb : decode 8 0x00A0000100003E41#128 = .instr (.mma { b := 1#8, ty := 10#4 }) := by decide +kernel
theorem test_word_eflag : decode 16 0x0000000000003F61#128 = .instr (.eflag {}) := by decide +kernel
theorem test_word_ewait : decode 8 0x0000000100003F65#128 = .instr (.ewait { b := 1#8 }) := by decide +kernel
theorem test_word_row_max : decode 16 0x0070400000403E81#128 = .instr (.rowMax { d := 64#8, c := 64#8, ty := 7#4 }) := by decide +kernel
theorem test_word_eend : decode 24 0x0000000000003F6D#128 = .instr (.eend {}) := by decide +kernel
-- 16_slots_generation.md
theorem test_word_slot_fin : decode 0 0x000000020000000004093F8A#128
    = .instr (.slotFin { len := .l96, d := 9#8, a := 4#8, imm := 2#32 }) := by decide +kernel
theorem test_word_slot_ld : decode 0 0x0B00000204063F81#128 = .instr (.slotLd { d := 6#8, a := 4#8, b := 2#8, mod := 11#4 }) := by decide +kernel
theorem test_word_commit : decode 0 0x0000000000003F8D#128 = .instr (.commit {}) := by decide +kernel
-- 17_counters.md
theorem test_word_fwait : decode 0 0x0000000900003FB5#128 = .instr (.fwait { b := 9#8 }) := by decide +kernel
theorem test_word_twait_all : decode 0 0x000000600000000000003FAE#128 = .instr (.twaitAll { len := .l96, imm := 0x60#32 }) := by decide +kernel
theorem test_word_tffr : decode 0 0x00000000080A3FB1#128 = .instr (.tffr { d := 10#8, a := 8#8 }) := by decide +kernel
theorem test_word_bar_exp : decode 0 0x000002000100000003003FA6#128
    = .instr (.barExp { len := .l96, a := 3#8, mod := 1#4, imm := 0x200#32 }) := by decide +kernel
theorem test_word_cp : decode 0 0x800000000000070604053F4E#128
    = .instr (.cp { len := .l96, d := 5#8, a := 4#8, b := 6#8, c := 7#8, imm := 0x80000000#32 }) := by decide +kernel
-- 18_traps_preemption.md
theorem test_word_csr_w : decode 0 0x0000100005003FC5#128 = .instr (.fstatWrite { a := 5#8, c := 0x10#8 }) := by decide +kernel
theorem test_word_tfence : decode 0 0x0000000000003FC9#128 = .instr (.tfence {}) := by decide +kernel
theorem test_word_tret : decode 0 0x0000000000003FCD#128 = .instr (.tret {}) := by decide +kernel
theorem test_word_trap : decode 0 0x0000002100003FD1#128 = .instr (.trap { b := 0x21#8 }) := by decide +kernel
theorem test_word_brk : decode 0 0x0000000300003FD5#128 = .instr (.brk { b := 3#8 }) := by decide +kernel
theorem test_word_halt : decode 0 0x0000000000003FD9#128 = .instr (.halt {}) := by decide +kernel
-- 22_program_frontier.md
theorem test_word_mad : decode 0 0x7010010700083C91#128
    = .instr (.mad { d := 8#8, b := 7#8, c := 1#8, ty := 1#4, ua := true, ub := true, uc := true }) := by decide +kernel
-- R74: the illegal length, an unassigned opcode, a row number that names no row instruction, a word across a block, an offset beyond it
theorem test_word_bad_length : decode 0 0x0000000000003C04#128 = .bad 1 := by decide +kernel
theorem test_word_bad_opcode : decode 0 0x0000000000003C7D#128 = .bad 2 := by decide +kernel
theorem test_word_bad_row : decode 0 0x0006010000003E81#128 = .bad 3 := by decide +kernel
theorem test_word_crossing : decode 24 0x000000200000000000003C0A#128 = .bad 7 := by decide +kernel
theorem test_word_header_bits : decode 0 0x0000004000000001#128 = .bad 5 := by decide +kernel
theorem test_word_header_flag : decode 0 0x0000000007000001#128 = .bad 6 := by decide +kernel
-- R48, R181: the two words of one signed operation agree but for bits 15 to 10
theorem test_op_word : opWord (.mma { b := 1#8, ty := 9#4, fs := true }) = 0x0090000100000241 := by decide +kernel

/-! ### Results of the spec's tables (07_integer_control.md, "Values at the limits") -/

theorem test_add_wraps : intResult 1 false (intVal 1 0x7FFFFFF0#32 + intVal 1 0x20#32) = 0x80000010#32 := by decide +kernel
theorem test_add_sat : intResult 1 true (intVal 1 0x7FFFFFF0#32 + intVal 1 0x20#32) = 0x7FFFFFFF#32 := by decide +kernel
theorem test_add_i8 : intResult 5 false (intVal 5 0x7F#32 + intVal 5 1#32) = 0xFFFFFF80#32 := by decide +kernel
theorem test_sub_n8 : intResult 6 false (intVal 6 5#32 - intVal 6 9#32) = 0xFC#32 := by decide +kernel
theorem test_sub_n8_sat : intResult 6 true (intVal 6 5#32 - intVal 6 9#32) = 0#32 := by decide +kernel
theorem test_mulh_i32 : intResult 1 false (mulHigh (typed {} 1) (intVal 1 0xFFFFFFFF#32) (intVal 1 1#32)) = 0xFFFFFFFF#32 := by decide +kernel
theorem test_mulh_n32 : intResult 2 false (mulHigh (typed {} 2) (intVal 2 0xFFFFFFFF#32) (intVal 2 0xFFFFFFFF#32)) = 0xFFFFFFFE#32 := by decide +kernel
theorem test_idiv_i32 : divResult 1 7 (-2) = 0xFFFFFFFD#32 := by decide +kernel
theorem test_irem_i32 : remResult 1 7 (-2) = 1#32 := by decide +kernel
theorem test_idiv_zero : divResult 3 0x1234 0 = 0xFFFFFFFF#32 ∧ divResult 4 0x1234 0 = 0xFFFF#32 := by decide +kernel
theorem test_irem_zero : remResult 1 (-7) 0 = 0xFFFFFFF9#32 := by decide +kernel
theorem test_shl_32 : shlWord 1#32 32#32 = 0#32 := by decide +kernel
theorem test_sar_40 : sarWord 0x80000000#32 40#32 = 0xFFFFFFFF#32 := by decide +kernel
theorem test_rotl_33 : (0x80000001#32).rotateLeft (33 % 32) = 3#32 := by decide +kernel
theorem test_clz_zero : leadZeros 0 32 = 32 := by decide +kernel
theorem test_popc : onesIn 0xF0F00001 32 = 9 := by decide +kernel
theorem test_brev : reverseBits 1 32 = 0x80000000 := by decide +kernel
theorem test_bfx_i32 : bfxWord 1 0xF00#32 0x408#32 = 0xFFFFFFFF#32 := by decide +kernel
theorem test_bfx_clipped : bfxWord 2 0xF0000000#32 0x101C#32 = 0xF#32 := by decide +kernel
-- 08_float_narrow.md: Philox with key 0 and counter 0
theorem test_philox : philox 10 0 0 (0, 0, 0, 0) = (0x6627E8D5, 0xE169C58D, 0xBC57AC4C, 0x9B00DBD8) := by decide +kernel
-- 04_numbers.md: 255.6 and 255.4 to .n8, and -0.4 to .n32 under .rm
theorem test_fcvt_n8_high : fcvtWord { sub := 7#4, ty := 6#4 } 0x437F999A#32 0#32 0 = ⟨255, fNV⟩ := by decide +kernel
theorem test_fcvt_n8_low : fcvtWord { sub := 7#4, ty := 6#4 } 0x437F6666#32 0#32 0 = ⟨255, 0⟩ := by decide +kernel
theorem test_fcvt_minus : fcvtWord { sub := 7#4, ty := 2#4, mod := 2#4 } 0xBECCCCCD#32 0#32 0 = ⟨0, fNV⟩ := by decide +kernel
-- 04_numbers.md: BF16 tiles whose exact sum is 2^24 + 1 in block 0 and 1 in block 1
theorem test_mma_rounds_each_block :
    let row := (upto 64).map fun k => if k = 0 then FVal.fin false 4096 0 else if k = 1 || k = 32 then .fin false 1 0 else .fin false 0 0
    (mmaElem 0 0#32 [(row, row)]).x = 0x4B800000 := by decide +kernel
-- 16_slots_generation.md, "One pass, then a reader"
theorem test_slot_pass :
    let r : Rule := { v := true, creg := 1, ord := false, fp := true, k := 2, rth := 0x4000, fth := 0xC000 }
    let e := fun conf reopen st => ({ z := 0, reopen := reopen, passno := 5, conf := conf, token := 500, st := st } : Slot)
    let es := [e 0 0 2, e 0 0 2, e 0xD000 0 1, e 0xC000 0 1, e 0x3000 0 1, e 0xD000 0 1, e 0 0 0, e 0x2000 3 1]
    finalised r es = ([2, 5], false) ∧ (e 0xD000 0 1).word = 0x5D0000007D1 := by decide +kernel
-- 22_program_frontier.md: the extents and dependences of the descriptor words w1 and w2
theorem test_sweep : let x := sweepOf 0xE000005003 0x11010001
    x.nrows = 4 ∧ x.inner = 6 ∧ x.deps.length = 3 := by decide +kernel

/-! ### Witnesses: states and operands that meet the hypotheses of the statements -/

/-- The state that `withFetchWord` makes of a `nop` after reset, with idle sequencers, a placed core and one 2 MiB page of memory. -/
def home : State :=
  let s := State.reset.withFetchWord 64 0
  let s := s.setGrp 0 { s.grp 0 with seqs := [{}, {}, {}] }
  let s := s.setCore 0 { s.core 0 with tlb := [⟨0, 0, true, 0x400000, true, true, true, false⟩] }
  { s with pkg := { s.pkg with l2p := [(0, 64 * 4 + 3)] }, agenda := [] }

/-- An issue of lanes `m` at the PC of the word. -/
def issueOf (m : Word) (s : State) : State := { s with cur := { src := .lanes m, lanes := m, pc := 32, hdr := openClause.hdr } }

/-- Lane 0 issues, and all 32 lanes. -/
def one : State := issueOf 1#32 home
def every : State := issueOf 0xFFFFFFFF#32 home

/-- Sequencer `q` of group 0 runs and issues. -/
def seqAt (q : Nat) (s : State) : State :=
  let s := s.setSeq 0 q { st := 1, pc := 32, clause := some openClause, started := true }
  { s with cur := { src := .seq q, pc := 32, hdr := openClause.hdr } }

/-- Lanes and words as the issue of 96 bits. -/
def rt (t : Nat) : Fields := typed abc t
def un (t : Nat) : Fields := { rt t with b := 0#8 }
def with4 (f : Fields) : Fields := { f with c := 4#8 }
def ab : Fields := { a := 2#8, b := 3#8 }

/-- Well-formed words that nothing keeps from running. -/
def free? (s : State) (i : Instr) : Bool := match fieldsOf i with | some f => Sys2Proof.free i f s && i.wf | none => false

def ints : List Instr :=
  [.add (rt 1), .sub (rt 2), .mul (rt 3), .mulh (rt 4), .mad (with4 (rt 5)), .madh (with4 (rt 6)), .min (rt 1), .max (rt 0), .abs (un 1), .neg (un 1)]
def logics : List Instr := [.and abc, .or abc, .xor abc, .not (un 0), .andn abc, .shl abc, .shr abc, .sar abc, .rotl abc]
def moves : List Instr :=
  [.mov (un 0), .movi (wide { d := 1#8 } 7), .lid { d := 1#8 }, .csel (with4 abc), .pget (un 0), .shfl abc, .shfl (wide { abc with sub := 3#4 } 2)]
def preds : List Instr := [.pand abc, .por abc, .pxor abc, .pnot (un 0), .pmov (un 0), .pset (un 0), .pbit { un 0 with c := 3#8 }]
def floats : List Instr :=
  [.fadd (rt 7), .fsub (rt 8), .fmul (rt 9), .ffma (with4 (rt 7)), .fdiv (rt 7), .frnd (un 7), .frcp (un 7), .frsq (un 8), .fexp2 (un 9), .flog2 (un 7)]
def converts : List Instr :=
  [.fmin (rt 7), .fmax (rt 8), .fcvt { un 7 with sub := 8#4 }, .hpack (rt 8), .hunpack (un 9), .nbunpack (rt 10)]

theorem witness_IntegerArithmetic : (ints.all fun i => free? every i && (intRule i).isSome) = true := by decide +kernel
theorem witness_IntegerDivision : ([Instr.idiv (rt 1), .irem (rt 2)].all (free? every)) = true := by decide +kernel
theorem witness_LogicShifts : (logics.all fun i => free? every i && (logicRule i).isSome) = true := by decide +kernel
theorem witness_BitCounts : ([Instr.clz (un 0), .popc (un 0), .brev (un 0)].all (free? every)) = true := by decide +kernel
theorem witness_BitFields : ([Instr.bfx (with4 (un 1)), .bfx (wide (un 2) 0x0804), .bfi (with4 abc), .lea { abc with c := 2#8 }].all (free? every)) = true := by
  decide +kernel
theorem witness_Moves : (moves.all fun i => free? every i && (moveRule i).isSome) = true := by decide +kernel
theorem witness_MovesUniform :
    ([Instr.movs { un 0 with ua := true }, .movs (wide { d := 1#8 } 7), .rdlane { abc with ub := true }, .rdlane (wide (un 0) 0xF0)].all (free? every)
      && (every.view (wide (un 0) 0xF0)).act &&& 0xF0 != 0#32 && (one.view (wide (un 0) 0xF0)).act &&& 0xF0 == 0#32) = true := by decide +kernel
theorem witness_Predicates : (preds.all fun i => free? every i && (predRule i).isSome) = true := by decide +kernel
theorem witness_Compares : ((upto 6).all fun k => free? every (.cmp { rt 1 with sub := BitVec.ofNat 4 k })) = true := by decide +kernel
theorem witness_FloatOperations : (floats.all fun i => free? every i && (floatRule i).isSome) = true := by decide +kernel
theorem witness_Conversions : (converts.all fun i => free? every i && (convertRule i).isSome) = true := by decide +kernel
theorem witness_NarrowBlocks : ([Instr.nbscale (un 10), .nbpack (rt 11)].all (free? every)) = true := by decide +kernel
theorem witness_FloatCompares : ([Instr.fcmp { rt 7 with sub := 7#4 }, .fclass (un 7)].all (free? every)) = true := by decide +kernel
theorem witness_RegisterRanges :
    ([Instr.lmv (wide { d := 8#8, a := 12#8, ty := 7#4 } 0x40), .rnd { d := 4#8, a := 8#8 }, .pvt (rt 7)].all (free? every)) = true := by decide +kernel
theorem witness_Branches :
    ([Instr.br (wide {} 8), .brc (wide { a := 2#8 } 8), .brx { a := 2#8 }, .ret { a := 2#8 }, .call { d := 6#8, a := 2#8 }, .call (wide { d := 6#8 } 64)].all
      (free? every)) = true := by decide +kernel
theorem witness_StepsMarksAndVotes :
    ([Instr.nop {}, .yield {}, .vote { a := 2#8, d := 3#8 }, .vote { a := 2#8, d := 3#8, sub := 1#4 }, .vote { a := 2#8, d := 3#8, sub := 2#4 },
        .vote { a := 2#8, d := 3#8, sub := 3#4 }].all (free? every) && seqRuns (.nop {}) {} (seqAt 2 home) 2 true) = true := by decide +kernel

/-- Lanes 0 and 1 wait at a `rejoin` for each other. -/
def joining : State :=
  home.setGrp 0 { home.grp 0 with lanes := mkLanes fun l => if l < 2 then { pc := lpcOf 32, wait := .rejoin 12, mask := 3#32 } else {} }

theorem witness_ExitAndRejoin :
    (free? every (.exit {}) && !every.cur.hdr.tf && free? every (.rejoin (wide {} 3)) && free? every (.rejoin { a := 2#8 })
      && decide (every.me.rejoinPcs.length < every.me.rejd) && (joining.grp 0).bound && (joining.grp 0).trap.frozen.isNone
      && (joining.grp 0).rejoinMet 32) = true := by decide +kernel

/-- The wait flags of group 0 count one operation each. -/
def flagged (s : State) : State := s.setGrp 0 { s.grp 0 with flags := List.replicate 12 1, flags0 := List.replicate 12 1 }

theorem witness_Waiting :
    (ofLanes (flagged every) && every.me.bound && (staticFault every every.cur (.fwait { b := 1#8 })).isNone
      && waits (.fwait { b := 1#8 }) ((flagged every).view { b := 1#8 }) (flagged every)
      && [Instr.pf ab, .fenceXp {}, .fwait { b := 1#8 }, .twaitAny { a := 2#8 }, .twaitAll { a := 2#8 }, .tffr { d := 1#8, a := 2#8 }].all (free? every)) = true := by
  decide +kernel

/-! ### Faults, special registers and traps -/

/-- Fields of an instruction at lane 0 alone, with addresses in `v6` and `v5`, and in `s2` and `s4`. -/
def armed (s : State) : State :=
  let g := (((s.grp 0).setV 6 0xFFFFFFFF#32 fun l => BitVec.ofNat 32 (0x1000 + 4 * l)).setV 5 0xFFFFFFFF#32 fun l => BitVec.ofNat 32 (0x100 + 8 * l))
  s.setGrp 0 ((g.setU 4 0x3000#32).setU 2 0x2000#32)

def mem1 : State := armed one
def mem32 : State := armed every

/-- A PC comparator of core 0 on the word. -/
def watched (s : State) : State :=
  s.setCore 0 { s.core 0 with dbgPc := [{}, { w := BitVec.ofNat 64 (2 ^ 63 + 32), m := 0xFFFFFFFF#64 }, {}, {}] }

/-- A group with eight vector and two uniform registers, in a context with a key. -/
def narrow (s : State) : State := (s.setGrp 0 { s.grp 0 with vcnt := 8, sregs := 2 }).setCtx 0 { s.ctx 0 with key := 5 }

theorem witness_WordFaults :
    (ofLanes one && one.me.bound && one.me.trap.frozen.isNone && issueCause (.eend {}) one.cur == 0xA
      && boundBreak (narrow one) ((narrow one).boundGroup one.cur) (issueRegs (.mov { d := 8#8 }) one.cur) == some (0, 8)
      && issueCause (.tret {}) one.cur == 0 && boundBreak (narrow one) ((narrow one).boundGroup one.cur) (issueRegs (.tret {}) one.cur) == none
      && privileged (.csrW { a := 0#8, c := 0x02#8, sub := 4#4 }) && ((narrow one).ctxOf ((narrow one).boundGroup one.cur).team).key == 5
      && boundBreak (narrow one) ((narrow one).boundGroup one.cur) (issueRegs (.csrW { a := 0#8, c := 0x02#8, sub := 4#4 }) one.cur) == none
      && (staticFault (watched one) one.cur (.nop {})).isNone && !waits (.nop {}) ((watched one).view {}) (watched one)
      && pcMatch (watched one) one.cur == some 1) = true := by decide +kernel

/-- Step by step what a scheduler's turn at `withFetchWord` finds before it looks at the word. -/
def turnReady (s : State) : Bool :=
  match s.agenda with
  | tn :: ts =>
      let u := ({ s with agenda := ts }.pass tn).takeTurn 0 0
      let v := u.clearMarks 0
      tn.act == .issue 0 0 && !({ s with agenda := ts }.pass tn).hadTurn 0 0 && u.askOrder 0 0 == [0] && (u.grp 0).awake && v.voteOrder 0 == [32]
        && (lanesOf (v.pathAt 0 32).lanes).all (fun l => ((v.grp 0).lane l).clause == some openClause) && !(v.pathLane 0 (v.pathAt 0 32)).waitHdr
        && v.fenceLanes 0 (v.pathAt 0 32) == 0#32 && (v.icBlock 0 0 1).isSome && (v.icBlock 0 0 2).isSome && !(v.grp 0).csr.tpend
        && !(v.grp 0).trap.stall
  | [] => false

def nopAtFetch : State := State.reset.withFetchWord 64 0x3C05
theorem witness_WordFaultsStep :
    (turnReady (State.reset.withFetchWord 64 0x3C7D) && decodeBytes 0 (wordBlock 64 0x3C7D) == .bad 2 && !signMajor (wordBlock 64 0x3C7D)) = true := by
  decide +kernel
/-- A `sign` with a nonzero Z field, cause 5 by itself, before a word that no team operation has, for which it takes cause 3. -/
def badSign : Nat := ((encode (.sign { a := 1#8 })).getD 0#128).toNat + 2 ^ 40
theorem witness_WordFaultsSign :
    (let s := State.reset.withFetchWord 64 badSign
     turnReady s && decodeBytes 0 (wordBlock 64 badSign) == .bad 5 && signMajor (wordBlock 64 badSign)
       && (s.icBlock 0 0 (seqPc 32 8 / 32)).isSome && signCause (signIssue 32 (some openClause) ((wordBlock 64 badSign).drop 8)) == 3) = true := by
  decide +kernel
theorem witness_StepRuns :
    (turnReady nopAtFetch && decodeBytes 0 (wordBlock 64 0x3C05) == .instr (.nop {}) && !needsNext openClause.hdr (.nop {})
      && nopAtFetch.linesMissing { pc := 32 } (.nop {}) == [] && staticFault nopAtFetch { pc := 32, lanes := 0xFFFFFFFF } (.nop {}) == none
      && !waits (.nop {}) (nopAtFetch.view {}) nopAtFetch && !nopAtFetch.heldLate { pc := 32, lanes := 0xFFFFFFFF } (.nop {}) (nopAtFetch.view {})
      && debugFault nopAtFetch { pc := 32, lanes := 0xFFFFFFFF } == none) = true := by decide +kernel
theorem witness_StepRunsSequencer :
    (let s := State.reset.withFetchWord 64 0x3F6D
     s.agenda == [{ act := .seq 0 0 }] && ((s.takeTurn 0 4).seqTurn 0 0).2.map (·.1) == some (.eend {})) = true := by decide +kernel
theorem witness_StepRunsEvent :
    fieldsOf .bootRetryExpiry = none ∧ lands .bootRetryExpiry = false ∧ fieldsOf (.copyJobCompletion 1) = none
      ∧ lands (.copyJobCompletion 1) = true ∧ State.reset.turnAt = 0 ∧ awaitsFirmware .bootRetryExpiry = false
      ∧ awaitsFirmware (.create 0) = true ∧ fieldsOf (.create 0) = none ∧ State.reset.pkg.boot ≠ .running
      ∧ ({ State.reset with pkg := { State.reset.pkg with boot := .running } } : State).pkg.boot = .running := by decide

theorem witness_SpecialRegisters :
    ([Instr.csrR { d := 6#8, c := 0x11#8 }, .csrW { a := 6#8, c := 0x50#8 }, .csrW { a := 6#8, c := 0x51#8 }, .csrW { a := 6#8, c := 0x52#8 },
        .csrW { a := 6#8, c := 0x53#8 }, .csrW { a := 6#8, c := 0x62#8 }, .csrW { a := 6#8, c := 0x58#8 }, .csrW { a := 6#8, sub := 4#4, c := 2#8 },
        .fstatWrite { a := 6#8, c := 0x10#8 }, .cvdefWrite { a := 6#8, c := 0x40#8 }, .cvdefWrite { a := 6#8, c := 0x47#8 },
        .merrlog0Write { a := 6#8, c := 0x60#8 }].all (free? one)
      && (one.view { a := 6#8 }).act != 0#32 && !taken one (4096 + 0x47) && one.me.evs == 0 && one.me.mev.isNone && (one.team 0).cvs.length == 8
      && (nth {} (one.teamBefore 0).cvs 7).signs == []) = true := by decide +kernel

/-- FSTAT with an event. -/
def eventful (s : State) : State := s.setGrp 0 { s.grp 0 with csr := { (s.grp 0).csr with fstat := 4#32 } }
/-- A debugger is attached to context 0. -/
def debugged (s : State) : State := s.setCtx 0 { s.ctx 0 with attached := true }
theorem witness_SoftwareTraps :
    ((one.view {}).act != 0#32 && one.me.trap.frozen.isNone && [Instr.trap { b := 0x21#8 }, .brk { b := 3#8 }, .halt {}, .tfence {}].all (free? one)
      && one.before.csr.fstat == 0#32 && free? (eventful one) (.tfence {}) && (eventful one).before.csr.fstat == 4#32
      && !(one.ctxOf one.me.team).attached && free? (debugged one) (.halt {}) && ((debugged one).ctxOf (debugged one).me.team).attached) = true := by decide +kernel

/-- Group 0 frozen by a software trap, or by the tier fault that firmware holds; its context has a handler at 0x10000. -/
def caught (code : Nat) (fw : Bool) : State :=
  let s := home.setCtx 0 { home.ctx 0 with tvec := 0x10001#64 }
  s.setGrp 0 { s.grp 0 with trap := { frozen := some { code := code, pc := 32, planes := 1#32 }, toFw := fw } }

/-- The same in block 1 of a deterministic launch, while block 0 holds the ticket. -/
def caughtDet : State :=
  let s := caught 0x1C false
  { (s.setTeam 0 { s.team 0 with block := 1 }).setCtx 0 { s.ctx 0 with mode := 2 } with
    launches := [(0, { ctx := 0, queue := 0, node := 0, det := true, blocks := 2 })] }

theorem witness_TrapDelivery :
    (let s := caught 0x1C false
     let ra := (0x10000 + 0x10000) % 2 ^ 48
     (s.grp 0).bound && (s.grp 0).trap.frozen == some { code := 0x1C, pc := 32, planes := 1#32 } && !(s.grp 0).trap.inh
       && (s.ctxOf 0).tvec.getLsbD 0 && decide (2 ≤ (s.grp 0).sregs) && (s.grp 0).lanes.length == 32 && Memory.wf s.mem
       && s.xlateNow 0 0 ra .write == .hit 0x420000 && !(s.grp 0).trap.toFw && s.drained 0 && !s.recordWalks 0 && s.opens 0
       && (let d := caughtDet
           (d.grp 0).bound && (d.grp 0).trap.frozen.isSome && !d.opens 0 && d.drained 0 && d.xlateNow 0 0 ra .write == .hit 0x420000)
       && [0x22, 0x25].all (fun c => ((caught c true).grp 0).trap.toFw && (caught c true).pkg.prcmd.toNat % 2 ^ 15 == 0)
       && (let u := caught 0x25 true
           let r : TrapInfo := { code := 0x25, pc := 32, planes := 1#32 }
           !u.mappedFault 0 r && (u.walkAgain 0 r).xlateNow 0 0 ra .write == .hit 0x420000)
       && !((caught 0x26 false).ctxOf 0).attached && (caught 0x26 false).drained 0 && (caught 0x26 false).xlateNow 0 0 ra .write == .hit 0x420000) = true := by decide +kernel
theorem witness_FirmwareFaults :
    (let s := caught 0x22 false
     let t := caught 0x22 true
     let u := home.setGrp 0 { home.grp 0 with csr := { gtcmp := 1, gtime := 1 } }
     (s.grp 0).bound && (s.grp 0).trap.frozen.isSome && !(s.grp 0).trap.toFw && s.drained 0
       && (t.grp 0).bound && (t.grp 0).trap.toFw && (t.grp 0).trap.frozen.isSome && (t.grp 0).lanes.all (·.wait == .run)
       && !t.resumeWaits 0 { code := 0x22, pc := 32, planes := 1#32 } && !(caught 0x25 true).resumeWaits 0 { code := 0x25, pc := 32, planes := 1#32 }
       && (t.setGrp 0 { t.grp 0 with trap := { (t.grp 0).trap with till := 5 } }).resumeWaits 0 { code := 0x22, pc := 32, planes := 1#32 }
       && (u.grp 0).csr.gtcmp != 0 && decide ((u.grp 0).csr.gtcmp ≤ (u.grp 0).csr.gtime)) = true := by decide +kernel

/-- In a handler, with the record at 0x2000. -/
def handling : State := one.setGrp 0 { one.grp 0 with trap := { inh := true, recva := 0x2000, atEntry := 0xFFFFFFFF#32 } }
theorem witness_TrapReturn :
    (free? handling (.tret {}) && (handling.view {}).act != 0#32 && handling.me.trap.inh && !handling.recordPending 0
      && handling.xlate 0 0x2000 .read == .hit 0x402000
      && (upto 32).all (fun l => bits (leVal (((handling.teamBytes 0 (readerOf 0 0) (handling.keyOf 0) 0x402000 512).drop (448 + 2 * l)).take 2)) 10 8 == 0)
      && handling.me.lanes.all (·.wait == .run)) = true := by decide +kernel

/-! ### Memory -/

/-- The tests of an access pass: in global memory, and in a window. -/
theorem mayAccess_global (f : Fields) (a : AccSpec) (s : State) (l pa : Nat) (w : a.w = .global) (m : (s.view f).gaddr f l % a.k = 0)
    (x : s.xlate (s.view f).gid ((s.view f).gaddr f l) a.kind = .hit pa) (d : dataMatch s (s.view f) a.kind l ((s.view f).gaddr f l) a.k = none)
    (p : lineMarked s (s.view f).gid l pa = false) (r : raceWith s (s.view f) l pa = none) : mayAccess f a s l := by
  simp only [mayAccess, w]
  exact ⟨m, pa, x, d, fun _ => p, fun _ => r⟩

theorem mayAccess_own (f : Fields) (a : AccSpec) (s : State) (l : Nat) (w : a.w = .own)
    (i : 0 ≤ (s.view f).laddr f l ∧ (s.view f).laddr f l + (a.k : Int) ≤ (s.window (s.view f).g.team : Int) ∧ ((s.view f).laddr f l).toNat % a.k = 0)
    (p : wordMarked s (s.view f).gid l (s.view f).g.team ((s.view f).laddr f l).toNat a.k = false) : mayAccess f a s l := by
  simp only [mayAccess, w]
  exact ⟨i, fun _ => p⟩

/-- Lane 0 alone is active. -/
theorem lane_zero (s : State) (f : Fields) (h : (s.view f).act = 1#32) (l : Nat) (a : (s.view f).act.getLsbD l = true) : l = 0 := by
  rw [h] at a
  cases l with
  | zero => rfl
  | succ n => simp at a

def g6 : Fields := { d := 1#8, a := 6#8, bi := true }
def w5 : Fields := { d := 1#8, a := 5#8, bi := true, sub := 1#4 }
def st6 : Fields := { a := 6#8, bi := true, c := 9#8 }
def det1 : State := mem1.setCtx 0 { mem1.ctx 0 with mode := 2 }
def tier1 : State := mem1.setCore 0 { mem1.core 0 with tlb := [⟨0, 0, false, 2 ^ 50, true, true, true, true⟩] }
def at9 (f : Fields) : Fields := { f with c := 9#8, ty := 1#4 }

theorem witness_LoadsBecomePending :
    free? mem1 (.ld g6) = true ∧ (∀ l, (mem1.view g6).act.getLsbD l = true → mayAccess g6 (ldSpec g6) mem1 l)
    ∧ free? mem1 (.ld w5) = true ∧ (∀ l, (mem1.view w5).act.getLsbD l = true → mayAccess w5 (ldSpec w5) mem1 l)
    ∧ free? mem1 (.atom (at9 g6)) = true ∧ mem1.det mem1.me.team = false
    ∧ (∀ l, (mem1.view (at9 g6)).act.getLsbD l = true → mayAccess (at9 g6) (atomSpec (at9 g6) mem1 (mem1.view (at9 g6))) mem1 l)
    ∧ free? tier1 (.ldProbe g6) = true ∧ (∀ l, (tier1.view g6).act.getLsbD l = true → (tier1.view g6).gaddr g6 l % 4 = 0
      ∧ (∃ pa, tier1.xlate 0 ((tier1.view g6).gaddr g6 l) .read = .tier pa)
      ∧ dataMatch tier1 (tier1.view g6) .read l ((tier1.view g6).gaddr g6 l) 4 = none) := by
  refine ⟨by decide +kernel, fun l h => ?_, by decide +kernel, fun l h => ?_, by decide +kernel, by decide +kernel, fun l h => ?_, by decide +kernel,
    fun l h => ?_⟩
  · cases lane_zero mem1 g6 (by decide +kernel) l h
    exact mayAccess_global g6 _ mem1 0 0x401000 rfl (by decide +kernel) (by decide +kernel) (by decide +kernel) (by decide +kernel) (by decide +kernel)
  · cases lane_zero mem1 w5 (by decide +kernel) l h
    exact mayAccess_own w5 _ mem1 0 rfl (by decide +kernel) (by decide +kernel)
  · cases lane_zero mem1 (at9 g6) (by decide +kernel) l h
    exact mayAccess_global _ _ mem1 0 0x401000 rfl (by decide +kernel) (by decide +kernel) (by decide +kernel) (by decide +kernel) (by decide +kernel)
  · cases lane_zero tier1 g6 (by decide +kernel) l h
    exact ⟨by decide +kernel, ⟨2 ^ 50 + 0x1000, by decide +kernel⟩, by decide +kernel⟩

/-- A `fill` of `v8` to `v11` from 0x2000, a `cst.ld` from there, and a `slot.ld` of a block at 0x2000 of 16 positions, whose second one is a
candidate. -/
def fill8 : Fields := { d := 8#8, b := 4#8, c := 2#8 }
def cst2 : Fields := { len := .l96, a := 2#8, ua := true, imm := 0x10080#32 }
def slot2 : Fields := { d := 2#8, a := 2#8, b := 10#8 }
def blocked (m : Word) : State :=
  let s := armed (issueOf m home)
  { s with mem := writeCells [] 0x402000 (leBytes 64 16 ++ leBytes 8 0 ++ leBytes 8 (2 ^ 40 + 0x8000 * 2 ^ 24 + 7 * 4 + 1)) }

theorem witness_RangesBecomePending :
    (runs (.cstLd cst2) cst2 mem1 (cstTests cst2 mem1) && (mem1.view cst2).act != 0#32 && runs (.fill fill8) fill8 mem1 (transferTests fill8 .read mem1)
      && (mem1.view fill8).act != 0#32 && mem1.me.trap.kLanes &&& mem1.cur.lanes == 0#32
      && (upto 4).all (fun j => mem1.xlate 0 ((rangeAddr fill8 (mem1.view fill8) + 128 * j) % 2 ^ 48) .read == .hit (0x402000 + 128 * j))) = true := by
  decide +kernel
theorem witness_SlotLoad : runs (.slotLd slot2) slot2 (blocked 1#32) (slotTests slot2 .read false (blocked 1#32)) = true := by decide +kernel

/-- A state in which lane 0 meets each fault of an access: misaligned, not mapped, in the far tier, marked, racing; outside a window; off the mesh. -/
def v6 (x : Nat) (s : State) : State := s.setGrp 0 ((s.grp 0).setV 6 0xFFFFFFFF#32 fun _ => BitVec.ofNat 32 x)
def unmapped : State :=
  let s := mem1.setCore 0 { mem1.core 0 with tlb := [] }
  s.setGrp 0 { s.grp 0 with tfault := [(0, 0x20)] }
def g6w5 (n : Nat) : Fields := { w5 with imm := BitVec.ofNat 32 n, bi := false, len := .l96 }
def cl5 : Fields := { d := 1#8, a := 5#8, sub := 2#4, len := .l128, row := 31#6, col := 51#6 }
def marked1 : State := { mem1 with side := [(0x401000 / 64, { pois := true })] }
def racing1 : State := { mem1 with side := [(0x401000 / 64, { opn := true, gid := 5 })] }

theorem witness_AccessFaults :
    ([mem1, v6 0x1001 mem1, unmapped, tier1, marked1, racing1].all (fun s => free? s (.ld g6) && s.me.trap.frozen.isNone && (s.view g6).act == 1#32)
      && ((v6 0x1001 mem1).view g6).gaddr g6 0 % 4 == 1 && (mem1.view g6).gaddr g6 0 % 4 == 0
      && unmapped.xlate 0 0x1000 .read == .fault 0x20 && tier1.xlate 0 0x1000 .read == .tier (2 ^ 50 + 0x1000)
      && mem1.xlate 0 0x1000 .read == .hit 0x401000 && dataMatch mem1 (mem1.view g6) .read 0 0x1000 4 == none
      && marked1.marked 0x401000 && !isCxl 0x401000 && raceWith racing1 (racing1.view g6) 0 0x401000 == some 5
      && free? mem1 (.ld (g6w5 (2 ^ 32 - 0x101))) && decide ((mem1.view (g6w5 (2 ^ 32 - 0x101))).laddr (g6w5 (2 ^ 32 - 0x101)) 0 = -1)
      && free? mem1 (.ld (g6w5 (mem1.window 0 - 0x103))) && decide ((mem1.window 0 : Int) < (mem1.view (g6w5 (mem1.window 0 - 0x103))).laddr
          (g6w5 (mem1.window 0 - 0x103)) 0 + 4)
      && free? mem1 (.ld { g6w5 0xFFFE with sub := 3#4 }) && decide (65536 < (mem1.view (g6w5 0xFFFE)).laddr (g6w5 0xFFFE) 0 + 4)
      && free? mem1 (.ld cl5) && mem1.placed 0 31 51 == none) = true := by decide +kernel

/-- What `exec` answers. -/
def after (i : Instr) (s : State) : State := match exec i s with | .next t => t | _ => s
/-- A time at which everything may complete; how long HBM takes is a free value, so pending work is due at once. -/
def late (s : State) : State :=
  let s := s.setCore 0 { s.core 0 with cycle := 10 ^ 8 }
  let s := s.setGrp 0 { s.grp 0 with ops := (s.grp 0).ops.map fun p => { p with due := 0, dueNs := 0 } }
  let s := s.setTeam 0 { s.team 0 with order := (s.team 0).order.map fun o => { o with due := 0, dueNs := 0 } }
  { s with pkg := { s.pkg with wtime := 10 ^ 12 }, jobs := s.jobs.map fun e => (e.1, { e.2 with due := 0, dueNs := 0 }) }

/-- The operation that an instruction has made pending may complete. -/
def completes? (i : Instr) (s : State) : Bool :=
  let t := late (after i s)
  match (t.grp 0).ops[0]? with
  | some p => p.act != 0#32 && !p.staged && t.reached 0 p.due p.dueNs && pendReady t 0 p && p.i == i
  | none => false

theorem witness_LoadsComplete :
    ([Instr.ld g6, .ld w5, .ldProbe { g6 with c := 4#8 }, .fill fill8, .cstLd cst2, .atom (at9 g6)].all (fun i => completes? i mem1)
      && completes? (.ldProbe { g6 with c := 4#8 }) tier1 && completes? (.slotLd slot2) (blocked 1#32) && Memory.wf (mem1.core 0).kst && Memory.wf mem1.mem
      && ((after (.fill fill8) mem1).grp 0).ops.all (·.k == 0)
      && ((after (.atom (at9 g6)) mem1).grp 0).ops.all (fun p => p.space == .global && p.act == BitVec.twoPow 32 0 && p.at 0 % 4 == 0)
      && (mem1.sideOf (0x401000 / 64)).key == mem1.keyOf 0 && (mem1.sideOf (0x401000 / 64)).gen == mem1.keyGenOf (mem1.keyOf 0)
      && (mem1.core 0).sq.isEmpty && (mem1.team 0).held == [] && !mem1.heldBlock 0) = true := by decide +kernel

/-- `red` to the window, and `spill` of `v8` to `v11` to 0x2000. -/
def red9 : Fields := { at9 st6 with sub := 0#4 }
def spill8 : Fields := { a := 8#8, b := 4#8, c := 2#8 }

theorem witness_StoresEnter :
    free? mem1 (.st st6) = true ∧ (∀ l, (mem1.view st6).act.getLsbD l = true → mayAccess st6 (stSpec st6) mem1 l)
    ∧ free? mem1 (.stGDirect { st6 with sub := 8#4 }) = true
    ∧ (∀ l, (mem1.view { st6 with sub := 8#4 }).act.getLsbD l = true → mayAccess { st6 with sub := 8#4 } (stSpec { st6 with sub := 8#4 }) mem1 l)
    ∧ free? mem1 (.red red9) = true ∧ mem1.det mem1.me.team = false ∧ (∀ l, (mem1.view red9).act.getLsbD l = true → mayAccess red9 (redSpec red9) mem1 l)
    ∧ free? mem1 (.spill spill8) = true ∧ (mem1.view spill8).act ≠ 0#32 ∧ mem1.me.trap.kLanes &&& mem1.cur.lanes = 0#32
    ∧ rangeAddr spill8 (mem1.view spill8) = 0x2000
    ∧ ((upto 4).all fun j => mem1.xlate 0 (0x2000 + 128 * j) .write == .hit (0x402000 + 128 * j)
        && dataMatch mem1 (mem1.view spill8) .write 0 (0x2000 + 128 * j) 4 == none && raceWith mem1 (mem1.view spill8) 0 (0x402000 + 128 * j) == none) = true := by
  refine ⟨by decide +kernel, fun l h => ?_, by decide +kernel, fun l h => ?_, by decide +kernel, by decide +kernel, fun l h => ?_, by decide +kernel,
    by decide +kernel, by decide +kernel, by decide +kernel, by decide +kernel⟩
  · cases lane_zero mem1 st6 (by decide +kernel) l h
    exact mayAccess_global _ _ mem1 0 0x401000 rfl (by decide +kernel) (by decide +kernel) (by decide +kernel) (by decide +kernel) (by decide +kernel)
  · cases lane_zero mem1 { st6 with sub := 8#4 } (by decide +kernel) l h
    exact mayAccess_global _ _ mem1 0 0x401000 rfl (by decide +kernel) (by decide +kernel) (by decide +kernel) (by decide +kernel) (by decide +kernel)
  · cases lane_zero mem1 red9 (by decide +kernel) l h
    exact mayAccess_global _ _ mem1 0 0x401000 rfl (by decide +kernel) (by decide +kernel) (by decide +kernel) (by decide +kernel) (by decide +kernel)

/-- The first queued store of an instruction may be performed, and how its entry looks. -/
def queued? (i : Instr) (s : State) (p : SqEntry → Bool) : Bool :=
  let t := after i s
  match (t.core 0).sq[0]? with
  | some e => storeReady t 0 0 e && p e
  | none => false

/-- A block of a deterministic launch that does not hold the ticket. -/
def detBlock : State :=
  let s := mem1.setTeam 0 { mem1.team 0 with block := 1 }
  { s.setCtx 0 { s.ctx 0 with mode := 2 } with launches := [(0, { ctx := 0, queue := 0, node := 0, det := true, blocks := 2 })] }

theorem witness_StorePerform :
    (queued? (.st st6) mem1 (fun e => e.kind == .plain && e.space == .global && !mem1.holdsBack e && e.bytes.length == 4 && e.pa == 0x401000)
      && queued? (.st { w5 with d := 0#8, c := 9#8 }) mem1 (fun e => e.kind == .plain && e.space == .spad 0)
      && queued? (.red red9) mem1 (fun e => e.kind == .red 0 1 && e.space == .global && e.pa % 4 == 0)
      && queued? (.st st6) detBlock (fun e => (after (.st st6) detBlock).holdsBack e) && Memory.wf (mem1.team 0).spad) = true := by decide +kernel

theorem witness_Deterministic :
    free? det1 (.atom (at9 g6)) = true ∧ det1.det det1.me.team = true ∧ (det1.view (at9 g6)).act ≠ 0#32
    ∧ (∀ l, (det1.view (at9 g6)).act.getLsbD l = true → mayAccess (at9 g6) (atomSpec (at9 g6) det1 (det1.view (at9 g6))) det1 l)
    ∧ free? det1 (.red red9) = true ∧ (∀ l, (det1.view red9).act.getLsbD l = true → mayAccess red9 (redSpec red9) det1 l)
    ∧ free? det1 (.aflush {}) = true ∧ (after (.aflush {}) (after (.red red9) det1)).clusterOf 0 = [0]
    ∧ ((after (.aflush {}) { after (.red red9) det1 with cur := det1.cur }).team 0).handed.length = 1
    ∧ ((after (.aflush {}) { after (.red red9) det1 with cur := det1.cur }).readyStaged [0]).length = 1
    ∧ (((after (.aflush {}) { after (.red red9) det1 with cur := det1.cur }).team 0).handed.all fun e => e.atom == none && e.space == .global) = true := by
  refine ⟨by decide +kernel, by decide +kernel, by decide +kernel, fun l h => ?_, by decide +kernel, fun l h => ?_, by decide +kernel, by decide +kernel,
    by decide +kernel, by decide +kernel, by decide +kernel⟩
  · cases lane_zero det1 (at9 g6) (by decide +kernel) l h
    exact mayAccess_global _ _ det1 0 0x401000 rfl (by decide +kernel) (by decide +kernel) (by decide +kernel) (by decide +kernel) (by decide +kernel)
  · cases lane_zero det1 red9 (by decide +kernel) l h
    exact mayAccess_global _ _ det1 0 0x401000 rfl (by decide +kernel) (by decide +kernel) (by decide +kernel) (by decide +kernel) (by decide +kernel)

theorem witness_Fences :
    (free? (one.setGrp 0 { one.grp 0 with filter := [0x10040] }) (.fence { mod := 0xB#4 }) && free? one (.commit {})
      && ((one.setCtx 0 { one.ctx 0 with spec := true, pending := some 5 }).ctxOf 0).committing) = true := by decide +kernel

/-- A group of 24 registers, 20 of them declared, whose `v6` names register 7, in a team with five granules left. -/
def pooled : State :=
  let s := (one.setGrp 0 { one.grp 0 with valloc := 24, vcnt := 20 }).setTeam 0 { one.team 0 with pool := 5 }
  s.setGrp 0 ((s.grp 0).setV 6 0xFFFFFFFF#32 fun _ => 7#32)
def rgn8 : Fields := { len := .l96, a := 8#8, imm := 0xF5#32 }

theorem witness_LineStore :
    (free? one (.rgn rgn8) && (let g := (late (after (.rgn rgn8) one)).me
        g.fetch.find? (·.1 == 8) == some (8, 12) && g.fetch.find? (fun e => !g.missed.contains e.1) == some (8, 12)) && free? pooled (.rdidx { d := 1#8, a := 6#8 })
      && ((pooled.view { d := 1#8, a := 6#8 }).a { d := 1#8, a := 6#8 } 0).toNat == 7 && (pooled.view {}).act == 1#32 && pooled.me.bad == []
      && free? pooled (.wridx { a := 6#8, b := 2#8 }) && free? pooled (.give { b := 2#8 }) && free? pooled (.claim { b := 5#8, d := 2#8 })
      && free? pooled (.claim { b := 6#8, d := 2#8 })
      && ((late (after (.claim { b := 5#8, d := 2#8 }) pooled)).team 0).claims.map (fun c => (c.gid, c.n, c.d)) == [(0, 5, 2)]
      && (let a : Claim := { gid := 0, role := 1, n := 3, d := 2, lanes := 1#32 }
          let s := pooled.setTeam 0 { pooled.team 0 with claims := [a, { a with gid := 1, role := 0 }] }
          decide (3 ≤ (s.team 0).pool) && decide ((s.team 0).pool < 6) && decide ((s.grp 1).valloc + 24 ≤ 256))) = true := by decide +kernel

/-! ### Team operations -/

/-- A state with a tensor table at 0x4000: an entry of `.bf16`, one of `.f32`, one that is not valid, and one of `.bf16`
with policy 1. -/
def tensorWord (fmt : Nat) (v : Bool) (pitch : Nat) : List Byte :=
  [2 ^ 63 * v.toNat + fmt * 2 ^ 56 + 0x10000, 0, 64 * 2 ^ 32 + 64, 0x1000 * 2 ^ 32 + pitch].flatMap (leBytes 8)
def teamed (s : State) : State :=
  let s := s.setCtx 0 { s.ctx 0 with ttbase := 0x4000 }
  let s := s.setGrp 0 (((s.grp 0).setU 2 0).setU 8 0x3000#32)
  { s with mem := writeCells [] 0x404000 (tensorWord 9 true 0x80 ++ tensorWord 7 true 0x100 ++ tensorWord 9 false 0x80 ++ tensorWord (9 + 16) true 0x80) }
def team1 : State := teamed one

def long128 (f : Fields) (e : Nat) : Fields := { f with len := .l128, ext := BitVec.ofNat 20 e }
def rowWord (sub : Nat) : Fields := { d := 1#8, a := 8#8, c := 8#8, sub := BitVec.ofNat 4 sub, ty := 7#4 }
def shorts : List Instr :=
  [.tzero { d := 3#8 }, .accZero { d := 8#8, b := 4#8 }, .rowMax (rowWord 0), .rowSum (rowWord 1), .rowExp { rowWord 2 with b := 64#8 },
   .rowScale { rowWord 3 with b := 64#8 }, .rowAdd { rowWord 4 with b := 64#8 }, .rowCvt { d := 1#8, a := 64#8, sub := 5#4, ty := 9#4 }]
def accRead : Fields := { d := 3#8, a := 4#8, b := 0xA0#8, c := 2#8, ty := 7#4 }
def mma9 : Fields := { ty := 9#4, b := 1#8, c := 1#8 }
def tld0 : Fields := long128 { a := 2#8, ty := 9#4, d := 2#8 } 0
def acc1 : Fields := long128 { a := 2#8, ty := 7#4, d := 2#8, b := 1#8 } 1
def accAt : Fields := { len := .l96, a := 8#8, ty := 7#4, d := 2#8, b := 1#8, imm := 0x104 }
def odd1 : State := team1.setGrp 0 ((team1.grp 0).setU 8 0x3002#32)
def idle (f : Fields) : Fields := { f with g := 1#4 }

def prepared? (s : State) (i : Instr) : Bool :=
  match fieldsOf i with
  | some f => (match prepare s (laneIssuer s (s.view f)) i (opHere s i f (.lanes (s.view f).act)) with | .ok _ => true | _ => false)
  | none => false

theorem witness_TeamOperationsJoin :
    ((shorts ++ [Instr.mma mma9, .accRd accRead, .tpois { d := 3#8, a := 4#8, b := 5#8 }, .mmask (wide { a := 2#8 } 0xF)]).all (free? team1)
      && (team1.view {}).act != 0#32
      && [Instr.mma mma9, .tld tld0, .tsv tld0, .accLd acc1, .accSt acc1, .accLd accAt, .accSt accAt].all (fun i => free? team1 i && prepared? team1 i)
      && free? team1 (.tzero (idle { d := 3#8 })) && (team1.view (idle { d := 3#8 })).act == 0#32) = true := by decide +kernel

theorem witness_SequencerTeamOperations :
    (let s := seqAt 0 team1
     let i := Instr.tld tld0
     seqRuns i tld0 s 0 (opSeq i == 0) && s.me.bound
       && (match prepare s (seqIssuer s 0) i (opHere s i tld0 (.seq 0)) with | .ok _ => true | _ => false)
       && (match prepare s (seqIssuer s 0) (.tld (long128 tld0 1)) (opHere s (.tld (long128 tld0 1)) (long128 tld0 1) (.seq 0)) with
           | .bad c _ _ => c == 0x13 | _ => false)) = true := by decide +kernel
theorem witness_TeamFaults :
    (team1.me.trap.frozen.isNone && (team1.view {}).act != 0#32
      && [Instr.tld (long128 tld0 2), .tld (long128 tld0 1),
          .mma { long128 { ty := 8#4, b := 5#8, sub := 1#4 } 0 with row := 31#6, col := 51#6 },
          .mma { long128 { ty := 8#4, b := 5#8, sub := 1#4 } 0 with row := 3#6, col := 4#6 }].all (free? team1)
      && (upto 3).map (fun k => match tensorWords team1 (laneIssuer team1 (team1.view tld0)) k with
          | .ok w => (tensorOf (nth 0#64 w 0).toNat (nth 0#64 w 1).toNat (nth 0#64 w 2).toNat (nth 0#64 w 3).toNat).map (·.fmt)
          | _ => some 0) == [some 9, some 7, none]
      && free? odd1 (.accLd accAt) && pairVal ((odd1.view accAt).w.ur 8) ((odd1.view accAt).w.ur 9) % 4 == 2
      && team1.placed 0 31 51 == none && team1.placed 0 3 4 == some 0
      && ((team1.view { b := 5#8 }).w.ur 5).toNat % 2 ^ 16 < imageRowBytes 8) = true := by decide +kernel

/-- The operation that an instruction has put into the order of an idle team can start. -/
def starts? (i : Instr) (s : State) (p : TeamOp → Bool) : Bool :=
  let t := late (after i s)
  match (t.team 0).order[0]? with
  | some o => !o.started && canStart t 0 o [] && o.i == i && p o
  | none => false

theorem witness_ShortTeamOperations :
    ((shorts ++ [Instr.tpois { d := 3#8, a := 4#8, b := 5#8 }, .mmask (wide { a := 2#8 } 0xF)]).all (fun i => starts? i team1 fun _ => true)
      && starts? (.tsv tld0) team1 (fun o => (storeRows (team1.team 0) o).length == 64 && (o.runsAt 5).all (fun r => r.scale == none && r.n == 128))
      && starts? (.accSt accAt) team1 (fun o => storeRows (team1.team 0) o == [0] && (match o.runsAt 0, o.pages with
          | [r], [(g, b)] => r.scale == none && r.n == 256 && r.va == 0x3000 && g == 0 && b == 0x400000
          | _, _ => false))
      && [Instr.mma mma9, .tld tld0, .accLd accAt, .accRd accRead].all (fun i => isLong i && starts? i team1 fun _ => true)) = true := by decide +kernel

/-- A `tsv` under policy 1 of a tile with one row that is not poisoned. -/
theorem witness_ShortStoresOfARow :
    (let s := team1.setTeam 0 { team1.team 0 with tiles := [(2, { pois := 2 ^ 64 - 2 })] }
     let t := late (after (.tsv (long128 tld0 3)) s)
     match (t.team 0).order[0]? with
     | some o => canStart t 0 o [] && storeRows (t.team 0) o == [0] && ((t.team 0).tile 2).ue == [] && (match o.runsAt 0, o.pages with
         | [r], (g, b) :: _ => r.scale == none && r.n == 128 && r.elems == 64 && r.off == 0 && r.va == 0x10000 && g == 1 && b == 0x410000
         | _, _ => false)
     | none => false) = true := by decide +kernel

/-- A long operation that has started and whose time has come. -/
def runsOut? (i : Instr) (s : State) : Bool :=
  let u := late (after (.teamOpStart 0 0) (late (after i s)))
  match (u.team 0).order[0]? with
  | some o => o.started && u.reached o.gid o.due o.dueNs && o.i == i
  | none => false

theorem witness_LongTeamOperations : ([Instr.mma mma9, .tld tld0, .accLd accAt, .accRd accRead].all fun i => runsOut? i team1) = true := by
  decide +kernel

/-! ### Signed operations and engines -/

/-- A `sign` of CV 1 before `tzero T3`, with a declared set of the lane alone, or of two lanes. -/
def signing (lanes : Nat) : State :=
  let s := one.setTeam 0 { one.team 0 with cvs := setNth { cvdef := BitVec.ofNat 64 (2 ^ 32 + lanes) } (one.team 0).cvs 1 }
  { s with cur := { s.cur with next := leBytes 8 (((encode (.tzero { d := 3#8 })).getD 0#128).toNat) } }

theorem witness_Signatures :
    (let f : Fields := { a := 1#8 }
     let j := Instr.tzero { d := 3#8 }
     let full := fun s : State =>
       let x := s.team 0
       let made := { x.cv 1 with cvdef := ((s.teamBefore 0).cv 1).cvdef, word := some j, signs := (x.cv 1).signs ++ newSigns s (s.view f) j }
       setComplete (s.signLanes (s.view f) 1 j) 0 made
     [signing 1, signing 3].all (fun s => signedInstr s.cur == some j && free? s (.sign f) && (s.view f).act == 1#32 && (s.team 0).cvs.length == 8
       && inSet (s.team 0) ((s.teamBefore 0).cv 1).cvdef 0 0 && ((s.teamBefore 0).cv 1).word.isNone)
     && plainOp j && full (signing 1) && !full (signing 3)) = true := by decide +kernel

/-- Lane 0 has signed, and lane 1, the other of the set, exits. -/
def signedOut : State :=
  let s := after (.sign { a := 1#8 }) (signing 3)
  s.setGrp 0 { s.grp 0 with lanes := setNth {} (s.grp 0).lanes 1 }
theorem witness_SignaturesOnExit :
    ((signedOut.team 0).bound && setComplete signedOut 0 ((signedOut.team 0).cv 1)
      && ((signedOut.team 0).cv 1).word == some (.tzero { d := 3#8 }) && ((signedOut.team 0).cv 1).signs.map (·.lane) == [0]
      && (signedOut.grp 0).lanes.length == 32) = true := by decide +kernel

def fork8 : Fields := wide { a := 8#8, b := 9#8, sub := 3#4 } 0x80000000
/-- Sequencer 1 has ended a program. -/
def ended1 : State := one.setSeq 0 1 { st := 2, cause := 0x12 }

theorem witness_ForkAndRendezvous :
    (runs (.fork fork8) fork8 one (forkTests fork8 one) && (one.view fork8).act != 0#32
      && runs (.fork { fork8 with imm := 0x100 }) { fork8 with imm := 0x100 } one (forkTests { fork8 with imm := 0x100 } one)
      && free? ended1 (.rdv { d := 2#8, a := 10#8, sub := 2#4 })
      && (let t := after (.fork fork8) one
          let x := t.seqOf 0 0
          x.st == 1 && !x.started && t.feet.any (fun k => k.id == x.foot && k.edges == []))
      && (let s := (seqAt 0 home).setSeq 0 0 { (seqAt 0 home).seqOf 0 0 with stopping := true }
          s.seqGroup 0 0 == some 0 && (s.seqOf 0 0).stopping && s.seqOps 0 0 == [] && (s.seqOf 0 0).eflags == [])) = true := by decide +kernel

theorem witness_SequencerInstructions :
    (let s := seqAt 0 home
     let with' := fun (x : Seq) => s.setSeq 0 0 x
     let x := s.seqOf 0 0
     let e := wide {} (3 * 65536 + 0xFFF8)
     seqRuns (.eflag { b := 3#8 }) { b := 3#8 } s 0 true && seqRuns (.ewait { b := 7#8 }) { b := 7#8 } s 0 true
       && seqRuns (.ewait (wide {} 9)) (wide {} 9) s 0 true && seqRuns (.eend {}) {} s 0 true && seqRuns (.eloop e) e s 0 true
       && [[(32, 2)], [(32, 0)], [(1, 1), (2, 1), (3, 1), (4, 1)], []].all (fun l => seqRuns (.eloop e) e (with' { x with loops := l }) 0 true)
       && (with' { x with eflags := [(3, [])] }).seqGroup 0 0 == some 0 && decide (5 ≤ (late (with' { x with wait := .cycles 5 }) |>.core 0).cycle)) = true := by
  decide +kernel

/-- A `cp` of 32 bytes from 0x2000 to offset 64, or back; into the window with or without a barrier at offset 256. -/
def cpWord (sub len : Nat) : Fields :=
  { d := 5#8, a := 2#8, b := 6#8, c := 7#8, sub := BitVec.ofNat 4 sub, len := if len = 96 then .l96 else .l64, imm := if len = 96 then 0x80000100#32 else 0#32 }
def copying (s : State) : State := s.setGrp 0 (((s.grp 0).setU 6 64#32).setU 7 32#32)
def copied (f : Fields) : State := after (.cp f) (copying mem1)

/-- An instruction whose tests pass and that then waits: a `cp` on a tag with fifteen copies, a `fork` of a running sequencer. -/
def waitsForRoom (i : Instr) (s : State) : Bool :=
  match fieldsOf i with
  | some f => ofLanes s && s.me.bound && (staticFault s s.cur i).isNone && !waits i (s.view f) s && (debugFault s s.cur).isNone
      && firstCheck (laneTest s i (s.view f) (lateTests i s (s.view f))) (lanesOf (s.view f).act) == .ok && waitsLate i (s.view f) s
  | none => false
theorem witness_WaitsThatComeLate :
    (let s := copying mem1
     waitsForRoom (.cp (cpWord 0 64)) (s.setCore 0 { s.core 0 with tags := [(5, 15)] })
       && waitsForRoom (.fork fork8) (one.setSeq 0 0 { st := 1, started := true })) = true := by decide +kernel

theorem witness_LocalCopies :
    (let s := copying mem1
     [cpWord 0 64, cpWord 0 96, cpWord 1 64].all (fun f => free? s (.cp f) && (s.view f).act != 0#32
       && cpTests s (s.view f).w f (s.xlate 0) == .ok [0x400000])
     && seqRuns (.cp (cpWord 0 64)) (cpWord 0 64) (seqAt 2 s) 2 true && (s.core 0).tagCount 5 == 0
     && cpTests (seqAt 2 s) (seqAt 2 s).me (cpWord 0 64) ((seqAt 2 s).xlateWait 0 0) == .ok [0x400000]
     && [cpWord 0 64, cpWord 0 96, cpWord 1 64].all (fun f => match ((copied f).core 0).copies[0]? with
         | some c => c.n == 32 && c.moved == 0 && c.inn == (f.sub == 0#4) && c.bar == (if f.len = .l96 then some 256 else none) && c.va == 0x2000
         | none => false)
     && (((copied (cpWord 0 96)).core 0).copies[0]?).any (fun c => c.off == 64 && decide (c.off + c.n ≤ 256)) && decode 0 ((encode (.cp (cpWord 0 96))).getD 0#128) == .instr (.cp (cpWord 0 96)) && Memory.wf s.mem && Memory.wf (s.team 0).spad) = true := by decide +kernel

/-- A card at offset 0x80: one row of 32 bytes from 0x2000 to 0x2800, or to offset 0x400 of the window with a barrier word at 256, signalling tag 2
of its own core. -/
def cardBytes (spad : Bool) : List Byte :=
  ([4 * 2 ^ 42 + 3 * 2 ^ 36 + 2 * 2 ^ 30 + 32 * 2 ^ 15 * spad.toNat + 2 ^ 14 * spad.toNat + 2 ^ 13 * spad.toNat, 0x2000, if spad then 0x400 else 0x2800, 2 ^ 24 + 32, 0, 0, 0, 0] : List Nat).flatMap (leBytes 8)
def carded (spad : Bool) : State :=
  let s := mem1.setTeam 0 { mem1.team 0 with spad := writeCells [] 0x80 (cardBytes spad) }
  s.setGrp 0 ((s.grp 0).setU 10 0x80#32)
def jobbed (spad : Bool) : State := after (.job { a := 10#8 }) (carded spad)
def jobId (s : State) : Nat := match s.jobs with | e :: _ => e.1 | [] => 0
def jobAt (s : State) (p : Job → Bool) : Bool := match Tab.find s.jobs (jobId s) with | some x => p x | none => false

theorem witness_CopyJobs :
    ([true, false].all fun spad =>
      let f : Fields := { a := 10#8 }
      let s := carded spad
      let t := jobbed spad
      let u := late (after (.copyJobStart (jobId t)) t)
      let v := after (.copyBytesLand (.job (jobId t)) 32) u
      runs (.job f) f s (jobTests f s) && (s.view f).act != 0#32 && (jobCard f s (s.view f)).2 == some 0 && (s.core 0).tagCount 2 == 0
        && jobAt t (fun x => !x.started) && t.feet.any (fun p => p.job == some (jobId t) && p.edges == [])
        && jobAt u (fun x => let k := cardOf x.words
          x.started && !x.ended && x.tensor.isNone && k.opc == 0 && k.be == spad && (!spad || k.boff == 256) && !unitWaits u x k 0 && k.len == 32 && k.rows == 1 && x.moved == 0 && k.dspc == spad && !k.sspc
            && jobRow u x k 0 == (some 0x2000, some (if spad then 0x400 else 0x2800))
            && (engXlate u x 0x2000 .read).toOption == some 0x402000 && (u.windowOf 0x402000).isNone
            && (spad || ((engXlate u x 0x2800 .write).toOption == some 0x402800 && (u.windowOf 0x402800).isNone)))
        && (u.team 0).bound && Memory.wf u.mem && Memory.wf (u.team 0).spad
        && jobAt v (fun x => x.started && v.reached x.gid x.due x.dueNs && x.moved == 2)) = true := by decide +kernel

/-- A matrix engine with an `mma` before it; all 24 copy engines taken; a job whose link is lost. -/
theorem witness_EnginesTaken :
    (let s := seqAt 0 (late (after (.mma mma9) team1))
     let t := jobbed true
     let full := { t with jobs := t.jobs ++ t.jobs.flatMap fun (e : Nat × Job) => (rangeFrom (10 ^ 6) 24).map fun n => (n, { e.2 with started := true }) }
     seqRuns (.mma mma9) mma9 s 0 (opSeq (.mma mma9) == 0) && s.me.bound && engineBusy s 0 (.mma mma9) && !engineBusy (seqAt 0 team1) 0 (.mma mma9)
       && t.enginesFree && !full.enginesFree && (Tab.find full.jobs (jobId t)).map (·.started) == some false) = true := by decide +kernel

/-! ### Tasks, blocks and tickets -/

/-- `home` with a page table at 0x80000 whose one 2 MiB page lies at 0x400000, and an entry descriptor before PC 0x8000. -/
def paged (s : State) : State :=
  let s := s.setCtx 0 { s.ctx 0 with root := 0x80000 }
  let bs := ([2 ^ 42 + 4 * 2 ^ 46 + 8 * 2 ^ 16 + 8, 2, 0, 0] : List Nat).flatMap (leBytes 8)
  { s with mem := writeCells (writeCells (writeCells [] 0x80000 (leBytes 8 0x90001)) 0x90000 (leBytes 8 0x40001F)) 0x407FE0 bs }
def sys : State := paged home

/-- The entry descriptor there. -/
def desc8 : EntryDesc := { vregs := 8, sregs := 8, spad := 4, barw := 2 }
def lone (s : State) : State := { s with cur := one.cur }

/-- A bind record: kind, PC, ST, and w2 and w3 with its storage; group slot and core are those of its index. -/
def recordAt (kind pc st : Nat) : Bind :=
  { w := ([2 ^ 63 + kind * 2 ^ 60 + pc, 0, 64 * 2 ^ 20 + 256 * 2 ^ 9, 64 * 2 ^ 44 + 4 * 2 ^ 35 + 4 * 2 ^ 26 + 8 * 2 ^ 20, 0, st, 0, 0] : List Nat).map (BitVec.ofNat 64) }
def task8 : Task := ⟨0, 0, 0, 0, 0x8000, [1#32, 2#32, 3#32, 4#32, 5#32, 6#32, 7#32, 8#32], 1⟩
/-- A pool in record 4 and a task in the queue of die 0; result words of one node. -/
def tasked : State :=
  let s := (sys.setBind 4 (recordAt 1 0 1)).setDie 0 { sys.die 0 with tasks := [task8] }
  s.setQueue 0 0 { set := true, log := 4, ring := 0x1000, nodes := [{ words := [0#64, 0#64, 0#64, 0#64] }] }

theorem witness_Tasks :
    (let s := lone (sys.setGrp 0 ((sys.grp 0).setU 2 0x8000#32))
     let f : Fields := { a := 2#8, b := 8#8 }
     runs (.spawn f) f s (spawnTests f s) && (s.view f).act != 0#32 && dieOf 0 < s.dies.length && free? (lone tasked) (.post { a := 2#8 })
       && (Tab.find (tasked.ctx 0).queues 0).map (fun y => y.nodes.length) == some 1
       && (match tasked.readDesc ioUnit 0 0x8000 with | .ok (some d) => d == desc8 | _ => false)
       && (tasked.poolFor 0 1 0 0 0 desc8).map (fun r => (r.1, r.2.slots)) == some (4, (4, 1))) = true := by decide +kernel

/-- The state after a commit of record 5 and before its check. -/
def committed (w0 : DWord) (s : State) : State :=
  let words := w0 :: (rangeFrom 1 7).map fun n => Tab.get (nth 0#64 (s.bind 5).w n) s.pkg.bindSt n
  (({ s.setBind 5 { w := words, ord := s.seqno } with seqno := s.seqno + 1, pkg := { s.pkg with bindSt := [] } }).bindState 5 0 0).bindCtx 5
/-- Record 5 is named, with staged words of a block at 0x8000, or of key 3 that nothing has installed. -/
def staged5 (key : Nat) : State :=
  let w := (recordAt 0 0x8000 0).w
  { sys with pkg := { sys.pkg with bindidx := 5, bindSt := [(2, nth 0#64 w 2), (3, BitVec.ofNat 64 ((nth 0#64 w 3).toNat + key * 2 ^ 10)), (4, 0x80000#64)] } }

theorem witness_BindCommits :
    (let w0 := BitVec.ofNat 64 (2 ^ 63 + 0x8000)
     let s := staged5 0
     s.pkg.bindidx == 5 && (s.bind 5).st == 0 && (committed w0 s).bindCause 5 == 0 && ((committed w0 s).bind 5).kind == 0
       && (committed w0 (staged5 3)).bindCause 5 == 1
       && (let t := { sys.setBind 4 (recordAt 1 0 1) with pkg := { sys.pkg with bindidx := 4 } }
           (t.bind 4).st == 1 && (t.bind 4).kind == 1 && (t.bind 4).w.length == 8 && t.teams.all fun e => e.2.ridx != 4)) = true := by decide +kernel
theorem witness_BindRecordsBind :
    (let s := { sys.setBind 5 (recordAt 0 0x8000 0) with launches := [(7, { ctx := 0, queue := 0, node := 0, det := false, blocks := 1 })] }
     let b := s.bind 5
     b.waiting && b.w.length == 8 && b.restore.isNone && (s.die (bindDie 5)).change.isNone && (s.ctx b.ctx).fixed == (s.die (bindDie 5)).fixed
       && !s.lowerMode 5 && s.coreUp 0 && desc8.team == b.gcnt && !(b.place 5).short (some desc8) && s.bindTurn 5 && s.bindDesc 5 == some desc8 && s.launchOf b.ctx b.queue b.node == some 7
       && (s.usedOn 0).all (fun p => !(b.place 5).meets p) && s.kstFree 0 7) = true := by decide +kernel

/-- A team whose lanes have all exited. -/
def over1 : State := home.setGrp 0 { home.grp 0 with lanes := mkLanes fun _ => {} }
def entry0 : Staged := { role := 0, lane := 0, ord := 0, op := 0, ty := 1, space := .global, va := 0x1000, pa := 0x401000, opnd := 1#32 }
def held0 : SqEntry :=
  { gid := 0, lane := 0, space := .global, va := 0x1000, pa := 0x401000, bytes := leBytes 4 7, kind := .plain, ord := 0 }

theorem witness_GroupsEnd :
    (let s := over1.setTeam 0 { over1.team 0 with staged := [entry0] }
     let two := over1.setGrp 1 { home.grp 0 with role := 1 }
     let rec0 := over1.setBind 0 (recordAt 0 0x8000 1)
     (over1.grp 0).bound && (over1.grp 0).lanes.all (·.pc == exitedPc) && (s.team 0).staged != [] && (over1.grp 0).flagsClear
       && (over1.core 0).sq == [] && (two.groups.filter fun e => e.2.bound && e.2.team == 0).length == 2
       && (rec0.groups.filter fun e => e.2.bound && e.2.team == 0).length == 1 && !rec0.teamBusy 0 && (rec0.team 0).handed == []
       && (rec0.team 0).work == .block && !(rec0.team 0).done && (rec0.bind 0).w.length == 8
       && (rec0.setSeq 0 0 { st := 1, started := true }).teamBusy 0) = true := by decide +kernel
theorem witness_TicketPasses :
    (let l : Launch := { ctx := 0, queue := 0, node := 0, det := true, blocks := 2, ended := [0], wdog := some 5 }
     let s := late { home.setTeam 0 { home.team 0 with block := 1, held := [held0] } with launches := [(0, l)] }
     let t := late { home with launches := [(0, { l with ended := [] })] }
     Tab.find s.launches 0 == some l && l.det && l.ended.contains l.holder && Memory.wf s.mem
       && (s.teams.find? fun e => e.2.bound && !e.2.done && e.2.launch == 0 && e.2.work == .block && e.2.block == 1).map (fun e => e.2.held) == some [held0]
       && l.staged == [] && s.ticketWork 0 && !t.ticketWork 0 && (Tab.find t.launches 0).map (·.wdog) == some (some 5) && decide (5 ≤ t.pkg.wtime)
       && (t.grp 0).bound && (t.team 0).work == .block && (t.team 0).block == 0 && (t.grp 0).trap.frozen.isNone) = true := by decide +kernel

/-! ### Slot blocks and barriers -/

def slotC : Fields := { d := 3#8, a := 2#8, b := 10#8, c := 12#8 }
def slotF : Fields := { len := .l96, d := 9#8, a := 2#8, imm := 2#32 }
/-- A rule that finalises up to two candidates of confidence 0x4000. -/
def ruled : State :=
  let s := blocked 1#32
  s.setCtx 0 { s.ctx 0 with rules := [(2, BitVec.ofNat 64 (2 ^ 63 + 2 * 2 ^ 32 + 0x1000 * 2 ^ 16 + 0x4000))] }

theorem witness_Slots :
    (let s := blocked 1#32
     let bad := s.setGrp 0 ((s.grp 0).setV 12 0xFFFFFFFF#32 fun _ => 0x400000#32)
     [s, bad].all (fun s => runs (.slotSc slotC) slotC s (slotTests slotC .both true s) && (s.view slotC).act == BitVec.twoPow 32 0)
       && (entryOf s (s.view slotC) .both 0x2000 0).st == 0 && ((bad.view slotC).c slotC 0).toNat == 2 ^ 22 && Memory.wf s.mem
       && runs (.slotFin slotF) slotF ruled (finTests slotF ruled) && (ruled.view slotF).act != 0#32
       && (upto 24).all (fun k => ruled.gpa 0 .both (0x2000 + 8 * k) == 0x402000 + 8 * k)
       && (finalised (ruleOf (ruled.ruleWord 0 2).toNat) ((upto 16).map (entryOf ruled (ruled.view slotF) .both 0x2000))) == ([1], false)
       && (finalised { v := true, creg := 0, ord := false, fp := true, k := 2, rth := 0, fth := 0xFFFF }
            ((upto 16).map (entryOf ruled (ruled.view slotF) .both 0x2000))) == ([1], true)) = true := by decide +kernel

def bar1 (n : Nat) : Fields := { d := 1#8, a := 3#8, b := BitVec.ofNat 8 n, bi := true, mod := 1#4 }
def exp1 : Fields := { a := 3#8, b := 16#8, bi := true, mod := 1#4 }
/-- The barrier word at offset 64, where group 1 has arrived as the first of two. -/
def arrived : State :=
  let s := one.setGrp 0 ((one.grp 0).setU 3 64#32)
  let s := s.setGrp 1 { s.grp 0 with
    role := 1, lanes := mkLanes fun l => if l = 0 then { pc := lpcOf 32, wait := .bar 0 64 false (bar1 2) true 3 } else {} }
  s.putBar 0 64 { ph := false, need := 2, hi := 0, arr := 1, pend := 0 }

theorem witness_Barriers :
    (let s := one.setGrp 0 ((one.grp 0).setU 3 64#32)
     s.barTeam 0 exp1 == some 0 && free? s (.barExp exp1) && (s.view exp1).act != 0#32 && (s.barAt 0 64).need == 0
       && decide (64 < 8 * (s.team 0).desc.barw) && ((s.view exp1).w.ur 3).toNat == 64
       && runs (.bar (bar1 2)) (bar1 2) s (barTests (bar1 2) s) && !s.det 0 && Memory.wf (s.team 0).spad && barCount (bar1 2) (s.view (bar1 2)) == 2
       && runs (.bar (bar1 2)) (bar1 2) arrived (barTests (bar1 2) arrived) && arrived.barAt 0 64 == ⟨false, 2, 0, 1, 0⟩ && Memory.wf (arrived.team 0).spad
       && ((arrived.grp 1).lane 0).wait == .bar 0 64 false (bar1 2) true 3 && (arrived.grp 1).bound && (arrived.grp 1).trap.frozen.isNone
       && barOff (bar1 2) (arrived.view (bar1 2)) == 64) = true := by decide +kernel
theorem witness_BarriersSettle :
    (let due := after (.bar (bar1 2)) arrived
     let met := due.takeArrivals
     let first := (after (.bar (bar1 2)) (arrived.putBar 0 64 ⟨false, 0, 0, 0, 0⟩)).takeArrivals
     due.arrivals.length == 1 && due.arrivals.all (fun a => (due.team a.team).bound && !(due.barAt a.team a.off).refuses a.n
         && (let bad := due.putBar a.team a.off ⟨false, 2, 0, 2, 0⟩
             (bad.barAt a.team a.off).refuses a.n && (bad.grp a.gid).trap.frozen.isNone && match ((bad.grp a.gid).lane 0).wait with
               | .bar 0 64 false _ true ord => ord == a.arr.ord | _ => false))
       && [met, first].all (fun t => t.arrivals == []) && [met, first].all (fun t => t.bars == [(0, 64)] && (t.team 0).bound && !t.det 0 && Memory.wf (t.team 0).spad && (t.grp 0).trap.frozen.isNone)
       && met.barAt 0 64 == ⟨false, 2, 0, 2, 0⟩ && first.barAt 0 64 == ⟨false, 2, 0, 1, 0⟩
       && (match ((met.grp 0).lane 0).wait with | .bar 0 64 false _ true _ => true | _ => false)
       && lastArrival ((met.team 0).arrs.filter (·.off == 64)) == met.groupKey (met.grp 0)) = true := by decide +kernel

/-! ### Clocks, registers, translation -/

theorem witness_Clocks :
    (let s := late (home.setDie 0 { home.die 0 with fixed := true, change := some (5, 10) })
     (s.die (dieOf 0)).fixed && !(home.die (dieOf 0)).fixed && (s.die 0).change == some (5, 10) && decide (10 ≤ s.pkg.wtime)
       && decide ((s.die 0).pnext ≤ s.pkg.wtime) && s.dies.length == 4) = true := by decide +kernel
theorem witness_TicketWatchdog :
    (let s := { detBlock.setTeam 0 { detBlock.team 0 with held := [held0] } with launches := detBlock.launches }
     (Tab.find s.launches 0).map (·.det) == some true && s.ticketWork 0) = true := by decide +kernel

def keyed : State := { home with pkg := { home.pkg with keys := [(7, ⟨1#512, 1⟩)] } }
theorem witness_RegistersKeysAndScrubber :
    ((Tab.find keyed.pkg.keys 7).map (·.pair) == some 1#512 && (Tab.find keyed.pkg.keys 8).isNone && home.lineOwner 0 3 == some (0, 0, 3)
      && home.lineOwner 0 300 == none && home.lineParked 0 300 == none && (home.core 0).dbgPc.length == 4 && (home.grp 0).mev == none
      && (home.grp 0).csrw == [] && ((home.setGrp 0 { home.grp 0 with csr := { merrlog0 := 0x8000000000000000#64 } }).grp 0).csr.merrlog0.getLsbD 63) = true := by decide +kernel

/-- R6, R302: the IV of a connection reads as zero, its other words as they are. -/
theorem test_connection_key_words_read_zero :
    (let s := { State.reset with conns := [(3, { w := [(5, 7#64), (8, 9#64)] })] }
     ((s.firmware (.readReg (.connWord 3 8))).firmware (.readReg (.connWord 3 5))).pkg.out == [leBytes 8 0, leBytes 8 7]) = true := by decide +kernel

/-- A miss of block 0x400 and of one whose page is not mapped; walks and an invalidation that are quiet. -/
def missing : State :=
  let s := sys.setCore 0 { sys.core 0 with icMiss := [(0, 0x400), (0, 0x20000)], tlb := [] }
  let s := s.setGrp 0 { s.grp 0 with lanes := mkLanes fun _ => { pc := lpcOf 0x400000 } }
  s.setDie 0 { s.die 0 with walks := [⟨0, 0, [(0, .fetch)]⟩, ⟨0, 0x40, [(0, .read)]⟩], invs := [⟨0, 0, 0x10000, 0⟩], stlb := [⟨0, 0x200000, true, 0, true, true, true, false⟩] }

theorem witness_Translations :
    ((missing.core 0).icMiss.contains (0, 0x400) && (missing.core 0).ic.all (fun y => y.block != 0x400)
      && missing.xlateNow 0 0 0x8000 .fetch == .hit 0x408000 && !(missing.sideOf (0x408000 / 64)).ue && missing.xlateNow 0 0 0x400000 .fetch == .fault 0x20
      && missing.fetchers 0 0 0x20000 == [0] && (match missing.walk 0 0 with | .ok e => e.pa == 0x400000 | .error _ => false)
      && (match missing.walk 0 (65536 * 0x40) with | .error c => c == 0x20 | .ok _ => false) && (missing.grp 0).bound
      && missing.rangeQuiet 0 ⟨0, 0, 0x10000, 0⟩ && (missing.die 0).stlb.length == 1) = true := by decide +kernel

/-! ### Command queues and graphs -/

/-- Queue 0 of context 0, at a ring at 0x1000, with an entry there; `y` overrides what the engine holds of it. -/
def entryOf0 (w : List Nat) (y : Queue) : State :=
  let s := { sys with mem := writeCells sys.mem 0x401000 (w.flatMap (leBytes 8)) }
  let s := s.setCtx 0 { s.ctx 0 with live := true, crbase := 0x3000, crlog := 0 }
  s.setQueue 0 0 { y with set := true, log := 4, ring := 0x1000, tail := 1 }
def cmdQueue (cmd w1 w2 : Nat) : Queue := { cmd := cmd, words := [BitVec.ofNat 64 cmd, BitVec.ofNat 64 w1, BitVec.ofNat 64 w2] }

theorem witness_CommandEntries :
    (let s := entryOf0 [3, 0, 0, 0, 0, 0, 0, 0] {}
     let bad := entryOf0 [9, 0, 0, 0, 0, 0, 0, 0] {}
     let c := entryOf0 [] { cmdQueue 3 0 0 with done := true }
     [s, bad].all (fun s => (s.ctx 0).live && (s.queue 0 0).set && !(s.queue 0 0).stopped && (s.queue 0 0).cmd == 0 && (s.queue 0 0).head != (s.queue 0 0).tail
       && (s.readVirt ioUnit 0 0x1000 64).toOption.isSome)
     && !entryBad [3, 0, 0, 0, 0, 0, 0, 0] && entryBad [9, 0, 0, 0, 0, 0, 0, 0]
     && (s.readVirt ioUnit 0 0x1000 64).toOption.map (fun bs => leVal (bs.take 8)) == some 3
     && ((entryOf0 [] (cmdQueue 2 0 0)).queue 0 0).cmd == 2 && ((entryOf0 [] (cmdQueue 2 0 16)).queue 0 0).word 2 / 2 ^ 4 == 1
     && (c.queue 0 0).done && (c.ctx 0).ringRoom && (c.ctx 0).crbase % 16 == 0 && c.xlateNow ioUnit 0 0x3000 .write == .hit 0x403000
     && (c.xlateNow ioUnit 0 0 .write).code == 0 && Memory.wf c.mem) = true := by decide +kernel

/-- A grid descriptor at 0x5000: one block of PC 0x8000. -/
def gridBytes : List Byte := ([0x8000, 2 ^ 44 + 2 ^ 41 + 2 ^ 32 + 2 ^ 16 + 1, 0, 0] : List Nat).flatMap (leBytes 8)
/-- A frontier descriptor at 0x6000: PC 0x8000, one axis of 100 points. -/
def frontBytes : List Byte := ([0x8000, 2 ^ 36 + 99, 0, 0, 0, 0, 0, 0] : List Nat).flatMap (leBytes 8)
/-- A node record; a grid descriptor without a cluster shape lies at 0x7000. -/
def nodeRecord (npred kind desc succ0 succ1 ntask : Nat) : List Nat := [npred * 2 ^ 16 + kind, desc, succ1 * 2 ^ 16 + succ0, ntask, 0, 0, 0, 0]
def nodeOf (r : List Nat) : Node := { words := (r.take 4).map (BitVec.ofNat 64) }
def graphed (records : List (List Nat)) (y : Queue) : State :=
  let s := entryOf0 [] y
  { s with mem := writeCells (writeCells (writeCells (writeCells s.mem 0x405000 gridBytes) 0x406000 frontBytes) 0x407000 (leBytes 8 0x8000)) 0x402000 (records.flatten.flatMap (leBytes 8)) }

theorem witness_CommandGraphs :
    ([([nodeRecord 0 0 0x5000 1 0xFFFF 0, nodeRecord 1 3 0 0xFFFF 0xFFFF 0], 0), ([nodeRecord 0 3 0 0xFFFF 0xFFFF 0, nodeRecord 0 4 0 0xFFFF 0xFFFF 0], 2),
        ([nodeRecord 0 0 0x7000 0xFFFF 0xFFFF 0], 3)].all fun t =>
      let n := t.1.length
      let s := graphed t.1 (cmdQueue 1 0x2000 n)
      let y := s.queue 0 0
      y.cmd == 1 && !y.done && y.nodes == [] && y.fail.isNone && y.backs == [] && y.word 2 % 2 ^ 16 == n
        && (List.range n).all (fun k => (s.readVirt ioUnit 0 (0x2000 + 64 * k) 64).toOption.map (fun bs => (dwords bs 8).map (·.toNat)) == some (nth [] t.1 k))
        && (match t.2 with
            | 0 => t.1.all (nodeGood n) && t.1.all (fun r => s.nodeCheck 0 (nodeOf r) == 0) && t.1.any (fun r => (nodeOf r).npred == 0)
            | 2 => nodeGood n (nth [] t.1 0) && !nodeGood n (nth [] t.1 1)
            | _ => nodeGood n (nth [] t.1 0) && s.nodeCheck 0 (nodeOf (nth [] t.1 0)) == 3)) = true := by decide +kernel

theorem witness_GraphNodesStart :
    (let at' := fun (x : Node) => graphed [] { cmdQueue 1 0x2000 2 with nodes := [x, nodeOf (nodeRecord 1 3 0 0xFFFF 0xFFFF 0)] }
     let start := fun (s : State) => let y := s.queue 0 0
       let x := y.node 0
       y.cmd == 1 && !y.done && y.fail.isNone && y.backs == [] && y.nodes.length == 2 && x.st == 0 && decide (x.npred ≤ x.taken + x.skipped)
     let skip := { nodeOf (nodeRecord 1 3 0 1 0xFFFF 0) with skipped := 1 }
     let grid := at' (nodeOf (nodeRecord 0 0 0x5000 1 0xFFFF 0))
     let front := at' (nodeOf (nodeRecord 0 1 0x6000 1 0xFFFF 0))
     start (at' skip) && start grid && start front && start (at' (nodeOf (nodeRecord 0 2 0 1 0xFFFF 0))) && start (at' (nodeOf (nodeRecord 0 3 0 1 0xFFFF 0)))
       && (grid.gridCheck 0 0x5000).1 == 0 && (grid.gridCheck 0 0x5000).2.pgt == 0 && (front.frontCheck 0 0x6000).1 == 0
       && splits (sweepOf (nth 0#64 (front.frontCheck 0 0x6000).2 1).toNat (nth 0#64 (front.frontCheck 0 0x6000).2 2).toNat) 4 0) = true := by decide +kernel
theorem witness_GraphNodesComplete :
    (let s := graphed [] { cmdQueue 1 0x2000 2 with
       nodes := [{ nodeOf (nodeRecord 0 3 0 1 0xFFFF 0) with st := 1, launch := 9 }, nodeOf (nodeRecord 1 3 0 0xFFFF 0xFFFF 0)] }
     let x := (s.queue 0 0).node 0
     s.nodeDone 0 0 0 && (s.queue 0 0).fail.isNone && (s.queue 0 0).backs == [] && decide (0 < x.succ0) && x.holds && decide (0 < x.succ1)
       && x.succ0 != x.succ1 && decide (x.succ0 < (s.queue 0 0).nodes.length)) = true := by decide +kernel

/-! ### The frontier store -/

/-- A state whose slot 0 of die 0 is `x`, with the frontier descriptor at 0x6000. -/
def fronted (x : Front) : State := (graphed [] {}).setFront 0 0 x
/-- A command for slot 0: its OP and address. -/
def frWord (op addr : Nat) : DWord := BitVec.ofNat 64 (op * 2 ^ 60 + addr)
def line100 : Front := { st := 1, words := dwords frontBytes 6 }
def ended5 : Point := { lin := 5, ended := true }
def saved5 : Point := { lin := 5, saved := true, cimg := 0x9000 }
/-- Two axes of 4 and 10 points with the dependence (1, 0); rows 2 and 3, or rows 0 and 1. -/
def half2 (a b : Nat) : Front :=
  { st := 1, words := [0x8000#64, BitVec.ofNat 64 (2 ^ 38 + 2 ^ 37 + 9 * 2 ^ 12 + 3), 1#64, 0#64, 0#64, 0#64], rfirst := a, rlast := b, rows := [(a, 0#32), (b, 2#32)] }

theorem witness_FrontierPoints :
    (rowCount (Machine.rowWord 3 2) == 3 && line100.nextPoint == some 0 && (fronted line100).dies.length == 4 && ((fronted line100).die 0).fronts.length == 16
      && ((fronted line100).front 0 0).nextPoint == some 0 && ((fronted line100).front 0 0).st == 1
      && (let x := (fronted { line100 with pts := [ended5] }).front 0 0
          x.st == 1 && x.pts == [ended5])
      && (let s := late (fronted { line100 with st := 2, due := 9, pts := [{ lin := 5, team := some 3 }] })
          (s.front 0 0).st == 2 && !(s.front 0 0).expired && decide ((s.front 0 0).due ≤ s.pkg.wtime))
      && (let s := (fronted (half2 2 3)).setFront 0 1 (half2 0 1)
          (s.front 0 0).st == 1 && (s.front 0 0).haloRows.contains 1 && s.ownerWord (s.front 0 0) 1 == some 2#32)) = true := by decide +kernel
theorem witness_FrontierCommands :
    (let s := fronted {}
     let v := sweepOf (nth 0#64 (s.frontCheck 0 0x6000).2 1).toNat (nth 0#64 (s.frontCheck 0 0x6000).2 2).toNat
     (s.front 0 0).st == 0 && (s.frontCheck 0 0x6000).1 == 0 && v.partFits ((s.die 0).frcmd.toNat % 2 ^ 14) ((s.die 0).frcmd.toNat / 2 ^ 14 % 2 ^ 14)
       && (s.frontCheck 0 0x7000).1 != 0 && (frWord 1 0x6000).toNat / 2 ^ 60 == 1 && (frWord 1 0x6000).toNat % 2 ^ 48 == 0x6000
       && ((fronted { line100 with pts := [{ lin := 5, team := some 3 }] }).front 0 0).st == 1 && ((fronted { line100 with pts := [saved5] }).front 0 0).st == 1
       && ((fronted { line100 with st := 3, pts := [saved5] }).front 0 0).st == 3 && ((fronted { line100 with st := 4 }).front 0 0).st == 4
       && s.frontImage 0 0x500000 == none
       && (let y := { line100 with rows := [(0, 0#32)], pts := [saved5] }
           let t := { s with mem := writeCells s.mem 0x500000 y.image }
           (t.front 0 0).st == 0 && (t.frontImage 0 0x500000).map (fun z => (z.words, z.rows, z.pts)) == some (y.words, y.rows, y.pts))) = true := by
  decide +kernel

/-! ### Pre-emption -/

/-- Group 0 with every lane stopped, or waiting at `commit`, under a stop request whose watchdog ends at 5. -/
def stopped0 (n : Lane) : State :=
  let s := home.setTeam 0 { home.team 0 with stop := some { image := 0x500000, due := 5 } }
  late (s.setGrp 0 { s.grp 0 with lanes := mkLanes fun _ => n })
def speculative (p : Option Nat) (s : State) : State := s.setCtx 0 { s.ctx 0 with spec := true, pending := p }

theorem witness_StopsAndWatchdogs :
    (let s := stopped0 { pc := lpcOf 32, stopped := true }
     let t := speculative (some 7) (stopped0 { pc := lpcOf 32, wait := .commit })
     let u := speculative none home
     (s.team 0).bound && (s.team 0).stop.isSome && !(s.ctx (s.team 0).ctx).spec && s.groupStopped 0 && (s.team 0).desc.team == 0 && s.enginesDone 0 && s.teamStored 0
       && decide (5 ≤ s.pkg.wtime) && (u.team 0).bound && !(u.team 0).done && (u.ctx (u.team 0).ctx).spec && (u.ctx (u.team 0).ctx).pending.isNone && u.pkg.prcmd == 0#64
       && (t.ctx 0).spec && (t.ctx 0).pending == some 7 && (t.groupsOf 0).all t.atCommit && !(t.groupsOf 0).isEmpty && decide (7 ≤ t.pkg.wtime)
       && t.teams.all (fun e => !(e.2.bound && e.2.ctx == 0) || (t.enginesDone e.1 && t.teamStored e.1 && (t.team e.1).stop.isSome))) = true := by decide +kernel

/-- The team that the pool of record 4 has bound, stopped and off its core. -/
def parked4 : State :=
  let s := after (.taskDispatch 0 0) tasked
  let s := s.setTeam 4 { s.team 4 with stop := some { image := 0x500000, due := 5 } }
  let s := s.setGrp 4 { s.grp 4 with lanes := mkLanes fun l => if l = 0 then { pc := lpcOf 0x8000, stopped := true } else {} }
  let s := after (.teamStopped 4) s
  { s with pkg := { s.pkg with prcmd := 4#64 } }

theorem witness_ScrubOfAStoppedTeam :
    (parked4.lineOwner 0 257 == none && parked4.lineParked 0 257 == some (0, 0, 1) && parked4.parked.all fun p => p.groups.length == 1) = true := by
  decide +kernel

theorem witness_FlushRestoreAndResume :
    (parked4.parked.map (fun p => (p.gid0, p.saved, p.image)) == [(4, [], 0x500000)] && !(parked4.team 4).bound && (parked4.bind 4).v && (parked4.bind 4).kind == 1
      && (parked4.bind 4).st == 1 && (parked4.parkedHere 4 0x500000).map (·.1) == some 0
      && (headerOfImage (parked4.restoreHeader 4 0x500000)).fits (parked4.bind 4) 4
      && parked4.parked.all (fun p => (parked4.usedOn 0).all (fun u => !p.team.place.meets u) && parked4.kstFree 0 p.team.launch)
      && parked4.coreUp 0 && (parked4.bind 4).eclass != 3 && parked4.parked.all (fun p =>
        ({ parked4 with teams := [] }.setCore 0 { parked4.core 0 with owner := some p.team.launch }).ownsKst 0 p)
      && parked4.pkg.prcmd.toNat % 2 ^ 15 == 4 && (frWord 1 0x500000).toNat % 2 ^ 48 / 4096 * 4096 == 0x500000
      && (home.team 0).bound && !(home.ctx (home.team 0).ctx).spec && home.pkg.prcmd == 0#64) = true := by decide +kernel

/-! ### The network -/

def conned (n : Nat) (x : Conn) (s : State) : State := s.setConn n x
/-- An established connection with a reading due on the slot block at 0x1000, or at a page that is not mapped; its three tokens are final. -/
def streaming (block : Nat) : State :=
  let s := { sys with mem := writeCells sys.mem 0x401000 (leBytes 8 (3 * 2 ^ 48 + 3 * 2 ^ 32 + 8) ++ leBytes 56 0 ++ [21, 25, 29].flatMap (leBytes 8)) }
  conned 3 { w := [(0, BitVec.ofNat 64 (2 * 2 ^ 60)), (14, BitVec.ofNat 64 block)], due := 1 } s
/-- Both ports with an MTU of 1500 and a ring of 16 slots at 0x10000; a frame of 20 bytes. -/
def netBytes : List Byte := List.replicate 6 0#8 ++ leBytes 2 1500 ++ List.replicate 20 0#8 ++ leBytes 8 0x10000 ++ [4#8] ++ List.replicate 91 0#8
def frame20 : List Byte := List.replicate 12 0#8 ++ [0x08#8, 0x06#8] ++ List.replicate 6 1#8
def listening : State := { sys with pkg := { sys.pkg with netcfg := netBytes ++ netBytes } }
/-- A TCP segment from 10.0.0.2:1234 to 10.0.0.1:80 with ACK of 9, a window of 512 and `n` bytes, and its connection. -/
def segment (n : Nat) : List Byte :=
  List.replicate 12 0#8 ++ beBytes 2 0x0800 ++ [0x45#8, 0#8] ++ beBytes 2 (40 + n) ++ List.replicate 5 0#8 ++ [6#8, 0#8, 0#8] ++ beBytes 4 0x0A000002
    ++ beBytes 4 0x0A000001 ++ beBytes 2 1234 ++ beBytes 2 80 ++ beBytes 4 100 ++ beBytes 4 9 ++ [0x50#8, 0x10#8] ++ beBytes 2 512
    ++ List.replicate 4 0#8 ++ List.replicate n 7#8
def peer3 : State :=
  let w := [(0, 2 * 2 ^ 60 + 80 * 2 ^ 16 + 1234), (1, 0x0A000001), (3, 0x0A000002), (5, 9 * 2 ^ 32 + 7), (6, 100 * 2 ^ 32 + 512 * 2 ^ 16 + 1460)]
  conned 3 { w := w.map fun e => (e.1, BitVec.ofNat 64 e.2) } listening
theorem witness_Segments :
    ([0, 4].all fun n =>
      let f := readFrame (segment n)
      peer3.connFor 0 f == some 3 && !f.frag && decide (14 ≤ (segment n).length) && f.load == n && f.acks && f.seq == (peer3.conn 3).rcvNxt
        && (peer3.conn 3).st == 2 && decide (seqApart f.ack (peer3.conn 3).sndUna ≤ (peer3.conn 3).flight) && nth 0 peer3.pkg.rxTail 0 == 0
        && decide ((segment n).length ≤ leVal (((peer3.portHalf 0).drop 6).take 2) + 14)) = true := by decide +kernel
theorem witness_SegmentPlaced : ∃ u, ({ peer3 with fresh := peer3.fresh + 8 }.setConn 3 ((peer3.conn 3).segment (readFrame (segment 4)) peer3.fresh)).writeVirt
    ioUnit peer3.pkg.netctx 0x10000 (leBytes 4 58 ++ leBytes 4 3 ++ leBytes 8 0 ++ segment 4) = .ok u :=
  writeVirt_page _ _ _ _ _ (by decide +kernel) (by decide +kernel) (by decide +kernel)

theorem witness_Connections :
    (let w0 := BitVec.ofNat 64 (2 ^ 60 + 80)
     (sys.conn 3).st == 0 && bits w0.toNat 62 60 == 1 && bits w0.toNat 57 56 == 0 && [2, 3, 4, 5, 6].all (fun st =>
       ((conned 3 { w := [(0, BitVec.ofNat 64 (st * 2 ^ 60))] } sys).conn 3).st == st)
     && (let s := streaming 0x1000
         let x := s.conn 3
         x.st == 2 && x.due == 1 && (s.readBlock { x with due := 0, hand := 1 } 0).map (fun z => z.word 15) == some 3)
     && (let s := streaming 0x400000
         (s.conn 3).due == 1 && s.readBlock { s.conn 3 with due := 0, hand := 1 } 0 == none)
     && listening.pkg.netcfg != [] && listening.connFor 0 (readFrame frame20) == none && !(readFrame frame20).frag && frame20.length == 20
     && byteAt (listening.portHalf 0) 36 == 4 && nth 0 listening.pkg.rxTail 0 == 0
     && (listening.writeVirt ioUnit listening.pkg.netctx 0x10000 (leBytes 4 20 ++ leBytes 4 (2 ^ 32 - 1) ++ leBytes 8 0 ++ frame20)).toOption.isSome) = true := by
  decide +kernel

/-- The hypotheses on a reading: a string that ends at the second token; none, with the block at its end or short of it. -/
theorem witness_Reading :
    (let ends := fun (ss : List (List Nat)) (ts : List Nat) (j : Nat) (x : List Nat) =>
      x ∈ ss ∧ x ≠ [] ∧ j ≤ ts.length ∧ x.length ≤ j ∧ (ts.take j).drop (j - x.length) = x
     (ends [[5, 6]] [1, 5, 6] 3 [5, 6] ∧ (∀ i y, i < 3 → ¬ends [[5, 6]] [1, 5, 6] i y) ∧ ∀ y, ends [[5, 6]] [1, 5, 6] 3 y → y.length ≤ 2)
       ∧ (∀ j x, ¬ends [] [1, 5] j x) ∧ 2 ≤ 0 + ([1, 5] : List Nat).length ∧ 0 + ([1, 5] : List Nat).length < 10) := by
  refine ⟨⟨by decide, ?_, ?_⟩, by simp, by decide, by decide⟩
  · rintro i y hi ⟨hy, -, -, hl, he⟩
    obtain rfl := List.mem_singleton.mp hy
    obtain rfl : i = 2 := by simp at hl; omega
    simp at he
  · rintro y ⟨hy, -⟩
    obtain rfl := List.mem_singleton.mp hy
    decide

/-! ### The host port, boot and failures -/

/-- A command in the mailbox of a package with keys 7 and 0, whose context 0 lives or does not. -/
def asked (live : Bool) (w : List Nat) : State :=
  let s := sys.setCtx 0 { sys.ctx 0 with live := live }
  { s with pkg := { s.pkg with mbBusy := true, mailbox := (w ++ List.replicate (8 - w.length) 0).map (BitVec.ofNat 64), keys := [(7, ⟨1#512, 1⟩)] } }

theorem witness_HostCommands :
    (let s := asked true [1, 7 * 2 ^ 6 + 1, 0x3000, 0, 0, 0, 0, 0]
     s.pkg.mbBusy && s.mbWord 0 == 1 && s.mbCtx == 1 && s.createGood && !(s.ctx 1).live && s.frameOk 0x100000 (2 ^ 17)
     && !(asked true [1, 0, 0, 0, 0, 0, 0, 1]).createGood && !((asked false [2]).ctx 0).live
     && [2, 3, 4, 5, 6, 7, 8].all (fun k => (asked false [k]).mbWord 0 == k)
     && ((asked true [3, 4 * 2 ^ 16, 0x1000]).ctx 0).live && ((asked true [3, 4 * 2 ^ 16, 0x1000]).queue 0 0).cmd == 0
     && ruleGood (2 ^ 63 + 2 ^ 32) && ((asked true [4, 0, 2 ^ 63 + 2 ^ 32]).ctx 0).queues == []
     && (let s := asked true [5, 0, 0xE000]
         let t := { s with mem := writeCells s.mem 0x40E000 (netBytes ++ netBytes) }
         (t.hostRead (t.mbWord 2) 256) == some (netBytes ++ netBytes) && portGood netBytes && t.conns == [])
     && (let s := asked true [8, 0, 0x400000, 1]
         !s.isMapped 0 0x400000 && [0x600000].all (s.pageOk false)
           && (State.mapPages 0 false [(0x400000, 0x600000)] s [0x120000]).isSome)) = true := by decide +kernel
/-- A page of expander 0 is mapped, once it has been zeroed. -/
def tierAsked : State :=
  let s := asked true [8, 2 ^ 8, 0x400000, 1]
  { s with pkg := { s.pkg with expand := [2 ^ 28, 0, 0, 0] } }
/-- The mapping succeeds in a state that has the same tables. -/
theorem tierAsked_maps (u : State) (e : u.pte 0x80000 0 = tierAsked.pte 0x80000 0) (f : u.pte 0x90000 2 = tierAsked.pte 0x90000 2)
    (pkg : u.pkg = tierAsked.pkg) (ctxs : u.ctxs = tierAsked.ctxs) : (State.mapPages 0 true [(0x400000, 2 ^ 50)] u [0x120000]).isSome = true := by
  have root : (u.ctx 0).root = 0x80000 := by rw [State.ctx, ctxs]; decide +kernel
  have table : u.frameOk 0x120000 256 = true := by rw [State.frameOk, State.backed, pkg]; decide +kernel
  have a : u.tableAt 0x80000 0 65536 [0x120000] = some (0x90000, u, [0x120000]) := by
    simp only [State.tableAt, e, show tierAsked.pte 0x80000 0 = 0x90001 by decide +kernel]; rfl
  have b : (u.tableAt 0x90000 2 256 [0x120000]).isSome = true := by
    simp only [State.tableAt, f, show tierAsked.pte 0x90000 2 = 0 by decide +kernel, table]; rfl
  simp only [State.mapPages, State.mapPage, State.putLeaf, if_true, root, show bits 0x400000 47 34 = 0 by decide, show bits 0x400000 33 21 = 2 by decide, a]
  cases h : u.tableAt 0x90000 2 256 [0x120000] with
  | none => simp [h] at b
  | some x => rfl
theorem witness_MapOfATierPage : [2 ^ 50].all (tierAsked.pageOk true) = true
    ∧ (State.mapPages 0 true [(0x400000, 2 ^ 50)] ([2 ^ 50].foldl (State.zeroTier (tierAsked.ctx 0).key) tierAsked) [0x120000]).isSome = true := by
  refine ⟨by decide +kernel, ?_⟩
  rw [List.foldl_cons, List.foldl_nil]
  obtain ⟨e, pkg, ctxs⟩ := State.zeroTier_pte (tierAsked.ctx 0).key tierAsked (2 ^ 50) 0x80000 0 (by decide +kernel) (fun k h => by omega)
  obtain ⟨f, -, -⟩ := State.zeroTier_pte (tierAsked.ctx 0).key tierAsked (2 ^ 50) 0x90000 2 (by decide +kernel) (fun k h => by omega)
  exact tierAsked_maps _ e f pkg ctxs

/-- ATTEST writes to 0xC000; MANIFEST reads at 0xC000 and writes its result to 0xD000. -/
def attested : State := asked true [6, 0, 0, 0, 0, 0, 0xC000]
def compared : State := asked true [7, 0, 0xC000, 0xD000]

theorem witness_Attest : attested.pkg.mbBusy = true ∧ attested.mbWord 0 = 6 ∧ attested.mbWord 6 / 2 ^ 30 = attested.mbCtx ∧
    ∃ u, { attested with fresh := attested.fresh + 8192 }.hostWrite (attested.mbWord 6)
      (attested.reportBody ((List.range 4).flatMap fun n => leBytes 8 (attested.mbWord (2 + n)))
        ++ identitySign (attested.fresh + 4096) (attested.reportBody ((List.range 4).flatMap fun n => leBytes 8 (attested.mbWord (2 + n))))) = some u := by
  refine ⟨by decide +kernel, by decide +kernel, by decide +kernel, hostWrite_page _ _ 0xC000 _ (by decide +kernel) (by decide +kernel) ?_ ?_ ?_ (by decide +kernel)⟩
  · rw [List.length_append, reportBody_length _ _ (by decide +kernel) (by decide +kernel), identitySign_length]
    decide
  · exact fun e => absurd (congrArg List.length (List.append_eq_nil_iff.mp e).2) (by rw [identitySign_length]; decide)
  · rw [apCrosses, List.length_append, reportBody_length _ _ (by decide +kernel) (by decide +kernel), identitySign_length]
    decide +kernel

theorem witness_Manifest : compared.mbWord 0 = 7 ∧ compared.mbWord 2 / 2 ^ 30 = compared.mbCtx ∧ compared.mbWord 3 / 2 ^ 30 = compared.mbCtx ∧
    ∃ m u, compared.readManifest (compared.mbWord 2) = some m ∧ { compared with fresh := compared.fresh + 4096 }.hostWrite (compared.mbWord 3)
      (leBytes 8 (compared.compare m) ++ leBytes 8 0) = some u := by
  refine ⟨by decide +kernel, by decide +kernel, by decide +kernel, List.replicate 128 0#8, ?_⟩
  obtain ⟨u, e⟩ := hostWrite_page { compared with fresh := compared.fresh + 4096 } (compared.mbWord 3) 0xD000
    (leBytes 8 (compared.compare (List.replicate 128 0#8)) ++ leBytes 8 0) (by decide +kernel) (by decide +kernel) (by simp) (by simp [leBytes])
    (by rw [apCrosses, List.length_append, leBytes_length, leBytes_length]; decide +kernel) (by decide +kernel)
  exact ⟨u, by decide +kernel, e⟩

theorem witness_DoorbellsAndAperture :
    (let s := entryOf0 [3] {}
     (s.ctx 0).live && (s.queue 0 0).set && decide ((1 + 2 ^ 32 - (s.queue 0 0).head) % 2 ^ 32 ≤ 2 ^ (s.queue 0 0).log)
       && decide (2 ^ (s.queue 0 0).log < (17 + 2 ^ 32 - (s.queue 0 0).head) % 2 ^ 32) && (s.ctx 0).crtail == 0
       && decide (2 ^ (8 + (s.ctx 0).crlog) < ((s.ctx 0).crtail + 2 ^ 32 - 1) % 2 ^ 32) && (s.ctx 0).hapbase == 0 && decide (0x1000 % 2 ^ 30 + 8 ≤ 2 ^ 30) && decide (2 ^ 30 < (2 ^ 30 - 4) % 2 ^ 30 + 8)
       && (s.readVirt ioUnit 0 0x1000 8).toOption == some (leBytes 8 3) && (s.writeVirt ioUnit 0 0x1000 [1#8]).toOption.isSome
       && (s.readVirt ioUnit 0 0x400000 8).toOption.isNone && (s.writeVirt ioUnit 0 0x400000 [1#8]).toOption.isNone) = true := by decide +kernel

def booting (b : Boot) : State := { home with pkg := { home.pkg with boot := b } }
/-- A job that uses link 3. -/
def linked : State :=
  let t := after (.copyJobStart (jobId (jobbed false))) (late (jobbed false))
  match Tab.find t.jobs (jobId t) with
  | some x => { t with jobs := Tab.set t.jobs (jobId t) { x with link := some 3 }, pkg := { t.pkg with windows := [(0, [0x400000, 0x200000, 5, 0])] } }
  | none => t

-- R401, R402: ECDSA over P-256 with SHA-256, NIST's public vector for "sample"; R302: AES-128-GCM, test case 2 of its designers
theorem test_ecdsa : ecdsaVerify 0x60FED4BA255A9D31C961EB74C6356D68C049B8923B61FA6CE669622E60F29FB6
    0x7903FE1008B8BC99A41AE9E95628BC64F2F1B20C2D7E9F5177A3C294D4462299 (beVal (sha256 [0x73#8, 0x61#8, 0x6D#8, 0x70#8, 0x6C#8, 0x65#8]))
    0xEFD48B2AACB6A8FD1140DD9CD45E81D69D2C877B56AAF991C34D0EA84EAF3716
    0xF7CB1C942D657C41D436C7A1B6E29F65F3E900DBB9AFF4064DC4AB2F843ACDA8 = true := by decide +kernel
theorem test_gcm : gcmSeal (beBytes 16 0) (beBytes 12 0) [] (beBytes 16 0)
    = beBytes 32 0x0388DACE60B6A392F328C2B971B2FE78AB6E47D42CEC13BDF53A67B21257BDDF := by decide +kernel

/-- A bundle of four bytes, signed with the private key that belongs to NIST's public example key. -/
def bundle4 : Bundle :=
  { header := [0x4A#8, 0x42#8, 0x34#8, 0x46#8] ++ List.replicate 60 0#8, magic := [0x4A#8, 0x42#8, 0x34#8, 0x46#8], version := 1, length := 4
    keyX := 0x60FED4BA255A9D31C961EB74C6356D68C049B8923B61FA6CE669622E60F29FB6
    keyY := 0x7903FE1008B8BC99A41AE9E95628BC64F2F1B20C2D7E9F5177A3C294D4462299, image := [1#8, 2#8, 3#8, 4#8]
    sig := beBytes 32 108478302882382504386260635397250479524259298414270181541635698882548524332822
      ++ beBytes 32 39121441577103511050890662248672404137966868016586009192997085614048919625325, faddr := 0x123 }
theorem witness_Bundles : bundleGood (keyHash bundle4) bundle4 = true
    ∧ bundleGood (keyHash bundle4) { bundle4 with image := [1#8, 2#8, 3#8, 5#8] } = false := by decide +kernel

theorem witness_BootFailuresAndPeers :
    ((booting (.fetch 0 0)).pkg.boot == .fetch 0 0 && (booting (.wait 0 0)).pkg.boot == .wait 0 0
      && !linked.pkg.links.contains 3
      && linked.jobs.length == 1 && jobAt linked (fun x => x.started && !x.ended && x.link == some 3 && x.moved == 0
        && decide (x.moved < (cardOf x.words).rows * ((cardOf x.words).len / 16)) && unitRemote linked x (cardOf x.words) 0 == some 0x2000) && Tab.find home.pkg.l2p 0 == some 259
      && Memory.wf home.mem && (home.sideOf (0x401000 / 64)).key == 0 && (home.sideOf (0x401000 / 64)).gen == home.keyGenOf 0
      && !home.backed (512 * 10 ^ 9) 1 && decide (0x401000 + 8 ≤ 512 * 10 ^ 9) && decide (0x401000 % 64 + 8 ≤ 64)) = true := by decide +kernel

/-- The page table of `sys` with a page of the far tier on expander 2 at VA 0x200000. -/
def tiered : State :=
  let s := { sys with pkg := { sys.pkg with expand := [0, 0, 2 ^ 28, 0] } }
  { s with mem := writeCells s.mem 0x90008 (leBytes 8 (6 * 2 ^ 48 + 0x3F)) }
theorem witness_ExpanderLoss : tiered.ctxs.map (·.1) = [0] ∧ tiered.holdsTier 0 2 = true := by
  refine ⟨by decide +kernel, List.any_eq_true.mpr ⟨0, mem_upto.mpr (by decide), Bool.and_eq_true_iff.mpr ⟨by decide +kernel, ?_⟩⟩⟩
  refine List.any_eq_true.mpr ⟨1, mem_upto.mpr (by decide), ?_⟩
  exact (by decide +kernel : (let e := tiered.pte 0x90000 1
    tiered.checkPte 2 e == 0 && (if bit e 1 then bit e 5 && pteBase e / 2 ^ 48 == 4 + 2 else false)) = true)
theorem witness_WalkOfATierPage : (match tiered.walk 0 (65536 * 0x20) with | .ok e => e.tier | .error _ => false) = true := by decide +kernel
theorem witness_Boot : 0 < bootTargets ∧ bootTargets ≤ bootTargets - 1 + 1 := by
  have h : bootTargets = min 8 (bootMore.length + 1) := rfl
  omega

/-- Group 0 frozen by a tier-miss of a 64 KiB page at VA 0x200000 on expander 2, with firmware. -/
def farMiss (tier : Bool) : State :=
  let s := { sys with pkg := { sys.pkg with expand := [0, 0, 2 ^ 28, 0] } }
  let m := writeCells (writeCells s.mem 0x90008 (leBytes 8 0xA0001)) 0xA0000 (leBytes 8 (if tier then 6 * 2 ^ 48 + 0x3F else 0x70001F))
  let s := { s with mem := writeCells m (6 * 2 ^ 48 + 0x1234) [1#8, 2#8, 3#8] }
  s.setGrp 0 { s.grp 0 with trap := { frozen := some { code := 0x22, pc := 32, planes := 1#32, addr := 0x201234 }, toFw := true } }
theorem witness_PageIn :
    ([(true, 6 * 2 ^ 48 + 0x3F), (false, 0x70001F)].all fun (c : Bool × Nat) =>
      let s := farMiss c.1
      let x : Leaf := { table := 0xA0000, index := 0, word := c.2, va := 0x200000, size := 65536 }
      s.pkg.prcmd == 0#64 && (s.grp 0).bound && (s.grp 0).trap.toFw && (s.grp 0).trap.frozen.isSome && (s.grp 0).lanes.all (·.wait == .run)
        && s.leafOf 0 0x201234 == some x && Memory.wf s.mem && !s.pageBusy 0 x && decide (0xA0000 / 64 < 0x700000 / 64)) = true := by decide +kernel

/-- A text section whose first field is absolute and whose second is relative to the cluster; one that names an unmapped site. -/
def text8 : Text := { base := 0x8000, size := 0x100, recs := [⟨0x20, 2, 0, 0⟩, ⟨0x30, 1, 0, 0⟩] }
theorem witness_Relocation :
    (let s := graphed [nodeRecord 0 0 0x5000 0xFFFF 0xFFFF 0] (cmdQueue 1 0x2000 1)
     let n := nodeOf (nodeRecord 0 0 0x5000 0xFFFF 0xFFFF 0)
     s.nodeCheck 0 { n with text := some text8 } == 0 && (s.gridCheck 0 n.desc).1 == 0 && n.kind == 0
       && [Reloc.mk 0 3 0 0, ⟨0, 1, 1, 0⟩, ⟨0, 1, 0, 1⟩, ⟨0, 2, 0, 48⟩, ⟨0, 2, 0, 1⟩].all (fun r => s.nodeCheck 0 { n with text := some { text8 with recs := [r] } } == 6)
       && (nodeOf (nodeRecord 0 1 0x6000 0xFFFF 0xFFFF 0)).kind == 1 && ({ text8 with front := false } : Text).front == false
       && Tab.find s.pkg.l2p 0 == some 259 && s.xlateNow ioUnit 0 0x802C .fetch == .hit 0x40802C && Memory.wf s.mem
       && (s.sideOf (0x40802C / 64)).key == (s.ctx 0).key && (s.sideOf (0x40802C / 64)).gen == s.keyGenOf (s.ctx 0).key
       && (State.placeAll 0 1 (some text8) [{ base := 0x18000, sites := [457], frames := [], tables := [] }] s).isNone
       && (State.placeAll 0 1 (some text8) [] s).isSome) = true := by decide +kernel
-- R70, R71: site (3, 4) in ROW and COL of an absolute field
theorem test_relocate :
    (let s := (graphed [] {}).relocate 0 text8
     leVal (readCells s.mem 0x40802C 2) == 3 + 64 * 4) = true := by decide +kernel

/-! ### Words, steps and reset -/

theorem witness_DecodingInvertsEncoding :
    ((Instr.add (typed abc 1)).wf && (encode (.add (typed abc 1))).isSome && decode 0 0x0000000000003C05#128 == .instr (.nop {})
      && decode 0 (encodeHeader { bv := true, setb := 11#4, count := 3#5 } |>.setWidth 128) == .header { bv := true, setb := 11#4, count := 3#5 }) = true := by
  decide +kernel
theorem witness_EveryStepKeepsMemoryCanonical : Memory.wf nopAtFetch.mem = true ∧ ∃ t, step nopAtFetch = .next t := by
  have h : (match step nopAtFetch with | .next _ => true | _ => false) = true := by decide +kernel
  refine ⟨by decide +kernel, ?_⟩
  cases e : step nopAtFetch with
  | next t => exact ⟨t, rfl⟩
  | fault f => simp [e] at h
  | refused r => simp [e] at h

/-! ### Instructions of the spec's worked examples, one step each -/

-- 08_float_narrow.md, "A product that meets an infinity"
def matrix : State :=
  let w := [0x3F800000, 0, 0, 0, 0, 0x40000000, 0, 0, 0x3F800000, 0x3F800000, 0, 0, 0, 0, 0, 0x3F000000]
  let s := every.setCore 0 { every.core 0 with kst := writeCells [] 0x100 (w.flatMap (leBytes 4)), owner := some (every.team 0).launch }
  let x := fun (k a b c l : Nat) => BitVec.ofNat 32 (if l = 0 then k else if l = 1 then a else if l = 2 then b else c)
  let g := (((s.grp 0).setV 8 0xFFFFFFFF#32 (x 0x3F800000 0x7F800000 0x7FC00000 0)).setV 9 0xFFFFFFFF#32 (x 0x40000000 0 0 0)).setV 10 0xFFFFFFFF#32 (x 0x40400000 0 0 0)
  let g := (g.setV 11 0xFFFFFFFF#32 (x 0x40800000 0 0 0)).setV 12 0xFFFFFFFF#32 (x 0 0 0x1234 0)
  let s := s.setGrp 0 { g with p := Tab.set g.p 1 (mkLanes fun l => if l = 2 then 1#16 else 0#16) }
  { s with cur := { s.cur with pc := 0x6008, len := 12 } }
theorem test_lmv :
    (let g := (after (.lmv { len := .l96, g := 1#4, gn := true, d := 12#8, a := 8#8, ty := 7#4, imm := 0x100#32 }) matrix).grp 0
     (upto 4).map (fun l => (upto 4).map fun n => (g.vr (12 + n) l).toNat)
       == [[0x3F800000, 0x40800000, 0x40400000, 0x40000000], [0x7F800000, 0x7FC00000, 0x7F800000, 0x7FC00000], [0x1234, 0, 0, 0], [0, 0, 0, 0]]
       && g.csr.fstat == 9#32 && g.csr.ffirst == 0x8001000000006008#64) = true := by decide +kernel

-- 17_counters.md, "A copy counted into a team barrier"
def duo (mode : Nat) : State :=
  let s := one.setCtx 0 { one.ctx 0 with mode := mode }
  let s := s.setTeam 0 { s.team 0 with desc := { (s.team 0).desc with team := 1, barw := 1 } }
  let s := s.setGrp 1 { s.grp 0 with role := 1, lanes := mkLanes fun l => if l = 0 then { pc := lpcOf 32 } else {} }
  s.setGrp 0 ((s.grp 0).setU 3 0#32)
def byGroup (g : Nat) (s : State) : State := { s with cur := { s.cur with gid := g } }
theorem test_bar_words :
    ([(0, 0x0002000100000200), (2, 0x0002020100000200)].all fun r =>
      let t := after (.barExp { len := .l96, a := 3#8, mod := 1#4, imm := 0x200#32 }) (duo r.1)
      let u := (after (.bar { d := 1#8, a := 3#8, b := 2#8, bi := true, mod := 1#4 }) (byGroup 1 t)).takeArrivals
      leVal (t.spadRead 0 0 8) == 0x200 && leVal (u.spadRead 0 0 8) == r.2) = true := by decide +kernel

/-! ### The tools -/

/-- A run over one source file. -/
def asm (ls : List String) (opts : List String := []) : AsmRun := dxas [("p.s", ls)] (["p.s", "-o", "p.o", "-l", "p.lst"] ++ opts)

def addvHead : List String := [".text", ".kernel addv", ".regs v=8, s=8"]
def addvTail : List String := ["ld.g.b32 v4, [s6+0x40]  ; load", "add.i32 v5, v1, v2", "add.i32 v6, v4, v5", "exit"]

-- 05_assembler.md, "Automatic clauses", the listing
theorem test_dxas_listing :
    (asm (addvHead ++ [".autoclause on"] ++ addvTail)).listing.map (fun l => (l.line, l.gen, l.addr, l.word))
      = [(2, false, 0x00, 0x0000040000080008), (2, false, 0x08, 0), (2, false, 0x10, 0), (2, false, 0x18, 0),
         (5, true, 0x20, 0x000000028C000001), (5, false, 0x28, 0x9000004006043EC1), (6, false, 0x30, 0x0010000201053C81),
         (7, true, 0x38, 0x000000028C000401), (7, false, 0x40, 0x0010000504063C81), (8, false, 0x48, 0x0000000000003C21)] := by
  decide +kernel
-- the same lines with one header by hand
theorem test_dxas_stale_read :
    (let r := asm (addvHead ++ ["clause count=4, a=f0"] ++ addvTail)
     (r.status, r.diags.map fun d => (d.pos.line, d.code, d.loc)) == (0, [(7, "W201", some (.v, 4))])) = true := by decide +kernel
theorem test_dxas_text : (asm (addvHead ++ ["clause count=4, a=f0"] ++ addvTail)).text
    = ["p.s:7:13: W201: v4 read while pending on f0 (set at line 5); add wait=f0 to a header before this line"] := by decide +kernel
-- R100: a relocatable ELF64 little-endian file with machine field 0x4A42
theorem test_dxas_elf : ((asm (addvHead ++ [".autoclause on"] ++ addvTail)).file.map fun bs => (bs.take 6, leVal (slice bs 16 2), leVal (slice bs 18 2)))
    = some ([0x7F#8, 0x45#8, 0x4C#8, 0x46#8, 2#8, 1#8], 1, 0x4A42) := by decide +kernel
theorem test_dxas_status : (asm (addvHead ++ ["clause count=4, a=f0"] ++ addvTail) ["-Werror"]).status = 1
    ∧ (asm [] ["-x"]).status = 2 := by decide +kernel
-- 23_program_draft_tree.md, the words of lines 16 and 47
theorem test_dxas_words :
    (asm [".tensor VB, 2", ".kernel dtm", ".regs v=16, s=32", ".team groups=1, tiles=2, acc=64", "clause a=f0, b=f1, wait=f0",
        "tld.bf16.fb t1, VB, s20, 0x0000_0000", "mma.bf16.m acc[0,0], t0, t1"]).listing.map (·.word)
      = [0x0000040082200010, 0, 0, 0, 0x8C000401, 0x0000200000000000009000001401BE4B, 0x0090010100003E41] := by decide +kernel
theorem test_dxas_place_outside :
    (asm (addvHead ++ [".cluster 1, 2", "clause a=f0", "ld.c.b32 v1, [v2], place(0,2)"])).diags.map (·.code) = ["E113"] := by decide +kernel
-- 15_frontier.md, the descriptor of the worked example
theorem test_dxld_sweep :
    ((({ name := "k", pc := 32, cluster := (1, 1), frontier := some { dims := 2, deps := [[-1, 0]] } } : LaunchRec).sweep { text := 0, data := 0 }
      [3, 40] []).getD []).take 3 = [32#64, 0x0000006000027002#64, 1#64] := by decide +kernel
-- 21_program_neighbours.md, the session's side-band words
theorem test_dxdb_sband :
    Side.word { opn := true, gid := 0x640, key := 0x15 } = 0x02190015 ∧ Side.word { gid := 0x641, key := 0x15 } = 0x00190415 := by decide +kernel
-- 23_program_draft_tree.md, the tree's nodes 4, 8 and 12
theorem test_draft_words :
    (let w := [0x4000000000, 0x0001010000000000, 0x0002010000000000, 0x0003010000000000, 0x0004020100000000, 0x0005020100000000,
       0x0006020200000000, 0x0007020300000000, 0x0008030400000000, 0x0009030400000000, 0x000A030700000000, 0x000B040800000000,
       0x000C040A00000000]
     let t : DraftTree := { snapBase := 0, nodes := w.map draftNodeOf }
     t.wf && t.nodes.map DraftNode.word == w && t.path 64 12 == [12, 10, 7, 3, 0] && t.siblings 8 == [9]) = true := by decide +kernel

end Sys2Proof.Tests
end

section
/-!
PROOFS. Every instruction and every event answers a state, and so does every step.
-/

namespace Sys2Proof.Machine

open Sys2Proof

/-! ### Every instruction and every event answers a state

A meaning is a tree of tests whose leaves are states. The operations that instructions share are such trees (`sequenced`, `issuedChk`,
`mailbox`), and so is each event. -/

/-- The outcome is a state: neither a fault nor a refusal. -/
def Answers (o : Out) : Prop := ∃ t, o = .next t

theorem answers_next (t : State) : Answers (.next t) := ⟨t, rfl⟩

theorem answers_ite {c : Prop} [Decidable c] {a b : Out} (ha : Answers a) (hb : Answers b) : Answers (if c then a else b) := by
  split
  · exact ha
  · exact hb

/-- One test between two states. -/
theorem answers_test {c : Prop} [Decidable c] (t u : State) : Answers (if c then .next t else .next u) :=
  answers_ite (answers_next t) (answers_next u)

/-- Two tests, one after the other, among three states. -/
theorem answers_tests {c d : Prop} [Decidable c] [Decidable d] (t u v : State) :
    Answers (if c then .next t else if d then .next u else .next v) :=
  answers_ite (answers_next t) (answers_test u v)

/-! #### The shared operations -/

theorem sequenced_answers (i : Instr) (f : Fields) (s : State) (q : Nat) (c : Bool) (k : State → State) : Answers (sequenced i f s q c k) :=
  answers_ite (answers_next _) (answers_ite (answers_next _) (answers_test _ _))

theorem issuedChk_answers (i : Instr) (f : Fields) (s : State) (chk : View → Nat → Check) (k : View → State) :
    Answers (issuedChk i f s chk k) := by
  unfold issuedChk
  split
  · exact sequenced_answers i f s _ false id
  · refine answers_ite (answers_next _) ?_
    split
    · exact answers_next _
    · refine answers_ite (answers_next _) ?_
      split
      · exact answers_next _
      · split <;> exact answers_next _

theorem teamOp_answers (i : Instr) (f : Fields) (s : State) : Answers (teamOp i f s) := by
  unfold teamOp
  split
  · exact sequenced_answers i f s _ _ _
  · exact issuedChk_answers i f s _ _

theorem seqInstr_answers (i : Instr) (f : Fields) (s : State) (k : Nat → State → State) : Answers (seqInstr i f s k) := by
  unfold seqInstr
  split
  · exact sequenced_answers i f s _ _ _
  · exact issuedChk_answers i f s _ _

theorem mailbox_answers (cmd : Nat) (s : State) (k : Nat → State) : Answers (mailbox cmd s k) := answers_tests _ _ _

theorem execNop_answers (f : Fields) (s : State) : Answers (execNop f s) := by
  unfold execNop
  split
  · exact sequenced_answers _ f s _ _ _
  · exact issuedChk_answers _ f s _ _

theorem execCp_answers (f : Fields) (s : State) : Answers (execCp f s) := by
  unfold execCp
  split
  · exact sequenced_answers _ f s _ _ _
  · exact issuedChk_answers _ f s _ _

theorem execSign_answers (f : Fields) (s : State) : Answers (execSign f s) := by
  unfold execSign
  split <;> exact issuedChk_answers _ f s _ _

/-! #### Events of cores, teams and engines -/

theorem execStorePerform_answers (core k : Nat) (s : State) : Answers (execStorePerform core k s) := by
  unfold execStorePerform
  split
  · exact answers_next _
  · exact answers_test _ _

theorem execTeamOpStart_answers (team k : Nat) (s : State) : Answers (execTeamOpStart team k s) := by
  unfold execTeamOpStart
  split
  · exact answers_next _
  · exact answers_tests _ _ _

theorem execFastBufferFill_answers (gid reg : Nat) (s : State) : Answers (execFastBufferFill gid reg s) := by
  simp only [execFastBufferFill]
  split
  · exact answers_next _
  · exact answers_test _ _

theorem execEventSet_answers (core q : Nat) (s : State) : Answers (execEventSet core q s) := by
  unfold execEventSet
  split
  · exact answers_next _
  · split
    · exact answers_next _
    · exact answers_test _ _

theorem execEwaitCyclesExpiry_answers (core q : Nat) (s : State) : Answers (execEwaitCyclesExpiry core q s) := by
  unfold execEwaitCyclesExpiry
  split
  · exact answers_next _
  · split
    · exact answers_test _ _
    · exact answers_next _

theorem execSequencerEnd_answers (core q : Nat) (s : State) : Answers (execSequencerEnd core q s) := by
  unfold execSequencerEnd
  split
  · exact answers_next _
  · exact answers_test _ _

theorem execLocalCopyCompletion_answers (core k : Nat) (s : State) : Answers (execLocalCopyCompletion core k s) := by
  unfold execLocalCopyCompletion
  split <;> exact answers_next _

theorem execCopyBytesLand_answers (src : CopyRef) (n : Nat) (s : State) : Answers (execCopyBytesLand src n s) := by
  cases src <;> exact answers_next _

theorem execCopyJobStart_answers (job : Nat) (s : State) : Answers (execCopyJobStart job s) := by
  unfold execCopyJobStart
  split
  · exact answers_test _ _
  · exact answers_next _

theorem execCopyJobCompletion_answers (job : Nat) (s : State) : Answers (execCopyJobCompletion job s) := by
  unfold execCopyJobCompletion
  split
  · exact answers_next _
  · exact answers_tests _ _ _

theorem execLongLatencyCompletion_answers (op : OpRef) (s : State) : Answers (execLongLatencyCompletion op s) := by
  cases op <;> exact answers_next _

theorem execScrubRead_answers (core line lane : Nat) (err : EccFinding) (s : State) : Answers (execScrubRead core line lane err s) := by
  unfold execScrubRead
  refine answers_ite (answers_next _) (answers_ite (answers_next _) ?_)
  split <;> exact answers_next _

/-! #### Events of translation and fetch -/

theorem execWalkCompletion_answers (die k : Nat) (s : State) : Answers (execWalkCompletion die k s) := by
  unfold execWalkCompletion
  split
  · exact answers_next _
  · refine answers_ite (answers_next _) ?_
    split <;> exact answers_next _

theorem execInvalidateCompletion_answers (die k : Nat) (s : State) : Answers (execInvalidateCompletion die k s) := by
  unfold execInvalidateCompletion
  split
  · exact answers_next _
  · exact answers_test _ _

theorem execIcacheLineArrival_answers (core ctx block : Nat) (s : State) : Answers (execIcacheLineArrival core ctx block s) := by
  unfold execIcacheLineArrival
  refine answers_ite (answers_next _) ?_
  split
  · exact answers_test _ _
  · exact answers_next _

/-! #### Traps, tickets and pre-emption -/

theorem execTrapDelivery_answers (gid : Nat) (s : State) : Answers (execTrapDelivery gid s) := by
  simp only [execTrapDelivery]
  split
  · exact answers_next _
  · exact answers_test _ _

theorem execFirmwareFaultDelivery_answers (gid : Nat) (s : State) : Answers (execFirmwareFaultDelivery gid s) := by
  simp only [execFirmwareFaultDelivery]
  split
  · exact answers_next _
  · exact answers_ite (answers_next _) (answers_ite (answers_next _) (answers_tests _ _ _))

theorem execForward_answers (w0 : DWord) (s : State) : Answers (execForward w0 s) := by
  simp only [execForward]
  split
  · exact answers_next _
  · exact answers_test _ _

theorem execResumeg_answers (w0 : DWord) (frame : Nat) (s : State) : Answers (execResumeg w0 frame s) := by
  simp only [execResumeg]
  split
  · exact answers_next _
  · refine answers_ite (answers_next _) (answers_ite (answers_next _) ?_)
    split <;> exact answers_next _

theorem execTicketPass_answers (launch : Nat) (s : State) : Answers (execTicketPass launch s) := by
  unfold execTicketPass
  split
  · exact answers_next _
  · exact answers_test _ _

theorem execTicketWatchdogExpiry_answers (launch : Nat) (s : State) : Answers (execTicketWatchdogExpiry launch s) := by
  unfold execTicketWatchdogExpiry
  split
  · exact answers_next _
  · split
    · exact answers_next _
    · exact answers_tests _ _ _

theorem execTeamStopped_answers (team : Nat) (s : State) : Answers (execTeamStopped team s) := by
  simp only [execTeamStopped]
  split
  · exact answers_next _
  · exact answers_test _ _

theorem execStopWatchdogExpiry_answers (team : Nat) (terminate : Bool) (s : State) : Answers (execStopWatchdogExpiry team terminate s) := by
  simp only [execStopWatchdogExpiry]
  split
  · exact answers_next _
  · exact answers_tests _ _ _

theorem execCommitWatchdogExpiry_answers (ctx : Nat) (terminate : Bool) (s : State) : Answers (execCommitWatchdogExpiry ctx terminate s) := by
  simp only [execCommitWatchdogExpiry]
  split
  · exact answers_next _
  · exact answers_tests _ _ _

theorem execFlush_answers (w0 : DWord) (s : State) : Answers (execFlush w0 s) := by
  unfold execFlush
  refine answers_ite (answers_next _) ?_
  split <;> exact answers_next _

theorem execResume_answers (w0 : DWord) (s : State) : Answers (execResume w0 s) := by
  unfold execResume
  refine answers_ite (answers_next _) ?_
  split <;> exact answers_next _

/-! #### Events of command queues, tasks and the frontier store -/

theorem execCommandEntryStart_answers (ctx q : Nat) (s : State) : Answers (execCommandEntryStart ctx q s) := by
  unfold execCommandEntryStart
  refine answers_ite (answers_next _) ?_
  split
  · exact answers_next _
  · exact answers_test _ _

theorem execCmdGraph_answers (ctx q : Nat) (texts : List (Nat × Text)) (s : State) : Answers (execCmdGraph ctx q texts s) := by
  unfold execCmdGraph
  refine answers_ite (answers_next _) ?_
  dsimp only
  split
  · exact answers_next _
  · split
    · exact answers_next _
    · split
      · exact answers_test _ _
      · exact answers_next _

theorem execTaskDispatch_answers (die k : Nat) (s : State) : Answers (execTaskDispatch die k s) := by
  unfold execTaskDispatch
  split
  · split <;> exact answers_next _
  · split
    · split <;> exact answers_next _
    · exact answers_next _

theorem execNodeStart_answers (ctx q node : Nat) (insts : List Placed) (s : State) : Answers (execNodeStart ctx q node insts s) := by
  unfold execNodeStart
  refine answers_ite (answers_next _) (answers_ite (answers_next _) ?_)
  split
  · exact answers_next _
  · exact answers_tests _ _ _
  · exact answers_test _ _
  · exact answers_next _

theorem execPointFire_answers (die fid : Nat) (s : State) : Answers (execPointFire die fid s) := by
  unfold execPointFire
  refine answers_ite (answers_next _) ?_
  split <;> exact answers_next _

theorem execFrontierRestore_answers (die : Nat) (w0 : DWord) (s : State) : Answers (execFrontierRestore die w0 s) := by
  unfold execFrontierRestore
  refine answers_ite (answers_next _) ?_
  split <;> exact answers_next _

/-! #### Events of the package -/

theorem execModeSwitchComplete_answers (die : Nat) (s : State) : Answers (execModeSwitchComplete die s) := by
  simp only [execModeSwitchComplete]
  split
  · exact answers_next _
  · exact answers_test _ _

theorem execStreamAfterFin_answers (conn records : Nat) (s : State) : Answers (execStreamAfterFin conn records s) := by
  unfold execStreamAfterFin
  refine answers_ite (answers_next _) ?_
  dsimp only
  split <;> exact answers_next _

theorem execBundleFetchDone_answers (bundle : Option Bundle) (expanders : List Nat) (s : State) :
    Answers (execBundleFetchDone bundle expanders s) := by
  unfold execBundleFetchDone
  split
  · split
    · exact answers_next _
    · exact answers_tests _ _ _
  · exact answers_next _

theorem execBootRetryExpiry_answers (s : State) : Answers (execBootRetryExpiry s) := by
  unfold execBootRetryExpiry
  split
  · exact answers_test _ _
  · exact answers_next _

theorem execCoreFailure_answers (core : Nat) (s : State) : Answers (execCoreFailure core s) := by
  unfold execCoreFailure
  split <;> exact answers_next _

theorem execFledenlinkPeerAccess_answers (key pa n : Nat) (write : Option (List Byte)) (s : State) :
    Answers (execFledenlinkPeerAccess key pa n write s) := by
  cases write with
  | none => exact answers_next _
  | some bs => exact answers_test _ _

/-! #### All of them, and the step -/

/-- Whatever is executed answers a state. -/
theorem exec_answers (i : Instr) (s : State) : Answers (exec i s) := by
  cases i with
  -- a meaning that is `issuedChk`
  | br f | brc f | brx f | call f | ret f | rejoin f | exit f | yield f | vote f =>
    simp only [exec, execBr, execBrc, execBrx, execCall, execRet, execRejoin, execExit, execYield, execVote, issued, issuedChk_answers]
  | add f | sub f | mul f | mulh f | mad f | madh f | min f | max f | abs f | neg f | idiv f | irem f | and f | or f
  | xor f | not f | andn f | shl f | shr f | sar f | rotl f | clz f | popc f | brev f | bfx f | bfi f | lea f | cmp f
  | csel f | mov f | movi f | movs f | shfl f | rdlane f | lid f =>
    simp only [exec, execAdd, execSub, execMul, execMulh, execMad, execMadh, execMin, execMax, execAbs, execNeg, execIdiv, execIrem,
      execAnd, execOr, execXor, execNot, execAndn, execShl, execShr, execSar, execRotl, execClz, execPopc, execBrev, execBfx, execBfi,
      execLea, execCmp, execCsel, execMov, execMovi, execMovs, execShfl, execRdlane, execLid, intArith, logic, compute, computeQuiet,
      vectorOnly, predicateOnly, onceOnly, issued, issuedChk_answers]
  | fadd f | fsub f | fmul f | ffma f | fdiv f | fmin f | fmax f | fcmp f | fclass f | fcvt f | frnd f | frcp f | frsq f
  | fexp2 f | flog2 f | hpack f | hunpack f | nbscale f | nbpack f | nbunpack f | lmv f | rnd f | pvt f =>
    simp only [exec, execFadd, execFsub, execFmul, execFfma, execFdiv, execFmin, execFmax, execFcmp, execFclass, execFcvt, execFrnd,
      execFrcp, execFrsq, execFexp2, execFlog2, execHpack, execHunpack, execNbscale, execNbpack, execNbunpack, execLmv, execRnd, execPvt,
      fpOp, fpPick, fpCompute, compute, computeQuiet, onceOnly, issued, issuedChk_answers]
  | accRd f | mmask f | pand f | por f | pxor f | pnot f | pmov f | pset f | pget f | pbit f | rgn f | spill f | fill f
  | give f | claim f | rdidx f | wridx f =>
    simp only [exec, execAccRd, execMmask, execPand, execPor, execPxor, execPnot, execPmov, execPset, execPget, execPbit, execRgn,
      execSpill, execFill, execGive, execClaim, execRdidx, execWridx, vectorOnly, predicateOnly, onceOnly, issued, issuedChk_answers]
  | ld f | st f | stGDirect f | ldProbe f | atom f | red f | fence f | fenceXp f | pf f | cstLd f | aflush f | slotLd f
  | slotSc f | slotFin f | commit f =>
    simp only [exec, execLd, execSt, execStGDirect, execLdProbe, execAtom, execRed, execFence, execFenceXp, execPf, execCstLd, execAflush,
      execSlotLd, execSlotSc, execSlotFin, execCommit, onceOnly, issued, issuedChk_answers]
  | fork f | rdv f | job f | spawn f | post f | bar f | barExp f | twaitAny f | twaitAll f | tffr f | fwait f =>
    simp only [exec, execFork, execRdv, execJob, execSpawn, execPost, execBar, execBarExp, execTwaitAny, execTwaitAll, execTffr,
      execFwait, issued, issuedChk_answers]
  | csrR f | csrW f | fstatWrite f | cvdefWrite f | merrlog0Write f | tfence f | tret f | trap f | brk f | halt f =>
    simp only [exec, execCsrR, execCsrW, execFstatWrite, execCvdefWrite, execMerrlog0Write, execTfence, execTret, execTrap, execBrk,
      execHalt, csrWrite, issued, issuedChk_answers]
  -- a team operation, or a word of sequencers, or one of both
  | mma f | tld f | tsv f | tzero f | tpois f | accLd f | accSt f | accZero f | rowMax f | rowSum f | rowExp f
  | rowScale f | rowAdd f | rowCvt f =>
    simp only [exec, execMma, execTld, execTsv, execTzero, execTpois, execAccLd, execAccSt, execAccZero, execRowMax, execRowSum,
      execRowExp, execRowScale, execRowAdd, execRowCvt, teamOp_answers]
  | eflag f | ewait f | eloop f | eend f =>
    simp only [exec, execEflag, execEwait, execEloop, execEend, seqInstr_answers]
  | nop f => exact execNop_answers f s
  | cp f => exact execCp_answers f s
  | sign f => exact execSign_answers f s
  -- the commands of the mailbox
  | destroy | queue | rule | netcfg | attest | manifest | map _ _ =>
    simp only [exec, execDestroy, execQueue, execRule, execNetcfg, execAttest, execManifest, execMap, mailbox_answers]
  | create root => exact answers_ite (answers_next _) (answers_ite (answers_next _) (answers_tests _ _ _))
  -- events without a test, with one and with two
  | sequencerStart _ | bindRecordBind _ | bindw0Commit _ | twdogWrite _ | cycleStretch _ | timerTrap _ | translationInvalidate _ _ _ _
  | completionRecordWrite _ _ | restore _ | connectionCommit _ _ | doorbellWrite _ _ _ | crheadWrite _ _ | hostApertureRead _ _
  | hostApertureWrite _ _ | configRequest | packageReset _ | registerWrite _ _ => exact answers_next _
  | rejoinRelease _ _ | convergenceIssueOnExit _ _ | stagedEntryApply _ | powerEstimateUpdate _ _ | timingViolation _ | cmdWait _ _
  | cmdMarker _ _ | nodeCompletion _ _ _ | pointCompletion _ _ _ | frontierRetirementExpiry _ _ | mirrorUpdate _ _ _ | frontierStart _ _
  | frontierStop _ _ | frontierSave _ _ | frontierResume _ _ | frontierRelease _ _ | stop _ | commitPointSave _ | finAcked _
  | rstReceived _ | linkFailure _ | expanderLoss _ => exact answers_test _ _
  | pcapWrite _ _ | retransmissionTimeout _ _ | segmentReceive _ _ _ | keyInstall _ _ => exact answers_tests _ _ _
  | groupEnd gid =>
    exact answers_ite (answers_next _) (answers_ite (answers_next _) (answers_ite (answers_next _) (answers_tests _ _ _)))
  -- events that look something up
  | storePerform core k => exact execStorePerform_answers core k s
  | teamOpStart team k => exact execTeamOpStart_answers team k s
  | fastBufferFill gid reg => exact execFastBufferFill_answers gid reg s
  | eventSet core q => exact execEventSet_answers core q s
  | ewaitCyclesExpiry core q => exact execEwaitCyclesExpiry_answers core q s
  | sequencerEnd core q => exact execSequencerEnd_answers core q s
  | localCopyCompletion core k => exact execLocalCopyCompletion_answers core k s
  | copyBytesLand src n => exact execCopyBytesLand_answers src n s
  | copyJobStart job => exact execCopyJobStart_answers job s
  | copyJobCompletion job => exact execCopyJobCompletion_answers job s
  | longLatencyCompletion op => exact execLongLatencyCompletion_answers op s
  | scrubRead core line lane err => exact execScrubRead_answers core line lane err s
  | walkCompletion die k => exact execWalkCompletion_answers die k s
  | invalidateCompletion die k => exact execInvalidateCompletion_answers die k s
  | icacheLineArrival core ctx block => exact execIcacheLineArrival_answers core ctx block s
  | trapDelivery gid => exact execTrapDelivery_answers gid s
  | firmwareFaultDelivery gid => exact execFirmwareFaultDelivery_answers gid s
  | forward w0 => exact execForward_answers w0 s
  | resumeg w0 frame => exact execResumeg_answers w0 frame s
  | ticketPass launch => exact execTicketPass_answers launch s
  | ticketWatchdogExpiry launch => exact execTicketWatchdogExpiry_answers launch s
  | teamStopped team => exact execTeamStopped_answers team s
  | stopWatchdogExpiry team terminate => exact execStopWatchdogExpiry_answers team terminate s
  | commitWatchdogExpiry ctx terminate => exact execCommitWatchdogExpiry_answers ctx terminate s
  | flush w0 => exact execFlush_answers w0 s
  | resume w0 => exact execResume_answers w0 s
  | commandEntryStart ctx q => exact execCommandEntryStart_answers ctx q s
  | cmdGraph ctx q texts => exact execCmdGraph_answers ctx q texts s
  | taskDispatch die k => exact execTaskDispatch_answers die k s
  | nodeStart ctx q node insts => exact execNodeStart_answers ctx q node insts s
  | pointFire die fid => exact execPointFire_answers die fid s
  | frontierRestore die w0 => exact execFrontierRestore_answers die w0 s
  | modeSwitchComplete die => exact execModeSwitchComplete_answers die s
  | streamAfterFin conn records => exact execStreamAfterFin_answers conn records s
  | bundleFetchDone ok expanders => exact execBundleFetchDone_answers ok expanders s
  | bootRetryExpiry => exact execBootRetryExpiry_answers s
  | coreFailure core => exact execCoreFailure_answers core s
  | fledenlinkPeerAccess key pa n write => exact execFledenlinkPeerAccess_answers key pa n write s

theorem run_answers (s : State) (i : Instr) (x : Issue) (second : Option (Instr × Issue)) : Answers (s.run i x second) := by
  unfold State.run
  split
  · exact exec_answers i _
  · obtain ⟨t, e⟩ := exec_answers i (s.issuing x i none)
    simp only [e]
    exact answers_ite (exec_answers _ _) (answers_next _)

theorem schedTurn_answers (core sched : Nat) (s : State) : Answers (schedTurn core sched s) := by
  unfold schedTurn
  refine answers_ite (answers_next _) ?_
  simp only
  split
  · exact answers_next _
  · exact answers_next _
  · exact run_answers _ _ _ _

theorem engineTurn_answers (core q : Nat) (s : State) : Answers (engineTurn core q s) := by
  unfold engineTurn
  refine answers_ite (answers_next _) ?_
  split
  · exact answers_next _
  · exact exec_answers _ _

theorem eventTurn_answers (i : Instr) (s : State) : Answers (eventTurn i s) :=
  answers_ite (answers_next _) (answers_ite (answers_ite (exec_answers i s) (answers_next _)) (exec_answers i _))

theorem actTurn_answers (a : Act) (s : State) : Answers (actTurn a s) := by
  cases a with
  | issue core sched => exact schedTurn_answers core sched s
  | seq core q => exact engineTurn_answers core q s
  | event i => exact eventTurn_answers i s
  | upset u => exact answers_next _
  | firmware f => exact answers_next _

theorem step_answers (s : State) : Answers (step s) := by
  unfold step
  split
  · exact answers_next _
  · exact actTurn_answers _ _

end Sys2Proof.Machine

namespace Sys2Proof

open Sys2Proof.Machine

/-- Settles O60: an empty agenda leaves the state, a turn that moves nothing answers the state it found, and whatever a turn executes
answers a state. -/
theorem everyStepAnswersAState : Obligations.EveryStepAnswersAState := step_answers

end Sys2Proof
end

section
/-!
PROOFS. What the registers hold after a write and answer to a read, the generations of keys, and the scrubber.
-/

namespace Sys2Proof.Machine

open Sys2Proof

/-! ### Registers as a write leaves them -/

/-- The low bits of a number (R8). -/
theorem bits_low (x hi : Nat) : bits x hi 0 = x % 2 ^ (hi + 1) := by simp [bits]

theorem bit_zero_eq (v : DWord) : bit v.toNat 0 = v.getLsbD 0 := by
  simp [bit, BitVec.getLsbD, Nat.testBit_zero, beq_eq_decide]

/-- What a write of TVEC keeps (R369). -/
theorem tvecMask_eq (x : Nat) : tvecMask x = BitVec.ofNat 64 (x % 2 ^ 48 / 2 ^ 16 * 2 ^ 16 + x % 2) := by
  have field : bits x 47 16 = x % 2 ^ 48 / 2 ^ 16 := by
    rw [bits, Nat.shiftRight_eq_div_pow]
    omega
  rw [tvecMask, field]

theorem mem_insertNum {n m : Nat} {ns : List Nat} : m ∈ insertNum n ns ↔ m = n ∨ m ∈ ns := by
  induction ns with
  | nil => simp [insertNum]
  | cons x xs ih =>
    simp only [insertNum]
    split
    · simp
    · split
      · simp; omega
      · simp [ih]; tauto

/-- The entries of a table with one set. -/
theorem Tab.find_set_ite {α : Type} (t : Tab α) (n m : Nat) (x : α) :
    Tab.find (Tab.set t n x) m = if m = n then some x else Tab.find t m := by
  split
  · subst_vars; simp
  · exact Tab.find_set_ne t x ‹_›

/-- The entries of a table with one dropped. -/
theorem Tab.find_drop_ite {α : Type} (t : Tab α) (n m : Nat) :
    Tab.find (Tab.drop t n) m = if m = n then none else Tab.find t m := by
  split
  · subst_vars; simp
  · exact Tab.find_drop_ne t ‹_›

theorem State.ctx_setCtx_ite (s : State) (c d : Nat) (x : Ctx) : (s.setCtx c x).ctx d = if d = c then x else s.ctx d := by
  split
  · subst_vars; simp
  · exact s.ctx_setCtx_ne x ‹_›

theorem State.core_setCore_ite (s : State) (c d : Nat) (x : CoreSt) : (s.setCore c x).core d = if d = c then x else s.core d := by
  split
  · subst_vars; simp
  · exact s.core_setCore_ne x ‹_›

theorem State.die_setDie_ite (s : State) (d e : Nat) (x : Die) (h : e < s.dies.length) :
    (s.setDie d x).die e = if e = d then x else s.die e := by
  split
  next eq => rw [eq, s.die_setDie d x (eq ▸ h)]
  next ne => exact s.die_setDie_ne x ne

/-- TTBASE of a context that exists stays (R298). -/
theorem Ctx.setTtbase_eq (x : Ctx) (v : Nat) :
    x.setTtbase v = if x.live = false ∧ v % 65536 = 0 then { x with ttbase := v % 2 ^ 48 } else x := by
  unfold Ctx.setTtbase
  cases x.live <;> by_cases a : v % 65536 = 0 <;> simp [a]

/-- A context register that firmware writes changes its context alone. -/
theorem State.onCtx_spec (s : State) (c : Nat) (f : Ctx → Ctx) (h : c < 64) :
    s.onCtx c f = { s with ctxs := (s.onCtx c f).ctxs } ∧ ∀ d, (s.onCtx c f).ctx d = if d = c then f (s.ctx d) else s.ctx d := by
  simp only [State.onCtx, if_pos h]
  refine ⟨rfl, fun d => ?_⟩
  rw [State.ctx_setCtx_ite]
  split
  · simp only [*]
  · rfl

/-- Bit `k` of a count after the bits of `x` are cleared in it (R127). -/
theorem w1c_testBit (old x k : Nat) : (w1c old x).testBit k = (old.testBit k && !x.testBit k) := by
  have low : Nat.land old x % 2 = 1 ↔ old % 2 = 1 ∧ x % 2 = 1 := Nat.and_mod_two_eq_one
  have le : Nat.land old x ≤ old := Nat.and_le_left
  induction k generalizing old x with
  | zero =>
    rw [Nat.testBit_zero, Nat.testBit_zero, Nat.testBit_zero, w1c, Bool.eq_iff_iff]
    simp only [decide_eq_true_eq, Bool.and_eq_true, Bool.not_eq_true', decide_eq_false_iff_not]
    omega
  | succ k ih =>
    have half : w1c old x / 2 = w1c (old / 2) (x / 2) := by
      have : Nat.land old x / 2 = Nat.land (old / 2) (x / 2) := Nat.and_div_two
      simp only [w1c]
      omega
    rw [Nat.testBit_succ, Nat.testBit_succ, Nat.testBit_succ, half, ih _ _ Nat.and_mod_two_eq_one Nat.and_le_left]

/-- One comparator of a core written changes nothing else. -/
theorem State.setDbg_spec (s : State) (core n : Nat) (f : Dbg → Dbg) (h : core < 1536) (data : Bool) :
    s.setDbg core n data f = { s with cores := (s.setDbg core n data f).cores }
      ∧ ∀ d, d ≠ core → (s.setDbg core n data f).core d = s.core d := by
  simp only [State.setDbg, if_neg (Nat.not_le.mpr h)]
  exact ⟨rfl, fun d ne => State.core_setCore_ne _ _ ne⟩

theorem State.setDbg_pc (s : State) (core n : Nat) (f : Dbg → Dbg) (h : core < 1536) (k : n < (s.core core).dbgPc.length) (m : Nat) :
    nth {} ((s.setDbg core n false f).core core).dbgPc m
      = if m = n then f (nth {} (s.core core).dbgPc m) else nth {} (s.core core).dbgPc m := by
  simp only [State.setDbg, if_neg (Nat.not_le.mpr h), State.core_setCore, Bool.false_eq_true, if_false, nth_setNth, k, and_true]
  split
  · subst_vars; rfl
  · rfl

theorem State.setDbg_da (s : State) (core n : Nat) (f : Dbg → Dbg) (h : core < 1536) (k : n < (s.core core).dbgDa.length) (m : Nat) :
    nth {} ((s.setDbg core n true f).core core).dbgDa m
      = if m = n then f (nth {} (s.core core).dbgDa m) else nth {} (s.core core).dbgDa m := by
  simp only [State.setDbg, if_neg (Nat.not_le.mpr h), State.core_setCore, if_true, nth_setNth, k, and_true]
  split
  · subst_vars; rfl
  · rfl

/-- A write to MBGO (R405). -/
theorem State.mailboxGo_busy (s : State) (h : s.pkg.mbBusy = true) : s.mailboxGo = s := by simp [State.mailboxGo, h]

theorem State.mailboxGo_takes (s : State) (h : s.pkg.mbBusy = false) (lo : 1 ≤ s.mbWord 0 % 2 ^ 8) (hi : s.mbWord 0 % 2 ^ 8 ≤ 8) :
    s.mailboxGo = { s with pkg := { s.pkg with mbBusy := true } } := by
  simp only [State.mailboxGo, bits_low, h, Bool.false_eq_true, if_false]
  rw [if_neg (by simp only [Bool.or_eq_true, decide_eq_true_eq]; omega)]

theorem State.mailboxGo_malformed (s : State) (h : s.pkg.mbBusy = false) (bad : s.mbWord 0 % 2 ^ 8 = 0 ∨ 8 < s.mbWord 0 % 2 ^ 8) :
    s.mailboxGo = { s with pkg := { s.pkg with mbBusy := false, mbStatus := 1 } } := by
  simp only [State.mailboxGo, bits_low, h, Bool.false_eq_true, if_false]
  rw [if_pos (by simp only [Bool.or_eq_true, decide_eq_true_eq]; omega)]
  rfl

/-- The mask bits after the one of a vector is written. -/
theorem State.mem_maskVector (s : State) (n m : Nat) (on : Bool) (h : n < 64) :
    m ∈ (s.maskVector n on).pkg.msixMask ↔ if m = n then on = true else m ∈ s.pkg.msixMask := by
  simp only [State.maskVector, if_neg (Nat.not_le.mpr h)]
  cases on with
  | true => simp only [if_true, mem_insertNum]; split <;> simp_all
  | false => simp only [Bool.false_eq_true, if_false, List.mem_filter, bne_iff_ne]; split <;> simp_all

/-! ### Relocated fields change memory alone -/

/-- Two states differ in memory and in side-band words alone. -/
def OnlyMemory (s t : State) : Prop := t = { s with mem := t.mem, side := t.side }

theorem OnlyMemory.refl (s : State) : OnlyMemory s s := rfl

theorem OnlyMemory.trans {s t u : State} (a : OnlyMemory s t) (b : OnlyMemory t u) : OnlyMemory s u := by
  unfold OnlyMemory at *
  rw [a] at b
  exact b

theorem OnlyMemory.foldl {α : Type} {f : State → α → State} (h : ∀ s x, OnlyMemory s (f s x)) (xs : List α) (s : State) :
    OnlyMemory s (xs.foldl f s) := by
  induction xs generalizing s with
  | nil => exact .refl s
  | cons x xs ih => exact (h s x).trans (ih _)

theorem State.closeLine_onlyMemory (s : State) (l : Nat) : OnlyMemory s (s.closeLine l) := by
  simp only [State.closeLine]
  split <;> rfl

theorem State.writeLine_onlyMemory (s : State) (key line pa : Nat) (bs : List Byte) : OnlyMemory s (s.writeLine key line pa bs) := by
  simp only [State.writeLine, State.setSide, OnlyMemory]

theorem State.writeAs_onlyMemory (s : State) (key pa : Nat) (bs : List Byte) : OnlyMemory s (s.writeAs key pa bs) := by
  unfold State.writeAs
  split
  · exact .refl s
  · exact .foldl (fun _ _ => State.writeLine_onlyMemory _ _ _ _ _) _ _

theorem State.writeUnit_onlyMemory (s : State) (key pa : Nat) (bs : List Byte) : OnlyMemory s (s.writeUnit key pa bs) := by
  simp only [State.writeUnit]
  split
  · exact s.writeAs_onlyMemory key pa bs
  · exact (s.writeAs_onlyMemory key pa bs).trans (.foldl State.closeLine_onlyMemory _ _)

theorem State.putPlace_onlyMemory (s : State) (ctx va site : Nat) : OnlyMemory s (s.putPlace ctx va site) := by
  unfold State.putPlace
  split
  · exact s.writeUnit_onlyMemory _ _ _
  · exact s.writeUnit_onlyMemory _ _ _
  · exact .refl s

theorem State.rewrite_onlyMemory (s : State) (ctx w : Nat) (t : Text) (x : Placed) : OnlyMemory s (s.rewrite ctx w t x) :=
  .foldl (fun _ _ => State.putPlace_onlyMemory _ _ _ _) _ _

theorem State.rewrite_nil (s : State) (ctx w : Nat) (t : Text) (x : Placed) (h : t.recs = []) : s.rewrite ctx w t x = s := by
  simp [State.rewrite, h]

/-- A text section that no launch runs in leaves the launches as they are. -/
theorem State.noteInst_launches (s : State) (ctx : Nat) (t : Text) (x : Placed) (h : ∀ e ∈ s.launches, e.2.ctx ≠ ctx ∨ e.2.text ≠ some t) :
    (s.noteInst ctx t x).launches = s.launches := by
  refine (List.map_congr_left fun e m => if_neg ?_).trans (List.map_id _)
  simp only [Bool.and_eq_true, beq_iff_eq]
  have := h e m
  tauto

/-! ### Every register as its write leaves it -/

/-- Every register write is one step, which leaves what the register's rule says. -/
theorem execRegisterWrite_rule (r : Reg) (v : DWord) (s : State) : ∃ t, exec (.registerWrite r v) s = .next t ∧ registerRule v s t r := by
  refine ⟨_, rfl, ?_⟩
  cases r with
  | bindidx | relidx => simp only [registerRule, bits_low]
  | commitLimit | prcmdW1 | reldata | keyid _ | owner _ | frslot _ _ | dmode _ | pest _ | mbstat | crtail _ => rfl
  | bindw n =>
    refine ⟨fun z => ?_, fun lo hi inside => ?_⟩
    · simp only [if_pos z]; rfl
    · simp only [if_neg (show n ≠ 0 by omega), if_pos hi, State.stageBind, if_pos inside, BitVec.ofNat_toNat, BitVec.setWidth_eq]
      exact ⟨trivial, fun m => Tab.find_set_ite _ n m v⟩
  | gate d =>
    intro h
    simp only [if_pos h]
    exact ⟨rfl, fun e l => by rw [State.die_setDie_ite s d e _ l, bits_low]; split <;> simp_all⟩
  | frcmdW1 d =>
    intro h
    simp only [if_pos h]
    exact ⟨rfl, fun e l => by rw [State.die_setDie_ite s d e _ l]; split <;> simp_all⟩
  | ttbase c =>
    intro h
    refine (s.onCtx_spec c _ h).imp_right fun at' d => (at' d).trans ?_
    by_cases eq : d = c
    · subst eq; simp only [Ctx.setTtbase_eq, true_and, if_true]
    · simp only [eq, false_and, if_false]
  | tvec c =>
    intro h
    refine (s.onCtx_spec c _ h).imp_right fun at' d => (at' d).trans ?_
    rw [tvecMask_eq]
  | attach c =>
    intro h
    refine (s.onCtx_spec c _ h).imp_right fun at' d => (at' d).trans ?_
    rw [bit_zero_eq]
  | cecnt c =>
    intro h
    simp only [if_pos h]
    refine ⟨rfl, fun d ne => State.core_setCore_ne _ _ ne, fun k => ?_⟩
    rw [State.core_setCore, w1c_testBit]
  | dbgPc c n =>
    intro h k
    exact ⟨(s.setDbg_spec c n _ h false).1, (s.setDbg_spec c n _ h false).2, s.setDbg_pc c n _ h k⟩
  | dbgPm c n =>
    intro h k
    simp only [bits_low]
    exact ⟨(s.setDbg_spec c n _ h false).1, (s.setDbg_spec c n _ h false).2, s.setDbg_pc c n _ h k⟩
  | dbgDa c n =>
    intro h k
    exact ⟨(s.setDbg_spec c n _ h true).1, (s.setDbg_spec c n _ h true).2, s.setDbg_da c n _ h k⟩
  | dbgDm c n =>
    intro h k
    simp only [bits_low]
    exact ⟨(s.setDbg_spec c n _ h true).1, (s.setDbg_spec c n _ h true).2, s.setDbg_da c n _ h k⟩
  | mailbox n =>
    intro h
    simp only [if_pos h]
  | mbgo => exact ⟨s.mailboxGo_busy, s.mailboxGo_takes, s.mailboxGo_malformed⟩
  | msixMask n =>
    intro h
    refine ⟨by simp only [State.maskVector, if_neg (Nat.not_le.mpr h)], fun m => (s.mem_maskVector n m _ h).trans ?_⟩
    rw [bit_zero_eq]
  | connWord c n =>
    intro h lo hi
    simp only [State.stageConn, h, lo, hi, decide_true, Bool.and_self, if_true]
    refine ⟨rfl, fun d ne => Tab.get_set_ne _ _ _ ne, ?_, fun m => ?_⟩
    · simp only [State.conn, State.setConn, Tab.get_set]
    · simp only [State.conn, State.setConn, Tab.get_set]
      exact Tab.find_set_ite _ n m v
  | remoteWindow n base size peer peerBase =>
    intro n64 aligned below whole known
    have ok : (64 ≤ n || base % 2 ^ 21 ≠ 0 || size % 2 ^ 21 ≠ 0 || isCxl base || 4096 ≤ peer) = false := by
      simp only [isCxl, Bool.or_eq_false_iff, decide_eq_false_iff_not]; omega
    simp only [State.setWindow, ok, Bool.false_eq_true, if_false]
    refine ⟨trivial, fun m => ?_⟩
    by_cases empty : size = 0
    · simp only [if_pos empty]; exact Tab.find_drop_ite _ n m
    · simp only [if_neg empty]; exact Tab.find_set_ite _ n m _
  | rewrite c w x i =>
    have memory := s.rewrite_onlyMemory c w x i
    refine ⟨?_, fun h => ?_, fun h => ?_⟩
    · simp only [State.noteInst]
      rw [memory]
    · simp only [State.noteInst, s.rewrite_nil c w x i h, and_self]
    · have launches : (s.rewrite c w x i).launches = s.launches := by rw [memory]
      rw [State.noteInst_launches _ c x i (launches ▸ h), launches]

/-! ### Reads, keys -/

/-- The registers whose reading the spec states (R6, R7, R302, R405). -/
theorem State.regRead_stated (s : State) (r : Reg) (x : Nat)
    (h : r = .mbstat ∧ x = s.pkg.mbStatus * 2 ^ 8 + s.pkg.mbBusy.toNat
      ∨ (∃ c n, r = .connWord c n ∧ x = if 8 ≤ n ∧ n ≤ 13 then 0 else (Tab.get 0#64 (s.conn c).w n).toNat)
      ∨ (r = .mailbox 0 ∧ x = (nth 0#64 s.pkg.mailbox 0).toNat % 2 ^ 8) ∨ (∃ n, 1 ≤ n ∧ r = .mailbox n ∧ x = 0)
      ∨ (∃ d, r = .frcmdW1 d ∧ x = 0) ∨ (r = .prcmdW1 ∧ x = 0) ∨ (r = .mbgo ∧ x = 0)) : s.regRead r = x := by
  obtain ⟨rfl, rfl⟩ | ⟨c, n, rfl, rfl⟩ | ⟨rfl, rfl⟩ | ⟨n, pos, rfl, rfl⟩ | ⟨d, rfl, rfl⟩ | ⟨rfl, rfl⟩ | ⟨rfl, rfl⟩ := h
  · rfl
  · simp only [State.regRead, Conn.seen, Bool.and_eq_true, decide_eq_true_eq, Conn.word]
  · simp only [State.regRead, if_true, bits_low, State.mbWord]
  · exact if_neg (by omega)
  · rfl
  · rfl
  · rfl

/-- Another key pair under an identifier begins a new generation (R210). -/
theorem execKeyInstall_new (key : Nat) (pair : BitVec 512) (s : State) (h : key < 1024)
    (other : ∀ k, Tab.find s.pkg.keys key = some k → k.pair ≠ pair) :
    execKeyInstall key pair s = .next { s with pkg := { s.pkg with
      keys := Tab.set s.pkg.keys key ⟨pair, s.pkg.keyGen + 1⟩, keyGen := s.pkg.keyGen + 1 } } := by
  simp only [execKeyInstall, if_neg (Nat.not_le.mpr h)]
  cases e : Tab.find s.pkg.keys key with
  | none => rfl
  | some k => simp [other k e]

/-- The pair that an identifier has changes nothing. -/
theorem execKeyInstall_same (key : Nat) (pair : BitVec 512) (s : State) (h : key < 1024) (k : Key)
    (e : Tab.find s.pkg.keys key = some k) (p : k.pair = pair) : execKeyInstall key pair s = .next s := by
  simp [execKeyInstall, Nat.not_le.mpr h, e, p]

/-! ### The scrubber -/

/-- The elements that a function finds at the numbers of a range, when it finds one at each. -/
theorem getElem?_filterMap_rangeFrom {α : Type} (f : Nat → Option α) (a n k : Nat) (all : ∀ j, j < n → (f (a + j)).isSome) (h : k < n) :
    ((rangeFrom a n).filterMap f)[k]? = f (a + k) := by
  induction n generalizing a k with
  | zero => omega
  | succ n ih =>
    obtain ⟨x, e⟩ := Option.isSome_iff_exists.mp (all 0 (by omega))
    rw [Nat.add_zero] at e
    rw [rangeFrom, List.filterMap_cons_some e]
    cases k with
    | zero => simpa using e.symm
    | succ k =>
      have shift : ∀ j, a + 1 + j = a + (j + 1) := fun j => by omega
      rw [List.getElem?_cons_succ, ih (a + 1) k (fun j l => shift j ▸ all (j + 1) (by omega)) (by omega), shift]

/-- A stopped team after a group of stopped team `k` is rewritten. -/
theorem State.mapParked_at (s : State) (k r : Nat) (f : Group → Group) (p : Parked) (h : s.parked[k]? = some p) :
    (s.mapParked k r f).parked[k]? = some { p with groups := setNth (f (nth {} p.groups r)) p.groups r } := by
  have inside : k < s.parked.length := (List.getElem?_eq_some_iff.mp h).1
  simp only [State.mapParked, upto]
  rw [getElem?_filterMap_rangeFrom _ 0 _ k (fun j l => by simp; omega) inside, Nat.zero_add, h]
  simp

/-- A corrected word counts once or not at all, in its own core. -/
theorem State.countCorrected_spec (s : State) (core : Nat) :
    s.countCorrected core 1 = { s with cores := (s.countCorrected core 1).cores }
      ∧ ∀ c, (s.countCorrected core 1).core c = s.core c
        ∨ (c = core ∧ (s.countCorrected core 1).core c = { s.core c with cecnt := min ((s.core c).cecnt + 1) (2 ^ 32 - 1) }) := by
  simp only [State.countCorrected]
  split
  · exact ⟨rfl, fun _ => .inl rfl⟩
  · refine ⟨rfl, fun c => ?_⟩
    by_cases e : c = core
    · subst e
      exact .inr ⟨rfl, State.core_setCore _ _ _⟩
    · exact .inl (State.core_setCore_ne _ _ e)

/-- The state once the scrubber has counted a corrected word, or not (R125). -/
def State.maybeCounted (s : State) (core : Nat) : State := if freeBit s.fresh then s.countCorrected core 1 else s

/-- Counting a corrected word, as `scrubbed` writes it out, changes cores alone. -/
theorem State.maybeCounted_eq (s : State) (core : Nat) :
    (if freeBit s.fresh then s.countCorrected core 1 else s) = { s with cores := (s.maybeCounted core).cores } := by
  by_cases h : freeBit s.fresh = true
  · simp only [State.maybeCounted, if_pos h]; exact (s.countCorrected_spec core).1
  · simp only [State.maybeCounted, if_neg h]

theorem State.maybeCounted_core (s : State) (core c : Nat) : (s.maybeCounted core).core c = s.core c
    ∨ (c = core ∧ (s.maybeCounted core).core c = { s.core c with cecnt := min ((s.core c).cecnt + 1) (2 ^ 32 - 1) }) := by
  unfold State.maybeCounted
  split
  · exact (s.countCorrected_spec core).2 c
  · exact .inl rfl

/-- What the scrubber leaves of a corrected word of a bound team's line, of a stopped team's, and of a line that none owns. -/
theorem State.scrubbed_owned (s : State) (core line lane : Nat) {team r n : Nat} (h : s.lineOwner core line = some (team, r, n)) :
    s.scrubbed core line lane = { s with
      cores := (s.maybeCounted core).cores, groups := Tab.set s.groups (team + r) ((s.grp (team + r)).healWord n lane), fresh := s.fresh + 1 } := by
  simp only [State.scrubbed, s.maybeCounted_eq core, h]
  rfl

theorem State.scrubbed_parked (s : State) (core line lane : Nat) {k r n : Nat} (free : s.lineOwner core line = none)
    (h : s.lineParked core line = some (k, r, n)) :
    s.scrubbed core line lane = { s with
      cores := (s.maybeCounted core).cores, parked := (s.mapParked k r fun g => g.healWord n lane).parked, fresh := s.fresh + 1 } := by
  simp only [State.scrubbed, s.maybeCounted_eq core, free, h]
  rfl

theorem State.scrubbed_free (s : State) (core line lane : Nat) (free : s.lineOwner core line = none) (h : s.lineParked core line = none) :
    s.scrubbed core line lane = { s with cores := (s.maybeCounted core).cores, fresh := s.fresh + 1 } := by
  simp only [State.scrubbed, s.maybeCounted_eq core, free, h]

theorem Group.healWord_weak (g : Group) (n lane : Nat) : (n, lane) ∉ (g.healWord n lane).weak := by simp [Group.healWord]

/-- The scrubber changes no value of a group. -/
theorem State.scrubbed_values (s : State) (core line lane g : Nat) :
    { (s.scrubbed core line lane).grp g with weak := [] } = { s.grp g with weak := [] } := by
  cases o : s.lineOwner core line with
  | some x =>
    obtain ⟨team, r, n⟩ := x
    rw [s.scrubbed_owned core line lane o]
    by_cases e : g = team + r
    · subst e; simp [State.grp, Group.healWord]
    · simp only [State.grp, Tab.get_set_ne _ _ _ e]
  | none =>
    cases p : s.lineParked core line with
    | some x =>
      obtain ⟨k, r, n⟩ := x
      rw [s.scrubbed_parked core line lane o p]; rfl
    | none => rw [s.scrubbed_free core line lane o p]; rfl

/-- The scrubber changes cores, groups and stopped teams alone, and of the cores the count. -/
theorem State.scrubbed_eq (s : State) (core line lane : Nat) : let t := s.scrubbed core line lane
    t = { s with cores := t.cores, groups := t.groups, parked := t.parked, fresh := s.fresh + 1 } ∧ ∀ c, t.core c = (s.maybeCounted core).core c := by
  cases o : s.lineOwner core line with
  | some x => rw [s.scrubbed_owned core line lane o]; exact ⟨rfl, fun _ => rfl⟩
  | none =>
    cases p : s.lineParked core line with
    | some x => rw [s.scrubbed_parked core line lane o p]; exact ⟨rfl, fun _ => rfl⟩
    | none => rw [s.scrubbed_free core line lane o p]; exact ⟨rfl, fun _ => rfl⟩

/-- A corrected word of a stopped team's line. -/
theorem State.scrubbed_heals_parked (s : State) (core line lane : Nat) {k r n : Nat} {p : Parked} (free : s.lineOwner core line = none)
    (h : s.lineParked core line = some (k, r, n)) (at' : s.parked[k]? = some p) (inside : r < p.groups.length) :
    let t := s.scrubbed core line lane
    t.groups = s.groups ∧ ∃ q, t.parked[k]? = some q ∧ (n, lane) ∉ (nth {} q.groups r).weak ∧ q = { p with groups := q.groups }
      ∧ ∀ m, { nth {} q.groups m with weak := [] } = { nth {} p.groups m with weak := [] } := by
  rw [s.scrubbed_parked core line lane free h]
  refine ⟨rfl, { p with groups := setNth ((nth {} p.groups r).healWord n lane) p.groups r },
    s.mapParked_at k r (fun g => g.healWord n lane) p at', ?_, rfl, fun m => ?_⟩
  · simp only [nth_setNth, inside, and_self, if_true]
    exact Group.healWord_weak _ n lane
  · by_cases e : m = r
    · subst e; simp only [nth_setNth, inside, and_self, if_true, Group.healWord]
    · simp only [nth_setNth, e, false_and, if_false]

/-- A word that the scrubber cannot correct, in a line of a group: it is marked, and counted and recorded as a contained error (R367). -/
theorem Group.markWord_spec (g : Group) (n lane : Nat) : let h := g.markWord n lane
    h.v = g.v ∧ (n, lane) ∈ h.bad ∧ (g.mev = none → g.csr.merrlog0.getLsbD 63 = true → h.csr.merrlog0 = g.csr.merrlog0)
      ∧ (0x062 ∉ g.csrw → h.csr.merrcnt = min (g.csr.merrcnt + 1) (2 ^ 32 - 1)) := by
  refine ⟨rfl, ?_, fun none valid => ?_, fun kept => ?_⟩
  · simp only [Group.markWord, logContained, logRanked]
    split <;> simp_all
  · simp only [Group.markWord, logContained, logRanked, none, Option.isNone_none, if_true, valid]
  · simp only [Group.markWord, logContained, logRanked, Group.count, List.contains_iff_mem, if_neg kept]
    rfl

theorem execScrubRead_clean (core line lane : Nat) (s : State) : execScrubRead core line lane .clean s = .next s := by
  simp [execScrubRead]

theorem execScrubRead_corrected (core line lane : Nat) (s : State) (h : line < 2048) (l : lane < 32) :
    execScrubRead core line lane .corrected s = .next (s.scrubbed core line lane) := by
  simp [execScrubRead, Nat.not_le.mpr h, Nat.not_le.mpr l]

theorem execScrubRead_owned (core line lane : Nat) (s : State) (h : line < 2048) (l : lane < 32) {team r n : Nat}
    (o : s.lineOwner core line = some (team, r, n)) :
    execScrubRead core line lane .uncorrectable s = .next (s.setGrp (team + r) ((s.grp (team + r)).markWord n lane)) := by
  simp [execScrubRead, Nat.not_le.mpr h, Nat.not_le.mpr l, o]

theorem execScrubRead_unowned (core line lane : Nat) (s : State) (h : line < 2048) (l : lane < 32)
    (o : s.lineOwner core line = none) (p : s.lineParked core line = none) :
    execScrubRead core line lane .uncorrectable s = .next (s.setCore core { s.core core with
      elog := (s.core core).elog ++ [merrWords { kind := 7, id := line, posa := lane } 0] }) := by
  simp [execScrubRead, Nat.not_le.mpr h, Nat.not_le.mpr l, o, p]

end Sys2Proof.Machine

namespace Sys2Proof

open Sys2Proof.Machine

/-- Settles O45, register by register, key pair by key pair and finding by finding. -/
theorem registersKeysAndScrubber : Obligations.RegistersKeysAndScrubber := by
  unfold Obligations.RegistersKeysAndScrubber
  refine ⟨execRegisterWrite_rule, fun r s => ⟨rfl, fun x h => ?_⟩, fun key pair s valid => ⟨fun other => ?_, fun k e same => ?_⟩,
    fun core line lane s inLines inLanes => ⟨?_, ?_, fun team r n owned => ?_, fun free running => ?_⟩⟩
  · rw [← s.regRead_stated r x h]; rfl
  · exact ⟨_, execKeyInstall_new key pair s valid other, rfl, fun n => Tab.find_set_ite _ key n _⟩
  · exact ⟨_, execKeyInstall_same key pair s valid k e same, rfl⟩
  · exact ⟨_, execScrubRead_clean core line lane s, rfl⟩
  · obtain ⟨eq, cores⟩ := s.scrubbed_eq core line lane
    refine ⟨_, execScrubRead_corrected core line lane s inLines inLanes, eq, s.scrubbed_values core line lane, fun team r n owned => ?_,
      fun k r n p free stopped at' inside => s.scrubbed_heals_parked core line lane free stopped at' inside, fun c => ?_⟩
    · rw [s.scrubbed_owned core line lane owned]
      exact ⟨rfl, by simpa [State.grp] using Group.healWord_weak _ n lane⟩
    · rw [cores c]
      exact s.maybeCounted_core core c
  · obtain ⟨v, bad, record, count⟩ := (s.grp (team + r)).markWord_spec n lane
    refine ⟨_, execScrubRead_owned core line lane s inLines inLanes owned, rfl, fun g ne => State.grp_setGrp_ne s _ ne, ?_⟩
    rw [State.grp_setGrp]
    exact ⟨v, bad, record, count⟩
  · exact ⟨_, execScrubRead_unowned core line lane s inLines inLanes free running, rfl, fun c ne => State.core_setCore_ne s _ ne,
      _, State.core_setCore s core _⟩

end Sys2Proof
end

section
/-!
PROOFS. What reset leaves, boot, failures of links, expanders and cores, and the accesses of peers.
-/

namespace Sys2Proof.Machine

open Sys2Proof

/-! ### Reset -/

/-- A list that holds the default alone gives the default at every place. -/
theorem nth_eq_default {α : Type} (d : α) (xs : List α) (h : ∀ x ∈ xs, x = d) (i : Nat) : nth d xs i = d := by
  induction xs generalizing i with
  | nil => rfl
  | cons x xs ih =>
    cases i with
    | zero => exact h x (List.mem_cons_self ..)
    | succ i => exact ih (fun y m => h y (List.mem_cons_of_mem x m)) i

theorem State.reset_die (d : Nat) : State.reset.die d = {} :=
  nth_eq_default _ _ (by simp [State.reset]) d

theorem State.reset_front (d k : Nat) : State.reset.front d k = {} := by
  rw [State.front, State.reset_die]
  exact nth_eq_default _ _ (by simp) k

theorem State.reset_conn (n : Nat) : State.reset.conn n = {} := rfl

theorem State.reset_dbgPc (c n : Nat) : nth {} (State.reset.core c).dbgPc n = {} :=
  nth_eq_default _ _ (by simp [State.reset, State.core, Tab.get, Tab.find]) n

/-! ### Self-test without a defect (R294) -/

theorem nth_take {α : Type} (d : α) (n i : Nat) (xs : List α) (h : i < n) : nth d (xs.take n) i = nth d xs i := by
  induction xs generalizing n i with
  | nil => rw [List.take_nil]
  | cons x xs ih =>
    obtain ⟨n, rfl⟩ := Nat.exists_eq_succ_of_ne_zero (Nat.ne_of_gt (Nat.zero_lt_of_lt h))
    cases i with
    | zero => rfl
    | succ i => exact ih n i (Nat.lt_of_succ_lt_succ h)

/-- The physical site, as 64·column + row, of column `c` of row `r` of a die. -/
def dieSite (die r c : Nat) : Nat := 64 * (26 * (die % 2) + c) + (16 * (die / 2) + r)

/-- Row `r` of a die whose every site passes. -/
theorem firstMapping_row (die r : Nat) (h : r < 16) :
    nth [] (firstMapping die []).rows r = ((rangeFrom (26 * (die % 2)) 26).map fun c => 64 * c + (16 * (die / 2) + r)).take 24 := by
  simp only [firstMapping]
  rw [nth_map [] [] _ _ _ (by simpa using h), nth_map [] 0 _ _ _ (by simpa using h), upto, nth_rangeFrom, if_pos h]
  simp

theorem firstMapping_row_length (die r : Nat) (h : r < 16) : (nth [] (firstMapping die []).rows r).length = 24 := by
  simp [firstMapping_row die r h]

/-- A die whose every row has 24 sites borrows none. -/
theorem dieMapping_sound (die : Nat) : dieMapping die [] = firstMapping die [] := by
  have keep : ∀ rs : List Nat, (∀ r ∈ rs, r < 16) →
      rs.foldl (fun m r => borrow r (24 - (nth [] m.rows r).length) m) (firstMapping die []) = firstMapping die [] := fun rs small => by
    induction rs with
    | nil => rfl
    | cons r rs ih =>
      rw [List.foldl_cons, firstMapping_row_length die r (small r (List.mem_cons_self ..))]
      exact ih fun q m => small q (List.mem_cons_of_mem r m)
  exact keep (upto 16) fun r m => mem_upto.mp m

theorem firstMapping_site (die r c : Nat) (hr : r < 16) (hc : c < 24) :
    nth 0 (nth [] (firstMapping die []).rows r) c = dieSite die r c := by
  rw [firstMapping_row die r hr, nth_take _ _ _ _ hc, nth_map 0 0 _ _ _ (by simp; omega), nth_rangeFrom, if_pos (by omega), dieSite]

/-- The physical site of a logical core where no site is defective (R293). -/
def soundSite (core : Nat) : Nat := 64 * (core % 24 + 26 * (core / 24 % 2)) + core / 48

/-- Logical core of column `c` of row `r` of a die (R293). -/
def dieCore (die r c : Nat) : Nat := 48 * (16 * (die / 2) + r) + 24 * (die % 2) + c

theorem soundSite_dieCore (die r c : Nat) (hc : c < 24) : soundSite (dieCore die r c) = dieSite die r c := by
  have col : dieCore die r c % 24 = c := by unfold dieCore; omega
  have side : dieCore die r c / 24 % 2 = die % 2 := by unfold dieCore; omega
  have row : dieCore die r c / 48 = 16 * (die / 2) + r := by unfold dieCore; omega
  rw [soundSite, col, side, row, dieSite, Nat.add_comm c]

/-- Every logical core number belongs to a column of a row of a die. -/
theorem dieCore_surjective (core : Nat) (h : core < 1536) : ∃ d r c, d < 4 ∧ r < 16 ∧ c < 24 ∧ core = dieCore d r c := by
  refine ⟨2 * (core / 768) + core / 24 % 2, core / 48 % 16, core % 24, by omega, by omega, by omega, ?_⟩
  unfold dieCore
  omega

theorem mem_logicalSites (die : Nat) (e : Nat × Nat) :
    e ∈ logicalSites die (firstMapping die []) ↔ ∃ r c, r < 16 ∧ c < 24 ∧ e = (dieCore die r c, dieSite die r c) := by
  simp only [logicalSites, List.mem_flatMap, List.mem_map, mem_upto]
  constructor
  · rintro ⟨r, hr, c, hc, rfl⟩
    rw [firstMapping_row_length die r hr] at hc
    exact ⟨r, c, hr, hc, by rw [firstMapping_site die r c hr hc, dieCore]⟩
  · rintro ⟨r, c, hr, hc, rfl⟩
    exact ⟨r, hr, c, by rwa [firstMapping_row_length die r hr], by rw [firstMapping_site die r c hr hc, dieCore]⟩

/-- A table filled from pairs of which those with one number agree. -/
theorem Tab.find_fill {α : Type} (es : List (Nat × α)) (n : Nat) (x : α) (only : ∀ e ∈ es, e.1 = n → e.2 = x) (t : Tab α)
    (h : Tab.find t n = some x ∨ ∃ e ∈ es, e.1 = n) : Tab.find (es.foldl (fun t e => Tab.set t e.1 e.2) t) n = some x := by
  induction es generalizing t with
  | nil => simpa using h
  | cons e es ih =>
    refine ih (fun f m => only f (List.mem_cons_of_mem e m)) _ ?_
    rw [Tab.find_set_ite]
    by_cases c : n = e.1
    · exact .inl (by rw [if_pos c, only e (List.mem_cons_self ..) c.symm])
    · rw [if_neg c]
      refine h.imp id ?_
      rintro ⟨f, m, rfl⟩
      exact ⟨f, (List.mem_cons.mp m).resolve_left fun q => c (q ▸ rfl), rfl⟩

/-- The relocation table of a package without a defect (R293, R295). -/
theorem relocation_sound (core : Nat) (h : core < 1536) :
    Tab.find (relocation ((upto 4).map fun d => dieMapping d [])) core = some (soundSite core) := by
  have at' : ∀ d, d < 4 → nth ⟨[], []⟩ ((upto 4).map fun d => dieMapping d []) d = firstMapping d [] := fun d hd => by
    rw [nth_map _ 0 _ _ _ (by simpa using hd), upto, nth_rangeFrom, if_pos hd, Nat.zero_add, dieMapping_sound]
  refine Tab.find_fill _ core _ (fun e m eq => ?_) [] (.inr ?_)
  · obtain ⟨d, hd, m⟩ := List.mem_flatMap.mp m
    rw [at' d (mem_upto.mp hd)] at m
    obtain ⟨r, c, hr, hc, rfl⟩ := (mem_logicalSites d e).mp m
    rw [← eq, soundSite_dieCore d r c hc]
  · obtain ⟨d, r, c, hd, hr, hc, eq⟩ := dieCore_surjective core h
    refine ⟨(dieCore d r c, dieSite d r c), List.mem_flatMap.mpr ⟨d, mem_upto.mpr hd, ?_⟩, eq.symm⟩
    rw [at' d hd]
    exact (mem_logicalSites d _).mpr ⟨r, c, hr, hc, rfl⟩

/-! ### Boot (R414, R415) -/

/-- A package reset leaves the state of reset with the sites mapped and the first fetch begun. -/
theorem execPackageReset_spec (defects : List Site) (s : State) : ∃ t, execPackageReset defects s = .next t ∧ t.pkg.boot = .fetch 0 0
    ∧ t.mem = [] ∧ t.groups = [] ∧ t.teams = [] ∧ t.ctxs = [] ∧ t.binds = [] ∧ t.side = [] ∧ t.pkg.idkey = true ∧ t.pkg.retry = true
    ∧ t.pkg.twdog = 100 ∧ t.pkg.l2p = relocation ((upto 4).map fun d => dieMapping d defects) :=
  ⟨_, rfl, rfl, rfl, rfl, rfl, rfl, rfl, rfl, rfl, rfl, rfl, by dsimp only [State.fetchFrom, State.report_pkg]⟩

theorem execBundleFetchDone_good (b : Bundle) (expanders : List Nat) (s : State) {target round : Nat} (h : s.pkg.boot = .fetch target round)
    (good : bundleGood romKeyHash b = true) : execBundleFetchDone (some b) expanders s = .next { s with pkg := { s.pkg with
      boot := .running, retry := false, fwhash := bundleHash b, faddr := b.faddr % 4096
      expand := (upto 4).map fun p => nth 0 expanders p / 2 ^ 28 * 2 ^ 28 } } := by
  simp only [execBundleFetchDone, h, Option.filter, good, if_true]

/-- What the ROM goes on with after a fetch or a verification that failed. -/
def State.fetchFailed (s : State) (target round : Nat) : State :=
  if target + 1 < bootTargets then s.fetchFrom (target + 1) round
  else if round < 2 then { s with pkg := { s.pkg with boot := .wait round (s.pkg.wtime + 1000000000) } }
  else ({ s with pkg := { s.pkg with boot := .halted } } : State).report "boot-halted" []

theorem execBundleFetchDone_failed (bundle : Option Bundle) (expanders : List Nat) (s : State) {target round : Nat}
    (h : s.pkg.boot = .fetch target round) (bad : bundle.filter (bundleGood romKeyHash) = none) :
    execBundleFetchDone bundle expanders s = .next (s.fetchFailed target round) := by
  simp only [execBundleFetchDone, h, bad, State.fetchFailed]
  split
  · rfl
  · split <;> rfl

theorem State.fetchFailed_spec (s : State) (target round : Nat) : let t := s.fetchFailed target round
    t.pkg.retry = s.pkg.retry ∧ t.pkg.fwhash = s.pkg.fwhash ∧ t.mem = s.mem
      ∧ (target + 1 < bootTargets → t.pkg.boot = .fetch (target + 1) round)
      ∧ (bootTargets ≤ target + 1 → round < 2 → t.pkg.boot = .wait round (s.pkg.wtime + 10 ^ 9))
      ∧ (bootTargets ≤ target + 1 → 2 ≤ round → t.pkg.boot = .halted) := by
  unfold State.fetchFailed
  by_cases more : target + 1 < bootTargets
  · rw [if_pos more]
    exact ⟨rfl, rfl, rfl, fun _ => rfl, fun h => absurd more (Nat.not_lt.mpr h), fun h => absurd more (Nat.not_lt.mpr h)⟩
  · rw [if_neg more]
    by_cases again : round < 2
    · rw [if_pos again]
      exact ⟨rfl, rfl, rfl, fun h => absurd h more, fun _ _ => rfl, fun _ h => absurd again (Nat.not_lt.mpr h)⟩
    · rw [if_neg again]
      exact ⟨rfl, rfl, rfl, fun h => absurd h more, fun _ h => absurd h again, fun _ _ => rfl⟩

/-- What a bundle that verifies shows (R414). -/
theorem bundleGood_fields {root : List Byte} {b : Bundle} (h : bundleGood root b = true) :
    b.magic = [0x4A#8, 0x42#8, 0x34#8, 0x46#8] ∧ b.version = 1 ∧ b.length ≤ 2 ^ 26 ∧ b.header.length = 64 ∧ b.image.length = b.length
      ∧ b.sig.length = 64 ∧ keyHash b = root := by
  simp only [bundleGood, Bool.and_eq_true, beq_iff_eq, decide_eq_true_eq] at h
  obtain ⟨⟨⟨⟨⟨⟨⟨magic, version⟩, len⟩, header⟩, image⟩, sig⟩, key⟩, _⟩ := h
  exact ⟨magic, version, len, header, image, sig, key⟩

theorem execBootRetryExpiry_due (s : State) {round due : Nat} (h : s.pkg.boot = .wait round due) (late : due ≤ s.pkg.wtime) :
    execBootRetryExpiry s = .next (s.fetchFrom 0 (round + 1)) := by
  simp only [execBootRetryExpiry, h, if_neg (Nat.not_lt.mpr late)]

/-! ### The moves of a job (R283, R411) -/

/-- Two states with the same jobs and the same failed links. -/
structure SameJobs (s t : State) : Prop where
  jobs  : t.jobs = s.jobs
  links : t.pkg.links = s.pkg.links

namespace SameJobs

theorem refl (s : State) : SameJobs s s := ⟨rfl, rfl⟩

theorem trans {s t u : State} (a : SameJobs s t) (b : SameJobs t u) : SameJobs s u := ⟨b.jobs.trans a.jobs, b.links.trans a.links⟩

theorem of_onlyMemory {s t : State} (h : OnlyMemory s t) : SameJobs s t :=
  have eq : t = { s with mem := t.mem, side := t.side } := h
  ⟨by rw [eq], by rw [eq]⟩

theorem ite {c : Prop} [Decidable c] {s t u : State} (a : SameJobs s t) (b : SameJobs s u) : SameJobs s (if c then t else u) := by
  split
  · exact a
  · exact b

end SameJobs

theorem State.markLine_sameJobs (s : State) (pa : Nat) : SameJobs s (s.markLine pa) := .ite (.refl s) ⟨rfl, rfl⟩

theorem State.engWrite_sameJobs (s : State) (key pa : Nat) (bs : List Byte) (bad : Bool) (whole : Option Bool) :
    SameJobs s (s.engWrite key pa bs bad whole) := by
  have written := SameJobs.of_onlyMemory (s.writeUnit_onlyMemory key pa bs)
  unfold State.engWrite
  split
  · exact ⟨rfl, rfl⟩
  · cases whole with
    | some b => exact written.trans ⟨rfl, rfl⟩
    | none => exact .ite (written.trans (State.markLine_sameJobs _ pa)) written

theorem State.overHeld_sameJobs (s : State) (t pa n : Nat) : SameJobs s (s.overHeld t pa n) := .ite (.refl s) ⟨rfl, rfl⟩

/-- Unit `u` of job `id`, which was `x`, has moved, or the job has failed there. -/
def UnitMoves (id u : Nat) (x : Job) (s t : State) : Prop :=
  t.pkg.links = s.pkg.links ∧ ∃ y, t.jobs = Tab.set s.jobs id y ∧ y.ctx = x.ctx
    ∧ (y.ended = x.ended ∧ y.moved = u + 1 ∨ y.ended = true ∧ y.moved = x.moved)

theorem UnitMoves.done {id u : Nat} {x : Job} {s t : State} (h : SameJobs s t) (y : Job) (ctx : y.ctx = x.ctx) (ended : y.ended = x.ended) :
    UnitMoves id u x s { t with jobs := Tab.set t.jobs id { y with moved := u + 1 } } :=
  ⟨h.links, { y with moved := u + 1 }, congrArg (Tab.set · id _) h.jobs, ctx, .inl ⟨ended, rfl⟩⟩

theorem UnitMoves.failed {id u : Nat} {x : Job} {s : State} (st j va : Nat) :
    UnitMoves id u x s { s with jobs := Tab.set s.jobs id (x.fail st j va) } :=
  ⟨rfl, x.fail st j va, rfl, rfl, .inr ⟨rfl, rfl⟩⟩

theorem UnitMoves.ite {c : Prop} [Decidable c] {id u : Nat} {x : Job} {s t t' : State} (a : UnitMoves id u x s t) (b : UnitMoves id u x s t') :
    UnitMoves id u x s (if c then t else t') := by
  split
  · exact a
  · exact b

theorem jobUnit_moves (s : State) (id : Nat) (x : Job) (k : Card) (u : Nat) : UnitMoves id u x s (jobUnit s id x k u) := by
  unfold jobUnit
  dsimp only
  split
  next => -- the row has both its places
    split
    next => exact .failed _ _ _ -- the source faults
    next => exact .failed _ _ _ -- the destination faults
    next =>
      split
      next => -- a poisoned row is skipped, or fails the job
        exact .ite ⟨rfl, _, rfl, rfl, .inl ⟨rfl, rfl⟩⟩ (.failed _ _ _)
      next => -- the bytes go to a scratchpad, or to memory
        refine .done (.trans (.ite ?_ ?_) ⟨rfl, rfl⟩) x rfl rfl
        · exact .ite ⟨rfl, rfl⟩ ⟨rfl, rfl⟩
        · exact (s.engWrite_sameJobs _ _ _ _ _).trans (State.overHeld_sameJobs _ _ _ _)
  next => exact .failed _ _ _ -- an index outside a window
  next => exact .failed _ _ _

/-- Job `id`, which was `x`, has moved at most to unit `u`, and has come to less where it has ended. -/
structure Advanced (id u : Nat) (x : Job) (s t : State) : Prop where
  links  : t.pkg.links = s.pkg.links
  others : ∀ n, n ≠ id → Tab.find t.jobs n = Tab.find s.jobs n
  job    : ∃ y, Tab.find t.jobs id = some y ∧ y.ctx = x.ctx ∧ (y.ended = false ∧ y.moved ≤ u ∨ y.ended = true ∧ y.moved < u)

namespace Advanced

theorem stays {id u : Nat} {x : Job} {s : State} (h : Tab.find s.jobs id = some x) (running : x.ended = false) (le : x.moved ≤ u) :
    Advanced id u x s s := ⟨rfl, fun _ _ => rfl, x, h, rfl, .inl ⟨running, le⟩⟩

theorem mono {id u v : Nat} {x : Job} {s t : State} (a : Advanced id u x s t) (le : u ≤ v) : Advanced id v x s t := by
  obtain ⟨links, others, y, found, ctx, at'⟩ := a
  exact ⟨links, others, y, found, ctx, at'.imp (And.imp_right (le_trans · le)) (And.imp_right (lt_of_lt_of_le · le))⟩

theorem sameJobs {id u : Nat} {x : Job} {s t t' : State} (a : Advanced id u x s t) (h : SameJobs t t') : Advanced id u x s t' := by
  obtain ⟨links, others, job⟩ := a
  rw [← h.jobs] at others job
  exact ⟨h.links.trans links, others, job⟩

end Advanced

/-- A job that has ended moves nothing more. -/
theorem jobUnits_ended (s : State) (id : Nat) (k : Card) (us : List Nat) {x : Job} (h : Tab.find s.jobs id = some x) (e : x.ended = true) :
    jobUnits s id k us = s := by
  cases us with
  | nil => rfl
  | cons u us => simp only [jobUnits, h, e, Bool.true_or, if_true]

theorem jobUnits_advanced (id : Nat) (k : Card) (m : Nat) (s : State) (x : Job) (h : Tab.find s.jobs id = some x) (running : x.ended = false) :
    Advanced id (x.moved + m) x s (jobUnits s id k (rangeFrom x.moved m)) := by
  induction m generalizing s x with
  | zero => exact .stays h running (Nat.le_refl _)
  | succ m ih =>
    simp only [rangeFrom, jobUnits, h, running, Bool.false_or]
    split
    · exact .stays h running (Nat.le_add_right _ _)
    · obtain ⟨links, y, jobs, ctx, moves⟩ := jobUnit_moves s id x k x.moved
      have found : Tab.find (jobUnit s id x k x.moved).jobs id = some y := by rw [jobs, Tab.find_set]
      have others : ∀ n, n ≠ id → Tab.find (jobUnit s id x k x.moved).jobs n = Tab.find s.jobs n := fun n ne => by
        rw [jobs, Tab.find_set_ne _ _ ne]
      rcases moves with ⟨ended, moved⟩ | ⟨ended, moved⟩
      · obtain ⟨links', others', z, found', ctx', at'⟩ := ih _ y found (ended.trans running)
        rw [moved, Nat.add_assoc, Nat.add_comm 1 m] at at'
        rw [moved] at links' others' found'
        exact ⟨links'.trans links, fun n ne => (others' n ne).trans (others n ne), z, found', ctx'.trans ctx, at'⟩
      · rw [jobUnits_ended _ id k _ found ended]
        exact ⟨links, others, y, found, ctx, .inr ⟨ended, by omega⟩⟩

theorem State.barLand_sameJobs (s : State) (t off n : Nat) : SameJobs s (s.barLand t off n) := ⟨rfl, rfl⟩

/-- Bytes that land move their job alone. -/
theorem State.jobLand_advanced (s : State) (id n : Nat) {x : Job} (h : Tab.find s.jobs id = some x) (running : x.ended = false) :
    Advanced id (x.moved + n / 16) x s (s.jobLand id n) := by
  simp only [State.jobLand, h]
  split
  · exact .stays h running (Nat.le_add_right _ _)
  · have moved := (jobUnits_advanced id (cardOf x.words) (Nat.min (n / 16) ((cardOf x.words).rows * ((cardOf x.words).len / 16) - x.moved)) s x
      h running).mono (Nat.add_le_add_left (Nat.min_le_left _ _) _)
    exact moved.sameJobs (.ite (State.barLand_sameJobs _ _ _ _) (.refl _))

theorem State.jobLand_zero (s : State) (id : Nat) : s.jobLand id 0 = s := by
  unfold State.jobLand
  cases h : Tab.find s.jobs id with
  | none => rfl
  | some x => simp [Nat.min, rangeFrom, jobUnits, h]

/-! ### Failed links (R411) -/

/-- A running job uses a link. -/
def Job.uses (x : Job) (link : Nat) : Prop := x.started = true ∧ x.ended = false ∧ x.link = some link

theorem Job.uses_iff (x : Job) (link : Nat) : x.uses link ↔ (!x.started || x.ended || x.link != some link) = false := by
  simp [Job.uses, Bool.or_eq_false_iff, and_assoc]

theorem Job.not_uses_of_ended {x : Job} {link : Nat} (h : x.ended = true) : ¬x.uses link := fun u => by simp [u.2.1] at h

/-- The loss of a link leaves a job that does not use it. -/
theorem State.linkLost_unused (s : State) (link id : Nat) (h : ∀ x, Tab.find s.jobs id = some x → ¬x.uses link) : s.linkLost link id = s := by
  unfold State.linkLost
  cases found : Tab.find s.jobs id with
  | none => rfl
  | some x =>
    have := h x found
    rw [Job.uses_iff, Bool.not_eq_false] at this
    simp only [this, if_true]

theorem State.linkLost_local (s : State) (link id : Nat) {x : Job} (h : Tab.find s.jobs id = some x) (none' : firstRemote s x (cardOf x.words) = none) :
    s.linkLost link id = s := by
  simp only [State.linkLost, h, none', ite_self]

/-- The loss of a link, for a job that uses it from unit `u` on. -/
theorem State.linkLost_remote (s : State) (link id : Nat) {x : Job} (h : Tab.find s.jobs id = some x) (uses : x.uses link) {u va : Nat}
    (first : firstRemote s x (cardOf x.words) = some (u, va)) : s.linkLost link id =
      let t := s.jobLand id (16 * (u - x.moved))
      let y := (Tab.find t.jobs id).getD x
      if y.ended then t else { t with jobs := Tab.set t.jobs id (y.fail 5 (y.moved / ((cardOf x.words).len / 16)) va) } := by
  rw [Job.uses_iff] at uses
  simp only [State.linkLost, h, uses, first, Bool.false_eq_true, if_false]

/-- What the loss of a link leaves of a job whose first access that the link carries is that of unit `u`. -/
def Severed (u : Nat) (x y : Job) : Prop := y.ended = true ∧ y.ctx = x.ctx ∧ y.moved ≤ u ∧ (y.status = 5 ∨ y.moved < u)

theorem State.linkLost_severs (s : State) (link id : Nat) {x : Job} (h : Tab.find s.jobs id = some x) (uses : x.uses link) {u va : Nat}
    (first : firstRemote s x (cardOf x.words) = some (u, va)) (le : x.moved ≤ u) : let t := s.linkLost link id
    t.pkg.links = s.pkg.links ∧ (∀ n, n ≠ id → Tab.find t.jobs n = Tab.find s.jobs n) ∧ ∃ y, Tab.find t.jobs id = some y ∧ Severed u x y := by
  rw [s.linkLost_remote link id h uses first]
  obtain ⟨links, others, y, found, ctx, at'⟩ := s.jobLand_advanced id (16 * (u - x.moved)) h uses.2.1
  rw [Nat.mul_div_cancel_left _ (by decide), Nat.add_sub_cancel' le] at at'
  simp only [found, Option.getD_some]
  rcases at' with ⟨ended, moved⟩ | ⟨ended, moved⟩
  · rw [ended]
    exact ⟨links, fun n ne => (Tab.find_set_ne _ _ ne).trans (others n ne), _, Tab.find_set _ _ _, rfl, ctx, moved, .inl rfl⟩
  · rw [ended]
    exact ⟨links, others, y, found, ended, ctx, Nat.le_of_lt moved, .inr moved⟩

/-- The first of a range at which a function has a value. -/
theorem findSome?_rangeFrom {α : Type} (f : Nat → Option α) {a n u : Nat} {b : α} (le : a ≤ u) (lt : u < a + n)
    (before : ∀ v, a ≤ v → v < u → f v = none) (at' : f u = some b) : (rangeFrom a n).findSome? f = some b := by
  induction n generalizing a with
  | zero => omega
  | succ n ih =>
    rw [rangeFrom, List.findSome?_cons]
    by_cases e : a = u
    · rw [e, at']
    · rw [before a (Nat.le_refl _) (by omega)]
      exact ih (by omega) (by omega) fun v hv => before v (by omega)

theorem firstRemote_le {s : State} {x : Job} {k : Card} {u va : Nat} (h : firstRemote s x k = some (u, va)) : x.moved ≤ u := by
  obtain ⟨v, m, e⟩ := List.exists_of_findSome?_eq_some h
  obtain ⟨a, _, e⟩ := Option.map_eq_some_iff.mp e
  obtain ⟨rfl, _⟩ := Prod.mk.inj e
  exact (mem_rangeFrom.mp m).1

/-- Units of a job's card. -/
def Job.units (x : Job) : Nat := (cardOf x.words).rows * ((cardOf x.words).len / 16)

theorem firstRemote_at {s : State} {x : Job} {u va : Nat} (le : x.moved ≤ u) (lt : u < x.units)
    (before : ∀ v, x.moved ≤ v → v < u → unitRemote s x (cardOf x.words) v = none) (at' : unitRemote s x (cardOf x.words) u = some va) :
    firstRemote s x (cardOf x.words) = some (u, va) :=
  findSome?_rangeFrom _ le (by unfold Job.units at lt; omega) (fun v hv lv => by rw [before v hv lv]; rfl) (by rw [at']; rfl)

/-- Of the jobs, `t` has those that do not use the link as `s` has them; and the same links. -/
structure LinkFrame (link : Nat) (s t : State) : Prop where
  links : t.pkg.links = s.pkg.links
  kept  : ∀ n x, Tab.find s.jobs n = some x → ¬x.uses link → Tab.find t.jobs n = some x

theorem LinkFrame.refl (link : Nat) (s : State) : LinkFrame link s s := ⟨rfl, fun _ _ h _ => h⟩

theorem LinkFrame.trans {link : Nat} {s t u : State} (a : LinkFrame link s t) (b : LinkFrame link t u) : LinkFrame link s u :=
  ⟨b.links.trans a.links, fun n x h not => b.kept n x (a.kept n x h not) not⟩

theorem State.linkLost_frame (s : State) (link id : Nat) : LinkFrame link s (s.linkLost link id) := by
  by_cases unused : ∀ x, Tab.find s.jobs id = some x → ¬x.uses link
  · rw [s.linkLost_unused link id unused]
    exact .refl link s
  · push Not at unused
    obtain ⟨x, found, uses⟩ := unused
    cases first : firstRemote s x (cardOf x.words) with
    | none =>
      rw [s.linkLost_local link id found first]
      exact .refl link s
    | some e =>
      obtain ⟨links, others, _⟩ := s.linkLost_severs link id found uses first (firstRemote_le first)
      refine ⟨links, fun n z h not => ?_⟩
      have ne : n ≠ id := by
        rintro rfl
        rw [found] at h
        exact not (Option.some.inj h ▸ uses)
      rw [others n ne, h]

/-- The loss of a link for the jobs of a list. -/
def State.linkLostAll (s : State) (link : Nat) (ids : List Nat) : State := ids.foldl (fun u id => u.linkLost link id) s

theorem State.linkLostAll_frame (s : State) (link : Nat) (ids : List Nat) : LinkFrame link s (s.linkLostAll link ids) := by
  induction ids generalizing s with
  | nil => exact .refl link s
  | cons id ids ih => exact (s.linkLost_frame link id).trans (ih _)

/-- The one job that uses a link ends by its first access that the link carries. -/
theorem State.linkLostAll_single (s : State) (link : Nat) (ids : List Nat) {n u va : Nat} {x : Job} (m : n ∈ ids)
    (found : Tab.find s.jobs n = some x) (uses : x.uses link) (only : ∀ m y, m ≠ n → Tab.find s.jobs m = some y → ¬y.uses link)
    (first : firstRemote s x (cardOf x.words) = some (u, va)) : ∃ y, Tab.find (s.linkLostAll link ids).jobs n = some y ∧ Severed u x y := by
  induction ids with
  | nil => simp at m
  | cons id ids ih =>
    rw [State.linkLostAll, List.foldl_cons]
    by_cases e : id = n
    · subst e
      obtain ⟨_, _, y, at', severed⟩ := s.linkLost_severs link id found uses first (firstRemote_le first)
      exact ⟨y, ((s.linkLost link id).linkLostAll_frame link ids).kept id y at' (Job.not_uses_of_ended severed.1), severed⟩
    · rw [s.linkLost_unused link id fun y => only id y e]
      exact ih ((List.mem_cons.mp m).resolve_left (Ne.symm e))

/-- Every job that uses a link is about to make an access that the link carries. -/
def State.AllAtRemote (s : State) (link : Nat) : Prop := ∀ n x, Tab.find s.jobs n = some x → x.uses link →
  x.moved < x.units ∧ unitRemote s x (cardOf x.words) x.moved ≠ none

/-- A job that a lost link ends where it stands. -/
def CutOff (x y : Job) : Prop := y.status = 5 ∧ y.ended = true ∧ y.ctx = x.ctx ∧ y.moved = x.moved

/-! #### Jobs and failed links decide nothing about which addresses a remote window translates -/

/-- The state with other jobs and other failed links. -/
def State.withJobs (s : State) (js : Tab Job) (ls : List Nat) : State := { s with jobs := js, pkg := { s.pkg with links := ls } }

section
variable (s : State) (js : Tab Job) (ls : List Nat)

theorem State.pte_withJobs (table i : Nat) : (s.withJobs js ls).pte table i = s.pte table i := rfl

theorem State.checkPte_withJobs (lvl e : Nat) : (s.withJobs js ls).checkPte lvl e = s.checkPte lvl e := rfl

theorem State.walk_withJobs (ctx va : Nat) : (s.withJobs js ls).walk ctx va = s.walk ctx va := by
  simp only [State.walk, State.pte_withJobs, State.checkPte_withJobs]
  rfl

theorem State.cached_withJobs (core ctx va : Nat) : (s.withJobs js ls).cached core ctx va = s.cached core ctx va := rfl

theorem State.xlateNow_withJobs (core ctx va : Nat) (k : Kind) : (s.withJobs js ls).xlateNow core ctx va k = s.xlateNow core ctx va k := by
  simp only [State.xlateNow, State.walked, State.walk_withJobs, State.cached_withJobs]

theorem engXlate_withJobs (x : Job) (va : Nat) (k : Kind) : engXlate (s.withJobs js ls) x va k = engXlate s x va k := by
  simp only [engXlate, State.xlateNow_withJobs]

theorem State.windowOf_withJobs (pa : Nat) : (s.withJobs js ls).windowOf pa = s.windowOf pa := rfl

theorem farAt_withJobs (x : Job) (va : Nat) (k : Kind) : farAt (s.withJobs js ls) x va k = farAt s x va k := by
  simp only [farAt, engXlate_withJobs, State.windowOf_withJobs]

theorem jobRow_withJobs (x : Job) (k : Card) (j : Nat) : jobRow (s.withJobs js ls) x k j = jobRow s x k j := rfl

theorem unitRemote_withJobs (x : Job) (k : Card) (u : Nat) : unitRemote (s.withJobs js ls) x k u = unitRemote s x k u := by
  simp only [unitRemote, jobRow_withJobs, farAt_withJobs]

theorem firstRemote_withJobs (x : Job) (k : Card) : firstRemote (s.withJobs js ls) x k = firstRemote s x k := by
  simp only [firstRemote, unitRemote_withJobs]

end

/-! #### The loss of a link -/

theorem State.linkLost_cuts (s : State) (link id : Nat) (h : s.AllAtRemote link) {x : Job} (found : Tab.find s.jobs id = some x)
    (uses : x.uses link) : ∃ y, s.linkLost link id = s.withJobs (Tab.set s.jobs id y) s.pkg.links ∧ CutOff x y := by
  obtain ⟨lt, remote⟩ := h id x found uses
  obtain ⟨va, at'⟩ := Option.ne_none_iff_exists'.mp remote
  have first := firstRemote_at (Nat.le_refl _) lt (fun v a b => absurd b (Nat.not_lt.mpr a)) at'
  rw [s.linkLost_remote link id found uses first]
  simp only [Nat.sub_self, Nat.mul_zero, State.jobLand_zero, found, Option.getD_some, uses.2.1, Bool.false_eq_true, if_false]
  exact ⟨_, rfl, rfl, rfl, rfl, rfl⟩

/-- The jobs alone change, and each job of the list that uses the link ends where it stands. -/
theorem State.linkLostAll_cuts (s : State) (link : Nat) (ids : List Nat) (h : s.AllAtRemote link) : let t := s.linkLostAll link ids
    t = { s with jobs := t.jobs }
      ∧ ∀ n ∈ ids, ∀ x, Tab.find s.jobs n = some x → x.uses link → ∃ y, Tab.find t.jobs n = some y ∧ CutOff x y := by
  induction ids generalizing s with
  | nil => exact ⟨rfl, fun n m => absurd m (List.not_mem_nil)⟩
  | cons id ids ih =>
    by_cases unused : ∀ x, Tab.find s.jobs id = some x → ¬x.uses link
    · have same : s.linkLostAll link (id :: ids) = s.linkLostAll link ids := by
        rw [State.linkLostAll, List.foldl_cons, s.linkLost_unused link id unused, State.linkLostAll]
      rw [same]
      obtain ⟨eq, cut⟩ := ih s h
      refine ⟨eq, fun n m x found uses => ?_⟩
      rcases List.mem_cons.mp m with rfl | m
      · exact absurd uses (unused x found)
      · exact cut n m x found uses
    · push Not at unused
      obtain ⟨x, found, uses⟩ := unused
      obtain ⟨y, eq, off⟩ := s.linkLost_cuts link id h found uses
      have ended : ¬y.uses link := Job.not_uses_of_ended off.2.1
      have step : s.linkLostAll link (id :: ids) = (s.withJobs (Tab.set s.jobs id y) s.pkg.links).linkLostAll link ids := by
        rw [State.linkLostAll, List.foldl_cons, eq, State.linkLostAll]
      have rest : (s.withJobs (Tab.set s.jobs id y) s.pkg.links).AllAtRemote link := fun n z at' zuses => by
        rw [unitRemote_withJobs]
        have ne : n ≠ id := by
          rintro rfl
          exact ended (Option.some.inj ((Tab.find_set _ _ _).symm.trans at') ▸ zuses)
        exact h n z ((Tab.find_set_ne _ _ ne).symm.trans at') zuses
      rw [step]
      obtain ⟨eq', cut⟩ := ih _ rest
      refine ⟨eq'.trans rfl, fun n m z at' zuses => ?_⟩
      by_cases e : n = id
      · subst e
        rw [found] at at'
        cases at'
        exact ⟨y, (State.linkLostAll_frame _ link ids).kept n y (Tab.find_set _ _ _) ended, off⟩
      · exact cut n ((List.mem_cons.mp m).resolve_left e) z ((Tab.find_set_ne _ _ e).trans at') zuses

/-- The state in which a link is marked as failed. -/
def State.linkDown (s : State) (link : Nat) : State := s.withJobs s.jobs (s.pkg.links ++ [link])

theorem State.AllAtRemote.linkDown {s : State} {link : Nat} (h : s.AllAtRemote link) : (s.linkDown link).AllAtRemote link :=
  fun n x found uses => by
    rw [State.linkDown, unitRemote_withJobs]
    exact h n x found uses

theorem execLinkFailure_new (link : Nat) (s : State) (h : link < 18) (new : link ∉ s.pkg.links) :
    execLinkFailure link s = .next (((s.linkDown link).linkLostAll link (Tab.keys s.jobs)).report "link-failure" [link]) := by
  simp only [execLinkFailure, decide_eq_false (Nat.not_le.mpr h), List.contains_iff_mem, new, Bool.false_or, if_false]
  rfl

theorem Tab.mem_keys {α : Type} {t : Tab α} {n : Nat} {x : α} (h : Tab.find t n = some x) : n ∈ Tab.keys t :=
  List.mem_map.mpr ⟨_, Tab.find_mem h, rfl⟩

/-! ### Lost expanders and failed cores (R13, R295, R410) -/

/-- Firmware ends the contexts of a list: none of their teams stays. -/
theorem State.terminateAll_spec (why : String) (args cs : List Nat) (s : State) : let t := cs.foldl (fun t c => t.terminateFor c why args) s
    t.mem = s.mem ∧ t.pkg.expand = s.pkg.expand ∧ ∀ x ∈ t.teams, x ∈ s.teams ∧ x.2.ctx ∉ cs := by
  induction cs generalizing s with
  | nil => exact ⟨rfl, rfl, fun x m => ⟨m, List.not_mem_nil⟩⟩
  | cons c cs ih =>
    obtain ⟨mem, expand, teams⟩ := ih (s.terminateFor c why args)
    refine ⟨mem, expand, fun x m => ?_⟩
    obtain ⟨m, other⟩ := teams x m
    obtain ⟨m, ne⟩ := List.mem_filter.mp (show x ∈ s.teams.filter fun e => e.2.ctx != c from m)
    exact ⟨m, fun c => (List.mem_cons.mp c).elim (bne_iff_ne.mp ne) other⟩

theorem execExpanderLoss_spec (port : Nat) (s : State) (h : port < 4) : ∃ t, execExpanderLoss port s = .next t ∧ t.mem = s.mem
    ∧ t.pkg.expand = setNth 0 s.pkg.expand port ∧ ∀ e ∈ s.ctxs, s.holdsTier e.1 port = true → ∀ x ∈ t.teams, x.2.ctx ≠ e.1 := by
  obtain ⟨mem, expand, teams⟩ := State.terminateAll_spec "expander-loss" [port] ((s.ctxs.map (·.1)).filter fun c => s.holdsTier c port)
    (({ s with pkg := { s.pkg with expand := setNth 0 s.pkg.expand port } } : State).report "expander-loss" [port])
  refine ⟨_, if_neg (Nat.not_le.mpr h), mem, expand, fun e m holds x xm eq => ?_⟩
  exact (teams x xm).2 (eq ▸ List.mem_filter.mpr ⟨List.mem_map_of_mem m, holds⟩)

theorem execCoreFailure_found (core : Nat) (s : State) {p : Nat} (h : Tab.find s.pkg.l2p core = some p) : execCoreFailure core s =
    .next (({ s with pkg := { s.pkg with down := insertNum p s.pkg.down } } : State).report "core-failure" [core]) := by
  simp only [execCoreFailure, h]

/-! ### Accesses of peers (R412) -/

theorem State.backed_near (s : State) (pa n : Nat) (h : pa < 2 ^ 48) : s.backed pa n = Decidable.decide (pa + n ≤ 512 * 10 ^ 9) := by
  simp only [State.backed, Nat.div_eq_of_lt h, if_true]

/-- The first bytes of a backed range are backed. -/
theorem State.backed_mono (s : State) {pa n m : Nat} (h : s.backed pa n = true) (le : m ≤ n) : s.backed pa m = true := by
  simp only [State.backed] at h ⊢
  by_cases near : pa / 2 ^ 48 = 0
  · simp only [if_pos near, decide_eq_true_eq] at h ⊢
    omega
  · simp only [if_neg near, Bool.and_eq_true, decide_eq_true_eq] at h ⊢
    exact ⟨h.1, by omega⟩

/-- A byte of a line under its own identifier and key (R212). -/
theorem State.byteAs_own {s : State} {key pa : Nat} (h : ownLine s key pa) : s.byteAs key pa = readCell s.mem pa := by
  obtain ⟨own, gen⟩ := h
  simp only [State.byteAs, own, gen, decide_true, Bool.and_true, if_true]

theorem State.sideOf_setSide (s : State) (l : Nat) (x : Side) : (s.setSide l x).sideOf l = x := by
  simp only [State.setSide, State.sideOf]
  split
  · subst_vars; exact Tab.get_drop _ _ _
  · exact Tab.get_set _ _ _ _

theorem State.closeLine_closed (s : State) (l : Nat) : ((s.closeLine l).sideOf l).opn = false := by
  simp only [State.closeLine]
  split
  · rw [State.sideOf_setSide]
  · simp_all

/-- A write within one line. -/
theorem State.writeUnit_line (s : State) (key pa : Nat) (bs : List Byte) (some' : bs ≠ []) (fits : pa % 64 + bs.length ≤ 64) :
    s.writeUnit key pa bs = (s.writeLine key (pa / 64) pa bs).closeLine (pa / 64) := by
  have pos := List.length_pos_of_ne_nil some'
  have one : (pa + bs.length - 1) / 64 + 1 - pa / 64 = 1 := by omega
  simp only [State.writeUnit, State.writeAs, List.isEmpty_eq_false_iff.mpr some', one, rangeFrom, List.foldl_cons, List.foldl_nil,
    Bool.false_eq_true, if_false]

/-- Bytes written within a line of the writer's own change no other byte (R212). -/
theorem State.readCell_writeLine_own (s : State) (key pa : Nat) (bs : List Byte) (fits : pa % 64 + bs.length ≤ 64) (own : ownLine s key pa)
    (w : Memory.wf s.mem = true) (a : Nat) : readCell (s.writeLine key (pa / 64) pa bs).mem a
      = if pa ≤ a ∧ a < pa + bs.length then nth 0#8 bs (a - pa) else readCell s.mem a := by
  simp only [State.writeLine, State.setSide_mem]
  rw [readCell_writeCells _ _ _ w, List.length_map, rangeFrom_length]
  by_cases line : 64 * (pa / 64) ≤ a ∧ a < 64 * (pa / 64) + 64
  · have same : ownLine s key a := by rwa [ownLine, show a / 64 = pa / 64 by omega]
    have within : a - 64 * (pa / 64) < 64 := by omega
    rw [if_pos line, nth_map _ 0 _ _ _ (by rwa [rangeFrom_length]), nth_rangeFrom, if_pos within, Nat.add_sub_cancel' line.1,
      State.byteAs_own same]
    simp only [Bool.and_eq_true, decide_eq_true_eq]
  · rw [if_neg line, if_neg (by omega)]

theorem execFledenlinkPeerAccess_read (key pa n : Nat) (s : State) : execFledenlinkPeerAccess key pa n none s = .next { s with
    pkg := { s.pkg with out := s.pkg.out ++ [(rangeFrom pa n).map (s.peerByte key)] }, fresh := s.fresh + 2 ^ 52 } := rfl

theorem State.peerByte_backed {s : State} {pa : Nat} (key : Nat) (h : s.backed pa 1 = true) : s.peerByte key pa = s.byteAs key pa := if_pos h

/-- A range of device memory that is backed reads as its bytes. -/
theorem State.peerBytes_near (s : State) (key pa n : Nat) (inside : pa + n ≤ 512 * 10 ^ 9) :
    (rangeFrom pa n).map (s.peerByte key) = s.bytesAs key pa n := by
  refine List.map_congr_left fun a m => State.peerByte_backed key ?_
  have range := mem_rangeFrom.mp m
  rw [s.backed_near a 1 (by omega), decide_eq_true_eq]
  omega

theorem execFledenlinkPeerAccess_write (key pa n : Nat) (bs : List Byte) (s : State) (h : s.backed pa bs.length = true) :
    execFledenlinkPeerAccess key pa n (some bs) s = .next (s.writeUnit key pa bs) := if_pos h

theorem State.writeUnit_nil (s : State) (key pa : Nat) : s.writeUnit key pa [] = s := rfl

/-- A write of bytes that nothing backs changes nothing. -/
theorem execFledenlinkPeerAccess_unbacked (key pa n : Nat) (bs : List Byte) (s : State) (some' : bs ≠ [])
    (h : ∀ i, i < bs.length → s.backed (pa + i) 1 = false) : execFledenlinkPeerAccess key pa n (some bs) s = .next s := by
  have pos := List.length_pos_of_ne_nil some'
  have out : ¬s.backed pa bs.length = true := fun b => Bool.false_ne_true ((h 0 pos).symm.trans (s.backed_mono b pos))
  refine (if_neg out).trans (congrArg _ ?_)
  refine List.foldlRecOn (motive := (· = s)) _ _ rfl fun t eq i m => ?_
  subst eq
  simp only [h i (mem_upto.mp m), Bool.false_eq_true, if_false]

end Sys2Proof.Machine

namespace Sys2Proof

open Sys2Proof.Machine

/-- Settles O58: every list of reset holds defaults alone, and no table of it has an entry. -/
theorem resetLeavesTheStatedValues : Obligations.ResetLeavesTheStatedValues := by
  unfold Obligations.ResetLeavesTheStatedValues
  refine ⟨fun d _ => ?_, rfl, rfl, rfl, rfl, fun _ => rfl, fun _ => rfl, fun c n => ?_, fun d k => ?_, fun n => ?_, rfl, fun _ => rfl⟩
  · rw [State.reset_die]
    exact ⟨rfl, rfl, rfl, rfl, rfl, rfl, rfl⟩
  · rw [State.reset_dbgPc]
  · rw [State.reset_front]
  · rw [State.reset_conn]
    decide

/-- Settles O54, event by event: of a failed link, job by job in the order of the table; the other events change what their rule names alone. -/
theorem bootFailuresAndPeers : Obligations.BootFailuresAndPeers := by
  unfold Obligations.BootFailuresAndPeers
  refine ⟨fun defects s => ?_, fun target round expanders s h => ⟨fun b => ?_, ?_⟩, fun root b good => bundleGood_fields good,
    fun round due s h late => ⟨_, execBootRetryExpiry_due s h late, rfl⟩,
    fun link s h new => ?_, execExpanderLoss_spec,
    fun core p s h => ⟨_, execCoreFailure_found core s h, rfl, fun q => mem_insertNum⟩,
    fun key pa n bs s => ⟨fun _ inside => ?_, fun near inside fits own w => ?_, ?_,
      fun unbacked some' => ⟨s, execFledenlinkPeerAccess_unbacked key pa n bs s some' unbacked, rfl⟩⟩⟩
  · obtain ⟨t, step, boot, mem, groups, teams, ctxs, binds, side, idkey, retry, twdog, l2p⟩ := execPackageReset_spec defects s
    refine ⟨t, step, boot, fun a => by rw [mem]; rfl, groups, teams, ctxs, binds, side, idkey, retry, twdog, ?_⟩
    rintro rfl core h
    rw [l2p]
    exact relocation_sound core h
  · by_cases good : bundleGood romKeyHash b = true
    · refine ⟨_, execBundleFetchDone_good b expanders s h good, ?_⟩
      rw [if_pos good]
      refine ⟨rfl, rfl, rfl, rfl, rfl, fun p hp => ?_⟩
      exact (nth_map 0 0 _ _ _ (by simpa using hp)).trans (by rw [upto, nth_rangeFrom, if_pos hp, Nat.zero_add])
    · refine ⟨_, execBundleFetchDone_failed (some b) expanders s h (by simp [Option.filter, good]), ?_⟩
      rw [if_neg good]
      exact s.fetchFailed_spec target round
  · exact ⟨_, execBundleFetchDone_failed none expanders s h rfl, s.fetchFailed_spec target round⟩
  · have frame := (s.linkDown link).linkLostAll_frame link (Tab.keys s.jobs)
    refine ⟨_, execLinkFailure_new link s h new, frame.links, frame.kept, fun remote => ?_, fun n x u found uses only le lt before at' => ?_⟩
    · obtain ⟨eq, cut⟩ := (s.linkDown link).linkLostAll_cuts link (Tab.keys s.jobs) (State.AllAtRemote.linkDown remote)
      exact ⟨(congrArg State.mem eq :), (congrArg State.teams eq :), fun n x found uses => cut n (Tab.mem_keys found) x found uses⟩
    · obtain ⟨va, at'⟩ := Option.ne_none_iff_exists'.mp at'
      have first : firstRemote (s.linkDown link) x (cardOf x.words) = some (u, va) :=
        (firstRemote_withJobs _ _ _ _ _).trans (firstRemote_at le lt before at')
      exact (s.linkDown link).linkLostAll_single link _ (Tab.mem_keys found) found uses only first
  · exact ⟨_, execFledenlinkPeerAccess_read key pa n s, by rw [s.peerBytes_near key pa n inside]⟩
  · have backed : s.backed pa bs.length = true := by rwa [s.backed_near pa _ near, decide_eq_true_eq]
    refine ⟨_, execFledenlinkPeerAccess_write key pa n bs s backed, ?_⟩
    by_cases some' : bs = []
    · subst some'
      rw [s.writeUnit_nil]
      exact ⟨fun a => (if_neg (by simp)).symm, fun not => absurd rfl not⟩
    · rw [s.writeUnit_line key pa bs some' fits, State.closeLine_mem]
      exact ⟨s.readCell_writeLine_own key pa bs fits (own 0 (List.length_pos_of_ne_nil some')) w, fun _ => State.closeLine_closed _ _⟩
  · refine ⟨_, _, execFledenlinkPeerAccess_read key pa n s, rfl, by simp, fun i hi backed => ?_⟩
    rw [nth_map _ 0 _ _ _ (by simpa using hi), nth_rangeFrom, if_pos hi]
    exact State.peerByte_backed key backed

end Sys2Proof
end

section
/-!
PROOFS. Lanes that exit and lanes that wait at a `rejoin`; what an issue and a trap leave of a group's lanes and registers.
-/

namespace Sys2Proof.Machine

open Sys2Proof

/-! ### Registers and lanes of a group -/

/-- The vector, uniform and predicate registers of a group and its CSRs. -/
def Group.regs (g : Group) : Tab (List Word) × Tab Word × Tab (List Half) × Csrs := (g.v, g.s, g.p, g.csr)

theorem sameRegs_of_regs {s t : State} (h : t.me.regs = s.me.regs) : sameV s t ∧ sameU s t ∧ sameP s t ∧ sameFlags s t := by
  simp only [Group.regs, Prod.mk.injEq] at h
  obtain ⟨v, u, p, c⟩ := h
  exact ⟨fun n l _ => vr_of v n l, ur_of u, fun n l _ => pr_of p n l, congrArg Csrs.fstat c, congrArg Csrs.ffirst c⟩

/-- A lane but for its yield mark (R41). -/
def Lane.unmarked (n : Lane) : Lane := { n with mark := false }

theorem Lane.pc_of_unmarked {m n : Lane} (h : m.unmarked = n.unmarked) : m.pc = n.pc := (congrArg Lane.pc h :)
theorem Lane.wait_of_unmarked {m n : Lane} (h : m.unmarked = n.unmarked) : m.wait = n.wait := (congrArg Lane.wait h :)
theorem Lane.mask_of_unmarked {m n : Lane} (h : m.unmarked = n.unmarked) : m.mask = n.mask := (congrArg Lane.mask h :)

theorem Group.clearMarks_cases (g : Group) : g.clearMarks = g ∨ g.clearMarks = g.mapLanes fun _ n => n.unmarked := by
  unfold Group.clearMarks
  split
  · exact .inr rfl
  · exact .inl rfl

/-- Clearing the yield marks changes nothing else of a lane. -/
theorem Group.clearMarks_unmarked (g : Group) {l : Nat} (h : l < 32) : (g.clearMarks.lane l).unmarked = (g.lane l).unmarked := by
  rcases g.clearMarks_cases with e | e
  · rw [e]
  · rw [e, lane_mapLanes _ _ h]; rfl

theorem Group.clearMarks_lanes (g : Group) : g.clearMarks = { g with lanes := g.clearMarks.lanes } := by
  rcases g.clearMarks_cases with e | e <;> rw [e]
  rfl

theorem State.moveLanes_me (s : State) (f : Nat → Lane → Lane) :
    (s.moveLanes f).me.regs = s.me.regs ∧ ∀ l, l < 32 → ((s.moveLanes f).me.lane l).unmarked = (f l (s.me.lane l)).unmarked := by
  have e := (s.me.mapLanes f).clearMarks_lanes
  simp only [State.moveLanes, me_setGrp]
  refine ⟨?_, fun l h => ?_⟩
  · show (s.me.mapLanes f).clearMarks.regs = _
    rw [e]; rfl
  · show ((s.me.mapLanes f).clearMarks.lane l).unmarked = _
    rw [Group.clearMarks_unmarked _ h, lane_mapLanes _ _ h]

theorem State.moveLanes_onlyGroup (s : State) (f : Nat → Lane → Lane) : onlyGroup s (s.moveLanes f) := onlyGroup_setGrp s _

/-! ### A trap of a group (R370) -/

/-- A lane that had signed and has withdrawn. -/
def Lane.withdrawn (n : Lane) : Lane := match n.wait with | .sign _ => { n with wait := .run } | _ => n

@[simp] theorem Lane.withdrawn_pc (n : Lane) : n.withdrawn.pc = n.pc := by unfold Lane.withdrawn; split <;> rfl

theorem Lane.withdrawn_of_rejoin {n : Lane} {len : Nat} (h : n.wait = .rejoin len) : n.withdrawn = n := by simp [Lane.withdrawn, h]

/-- What a trap of group `gid`, or none, leaves: that group may be frozen with its signatures withdrawn; its registers stand, and its lanes but for
the waits of the signatures, and so does all else but the teams' signatures. -/
structure MayFreeze (gid : Nat) (s t : State) : Prop where
  eq : t = { s with groups := t.groups, teams := t.teams }
  others : ∀ g, g ≠ gid → t.grp g = s.grp g
  regs : (t.grp gid).regs = (s.grp gid).regs
  lanes : ∀ l, l < 32 → (t.grp gid).lane l = (s.grp gid).lane l ∨ (t.grp gid).lane l = ((s.grp gid).lane l).withdrawn

namespace MayFreeze

theorem refl (gid : Nat) (s : State) : MayFreeze gid s s := ⟨rfl, fun _ _ => rfl, rfl, fun _ _ => .inl rfl⟩

theorem cur {gid : Nat} {s t : State} (h : MayFreeze gid s t) : t.cur = s.cur := by rw [h.eq]
theorem mem {gid : Nat} {s t : State} (h : MayFreeze gid s t) : t.mem = s.mem := by rw [h.eq]

theorem pc {gid : Nat} {s t : State} (h : MayFreeze gid s t) {l : Nat} (lt : l < 32) : ((t.grp gid).lane l).pc = ((s.grp gid).lane l).pc := by
  rcases h.lanes l lt with e | e <;> simp [e]

/-- A lane at a `rejoin` keeps its wait. -/
theorem lane_of_rejoin {gid : Nat} {s t : State} (h : MayFreeze gid s t) {l len : Nat} (lt : l < 32) (w : ((s.grp gid).lane l).wait = .rejoin len) :
    (t.grp gid).lane l = (s.grp gid).lane l := by
  rcases h.lanes l lt with e | e
  · exact e
  · rw [e, Lane.withdrawn_of_rejoin w]

end MayFreeze

theorem withdraw_mayFreeze (s : State) (gid : Nat) : MayFreeze gid s (withdraw s gid) := by
  refine ⟨rfl, fun g n => ?_, ?_, fun l h => .inr ?_⟩
  · rw [withdraw, State.grp_setGrp_ne _ _ n]; rfl
  · rw [withdraw, State.grp_setGrp]; rfl
  · rw [withdraw, State.grp_setGrp, lane_mapLanes _ _ h]; rfl

/-- A group as a trap freezes it (R370 step 1). -/
def Group.frozenBy (g : Group) (s : State) (t : TrapInfo) : Group :=
  let till := if t.code = 0x22 then s.pkg.wtime + 1810 else g.trap.till
  { g with trap := { g.trap with frozen := some t, toFw := false, till := till, since := s.seqno }, tfault := [] }

theorem raise_eq (s : State) (gid : Nat) (t : TrapInfo) : raise s gid t =
    if (s.grp gid).trap.frozen.isSome then s else withdraw (s.setGrp gid ((s.grp gid).frozenBy s t)) gid := rfl

theorem raise_mayFreeze (s : State) (gid : Nat) (t : TrapInfo) : MayFreeze gid s (raise s gid t) := by
  rw [raise_eq]
  split
  · exact .refl gid s
  · have w := withdraw_mayFreeze (s.setGrp gid ((s.grp gid).frozenBy s t)) gid
    refine ⟨by rw [w.eq]; rfl, fun g n => (w.others g n).trans (State.grp_setGrp_ne _ _ n), w.regs.trans ?_, fun l h => ?_⟩
    · rw [State.grp_setGrp]; rfl
    · have := w.lanes l h
      rwa [State.grp_setGrp] at this

theorem rejoinCheck_mayFreeze (s : State) (gid : Nat) : MayFreeze gid s (rejoinCheck s gid) := by
  unfold rejoinCheck
  dsimp only
  split
  · exact raise_mayFreeze s gid _
  · exact .refl gid s

theorem cur_of_onlyGroup {s t : State} (h : onlyGroup s t) : t.cur = s.cur := by rw [h.1]

theorem me_of_cur {s t : State} (h : t.cur = s.cur) : t.me = t.grp s.cur.gid := by rw [State.me, h]

/-- An issue that rewrites its group's lanes, and the trap that may follow: registers and memory stand, and the PCs are those of the rewriting. -/
theorem MayFreeze.after {s u t : State} (only : onlyGroup s u) (regs : u.me.regs = s.me.regs) (h : MayFreeze s.cur.gid u t) :
    sameMem s t ∧ sameV s t ∧ sameU s t ∧ sameP s t ∧ sameFlags s t ∧ (∀ l, l < 32 → (t.me.lane l).pc = (u.me.lane l).pc)
      ∧ ∀ l len, l < 32 → (u.me.lane l).wait = .rejoin len → t.me.lane l = u.me.lane l := by
  have cur := cur_of_onlyGroup only
  have me : t.me = t.grp s.cur.gid := me_of_cur (h.cur.trans cur)
  have same : t.me.regs = s.me.regs := by rw [me, h.regs, ← me_of_cur cur, regs]
  obtain ⟨v, p, q, f⟩ := sameRegs_of_regs same
  refine ⟨fun a => ?_, v, p, q, f, ?_⟩
  · rw [h.mem, only.1]
  · rw [me, me_of_cur cur]
    exact ⟨fun l lt => h.pc lt, fun l len lt w => h.lane_of_rejoin lt w⟩

/-! ### Exit (R149) -/

/-- A lane that exits. -/
def Lane.exited (n : Lane) : Lane := { n with pc := exitedPc, mark := false, clause := none, waitHdr := false, mask := 0#32 }

/-- What an issue makes of a lane that steps to the sequential successor (R144). -/
def Issue.stepLane (x : Issue) (n : Lane) : Lane := laneAfter x (seqPc x.pc x.len) false n

theorem State.exitLanes_onlyGroup (s : State) (v : View) : onlyGroup s (s.exitLanes v) := by
  have h := s.moveLanes_onlyGroup fun l n =>
    if v.act.getLsbD l then n.exited else if v.iss.getLsbD l then s.cur.stepLane n else n
  refine ⟨by rw [State.exitLanes]; rfl, fun g n => (State.grp_setGrp_ne _ _ n).trans (h.2 g n)⟩

theorem State.exitLanes_me (s : State) (v : View) : (s.exitLanes v).me.regs = s.me.regs
    ∧ ∀ l, l < 32 → ((s.exitLanes v).me.lane l).pc
        = if v.act.getLsbD l then exitedPc else if v.iss.getLsbD l then lpcOf (seqPc s.cur.pc s.cur.len) else (s.me.lane l).pc := by
  obtain ⟨regs, lanes⟩ := s.moveLanes_me fun l n =>
    if v.act.getLsbD l then n.exited else if v.iss.getLsbD l then s.cur.stepLane n else n
  have e : (s.exitLanes v).me = { (s.moveLanes fun l n =>
      if v.act.getLsbD l then n.exited else if v.iss.getLsbD l then s.cur.stepLane n else n).me with left := (s.exitLanes v).me.left } := by
    simp only [State.exitLanes, State.me, State.setGrp_cur, State.moveLanes, State.grp_setGrp]; rfl
  rw [e]
  refine ⟨regs, fun l h => (Lane.pc_of_unmarked (lanes l h)).trans ?_⟩
  split
  · rfl
  · split <;> rfl

/-- `exit` of lanes that no trap-fence stops (R149, R377). -/
theorem exec_exit_runs {f : Fields} {s : State} (h : Sys2Proof.free (.exit f) f s = true)
    (quiet : (s.view f).act = 0#32 ∨ s.cur.hdr.tf = false ∨ s.before.csr.fstat = 0#32) :
    exec (.exit f) s = .next (rejoinCheck (s.exitLanes (s.view f)) s.cur.gid) := by
  have calm : ((s.view f).any && s.cur.hdr.tf && (s.view f).w.csr.fstat != 0#32) = false := by
    rcases quiet with a | a | a
    · simp [View.any, a]
    · rw [a]; simp
    · rw [view_w, a]; simp
  rw [exec_exit, execExit, issued_runs _ h, calm]
  rfl

/-! ### Rejoin (R49, R150) -/

/-- A lane that begins to wait at a `rejoin`. -/
def Issue.joinLane (x : Issue) (mask : Word) (n : Lane) : Lane := { n with wait := .rejoin x.len, mask := mask, mark := false }

theorem State.startRejoin_onlyGroup (s : State) (v : View) (mask : Nat → Word) : onlyGroup s (s.startRejoin v mask) := s.moveLanes_onlyGroup _

theorem State.startRejoin_me (s : State) (v : View) (mask : Nat → Word) : (s.startRejoin v mask).me.regs = s.me.regs
    ∧ (∀ l, l < 32 → v.act.getLsbD l = true → let n := (s.startRejoin v mask).me.lane l
        n.pc = (s.me.lane l).pc ∧ n.wait = .rejoin s.cur.len ∧ n.mask = mask l)
    ∧ ∀ l, l < 32 → v.act.getLsbD l = false → ((s.startRejoin v mask).me.lane l).pc
        = if v.iss.getLsbD l then lpcOf (seqPc s.cur.pc s.cur.len) else (s.me.lane l).pc := by
  obtain ⟨regs, lanes⟩ : (s.startRejoin v mask).me.regs = s.me.regs ∧ ∀ l, l < 32 → ((s.startRejoin v mask).me.lane l).unmarked = Lane.unmarked
      (if v.act.getLsbD l then s.cur.joinLane (mask l) (s.me.lane l) else if v.iss.getLsbD l then s.cur.stepLane (s.me.lane l) else s.me.lane l) :=
    s.moveLanes_me _
  refine ⟨regs, fun l h a => ?_, fun l h a => ?_⟩
  · have n := lanes l h
    rw [if_pos a] at n
    exact ⟨(Lane.pc_of_unmarked n).trans rfl, (Lane.wait_of_unmarked n).trans rfl, (Lane.mask_of_unmarked n).trans rfl⟩
  · refine (Lane.pc_of_unmarked (lanes l h)).trans ?_
    rw [if_neg (by simp [a])]
    split <;> rfl

/-- `rejoin` where the group may wait at its PC (R50, R150). -/
theorem exec_rejoin_runs {f : Fields} {s : State} (h : Sys2Proof.free (.rejoin f) f s = true)
    (room : (s.view f).act = 0#32 ∨ s.me.rejoinPcs.contains s.cur.pc = true ∨ s.me.rejoinPcs.length < s.me.rejd) :
    exec (.rejoin f) s
      = .next (rejoinCheck (s.startRejoin (s.view f) fun l => if f.len = .l64 then (s.view f).a f l else f.imm) s.cur.gid) := by
  have space : ((s.view f).any && !(s.view f).g.rejoinPcs.contains s.cur.pc
      && decide ((s.view f).g.rejd ≤ (s.view f).g.rejoinPcs.length)) = false := by
    rcases room with a | a | a
    · simp [View.any, a]
    · rw [view_g, a]; simp
    · rw [view_g, decide_eq_false (Nat.not_le.mpr a)]; simp
  rw [exec_rejoin, execRejoin, issued_runs _ h, space]
  rfl

theorem Group.rejoiners_bit (g : Group) (pc : Nat) {l : Nat} (h : l < 32) :
    (g.rejoiners pc).getLsbD l = ((g.lane l).wait.atRejoin && (g.lane l).pc == lpcOf pc) := mkMask_bit _ h

/-- A complete waiting set is released (R49). -/
theorem Group.releaseAt_spec {g : Group} {pc : Nat} (met : g.rejoinMet pc = true) : (g.releaseAt pc).rest = g.rest
    ∧ (g.releaseAt pc).regs = g.regs
    ∧ ∀ l, l < 32 → (∀ len, (g.lane l).wait = .rejoin len → (g.lane l).pc = lpcOf pc →
          ((g.releaseAt pc).lane l).pc = lpcOf (seqPc (pc % 2 ^ 48) len) ∧ ((g.releaseAt pc).lane l).wait = .run)
        ∧ (((g.lane l).wait.atRejoin = false ∨ (g.lane l).pc ≠ lpcOf pc) → (g.releaseAt pc).lane l = g.lane l) := by
  have e : g.releaseAt pc = g.mapLanes fun l n => if (g.rejoiners pc).getLsbD l then n.leaveRejoin else n := if_pos met
  rw [e]
  refine ⟨rfl, rfl, fun l h => ⟨fun len w p => ?_, fun out => ?_⟩⟩
  all_goals rw [lane_mapLanes _ _ h, g.rejoiners_bit pc h]
  · have at' : (lpcOf pc).toNat = pc % 2 ^ 48 := by simp only [lpcOf, BitVec.toNat_ofNat]; omega
    simp only [w, p, LaneWait.atRejoin, beq_self_eq_true, Bool.and_self, if_true, Lane.leaveRejoin, Lane.stepOver, at']
    exact ⟨trivial, trivial⟩
  · rcases out with w | p
    · simp [w]
    · simp [p]

end Sys2Proof.Machine

namespace Sys2Proof

open Sys2Proof.Machine

/-- Settles O13: the lanes move as `moveLanes` rewrites them, and a rejoin deadlock that this makes freezes the group where they stand. -/
theorem exitAndRejoin : Obligations.ExitAndRejoin := by
  unfold Obligations.ExitAndRejoin
  refine ⟨fun f s h quiet => ?_, fun f s h room => ?_, fun gid pc s bound run going met => ?_⟩
  · obtain ⟨regs, lanes⟩ := s.exitLanes_me (s.view f)
    obtain ⟨mem, v, u, p, fl, pcs, -⟩ := MayFreeze.after (s.exitLanes_onlyGroup _) regs (rejoinCheck_mayFreeze _ _)
    exact ⟨_, exec_exit_runs h quiet, mem, v, u, p, fl, fun l lt => (pcs l lt).trans (lanes l lt)⟩
  · obtain ⟨regs, act, iss⟩ := s.startRejoin_me (s.view f) fun l => if f.len = .l64 then (s.view f).a f l else f.imm
    obtain ⟨mem, v, u, p, fl, pcs, same⟩ := MayFreeze.after (s.startRejoin_onlyGroup _ _) regs (rejoinCheck_mayFreeze _ _)
    refine ⟨_, exec_rejoin_runs h room, mem, v, u, p, fl, fun l a => ?_, fun l lt a => (pcs l lt).trans (iss l lt a)⟩
    have lt := BitVec.lt_of_getLsbD a
    rw [same l _ lt (act l lt a).2.1]
    exact act l lt a
  · obtain ⟨rest, regs, lanes⟩ := Group.releaseAt_spec met
    refine ⟨s.setGrp gid ((s.grp gid).releaseAt pc), by simp [exec_rejoinRelease, execRejoinRelease, bound, run, going, met], rfl,
      fun g n => State.grp_setGrp_ne _ _ n, ?_⟩
    rw [State.grp_setGrp]
    simp only [Group.regs, Prod.mk.injEq] at regs
    exact ⟨rest, regs.1, regs.2.1, regs.2.2.1, lanes⟩

end Sys2Proof
end

section
/-!
PROOFS. A step runs what the bytes at its path or its sequencer decode to, or its event.
-/

namespace Sys2Proof.Machine

open Sys2Proof

/-! ### The path of a vote -/

theorem mem_sortNums {n : Nat} {ns : List Nat} : n ∈ sortNums ns ↔ n ∈ ns := by
  induction ns with
  | nil => rfl
  | cons m ns ih => simp only [sortNums, List.foldr_cons, mem_insertNum, List.mem_cons] at ih ⊢; rw [ih]

/-- The lowest lane of a mask that has one. -/
theorem lowLane_mem {m : Word} {l : Nat} (h : l ∈ lanesOf m) : lowLane m ∈ lanesOf m := by
  obtain ⟨n, hn⟩ : ∃ n, laneNums.find? (fun l => m.getLsbD l) = some n := by
    rw [← Option.isSome_iff_exists, List.find?_isSome]
    exact ⟨l, mem_laneNums.mpr (BitVec.lt_of_getLsbD (mem_lanesOf.mp h)), mem_lanesOf.mp h⟩
  have := List.find?_some hn
  rw [mem_lanesOf, lowLane, hn]
  exact this

/-- A PC of the vote has a lane. -/
theorem State.pathAt_lane {s : State} {gid p : Nat} (h : p ∈ s.voteOrder gid) : ∃ l, l ∈ lanesOf (s.pathAt gid p).lanes := by
  obtain ⟨l, hl, e⟩ : ∃ l, l ∈ lanesOf (s.eligibleLanes gid) ∧ ((s.grp gid).lane l).pc.toNat = p := by
    simp only [State.voteOrder, List.mem_append, List.mem_filter, mem_sortNums, List.mem_map] at h
    rcases h with ⟨l, ⟨hl, -⟩, e⟩ | ⟨⟨l, ⟨hl, -⟩, e⟩, -⟩
    · exact ⟨l, hl, e⟩
    · exact ⟨l, hl, e⟩
  have bit := mem_lanesOf.mp hl
  refine ⟨l, mem_lanesOf.mpr ?_⟩
  simp only [State.pathAt]
  rw [mkMask_bit _ (BitVec.lt_of_getLsbD bit), bit, e]
  simp

theorem State.voted_first {s : State} {gid p : Nat} (h : s.voteOrder gid = [p]) : s.voted gid 0 = some (s.pathAt gid p) := by
  simp [State.voted, h]

theorem State.voted_second {s : State} {gid p : Nat} (h : s.voteOrder gid = [p]) : s.voted gid 1 = none := by
  simp [State.voted, h]

/-! ### What a path finds -/

/-- A lane in a clause finds the instruction at its PC, with the bytes that follow it where the cache has them (R56, R59, R181). -/
theorem State.lookAt_word {s : State} {core ctx p came : Nat} {fault : Nat → Option Nat} {jump : Bool} {c : Clause} {i : Instr} {f : Fields}
    {bs : List Byte} (aligned : p % 4 = 0) (fits : p % 32 ≠ 28) (block : s.icBlock core ctx (p / 32) = some bs)
    (dec : decodeBytes (p % 32) (bs.drop (p % 32)) = .instr i) (fields : fieldsOf i = some f)
    (next : needsNext c.hdr i = true → (s.icBlock core ctx (seqPc p f.len.bytes / 32)).isSome = true) :
    s.lookAt core ctx fault p came jump (some c) = .word i (BitVec.ofNat 128 (leVal ((bs.drop (p % 32)).take 16)))
      (((s.icBlock core ctx (seqPc p f.len.bytes / 32)).map fun cs => cs.drop (seqPc p f.len.bytes % 32)).getD []) := by
  have here : lookWord (p % 32) came jump (some c) (bs.drop (p % 32))
      = .word i (BitVec.ofNat 128 (leVal ((bs.drop (p % 32)).take 16))) [] := by simp only [lookWord, dec]
  have unmet : s.icBlock core ctx (seqPc p f.len.bytes / 32) = none → needsNext c.hdr i = false := by
    intro none'
    rw [Bool.eq_false_iff]
    intro needs
    simpa [none'] using next needs
  simp only [State.lookAt, aligned, fits, ne_eq, not_true_eq_false, decide_false, Bool.or_self, Bool.false_eq_true, if_false, block, here, Look.len,
    fields, Look.follows, Look.followed, Look.needs, if_true]
  cases after : s.icBlock core ctx (seqPc p f.len.bytes / 32) with
  | some cs => rfl
  | none =>
    simp only [unmet after, Bool.not_false, Bool.or_true, if_true, Bool.false_eq_true, if_false, Option.map_none, Option.getD_none]
    split <;> simp_all

/-- A path whose lanes share a clause finds what its lowest lane finds. -/
theorem State.lookPath_clause {s : State} {gid : Nat} {p : Path} {c : Option Clause}
    (same : ∀ l ∈ lanesOf p.lanes, ((s.grp gid).lane l).clause = c) (here : (s.pathLane gid p).clause = c) :
    s.lookPath gid p = s.lookLane gid p (s.pathLane gid p) := by
  have none' : ((lanesOf p.lanes).map (s.grp gid).lane).filter (·.clause != (s.pathLane gid p).clause) = [] := by
    simp only [List.filter_eq_nil_iff, List.mem_map]
    rintro n ⟨l, hl, rfl⟩
    simp [same l hl, here]
  simp only [State.lookPath, none']

/-! ### A group at a pick -/

theorem headerFuel_succ : ∃ n, headerFuel = n + 1 := ⟨2 ^ 48 - 1, by norm_num [headerFuel]⟩

theorem State.readyWord_go {s : State} {i : Instr} {x : Issue} {f : Fields} (fields : fieldsOf i = some f) (lines : s.linesMissing x i = [])
    (word : staticFault s x i = none) (ready : waits i ({ s with cur := x }.view f) { s with cur := x } = false)
    (late : { s with cur := x }.heldLate x i ({ s with cur := x }.view f) = false) : s.readyWord i x = (s, .go i x) := by
  simp only [State.readyWord, lines, fields, word, ready, late]
  rfl

/-- A path at an instruction that is ready. -/
theorem State.prepare_go {s : State} {gid k n : Nat} {p : Path} {i : Instr} {raw : BitVec 128} {after : List Byte} (vote : s.voted gid k = some p)
    (fence : s.fenceLanes gid p = 0#32) (found : s.lookPath gid p = .word i raw after) (hdr : (s.pathLane gid p).waitHdr = false)
    (ready : s.readyWord i (s.issueOf gid p i raw after) = (s, .go i (s.issueOf gid p i raw after))) :
    State.prepare gid k (n + 1) s = (s, .go i (s.issueOf gid p i raw after)) := by
  have path : s.fencePath gid p = .inl s := by simp only [State.fencePath, fence, if_true]
  have free : headerWaits (s.grp gid) (s.pathLane gid p) = false := by simp [headerWaits, hdr]
  simp only [State.prepare, vote, path, found, free, ready, Bool.false_eq_true, if_false]

theorem State.prepare_held {s : State} {gid k n : Nat} (vote : s.voted gid k = none) : State.prepare gid k n s = (s, .held) := by
  cases n with
  | zero => rfl
  | succ n => simp only [State.prepare, vote]

/-- A single path that is ready and raises nothing issues. -/
theorem State.decide_go {s : State} {gid : Nat} {i : Instr} {x : Issue} (pc2 : x.pc2 = 0) (word : staticFault s x i = none)
    (debug : debugFault s x = none) (timer : (s.grp gid).csr.tpend = false) (ticket : (s.grp gid).trap.stall = false) :
    s.decide gid (.go i x) .held = .go i x none := by
  have same : { x with pc2 := 0 } = x := by rw [← pc2]
  simp only [State.decide, secondOf, Ready.other, Ready.pc, same, timer, ticket, State.portFault, word, debug, Bool.false_and, Bool.false_eq_true,
    if_false, if_true]

/-- A group whose one path is ready and raises nothing (R42, R43). -/
theorem State.look_go {u v : State} {gid p : Nat} {i : Instr} {raw : BitVec 128} {after : List Byte} (marks : v = u.clearMarks gid)
    (awake : (u.grp gid).awake = true) (vote : v.voteOrder gid = [p]) (fence : v.fenceLanes gid (v.pathAt gid p) = 0#32)
    (found : v.lookPath gid (v.pathAt gid p) = .word i raw after) (hdr : (v.pathLane gid (v.pathAt gid p)).waitHdr = false)
    (ready : v.readyWord i (v.issueOf gid (v.pathAt gid p) i raw after) = (v, .go i (v.issueOf gid (v.pathAt gid p) i raw after)))
    (word : staticFault v (v.issueOf gid (v.pathAt gid p) i raw after) i = none)
    (debug : debugFault v (v.issueOf gid (v.pathAt gid p) i raw after) = none) (timer : (v.grp gid).csr.tpend = false)
    (ticket : (v.grp gid).trap.stall = false) : u.look gid = (v, .go i (v.issueOf gid (v.pathAt gid p) i raw after) none) := by
  obtain ⟨n, fuel⟩ := headerFuel_succ
  have first := State.prepare_go (n := n) (State.voted_first vote) fence found hdr ready
  have second := State.prepare_held (n := n + 1) (State.voted_second vote)
  have go := State.decide_go (s := v) (gid := gid) (x := v.issueOf gid (v.pathAt gid p) i raw after) rfl word debug timer ticket
  simp only [State.look, awake, Bool.not_true, Bool.false_eq_true, if_false, ← marks, fuel, first, second, go]

/-- A scheduler's turn executes what the first group that it asks issues. -/
theorem schedTurn_go {core sched gid : Nat} {rest : List Nat} {s v : State} {i : Instr} {x : Issue} (due : s.hadTurn core sched = false)
    (order : (s.takeTurn core sched).askOrder core sched = gid :: rest) (look : (s.takeTurn core sched).look gid = (v, .go i x none)) :
    schedTurn core sched s = exec i (v.issuing x i none) := by
  simp only [schedTurn, due, Bool.false_eq_true, if_false, order, State.pick, look, State.run]

theorem step_turn {s : State} {tn : Turn} {ts : List Turn} (h : s.agenda = tn :: ts) : step s = actTurn tn.act ({ s with agenda := ts }.pass tn) := by
  simp only [step, h]

/-! ### A sequencer's turn (R270) -/

/-- An instruction that a word shows is the one its bits decode to. -/
theorem lookWord_word {off came : Nat} {jump : Bool} {c : Option Clause} {bs after : List Byte} {i : Instr} {raw : BitVec 128}
    (h : lookWord off came jump c bs = .word i raw after) : decode off raw = .instr i := by
  simp only [lookWord] at h
  split at h
  · split at h <;> cases h
  · cases h
  · split at h <;> cases h
  · cases h
  next dec =>
    cases h
    exact dec
  · cases h

theorem seqWord_word {p : Nat} {c : Option Clause} {bs after : List Byte} {i : Instr} {raw : BitVec 128}
    (h : seqWord p c bs = .word i raw after) : decode (p % 32) raw = .instr i := by
  simp only [seqWord] at h
  split at h
  · cases h
  · exact lookWord_word h

theorem State.seqLook_word {s : State} {gid : Nat} {x : Seq} {i : Instr} {raw : BitVec 128} {after : List Byte}
    (h : s.seqLook gid x = .word i raw after) : decode (x.pc % 32) raw = .instr i := by
  simp only [State.seqLook] at h
  split at h
  · cases h
  · split at h
    · exact seqWord_word h
    · split at h
      · cases h
      · split at h
        · exact seqWord_word h
        · cases h

/-- What a sequencer issues, whatever headers it passes before. -/
theorem State.seqPrepare_issue {gid q n : Nat} {s t : State} {i : Instr} {x : Issue} (h : State.seqPrepare gid q n s = (t, some (i, x))) :
    decode (x.pc % 32) x.raw = .instr i ∧ x.src = .seq q := by
  induction n generalizing s with
  | zero => cases h
  | succ n ih =>
    simp only [State.seqPrepare] at h
    split at h
    · cases h
    · split at h <;> cases h
    · split at h
      · cases h
      · split at h
        · cases h
        · exact ih h
    next found =>
      split at h
      · cases h
      · cases h
        exact ⟨State.seqLook_word found, rfl⟩

theorem State.seqTurn_issue {s t : State} {core q : Nat} {i : Instr} {x : Issue} (h : s.seqTurn core q = (t, some (i, x))) :
    decode (x.pc % 32) x.raw = .instr i ∧ x.src = .seq q := by
  simp only [State.seqTurn] at h
  split at h
  · cases h
  · split at h
    · cases h
    · split at h
      · cases h
      · exact State.seqPrepare_issue h

theorem engineTurn_go {core q : Nat} {s t : State} {i : Instr} {x : Issue} (due : s.hadTurn core (4 + q) = false)
    (turn : (s.takeTurn core (4 + q)).seqTurn core q = (t, some (i, x))) : engineTurn core q s = exec i { t with cur := x, second := none } := by
  simp only [engineTurn, due, Bool.false_eq_true, if_false, turn]

/-! ### An event's turn (R415) -/

theorem eventTurn_waits {i : Instr} {s : State} (awaits : awaitsFirmware i = true) (halted : s.pkg.boot ≠ .running) : eventTurn i s = .next s := by
  simp [eventTurn, awaits, State.firmwareRuns, halted]

theorem eventTurn_runs {i : Instr} {s : State} (event : fieldsOf i = none) (runs : awaitsFirmware i = false ∨ s.pkg.boot = .running) :
    eventTurn i s = if lands i then (if s.turnAt = 0 then exec i s else .next s) else exec i s.endIssues := by
  have free : ((fieldsOf i).isSome || (awaitsFirmware i && !s.firmwareRuns)) = false := by
    rcases runs with h | h <;> simp [event, State.firmwareRuns, h]
  rw [eventTurn, if_neg (by rw [free]; exact Bool.false_ne_true)]

/-! ### The passing of time -/

theorem State.releaseGroup_turnAt (s : State) (gid : Nat) : (s.releaseGroup gid).turnAt = s.turnAt := by
  simp only [State.releaseGroup]
  split <;> rfl

theorem State.groupTick_turnAt (s : State) (gid n : Nat) : (s.groupTick gid n).turnAt = s.turnAt := by
  have cycles : ∀ (u : State) (k : Nat), (u.groupCycles gid k).turnAt = u.turnAt := fun u k => State.releaseGroup_turnAt _ gid
  simp only [State.groupTick]
  split
  · exact cycles s 1
  · exact (cycles _ _).trans (cycles s 1)

theorem State.stretch_turnAt (s : State) (core n : Nat) : (s.stretch core n).turnAt = s.turnAt := by
  unfold State.stretch
  split <;> rfl

theorem State.coreTick_turnAt (s : State) (core n : Nat) : (s.coreTick core n).turnAt = s.turnAt := by
  have groups : ((s.groupsOn core).foldl (fun s g => s.groupTick g n) s).turnAt = s.turnAt :=
    List.foldlRecOn (motive := fun (t : State) => t.turnAt = s.turnAt) _ _ rfl fun _ e g _ => (State.groupTick_turnAt _ g n).trans e
  simp only [State.coreTick]
  split
  · rfl
  · split
    · exact (State.stretch_turnAt _ _ _).trans groups
    · exact groups

/-- Where time passes a new cycle begins. -/
theorem State.pass_turnAt (s : State) (t : Turn) (h : 0 < t.cycles ∨ 0 < t.ns) : (s.pass t).turnAt = 0 := by
  have moves : (t.cycles = 0 && t.ns = 0) = false := by
    rw [Bool.and_eq_false_iff, decide_eq_false_iff_not, decide_eq_false_iff_not]
    omega
  simp only [State.pass, moves, Bool.false_eq_true, if_false]
  exact List.foldlRecOn (motive := fun (u : State) => u.turnAt = 0) _ _ rfl fun _ e c _ => (State.coreTick_turnAt _ c t.cycles).trans e

end Sys2Proof.Machine

namespace Sys2Proof

open Sys2Proof.Machine

/-- Settles O57: the turn's path through `look`, `pick` and `run` for a scheduler; headers passed by induction on the fuel for a sequencer. -/
theorem stepRunsTheDecodedInstruction : Obligations.StepRunsTheDecodedInstruction := by
  unfold Obligations.StepRunsTheDecodedInstruction
  refine ⟨?_, ?_, ?_, fun tn s h => s.pass_turnAt tn h⟩
  · intro tn ts core sched gid p rest c i f bs s u v path w n x agenda act due order awake vote clause hdr fence aligned fits block dec fields next
      lines word ready late debug timer ticket
    obtain ⟨l, hl⟩ := State.pathAt_lane (s := v) (gid := gid) (p := p) (by simp [vote])
    have low : (v.pathLane gid path).clause = some c := clause _ (lowLane_mem hl)
    have found : v.lookPath gid path = .word i (BitVec.ofNat 128 (leVal (w.take 16)))
        (((v.icBlock (gid / 16) (v.team (v.grp gid).team).ctx (n / 32)).map fun cs => cs.drop (n % 32)).getD []) := by
      rw [State.lookPath_clause clause low, State.lookLane, low]
      exact State.lookAt_word aligned fits block dec fields next
    have issue : v.issueOf gid path i (BitVec.ofNat 128 (leVal (w.take 16)))
        (((v.icBlock (gid / 16) (v.team (v.grp gid).team).ctx (n / 32)).map fun cs => cs.drop (n % 32)).getD []) = x := by
      simp only [State.issueOf, low, fields]
      rfl
    have look : u.look gid = (v, .go i x none) := by
      rw [← issue] at lines word ready late debug ⊢
      exact State.look_go rfl awake vote fence found hdr (State.readyWord_go fields lines word ready late) word debug timer ticket
    rw [step_turn agenda, act]
    exact schedTurn_go due order look
  · intro tn ts core q i x s t u agenda act due turn
    obtain ⟨dec, src⟩ := State.seqTurn_issue turn
    refine ⟨?_, dec, src⟩
    rw [step_turn agenda, act]
    exact engineTurn_go due turn
  · intro tn ts i s u agenda act event
    rw [step_turn agenda, act]
    exact ⟨eventTurn_waits, fun runs => ⟨fun after => (eventTurn_runs event runs).trans (if_neg (by simp [after])),
      fun before first => (eventTurn_runs event runs).trans (by rw [if_pos before, if_pos first])⟩⟩

end Sys2Proof
end

section
/-!
PROOFS. Instructions of the lanes that are not ready, and the waits that are met.
-/

namespace Sys2Proof.Machine

open Sys2Proof

/-! ### Every instruction of the lanes is issued in one frame

An instruction that lanes issue has the tests of its word and of its clause, its readiness, the comparators and the tests of its lanes in one order,
whatever it does after them (`issuedChk`). -/

/-- The outcome is that of an instruction of the lanes, with tests of its own. -/
def LaneFrame (i : Instr) (f : Fields) (s : State) (o : Out) : Prop := ∃ chk k, o = issuedChk i f s chk k

theorem issuedChk_laneFrame (i : Instr) (f : Fields) (s : State) (chk : View → Nat → Check) (k : View → State) :
    LaneFrame i f s (issuedChk i f s chk k) := ⟨chk, k, rfl⟩

theorem teamOp_laneFrame {s : State} (i : Instr) (f : Fields) (h : ofLanes s = true) : LaneFrame i f s (teamOp i f s) := by
  unfold teamOp
  split
  · simp [ofLanes, *] at h
  · exact issuedChk_laneFrame i f s _ _

theorem seqInstr_laneFrame {s : State} (i : Instr) (f : Fields) (k : Nat → State → State) (h : ofLanes s = true) :
    LaneFrame i f s (seqInstr i f s k) := by
  unfold seqInstr
  split
  · simp [ofLanes, *] at h
  · exact issuedChk_laneFrame i f s _ _

theorem execNop_lanes {f : Fields} {s : State} (h : ofLanes s = true) : execNop f s = issued (.nop f) f s fun _ => s.retire := by
  unfold execNop
  split
  · simp [ofLanes, *] at h
  · rfl

theorem execCp_lanes {f : Fields} {s : State} (h : ofLanes s = true) : ∃ k, execCp f s = issuedChk (.cp f) f s (cpLaneTests f s) k := by
  unfold execCp
  split
  · simp [ofLanes, *] at h
  · exact ⟨_, rfl⟩

theorem execSign_laneFrame (f : Fields) (s : State) : LaneFrame (.sign f) f s (execSign f s) := by
  unfold execSign
  split <;> exact issuedChk_laneFrame _ f s _ _

theorem exec_laneFrame {i : Instr} {f : Fields} {s : State} (fields : fieldsOf i = some f) (h : ofLanes s = true) : LaneFrame i f s (exec i s) := by
  cases i with
  | br f | brc f | brx f | call f | ret f | rejoin f | exit f | yield f | vote f =>
    cases fields
    simp only [exec, execBr, execBrc, execBrx, execCall, execRet, execRejoin, execExit, execYield, execVote, issued, issuedChk_laneFrame]
  | add f | sub f | mul f | mulh f | mad f | madh f | min f | max f | abs f | neg f | idiv f | irem f | and f | or f
  | xor f | not f | andn f | shl f | shr f | sar f | rotl f | clz f | popc f | brev f | bfx f | bfi f | lea f | cmp f
  | csel f | mov f | movi f | movs f | shfl f | rdlane f | lid f =>
    cases fields
    simp only [exec, execAdd, execSub, execMul, execMulh, execMad, execMadh, execMin, execMax, execAbs, execNeg, execIdiv, execIrem,
      execAnd, execOr, execXor, execNot, execAndn, execShl, execShr, execSar, execRotl, execClz, execPopc, execBrev, execBfx, execBfi,
      execLea, execCmp, execCsel, execMov, execMovi, execMovs, execShfl, execRdlane, execLid, intArith, logic, compute, computeQuiet,
      vectorOnly, predicateOnly, onceOnly, issued, issuedChk_laneFrame]
  | fadd f | fsub f | fmul f | ffma f | fdiv f | fmin f | fmax f | fcmp f | fclass f | fcvt f | frnd f | frcp f | frsq f
  | fexp2 f | flog2 f | hpack f | hunpack f | nbscale f | nbpack f | nbunpack f | lmv f | rnd f | pvt f =>
    cases fields
    simp only [exec, execFadd, execFsub, execFmul, execFfma, execFdiv, execFmin, execFmax, execFcmp, execFclass, execFcvt, execFrnd,
      execFrcp, execFrsq, execFexp2, execFlog2, execHpack, execHunpack, execNbscale, execNbpack, execNbunpack, execLmv, execRnd, execPvt,
      fpOp, fpPick, fpCompute, compute, computeQuiet, onceOnly, issued, issuedChk_laneFrame]
  | accRd f | mmask f | pand f | por f | pxor f | pnot f | pmov f | pset f | pget f | pbit f | rgn f | spill f | fill f
  | give f | claim f | rdidx f | wridx f =>
    cases fields
    simp only [exec, execAccRd, execMmask, execPand, execPor, execPxor, execPnot, execPmov, execPset, execPget, execPbit, execRgn,
      execSpill, execFill, execGive, execClaim, execRdidx, execWridx, vectorOnly, predicateOnly, onceOnly, issued, issuedChk_laneFrame]
  | ld f | st f | stGDirect f | ldProbe f | atom f | red f | fence f | fenceXp f | pf f | cstLd f | aflush f | slotLd f
  | slotSc f | slotFin f | commit f =>
    cases fields
    simp only [exec, execLd, execSt, execStGDirect, execLdProbe, execAtom, execRed, execFence, execFenceXp, execPf, execCstLd, execAflush,
      execSlotLd, execSlotSc, execSlotFin, execCommit, onceOnly, issued, issuedChk_laneFrame]
  | fork f | rdv f | job f | spawn f | post f | bar f | barExp f | twaitAny f | twaitAll f | tffr f | fwait f =>
    cases fields
    simp only [exec, execFork, execRdv, execJob, execSpawn, execPost, execBar, execBarExp, execTwaitAny, execTwaitAll, execTffr,
      execFwait, issued, issuedChk_laneFrame]
  | csrR f | csrW f | fstatWrite f | cvdefWrite f | merrlog0Write f | tfence f | tret f | trap f | brk f | halt f =>
    cases fields
    simp only [exec, execCsrR, execCsrW, execFstatWrite, execCvdefWrite, execMerrlog0Write, execTfence, execTret, execTrap, execBrk,
      execHalt, csrWrite, issued, issuedChk_laneFrame]
  | mma f | tld f | tsv f | tzero f | tpois f | accLd f | accSt f | accZero f | rowMax f | rowSum f | rowExp f
  | rowScale f | rowAdd f | rowCvt f =>
    cases fields
    exact teamOp_laneFrame _ _ h
  | eflag f | ewait f | eloop f | eend f =>
    cases fields
    exact seqInstr_laneFrame _ _ _ h
  | nop f =>
    cases fields
    rw [exec_nop, execNop_lanes h]
    exact issuedChk_laneFrame _ f s _ _
  | cp f =>
    cases fields
    obtain ⟨k, e⟩ := execCp_lanes (f := f) h
    exact ⟨_, k, e⟩
  | sign f =>
    cases fields
    exact execSign_laneFrame f s
  | _ => cases fields

/-- The four instructions that may wait for room once their tests have passed, with these tests (R267, R272, R281, R284). -/
theorem exec_late {i : Instr} {f : Fields} {s : State} (fields : fieldsOf i = some f) (h : ofLanes s = true)
    (late : waitsLate i (s.view f) s = true) : ∃ k, exec i s = issuedChk i f s (lateTests i s) k := by
  cases i with
  | spawn f => cases fields; exact ⟨_, exec_spawn f s⟩
  | fork f => cases fields; exact ⟨_, exec_fork f s⟩
  | job f => cases fields; exact ⟨_, exec_job f s⟩
  | cp f =>
    cases fields
    obtain ⟨k, e⟩ := execCp_lanes (f := f) h
    exact ⟨k, e⟩
  | _ => simp [waitsLate] at late

/-- An instruction whose tests pass and that waits for room changes nothing. -/
theorem issuedChk_late {i : Instr} {f : Fields} {s : State} {chk : View → Nat → Check} (k : View → State) (lanes : ofLanes s = true)
    (bound : s.me.bound = true) (word : staticFault s s.cur i = none) (ready : waits i (s.view f) s = false) (debug : debugFault s s.cur = none)
    (tests : firstCheck (laneTest s i (s.view f) (chk (s.view f))) (lanesOf (s.view f).act) = .ok) (late : waitsLate i (s.view f) s = true) :
    issuedChk i f s chk k = .next s := by
  simp only [State.me] at bound
  unfold issuedChk
  split
  · simp [ofLanes, *] at lanes
  · simp [bound, word, ready, debug, tests, late]

/-! ### Instructions that step -/

/-- What an instruction leaves that only steps its lanes. -/
def OnlySteps (s t : State) : Prop := framed s t ∧ steps s t ∧ sameV s t ∧ sameU s t ∧ sameP s t ∧ sameFlags s t

theorem retire_onlySteps (s : State) : OnlySteps s s.retire := retireTo_spec s fun _ => none

theorem issued_retire {i : Instr} {f : Fields} {s : State} (h : Sys2Proof.free i f s = true) :
    ∃ t, issued i f s (fun _ => s.retire) = .next t ∧ OnlySteps s t := ⟨_, issued_runs _ h, retire_onlySteps s⟩

/-- The active lanes marked (R151). -/
def Group.marked (g : Group) (m : Word) : Group := g.mapLanes fun l n => if m.getLsbD l then { n with mark := true } else n

theorem Group.marked_pc (g : Group) (m : Word) {l : Nat} (h : l < 32) : ((g.marked m).lane l).pc = (g.lane l).pc := by
  rw [Group.marked, lane_mapLanes _ _ h]
  split <;> rfl

theorem exec_yield_runs {f : Fields} {s : State} (h : Sys2Proof.free (.yield f) f s = true) :
    exec (.yield f) s = .next (s.setGrp s.cur.gid (s.me.marked (s.view f).act)).retire := by
  rw [exec_yield, execYield, issued_runs _ h]
  rfl

theorem exec_yield_onlySteps {f : Fields} {s : State} (h : Sys2Proof.free (.yield f) f s = true) :
    ∃ t, exec (.yield f) s = .next t ∧ OnlySteps s t := by
  obtain ⟨g, eq, rest, v, u, p, csr, -, pcs⟩ := retireTo_eq (s.setGrp s.cur.gid (s.me.marked (s.view f).act)) fun _ => none
  simp only [State.setGrp_cur, me_setGrp, State.setGrp_setGrp] at eq rest v u p csr pcs
  refine ⟨_, exec_yield_runs h, ?_⟩
  rw [State.retire, eq]
  have me := me_setGrp s g
  refine ⟨framed_setGrp s rest, fun l lt => ?_, sameV_of (h := g) (by rw [me]) v, sameU_of (h := g) (by rw [me]) u, sameP_of (h := g) (by rw [me]) p, ?_⟩
  · rw [me, pcs l lt, Group.marked_pc _ _ lt]
  · rw [sameFlags, me, csr]
    exact ⟨rfl, rfl⟩

/-- The instructions that only step once they are ready. -/
theorem exec_onlySteps {i : Instr} {f : Fields} {s : State}
    (which : i = .nop f ∨ i = .yield f ∨ i = .pf f ∨ i = .fenceXp f ∨ i = .fwait f ∨ i = .twaitAny f ∨ i = .twaitAll f)
    (h : Sys2Proof.free i f s = true) : ∃ t, exec i s = .next t ∧ OnlySteps s t := by
  rcases which with rfl | rfl | rfl | rfl | rfl | rfl | rfl
  · rw [exec_nop, execNop_lanes (runs_split h).1]
    exact issued_retire h
  · exact exec_yield_onlySteps h
  all_goals exact issued_retire h

/-! ### `tffr` (R352) -/

theorem bit_eq_testBit (x k : Nat) : bit x k = x.testBit k := by
  rw [bit, Nat.testBit_eq_decide_div_mod_eq, Nat.shiftRight_eq_div_pow, beq_eq_decide]

/-- TAGS (R350). -/
theorem tagBits_testBit (t : Tab Nat) {k : Nat} (h : k < 64) : (tagBits t).testBit k = (Tab.get 0 t k == 0) := by
  rw [tagBits, natOfBits_testBit, nth_map _ 0 _ _ _ (by simpa using h), upto, nth_rangeFrom, if_pos h, Nat.zero_add]

/-- The first number of a range that meets a test: no lower one does. -/
theorem find?_rangeFrom_first {p : Nat → Bool} {a n k : Nat} (h : (rangeFrom a n).find? p = some k) : ∀ j, a ≤ j → j < k → p j = false := by
  induction n generalizing a with
  | zero => cases h
  | succ n ih =>
    intro j le lt
    rw [rangeFrom, List.find?_cons] at h
    cases here : p a with
    | true =>
      rw [here] at h
      cases h
      omega
    | false =>
      rw [here] at h
      rcases Nat.eq_or_lt_of_le le with rfl | lt'
      · exact here
      · exact ih h j lt' lt

theorem lowestTag_spec (m : Nat) : lowestTag m ≤ 64 ∧ (lowestTag m < 64 → m.testBit (lowestTag m) = true)
    ∧ ∀ j, j < lowestTag m → m.testBit j = false := by
  simp only [lowestTag, ← bit_eq_testBit]
  cases found : (upto 64).find? (bit m) with
  | none =>
    refine ⟨le_refl _, fun lt => absurd lt (lt_irrefl _), fun j lt => ?_⟩
    simpa using List.find?_eq_none.mp found j (mem_upto.mpr lt)
  | some k =>
    have lt := mem_upto.mp (List.mem_of_find?_eq_some found)
    exact ⟨lt.le, fun _ => List.find?_some found, fun j hj => find?_rangeFrom_first found j (Nat.zero_le j) hj⟩

/-- A uniform register written by the present issue, where some lane is active. -/
theorem State.writeU_withMe (s : State) (f : Fields) (n : Nat) (x : Word) :
    ∃ g, withMe s (if (s.view f).any then s.writeU n x else s) g ∧ g.rest = s.me.rest ∧ g.lanes = s.me.lanes ∧ g.v = s.me.v ∧ g.p = s.me.p ∧ g.csr = s.me.csr
      ∧ ∀ m, g.ur m = if m = n ∧ (s.view f).act ≠ 0#32 ∧ taken s n = false then x else s.me.ur m := by
  by_cases any : (s.view f).any = true
  · have act := (any_iff s f).mp any
    rw [if_pos any]
    rcases writeU_eq s n x with e | ⟨skip, e⟩
    · rw [e]
      refine ⟨_, withMe_setGrp s _, ?_⟩
      by_cases skip : taken s n = true <;> simp [skip, ur_setU, act]
    · rw [e]
      exact ⟨s.me, withMe_refl s, rfl, rfl, rfl, rfl, rfl, fun m => by simp [skip]⟩
  · have act : (s.view f).act = 0#32 := by simpa [View.any] using any
    rw [if_neg any]
    exact ⟨s.me, withMe_refl s, rfl, rfl, rfl, rfl, rfl, fun m => by simp [act]⟩

theorem exec_tffr_spec {f : Fields} {s : State} (h : Sys2Proof.free (.tffr f) f s = true) :
    let k := lowestTag (Nat.land (tagBits s.tagsBefore) (tagMask (s.view f) f))
    ∃ t, exec (.tffr f) s = .next t ∧ framed s t ∧ steps s t ∧ sameV s t ∧ sameP s t ∧ sameFlags s t
      ∧ writesU s t f f.d.toNat (BitVec.ofNat 32 k) := by
  intro k
  obtain ⟨g, me, rest, lanes, v, p, csr, u⟩ := s.writeU_withMe f f.d.toNat (BitVec.ofNat 32 k)
  obtain ⟨frame, go, tv, ts, tp, tc⟩ := withMe_retireTo me (fun _ => none) rest lanes
  rw [exec_tffr, execTffr, issued_runs _ h]
  exact ⟨_, rfl, frame, go, sameV_of tv v, sameP_of tp p, ⟨congrArg Csrs.fstat (tc.trans csr), congrArg Csrs.ffirst (tc.trans csr)⟩,
    fun n => (ur_of ts n).trans (u n)⟩

end Sys2Proof.Machine

namespace Sys2Proof

open Sys2Proof.Machine

/-- Settles O14: instructions of the lanes share one frame, in which an instruction that waits changes nothing. -/
theorem waitingAndWaitsThatAreMet : Obligations.WaitingAndWaitsThatAreMet := by
  unfold Obligations.WaitingAndWaitsThatAreMet
  refine ⟨fun i f s fields lanes bound word busy => ?_, fun i f s fields lanes bound word ready debug tests late => ?_,
    fun i f s which h => exec_onlySteps which h, fun f s h => ?_⟩
  · obtain ⟨chk, k, e⟩ := exec_laneFrame fields lanes
    exact e.trans (issuedChk_waits k lanes bound word busy)
  · obtain ⟨k, e⟩ := exec_late fields lanes late
    exact e.trans (issuedChk_late k lanes bound word ready debug tests late)
  · obtain ⟨t, step, frame, go, v, p, fl, u⟩ := exec_tffr_spec h
    obtain ⟨le, at', below⟩ := lowestTag_spec (Nat.land (tagBits s.tagsBefore) (tagMask (s.view f) f))
    have ready : ∀ k, k < 64 → (Nat.land (tagBits s.tagsBefore) (tagMask (s.view f) f)).testBit k
        = ((Tab.get 0 s.tagsBefore k == 0) && (tagMask (s.view f) f).testBit k) := fun k lt => by
      rw [← tagBits_testBit _ lt]
      exact Nat.testBit_and _ _ _
    exact ⟨t, _, step, frame, go, v, p, fl, u, le, fun lt => (ready _ lt).symm.trans (at' lt),
      fun j lt => (ready j (lt.trans_le le)).symm.trans (below j lt)⟩

end Sys2Proof
end

section
/-!
PROOFS. Signatures: a `sign` that waits, and the one issue of a complete convergence set.
-/

namespace Sys2Proof.Machine

open Sys2Proof

/-! ### Tests that lanes pass -/

theorem firstCheck_congr {a b : Nat → Check} {ls : List Nat} (h : ∀ l ∈ ls, a l = b l) : firstCheck a ls = firstCheck b ls := by
  induction ls with
  | nil => rfl
  | cons l ls ih => rw [firstCheck, firstCheck, h l List.mem_cons_self, ih fun m hm => h m (List.mem_cons_of_mem _ hm)]

/-- An instruction that nothing stands in the way of, and whose active lanes pass its own tests too. -/
theorem runs_of_free {i : Instr} {f : Fields} {s : State} {chk : View → Nat → Check} (h : Sys2Proof.free i f s = true)
    (pass : ∀ l, (s.view f).act.getLsbD l = true → chk (s.view f) l = .ok) : runs i f s chk = true := by
  obtain ⟨lanes, bound, word, ready, debug, tests, late⟩ := runs_split h
  have same : firstCheck (laneTest s i (s.view f) (chk (s.view f))) (lanesOf (s.view f).act)
      = firstCheck (laneTest s i (s.view f) fun _ => .ok) (lanesOf (s.view f).act) :=
    firstCheck_congr fun l hl => by rw [laneTest, laneTest, pass l (mem_lanesOf.mp hl)]
  simp [runs, lanes, bound, word, ready, debug, same, tests, late]

/-! ### Lanes rewritten and nothing else -/

/-- Two states differ in lanes of groups alone. -/
structure LanesOnly (s t : State) : Prop where
  eq : t = { s with groups := t.groups }
  rest : ∀ g, { t.grp g with lanes := [] } = { s.grp g with lanes := [] }

namespace LanesOnly

theorem refl (s : State) : LanesOnly s s := ⟨rfl, fun _ => rfl⟩

theorem trans {s t u : State} (a : LanesOnly s t) (b : LanesOnly t u) : LanesOnly s u :=
  ⟨by rw [b.eq, a.eq], fun g => (b.rest g).trans (a.rest g)⟩

theorem regs {s t : State} (h : LanesOnly s t) (g : Nat) : (t.grp g).regs = (s.grp g).regs := (congrArg Group.regs (h.rest g) :)

theorem setGrp {s : State} {g : Nat} {h : Group} (e : { h with lanes := [] } = { s.grp g with lanes := [] }) : LanesOnly s (s.setGrp g h) := by
  refine ⟨rfl, fun k => ?_⟩
  by_cases same : k = g
  · subst same; rw [State.grp_setGrp, e]
  · rw [State.grp_setGrp_ne _ _ same]

theorem foldl {α : Type} {f : State → α → State} (h : ∀ s x, LanesOnly s (f s x)) (xs : List α) (s : State) : LanesOnly s (xs.foldl f s) :=
  List.foldlRecOn (motive := LanesOnly s) xs f (refl s) fun _ a x _ => a.trans (h _ x)

end LanesOnly

theorem Group.clearMarks_length (g : Group) (h : g.lanes.length = 32) : g.clearMarks.lanes.length = 32 := by
  rcases g.clearMarks_cases with e | e <;> rw [e]
  · exact h
  · rfl

theorem State.clearMarksOf_lanesOnly (s : State) (g : Nat) : LanesOnly s (s.setGrp g (s.grp g).clearMarks) :=
  .setGrp (by rw [Group.clearMarks_lanes])

theorem State.marksClear_lanesOnly (s : State) (gs : List Nat) : LanesOnly s (s.marksClear gs) :=
  .foldl (f := fun s g => s.setGrp g (s.grp g).clearMarks) State.clearMarksOf_lanesOnly gs s

/-- Clearing marks of groups changes nothing else of a lane (R41). -/
theorem State.marksClear_unmarked (s : State) (gs : List Nat) (g : Nat) {l : Nat} (h : l < 32) :
    (((s.marksClear gs).grp g).lane l).unmarked = ((s.grp g).lane l).unmarked := by
  refine List.foldlRecOn (motive := fun t : State => ((t.grp g).lane l).unmarked = ((s.grp g).lane l).unmarked) gs _ rfl fun t e k _ => ?_
  by_cases same : g = k
  · subst same; rw [State.grp_setGrp, Group.clearMarks_unmarked _ h, e]
  · rw [State.grp_setGrp_ne _ _ same, e]

/-! ### Signed lanes step past their pairs (R48) -/

/-- The lane of a signature after its operation. -/
def State.stepSign (s : State) (n : Sign) : State :=
  s.setGrp n.gid { s.grp n.gid with lanes := setNth (lanePair n.next n.opPc ((s.grp n.gid).lane n.lane)) (s.grp n.gid).lanes n.lane }

theorem State.stepSigned_eq (s : State) (ns : List Sign) : s.stepSigned ns = (ns.foldl State.stepSign s).marksClear (ns.map (·.gid)) := rfl

theorem State.stepSign_lanesOnly (s : State) (n : Sign) : LanesOnly s (s.stepSign n) := .setGrp rfl

theorem State.stepSigned_lanesOnly (s : State) (ns : List Sign) : LanesOnly s (s.stepSigned ns) :=
  (LanesOnly.foldl State.stepSign_lanesOnly ns s).trans (State.marksClear_lanesOnly _ _)

theorem State.stepSign_length (s : State) (n : Sign) (g : Nat) : ((s.stepSign n).grp g).lanes.length = (s.grp g).lanes.length := by
  by_cases same : g = n.gid
  · subst same; rw [State.stepSign, State.grp_setGrp, setNth_length]
  · rw [State.stepSign, State.grp_setGrp_ne _ _ same]

theorem State.stepSign_lane (s : State) (n : Sign) {g l : Nat} (len : (s.grp g).lanes.length = 32) (h : l < 32) :
    ((s.stepSign n).grp g).lane l = if n.gid = g ∧ n.lane = l then lanePair n.next n.opPc ((s.grp g).lane l) else (s.grp g).lane l := by
  by_cases same : g = n.gid
  · subst same
    simp only [State.stepSign, State.grp_setGrp, Group.lane, nth_setNth, len]
    by_cases at' : l = n.lane
    · subst at'; simp [h]
    · simp [at', Ne.symm at']
  · rw [State.stepSign, State.grp_setGrp_ne _ _ same, if_neg fun e => same e.1.symm]

/-- A lane has stepped past the pair of one of the signatures. -/
def SteppedBy (ns : List Sign) (g l : Nat) (n : Lane) : Prop := ∃ m ∈ ns, m.gid = g ∧ m.lane = l ∧ n.wait = .run ∧ n.pc = lpcOf m.next

theorem State.stepSigns_lane (ns : List Sign) {g l : Nat} (h : l < 32) (s : State) (len : (s.grp g).lanes.length = 32) :
    ((ns.foldl State.stepSign s).grp g).lanes.length = 32
    ∧ (SteppedBy ns g l (((ns.foldl State.stepSign s).grp g).lane l)
      ∨ (∀ m ∈ ns, ¬(m.gid = g ∧ m.lane = l)) ∧ ((ns.foldl State.stepSign s).grp g).lane l = (s.grp g).lane l) := by
  induction ns generalizing s with
  | nil => exact ⟨len, .inr ⟨fun _ m => absurd m List.not_mem_nil, rfl⟩⟩
  | cons n ns ih =>
    obtain ⟨len', later | ⟨none', same⟩⟩ := ih (s.stepSign n) ((s.stepSign_length n g).trans len)
    · obtain ⟨m, hm, rest⟩ := later
      exact ⟨len', .inl ⟨m, List.mem_cons_of_mem _ hm, rest⟩⟩
    · rw [List.foldl_cons, same, s.stepSign_lane n len h]
      refine ⟨len', ?_⟩
      split
      next here => exact .inl ⟨n, List.mem_cons_self, here.1, here.2, rfl, rfl⟩
      next here => exact .inr ⟨fun m hm => (List.mem_cons.mp hm).elim (fun e => e ▸ here) (none' m), rfl⟩

theorem SteppedBy.unmarked {ns : List Sign} {g l : Nat} {n m : Lane} (h : SteppedBy ns g l n) (e : m.unmarked = n.unmarked) : SteppedBy ns g l m := by
  obtain ⟨k, hk, gid, lane, wait, pc⟩ := h
  exact ⟨k, hk, gid, lane, (Lane.wait_of_unmarked e).trans wait, (Lane.pc_of_unmarked e).trans pc⟩

/-- A lane with a signature steps past the pair of one, and of the last signatures where one of these is its own. -/
theorem State.stepSigned_lane (s : State) (ms ns : List Sign) {g l : Nat} (h : l < 32) (len : (s.grp g).lanes.length = 32)
    (has : ∃ n ∈ ns, n.gid = g ∧ n.lane = l) : SteppedBy ns g l (((s.stepSigned (ms ++ ns)).grp g).lane l) := by
  obtain ⟨n, hn, own⟩ := has
  have before := (State.stepSigns_lane ms h s len).1
  rw [State.stepSigned_eq, List.foldl_append]
  rcases (State.stepSigns_lane ns h _ before).2 with stepped | ⟨none', -⟩
  · exact stepped.unmarked (State.marksClear_unmarked _ _ g h)
  · exact absurd own (none' n hn)

/-! ### The issue of a complete set (R47, R48, R177, R178) -/

theorem State.setCv_cv (s : State) (t c : Nat) (x : CvReg) (h : c < (s.team t).cvs.length) : ((s.setCv t c x).team t).cv c = x := by
  rw [State.setCv, State.team_setTeam, Team.cv, nth_setNth, if_pos ⟨rfl, h⟩]

/-- Signatures change neither a declared set nor who has exited. -/
theorem setComplete_setCv (s : State) (t c : Nat) (x cv : CvReg) : setComplete (s.setCv t c x) t cv = setComplete s t cv := by
  simp only [setComplete, State.setCv, State.team_setTeam, State.grp_setTeam, inSet]

theorem foldl_min_attained (ns : List Sign) (k : Nat) :
    ns.foldl (fun m x => Nat.min m x.gid) k = k ∨ ∃ n ∈ ns, n.gid = ns.foldl (fun m x => Nat.min m x.gid) k := by
  induction ns generalizing k with
  | nil => exact .inl rfl
  | cons n ns ih =>
    rw [List.foldl_cons]
    rcases ih (Nat.min k n.gid) with e | ⟨m, hm, e⟩
    · rcases Nat.le_total k n.gid with le | le
      · exact .inl (e.trans (Nat.min_eq_left le))
      · exact .inr ⟨n, List.mem_cons_self, (e.trans (Nat.min_eq_right le)).symm⟩
    · exact .inr ⟨m, List.mem_cons_of_mem _ hm, e⟩

/-- The group of lowest role among signers is one of them. -/
theorem lowSigner_attained {cv : CvReg} (h : cv.signs ≠ []) : ∃ n ∈ cv.signs, n.gid = lowSigner cv := by
  cases signs : cv.signs with
  | nil => exact absurd signs h
  | cons n ns =>
    simp only [lowSigner, signs]
    rcases foldl_min_attained ns n.gid with e | ⟨m, hm, e⟩
    · exact ⟨n, List.mem_cons_self, e.symm⟩
    · exact ⟨m, List.mem_cons_of_mem _ hm, e⟩

/-- The leading signature is one of the group of lowest role (R177). -/
theorem leadSign_gid {cv : CvReg} (h : ∀ n ∈ cv.signs, n.lane < 32) : (leadSign cv).gid = lowSigner cv := by
  by_cases some' : cv.signs = []
  · simp [leadSign, lowSigner, some']
  · obtain ⟨n, hn, low⟩ := lowSigner_attained some'
    have signs : ∀ l, l ∈ lanesOf (signers cv (lowSigner cv)) ↔ l < 32 ∧ ∃ m ∈ cv.signs, m.gid = lowSigner cv ∧ m.lane = l := fun l => by
      rw [mem_lanesOf]
      refine ⟨fun bit => ?_, fun ⟨lt, m, hm, gid, lane⟩ => ?_⟩
      · have lt := BitVec.lt_of_getLsbD bit
        rw [signers, mkMask_bit _ lt] at bit
        exact ⟨lt, by simpa using bit⟩
      · rw [signers, mkMask_bit _ lt]
        simpa using ⟨m, hm, gid, lane⟩
    obtain ⟨-, m, hm, gid, lane⟩ := (signs _).mp (lowLane_mem ((signs n.lane).mpr ⟨h n hn, n, hn, low, rfl⟩))
    obtain ⟨k, found⟩ : ∃ k, cv.signs.find? (fun n => n.gid == lowSigner cv && n.lane == lowLane (signers cv (lowSigner cv))) = some k := by
      rw [← Option.isSome_iff_exists, List.find?_isSome]
      exact ⟨m, hm, by simp [gid, lane]⟩
    rw [leadSign, found]
    have := List.find?_some found
    simp only [Bool.and_eq_true, beq_iff_eq] at this
    exact this.1

theorem prepare_plain {i : Instr} (h : plainOp i = true) (s : State) (who : Issuer) (o : TeamOp) : prepare s who i o = .ok o := by
  cases i with
  | tzero | accZero | rowMax | rowSum | rowExp | rowScale | rowAdd | rowCvt => rfl
  | _ => cases h

theorem isLong_plain {i : Instr} (h : plainOp i = true) : isLong i = false := by
  cases i with
  | tzero | accZero | rowMax | rowSum | rowExp | rowScale | rowAdd | rowCvt => rfl
  | _ => cases h

/-- The operation of a complete set at its place in the order (R178). -/
def rankedOp (cv : CvReg) (i : Instr) (rank : Option Nat) : TeamOp := { signedOp cv i with rank := rank }

theorem rankedOp_flags (cv : CvReg) {i : Instr} (rank : Option Nat) (plain : plainOp i = true) : (rankedOp cv i rank).flags = [] := by
  simp only [rankedOp, signedOp, isLong_plain plain]
  rfl

/-- A complete set of an operation without operands issues it (R48). -/
theorem convIssue_plain {s undone : State} {t c : Nat} {cv : CvReg} {g : Group} {rank : Option Nat} {i : Instr} (word : cv.word = some i)
    (plain : plainOp i = true) :
    convIssue s undone t c cv g rank
      = ((s.setCv t c ((s.team t).cv c).clear).stepSigned cv.signs).enterOrder t (rankedOp cv i rank) := by
  have room : ¬((rankedOp cv i rank).flags.any fun x => nth 0 (s.grp x.1).flags x.2 ≥ 63) = true := by
    rw [rankedOp_flags cv rank plain]
    exact Bool.false_ne_true
  simp only [convIssue, word, prepare_plain plain]
  exact (if_neg room).trans rfl

theorem State.enterOrder_noFlags (s : State) (t : Nat) (o : TeamOp) (h : o.flags = []) : s.enterOrder t o
    = { s.setTeam t { s.team t with order := insertOp { o with id := s.seqno } (s.team t).order } with seqno := s.seqno + 1 } := by
  simp only [State.enterOrder, h]
  rfl

/-- What the issue of a complete set leaves: the operation in the order, the register clear, and each signed lane past its pair. -/
structure SetIssued (s t : State) (team c : Nat) (cv : CvReg) (i : Instr) (o : TeamOp) : Prop where
  instr : o.i = i
  src : o.src = .signed
  gid : (∀ n ∈ cv.signs, n.lane < 32) → o.gid = lowSigner cv
  order : (t.team team).order = insertOp o (s.team team).order
  clear : (t.team team).cv c = ((s.team team).cv c).clear
  mem : t.mem = s.mem
  cur : t.cur = s.cur
  regs : ∀ g, (t.grp g).regs = (s.grp g).regs
  lanes : ∀ ms ns, cv.signs = ms ++ ns → ∀ g l, l < 32 → (s.grp g).lanes.length = 32 → (∃ n ∈ ns, n.gid = g ∧ n.lane = l) →
    SteppedBy ns g l ((t.grp g).lane l)

theorem convIssue_issued {s undone : State} {team c : Nat} {cv : CvReg} {g : Group} {rank : Option Nat} {i : Instr} (word : cv.word = some i)
    (plain : plainOp i = true) (h : c < (s.team team).cvs.length) :
    ∃ o, SetIssued s (convIssue s undone team c cv g rank) team c cv i o ∧ o.rank = rank := by
  have only := (s.setCv team c ((s.team team).cv c).clear).stepSigned_lanesOnly cv.signs
  have stepped := (s.setCv team c ((s.team team).cv c).clear).stepSigned_lane
  have x : (((s.setCv team c ((s.team team).cv c).clear).stepSigned cv.signs).team team)
      = (s.setCv team c ((s.team team).cv c).clear).team team := by rw [only.eq]; rfl
  rw [convIssue_plain word plain, State.enterOrder_noFlags _ _ _ (rankedOp_flags cv rank plain)]
  refine ⟨{ rankedOp cv i rank with id := ((s.setCv team c ((s.team team).cv c).clear).stepSigned cv.signs).seqno }, ⟨rfl, rfl,
    fun lanes => leadSign_gid lanes, ?_, ?_, by rw [only.eq]; rfl, by rw [only.eq]; rfl, only.regs, ?_⟩, rfl⟩
  · refine (congrArg Team.order (State.team_setTeam _ _ _)).trans ?_
    rw [x, State.setCv, State.team_setTeam]
  · refine (congrArg (·.cv c) (State.team_setTeam _ _ _)).trans ?_
    rw [x]
    exact s.setCv_cv team c _ h
  · intro ms ns split g l lt len has
    have := stepped ms ns lt len has
    rwa [← split] at this

/-! ### `sign` (R181) -/

/-- The convergence register as the active lanes of a `sign` leave it, with CVDEF as it stood before the cycle (R39). -/
def State.signMade (s : State) (v : View) (c : Nat) (j : Instr) : CvReg :=
  let cv := (s.team s.me.team).cv c
  { cv with cvdef := ((s.teamBefore s.me.team).cv c).cvdef, word := some (cv.word.getD j), signs := cv.signs ++ newSigns s v j }

/-- The state in which the lanes of a `sign` wait, and others have stepped past the pair. -/
def State.signed (s : State) (v : View) (c : Nat) (j : Instr) : State :=
  (s.signLanes v c j).setCv s.me.team c { s.signMade v c j with cvdef := ((s.team s.me.team).cv c).cvdef }

/-- The group that supplies the operands of a set: the issuing one as it stood before the cycle (R39). -/
def State.signGroup (s : State) (v : View) (cv : CvReg) : Group := if lowSigner cv = v.gid then v.w else s.grp (lowSigner cv)

/-- A `sign` with active lanes that mismatches nothing. -/
theorem exec_sign_runs {f : Fields} {j : Instr} {s : State} (word : signedInstr s.cur = some j) (h : Sys2Proof.free (.sign f) f s = true)
    (act : (s.view f).act ≠ 0#32)
    (match' : ∀ l, (s.view f).act.getLsbD l = true →
      signMismatch (s.team s.me.team) ((s.teamBefore s.me.team).cv f.a.toNat) j s.me.role l = false) :
    let v := s.view f
    let made := s.signMade v f.a.toNat j
    exec (.sign f) s = .next
      (if setComplete (s.signLanes v f.a.toNat j) s.me.team made then
        convIssue (s.signed v f.a.toNat j) s s.me.team f.a.toNat made (s.signGroup v made) (some s.orderRank)
      else s.signed v f.a.toNat j) := by
  intro v made
  have any := (any_iff s f).mpr act
  have go := runs_of_free (chk := fun v l => if signMismatch (s.team v.g.team) ((s.teamBefore v.g.team).cv f.a.toNat) j v.g.role l
    then .trap (s.laneTrap 0x06 l 0) none else .ok) h fun l hl => by rw [view_g, match' l hl]; rfl
  rw [exec_sign, execSign, word]
  simp only
  rw [issuedChk_runs _ go]
  simp only [any, if_true, Bool.true_and, setComplete_setCv]
  rfl

/-- A lane that signs. -/
def Lane.signing (n : Lane) (c : Nat) : Lane := { n with wait := .sign c }

theorem State.signLanes_me (s : State) (v : View) (c : Nat) (j : Instr) : (s.signLanes v c j).me.regs = s.me.regs
    ∧ (s.signLanes v c j).me.lanes.length = 32
    ∧ ∀ l, l < 32 → ((s.signLanes v c j).me.lane l).unmarked = Lane.unmarked
      (if v.act.getLsbD l then (s.me.lane l).signing c
       else if v.iss.getLsbD l then lanePair (pairNext s j) (seqPc s.cur.pc s.cur.len) (s.me.lane l) else s.me.lane l) := by
  obtain ⟨regs, lanes⟩ := s.moveLanes_me fun l n =>
    if v.act.getLsbD l then n.signing c else if v.iss.getLsbD l then lanePair (pairNext s j) (seqPc s.cur.pc s.cur.len) n else n
  refine ⟨regs, ?_, lanes⟩
  simp only [State.signLanes, State.moveLanes, me_setGrp]
  exact Group.clearMarks_length _ rfl

theorem State.signed_team (s : State) (v : View) (c : Nat) (j : Instr) (h : c < (s.team s.me.team).cvs.length) :
    let x := (s.signed v c j).team s.me.team
    x.cv c = { s.signMade v c j with cvdef := ((s.team s.me.team).cv c).cvdef } ∧ x.order = (s.team s.me.team).order
      ∧ x.cvs.length = (s.team s.me.team).cvs.length := by
  have e : (s.signLanes v c j).team s.me.team = s.team s.me.team := rfl
  refine ⟨State.setCv_cv _ _ _ _ (by rwa [e]), ?_, ?_⟩
  · rw [State.signed, State.setCv, State.team_setTeam, e]
  · rw [State.signed, State.setCv, State.team_setTeam, setNth_length, e]

theorem quiet_of_regs {s t : State} (regs : t.me.regs = s.me.regs) (mem : t.mem = s.mem) : quiet s t := by
  obtain ⟨v, u, p, f⟩ := sameRegs_of_regs regs
  exact ⟨v, u, p, f, fun a => by rw [mem]⟩

theorem signMismatch_eq_false {x : Team} {cv : CvReg} {j : Instr} {role l : Nat} (inside : inSet x cv.cvdef role l = true)
    (recorded : ∀ i, cv.word = some i → opWord i = opWord j) : signMismatch x cv j role l = false := by
  rw [signMismatch, inside]
  cases w : cv.word with
  | none => rfl
  | some i => simp [recorded i w]

theorem mem_newSigns {s : State} {v : View} {j : Instr} {l : Nat} (lt : l < 32) (act : v.act.getLsbD l = true) :
    ∃ n ∈ newSigns s v j, n.gid = v.gid ∧ n.lane = l := by
  simp only [newSigns, List.mem_map]
  exact ⟨_, ⟨l, List.mem_filter.mpr ⟨mem_upto.mpr lt, act⟩, rfl⟩, rfl, rfl⟩

theorem next_of_mem_newSigns {s : State} {v : View} {j : Instr} {n : Sign} (h : n ∈ newSigns s v j) : n.next = pairNext s j := by
  simp only [newSigns, List.mem_map] at h
  obtain ⟨l, -, rfl⟩ := h
  rfl

theorem insertOp_unranked {o : TeamOp} (h : o.rank = none) (ps : List TeamOp) : insertOp o ps = ps ++ [o] := by
  induction ps with
  | nil => rfl
  | cons p ps ih => simp only [insertOp, h, ih, List.cons_append]

end Sys2Proof.Machine

namespace Sys2Proof

open Sys2Proof.Machine

/-- Settles O33: the set's state after the lanes have signed, and what the issue of a complete set makes of it. -/
theorem signaturesIssueOnceTheSetIsComplete : Obligations.SignaturesIssueOnceTheSetIsComplete := by
  unfold Obligations.SignaturesIssueOnceTheSetIsComplete
  refine ⟨?_, ?_⟩
  · intro f j s v x c cv before made full word h act len same
    have run := exec_sign_runs word h act fun l hl => signMismatch_eq_false (same l hl).1 (same l hl).2
    obtain ⟨regs, length, lanes⟩ := s.signLanes_me v c j
    obtain ⟨reg, order, length'⟩ := s.signed_team v c j len
    refine ⟨fun unfinished => ⟨s.signed v c j, run.trans (congrArg _ (if_neg (by rw [Bool.not_eq_true]; exact unfinished))),
      quiet_of_regs regs rfl, reg, order, fun l lt hl => ?_, fun l lt hi hl => ?_⟩, fun i finished made' plain => ?_⟩
    · have n := (lanes l lt).trans (congrArg Lane.unmarked (if_pos hl))
      exact ⟨Lane.wait_of_unmarked n, (Lane.pc_of_unmarked n).trans rfl⟩
    · exact Lane.pc_of_unmarked ((lanes l lt).trans (congrArg Lane.unmarked ((if_neg (by simp [hl])).trans (if_pos hi))))
    · obtain ⟨o, issued, -⟩ := convIssue_issued (s := s.signed v c j) (undone := s) (g := s.signGroup v made) (rank := some s.orderRank)
        made' plain (by rw [length']; exact len)
      have me := me_of_cur issued.cur
      refine ⟨convIssue (s.signed v c j) s s.me.team c made (s.signGroup v made) (some s.orderRank), o,
        run.trans (congrArg _ (if_pos finished)), quiet_of_regs ?_ issued.mem, by rw [issued.order, order], issued.instr,
        issued.src, issued.gid, by rw [issued.clear, reg]; rfl, fun l lt hl => ?_⟩
      · rw [me]
        exact (issued.regs _).trans regs
      · obtain ⟨m, hm, -, -, run', pc⟩ := issued.lanes cv.signs (newSigns s v j) rfl s.cur.gid l lt length (mem_newSigns lt hl)
        rw [me]
        exact ⟨run', pc.trans (by rw [next_of_mem_newSigns hm])⟩
  · intro team c i s x cv bound len complete word plain
    obtain ⟨o, issued, rank⟩ := convIssue_issued (s := s) (undone := s) (g := s.grp (lowSigner cv)) (rank := none) word plain len
    refine ⟨_, o, ?_, issued.mem, by rw [issued.order, insertOp_unranked rank], issued.instr, issued.src, issued.gid, issued.clear,
      fun n hn all lt => issued.lanes [] cv.signs rfl n.gid n.lane lt all ⟨n, hn, rfl, rfl⟩⟩
    rw [exec_convergenceIssueOnExit, execConvergenceIssueOnExit]
    exact if_pos (by simp only [Bool.and_eq_true]; exact ⟨bound, complete⟩)

end Sys2Proof
end

section
/-!
PROOFS. Tasks: `spawn`, `post` and the binding of a team at an entry PC.
-/

namespace Sys2Proof.Machine

open Sys2Proof

/-! ### Lines that close -/

/-- Two states differ in side-band words alone. -/
def OnlySide (s t : State) : Prop := t = { s with side := t.side }

namespace OnlySide

theorem refl (s : State) : OnlySide s s := rfl

theorem trans {s t u : State} (a : OnlySide s t) (b : OnlySide t u) : OnlySide s u := by
  unfold OnlySide at *
  rw [a] at b
  exact b

theorem foldl {α : Type} {f : State → α → State} (h : ∀ s x, OnlySide s (f s x)) (xs : List α) (s : State) : OnlySide s (xs.foldl f s) :=
  List.foldlRecOn (motive := fun (t : State) => OnlySide s t) xs f (.refl s) fun t ht x _ => ht.trans (h t x)

end OnlySide

theorem State.closeOwn_onlySide (s : State) (gid line : Nat) : OnlySide s (s.closeOwn gid line) := by
  unfold State.closeOwn State.closeLine
  dsimp only
  split
  · split <;> rfl
  · rfl

/-- A group with its write filter empty. -/
def Group.unfiltered (g : Group) : Group := { g with filter := [] }

/-- The lines of a group's write filter close, and it is empty (R250). -/
theorem State.closeFilter_eq (s : State) (gid : Nat) :
    ∃ t, OnlySide s t ∧ s.closeFilter gid = t.setGrp gid (s.grp gid).unfiltered := by
  have only : OnlySide s ((s.grp gid).filter.foldl (fun t l => t.closeOwn gid l) s) := .foldl (fun t l => t.closeOwn_onlySide gid l) _ _
  refine ⟨_, only, ?_⟩
  unfold State.closeFilter
  dsimp only
  rw [show ((s.grp gid).filter.foldl (fun t l => t.closeOwn gid l) s).grp gid = s.grp gid by rw [only]; rfl]
  rfl

theorem State.die_closeFilter (s : State) (gid d : Nat) : (s.closeFilter gid).die d = s.die d := by
  obtain ⟨t, only, eq⟩ := s.closeFilter_eq gid
  rw [eq, State.die_setGrp, only]
  rfl

theorem State.dies_closeFilter (s : State) (gid : Nat) : (s.closeFilter gid).dies = s.dies := by
  obtain ⟨t, only, eq⟩ := s.closeFilter_eq gid
  rw [eq, only]
  rfl

theorem State.me_closeFilter (s : State) : (s.closeFilter s.cur.gid).me = s.me.unfiltered := by
  obtain ⟨t, only, eq⟩ := s.closeFilter_eq s.cur.gid
  have cur : t.cur = s.cur := by rw [only]
  rw [eq, ← cur, me_setGrp, State.me, cur]

/-! ### Steps after an effect elsewhere -/

/-- An effect outside the issuing group's registers and lanes, and then the step. -/
theorem retire_after {s u : State} (cur : u.cur = s.cur) (mem : u.mem = s.mem) (regs : u.me.regs = s.me.regs) (lanes : u.me.lanes = s.me.lanes) :
    steps s u.retire ∧ quiet s u.retire := by
  obtain ⟨⟨only, mem', -⟩, pcs, v, r, p, f⟩ := retire_onlySteps u
  obtain ⟨v', r', p', f'⟩ := sameRegs_of_regs regs
  refine ⟨fun l lt => ?_, fun n l lt => (v n l lt).trans (v' n l lt), fun n => (r n).trans (r' n), fun n l lt => (p n l lt).trans (p' n l lt),
    ⟨f.1.trans f'.1, f.2.trans f'.2⟩, fun a => by rw [mem' a, mem]⟩
  rw [pcs l lt, cur, Group.lane, Group.lane, lanes]

theorem State.retire_eq (u : State) : ∃ h, u.retire = u.setGrp u.cur.gid h := by
  obtain ⟨h, eq, -⟩ := retireTo_eq u fun _ => none
  exact ⟨h, eq⟩

theorem State.die_retire (u : State) (d : Nat) : u.retire.die d = u.die d := by
  obtain ⟨h, eq⟩ := u.retire_eq
  rw [eq, State.die_setGrp]

theorem State.node_retire (u : State) (c q n : Nat) : u.retire.node c q n = u.node c q n := by
  obtain ⟨h, eq⟩ := u.retire_eq
  rw [eq]
  rfl

/-! ### `spawn` and `post` -/

/-- A task appended to the queue of a die. -/
def State.queueTask (s : State) (d : Nat) (t : Task) : State := s.setDie d { s.die d with tasks := (s.die d).tasks ++ [t] }

/-- The task that a `spawn` appends. -/
def State.spawned (s : State) (f : Fields) : Task :=
  let x := s.team s.me.team
  let v := s.view f
  { ctx := x.ctx, queue := x.queue, node := x.node, launch := x.launch, pc := spawnPc f v
    args := (upto 8).map fun n => v.w.ur (f.b.toNat + n), depth := s.me.depth + 1 }

theorem exec_spawn_runs {f : Fields} {s : State} (h : runs (.spawn f) f s (spawnTests f s) = true) (act : (s.view f).act ≠ 0#32) :
    exec (.spawn f) s = .next ((s.closeFilter s.cur.gid).queueTask (dieOf (s.cur.gid / 16)) (s.spawned f)).retire := by
  have any : (s.view f).any = true := (any_iff s f).mpr act
  obtain ⟨t, only, eq⟩ := s.closeFilter_eq s.cur.gid
  have team : (s.closeFilter s.cur.gid).team s.me.team = s.team s.me.team := by rw [eq, State.team_setGrp, only]; rfl
  rw [exec_spawn, execSpawn, issuedChk_runs _ h, State.spawned, ← team]
  simp only [any, Bool.not_true, Bool.false_eq_true, if_false]
  rfl

/-- The node with a posted value combined. -/
def Node.posted (n : Node) (val : Word) : Node := { n with r := combine n.rcomb n.r val }

theorem exec_post_runs {f : Fields} {s : State} (h : Sys2Proof.free (.post f) f s = true) (act : (s.view f).act ≠ 0#32) :
    let x := s.team s.me.team
    exec (.post f) s = .next (s.mapNode x.ctx x.queue x.node fun n => n.posted (if f.len = .l64 then (s.view f).w.ur f.a.toNat else f.imm)).retire := by
  have any : (s.view f).any = true := (any_iff s f).mpr act
  rw [exec_post, execPost, issued_runs _ h]
  simp only [any, if_true]
  rfl

theorem combine_eq (c : Nat) (r v : Word) : combine c r v =
    if c = 1 then (if r.toNat < v.toNat then v else r) else if c = 2 then (if v.toNat < r.toNat then v else r)
    else if c = 3 then r ||| v else if c = 4 then r &&& v else if c = 5 then r + v else v := by
  unfold combine
  split
  case h_6 n1 n2 n3 n4 n5 => rw [if_neg n1, if_neg n2, if_neg n3, if_neg n4, if_neg n5]
  all_goals rfl

theorem State.mapNode_found (s : State) {c q : Nat} (n : Nat) (f : Node → Node) {y : Queue} (h : Tab.find (s.ctx c).queues q = some y) :
    s.mapNode c q n f
      = s.setCtx c { s.ctx c with queues := Tab.set (s.ctx c).queues q { y with nodes := setNth (f (nth {} y.nodes n)) y.nodes n } } := by
  simp only [State.mapNode, h]

theorem State.node_mapNode (s : State) {c q n : Nat} (f : Node → Node) {y : Queue} (h : Tab.find (s.ctx c).queues q = some y) (lt : n < y.nodes.length) :
    (s.mapNode c q n f).node c q n = f (s.node c q n) := by
  rw [s.mapNode_found n f h]
  simp [State.node, Tab.get, h, nth_setNth, lt]

/-! ### Tasks queued from pools -/

/-- Pools that are fed append tasks; nothing but queues, contexts, the free choice and the reports changes. -/
structure Feeds (s t : State) : Prop where
  eq : t = { s with dies := t.dies, ctxs := t.ctxs, fresh := t.fresh, pkg := t.pkg }
  tasks : ∀ d, ∃ more, (t.die d).tasks = (s.die d).tasks ++ more

namespace Feeds

theorem refl (s : State) : Feeds s s := ⟨rfl, fun _ => ⟨[], (List.append_nil _).symm⟩⟩

theorem trans {s t u : State} (a : Feeds s t) (b : Feeds t u) : Feeds s u := by
  refine ⟨?_, fun d => ?_⟩
  · have e := b.eq
    rw [a.eq] at e
    exact e
  · obtain ⟨m, hm⟩ := a.tasks d
    obtain ⟨n, hn⟩ := b.tasks d
    exact ⟨m ++ n, by rw [hn, hm, List.append_assoc]⟩

theorem foldl {α : Type} {f : State → α → State} (h : ∀ s x, Feeds s (f s x)) (xs : List α) (s : State) : Feeds s (xs.foldl f s) :=
  List.foldlRecOn (motive := fun (t : State) => Feeds s t) xs f (.refl s) fun t ht x _ => ht.trans (h t x)

/-- Dies that stand. -/
theorem of_dies {s t : State} (eq : t = { s with ctxs := t.ctxs, fresh := t.fresh, pkg := t.pkg }) : Feeds s t := by
  have dies : t.dies = s.dies := by rw [eq]
  exact ⟨by rw [dies]; exact eq, fun d => ⟨[], by rw [State.die, State.die, dies, List.append_nil]⟩⟩

end Feeds

theorem State.mapNode_feeds (s : State) (c q n : Nat) (f : Node → Node) : Feeds s (s.mapNode c q n f) := by
  refine .of_dies ?_
  unfold State.mapNode
  dsimp only
  split <;> rfl

theorem State.queueTask_feeds (s : State) (d : Nat) (t : Task) : Feeds s (s.queueTask d t) := by
  refine ⟨rfl, fun e => ?_⟩
  simp only [State.queueTask, State.die, State.setDie, nth_setNth]
  split
  · next h => rw [h.1]; exact ⟨_, rfl⟩
  · exact ⟨[], (List.append_nil _).symm⟩

theorem State.feed_feeds (ctx q n fuel : Nat) (s : State) : Feeds s (State.feed ctx q n fuel s) := by
  induction fuel generalizing s with
  | zero => exact .refl s
  | succ fuel ih =>
    unfold State.feed
    dsimp only
    split
    · exact .refl s
    · split
      · exact .refl s
      · next d _ =>
        split
        · exact (s.mapNode_feeds ctx q n _).trans (.of_dies rfl)
        · exact ((s.queueTask_feeds d _).trans (.of_dies rfl)).trans ((State.mapNode_feeds _ ctx q n _).trans (ih _))

theorem State.feedAll_feeds (s : State) : Feeds s s.feedAll := .foldl (fun s _ => State.feed_feeds _ _ _ _ s) _ _

/-! ### Binding a team -/

/-- Granules saved for a claim change memory alone. -/
theorem State.saveGrans_onlyMemory (s : State) (p : Parked) (gs : List Gran) : OnlyMemory s (s.saveGrans p gs).1 := by
  unfold State.saveGrans
  dsimp only
  split
  · exact .refl s
  · refine OnlyMemory.trans ?_ (.foldl (fun s _ => s.writeUnit_onlyMemory _ _ _) _ _)
    split <;> exact s.writeUnit_onlyMemory _ _ _

/-- A claim changes memory and the parked teams alone. -/
theorem State.claim_eq (s : State) (core : Nat) (y : Place) (launch : Nat) :
    ∃ t, OnlyMemory s t ∧ ∃ ps, s.claim core y launch = { t with parked := ps } := by
  refine ⟨_, ?_, _, rfl⟩
  refine List.foldlRecOn (motive := fun (a : State × List Parked) => OnlyMemory s a.1) _ _ (.refl s) fun a ha _ _ => ?_
  dsimp only
  split
  · exact ha.trans (State.saveGrans_onlyMemory _ _ _)
  · exact ha

theorem State.enterLaunch_eq (s : State) (core ctx launch : Nat) : ∃ cs, s.enterLaunch core ctx launch = { s with cores := cs } := by
  unfold State.enterLaunch
  dsimp only
  split
  · exact ⟨_, rfl⟩
  · exact ⟨_, rfl⟩

/-- A group as it is put on a core. -/
def Group.placed (g : Group) (team age : Nat) : Group := { g with team := team, age := age }

/-- What the placing of a team with its groups leaves. -/
structure TeamPlaced (s t : State) (gid0 : Nat) (x : Team) (gs : List Group) : Prop where
  eq : t = { s with mem := t.mem, side := t.side, parked := t.parked, cores := t.cores, teams := t.teams, groups := t.groups }
  teams : t.teams = Tab.set s.teams gid0 { x with bound := true }
  groups : ∀ r, r < gs.length → ∃ age, t.grp (gid0 + r) = (nth {} gs r).placed gid0 age

theorem TeamPlaced.die {s t : State} {gid0 : Nat} {x : Team} {gs : List Group} (h : TeamPlaced s t gid0 x gs) (d : Nat) : t.die d = s.die d := by
  rw [h.eq]
  rfl

/-- Groups put on a core one after another. -/
def State.putGroups (s : State) (gid0 age : Nat) (gs : List Group) (rs : List Nat) : State :=
  rs.foldl (fun s r => s.setGrp (gid0 + r) ((nth {} gs r).placed gid0 (age + r))) s

theorem State.putGroups_eq (s : State) (gid0 age : Nat) (gs : List Group) (rs : List Nat) :
    s.putGroups gid0 age gs rs = { s with groups := (s.putGroups gid0 age gs rs).groups } :=
  List.foldlRecOn (motive := fun (t : State) => t = { s with groups := t.groups }) rs _ rfl fun t ht r _ => by rw [ht]; rfl

theorem State.putGroups_grp (s : State) (gid0 age : Nat) (gs : List Group) (rs : List Nat) (r : Nat) :
    (s.putGroups gid0 age gs rs).grp (gid0 + r) = if r ∈ rs then (nth {} gs r).placed gid0 (age + r) else s.grp (gid0 + r) := by
  induction rs generalizing s with
  | nil => rfl
  | cons q rs ih =>
    rw [State.putGroups, List.foldl_cons, ← State.putGroups, ih]
    by_cases h : r = q
    · subst h
      simp
    · simp [h, State.grp_setGrp_ne _ _ (show gid0 + r ≠ gid0 + q by omega)]

theorem State.placeTeam_placed (s : State) (gid0 : Nat) (x : Team) (gs : List Group) : TeamPlaced s (s.placeTeam gid0 x gs) gid0 x gs := by
  obtain ⟨a, claimed, ps, ha⟩ := s.claim_eq (coreOf gid0) x.place x.launch
  obtain ⟨cs, hb⟩ := State.enterLaunch_eq { a with parked := ps } (coreOf gid0) x.ctx x.launch
  have put : ∃ u age, s.placeTeam gid0 x gs = State.putGroups u gid0 age gs (upto gs.length)
      ∧ u = { s with mem := u.mem, side := u.side, parked := u.parked, cores := u.cores, teams := u.teams }
      ∧ u.teams = Tab.set s.teams gid0 { x with bound := true } := by
    refine ⟨_, _, rfl, ?_, ?_⟩
    · rw [ha, hb, claimed]
      rfl
    · rw [ha, hb, claimed]
      rfl
  obtain ⟨u, age, eq, ueq, teams⟩ := put
  have only := u.putGroups_eq gid0 age gs (upto gs.length)
  rw [eq]
  refine ⟨by rw [only, ueq], by rw [only]; exact teams, fun r lt => ⟨age + r, ?_⟩⟩
  rw [u.putGroups_grp, if_pos (mem_upto.mpr lt)]

/-- The uniform registers of a newly bound group: its arguments. -/
theorem Tab.find_map_rangeFrom {α : Type} (f : Nat → α) (a n k : Nat) :
    Tab.find ((rangeFrom a n).map fun i => (i, f i)) k = if a ≤ k ∧ k < a + n then some (f k) else none := by
  induction n generalizing a with
  | zero => simp [rangeFrom, Tab.find]
  | succ n ih =>
    simp only [rangeFrom, List.map_cons, Tab.find, ih]
    by_cases h : a = k
    · subst h
      simp
    · rw [if_neg h]
      congr 1
      simp only [eq_iff_iff]
      omega

theorem nth_of_length_le {α : Type} (d : α) (xs : List α) {n : Nat} (h : xs.length ≤ n) : nth d xs n = d := by
  induction xs generalizing n with
  | nil => rfl
  | cons x xs ih => cases n with
    | zero => simp at h
    | succ n => exact ih (by simpa using h)

theorem newGroup_ur (team role sched age : Nat) (d : EntryDesc) (pc depth : Nat) (args : List Word) (n : Nat) :
    (newGroup team role sched age d pc depth args).ur n = nth 0#32 args n := by
  rw [Group.ur, Tab.get, newGroup, upto, Tab.find_map_rangeFrom]
  split
  · rfl
  · rw [nth_of_length_le _ _ (by omega)]
    rfl

theorem newGroup_lane (team role sched age : Nat) (d : EntryDesc) (pc depth : Nat) (args : List Word) {l : Nat} (h : l < 32) :
    (newGroup team role sched age d pc depth args).lane l = { pc := lpcOf pc } := by
  rw [Group.lane, newGroup, nth_mkLanes _ _ h]

/-- A team put at an entry PC is fresh (R34, R44, R120). -/
theorem TeamPlaced.fresh {s t : State} {gid0 : Nat} {x : Team} {pc depth : Nat} {sched : Nat → Nat} {args : List Word}
    (h : TeamPlaced s t gid0 x ((upto (x.desc.team + 1)).map fun r => newGroup gid0 r (sched r) 0 x.desc pc depth args)) :
    freshTeam t gid0 x.desc pc depth sched args := by
  intro r le
  have lt : r < x.desc.team + 1 := by omega
  obtain ⟨age, eq⟩ := h.groups r (by simpa using lt)
  rw [nth_map (e := 0) (h := by simpa using lt), upto, nth_rangeFrom, if_pos lt, Nat.zero_add] at eq
  rw [eq]
  refine ⟨rfl, rfl, rfl, rfl, rfl, rfl, rfl, rfl, rfl, fun l lt => newGroup_lane gid0 r (sched r) 0 x.desc pc depth args lt, fun n => newGroup_ur gid0 r (sched r) 0 x.desc pc depth args n,
    fun n l => ?_, fun n l ne => ?_, fun k => ?_, rfl, rfl, rfl⟩
  · exact nth_eq_default _ _ (by simp [Group.placed, newGroup, Tab.get, Tab.find, zeroLine, mkLanes]) _
  · rw [Group.pr, if_neg ne]
    exact nth_eq_default _ _ (by simp [Group.placed, newGroup, Tab.get, Tab.find, mkLanes]) _
  · rw [Group.flagSet, nth_eq_default _ _ (by simp [Group.placed, newGroup])]
    rfl

/-- The team of a task of pool `idx` at a place there. -/
def State.taskTeam (s : State) (idx : Nat) (x : Task) (d : EntryDesc) (p : Place) : Team :=
  { ctx := x.ctx, work := .task idx, queue := x.queue, node := x.node, launch := x.launch, desc := d, ridx := idx, place := p
    cluster := 2 ^ 32 + s.seqno, cvs := (upto 8).map fun _ => {} }

/-- The state with task `k` of a die out of the queue, and the sequence number of its cluster taken. -/
def State.unqueued (s : State) (die k : Nat) : State :=
  { s.setDie die { s.die die with tasks := dropNth (s.die die).tasks k } with seqno := s.seqno + 1 }

/-- A task of a die bound in a pool that holds it. -/
def State.bindTask (s : State) (die k idx : Nat) (x : Task) (d : EntryDesc) (p : Place) : State :=
  let gid := 16 * (idx / 16) + p.slots.1
  (s.unqueued die k).placeTeam gid (s.taskTeam idx x d p) ((upto (d.team + 1)).map fun r =>
    newGroup gid r ((p.slots.1 + r) % 4) 0 d (s.entryOn x.launch (idx / 16) x.pc) x.depth x.args)

theorem State.tasks_unqueued (s : State) {die k : Nat} {x : Task} (h : (s.die die).tasks[k]? = some x) :
    ((s.unqueued die k).die die).tasks = dropNth (s.die die).tasks k := by
  have inside : die < s.dies.length := by
    by_contra out
    rw [State.die, nth_of_length_le _ _ (by omega)] at h
    simp at h
  exact congrArg Die.tasks (s.die_setDie die _ inside)

theorem exec_taskDispatch_binds {die k idx : Nat} {x : Task} {d : EntryDesc} {p : Place} {s : State} (task : (s.die die).tasks[k]? = some x)
    (desc : s.readDesc ioUnit x.ctx x.pc = .ok (some d)) (pool : s.poolFor die 1 x.ctx 0 x.launch d = some (idx, p)) :
    exec (.taskDispatch die k) s = .next (s.bindTask die k idx x d p).feedAll := by
  rw [exec_taskDispatch, execTaskDispatch]
  simp only [task, desc, pool]
  rfl

end Sys2Proof.Machine

namespace Sys2Proof

open Sys2Proof.Machine

/-- Settles O38: each effect by its run, and a task's team by what the placing of a team leaves. -/
theorem tasksAreSpawnedPostedAndDispatched : Obligations.TasksAreSpawnedPostedAndDispatched := by
  unfold Obligations.TasksAreSpawnedPostedAndDispatched
  refine ⟨?_, ?_, ?_⟩
  · intro f s v x d h act inside
    obtain ⟨t, only, eq⟩ := s.closeFilter_eq s.cur.gid
    have dies := s.dies_closeFilter s.cur.gid
    have die := s.die_closeFilter s.cur.gid
    have me : ((s.closeFilter s.cur.gid).queueTask d (s.spawned f)).me = s.me.unfiltered := s.me_closeFilter
    obtain ⟨step, still⟩ := retire_after (s := s) (u := (s.closeFilter s.cur.gid).queueTask d (s.spawned f))
      (by rw [eq, only]; rfl) (by rw [eq, only]; rfl) (by rw [me]; rfl) (by rw [me]; rfl)
    refine ⟨_, exec_spawn_runs h act, step, still, fun e ne => ?_, ?_⟩
    · rw [State.die_retire, State.queueTask, State.die_setDie_ne _ _ ne, die]
    · rw [State.die_retire, State.queueTask, State.die_setDie _ _ _ (by rw [dies]; exact inside), die]
      rfl
  · intro f y s v x n val h act queue inside
    have found := s.mapNode_found x.node (fun n => n.posted val) queue
    obtain ⟨step, still⟩ := retire_after (s := s) (u := s.mapNode x.ctx x.queue x.node fun n => n.posted val)
      (by rw [found]; rfl) (by rw [found]; rfl) (by rw [found]; rfl) (by rw [found]; rfl)
    refine ⟨_, exec_post_runs h act, step, still, ?_⟩
    rw [State.node_retire, State.node_mapNode _ _ queue inside, Node.posted, combine_eq]
  · intro die k idx x d p s task desc pool gid
    have feeds := (s.bindTask die k idx x d p).feedAll_feeds
    have placed := State.placeTeam_placed (s.unqueued die k) gid (s.taskTeam idx x d p) ((upto (d.team + 1)).map fun r =>
      newGroup gid r ((p.slots.1 + r) % 4) 0 d (s.entryOn x.launch (idx / 16) x.pc) x.depth x.args)
    have team : ((s.bindTask die k idx x d p).feedAll).team gid = { s.taskTeam idx x d p with bound := true } := by
      rw [feeds.eq]
      exact (congrArg (Tab.get {} · gid) placed.teams).trans (Tab.get_set _ _ _ _)
    refine ⟨_, exec_taskDispatch_binds task desc pool, ?_, ?_, by rw [team], by rw [team]; rfl, by rw [team]; rfl, by rw [team]; rfl, by rw [team]; rfl⟩
    · obtain ⟨more, tasks⟩ := feeds.tasks die
      refine ⟨more, tasks.trans ?_⟩
      rw [← s.tasks_unqueued task, ← placed.die]
      rfl
    · rw [feeds.eq]
      exact TeamPlaced.fresh placed

end Sys2Proof
end

section
/-!
PROOFS. What the performing, holding and applying of stores leaves of teams, groups and launches.
-/

namespace Sys2Proof.Machine

open Sys2Proof

/-! ### Performed stores -/

/-- A team but for its scratchpad. -/
def Team.unstored (x : Team) : Team := { x with spad := [], spadUe := [] }

/-- What performing stores leaves: memory, side-band words, scratchpads and groups change, and no group's team. -/
structure Performs (s t : State) : Prop where
  eq : t = { s with mem := t.mem, side := t.side, groups := t.groups, teams := t.teams }
  teams : ∀ u, (t.team u).unstored = (s.team u).unstored
  groups : ∀ g, (t.grp g).team = (s.grp g).team

namespace Performs

theorem refl (s : State) : Performs s s := ⟨rfl, fun _ => rfl, fun _ => rfl⟩

theorem trans {s t u : State} (a : Performs s t) (b : Performs t u) : Performs s u := by
  refine ⟨?_, fun w => (b.teams w).trans (a.teams w), fun g => (b.groups g).trans (a.groups g)⟩
  have e := b.eq
  rw [a.eq] at e
  exact e

theorem foldl {α : Type} {f : State → α → State} (h : ∀ s x, Performs s (f s x)) (xs : List α) (s : State) : Performs s (xs.foldl f s) :=
  List.foldlRecOn (motive := fun (t : State) => Performs s t) xs f (.refl s) fun t ht x _ => ht.trans (h t x)

theorem of_onlyMemory {s t : State} (h : OnlyMemory s t) : Performs s t := by
  have teams : t.teams = s.teams := by rw [h]
  have groups : t.groups = s.groups := by rw [h]
  exact ⟨by rw [teams, groups]; exact h, fun u => by rw [State.team, State.team, teams], fun g => by rw [State.grp, State.grp, groups]⟩

theorem of_onlySide {s t : State} (h : OnlySide s t) : Performs s t := by
  have mem : t.mem = s.mem := by rw [h]
  exact of_onlyMemory (by rw [OnlyMemory, mem]; exact h)

theorem setGrp {s : State} {g : Nat} {x : Group} (h : x.team = (s.grp g).team) : Performs s (s.setGrp g x) := by
  refine ⟨rfl, fun _ => rfl, fun k => ?_⟩
  by_cases e : k = g
  · rw [e, State.grp_setGrp, h]
  · rw [State.grp_setGrp_ne _ _ e]

theorem setTeam {s : State} {t : Nat} {x : Team} (h : x.unstored = (s.team t).unstored) : Performs s (s.setTeam t x) := by
  refine ⟨rfl, fun k => ?_, fun _ => rfl⟩
  by_cases e : k = t
  · rw [e, State.team_setTeam, h]
  · rw [State.team_setTeam_ne _ _ e]

end Performs

theorem State.setSide_onlySide (s : State) (l : Nat) (x : Side) : OnlySide s (s.setSide l x) := rfl

theorem State.closeFilter_performs (s : State) (gid : Nat) : Performs s (s.closeFilter gid) := by
  obtain ⟨t, only, eq⟩ := s.closeFilter_eq gid
  rw [eq]
  refine (Performs.of_onlySide only).trans (.setGrp ?_)
  rw [only]
  rfl

theorem State.closeOwn_performs (s : State) (gid line : Nat) : Performs s (s.closeOwn gid line) := .of_onlySide (s.closeOwn_onlySide gid line)

theorem State.enterFilter_performs (s : State) (gid line : Nat) : Performs s (s.enterFilter gid line) := by
  unfold State.enterFilter
  dsimp only
  split
  · exact .refl s
  · split
    · split
      · exact .setGrp rfl
      · exact (s.closeOwn_performs gid _).trans (.setGrp ((s.closeOwn_performs gid _).groups gid).symm)
    · exact .setGrp rfl

theorem State.openLine_performs (s : State) (gid line : Nat) : Performs s (s.openLine gid line) := by
  unfold State.openLine
  dsimp only
  split
  · exact .refl s
  · split
    · exact .of_onlySide (s.setSide_onlySide _ _)
    · split
      · exact (Performs.of_onlySide (s.setSide_onlySide _ _)).trans (State.enterFilter_performs _ _ _)
      · exact .refl s

theorem State.openLines_performs (s : State) (gid pa n : Nat) : Performs s (s.openLines gid pa n) := by
  unfold State.openLines
  split
  · exact .refl s
  · exact .foldl (fun t l => t.openLine_performs gid l) _ _

theorem State.lineStored_onlySide (s : State) (e : SqEntry) : OnlySide s (s.lineStored e) := by
  unfold State.lineStored
  dsimp only
  split
  · exact .refl s
  · split
    · exact s.setSide_onlySide _ _
    · split
      · exact s.setSide_onlySide _ _
      · exact .refl s

theorem State.putWord_performs (s : State) (key : Nat) (sp : Space) (x : Nat) (w : Word) : Performs s (s.putWord key sp x w) := by
  cases sp with
  | global => exact .of_onlyMemory (s.writeAs_onlyMemory _ _ _)
  | spad t => exact .setTeam rfl
  | const => exact .refl s

theorem State.atomStep_performs (s : State) (key op ty : Nat) (sp : Space) (x : Nat) (v w : Word) : Performs s (s.atomStep key op ty sp x v w).2 :=
  s.putWord_performs key sp x _

theorem State.spadWrite_performs (s : State) (team off : Nat) (bs : List Byte) : Performs s (s.spadWrite team off bs) := .setTeam rfl

/-- A global store but a reduction: its bytes, and the record of its lines. -/
theorem State.storeGlobal_performs (s : State) (key : Nat) (opens : Bool) (e : SqEntry) :
    let t := (s.writeAs key e.pa e.bytes).lineStored e
    Performs s (if opens && e.rel.isNone then t.openLines e.gid e.pa e.bytes.length
      else if e.rel.isNone then (rangeFrom (e.pa / 64) 1).foldl State.closeLine t else t) := by
  intro t
  have written : Performs s t := (Performs.of_onlyMemory (s.writeAs_onlyMemory key e.pa e.bytes)).trans (.of_onlySide (State.lineStored_onlySide _ e))
  split
  · exact written.trans (t.openLines_performs _ _ _)
  · split
    · exact written.trans (.foldl (fun t l => .of_onlyMemory (t.closeLine_onlyMemory l)) _ _)
    · exact written

theorem State.writeStore_performs (s : State) (key : Nat) (opens : Bool) (e : SqEntry) : Performs s (s.writeStore key opens e) := by
  unfold State.writeStore
  split
  · exact s.atomStep_performs _ _ _ _ _ _ _
  · exact s.storeGlobal_performs key opens e
  · exact s.spadWrite_performs _ _ _
  · exact .refl s

theorem State.releaseFirst_performs (s : State) (e : SqEntry) : Performs s (s.releaseFirst e) := by
  unfold State.releaseFirst
  split
  · exact s.closeFilter_performs _
  · exact .refl s

/-! ### Applied entries -/

theorem recordRanked_team (g : Group) (rank src pc : Nat) (evs : List Ev) : (recordRanked g rank src pc evs).team = g.team :=
  (congrArg Group.team (recordRanked_spec g rank src pc evs).1 :)

theorem State.opDone_performs (s : State) (gid ord : Nat) : Performs s (s.opDone gid ord) := by
  unfold State.opDone
  dsimp only
  split
  · exact .refl s
  · refine .setGrp ?_
    split <;> rfl

theorem State.applyStaged_performs (s : State) (e : Staged) : Performs s (s.applyStaged e) := by
  unfold State.applyStaged
  extract_lets u key x bad one r
  have released : Performs s u := by
    show Performs s (if e.rel then s.closeFilter e.gid else s)
    split
    · exact s.closeFilter_performs _
    · exact .refl s
  split
  · exact released.trans (u.atomStep_performs _ _ _ _ _ _ _)
  · next gid ord _ =>
    extract_lets op d port g h
    have stepped : Performs u r.2 := by
      show Performs u (if bad then (0#32, u) else u.atomStep key e.op e.ty e.space x e.opnd e.opnd2).2
      split
      · exact .refl u
      · exact u.atomStep_performs _ _ _ _ _ _ _
    refine (released.trans stepped).trans (.setGrp ?_)
    unfold h
    split
    · exact recordRanked_team g port 0 e.pc _
    · rfl

theorem State.applyAll_performs (es : List Staged) (s : State) : Performs s (s.applyAll es) := by
  induction es generalizing s with
  | nil => exact .refl s
  | cons e es ih =>
    unfold State.applyAll
    dsimp only
    refine ((s.applyStaged_performs e).trans ?_).trans (ih _)
    split
    · split
      · exact .refl _
      · exact State.opDone_performs _ _ _
    · exact .refl _

end Sys2Proof.Machine
end

section
/-!
PROOFS. Ends of groups and teams, and the ticket of a launch.
-/

namespace Sys2Proof.Machine

open Sys2Proof

/-! ### Stores that leave their queue -/

/-- A team but for its scratchpad and what the ticket unit has of it. -/
def Team.lasting (x : Team) : Team := { x with spad := [], spadUe := [], held := [], handed := [] }

/-- A launch but for its watchdog. -/
def Launch.unwatched (l : Launch) : Launch := { l with wdog := none }

/-- What the end of a team's stores and entries leaves: memory, store queues, held work and watchdogs change, and no group's team. -/
structure Finishes (s t : State) : Prop where
  eq : t = { s with mem := t.mem, side := t.side, groups := t.groups, teams := t.teams, cores := t.cores, launches := t.launches }
  teams : ∀ u, (t.team u).lasting = (s.team u).lasting
  groups : ∀ g, (t.grp g).team = (s.grp g).team

namespace Finishes

theorem refl (s : State) : Finishes s s := ⟨rfl, fun _ => rfl, fun _ => rfl⟩

theorem trans {s t u : State} (a : Finishes s t) (b : Finishes t u) : Finishes s u := by
  refine ⟨?_, fun w => (b.teams w).trans (a.teams w), fun g => (b.groups g).trans (a.groups g)⟩
  have e := b.eq
  rw [a.eq] at e
  exact e

theorem foldl {α : Type} {f : State → α → State} (h : ∀ s x, Finishes s (f s x)) (xs : List α) (s : State) : Finishes s (xs.foldl f s) :=
  List.foldlRecOn (motive := fun (t : State) => Finishes s t) xs f (.refl s) fun t ht x _ => ht.trans (h t x)

theorem of_performs {s t : State} (h : Performs s t) : Finishes s t := by
  have cores : t.cores = s.cores := by rw [h.eq]
  have launches : t.launches = s.launches := by rw [h.eq]
  exact ⟨by rw [cores, launches]; exact h.eq, fun u => (congrArg Team.lasting (h.teams u) :), h.groups⟩

theorem setTeam {s : State} {t : Nat} {x : Team} (h : x.lasting = (s.team t).lasting) : Finishes s (s.setTeam t x) := by
  refine ⟨rfl, fun k => ?_, fun _ => rfl⟩
  by_cases e : k = t
  · rw [e, State.team_setTeam, h]
  · rw [State.team_setTeam_ne _ _ e]

theorem setCore (s : State) (c : Nat) (x : CoreSt) : Finishes s (s.setCore c x) := ⟨rfl, fun _ => rfl, fun _ => rfl⟩

variable {s t : State}

theorem binds (h : Finishes s t) : t.binds = s.binds := by rw [h.eq]
theorem work (h : Finishes s t) (u : Nat) : (t.team u).work = (s.team u).work := (congrArg Team.work (h.teams u) :)
theorem ridx (h : Finishes s t) (u : Nat) : (t.team u).ridx = (s.team u).ridx := (congrArg Team.ridx (h.teams u) :)
theorem bound (h : Finishes s t) (u : Nat) : (t.team u).bound = (s.team u).bound := (congrArg Team.bound (h.teams u) :)
theorem done (h : Finishes s t) (u : Nat) : (t.team u).done = (s.team u).done := (congrArg Team.done (h.teams u) :)
theorem place (h : Finishes s t) (u : Nat) : (t.team u).place = (s.team u).place := (congrArg Team.place (h.teams u) :)
theorem gone (h : Finishes s t) (u : Nat) : (t.team u).gone = (s.team u).gone := (congrArg Team.gone (h.teams u) :)

end Finishes

/-- The watchdog of a launch changes the launches alone. -/
theorem State.armTicket_eq (s : State) (t : Nat) : s.armTicket t = { s with launches := (s.armTicket t).launches } := by
  unfold State.armTicket
  dsimp only
  split
  · split <;> rfl
  · rfl

theorem State.armTicket_finishes (s : State) (t : Nat) : Finishes s (s.armTicket t) := by
  rw [s.armTicket_eq t]
  exact ⟨rfl, fun _ => rfl, fun _ => rfl⟩

theorem State.performStore_finishes (s : State) (key : Nat) (opens : Bool) (e : SqEntry) : Finishes s (s.performStore key opens e) := by
  have stored : Finishes s ((s.releaseFirst e).writeStore key opens e) :=
    .of_performs ((s.releaseFirst_performs e).trans (State.writeStore_performs _ _ _ _))
  unfold State.performStore State.overHeld
  dsimp only
  split
  · split
    · exact stored
    · exact stored.trans (.setTeam rfl)
  · exact stored

theorem State.finishStore_finishes (s : State) (held : Bool) (e : SqEntry) : Finishes s (s.finishStore held e) := by
  unfold State.finishStore State.holdStore
  split
  · exact (Finishes.of_performs (s.releaseFirst_performs e)).trans ((Finishes.setTeam (by rfl)).trans (State.armTicket_finishes _ _))
  · exact s.performStore_finishes _ _ _

theorem State.drain_finishes (s : State) (core : Nat) (which : SqEntry → Bool) : Finishes s (s.drain core which) :=
  (Finishes.setCore s _ _).trans (.foldl (fun t e => t.finishStore_finishes _ e) _ _)

theorem State.drainLate_finishes (s : State) (t : Nat) : Finishes s (s.drainLate t) :=
  (Finishes.setCore s _ _).trans (State.drain_finishes _ _ _)

theorem State.takeHanded_finishes (s : State) (ts : List Nat) (es : List Staged) : Finishes s (s.takeHanded ts es) :=
  .foldl (fun _ _ => .setTeam (by rfl)) _ _

/-- The lines of the groups of a team close. -/
def State.closeGroups (s : State) (t n : Nat) : State :=
  (rangeFrom t n).foldl (fun u g => if (u.grp g).team == t then u.closeFilter g else u) s

theorem State.closeGroups_performs (s : State) (t n : Nat) : Performs s (s.closeGroups t n) := by
  refine .foldl (fun u g => ?_) _ _
  split
  · exact u.closeFilter_performs g
  · exact .refl u

theorem State.finishWork_finishes (s : State) (t : Nat) : Finishes s (s.finishWork t) :=
  ((((s.drain_finishes _ _).trans (State.takeHanded_finishes _ _ _)).trans (.of_performs (State.applyAll_performs _ _))).trans
    (State.drainLate_finishes _ _)).trans (.of_performs (State.closeGroups_performs _ _ _))

/-! ### Nothing queued: memory stands -/

/-- No entry of a core's queue that is to leave it: the queue stands. -/
theorem State.drain_none (s : State) (core : Nat) (which : SqEntry → Bool) (h : ∀ e ∈ (s.core core).sq, which e = false) :
    s.drain core which = s.setCore core (s.core core) := by
  have gone : (s.core core).sq.filter which = [] := List.filter_eq_nil_iff.mpr fun e m => by rw [h e m]; exact Bool.false_ne_true
  have kept : ((s.core core).sq.filter fun e => !which e) = (s.core core).sq := List.filter_eq_self.mpr fun e m => by rw [h e m]; rfl
  unfold State.drain
  simp only [gone, kept, List.foldl_nil]

theorem State.closeFilter_mem (s : State) (gid : Nat) : (s.closeFilter gid).mem = s.mem := by
  obtain ⟨t, only, eq⟩ := s.closeFilter_eq gid
  rw [eq, only]
  rfl

theorem State.closeGroups_mem (s : State) (t n : Nat) : (s.closeGroups t n).mem = s.mem :=
  List.foldlRecOn (motive := fun (u : State) => u.mem = s.mem) (rangeFrom t n) _ rfl fun u hu g _ => by
    split
    · exact (u.closeFilter_mem g).trans hu
    · exact hu

theorem State.drainLate_mem (s : State) (t : Nat) (h : ∀ e ∈ (s.core (coreOf t)).sq, (s.grp e.gid).team ≠ t) : (s.drainLate t).mem = s.mem := by
  unfold State.drainLate
  dsimp only
  rw [State.drain_none]
  · rfl
  · simp only [State.core_setCore, List.mem_map]
    rintro e ⟨x, m, rfl⟩
    have other := h x m
    split <;> simpa using other

theorem State.finishWork_mem (s : State) (t : Nat) (handed : (s.team t).handed = []) (h : ∀ e ∈ (s.core (coreOf t)).sq, (s.grp e.gid).team ≠ t) :
    (s.finishWork t).mem = s.mem := by
  have drained : s.drainTeam t = s.setCore (coreOf t) (s.core (coreOf t)) :=
    s.drain_none _ _ fun e m => by simp [h e m]
  have none' : ((s.setCore (coreOf t) (s.core (coreOf t))).team t).handed.filter
      (fun e => (s.setCore (coreOf t) (s.core (coreOf t))).canApply e t) = [] := by rw [State.team_setCore, handed, List.filter_nil]
  have taken : ((s.setCore (coreOf t) (s.core (coreOf t))).takeHanded [t] []).core (coreOf t) = s.core (coreOf t) := State.core_setCore _ _ _
  unfold State.finishWork
  dsimp only
  rw [drained, none', sortStaged, State.applyAll, ← State.closeGroups, State.closeGroups_mem, State.drainLate_mem]
  · rfl
  · rw [taken]
    exact h

/-! ### The record of a block, and its launch -/

/-- Two states differ in launches, contexts and dies alone. -/
def OnlyRecords (s t : State) : Prop := t = { s with launches := t.launches, ctxs := t.ctxs, dies := t.dies }

namespace OnlyRecords

theorem refl (s : State) : OnlyRecords s s := rfl

theorem trans {s t u : State} (a : OnlyRecords s t) (b : OnlyRecords t u) : OnlyRecords s u := by
  unfold OnlyRecords at *
  rw [a] at b
  exact b

variable {s t : State}

theorem mem (h : OnlyRecords s t) : t.mem = s.mem := by rw [h]
theorem binds (h : OnlyRecords s t) : t.binds = s.binds := by rw [h]
theorem team (h : OnlyRecords s t) (k : Nat) : t.team k = s.team k := by rw [h]; rfl
theorem grp (h : OnlyRecords s t) (k : Nat) : t.grp k = s.grp k := by rw [h]; rfl
theorem bind (h : OnlyRecords s t) (k : Nat) : t.bind k = s.bind k := by rw [h]; rfl

end OnlyRecords

theorem State.mapNode_onlyRecords (s : State) (c q n : Nat) (f : Node → Node) : OnlyRecords s (s.mapNode c q n f) := by
  unfold State.mapNode
  dsimp only
  split <;> rfl

theorem State.blockEnded_onlyRecords (s : State) (t : Nat) : OnlyRecords s (s.blockEnded t) := by
  unfold State.blockEnded
  dsimp only
  split
  · exact .refl s
  · split
    · exact OnlyRecords.trans (t := { s with launches := _ }) rfl (State.mapNode_onlyRecords _ _ _ _ _)
    · rfl

theorem State.settleTicket_onlyRecords (s : State) (k : Nat) : OnlyRecords s (s.settleTicket k) := by
  unfold State.settleTicket
  split
  · split <;> rfl
  · rfl

theorem State.dropIdle_onlyRecords (s : State) (k : Nat) : OnlyRecords s (s.dropIdle k) := by
  unfold State.dropIdle
  dsimp only
  split
  · exact .refl s
  · split <;> rfl

theorem State.setFront_onlyRecords (s : State) (die fid : Nat) (x : Front) : OnlyRecords s (s.setFront die fid x) := by
  unfold State.setFront
  dsimp only
  split
  · exact OnlyRecords.trans (t := s.setDie die _) rfl (State.mapNode_onlyRecords _ _ _ _ _)
  · rfl

theorem State.mapPoint_onlyRecords (s : State) (die fid lin : Nat) (f : Point → Point) : OnlyRecords s (s.mapPoint die fid lin f) :=
  s.setFront_onlyRecords _ _ _

theorem State.closePool_eq (s : State) (idx : Nat) : s.closePool idx = { s with binds := (s.closePool idx).binds } := by
  unfold State.closePool
  dsimp only
  split <;> rfl

/-- ST and CAUSE read back (R289). -/
theorem State.bindState_read (s : State) (idx st cause : Nat) (h : (s.bind idx).w.length = 8) :
    ((s.bindState idx st cause).bind idx).st = st % 4 ∧ ((s.bindState idx st cause).bind idx).cause = cause % 16 := by
  have word : ((s.bindState idx st cause).bind idx).word 5 = putBits (putBits ((s.bind idx).word 5) 1 0 st) 7 4 cause % 2 ^ 64 := by
    simp [State.bindState, State.setBind, State.bind, Bind.word, nth_setNth] at h ⊢
    simp [h]
  have lt : (s.bind idx).word 5 < 2 ^ 64 := BitVec.isLt _
  rw [Bind.st, Bind.cause, word]
  simp only [bits, putBits, Nat.shiftRight_eq_div_pow]
  omega

/-! ### The end of a team (R35) -/

/-- The team as its end leaves it. -/
def Team.ended (x : Team) : Team := { x with done := true, held := [], handed := [], stop := none }

@[simp] theorem Team.ended_bound (x : Team) : x.ended.bound = x.bound := rfl
@[simp] theorem Team.ended_done (x : Team) : x.ended.done = true := rfl
@[simp] theorem Team.ended_place (x : Team) : x.ended.place = x.place := rfl

/-- What the end of team `t` leaves. -/
structure TeamEnds (s o : State) (t : Nat) : Prop where
  team : o.team t = ((s.finishWork t).team t).ended
  groups : ∀ g, (o.grp g).team = (s.grp g).team
  mem : o.mem = (s.finishWork t).mem
  block : (s.team t).work = .block → (s.bind (s.team t).ridx).w.length = 8 →
    (o.bind (s.team t).ridx).st = 2 ∧ (o.bind (s.team t).ridx).cause = 0

theorem State.teamOver_ends (s : State) (t : Nat) : TeamEnds s (s.teamOver t) t := by
  have work := s.finishWork_finishes t
  unfold State.teamOver
  extract_lets x u v w y
  have recorded : OnlyRecords (s.finishWork t) v := by
    unfold v
    split
    · exact State.blockEnded_onlyRecords _ _
    · exact .refl _
  have ended : y.team t = ((s.finishWork t).team t).ended := by
    rw [State.team_setTeam, Team.ended, ← recorded.team]
  have groups : ∀ g, (y.grp g).team = (s.grp g).team := fun g => by
    rw [← work.groups g, State.grp_setTeam, recorded.grp]
  have mem : y.mem = (s.finishWork t).mem := recorded.mem
  have binds : y.binds = s.binds := recorded.binds.trans work.binds
  cases hw : x.work with
  | block =>
    dsimp only
    have settled := State.settleTicket_onlyRecords (y.bindState x.ridx 2 0) x.launch
    refine ⟨(settled.team t).trans ended, fun g => (congrArg Group.team (settled.grp g)).trans (groups g), settled.mem.trans mem, fun _ length => ?_⟩
    rw [settled.bind]
    exact y.bindState_read x.ridx 2 0 (by rw [State.bind, binds]; exact length)
  | task p =>
    dsimp only
    rw [y.closePool_eq p]
    exact ⟨ended, groups, mem, fun block => by cases hw.symm.trans block⟩
  | point p die fid lin =>
    dsimp only
    rw [y.closePool_eq p]
    exact ⟨ended, groups, mem, fun block => by cases hw.symm.trans block⟩

/-- A team whose storage is released is gone with its groups (R35). -/
structure TeamGone (s o : State) (t : Nat) : Prop where
  team : (o.team t).bound = false
  group : ∀ g, (s.grp g).team = t → t ≤ g → g < t + 16 → (o.grp g).bound = false
  mem : o.mem = s.mem
  binds : o.binds = s.binds

theorem Tab.find_filter_none {α : Type} (t : Tab α) (p : Nat → Bool) {n : Nat} (h : p n = false) : Tab.find (t.filter fun e => p e.1) n = none := by
  induction t with
  | nil => rfl
  | cons e t ih =>
    by_cases k : e.1 = n
    · rw [List.filter_cons_of_neg (by rw [k, h]; exact Bool.false_ne_true)]
      exact ih
    · rw [List.filter_cons]
      split
      · exact (if_neg k).trans ih
      · exact ih

theorem State.dropTeam_gone (s : State) (t : Nat) : TeamGone s (s.dropTeam t) t := by
  refine ⟨(congrArg Team.bound (Tab.get_drop {} s.teams t) :), fun g team lo hi => ?_, rfl, rfl⟩
  have dropped : Tab.find (s.dropTeam t).groups g = none :=
    Tab.find_filter_none s.groups (fun g => !((s.grp g).team == t && Decidable.decide (t ≤ g) && Decidable.decide (g < t + 16))) (by simp [team, lo, hi])
  rw [State.grp, Tab.get, dropped]
  rfl

theorem TeamGone.records {s o r : State} {t : Nat} (h : TeamGone s o t) (only : OnlyRecords o r) : TeamGone s r t := by
  obtain ⟨team, group, mem, binds⟩ := h
  refine ⟨by rw [only.team]; exact team, fun g => by rw [only.grp]; exact group g, only.mem.trans mem, only.binds.trans binds⟩

theorem State.freeTeam_gone (s : State) (t : Nat) : TeamGone s (s.freeTeam t) t := by
  unfold State.freeTeam
  dsimp only
  split
  · exact (s.dropTeam_gone t).records (State.mapPoint_onlyRecords _ _ _ _ _)
  · exact (s.dropTeam_gone t).records (State.dropIdle_onlyRecords _ _)

theorem State.endTeam_running (s : State) (t : Nat) (h : (s.team t).done = false) : s.endTeam t = (s.teamOver t).freeTeam t := by
  rw [State.endTeam, h]
  rfl

/-! ### GROUP_END (R35) -/

/-- The groups of a team that are bound. -/
def State.peersOf (s : State) (t : Nat) : List (Nat × Group) := s.groups.filter fun e => e.2.bound && e.2.team == t

/-- Every lane of a group has exited. -/
def Group.exited (g : Group) : Prop := ∀ n ∈ g.lanes, n.pc = BitVec.allOnes 64

theorem Group.exited.any_live {g : Group} (h : g.exited) : g.lanes.any Lane.live = false :=
  List.any_eq_false.mpr fun n m => by simp [Lane.live, exitedPc, h n m]

theorem execGroupEnd_hands {gid : Nat} {s : State} (bound : (s.grp gid).bound = true) (exited : (s.grp gid).exited)
    (all : ∀ e ∈ s.peersOf (s.grp gid).team, e.2.exited) (staged : (s.team (s.grp gid).team).staged ≠ []) :
    exec (.groupEnd gid) s = .next ((s.flushStaged (s.grp gid).team).armTicket (s.grp gid).team) := by
  have peers : (s.peersOf (s.grp gid).team).all (fun e => !e.2.lanes.any Lane.live) = true :=
    List.all_eq_true.mpr fun e m => by rw [(all e m).any_live]; rfl
  rw [State.peersOf] at peers
  rw [exec_groupEnd, execGroupEnd]
  simp only [bound, exited.any_live, peers, List.isEmpty_eq_false_iff.mpr staged, Bool.not_true, Bool.not_false, Bool.or_self, Bool.and_self,
    Bool.false_eq_true, if_false, if_true]

/-- The state in which the stores of a group have left, and its lines are closed. -/
def State.leftBy (s : State) (gid : Nat) : State := (s.drainGroup gid).closeFilter gid

/-- A group that has left its core. -/
def Group.ended (g : Group) : Group := { g with bound := false, valloc := 0 }

section
variable {gid : Nat} {s : State} (bound : (s.grp gid).bound = true) (exited : (s.grp gid).exited)
  (staged : (s.team (s.grp gid).team).staged = []) (flags : (s.grp gid).flagsClear = true)
include bound exited staged flags

/-- A group of a team that has others leaves. -/
theorem execGroupEnd_leaves (others : ∃ e ∈ s.peersOf (s.grp gid).team, e.1 ≠ gid) : exec (.groupEnd gid) s = .next
    (((s.leftBy gid).setTeam (s.grp gid).team (((s.leftBy gid).team (s.grp gid).team).freeLines (s.grp gid).role (s.grp gid).valloc)).setGrp gid
      ((s.leftBy gid).grp gid).ended) := by
  obtain ⟨e, m, ne⟩ := others
  have any : (s.peersOf (s.grp gid).team).any (·.1 != gid) = true := List.any_eq_true.mpr ⟨e, m, by simpa using ne⟩
  rw [State.peersOf] at any
  rw [exec_groupEnd, execGroupEnd]
  simp only [bound, exited.any_live, staged, flags, Bool.not_true, Bool.or_self, Bool.false_eq_true, if_false, List.isEmpty_nil, Bool.and_false,
    any, if_true]
  rfl

/-- The last group of a team that has not ended. -/
theorem execGroupEnd_last (alone : ∀ e ∈ s.peersOf (s.grp gid).team, e.1 = gid) (running : (s.team (s.grp gid).team).done = false) :
    (s.teamBusy (s.grp gid).team = true → exec (.groupEnd gid) s = .next ((s.leftBy gid).teamOver (s.grp gid).team))
    ∧ (s.teamBusy (s.grp gid).team = false → exec (.groupEnd gid) s = .next ((s.leftBy gid).endTeam (s.grp gid).team)) := by
  have any : (s.peersOf (s.grp gid).team).any (·.1 != gid) = false := List.any_eq_false.mpr fun e m => by simp [alone e m]
  rw [State.peersOf] at any
  rw [exec_groupEnd, execGroupEnd]
  simp only [bound, exited.any_live, staged, flags, Bool.not_true, Bool.or_self, Bool.false_eq_true, if_false, List.isEmpty_nil, Bool.and_false,
    any, running]
  exact ⟨fun busy => if_pos busy, fun idle => if_neg (by simp [idle])⟩

end

theorem State.leftBy_finishes (s : State) (gid : Nat) : Finishes s (s.leftBy gid) :=
  (s.drain_finishes _ _).trans (.of_performs (State.closeFilter_performs _ _))

theorem State.closeLine_gid (s : State) (l : Nat) : ((s.closeLine l).sideOf l).gid = (s.sideOf l).gid := by
  simp only [State.closeLine]
  split
  · rw [State.sideOf_setSide]
  · rfl

theorem State.closeLine_other (s : State) {l n : Nat} (h : n ≠ l) : (s.closeLine l).sideOf n = s.sideOf n := by
  simp only [State.closeLine]
  split
  · exact State.sideOf_setSide_ne _ _ h
  · rfl

/-- The record of a line after lines of a group have closed. -/
theorem State.closeOwns_side (gid : Nat) (ls : List Nat) (s : State) (n : Nat) : let t := ls.foldl (fun t l => t.closeOwn gid l) s
    (t.sideOf n).gid = (s.sideOf n).gid ∧ ((s.sideOf n).opn = false → (t.sideOf n).opn = false)
      ∧ (n ∈ ls → (s.sideOf n).gid = gid → (t.sideOf n).opn = false) := by
  induction ls generalizing s with
  | nil => exact ⟨rfl, id, fun m => absurd m List.not_mem_nil⟩
  | cons l ls ih =>
    have step : ((s.closeOwn gid l).sideOf n).gid = (s.sideOf n).gid ∧ ((s.sideOf n).opn = false → ((s.closeOwn gid l).sideOf n).opn = false)
        ∧ (n = l → (s.sideOf n).gid = gid → ((s.closeOwn gid l).sideOf n).opn = false) := by
      unfold State.closeOwn
      split
      · next own =>
        by_cases e : n = l
        · subst e
          exact ⟨s.closeLine_gid n, fun _ => s.closeLine_closed n, fun _ _ => s.closeLine_closed n⟩
        · rw [s.closeLine_other e]
          exact ⟨rfl, id, fun h => absurd h e⟩
      · next other => exact ⟨rfl, id, fun e own => absurd (e ▸ own) other⟩
    obtain ⟨gid', still, closed⟩ := step
    obtain ⟨later, stays, closes⟩ := ih (s.closeOwn gid l)
    refine ⟨later.trans gid', fun h => stays (still h), fun m own => ?_⟩
    rcases List.mem_cons.mp m with e | m
    · exact stays (closed e own)
    · exact closes m (gid'.trans own)

theorem State.closeFilter_closes (s : State) (gid : Nat) {n : Nat} (m : n ∈ (s.grp gid).filter) (own : (s.sideOf n).gid = gid) :
    ((s.closeFilter gid).sideOf n).opn = false := (State.closeOwns_side gid _ s n).2.2 m own

/-- A group without stores in the queue leaves memory, teams and other groups as they are, and its lines close. -/
theorem State.leftBy_quiet {gid : Nat} {s : State} (h : ∀ e ∈ (s.core (coreOf gid)).sq, e.gid ≠ gid) : let u := s.leftBy gid
    u.mem = s.mem ∧ (∀ k, u.team k = s.team k) ∧ (∀ c, u.core c = s.core c) ∧ (∀ g, g ≠ gid → u.grp g = s.grp g)
      ∧ ∀ n ∈ (s.grp gid).filter, (s.sideOf n).gid = gid → (u.sideOf n).opn = false := by
  have drained : s.drainGroup gid = s.setCore (coreOf gid) (s.core (coreOf gid)) := s.drain_none _ _ fun e m => by simp [h e m]
  have cores : ∀ c, (s.setCore (coreOf gid) (s.core (coreOf gid))).core c = s.core c := fun c => by
    rw [State.core_setCore_ite]
    split
    · subst_vars; rfl
    · rfl
  obtain ⟨u, only, eq⟩ := State.closeFilter_eq (s.setCore (coreOf gid) (s.core (coreOf gid))) gid
  rw [State.leftBy, drained]
  refine ⟨State.closeFilter_mem _ _, fun k => ?_, fun c => ?_, fun g ne => ?_, fun n m own => State.closeFilter_closes _ gid m own⟩
  · rw [eq, State.team_setGrp, only]
    rfl
  · rw [eq, State.core_setGrp, only]
    exact cores c
  · rw [eq, State.grp_setGrp_ne _ _ ne, only]
    rfl

/-! ### The ticket (R254, R257) -/

theorem State.applyAll_nil (s : State) : s.applyAll [] = s := rfl

/-- The watchdog of a launch that starts anew or stops. -/
theorem State.restartTicket_find (s : State) (k : Nat) {m : Launch} (h : Tab.find (s.restartTicket k).launches k = some m) :
    ∃ l, Tab.find s.launches k = some l ∧ m.unwatched = l.unwatched := by
  unfold State.restartTicket at h
  split at h
  · next l found =>
    refine ⟨l, found, ?_⟩
    rw [Tab.find_set] at h
    rw [← Option.some.inj h]
    rfl
  · exact ⟨m, h, rfl⟩

theorem State.restartTicket_onlyRecords (s : State) (k : Nat) : OnlyRecords s (s.restartTicket k) := by
  unfold State.restartTicket
  split <;> rfl

theorem State.dropIdle_find (s : State) (k : Nat) {m : Launch} (h : Tab.find (s.dropIdle k).launches k = some m) : Tab.find s.launches k = some m := by
  unfold State.dropIdle at h
  dsimp only at h
  split at h
  · exact h
  · split at h
    · exact h
    · simp at h

/-- The held stores of the team that runs a block are performed (R254). -/
theorem State.giveTicket_runs {s : State} {k b team : Nat} {l : Launch} {x : Team}
    (h : s.teams.find? (fun e => e.2.bound && !e.2.done && e.2.launch == k && e.2.work == .block && e.2.block == b) = some (team, x)) :
    s.giveTicket k b l = (x.held.foldl (fun u h => u.writeStore (s.ctx l.ctx).key false h) (s.setTeam team { x with held := [] })).applyAll
      (sortStaged (l.staged.filter (·.block == b))) := by
  rw [State.giveTicket]
  simp only [h]

theorem Performs.launches {s t : State} (h : Performs s t) : t.launches = s.launches := by rw [h.eq]

theorem State.giveTicket_launches (s : State) (k b : Nat) (l : Launch) : (s.giveTicket k b l).launches = s.launches := by
  have stores : ∀ (key : Nat) (hs : List SqEntry) (u : State), Performs u (hs.foldl (fun u h => u.writeStore key false h) u) :=
    fun key hs u => .foldl (fun u h => u.writeStore_performs key false h) hs u
  unfold State.giveTicket
  dsimp only
  split
  · exact ((stores _ _ _).trans (State.applyAll_performs _ _)).launches
  · exact (((stores _ _ _).trans (State.applyAll_performs _ _)).trans (stores _ _ _)).launches

/-- The launch whose ticket has passed on. -/
def Launch.passed (l : Launch) : Launch :=
  { l with holder := l.holder + 1, ended := l.ended.filter (· != l.holder), heldOf := l.heldOf.filter (·.1 != l.holder + 1)
           staged := l.staged.filter (·.block != l.holder + 1) }

/-- The state in which the next block has the ticket and its stores are performed. -/
def State.ticketGiven (s : State) (k : Nat) (l : Launch) : State :=
  State.giveTicket { s with launches := Tab.set s.launches k l.passed } k (l.holder + 1) l

theorem execTicketPass_passes {launch : Nat} {l : Launch} {s : State} (found : Tab.find s.launches launch = some l) (det : l.det = true)
    (ended : l.holder ∈ l.ended) :
    exec (.ticketPass launch) s = .next (((s.ticketGiven launch l).restartTicket launch).dropIdle launch) := by
  rw [exec_ticketPass, execTicketPass]
  simp only [found]
  exact if_neg (by simp [det, ended])

theorem ticketPass_onlyRecords (s : State) (launch : Nat) (l : Launch) :
    OnlyRecords (s.ticketGiven launch l) (((s.ticketGiven launch l).restartTicket launch).dropIdle launch) :=
  (State.restartTicket_onlyRecords _ _).trans (State.dropIdle_onlyRecords _ _)

theorem ticketPass_find {s : State} {launch : Nat} {l m : Launch}
    (h : Tab.find (((s.ticketGiven launch l).restartTicket launch).dropIdle launch).launches launch = some m) : m.unwatched = l.passed.unwatched := by
  obtain ⟨p, found, same⟩ := State.restartTicket_find _ _ (State.dropIdle_find _ _ h)
  rw [State.ticketGiven, State.giveTicket_launches, Tab.find_set] at found
  rw [same, Option.some.inj found]

/-- A line written that is the writer's own changes no byte but those that are written there (R212). -/
theorem State.readCell_writeLine_part {s : State} {key line pa : Nat} {bs : List Byte} (wf : Memory.wf s.mem = true)
    (own : ownLine s key (64 * line)) (a : Nat) : readCell (s.writeLine key line pa bs).mem a
      = if a / 64 = line ∧ pa ≤ a ∧ a < pa + bs.length then nth 0#8 bs (a - pa) else readCell s.mem a := by
  simp only [State.writeLine, State.setSide_mem]
  rw [readCell_writeCells _ _ _ wf, List.length_map, rangeFrom_length]
  by_cases inside : 64 * line ≤ a ∧ a < 64 * line + 64
  · have same : ownLine s key a := by rwa [ownLine, show a / 64 = 64 * line / 64 by omega]
    have within : a - 64 * line < 64 := by omega
    have here : a / 64 = line := by omega
    rw [if_pos inside, nth_map _ 0 _ _ _ (by rwa [rangeFrom_length]), nth_rangeFrom, if_pos within, Nat.add_sub_cancel' inside.1,
      State.byteAs_own same]
    simp only [Bool.and_eq_true, decide_eq_true_eq, here, true_and]
  · rw [if_neg inside, if_neg (by omega)]

/-- A line that a write leaves is the writer's own as before. -/
theorem State.SameBut.ownLine {L : Nat → Prop} {s t : State} (h : State.SameBut L s t) {key a : Nat} (other : ¬L (a / 64))
    (own : Sys2Proof.ownLine s key a) : Sys2Proof.ownLine t key a := by
  obtain ⟨side, gen⟩ := own
  exact ⟨by rw [h.side _ other, side], by rw [h.side _ other, gen, State.keyGenOf, State.keyGenOf, h.pkg]⟩

theorem State.readCell_writeLines_own {key pa : Nat} {bs : List Byte} (n first : Nat) (s : State) (wf : Memory.wf s.mem = true)
    (own : ∀ l, first ≤ l → l < first + n → ownLine s key (64 * l)) (a : Nat) :
    readCell ((rangeFrom first n).foldl (fun t l => t.writeLine key l pa bs) s).mem a
      = if (first ≤ a / 64 ∧ a / 64 < first + n) ∧ pa ≤ a ∧ a < pa + bs.length then nth 0#8 bs (a - pa) else readCell s.mem a := by
  induction n generalizing first s with
  | zero => exact (if_neg (by omega)).symm
  | succ n ih =>
    rw [rangeFrom, List.foldl_cons, ih (first + 1) _ (s.writeLine_wf key first pa bs wf)
      (fun l lo hi => (s.writeLine_sameBut key first pa bs wf).ownLine (by omega) (own l (by omega) (by omega))), State.readCell_writeLine_part wf (own first (by omega) (by omega))]
    by_cases here : a / 64 = first
    · rw [if_neg (by omega)]
      exact if_congr (by omega) rfl rfl
    · rw [if_neg (c := a / 64 = first ∧ _) (by omega)]
      exact if_congr (by omega) rfl rfl

/-- Bytes written over lines of the writer's own change no other byte (R212). -/
theorem State.readCell_writeAs_own (s : State) (key pa : Nat) (bs : List Byte) (some' : bs ≠ []) (wf : Memory.wf s.mem = true)
    (own : ∀ j, j < bs.length → ownLine s key (pa + j)) (a : Nat) :
    readCell (s.writeAs key pa bs).mem a = if pa ≤ a ∧ a < pa + bs.length then nth 0#8 bs (a - pa) else readCell s.mem a := by
  have pos := List.length_pos_of_ne_nil some'
  have lines : ∀ l, pa / 64 ≤ l → l < pa / 64 + ((pa + bs.length - 1) / 64 + 1 - pa / 64) → ownLine s key (64 * l) := fun l lo hi => by
    have mine := own (max pa (64 * l) - pa) (by omega)
    rwa [ownLine, show 64 * l / 64 = (pa + (max pa (64 * l) - pa)) / 64 by omega]
  rw [State.writeAs, if_neg (by simpa using some'), State.readCell_writeLines_own _ _ s wf lines]
  exact if_congr (by omega) rfl rfl

theorem OnlySide.mem {s t : State} (h : OnlySide s t) : t.mem = s.mem := by rw [h]

/-- A plain global store of the ticket unit writes its bytes. -/
theorem State.writeStore_plain_mem (s : State) (key : Nat) (e : SqEntry) (kind : e.kind = .plain) (space : e.space = .global) :
    (s.writeStore key false e).mem = (s.writeAs key e.pa e.bytes).mem := by
  have marked := ((s.writeAs key e.pa e.bytes).lineStored_onlySide e).mem
  unfold State.writeStore
  simp only [kind, space, Bool.false_and, Bool.false_eq_true, if_false]
  split
  · exact (State.closeLine_mem _ _).trans marked
  · exact marked

/-! ### The ticket watchdog (R257) -/

/-- A group in which the ticket-stall fault falls due, or that has taken it. -/
def Group.stalled (g : Group) : Prop := g.trap.stall = true ∨ ∃ r, g.trap.frozen = some r ∧ r.code = 0x25

theorem withdraw_trap (s : State) (gid : Nat) : ((withdraw s gid).grp gid).trap = (s.grp gid).trap := by
  rw [withdraw, State.grp_setGrp]
  rfl

theorem raise_mem (s : State) (gid : Nat) (t : TrapInfo) : (raise s gid t).mem = s.mem := (raise_mayFreeze s gid t).mem

theorem State.stallGroup_mem (s : State) (gid : Nat) : (s.stallGroup gid).mem = s.mem := by
  unfold State.stallGroup
  dsimp only
  split
  · rfl
  · exact raise_mem s gid _

theorem State.stallGroups_mem (gs : List Nat) (s : State) : (gs.foldl State.stallGroup s).mem = s.mem :=
  List.foldlRecOn (motive := fun (t : State) => t.mem = s.mem) gs _ rfl fun t ht g _ => (t.stallGroup_mem g).trans ht

theorem State.stallGroup_other (s : State) {gid g : Nat} (h : g ≠ gid) : (s.stallGroup gid).grp g = s.grp g := by
  unfold State.stallGroup
  dsimp only
  split
  · exact State.grp_setGrp_ne _ _ h
  · exact (raise_mayFreeze s gid _).others g h

theorem raise_stalled {s : State} {gid : Nat} {t : TrapInfo} (code : t.code = 0x25) (h : (s.grp gid).trap.frozen = none ∨ (s.grp gid).stalled) :
    ((raise s gid t).grp gid).stalled := by
  rw [raise_eq]
  split
  · next frozen => exact h.resolve_left fun none => by simp [none] at frozen
  · rw [Group.stalled, withdraw_trap, State.grp_setGrp]
    exact .inr ⟨t, rfl, code⟩

theorem State.stallGroup_stalled (s : State) (gid : Nat) (h : (s.grp gid).trap.frozen = none ∨ (s.grp gid).stalled) :
    ((s.stallGroup gid).grp gid).stalled := by
  unfold State.stallGroup
  dsimp only
  split
  · rw [State.grp_setGrp]
    exact .inl rfl
  · exact raise_stalled rfl h

theorem State.stallGroups_stalled (gs : List Nat) (s : State) {g : Nat} (h : (s.grp g).trap.frozen = none ∨ (s.grp g).stalled) :
    let t := gs.foldl State.stallGroup s
    (g ∈ gs → (t.grp g).stalled) ∧ ((s.grp g).stalled → (t.grp g).stalled) := by
  induction gs generalizing s with
  | nil => exact ⟨fun m => absurd m List.not_mem_nil, id⟩
  | cons k gs ih =>
    by_cases e : g = k
    · subst e
      have now := s.stallGroup_stalled g h
      obtain ⟨-, stays⟩ := ih (s.stallGroup g) (.inr now)
      exact ⟨fun _ => stays now, fun _ => stays now⟩
    · have same := s.stallGroup_other e
      obtain ⟨stalls, stays⟩ := ih (s.stallGroup k) (by rw [same]; exact h)
      rw [same] at stays
      exact ⟨fun m => stalls ((List.mem_cons.mp m).resolve_left e), stays⟩

/-- The groups of the block that holds the ticket. -/
def State.holderGroups (s : State) (launch : Nat) (l : Launch) : List Nat :=
  (s.groups.filter fun e => e.2.bound && (s.team e.2.team).launch == launch && (s.team e.2.team).work == .block
    && (s.team e.2.team).block == l.holder).map (·.1)

/-- The state in which a watchdog has fired. -/
def State.watchdogFired (s : State) (launch : Nat) (l : Launch) : State :=
  { s with launches := Tab.set s.launches launch { l with wdog := some (2 ^ 64) } }

theorem execTicketWatchdogExpiry_due {launch due : Nat} {l : Launch} {s : State} (found : Tab.find s.launches launch = some l)
    (armed : l.wdog = some due) (late : due ≤ s.pkg.wtime) : exec (.ticketWatchdogExpiry launch) s = .next
      (if s.ticketWork launch then (s.holderGroups launch l).foldl State.stallGroup (s.watchdogFired launch l) else s.settleTicket launch) := by
  rw [exec_ticketWatchdogExpiry, execTicketWatchdogExpiry]
  simp only [found, armed, Nat.not_lt.mpr late, if_false]
  cases s.ticketWork launch <;> rfl

theorem State.settleTicket_find {s : State} {launch : Nat} {l : Launch} (found : Tab.find s.launches launch = some l) (idle : s.ticketWork launch = false) :
    s.settleTicket launch = { s with launches := Tab.set s.launches launch { l with wdog := none } } := by
  rw [State.settleTicket]
  simp only [found, idle, Bool.false_eq_true, if_false]

/-! ### Team and record after a group's end -/

theorem State.team_armTicket (s : State) (t k : Nat) : (s.armTicket t).team k = s.team k := by
  rw [s.armTicket_eq t]
  rfl

theorem State.mem_armTicket (s : State) (t : Nat) : (s.armTicket t).mem = s.mem := by rw [s.armTicket_eq t]

/-- The stores of a team that has nothing queued or handed over leave memory. -/
theorem State.finishWork_leftBy_mem {s : State} {gid : Nat} (handed : (s.team (s.grp gid).team).handed = [])
    (none' : ∀ c, c = (s.grp gid).team / 16 ∨ c = gid / 16 → ∀ e ∈ (s.core c).sq, (s.grp e.gid).team ≠ (s.grp gid).team) :
    ((s.leftBy gid).finishWork (s.grp gid).team).mem = s.mem := by
  obtain ⟨mem, teams, cores, -⟩ := State.leftBy_quiet (s := s) (gid := gid) fun e m same => none' _ (.inr rfl) e m (by rw [same])
  rw [State.finishWork_mem, mem]
  · rw [teams, handed]
  · intro e m
    rw [(s.leftBy_finishes gid).groups]
    exact none' _ (.inl rfl) e (by rwa [cores] at m)

end Sys2Proof.Machine

namespace Sys2Proof

open Sys2Proof.Machine

/-- Settles O40: GROUP_END by its cases, the ticket by what performing stores leaves, and the watchdog group by group. -/
theorem groupsEndAndTheTicketPasses : Obligations.GroupsEndAndTheTicketPasses := by
  unfold Obligations.GroupsEndAndTheTicketPasses
  refine ⟨?_, ?_, ?_⟩
  · intro gid s g x peers bound exited
    refine ⟨fun all staged => ⟨_, execGroupEnd_hands bound exited all staged, State.mem_armTicket _ _, ?_⟩, fun staged flags => ⟨fun others => ?_,
      fun alone running => ?_⟩⟩
    · have flushed : (s.flushStaged g.team).team g.team
          = { x with handed := x.handed ++ x.staged.map (fun e => { e with flush := s.seqno }), staged := [] } := State.team_setTeam _ _ _
      rw [State.team_armTicket, flushed]
      exact ⟨rfl, rfl⟩
    · have left := s.leftBy_finishes gid
      refine ⟨_, execGroupEnd_leaves bound exited staged flags others, by rw [State.grp_setGrp]; rfl, by rw [State.grp_setGrp]; rfl, ?_, fun none' => ?_⟩
      · rw [State.team_setGrp, State.team_setTeam, Team.freeLines, left.gone]
        rfl
      · obtain ⟨mem, teams, -, others', closes⟩ := State.leftBy_quiet none'
        refine ⟨mem, by rw [State.team_setGrp, State.team_setTeam, teams], closes, fun u ne => ?_, fun h ne => ?_⟩
        · rw [State.team_setGrp, State.team_setTeam_ne _ _ ne, teams]
        · rw [State.grp_setGrp_ne _ _ ne, State.grp_setTeam, others' h ne]
    · obtain ⟨busy, idle⟩ := execGroupEnd_last bound exited staged flags alone running
      have left := s.leftBy_finishes gid
      have ends := (s.leftBy gid).teamOver_ends g.team
      have work := (s.leftBy gid).finishWork_finishes g.team
      have recorded : ∀ t : State, t.binds = ((s.leftBy gid).teamOver g.team).binds → x.work = .block → (s.bind x.ridx).w.length = 8 →
          (t.bind x.ridx).st = 2 ∧ (t.bind x.ridx).cause = 0 := fun t binds block length => by
        have := ends.block (by rw [left.work]; exact block) (by rw [left.ridx, State.bind, left.binds]; exact length)
        rw [left.ridx] at this
        rwa [State.bind, binds]
      refine ⟨fun no lo hi => ?_, fun yes => ⟨_, busy yes, ?_, ?_, ?_, recorded _ rfl⟩⟩
      · have gone := ((s.leftBy gid).teamOver g.team).freeTeam_gone g.team
        have eq := (s.leftBy gid).endTeam_running g.team ((left.done g.team).trans running)
        refine ⟨_, idle no, ?_⟩
        rw [eq]
        refine ⟨gone.group gid ((ends.groups gid).trans (left.groups gid)) lo hi, gone.team, recorded _ gone.binds, fun handed none' => ?_⟩
        rw [gone.mem, ends.mem, State.finishWork_leftBy_mem handed none']
      · rw [ends.team, Team.ended_bound, work.bound, left.bound]
      · rw [ends.team, Team.ended_done]
      · rw [ends.team, Team.ended_place, work.place, left.place]
  · intro launch l s found det ended b
    have only := ticketPass_onlyRecords s launch l
    refine ⟨_, execTicketPass_passes found det ended, fun m hm => ?_, fun team x first => ?_⟩
    · have same := ticketPass_find hm
      have holder : m.holder = b := (congrArg Launch.holder same :)
      have ended' : m.ended = l.ended.filter (· != l.holder) := (congrArg Launch.ended same :)
      exact ⟨holder, by rw [ended']; simp⟩
    · have runs : s.ticketGiven launch l = _ := State.giveTicket_runs first
      rw [only.team, only.mem, runs]
      have stored : ∀ (u : State), Performs u (x.held.foldl (fun u h => u.writeStore (s.ctx l.ctx).key false h) u) :=
        .foldl (fun u h => u.writeStore_performs _ false h) x.held
      have given := (stored (State.setTeam { s with launches := Tab.set s.launches launch l.passed } team { x with held := [] })).trans
        (State.applyAll_performs (sortStaged (l.staged.filter (·.block == b))) _)
      refine ⟨(congrArg Team.held (given.teams team)).trans ?_, fun other => ?_⟩
      · rw [State.team_setTeam]
        rfl
      · have none' : l.staged.filter (·.block == b) = [] := List.filter_eq_nil_iff.mpr fun e m => by simp [other e m]
        rw [none', sortStaged, State.applyAll_nil]
        refine ⟨fun empty => by rw [empty]; rfl, fun h one kind space bytes wf own a => ?_⟩
        rw [one, List.foldl_cons, List.foldl_nil, State.writeStore_plain_mem _ _ _ kind space]
        exact State.readCell_writeAs_own _ _ _ _ bytes (by exact wf) (by exact own) a
  · intro launch due l s found armed late
    refine ⟨_, execTicketWatchdogExpiry_due found armed late, ?_, fun idle => ?_, fun held e he here bound run work block frozen => ?_⟩
    · split
      · exact State.stallGroups_mem _ _
      · exact (State.settleTicket_onlyRecords _ _).mem
    · rw [idle, if_neg Bool.false_ne_true, State.settleTicket_find found idle]
      exact ⟨rfl, Tab.find_set _ _ _⟩
    · rw [held, if_pos rfl]
      have mine : e.1 ∈ s.holderGroups launch l :=
        List.mem_map_of_mem (List.mem_filter.mpr ⟨he, by simp [bound, run, work, block]⟩)
      have free : ((s.watchdogFired launch l).grp e.1).trap.frozen = none := by
        rw [← here] at frozen
        exact frozen
      exact (State.stallGroups_stalled _ _ (.inl free)).1 mine

end Sys2Proof
end

section
/-!
PROOFS. Fetched blocks, walks and invalidations.
-/

namespace Sys2Proof.Machine

open Sys2Proof

/-! ### Cores rewritten one after another -/

/-- A core with its TLB rewritten. -/
def CoreSt.mapTlb (x : CoreSt) (f : List TlbE → List TlbE) : CoreSt := { x with tlb := f x.tlb }

/-- The TLBs of cores rewritten. -/
def State.mapTlbsOf (s : State) (cs : List Nat) (f : List TlbE → List TlbE) : State := cs.foldl (fun s c => s.setCore c ((s.core c).mapTlb f)) s

theorem State.mapTlbsOf_eq (s : State) (cs : List Nat) (f : List TlbE → List TlbE) : s.mapTlbsOf cs f = { s with cores := (s.mapTlbsOf cs f).cores } :=
  List.foldlRecOn (motive := fun (t : State) => t = { s with cores := t.cores }) cs _ rfl fun t ht c _ => by rw [ht]; rfl

/-- A rewriting that a second pass does not change may meet a core twice. -/
theorem State.core_mapTlbsOf (cs : List Nat) (f : List TlbE → List TlbE) (idem : ∀ es, f (f es) = f es) (s : State) (c : Nat) :
    (s.mapTlbsOf cs f).core c = if c ∈ cs then (s.core c).mapTlb f else s.core c := by
  induction cs generalizing s with
  | nil => rfl
  | cons k cs ih =>
    rw [State.mapTlbsOf, List.foldl_cons, ← State.mapTlbsOf, ih, State.core_setCore_ite]
    by_cases e : c = k
    · subst e
      have twice : ((s.core c).mapTlb f).mapTlb f = (s.core c).mapTlb f := by simp only [CoreSt.mapTlb, idem]
      simp [twice]
    · simp [e]

/-! ### Translations that enter the TLBs (R206) -/

theorem mem_tlbAdd (n : Nat) (e : TlbE) (es : List TlbE) : e ∈ tlbAdd n e es := by
  unfold tlbAdd
  split
  · next h => exact List.contains_iff_mem.mp h
  · exact List.mem_append_right _ (List.mem_singleton.mpr rfl)

theorem tlbAdd_tlbAdd (n m : Nat) (e : TlbE) (es : List TlbE) : tlbAdd m e (tlbAdd n e es) = tlbAdd n e es :=
  if_pos (List.contains_iff_mem.mpr (mem_tlbAdd n e es))

/-- A die with a translation in its shared TLB. -/
def Die.withTlb (x : Die) (e : TlbE) : Die := { x with stlb := tlbAdd 8192 e x.stlb }

theorem State.fillTlbs_eq (s : State) (die : Nat) (e : TlbE) (groups : List Nat) : s.fillTlbs die e groups
    = (s.setDie die ((s.die die).withTlb e)).mapTlbsOf (sortNums (groups.map coreOf)) (tlbAdd 128 e) := rfl

theorem State.fillTlbs_frame (s : State) (die : Nat) (e : TlbE) (groups : List Nat) :
    s.fillTlbs die e groups = { s with dies := setNth ((s.die die).withTlb e) s.dies die, cores := (s.fillTlbs die e groups).cores } := by
  rw [s.fillTlbs_eq]
  exact State.mapTlbsOf_eq _ _ _

theorem State.core_fillTlbs (s : State) (die : Nat) (e : TlbE) (groups : List Nat) (c : Nat) : (s.fillTlbs die e groups).core c
    = if c ∈ groups.map coreOf then (s.core c).mapTlb (tlbAdd 128 e) else s.core c := by
  rw [s.fillTlbs_eq, State.core_mapTlbsOf _ _ (fun es => tlbAdd_tlbAdd _ _ _ _)]
  simp only [mem_sortNums, State.core_setDie]

theorem State.mem_fillTlbs (s : State) (die : Nat) (e : TlbE) (groups : List Nat) : (s.fillTlbs die e groups).mem = s.mem := by
  rw [s.fillTlbs_frame]

theorem State.groups_fillTlbs (s : State) (die : Nat) (e : TlbE) (groups : List Nat) : (s.fillTlbs die e groups).groups = s.groups := by
  rw [s.fillTlbs_frame]

theorem State.die_fillTlbs (s : State) (die : Nat) (e : TlbE) (groups : List Nat) : (s.fillTlbs die e groups).die die
    = if die < s.dies.length then (s.die die).withTlb e else s.die die := by
  rw [s.fillTlbs_frame]
  simp only [State.die, nth_setNth, true_and]

/-- A walk of an access's own changes TLBs alone. -/
structure OnlyTlbs (s t : State) : Prop where
  eq : t = { s with dies := t.dies, cores := t.cores }
  cores : ∀ c, ∃ es, t.core c = { s.core c with tlb := es }

theorem OnlyTlbs.mem {s t : State} (h : OnlyTlbs s t) : t.mem = s.mem := by rw [h.eq]
theorem OnlyTlbs.grp {s t : State} (h : OnlyTlbs s t) (g : Nat) : t.grp g = s.grp g := by rw [h.eq]; rfl
theorem OnlyTlbs.ctx {s t : State} (h : OnlyTlbs s t) (c : Nat) : t.ctx c = s.ctx c := by rw [h.eq]; rfl

theorem OnlyTlbs.refl (s : State) : OnlyTlbs s s := ⟨rfl, fun _ => ⟨_, rfl⟩⟩

theorem State.noteWalk_onlyTlbs (s : State) (core ctx va : Nat) : OnlyTlbs s (s.noteWalk core ctx va) := by
  unfold State.noteWalk
  split
  · exact .refl s
  · split
    · split
      · exact .refl s
      · refine ⟨by rw [State.fillTlbs_frame], fun c => ?_⟩
        rw [State.core_fillTlbs]
        split
        · exact ⟨_, rfl⟩
        · exact ⟨_, rfl⟩
    · exact .refl s

/-! ### Faults of a walk (R206) -/

/-- A group with the fault of a page to take. -/
def Group.faulted (g : Group) (page code : Nat) : Group := { g with tfault := Tab.set g.tfault page code }

theorem Group.faulted_faulted (g : Group) (page code : Nat) : (g.faulted page code).faulted page code = g.faulted page code := by
  simp only [Group.faulted, Tab.set_set]

theorem Group.faulted_find (g : Group) (page code : Nat) : Tab.find (g.faulted page code).tfault page = some code := Tab.find_set _ _ _

theorem State.walkFault_eq (s : State) (page code : Nat) (gs : List Nat) :
    s.walkFault page code gs = { s with groups := (s.walkFault page code gs).groups } :=
  List.foldlRecOn (motive := fun (t : State) => t = { s with groups := t.groups }) gs _ rfl fun t ht g _ => by
    rw [ht]
    split <;> rfl

theorem State.walkFault_mem (s : State) (page code : Nat) (gs : List Nat) : (s.walkFault page code gs).mem = s.mem := by rw [s.walkFault_eq]
theorem State.walkFault_cores (s : State) (page code : Nat) (gs : List Nat) : (s.walkFault page code gs).cores = s.cores := by rw [s.walkFault_eq]
theorem State.walkFault_dies (s : State) (page code : Nat) (gs : List Nat) : (s.walkFault page code gs).dies = s.dies := by rw [s.walkFault_eq]

theorem State.walkFault_cons (s : State) (page code k : Nat) (gs : List Nat) : s.walkFault page code (k :: gs)
    = (if (s.grp k).bound then s.setGrp k ((s.grp k).faulted page code) else s).walkFault page code gs := rfl

theorem State.grp_walkFault (page code : Nat) (gs : List Nat) (s : State) (g : Nat) : (s.walkFault page code gs).grp g
    = if g ∈ gs ∧ (s.grp g).bound = true then (s.grp g).faulted page code else s.grp g := by
  induction gs generalizing s with
  | nil => simp [State.walkFault]
  | cons k gs ih =>
    rw [s.walkFault_cons, ih]
    by_cases bound : (s.grp k).bound = true
    · rw [if_pos bound]
      by_cases e : g = k
      · subst e
        have still : ((s.grp g).faulted page code).bound = true := bound
        simp [bound, still, Group.faulted_faulted]
      · simp [State.grp_setGrp_ne _ _ e, e]
    · rw [if_neg bound]
      by_cases e : g = k
      · subst e
        simp [bound]
      · simp [e]

/-- The fault of a translation that does not let an access through. -/
def TlbE.refuses (e : TlbE) (va : Nat) (k : Kind) : Option Nat :=
  match e.answer va k with | .fault c => some c | .tier _ => some fTier | _ => none

/-- The accesses that a translation does not let through take their faults. -/
def State.refuseAll (s : State) (page : Nat) (e : TlbE) (gs : List (Nat × Kind)) : State :=
  gs.foldl (fun s g => match e.refuses (65536 * page) g.2 with | some c => s.walkFault page c [g.1] | none => s) s

/-- The groups whose accesses a translation lets through. -/
def TlbE.passes (e : TlbE) (page : Nat) (gs : List (Nat × Kind)) : List Nat :=
  (gs.filter fun g => (e.refuses (65536 * page) g.2).isNone).map (·.1)

theorem State.walkResult_eq (s : State) (die : Nat) (w : Walk) (e : TlbE) : s.walkResult die w e
    = if (e.passes w.page w.groups).isEmpty then s.refuseAll w.page e w.groups
      else (s.refuseAll w.page e w.groups).fillTlbs die e (e.passes w.page w.groups) := rfl

theorem TlbE.refuses_of_refused {e : TlbE} {va : Nat} {k : Kind} {c : Nat} (h : e.answer va k = .fault c ∨ (c = 0x22 ∧ ∃ pa, e.answer va k = .tier pa)) :
    e.refuses va k = some c := by
  rw [TlbE.refuses]
  rcases h with h | ⟨rfl, pa, h⟩ <;> rw [h]
  rfl

/-- A translation refuses an access, or lets it through. -/
theorem TlbE.refuses_none {e : TlbE} {va : Nat} {k : Kind} : e.refuses va k = none ↔ ∃ pa, e.answer va k = .hit pa := by
  rw [TlbE.refuses]
  cases h : e.answer va k with
  | hit pa => simp
  | tier pa => simp
  | fault c => simp
  | miss =>
    rw [TlbE.answer] at h
    split at h
    · cases h
    · split at h <;> cases h

/-- What refusing leaves: groups alone change. -/
theorem State.refuseAll_eq (s : State) (page : Nat) (e : TlbE) (gs : List (Nat × Kind)) :
    s.refuseAll page e gs = { s with groups := (s.refuseAll page e gs).groups } :=
  List.foldlRecOn (motive := fun (t : State) => t = { s with groups := t.groups }) gs _ rfl fun t ht g _ => by
    split
    · rw [State.walkFault_eq, ht]
    · exact ht

theorem State.mem_refuseAll (s : State) (page : Nat) (e : TlbE) (gs : List (Nat × Kind)) : (s.refuseAll page e gs).mem = s.mem := by
  rw [s.refuseAll_eq]

theorem State.cores_refuseAll (s : State) (page : Nat) (e : TlbE) (gs : List (Nat × Kind)) : (s.refuseAll page e gs).cores = s.cores := by
  rw [s.refuseAll_eq]

theorem State.dies_refuseAll (s : State) (page : Nat) (e : TlbE) (gs : List (Nat × Kind)) : (s.refuseAll page e gs).dies = s.dies := by
  rw [s.refuseAll_eq]

theorem State.refuseAll_none {s : State} {page : Nat} {e : TlbE} {gs : List (Nat × Kind)} (h : ∀ g ∈ gs, e.refuses (65536 * page) g.2 = none) :
    s.refuseAll page e gs = s := by
  induction gs with
  | nil => rfl
  | cons g gs ih =>
    rw [State.refuseAll, List.foldl_cons, h g List.mem_cons_self]
    exact ih fun k m => h k (List.mem_cons_of_mem g m)

/-- A bound group whose accesses are all refused with one code has that fault to take. -/
theorem State.refuseAll_find {page g c : Nat} {e : TlbE} (gs : List (Nat × Kind)) (s : State) (bound : (s.grp g).bound = true)
    (one : ∀ h ∈ gs, h.1 = g → e.refuses (65536 * page) h.2 = some c)
    (has : (∃ h ∈ gs, h.1 = g) ∨ Tab.find (s.grp g).tfault page = some c) : Tab.find ((s.refuseAll page e gs).grp g).tfault page = some c := by
  induction gs generalizing s with
  | nil => exact has.resolve_left fun ⟨_, m, _⟩ => absurd m List.not_mem_nil
  | cons h gs ih =>
    have rest := fun k m => one k (List.mem_cons_of_mem h m)
    rw [State.refuseAll, List.foldl_cons, ← State.refuseAll]
    by_cases e' : h.1 = g
    · rw [one h List.mem_cons_self e']
      have now : (s.walkFault page c [h.1]).grp g = (s.grp g).faulted page c := by
        rw [State.grp_walkFault, if_pos ⟨by simp [e'], bound⟩]
      exact ih _ (by rw [now]; exact bound) rest (.inr (by rw [now]; exact Group.faulted_find _ _ _))
    · have same : ∀ d, (s.walkFault page d [h.1]).grp g = s.grp g := fun d => by
        rw [State.grp_walkFault, if_neg (by simp [Ne.symm e'])]
      have later : (∃ k ∈ gs, k.1 = g) ∨ Tab.find (s.grp g).tfault page = some c :=
        has.imp_left fun ⟨k, m, at'⟩ => ⟨k, (List.mem_cons.mp m).resolve_left fun eq => e' (eq ▸ at'), at'⟩
      split
      · exact ih _ (by rw [same]; exact bound) rest (by rw [same]; exact later)
      · exact ih s bound rest later

theorem TlbE.mem_passes {e : TlbE} {page : Nat} {gs : List (Nat × Kind)} {g : Nat × Kind} {pa : Nat} (m : g ∈ gs)
    (hit : e.answer (65536 * page) g.2 = .hit pa) : g.1 ∈ e.passes page gs :=
  List.mem_map_of_mem (List.mem_filter.mpr ⟨m, by rw [TlbE.refuses_none.mpr ⟨pa, hit⟩]; rfl⟩)

theorem TlbE.passes_nil {e : TlbE} {page : Nat} {gs : List (Nat × Kind)} (h : ∀ g ∈ gs, ∀ pa, e.answer (65536 * page) g.2 ≠ .hit pa) :
    e.passes page gs = [] := by
  rw [TlbE.passes, List.map_eq_nil_iff, List.filter_eq_nil_iff]
  intro g m none
  obtain ⟨pa, hit⟩ := TlbE.refuses_none.mp (Option.isNone_iff_eq_none.mp none)
  exact h g m pa hit

/-! ### Completed walks (R206) -/

/-- What the result of a walk leaves: the groups' faults, and the TLBs. -/
structure WalkGiven (s t : State) (die : Nat) (w : Walk) (e : TlbE) : Prop where
  mem : t.mem = s.mem
  groups : t.groups = (s.refuseAll w.page e w.groups).groups
  walks : (t.die die).walks = (s.die die).walks
  filled : ∀ g ∈ e.passes w.page w.groups, die < s.dies.length → e ∈ (t.die die).stlb ∧ e ∈ (t.core (coreOf g)).tlb
  unfilled : e.passes w.page w.groups = [] → t.cores = s.cores ∧ (t.die die).stlb = (s.die die).stlb

theorem State.walkResult_given (s : State) (die : Nat) (w : Walk) (e : TlbE) : WalkGiven s (s.walkResult die w e) die w e := by
  have die' : (s.refuseAll w.page e w.groups).die die = s.die die := by rw [State.die, State.dies_refuseAll, ← State.die]
  rw [s.walkResult_eq]
  cases none : (e.passes w.page w.groups).isEmpty with
  | true =>
    rw [List.isEmpty_iff] at none
    rw [if_pos rfl]
    exact ⟨s.mem_refuseAll _ _ _, rfl, congrArg Die.walks die', fun g m => by simp [none] at m,
      fun _ => ⟨s.cores_refuseAll _ _ _, congrArg Die.stlb die'⟩⟩
  | false =>
    rw [if_neg Bool.false_ne_true]
    refine ⟨(State.mem_fillTlbs _ _ _ _).trans (s.mem_refuseAll _ _ _), State.groups_fillTlbs _ _ _ _, ?_, fun g m inside => ⟨?_, ?_⟩,
      fun empty => by simp [empty] at none⟩
    · rw [State.die_fillTlbs, die']
      split <;> rfl
    · rw [State.die_fillTlbs, State.dies_refuseAll, if_pos inside]
      exact mem_tlbAdd _ _ _
    · rw [State.core_fillTlbs, if_pos (List.mem_map_of_mem m)]
      exact mem_tlbAdd _ _ _

/-- A die without walk `k`. -/
def Die.walked (x : Die) (k : Nat) : Die := { x with walks := dropNth x.walks k }

theorem execWalkCompletion_ok {die k : Nat} {w : Walk} {e : TlbE} {s : State} (found : (s.die die).walks[k]? = some w) (lt : k < 64)
    (walk : s.walk w.ctx (65536 * w.page) = .ok e) :
    exec (.walkCompletion die k) s = .next ((s.setDie die ((s.die die).walked k)).walkResult die w e) := by
  rw [exec_walkCompletion, execWalkCompletion]
  simp only [found, walk, Nat.not_le.mpr lt, if_false]
  rfl

theorem execWalkCompletion_error {die k c : Nat} {w : Walk} {s : State} (found : (s.die die).walks[k]? = some w) (lt : k < 64)
    (walk : s.walk w.ctx (65536 * w.page) = .error c) :
    exec (.walkCompletion die k) s = .next ((s.setDie die ((s.die die).walked k)).walkFault w.page c (w.groups.map (·.1))) := by
  rw [exec_walkCompletion, execWalkCompletion]
  simp only [found, walk, Nat.not_le.mpr lt, if_false]
  rfl

/-! ### Invalidations (R207) -/

/-- A die with its shared TLB rewritten. -/
def Die.mapTlb (x : Die) (f : List TlbE → List TlbE) : Die := { x with stlb := f x.stlb }

theorem State.mapTlbs_frame (s : State) (die : Nat) (f : Nat → List TlbE → List TlbE) :
    s.mapTlbs die f = { s.setDie die ((s.die die).mapTlb (f s.fresh)) with cores := (s.mapTlbs die f).cores } :=
  List.foldlRecOn (motive := fun (t : State) => t = { s.setDie die ((s.die die).mapTlb (f s.fresh)) with cores := t.cores })
    (State.coresOf _ die) _ rfl fun t ht c _ => by rw [ht]; rfl

section
variable (s : State) {die : Nat} (f : Nat → List TlbE → List TlbE)

theorem State.mem_mapTlbs : (s.mapTlbs die f).mem = s.mem := by
  rw [s.mapTlbs_frame]
  rfl

theorem State.groups_mapTlbs : (s.mapTlbs die f).groups = s.groups := by
  rw [s.mapTlbs_frame]
  rfl

/-- A die with its invalidations rewritten. -/
def Die.mapInvs (x : Die) (f : List Inval → List Inval) : Die := { x with invs := f x.invs }

theorem State.die_mapTlbs_mapInvs (h : List Inval → List Inval) (inside : die < s.dies.length) :
    ((s.mapTlbs die f).setDie die (((s.mapTlbs die f).die die).mapInvs h)).die die = ((s.die die).mapTlb (f s.fresh)).mapInvs h := by
  have length : (s.mapTlbs die f).dies.length = s.dies.length := by
    rw [s.mapTlbs_frame]
    exact setNth_length _ _ _
  have die' : (s.mapTlbs die f).die die = (s.die die).mapTlb (f s.fresh) := by
    rw [s.mapTlbs_frame]
    exact s.die_setDie die _ inside
  rw [State.die_setDie _ _ _ (by rw [length]; exact inside), die']

end

theorem mem_dropSome {n ctx lo hi : Nat} {es : List TlbE} {e : TlbE} :
    (e ∈ dropSome n ctx lo hi es → e ∈ es) ∧ (e ∈ es → e.inRange ctx lo hi = false → e ∈ dropSome n ctx lo hi es) := by
  unfold dropSome
  simp only [List.mem_filterMap]
  refine ⟨?_, fun m out => ?_⟩
  · rintro ⟨⟨x, i⟩, m, eq⟩
    split at eq
    · cases eq
    · cases eq
      exact List.fst_mem_of_mem_zipIdx m
  · obtain ⟨i, at'⟩ := List.mem_iff_getElem?.mp m
    exact ⟨(e, n + i), List.mk_add_mem_zipIdx_iff_getElem?.mpr at', by simp [out]⟩

theorem execTranslationInvalidate_eq (die ctx lo hi : Nat) (s : State) : exec (.translationInvalidate die ctx lo hi) s =
    .next (let t := s.mapTlbs die fun n => dropSome n ctx lo hi
      { t.setDie die ((t.die die).mapInvs (· ++ [⟨ctx, lo, hi, s.seqno⟩])) with seqno := s.seqno + 1, fresh := s.fresh + 2 ^ 20 }) := by
  rw [exec_translationInvalidate, execTranslationInvalidate]
  rfl

/-- The entries that an invalidation leaves once it is complete. -/
def Inval.rest (i : Inval) (es : List TlbE) : List TlbE := es.filter fun e => !e.inRange i.ctx i.lo i.hi

theorem Inval.mem_rest {i : Inval} {es : List TlbE} {e : TlbE} : e ∈ i.rest es ↔ e ∈ es ∧ e.inRange i.ctx i.lo i.hi = false := by
  simp [Inval.rest]

/-- The TLBs of a die without the entries of a range. -/
def State.rangeDropped (s : State) (die : Nat) (i : Inval) : State := s.mapTlbs die fun _ => i.rest

theorem State.core_rangeDropped (s : State) (die : Nat) (i : Inval) (c : Nat) :
    (s.rangeDropped die i).core c = if c ∈ s.coresOf die then (s.core c).mapTlb i.rest else s.core c :=
  State.core_mapTlbsOf (s.coresOf die) i.rest (fun es => by simp [Inval.rest, List.filter_filter]) _ c

theorem execInvalidateCompletion_quiet {die k : Nat} {i : Inval} {s : State} (found : (s.die die).invs[k]? = some i) (h : s.rangeQuiet die i = true) :
    exec (.invalidateCompletion die k) s = .next (let t := s.rangeDropped die i
      t.setDie die ((t.die die).mapInvs (dropNth · k))) := by
  rw [exec_invalidateCompletion, execInvalidateCompletion]
  simp only [found, h, Bool.not_true, Bool.false_eq_true, if_false]
  rfl

/-- A core that a table does not hold has no translation. -/
theorem State.mem_tlb_coresOf {s : State} {die c : Nat} {e : TlbE} (on : dieOf c = die) (m : e ∈ (s.core c).tlb) : c ∈ s.coresOf die := by
  rw [State.coresOf, List.mem_filter]
  refine ⟨?_, by simp [on]⟩
  rcases Tab.get_mem {} s.cores c with none | mem
  · rw [State.core, none] at m
    exact absurd m List.not_mem_nil
  · exact List.mem_map.mpr ⟨_, mem, rfl⟩

/-! ### Blocks that arrive (R40) -/

/-- A group whose fetches of a block go on. -/
def Group.unmissed (g : Group) (block : Nat) : Group :=
  (g.mapLanes fun _ n => if n.miss == some block then { n with miss := none } else n).clearMarks

theorem Group.unmissed_lanes (g : Group) (block : Nat) : { g.unmissed block with lanes := [] } = { g with lanes := [] } := by
  rw [Group.unmissed, Group.clearMarks_lanes]
  rfl

theorem Group.unmissed_lane (g : Group) (block : Nat) {l : Nat} (h : l < 32) : ((g.unmissed block).lane l).unmarked
    = Lane.unmarked (if (g.lane l).miss = some block then { g.lane l with miss := none } else g.lane l) := by
  rw [Group.unmissed, Group.clearMarks_unmarked _ h, lane_mapLanes _ _ h]
  simp only [beq_iff_eq]

theorem Group.unmissed_miss (g : Group) (block : Nat) {l : Nat} (h : l < 32) : ((g.unmissed block).lane l).miss ≠ some block := by
  have same : ((g.unmissed block).lane l).miss = _ := (congrArg Lane.miss (g.unmissed_lane block h) :)
  rw [same]
  show (if _ then _ else _ : Lane).miss ≠ _
  split
  · exact nofun
  · assumption

/-- A group of a context goes on with its fetches of a block. -/
def State.fetchOn (ctx block : Nat) (s : State) (g : Nat) : State :=
  if (s.team (s.grp g).team).ctx == ctx then s.setGrp g ((s.grp g).unmissed block) else s

theorem State.fetchAgain_eq (s : State) (core ctx block : Nat) : s.fetchAgain core ctx block = (s.groupsOn core).foldl (State.fetchOn ctx block) s := rfl

theorem State.fetchOn_eq (ctx block : Nat) (s : State) (g : Nat) : State.fetchOn ctx block s g = { s with groups := (State.fetchOn ctx block s g).groups } := by
  unfold State.fetchOn
  split <;> rfl

theorem State.grp_fetchOn (ctx block : Nat) (s : State) (g k : Nat) : (State.fetchOn ctx block s g).grp k
    = if k = g ∧ (s.team (s.grp k).team).ctx = ctx then (s.grp k).unmissed block else s.grp k := by
  unfold State.fetchOn
  by_cases e : k = g
  · subst e
    by_cases mine : (s.team (s.grp k).team).ctx = ctx <;> simp [mine]
  · split
    · rw [State.grp_setGrp_ne _ _ e, if_neg (by simp [e])]
    · rw [if_neg (by simp [e])]

theorem State.fetchOns_spec (ctx block : Nat) (gs : List Nat) (distinct : gs.Nodup) (s : State) : let t := gs.foldl (State.fetchOn ctx block) s
    t = { s with groups := t.groups }
      ∧ ∀ k, t.grp k = if k ∈ gs ∧ (s.team (s.grp k).team).ctx = ctx then (s.grp k).unmissed block else s.grp k := by
  induction gs generalizing s with
  | nil => exact ⟨rfl, fun k => by simp⟩
  | cons g gs ih =>
    obtain ⟨new, distinct⟩ := List.nodup_cons.mp distinct
    obtain ⟨eq, grp⟩ := ih distinct (State.fetchOn ctx block s g)
    have team : ∀ u, (State.fetchOn ctx block s g).team u = s.team u := fun u => by rw [State.fetchOn_eq]; rfl
    rw [List.foldl_cons]
    refine ⟨eq.trans (by rw [State.fetchOn_eq]), fun k => ?_⟩
    rw [grp, State.grp_fetchOn, team]
    by_cases e : k = g
    · subst e
      simp [new]
    · simp [e]

theorem rangeFrom_nodup (a n : Nat) : (rangeFrom a n).Nodup := by
  induction n generalizing a with
  | zero => exact List.nodup_nil
  | succ n ih => exact List.nodup_cons.mpr ⟨fun m => by rw [mem_rangeFrom] at m; omega, ih (a + 1)⟩

theorem State.fetchAgain_spec (s : State) (core ctx block : Nat) : let t := s.fetchAgain core ctx block
    t = { s with groups := t.groups }
      ∧ ∀ k, t.grp k = if k ∈ s.groupsOn core ∧ (s.team (s.grp k).team).ctx = ctx then (s.grp k).unmissed block else s.grp k := by
  rw [s.fetchAgain_eq]
  exact State.fetchOns_spec ctx block _ ((rangeFrom_nodup _ _).filter _) s

/-- A core without a miss in flight. -/
def CoreSt.arrived (x : CoreSt) (ctx block : Nat) : CoreSt := { x with icMiss := x.icMiss.filter (· != (ctx, block)) }

/-- The state in which a block's fetches go on. -/
def State.arrived (s : State) (core ctx block : Nat) : State :=
  { (s.setCore core ((s.core core).arrived ctx block)).fetchAgain core ctx block with fresh := s.fresh + 16 }

theorem State.arrived_frame (s : State) (core ctx block : Nat) : s.arrived core ctx block
    = { s with groups := (s.arrived core ctx block).groups, cores := Tab.set s.cores core ((s.core core).arrived ctx block), fresh := s.fresh + 16 } := by
  have eq := (State.fetchAgain_spec (s.setCore core ((s.core core).arrived ctx block)) core ctx block).1
  rw [State.arrived, eq]
  rfl

theorem State.grp_arrived (s : State) (core ctx block k : Nat) : (s.arrived core ctx block).grp k
    = if k ∈ s.groupsOn core ∧ (s.team (s.grp k).team).ctx = ctx then (s.grp k).unmissed block else s.grp k :=
  (State.fetchAgain_spec (s.setCore core ((s.core core).arrived ctx block)) core ctx block).2 k

theorem State.core_arrived (s : State) (core ctx block : Nat) : (s.arrived core ctx block).core core = (s.core core).arrived ctx block := by
  rw [s.arrived_frame]
  exact Tab.get_set _ _ _ _

theorem State.mem_arrived (s : State) (core ctx block : Nat) : (s.arrived core ctx block).mem = s.mem := by rw [s.arrived_frame]

theorem State.ctx_arrived (s : State) (core ctx block c : Nat) : (s.arrived core ctx block).ctx c = s.ctx c := by
  rw [s.arrived_frame]
  rfl

/-- The state in which a block from a physical address is in a core's cache. -/
def State.withBlock (s : State) (core ctx block pa : Nat) : State :=
  (s.arrived core ctx block).setCore core
    (((s.core core).arrived ctx block).icPut ⟨ctx, (s.ctx ctx).key, block, s.bytesAs (s.ctx ctx).key pa 32⟩)

section
variable {core ctx block : Nat} {s : State} (missed : (ctx, block) ∈ (s.core core).icMiss)
  (idle : s.walking core ctx (32 * block % 2 ^ 48) = false)
  (new : ∀ y ∈ (s.core core).ic, y.ctx = ctx → y.block = block → y.key ≠ (s.ctx ctx).key)
include missed idle new

theorem execIcacheLineArrival_hit {pa : Nat} (hit : s.xlateNow core ctx (32 * block % 2 ^ 48) .fetch = .hit pa)
    (clean : (s.sideOf (pa / 64)).ue = false) : exec (.icacheLineArrival core ctx block) s
    = .next ((s.withBlock core ctx block pa).noteWalk core ctx (32 * block % 2 ^ 48)) := by
  have none' : ((s.core core).ic.find? fun y => y.ctx == ctx && y.block == block && y.key == (s.ctx ctx).key) = none :=
    List.find?_eq_none.mpr fun y m => by simpa using new y m
  have kept : s.fetchLost core ctx block = false := by rw [State.fetchLost, State.fetchPa, hit, XRes.pa, clean, Bool.false_and]
  have bytes : s.fetchBlock core ctx block = .ok (s.bytesAs (s.ctx ctx).key pa 32) := by
    rw [State.fetchBlock]
    simp only [hit]
  rw [exec_icacheLineArrival, execIcacheLineArrival]
  simp only [none', List.contains_iff_mem.mpr missed, idle, bytes, kept, Bool.not_true, Bool.false_and, Bool.or_self, Bool.false_eq_true, if_false]
  rw [State.withBlock, ← s.core_arrived]
  rfl

omit new in
theorem execIcacheLineArrival_fault {c : Nat} (fault : s.xlateNow core ctx (32 * block % 2 ^ 48) .fetch = .fault c
      ∨ (c = 0x22 ∧ ∃ pa, s.xlateNow core ctx (32 * block % 2 ^ 48) .fetch = .tier pa)) : exec (.icacheLineArrival core ctx block) s
    = .next ((s.arrived core ctx block).walkFault (fetchPage (block / 2048)) c (s.fetchers core ctx block)) := by
  have bytes : s.fetchBlock core ctx block = .error c := by
    rw [State.fetchBlock]
    rcases fault with fault | ⟨rfl, pa, fault⟩ <;> simp only [fault] <;> rfl
  rw [exec_icacheLineArrival, execIcacheLineArrival]
  simp only [List.contains_iff_mem.mpr missed, idle, bytes, Bool.not_true, Bool.false_and, Bool.or_self, Bool.false_eq_true, if_false]
  rfl

end

/-- The block that a core's cache holds after it has been put there. -/
theorem CoreSt.icPut_find (x : CoreSt) (y : IcLine) :
    ((x.icPut y).ic.find? fun z => z.ctx == y.ctx && z.block == y.block && z.key == y.key) = some y := by
  have others : ∀ z ∈ x.ic.filter (fun z => !(z.ctx == y.ctx && z.block == y.block)), ¬(z.ctx == y.ctx && z.block == y.block && z.key == y.key) = true := by
    intro z m
    have other := (List.mem_filter.mp m).2
    simp only [Bool.not_eq_true', Bool.and_eq_false_iff] at other
    simp only [Bool.and_eq_true, not_and]
    exact fun both => absurd both (by rcases other with h | h <;> simp [h])
  unfold CoreSt.icPut
  dsimp only
  rw [List.find?_append, List.find?_eq_none.mpr]
  · simp
  · split
    · exact others
    · exact fun z m => others z (List.mem_of_mem_drop m)

theorem CoreSt.mem_arrived (x : CoreSt) (ctx block : Nat) (m : Nat × Nat) : m ∈ (x.arrived ctx block).icMiss ↔ m ∈ x.icMiss ∧ m ≠ (ctx, block) := by
  simp [CoreSt.arrived]

/-- A lane of a group after a block has arrived. -/
theorem State.lane_arrived (s : State) (core ctx block g : Nat) {l : Nat} (h : l < 32) :
    (((s.arrived core ctx block).grp g).lane l).unmarked = ((s.grp g).lane l).unmarked
      ∨ ((s.grp g).lane l).miss = some block
        ∧ (((s.arrived core ctx block).grp g).lane l).unmarked = Lane.unmarked { (s.grp g).lane l with miss := none } := by
  rw [s.grp_arrived]
  split
  · rw [Group.unmissed_lane _ _ h]
    split
    · exact .inr ⟨‹_›, rfl⟩
    · exact .inl rfl
  · exact .inl rfl

theorem State.lanes_arrived (s : State) (core ctx block g : Nat) : { (s.arrived core ctx block).grp g with lanes := [] } = { s.grp g with lanes := [] } := by
  rw [s.grp_arrived]
  split
  · exact Group.unmissed_lanes _ _
  · rfl

theorem State.mem_fetchers {s : State} {core ctx block g : Nat} (h : g ∈ s.fetchers core ctx block) : (s.grp g).bound = true :=
  (List.mem_filter.mp (List.mem_filter.mp h).1).2

theorem State.bound_arrived (s : State) (core ctx block g : Nat) : ((s.arrived core ctx block).grp g).bound = (s.grp g).bound :=
  (congrArg Group.bound (s.lanes_arrived core ctx block g) :)

end Sys2Proof.Machine

namespace Sys2Proof

open Sys2Proof.Machine

/-- Settles O46: what a block, a walk and an invalidation leave, of groups, cores and dies each by its own lemma. -/
theorem translationsWalksAndFetches : Obligations.TranslationsWalksAndFetches := by
  unfold Obligations.TranslationsWalksAndFetches
  refine ⟨?_, ?_, ?_, ?_⟩
  · intro core ctx block s x unmarked missed idle new
    refine ⟨fun pa hit clean => ⟨_, execIcacheLineArrival_hit missed idle new hit clean, ?_⟩,
      fun c fault => ⟨_, execIcacheLineArrival_fault missed idle fault, ?_⟩⟩
    · have only := State.noteWalk_onlyTlbs (s.withBlock core ctx block pa) core ctx (32 * block % 2 ^ 48)
      obtain ⟨tlb, same⟩ := only.cores core
      rw [State.withBlock, State.core_setCore] at same
      refine ⟨only.mem.trans (s.mem_arrived core ctx block), fun g => ?_, fun g l lt => ?_, fun g here mine l lt => ?_, ?_, fun m => ?_⟩
      · rw [only.grp]
        exact s.lanes_arrived core ctx block g
      · rw [only.grp]
        exact s.lane_arrived core ctx block g lt
      · rw [only.grp, State.withBlock, State.grp_setCore, s.grp_arrived, if_pos ⟨here, mine⟩]
        exact Group.unmissed_miss _ _ lt
      · rw [State.icBlock, only.ctx, State.withBlock, same, State.ctx_setCore, s.ctx_arrived]
        exact congrArg (Option.map _) (CoreSt.icPut_find _ ⟨ctx, (s.ctx ctx).key, block, _⟩)
      · rw [State.withBlock, same]
        exact CoreSt.mem_arrived _ ctx block m
    · refine ⟨(State.walkFault_mem _ _ _ _).trans (s.mem_arrived core ctx block), ?_, fun g m => ?_⟩
      · rw [State.core, State.walkFault_cores, ← State.core, s.core_arrived]
        rfl
      · rw [State.grp_walkFault, if_pos ⟨m, (s.bound_arrived core ctx block g).trans (State.mem_fetchers m)⟩]
        exact Group.faulted_find _ _ _
  · intro die k w s found lt inside va
    have die' : (s.setDie die ((s.die die).walked k)).die die = (s.die die).walked k := State.die_setDie _ _ _ inside
    refine ⟨fun e walk => ⟨_, execWalkCompletion_ok found lt walk, ?_⟩, fun c walk => ⟨_, execWalkCompletion_error found lt walk,
      State.walkFault_mem _ _ _ _, State.walkFault_cores _ _ _ _, ?_, fun g m bound => ?_⟩⟩
    · obtain ⟨mem, groups, walks, filled, unfilled⟩ := (s.setDie die ((s.die die).walked k)).walkResult_given die w e
      rw [die'] at walks unfilled
      refine ⟨mem, walks, fun g m pa hit => filled g.1 (TlbE.mem_passes m hit) (by simpa using inside), fun g m c refused bound one => ?_,
        fun none => unfilled (TlbE.passes_nil none), fun all => ?_⟩
      · rw [State.grp, groups, ← State.grp]
        exact State.refuseAll_find w.groups _ bound (fun h m' at' => by rw [one h m' at']; exact TlbE.refuses_of_refused refused) (.inl ⟨g, m, rfl⟩)
      · rw [groups, State.refuseAll_none fun g m => TlbE.refuses_none.mpr (all g m)]
        rfl
    · rw [State.die, State.walkFault_dies, ← State.die, die']
      rfl
    · rw [State.grp_walkFault, if_pos ⟨List.mem_map_of_mem m, bound⟩]
      exact Group.faulted_find _ _ _
  · intro die ctx lo hi s inside
    have die' := s.die_mapTlbs_mapInvs (fun n => dropSome n ctx lo hi) (· ++ [⟨ctx, lo, hi, s.seqno⟩]) inside
    have left := fun e : TlbE => Iff.of_eq (congrArg (fun x : Die => e ∈ x.stlb) die')
    exact ⟨_, execTranslationInvalidate_eq die ctx lo hi s, s.mem_mapTlbs _, s.groups_mapTlbs _, congrArg Die.invs die',
      fun e m => mem_dropSome.1 ((left e).mp m), fun e m out => (left e).mpr (mem_dropSome.2 m out)⟩
  · intro die k i s found rest inside
    have die' := s.die_mapTlbs_mapInvs (fun _ => i.rest) (dropNth · k) inside
    have left := fun e : TlbE => Iff.of_eq (congrArg (fun x : Die => e ∈ x.stlb) die')
    refine ⟨_, execInvalidateCompletion_quiet found rest, s.mem_mapTlbs _, s.groups_mapTlbs _, congrArg Die.invs die', fun e => ?_, fun c e on => ?_⟩
    · exact (left e).trans Inval.mem_rest
    · rw [State.core_setDie, State.core_rangeDropped]
      split
      · exact Inval.mem_rest
      · next out => exact ⟨fun m => absurd (State.mem_tlb_coresOf on m) out, fun m => m.1⟩

end Sys2Proof
end

section
/-!
PROOFS. Integer division (R81).
-/

namespace Sys2Proof.Machine

open Sys2Proof

/-- Without `.sat` an integer result wraps (R80). -/
theorem intResult_unsaturated (ty : Nat) (r : Int) : intResult ty false r = intExt ty (wrap r (intWidth ty)) := rfl

theorem divResult_eq (ty : Nat) (a b : Int) :
    divResult ty a b = if b = 0 then intExt ty (2 ^ intWidth ty - 1) else intExt ty (wrap (Int.tdiv a b) (intWidth ty)) := by
  rw [divResult, intResult_unsaturated]

/-- The remainder by dividend = quotient × divisor + remainder: it takes the dividend's sign because the quotient truncates. -/
theorem remResult_eq (ty : Nat) (a b : Int) :
    remResult ty a b = intExt ty (wrap (if b = 0 then a else a - b * Int.tdiv a b) (intWidth ty)) := by
  rw [remResult, intResult_unsaturated, intResult_unsaturated, Int.tmod_def]
  split <;> rfl

/-- `idiv` leaves its quotients and DZ in the lanes with a zero divisor. -/
theorem execIdiv_computed {f : Fields} {s : State} (h : free (.idiv f) f s = true) :
    ∃ t, execIdiv f s = .next t ∧ computed (.idiv f) f s t
      (fun l => divResult f.tyN (intVal f.tyN ((s.view f).a f l)) (intVal f.tyN ((s.view f).b f l))) (divFlags f (s.view f)) :=
  compute_computed _ _ h

/-- `irem` leaves its remainders and DZ in the lanes with a zero divisor. -/
theorem execIrem_computed {f : Fields} {s : State} (h : free (.irem f) f s = true) :
    ∃ t, execIrem f s = .next t ∧ computed (.irem f) f s t
      (fun l => remResult f.tyN (intVal f.tyN ((s.view f).a f l)) (intVal f.tyN ((s.view f).b f l))) (divFlags f (s.view f)) :=
  compute_computed _ _ h

end Sys2Proof.Machine

namespace Sys2Proof

open Sys2Proof.Machine

/-- Settles O2: what `idiv` and `irem` leave, with their quotient and remainder as R81 gives them. -/
theorem integerDivisionTruncatesAndFlagsZero : Obligations.IntegerDivisionTruncatesAndFlagsZero := by
  unfold Obligations.IntegerDivisionTruncatesAndFlagsZero
  intro f s v a b dz
  refine ⟨fun may => ?_, fun may => ?_⟩
  · obtain ⟨t, runs, leaves⟩ := execIdiv_computed may
    simp only [divResult_eq] at leaves
    exact ⟨t, (exec_idiv f s).trans runs, leaves⟩
  · obtain ⟨t, runs, leaves⟩ := execIrem_computed may
    simp only [remResult_eq] at leaves
    exact ⟨t, (exec_irem f s).trans runs, leaves⟩

end Sys2Proof
end

section
/-!
PROOFS. The fast buffer and its lines (R122, R123), computed register indices (R121), and the register pool (R128).
-/

namespace Sys2Proof.Machine

open Sys2Proof

/-! ### The step after an effect -/

/-- What the step of the issuing lanes leaves as it finds it: everything but the group's lanes and what an issue of them uses up. -/
structure SteppedFrom (u t : State) : Prop where
  only : onlyGroup u t
  mem : t.mem = u.mem
  rest : t.me.rest = u.me.rest
  regs : t.me.regs = u.me.regs

theorem retire_steppedFrom (u : State) : SteppedFrom u u.retire := by
  obtain ⟨h, eq, rest, v, r, p, csr, -⟩ := retireTo_eq u fun _ => none
  rw [State.retire, eq]
  refine ⟨onlyGroup_setGrp u h, rfl, ?_, ?_⟩
  · rw [me_setGrp, rest]
  · rw [me_setGrp, Group.regs, v, r, p, csr, Group.regs]

/-- The issuing lanes step after an effect that left them where they were. -/
theorem retire_steps {s u : State} (cur : u.cur = s.cur) (lanes : u.me.lanes = s.me.lanes) : steps s u.retire := by
  obtain ⟨-, pcs, -⟩ := retire_onlySteps u
  intro l lt
  rw [pcs l lt, cur, Group.lane, Group.lane, lanes]

theorem SteppedFrom.team {u t : State} (h : SteppedFrom u t) (k : Nat) : t.team k = u.team k := by rw [h.only.1]; rfl

theorem onlyGroup_trans {s u t : State} (a : onlyGroup s u) (b : onlyGroup u t) : onlyGroup s t := by
  have cur := cur_of_onlyGroup a
  exact ⟨by rw [b.1, a.1], fun g n => (b.2 g (by rwa [cur])).trans (a.2 g n)⟩

/-- An effect that replaced the issuing group alone by one with the same lanes, and then the step. -/
theorem retire_setGrp {s : State} {h : Group} (lanes : h.lanes = s.me.lanes) :
    let t := (s.setGrp s.cur.gid h).retire
    onlyGroup s t ∧ steps s t ∧ t.mem = s.mem ∧ t.me.rest = h.rest ∧ t.me.regs = h.regs := by
  obtain ⟨only, mem, rest, regs⟩ := retire_steppedFrom (s.setGrp s.cur.gid h)
  rw [me_setGrp] at rest regs
  exact ⟨onlyGroup_trans (onlyGroup_setGrp s h) only, retire_steps rfl (by rw [me_setGrp, lanes]), mem, rest, regs⟩

/-! ### Lines of the fast buffer (R122, R123) -/

/-- The buffered lines that are not among `regs` become the first to be replaced. -/
def Group.evictFirst (g : Group) (regs : List Nat) : Group := { g with fb := g.fb.filter (!regs.contains ·) ++ g.fb.filter regs.contains }

theorem Group.mem_evictFirst_fb {g : Group} {regs : List Nat} {r : Nat} : r ∈ (g.evictFirst regs).fb ↔ r ∈ g.fb := by
  by_cases h : r ∈ regs <;> simp [Group.evictFirst, h]

/-- A line is on its way after a request if it was before, or is asked for and not buffered. -/
theorem Group.fetchLines_fetch {g : Group} {due r : Nat} {regs : List Nat} :
    (∃ d, (r, d) ∈ (g.fetchLines due regs).fetch) ↔ (∃ d, (r, d) ∈ g.fetch) ∨ (r ∈ regs ∧ r ∉ g.fb) := by
  by_cases coming : ∃ d, (r, d) ∈ g.fetch
  · obtain ⟨d, hd⟩ := coming
    exact iff_of_true ⟨d, List.mem_append_left _ hd⟩ (.inl ⟨d, hd⟩)
  · have fresh : ∀ k d, (k, d) ∈ g.fetch → ¬k = r := fun k d m e => coming ⟨d, e ▸ m⟩
    simp only [Group.fetchLines, List.mem_append, exists_or, coming, false_or]
    simpa using fun _ _ => fresh

/-- The issuing group once `rgn` has named its set. -/
def State.regioned (s : State) (f : Fields) : Group :=
  (s.me.evictFirst (sortNums (rgnSet f))).fetchLines ((s.core (s.cur.gid / 16)).cycle + 12) (sortNums (rgnSet f))

theorem exec_rgn_runs {f : Fields} {s : State} (h : Sys2Proof.free (.rgn f) f s = true) :
    exec (.rgn f) s = .next (s.setGrp s.cur.gid (s.regioned f)).retire := by
  rw [exec_rgn, execRgn, issued_runs _ h]
  rfl

theorem mem_enterLine (fb : List Nat) (r : Nat) : r ∈ enterLine fb r := by
  unfold enterLine
  split
  next has => exact List.contains_iff_mem.mp has
  next => exact List.mem_append_right _ List.mem_cons_self

/-- A buffer of 32 lines never holds more (R122). -/
theorem enterLine_length {fb : List Nat} {r : Nat} (h : fb.length ≤ 32) : (enterLine fb r).length ≤ 32 := by
  unfold enterLine
  split
  · exact h
  · split <;> simp only [List.length_append, List.length_drop, List.length_singleton] <;> omega

/-- A group into whose fast buffer a line has come. -/
def Group.lineArrived (g : Group) (r : Nat) : Group :=
  { g with fetch := g.fetch.filter (·.1 != r), missed := g.missed.filter (· != r), fb := enterLine g.fb r
           csr := { g.csr with fbmiss := g.count 0x050 g.csr.fbmiss (wrapCount (g.csr.fbmiss + if g.missed.contains r then 1 else 0)) } }

/-- A line whose time has come arrives where a stalled instruction waits for it, or where it is the first of the prefetched ones. -/
theorem exec_fastBufferFill_arrives {gid r due : Nat} {s : State} (found : (s.grp gid).fetch.find? (·.1 == r) = some (r, due))
    (time : due ≤ (s.core (gid / 16)).cycle)
    (turn : r ∈ (s.grp gid).missed ∨ ∃ d, (s.grp gid).fetch.find? (fun e => !(s.grp gid).missed.contains e.1) = some (r, d)) :
    exec (.fastBufferFill gid r) s = .next (s.setGrp gid ((s.grp gid).lineArrived r)) := by
  have mine : (s.grp gid).prefetchTurn r = true := by
    rcases turn with waited | ⟨d, first⟩
    · simp [Group.prefetchTurn, waited]
    · simp only [Group.prefetchTurn, first, Option.all_some, beq_self_eq_true, Bool.or_true]
  rw [exec_fastBufferFill, execFastBufferFill]
  simp only [found, mine, coreOf, Nat.not_lt.mpr time, decide_false, Bool.not_true, Bool.or_false, Bool.false_eq_true, if_false]
  rfl

/-! ### Computed indices (R121) -/

/-- Two groups differ in their vector registers alone, with the marks of errors in these. -/
def VectorsOnly (g h : Group) : Prop := h = { g with v := h.v, bad := h.bad, weak := h.weak }

theorem VectorsOnly.trans {g h k : Group} (a : VectorsOnly g h) (b : VectorsOnly h k) : VectorsOnly g k := by
  unfold VectorsOnly at *
  rw [b, a]

theorem setV_vectorsOnly (g : Group) (n : Nat) (m : Word) (x : Nat → Word) : VectorsOnly g (g.setV n m x) := rfl

theorem writeIndexed_vectorsOnly (f : Fields) (v : View) (g : Group) (ls : List Nat) : VectorsOnly g (writeIndexed f v g ls) := by
  induction ls generalizing g with
  | nil => rfl
  | cons l ls ih => exact (setV_vectorsOnly _ _ _ _).trans (ih _)

/-- The mask of one lane. -/
theorem oneLane_bit {k l : Nat} (h : l < 32) : (BitVec.ofNat 32 (2 ^ k)).getLsbD l = decide (k = l) := by
  rw [BitVec.getLsbD_ofNat, Nat.testBit_two_pow, decide_eq_true h, Bool.true_and]

/-- Each of the lanes has its source in the register that its index names; no other word changes. -/
theorem vr_writeIndexed (f : Fields) (v : View) (g : Group) (ls : List Nat) (n : Nat) {l : Nat} (h : l < 32) :
    (writeIndexed f v g ls).vr n l = if l ∈ ls ∧ n = (v.a f l).toNat then v.breg f l else g.vr n l := by
  induction ls generalizing g with
  | nil => simp [writeIndexed]
  | cons k ls ih =>
    rw [writeIndexed, ih, vr_setV _ _ _ _ _ h, oneLane_bit h]
    by_cases same : k = l
    · subst same
      by_cases named : n = (v.a f k).toNat <;> simp [named]
    · simp [same, Ne.symm same]

/-- Lines touched change the fast buffer and its count alone. -/
theorem Group.indexLines_eq (g : Group) (rs : List Nat) : ∃ fb n, g.indexLines rs = { g with fb := fb, csr := { g.csr with fbmiss := n } } := by
  induction rs generalizing g with
  | nil => exact ⟨g.fb, g.csr.fbmiss, rfl⟩
  | cons r rs ih =>
    rw [Group.indexLines]
    split
    · exact ih _
    · exact ih _

/-- Vector registers written by computed indices, the lines that this touches, and the step. -/
theorem retire_indexed {s : State} {h : Group} (regs : VectorsOnly s.me h) (rs : List Nat) :
    let t := (s.setGrp s.cur.gid (h.indexLines rs)).retire
    onlyGroup s t ∧ steps s t ∧ sameU s t ∧ sameP s t ∧ sameFlags s t ∧ sameMem s t ∧ ∀ n l, t.me.vr n l = h.vr n l := by
  obtain ⟨fb, miss, lines⟩ := h.indexLines_eq rs
  obtain ⟨only, go, mem, -, after⟩ := retire_setGrp (s := s) (h := h.indexLines rs) (by rw [lines, regs])
  simp only [Group.regs, Prod.mk.injEq] at after
  obtain ⟨v, u, p, csr⟩ := after
  refine ⟨only, go, sameU_of u (by rw [lines, regs]), sameP_of p (by rw [lines, regs]), ?_, fun a => by rw [mem], fun n l => ?_⟩
  · rw [sameFlags, csr, lines, regs]
    exact ⟨rfl, rfl⟩
  · exact vr_of (v.trans (by rw [lines])) n l

theorem exec_rdidx_runs {f : Fields} {s : State} (h : Sys2Proof.free (.rdidx f) f s = true)
    (inside : ∀ l, (s.view f).act.getLsbD l = true → ((s.view f).a f l).toNat < s.me.vcnt ∧ (((s.view f).a f l).toNat, l) ∉ s.me.bad) :
    exec (.rdidx f) s = .next (s.setGrp s.cur.gid ((s.me.setV f.d.toNat (s.view f).act fun l => s.me.vr ((s.view f).a f l).toNat l).indexLines
      (indexRegs f (s.view f)))).retire := by
  have pass : ∀ l, (s.view f).act.getLsbD l = true → indexTests f true s (s.view f) l = .ok := by
    intro l act
    obtain ⟨bound, good⟩ := inside l act
    have word : badWord s.me [((s.view f).a f l).toNat] l = false := by
      rw [badWord, List.any_eq_false]
      rintro ⟨n, k⟩ m e
      simp only [Bool.and_eq_true, beq_iff_eq, List.contains_iff_mem, List.mem_singleton] at e
      obtain ⟨rfl, rfl⟩ := e
      exact good m
    simp [indexTests, Nat.not_le.mpr bound, word]
  rw [exec_rdidx, execRdidx, issuedChk_runs _ (runs_of_free h pass)]
  rfl

theorem exec_wridx_runs {f : Fields} {s : State} (h : Sys2Proof.free (.wridx f) f s = true)
    (inside : ∀ l, (s.view f).act.getLsbD l = true → ((s.view f).a f l).toNat < s.me.vcnt) :
    exec (.wridx f) s = .next (s.setGrp s.cur.gid ((writeIndexed f (s.view f) s.me (lanesOf (s.view f).act)).indexLines
      (indexRegs f (s.view f)))).retire := by
  have pass : ∀ l, (s.view f).act.getLsbD l = true → indexTests f false s (s.view f) l = .ok :=
    fun l act => by simp [indexTests, Nat.not_le.mpr (inside l act)]
  rw [exec_wridx, execWridx, issuedChk_runs _ (runs_of_free h pass)]
  rfl

/-! ### The register pool (R128) -/

theorem Tab.find_filter_some {α : Type} (t : Tab α) (p : Nat → Bool) {n : Nat} (h : p n = true) :
    Tab.find (t.filter fun e => p e.1) n = Tab.find t n := by
  induction t with
  | nil => rfl
  | cons e t ih =>
    by_cases k : e.1 = n
    · rw [List.filter_cons_of_pos (by rw [k, h]), Tab.find, Tab.find, if_pos k, if_pos k]
    · rw [List.filter_cons, Tab.find, if_neg k]
      split
      · rw [Tab.find, if_neg k, ih]
      · exact ih

/-- The registers that stay keep their values. -/
theorem Group.vr_give (g : Group) (k : Nat) {n : Nat} (h : n < (g.give k).vcnt) (l : Nat) : (g.give k).vr n l = g.vr n l := by
  have kept : Tab.find (g.give k).v n = Tab.find g.v n :=
    Tab.find_filter_some g.v (fun m => decide (m < (g.give k).vcnt)) (decide_eq_true h)
  rw [Group.vr, Group.vr, Tab.get, Tab.get, kept]

/-- A team with granules added to its pool. -/
def Team.grown (x : Team) (n : Nat) : Team := { x with pool := x.pool + n }

theorem exec_give_runs {f : Fields} {s : State} (h : Sys2Proof.free (.give f) f s = true) (act : (s.view f).act ≠ 0#32)
    (room : 8 * f.b.toNat + 8 ≤ s.me.valloc) :
    exec (.give f) s = .next ((s.setTeam s.me.team ((s.team s.me.team).grown f.b.toNat)).setGrp s.cur.gid (s.me.give f.b.toNat)).retire := by
  have any : (s.view f).any = true := (any_iff s f).mpr act
  have pass : ∀ l, (s.view f).act.getLsbD l = true → giveTests f s (s.view f) l = .ok :=
    fun l _ => if_neg (Nat.not_lt.mpr room)
  rw [exec_give, execGive, issuedChk_runs _ (runs_of_free h pass), if_pos any]
  rfl

/-- The claim of the present issue. -/
def State.claimHere (s : State) (f : Fields) : Claim := { gid := s.cur.gid, role := s.me.role, n := f.b.toNat, d := f.d.toNat, lanes := s.cur.lanes }

/-- A team with one more claim noted. -/
def Team.noted (x : Team) (c : Claim) : Team := { x with claims := x.claims ++ [c] }

theorem exec_claim_runs {f : Fields} {s : State} (h : Sys2Proof.free (.claim f) f s = true) (act : (s.view f).act ≠ 0#32) :
    exec (.claim f) s = .next (s.setTeam s.me.team ((s.team s.me.team).noted (s.claimHere f))).retire := by
  have any : (s.view f).any = true := (any_iff s f).mpr act
  rw [exec_claim, execClaim, onceOnly, issued_runs _ h, if_pos any]
  rfl

/-- The pool has the granules of a claim, and its group stays within 256 registers. -/
def State.grants (s : State) (t : Nat) (c : Claim) : Prop := c.n ≤ (s.team t).pool ∧ (s.grp c.gid).valloc + 8 * c.n ≤ 256

/-- A group with granules appended to its allocation. -/
def Group.taken (g : Group) (n : Nat) : Group := { g with valloc := g.valloc + 8 * n, vcnt := g.valloc + 8 * n }

/-- A team with granules taken from its pool. -/
def Team.drained (x : Team) (n : Nat) : Team := { x with pool := x.pool - n }

theorem State.applyClaim_granted {s : State} {t : Nat} {c : Claim} (h : s.grants t c) :
    s.applyClaim t c = (s.setTeam t ((s.team t).drained c.n)).setGrp c.gid (((s.grp c.gid).taken c.n).setP c.d c.lanes fun _ => 1#16) := by
  obtain ⟨pool, room⟩ := h
  simp only [State.applyClaim, pool, room, decide_true, Bool.and_self, if_true]
  rfl

theorem State.applyClaim_refused {s : State} {t : Nat} {c : Claim} (h : ¬ s.grants t c) :
    s.applyClaim t c = s.setGrp c.gid ((s.grp c.gid).setP c.d c.lanes fun _ => 0#16) := by
  have no : (Decidable.decide (c.n ≤ (s.team t).pool) && Decidable.decide ((s.grp c.gid).valloc + 8 * c.n ≤ 256)) = false := by
    rw [← Bool.decide_and]
    exact decide_eq_false h
  simp only [State.applyClaim, no, Bool.false_eq_true, if_false]
  rfl

/-- Whether it is granted or not, a claim leaves these as they were. -/
theorem State.applyClaim_frame (s : State) (t : Nat) (c : Claim) :
    let u := s.applyClaim t c
    let h := u.grp c.gid
    (u.team t).claims = (s.team t).claims ∧ u.mem = s.mem ∧ h.v = (s.grp c.gid).v ∧ h.s = (s.grp c.gid).s ∧ h.lanes = (s.grp c.gid).lanes
      ∧ ∀ k, k ≠ c.gid → u.grp k = s.grp k := by
  dsimp only
  by_cases granted : s.grants t c
  · rw [State.applyClaim_granted granted, State.grp_setGrp, State.team_setGrp, State.team_setTeam]
    exact ⟨rfl, rfl, rfl, rfl, rfl, fun k other => State.grp_setGrp_ne _ _ other⟩
  · rw [State.applyClaim_refused granted, State.grp_setGrp, State.team_setGrp]
    exact ⟨rfl, rfl, rfl, rfl, rfl, fun k other => State.grp_setGrp_ne _ _ other⟩

theorem State.applyClaim_takes {s : State} {t : Nat} {c : Claim} (granted : s.grants t c) :
    let u := s.applyClaim t c
    let h := u.grp c.gid
    let g := s.grp c.gid
    h.valloc = g.valloc + 8 * c.n ∧ h.vcnt = g.valloc + 8 * c.n ∧ (u.team t).pool = (s.team t).pool - c.n
      ∧ ∀ n l, l < 32 → h.pr n l = if n ≠ 15 ∧ n = c.d ∧ c.lanes.getLsbD l = true then 1#16 else g.pr n l := by
  dsimp only
  rw [State.applyClaim_granted granted, State.grp_setGrp, State.team_setGrp, State.team_setTeam]
  exact ⟨rfl, rfl, rfl, fun n l lt => pr_setP _ _ _ _ _ lt⟩

theorem State.applyClaim_leaves {s : State} {t : Nat} {c : Claim} (refused : ¬ s.grants t c) :
    let u := s.applyClaim t c
    let h := u.grp c.gid
    let g := s.grp c.gid
    h.valloc = g.valloc ∧ h.vcnt = g.vcnt ∧ (u.team t).pool = (s.team t).pool
      ∧ ∀ n l, l < 32 → h.pr n l = if n ≠ 15 ∧ n = c.d ∧ c.lanes.getLsbD l = true then 0#16 else g.pr n l := by
  dsimp only
  rw [State.applyClaim_refused refused, State.grp_setGrp, State.team_setGrp]
  exact ⟨rfl, rfl, rfl, fun n l lt => pr_setP _ _ _ _ _ lt⟩

/-- The state whose team has no claim left. -/
def State.unclaimed (s : State) (t : Nat) : State := s.setTeam t { s.team t with claims := [] }

theorem State.settleClaims_one {s : State} {t : Nat} {c : Claim} (h : (s.team t).claims = [c]) :
    s.settleClaims t = (s.unclaimed t).applyClaim t c := by
  rw [State.settleClaims, h]
  rfl

/-- Of two claims, the one of the lower ROLE goes first. -/
theorem State.settleClaims_two {s : State} {t : Nat} {a b : Claim} (h : (s.team t).claims = [a, b]) (order : b.role < a.role) :
    s.settleClaims t = ((s.unclaimed t).applyClaim t b).applyClaim t a := by
  have sorted : [a, b].foldr insertClaim [] = [b, a] := by simp [insertClaim, Nat.not_le.mpr order]
  rw [State.settleClaims, h, sorted]
  rfl

theorem State.unclaimed_claims (s : State) (t : Nat) : ((s.unclaimed t).team t).claims = [] := by rw [State.unclaimed, State.team_setTeam]

theorem State.unclaimed_pool (s : State) (t : Nat) : ((s.unclaimed t).team t).pool = (s.team t).pool := by
  rw [State.unclaimed, State.team_setTeam]

theorem State.unclaimed_grants {s : State} {t : Nat} {c : Claim} : (s.unclaimed t).grants t c ↔ s.grants t c := by
  rw [State.grants, State.unclaimed_pool]
  rfl

end Sys2Proof.Machine

namespace Sys2Proof

open Sys2Proof.Machine

/-- `rgn` asks for the lines of its set that are neither buffered nor on their way, and keeps those that are buffered (R123). -/
theorem rgn_fetches (f : Fields) (s : State) (h : free (.rgn f) f s = true) :
    ∃ t, exec (.rgn f) s = .next t ∧ onlyGroup s t ∧ steps s t ∧ quiet s t
      ∧ (∀ r, r ∈ t.me.fb ↔ r ∈ s.me.fb)
      ∧ ∀ r, (∃ d, (r, d) ∈ t.me.fetch) ↔ (∃ d, (r, d) ∈ s.me.fetch) ∨ (r ∈ rgnSet f ∧ r ∉ s.me.fb) := by
  obtain ⟨only, go, mem, rest, regs⟩ := retire_setGrp (s := s) (h := s.regioned f) rfl
  have fb : (s.setGrp s.cur.gid (s.regioned f)).retire.me.fb = (s.regioned f).fb := (congrArg Group.fb rest :)
  have fetch : (s.setGrp s.cur.gid (s.regioned f)).retire.me.fetch = (s.regioned f).fetch := (congrArg Group.fetch rest :)
  refine ⟨_, exec_rgn_runs h, only, go, quiet_of_regs regs mem, fun r => ?_, fun r => ?_⟩
  · rw [fb]
    exact Group.mem_evictFirst_fb
  · rw [fetch, State.regioned, Group.fetchLines_fetch, mem_sortNums, Group.mem_evictFirst_fb]
    rfl

/-- A line that arrives is buffered and counted (R122, R123). -/
theorem fastBufferFill_buffers (gid r due : Nat) (s : State) (found : (s.grp gid).fetch.find? (·.1 == r) = some (r, due))
    (time : due ≤ (s.core (gid / 16)).cycle)
    (turn : r ∈ (s.grp gid).missed ∨ ∃ d, (s.grp gid).fetch.find? (fun e => !(s.grp gid).missed.contains e.1) = some (r, d)) :
    ∃ t, exec (.fastBufferFill gid r) s = .next t ∧ r ∈ (t.grp gid).fb ∧ ((s.grp gid).fb.length ≤ 32 → (t.grp gid).fb.length ≤ 32)
      ∧ (t.grp gid).v = (s.grp gid).v ∧ t.mem = s.mem
      ∧ (t.grp gid).csr = { (s.grp gid).csr with fbmiss :=
          if 0x050 ∈ (s.grp gid).csrw then (s.grp gid).csr.fbmiss
          else ((s.grp gid).csr.fbmiss + if r ∈ (s.grp gid).missed then 1 else 0) % 2 ^ 32 } := by
  refine ⟨_, exec_fastBufferFill_arrives found time turn, ?_⟩
  rw [State.grp_setGrp]
  refine ⟨mem_enterLine _ r, enterLine_length, rfl, rfl, ?_⟩
  simp [Group.lineArrived, Group.count, wrapCount]

/-- `rdidx` reads the register that each active lane's index names. -/
theorem rdidx_reads (f : Fields) (s : State) (h : free (.rdidx f) f s = true)
    (inside : ∀ l, (s.view f).act.getLsbD l = true → ((s.view f).a f l).toNat < s.me.vcnt ∧ (((s.view f).a f l).toNat, l) ∉ s.me.bad) :
    ∃ t, exec (.rdidx f) s = .next t ∧ onlyGroup s t ∧ steps s t ∧ sameU s t ∧ sameP s t ∧ sameFlags s t ∧ sameMem s t
      ∧ writesV s t f.d.toNat (s.view f).act fun l => s.me.vr ((s.view f).a f l).toNat l := by
  obtain ⟨only, go, u, p, flags, mem, v⟩ := retire_indexed (setV_vectorsOnly s.me f.d.toNat (s.view f).act
    fun l => s.me.vr ((s.view f).a f l).toNat l) (indexRegs f (s.view f))
  exact ⟨_, exec_rdidx_runs h inside, only, go, u, p, flags, mem, fun n l lt => (v n l).trans (vr_setV _ _ _ _ _ lt)⟩

/-- `wridx` writes the register that each active lane's index names. -/
theorem wridx_writes (f : Fields) (s : State) (h : free (.wridx f) f s = true)
    (inside : ∀ l, (s.view f).act.getLsbD l = true → ((s.view f).a f l).toNat < s.me.vcnt) :
    ∃ t, exec (.wridx f) s = .next t ∧ onlyGroup s t ∧ steps s t ∧ sameU s t ∧ sameP s t ∧ sameFlags s t ∧ sameMem s t
      ∧ ∀ n l, l < 32 → t.me.vr n l
          = if (s.view f).act.getLsbD l = true ∧ n = ((s.view f).a f l).toNat then (s.view f).breg f l else s.me.vr n l := by
  obtain ⟨only, go, u, p, flags, mem, v⟩ := retire_indexed (writeIndexed_vectorsOnly f (s.view f) s.me (lanesOf (s.view f).act))
    (indexRegs f (s.view f))
  refine ⟨_, exec_wridx_runs h inside, only, go, u, p, flags, mem, fun n l lt => (v n l).trans ?_⟩
  simp only [vr_writeIndexed _ _ _ _ _ lt, mem_lanesOf]

/-- `give` moves granules from the end of the group's allocation to the team's pool (R128). -/
theorem give_moves (f : Fields) (s : State) (h : free (.give f) f s = true) (act : (s.view f).act ≠ 0#32)
    (room : 8 * f.b.toNat + 8 ≤ s.me.valloc) :
    ∃ t, exec (.give f) s = .next t ∧ steps s t ∧ sameU s t ∧ sameP s t ∧ sameFlags s t ∧ sameMem s t
      ∧ t.me.valloc = s.me.valloc - 8 * f.b.toNat ∧ t.me.vcnt = min s.me.vcnt (s.me.valloc - 8 * f.b.toNat)
      ∧ (t.team s.me.team).pool = (s.team s.me.team).pool + f.b.toNat
      ∧ ∀ n l, n < t.me.vcnt → l < 32 → t.me.vr n l = s.me.vr n l := by
  let u := (s.setTeam s.me.team ((s.team s.me.team).grown f.b.toNat)).setGrp s.cur.gid (s.me.give f.b.toNat)
  have me : u.me = s.me.give f.b.toNat := me_setGrp (s.setTeam _ _) _
  have after : SteppedFrom u u.retire := retire_steppedFrom u
  have rest : u.retire.me.rest = (s.me.give f.b.toNat).rest := by rw [after.rest, me]
  have regs := after.regs
  rw [me] at regs
  simp only [Group.regs, Prod.mk.injEq] at regs
  obtain ⟨v, r, p, csr⟩ := regs
  have vcnt : u.retire.me.vcnt = (s.me.give f.b.toNat).vcnt := (congrArg Group.vcnt rest :)
  refine ⟨u.retire, exec_give_runs h act room, retire_steps rfl (by rw [me]; rfl), sameU_of r rfl, sameP_of p rfl, ?_,
    fun a => by rw [after.mem]; rfl, (congrArg Group.valloc rest :), vcnt, ?_, fun n l below _ => ?_⟩
  · rw [sameFlags, csr]
    exact ⟨rfl, rfl⟩
  · rw [after.team]
    exact congrArg Team.pool (State.team_setTeam s _ _)
  · exact (vr_of v n l).trans (s.me.vr_give _ (vcnt ▸ below) l)

/-- `claim` is noted for its team (R128). -/
theorem claim_noted (f : Fields) (s : State) (h : free (.claim f) f s = true) (act : (s.view f).act ≠ 0#32) :
    ∃ t, exec (.claim f) s = .next t ∧ steps s t ∧ quiet s t ∧ t.me.rest = s.me.rest
      ∧ t.team s.me.team = (s.team s.me.team).noted (s.claimHere f) := by
  let u := s.setTeam s.me.team ((s.team s.me.team).noted (s.claimHere f))
  obtain ⟨go, still⟩ := retire_after (s := s) (u := u) rfl rfl rfl rfl
  have after : SteppedFrom u u.retire := retire_steppedFrom u
  exact ⟨_, exec_claim_runs h act, go, still, after.rest, (after.team _).trans (State.team_setTeam s _ _)⟩

/-- The only claim of a cycle takes its granules, or takes none (R128). -/
theorem settleClaims_only (team : Nat) (c : Claim) (s : State) (only : (s.team team).claims = [c]) :
    let g := s.grp c.gid
    let ok := c.n ≤ (s.team team).pool ∧ g.valloc + 8 * c.n ≤ 256
    let t := s.settleClaims team
    let h := t.grp c.gid
    (t.team team).claims = [] ∧ t.mem = s.mem ∧ h.v = g.v ∧ h.s = g.s ∧ h.lanes = g.lanes
      ∧ (ok → h.valloc = g.valloc + 8 * c.n ∧ h.vcnt = h.valloc ∧ (t.team team).pool = (s.team team).pool - c.n)
      ∧ (¬ok → h.valloc = g.valloc ∧ h.vcnt = g.vcnt ∧ (t.team team).pool = (s.team team).pool)
      ∧ ∀ n l, l < 32 → h.pr n l = if n ≠ 15 ∧ n = c.d ∧ c.lanes.getLsbD l = true then (if ok then 1#16 else 0#16) else g.pr n l := by
  intro g ok t h
  have applied : t = (s.unclaimed team).applyClaim team c := State.settleClaims_one only
  have pool : ((s.unclaimed team).team team).pool = (s.team team).pool := s.unclaimed_pool team
  obtain ⟨claims, mem, v, u, lanes, -⟩ := (s.unclaimed team).applyClaim_frame team c
  rw [← applied] at claims mem v u lanes
  refine ⟨claims.trans (s.unclaimed_claims team), mem, v, u, lanes, ?_⟩
  by_cases granted : (s.unclaimed team).grants team c
  · have yes : ok := State.unclaimed_grants.mp granted
    obtain ⟨valloc, vcnt, left, pr⟩ := State.applyClaim_takes granted
    rw [← applied, pool] at left
    rw [← applied] at valloc vcnt pr
    refine ⟨fun _ => ⟨valloc, vcnt.trans valloc.symm, left⟩, absurd yes, fun n l lt => ?_⟩
    rw [pr n l lt, if_pos yes]
    rfl
  · have no : ¬ok := fun yes => granted (State.unclaimed_grants.mpr yes)
    obtain ⟨valloc, vcnt, left, pr⟩ := State.applyClaim_leaves granted
    rw [← applied, pool] at left
    rw [← applied] at valloc vcnt pr
    refine ⟨fun yes => absurd yes no, fun _ => ⟨valloc, vcnt, left⟩, fun n l lt => ?_⟩
    rw [pr n l lt, if_neg no]
    rfl

/-- Where the pool has granules for one of two claims, the one of the lower ROLE takes them (R128). -/
theorem settleClaims_pair (team : Nat) (a b : Claim) (s : State) (both : (s.team team).claims = [a, b]) (order : b.role < a.role)
    (apart : a.gid ≠ b.gid) (first : b.n ≤ (s.team team).pool) (short : (s.team team).pool < a.n + b.n)
    (room : (s.grp b.gid).valloc + 8 * b.n ≤ 256) :
    let t := s.settleClaims team
    (t.grp b.gid).valloc = (s.grp b.gid).valloc + 8 * b.n ∧ (t.grp a.gid).valloc = (s.grp a.gid).valloc
      ∧ (t.team team).pool = (s.team team).pool - b.n := by
  intro t
  let u := (s.unclaimed team).applyClaim team b
  have applied : t = u.applyClaim team a := State.settleClaims_two both order
  obtain ⟨valloc, -, pool, -⟩ := State.applyClaim_takes (State.unclaimed_grants.mpr ⟨first, room⟩ : (s.unclaimed team).grants team b)
  obtain ⟨-, -, -, -, -, othersB⟩ := (s.unclaimed team).applyClaim_frame team b
  obtain ⟨-, -, -, -, -, othersA⟩ := u.applyClaim_frame team a
  rw [s.unclaimed_pool team] at pool
  have refused : ¬ u.grants team a := fun ⟨enough, _⟩ => by rw [pool] at enough; omega
  obtain ⟨stays, -, left, -⟩ := State.applyClaim_leaves refused
  rw [applied]
  refine ⟨?_, ?_, left.trans pool⟩
  · rw [othersA b.gid apart.symm]
    exact valloc
  · rw [stays, othersB a.gid apart]
    rfl

/-- Settles O28: the lines of the fast buffer, the registers that indices name, and the granules that `give` and `claim` move, each by the lemma of
its instruction or event. -/
theorem lineStoreAndRegisterPool : Obligations.LineStoreAndRegisterPool := by
  unfold Obligations.LineStoreAndRegisterPool
  exact ⟨⟨rgn_fetches, fastBufferFill_buffers, rdidx_reads, wridx_writes⟩, give_moves, claim_noted, settleClaims_only, settleClaims_pair⟩

end Sys2Proof
end

section
/-!
PROOFS. Integer arithmetic (R132, R133): each instruction is the shared one of its rule's exact result.
-/

namespace Sys2Proof.Machine

open Sys2Proof

/-- An integer instruction leaves its exact result, wrapped or saturated (R79, R80). -/
theorem intArith_computed {i : Instr} {f : Fields} {s : State} (r : Int → Int → Int → Int) (h : Sys2Proof.free i f s = true) :
    ∃ t, intArith i f s r = .next t ∧ computed i f s t
      (fun l => let v := s.view f
        intResult f.tyN f.sat (r (intVal f.tyN (v.a f l)) (intVal f.tyN (v.b f l)) (intVal f.tyN (v.c f l)))) (fun _ => 0) :=
  computeQuiet_computed _ h

/-- The high half of a product is the floor of R132. -/
theorem mulHigh_eq_fdiv (f : Fields) (a b : Int) : mulHigh f a b = Int.fdiv (a * b) (2 ^ intWidth f.tyN) := by
  rw [mulHigh, Int.fdiv_eq_ediv_of_nonneg _ (by positivity)]
  norm_cast

theorem ite_lt_neg_eq_abs (a : Int) : (if a < 0 then -a else a) = |a| := by
  split
  next neg => exact (abs_of_neg neg).symm
  next pos => exact (abs_of_nonneg (not_lt.mp pos)).symm

/-- An instruction of the table of R132 is the integer instruction of its exact result. -/
theorem exec_of_intRule {i : Instr} {f : Fields} {r : Int → Int → Int → Int} (s : State) (h : intRule i = some (f, r)) :
    exec i s = intArith i f s r := by
  cases i with
  | add g | sub g | mul g | mad g | neg g => cases h; rfl
  | mulh g => cases h; simp only [exec_mulh, execMulh, mulHigh_eq_fdiv]
  | madh g => cases h; simp only [exec_madh, execMadh, mulHigh_eq_fdiv]
  | min g => cases h; simp only [exec_min, execMin, min_def]
  | max g => cases h; simp only [exec_max, execMax, max_def]
  | abs g => cases h; simp only [exec_abs, execAbs, ite_lt_neg_eq_abs]
  | _ => cases h

end Sys2Proof.Machine

namespace Sys2Proof

open Sys2Proof.Machine

/-- Settles O1: by the rule's row, and what an integer instruction leaves. -/
theorem integerArithmeticWritesItsResult : Obligations.IntegerArithmeticWritesItsResult := by
  unfold Obligations.IntegerArithmeticWritesItsResult
  intro i f r s rule may
  rw [exec_of_intRule s rule]
  exact intArith_computed r may

end Sys2Proof
end

section
/-!
PROOFS. Logic, shifts, rotates and bit counts (R134): the words of the model's functions as the rule gives them.
-/

namespace Sys2Proof.Machine

open Sys2Proof

/-- A logic instruction leaves its word. -/
theorem logic_computed {i : Instr} {f : Fields} {s : State} (r : Word → Word → Word) (h : Sys2Proof.free i f s = true) :
    ∃ t, logic i f s r = .next t ∧ computed i f s t (fun l => r ((s.view f).a f l) ((s.view f).b f l)) (fun _ => 0) :=
  computeQuiet_computed _ h

/-! ### Shifts and rotates -/

theorem shlWord_eq (a b : Word) : shlWord a b = BitVec.ofNat 32 (if b.toNat < 32 then a.toNat * 2 ^ b.toNat else 0) := by
  unfold shlWord
  split
  · apply BitVec.eq_of_toNat_eq
    rw [BitVec.toNat_shiftLeft, BitVec.toNat_ofNat, Nat.shiftLeft_eq]
  · rfl

theorem shrWord_eq (a b : Word) : shrWord a b = BitVec.ofNat 32 (if b.toNat < 32 then a.toNat / 2 ^ b.toNat else 0) := by
  unfold shrWord
  split
  · rw [← Nat.shiftRight_eq_div_pow, ← BitVec.toNat_ushiftRight, BitVec.ofNat_toNat, BitVec.setWidth_eq]
  · rfl

theorem sarWord_eq (a b : Word) : sarWord a b = BitVec.ofInt 32 (Int.fdiv a.toInt (2 ^ Nat.min b.toNat 31)) := by
  rw [sarWord, BitVec.sshiftRight, Int.shiftRight_eq_div_pow, Int.fdiv_eq_ediv_of_nonneg _ (by positivity)]
  norm_cast

/-- The two parts of a rotated word have no bit in common, so that their union is their sum. -/
theorem rotateLeft_eq_add (a : Word) {k : Nat} (h : k < 32) :
    a.rotateLeft k = BitVec.ofNat 32 (a.toNat * 2 ^ k + a.toNat / 2 ^ (32 - k)) := by
  have low : a.toNat / 2 ^ (32 - k) < 2 ^ k := by
    rw [Nat.div_lt_iff_lt_mul (by positivity), ← pow_add, Nat.add_sub_cancel' h.le]
    exact a.isLt
  rw [mul_comm, Nat.two_pow_add_eq_or_of_lt low, BitVec.rotateLeft_def, Nat.mod_eq_of_lt h, BitVec.ofNat_or]
  congr 1
  · apply BitVec.eq_of_toNat_eq
    rw [BitVec.toNat_shiftLeft, BitVec.toNat_ofNat, Nat.shiftLeft_eq, mul_comm]
  · rw [← Nat.shiftRight_eq_div_pow, ← BitVec.toNat_ushiftRight, BitVec.ofNat_toNat, BitVec.setWidth_eq]

/-- An instruction of the table of R134 is the logic instruction of its word. -/
theorem exec_of_logicRule {i : Instr} {f : Fields} {r : Word → Word → Word} (s : State) (h : logicRule i = some (f, r)) :
    exec i s = logic i f s r := by
  cases i with
  | and g | or g | xor g | not g | andn g => cases h; rfl
  | shl g => cases h; simp only [exec_shl, execShl, ← shlWord_eq]
  | shr g => cases h; simp only [exec_shr, execShr, ← shrWord_eq]
  | sar g => cases h; simp only [exec_sar, execSar, ← sarWord_eq]
  | rotl g => cases h; simp only [exec_rotl, execRotl, rotateLeft_eq_add _ (Nat.mod_lt _ (by decide : 32 > 0))]
  | _ => cases h

/-! ### Bit counts -/

/-- The zeros above the highest one bit: an `n`-bit value either is below `2 ^ (n - 1)` or has its highest one there. -/
theorem leadZeros_eq {a n : Nat} (h : a < 2 ^ n) : leadZeros a n = if a = 0 then n else n - 1 - Nat.log2 a := by
  induction n with
  | zero => simp [leadZeros]
  | succ n ih =>
    rw [leadZeros, bit_eq_testBit]
    by_cases top : a < 2 ^ n
    · rw [Nat.testBit_lt_two_pow top, if_neg Bool.false_ne_true, ih top]
      split
      · omega
      next pos =>
        have := (Nat.log2_lt pos).mpr top
        omega
    · have pos : a ≠ 0 := fun e => top (by rw [e]; positivity)
      have log : Nat.log2 a = n := (Nat.log2_eq_iff pos).mpr ⟨not_lt.mp top, h⟩
      have one : a.testBit n = true := log ▸ Nat.testBit_log2 pos
      simp [pos, log, one]

theorem onesIn_eq_countP (a n : Nat) : onesIn a n = (List.range n).countP fun k => a.testBit k := by
  induction n with
  | zero => rfl
  | succ n ih =>
    rw [onesIn, ih, List.range_succ, List.countP_append, List.countP_singleton, bit_eq_testBit, Nat.add_comm]

theorem testBit_reverseBits (a n k : Nat) : (reverseBits a n).testBit k = (decide (k < n) && a.testBit (n - 1 - k)) := by
  induction n generalizing k with
  | zero => simp [reverseBits]
  | succ n ih =>
    rw [reverseBits, bit_eq_testBit]
    cases k with
    | zero => cases top : a.testBit n <;> simp [Nat.testBit_zero, top]
    | succ k =>
      rw [Nat.testBit_succ, show (2 * reverseBits a n + if a.testBit n = true then 1 else 0) / 2 = reverseBits a n by split <;> omega, ih]
      congr 1
      · simp
      · congr 1
        omega

theorem clzWord_eq (a : Word) :
    BitVec.ofNat 32 (leadZeros a.toNat 32) = BitVec.ofNat 32 (if a = 0#32 then 32 else 31 - Nat.log2 a.toNat) := by
  rw [leadZeros_eq a.isLt]
  simp only [BitVec.toNat_eq, BitVec.toNat_ofNat, Nat.zero_mod]

theorem popcWord_eq (a : Word) :
    BitVec.ofNat 32 (onesIn a.toNat 32) = BitVec.ofNat 32 ((List.range 32).countP fun k => a.getLsbD k) := by
  rw [onesIn_eq_countP]
  rfl

theorem brevWord_bit (a : Word) {k : Nat} (h : k < 32) : (BitVec.ofNat 32 (reverseBits a.toNat 32)).getLsbD k = a.getLsbD (31 - k) := by
  rw [BitVec.getLsbD_ofNat, testBit_reverseBits]
  simp [h, BitVec.getLsbD]

end Sys2Proof.Machine

namespace Sys2Proof

open Sys2Proof.Machine

/-- Settles O3: by the rule's row, and the three bit counts on words. -/
theorem logicShiftsAndBitCounts : Obligations.LogicShiftsAndBitCounts := by
  unfold Obligations.LogicShiftsAndBitCounts
  refine ⟨fun i f r s rule may => ?_, fun f s => ⟨fun may => ?_, fun may => ?_, fun may => ?_⟩⟩
  · rw [exec_of_logicRule s rule]
    exact logic_computed r may
  · obtain ⟨t, runs, leaves⟩ := logic_computed (fun a _ => BitVec.ofNat 32 (leadZeros a.toNat 32)) may
    exact ⟨t, _, runs, leaves, fun l => clzWord_eq _⟩
  · obtain ⟨t, runs, leaves⟩ := logic_computed (fun a _ => BitVec.ofNat 32 (onesIn a.toNat 32)) may
    exact ⟨t, _, runs, leaves, fun l => popcWord_eq _⟩
  · obtain ⟨t, runs, leaves⟩ := logic_computed (fun a _ => BitVec.ofNat 32 (reverseBits a.toNat 32)) may
    exact ⟨t, _, runs, leaves, fun l k lt => brevWord_bit _ lt⟩

end Sys2Proof
end

section
/-!
PROOFS. Bit fields (R136) and scaled additions (R137).
-/

namespace Sys2Proof.Machine

open Sys2Proof

/-! ### Bits of fields -/

/-- `x` with a field replaced, in its three parts: above the field, the field, and below it. -/
theorem putBits_eq (x v lo n : Nat) :
    putBits x (lo + n) lo v = 2 ^ lo * (2 ^ (n + 1) * (x / 2 ^ lo / 2 ^ (n + 1)) + v % 2 ^ (n + 1)) + x % 2 ^ lo := by
  have width : lo + n + 1 - lo = n + 1 := by omega
  have outer := Nat.div_add_mod x (2 ^ lo)
  have inner := Nat.div_add_mod (x / 2 ^ lo) (2 ^ (n + 1))
  rw [putBits, bits, Nat.shiftRight_eq_div_pow, width]
  generalize x / 2 ^ lo / 2 ^ (n + 1) = high at *
  generalize x / 2 ^ lo % 2 ^ (n + 1) = mid at *
  generalize x % 2 ^ lo = low at *
  have whole : x = mid * 2 ^ lo + (2 ^ lo * (2 ^ (n + 1) * high) + low) := by
    rw [← outer, ← inner]
    ring
  rw [whole, Nat.add_sub_cancel_left]
  ring

/-- The bits of a value with a field replaced. -/
theorem testBit_putBits (x v lo n k : Nat) :
    (putBits x (lo + n) lo v).testBit k = if lo ≤ k ∧ k < lo + (n + 1) then v.testBit (k - lo) else x.testBit k := by
  rw [putBits_eq, Nat.testBit_two_pow_mul_add _ (Nat.mod_lt _ (by positivity)), Nat.testBit_two_pow_mul_add _ (Nat.mod_lt _ (by positivity))]
  simp only [Nat.testBit_mod_two_pow, Nat.testBit_div_two_pow]
  by_cases below : k < lo
  · simp [below, Nat.not_le.mpr below]
  · by_cases within : k - lo < n + 1
    · rw [if_neg below, if_pos within, if_pos (by omega)]
      simp [within]
    · rw [if_neg below, if_neg within, if_neg (by omega)]
      congr 1
      omega

/-- Sign extension as words have it. -/
theorem sext_eq_toInt (x : Nat) {n : Nat} (h : 0 < n) : sext x n = (BitVec.ofNat n x).toInt := by
  have half : 2 ^ n = 2 * 2 ^ (n - 1) := by rw [← pow_succ', Nat.sub_add_cancel h]
  rw [sext, BitVec.toInt, BitVec.toNat_ofNat]
  exact if_congr (by omega) rfl rfl

/-- The bits of a sign-extended field of a word: above it, its highest one. -/
theorem ofInt_sext_bit (x : Nat) {w k : Nat} (pos : 0 < w) (h : k < 32) :
    (BitVec.ofInt 32 (sext x w)).getLsbD k = if k < w then x.testBit k else x.testBit (w - 1) := by
  rw [sext_eq_toInt x pos]
  show ((BitVec.ofNat w x).signExtend 32).getLsbD k = _
  rw [BitVec.getLsbD_signExtend, BitVec.msb_eq_getLsbD_last, BitVec.getLsbD_ofNat, BitVec.getLsbD_ofNat]
  split <;> simp [*]

/-! ### Control words -/

theorem fieldPos_eq (ctl : Word) : fieldPos ctl = ctl.toNat % 32 := bits_low _ _

theorem fieldWidth_eq (ctl : Word) : fieldWidth ctl = Nat.min (ctl.toNat / 2 ^ 8 % 64) (32 - ctl.toNat % 32) := by
  rw [fieldWidth, fieldPos_eq, bits, Nat.shiftRight_eq_div_pow]
  rfl

/-- A field never reaches beyond bit 31 (R136). -/
theorem field_within (ctl : Word) : fieldPos ctl + fieldWidth ctl ≤ 32 := by
  have pos : fieldPos ctl < 32 := by rw [fieldPos_eq]; exact Nat.mod_lt _ (by decide)
  have width : fieldWidth ctl ≤ 32 - fieldPos ctl := Nat.min_le_right _ _
  omega

/-! ### The three words -/

theorem bfxWord_bit (ty : Nat) (a ctl : Word) {k : Nat} (h : k < 32) :
    (bfxWord ty a ctl).getLsbD k = if k < fieldWidth ctl then a.getLsbD (fieldPos ctl + k)
      else decide (ty = 1) && decide (0 < fieldWidth ctl) && a.getLsbD (fieldPos ctl + fieldWidth ctl - 1) := by
  unfold bfxWord
  generalize fieldWidth ctl = w
  generalize fieldPos ctl = p
  have field : ∀ j, (a.toNat / 2 ^ p % 2 ^ w).testBit j = (decide (j < w) && a.getLsbD (p + j)) := fun j => by
    rw [Nat.testBit_mod_two_pow, Nat.testBit_div_two_pow, Nat.add_comm]
    rfl
  rcases Nat.eq_zero_or_pos w with rfl | pos
  · simp
  · dsimp only
    rw [if_neg (Nat.ne_of_gt pos)]
    by_cases signed : ty = 1
    · rw [if_pos signed, ofInt_sext_bit _ pos h, field, field, Nat.add_sub_assoc pos]
      split <;> simp [*]
    · rw [if_neg signed, BitVec.getLsbD_ofNat, field]
      split <;> simp [*]

theorem bfiWord_bit (a b ctl : Word) {k : Nat} (h : k < 32) :
    (bfiWord a b ctl).getLsbD k = if fieldPos ctl ≤ k ∧ k < fieldPos ctl + fieldWidth ctl then b.getLsbD (k - fieldPos ctl)
      else a.getLsbD k := by
  unfold bfiWord
  generalize fieldWidth ctl = w
  generalize fieldPos ctl = p
  cases w with
  | zero => simp
  | succ n =>
    have last : p + (n + 1) - 1 = p + n := rfl
    dsimp only
    rw [if_neg (Nat.succ_ne_zero n), last, BitVec.getLsbD_ofNat, testBit_putBits, Nat.testBit_mod_two_pow]
    split
    next inside =>
      have : k - p < n + 1 := by omega
      simp [h, this, BitVec.getLsbD]
    next => simp [h, BitVec.getLsbD]

theorem leaWord_eq (a b i : Word) (c : Nat) :
    a + b * BitVec.ofNat 32 (2 ^ c) + i = BitVec.ofInt 32 (a.toNat + b.toNat * 2 ^ c + i.toInt) := by
  rw [BitVec.ofInt_add, BitVec.ofInt_toInt]
  congr 1
  rw [show (a.toNat + b.toNat * 2 ^ c : Int) = ((a.toNat + b.toNat * 2 ^ c : Nat) : Int) by push_cast; rfl, BitVec.ofInt_natCast,
    BitVec.ofNat_add, BitVec.ofNat_mul, BitVec.ofNat_toNat, BitVec.ofNat_toNat, BitVec.setWidth_eq, BitVec.setWidth_eq]

end Sys2Proof.Machine

namespace Sys2Proof

open Sys2Proof.Machine

/-- Settles O4: the bits of the words that `bfx` and `bfi` write, and the sum of `lea`. -/
theorem bitFieldsAndScaledAdds : Obligations.BitFieldsAndScaledAdds := by
  unfold Obligations.BitFieldsAndScaledAdds
  intro f s v ctl p w
  have pos : ∀ l, p l = fieldPos (v.ctl f l) := fun l => (fieldPos_eq _).symm
  have width : ∀ l, w l = fieldWidth (v.ctl f l) := fun l => (fieldWidth_eq _).symm
  refine ⟨fun may => ?_, fun may => ?_, fun may => ?_⟩
  · obtain ⟨t, runs, leaves⟩ := computeQuiet_computed (fun v l => bfxWord f.tyN (v.a f l) (v.ctl f l)) may
    refine ⟨t, _, runs, leaves, fun l k lt => ?_⟩
    have signed : (f.ty == 1#4) = decide (f.tyN = 1) := by
      rw [Bool.eq_iff_iff, beq_iff_eq, decide_eq_true_iff, BitVec.toNat_eq]
      rfl
    rw [bfxWord_bit _ _ _ lt, pos, width, signed]
  · obtain ⟨t, runs, leaves⟩ := computeQuiet_computed (fun v l => bfiWord (v.a f l) (v.breg f l) (v.ctl f l)) may
    refine ⟨t, _, runs, leaves, fun l k lt => ?_⟩
    rw [bfiWord_bit _ _ _ lt, pos, width]
  · obtain ⟨t, runs, leaves⟩ := computeQuiet_computed
      (fun v l => v.a f l + v.breg f l * BitVec.ofNat 32 (2 ^ f.c.toNat) + (if f.len = .l64 then 0#32 else f.imm)) may
    simp only [leaWord_eq, apply_ite BitVec.toInt, BitVec.toInt_zero] at leaves
    exact ⟨t, runs, leaves⟩

end Sys2Proof
end

section
/-!
PROOFS. Moves, selections and exchanges between lanes (R139 to R143, R196).
-/

namespace Sys2Proof.Machine

open Sys2Proof

/-! ### Moves to vector registers -/

theorem pgetWord_eq (f : Fields) (v : View) (l : Nat) : (v.pa f l).setWidth 32 = BitVec.ofNat 32 (v.g.pr f.a.toNat l).toNat := by
  rw [BitVec.ofNat_toNat]
  rfl

/-- A move is the instruction that writes its word in each active lane. -/
theorem exec_of_moveRule {i : Instr} {f : Fields} {x : View → Nat → Word} (s : State) (h : moveRule i = some (f, x)) :
    exec i s = vectorOnly i f s x := by
  cases i with
  | mov g | movi g | lid g | csel g | shfl g => cases h; rfl
  | pget g => cases h; simp only [exec_pget, execPget, pgetWord_eq]
  | _ => cases h

/-! ### A uniform register written once -/

/-- What an instruction leaves that writes one uniform register, where some lane is active, and steps. -/
theorem writeU_retire_spec (s : State) (f : Fields) (n : Nat) (x : Word) :
    let t := (if (s.view f).any then s.writeU n x else s).retire
    framed s t ∧ steps s t ∧ sameV s t ∧ sameP s t ∧ sameFlags s t ∧ writesU s t f n x := by
  intro t
  obtain ⟨g, me, rest, lanes, v, p, csr, u⟩ := s.writeU_withMe f n x
  obtain ⟨frame, go, tv, ts, tp, tc⟩ := withMe_retireTo me (fun _ => none) rest lanes
  exact ⟨frame, go, sameV_of tv v, sameP_of tp p, ⟨congrArg Csrs.fstat (tc.trans csr), congrArg Csrs.ffirst (tc.trans csr)⟩,
    fun m => (ur_of ts m).trans (u m)⟩

theorem exec_movs_runs {f : Fields} {s : State} (h : Sys2Proof.free (.movs f) f s = true) :
    exec (.movs f) s = .next (if (s.view f).any
      then s.writeU f.d.toNat (if f.len = .l64 then (s.view f).w.ur f.a.toNat else f.imm) else s).retire := by
  rw [exec_movs, execMovs, onceOnly, issued_runs _ h]

/-! ### The lane that `rdlane` reads (R142) -/

theorem laneNums_eq_range : laneNums = List.range 32 := rfl

/-- The lowest lane of a mask. -/
theorem find?_lane_eq_some {m : Word} {j : Nat} :
    (laneNums.find? fun l => m.getLsbD l) = some j ↔ m.getLsbD j = true ∧ ∀ k, k < j → m.getLsbD k = false := by
  rw [laneNums_eq_range, List.find?_range_eq_some]
  simp only [List.mem_range, Bool.not_eq_true']
  exact ⟨fun ⟨bit, _, below⟩ => ⟨bit, below⟩, fun ⟨bit, below⟩ => ⟨bit, BitVec.lt_of_getLsbD bit, below⟩⟩

theorem rdlaneSource_register {f : Fields} {v : View} (h : f.len = .l64) : rdlaneSource f v = some ((v.breg f 0).toNat % 32) := if_pos h

/-- In the 96-bit form `rdlane` reads the lowest active lane of its mask. -/
theorem rdlaneSource_mask {f : Fields} {v : View} (h : f.len ≠ .l64) :
    rdlaneSource f v = laneNums.find? fun l => (v.act &&& f.imm).getLsbD l := by
  simp only [rdlaneSource, if_neg h, BitVec.getLsbD_and]

theorem exec_rdlane_none {f : Fields} {s : State} (h : Sys2Proof.free (.rdlane f) f s = true) (source : rdlaneSource f (s.view f) = none) :
    exec (.rdlane f) s = .next s.retire := by
  rw [exec_rdlane, execRdlane, onceOnly, issued_runs _ h]
  simp only [source, ite_self]

theorem exec_rdlane_some {f : Fields} {s : State} {j : Nat} (h : Sys2Proof.free (.rdlane f) f s = true)
    (source : rdlaneSource f (s.view f) = some j) :
    exec (.rdlane f) s = .next (if (s.view f).any then s.writeU f.d.toNat ((s.view f).w.vr f.a.toNat j) else s).retire := by
  rw [exec_rdlane, execRdlane, onceOnly, issued_runs _ h]
  simp only [source, View.other]

/-- `rdlane` writes the word of its source lane, and nothing where its mask names no active lane. -/
theorem exec_rdlane_spec {f : Fields} {s : State} (h : Sys2Proof.free (.rdlane f) f s = true) :
    ∃ t, exec (.rdlane f) s = .next t ∧ framed s t ∧ steps s t ∧ sameV s t ∧ sameP s t ∧ sameFlags s t
      ∧ (rdlaneSource f (s.view f) = none → sameU s t)
      ∧ ∀ j, rdlaneSource f (s.view f) = some j → writesU s t f f.d.toNat ((s.view f).w.vr f.a.toNat j) := by
  cases source : rdlaneSource f (s.view f) with
  | none =>
    obtain ⟨frame, go, v, u, p, flags⟩ := retire_onlySteps s
    exact ⟨_, exec_rdlane_none h source, frame, go, v, p, flags, fun _ => u, nofun⟩
  | some j =>
    obtain ⟨frame, go, v, p, flags, u⟩ := writeU_retire_spec s f f.d.toNat ((s.view f).w.vr f.a.toNat j)
    refine ⟨_, exec_rdlane_some h source, frame, go, v, p, flags, nofun, fun k e => ?_⟩
    cases e
    exact u

end Sys2Proof.Machine

namespace Sys2Proof

open Sys2Proof.Machine

/-- Settles O5: by the rule's row for the moves, and the source lane of `rdlane` in each of its forms. -/
theorem movesAndExchanges : Obligations.MovesAndExchanges := by
  unfold Obligations.MovesAndExchanges
  refine ⟨fun i f x s rule may => ?_, fun f s => ⟨fun may => ⟨_, exec_movs_runs may, writeU_retire_spec s f _ _⟩, fun may => ?_⟩⟩
  · rw [exec_of_moveRule s rule]
    exact vectorOnly_spec x may
  · obtain ⟨t, runs, frame, go, v, p, flags, stays, writes⟩ := exec_rdlane_spec may
    refine ⟨t, runs, frame, go, v, p, flags, fun short => writes _ (rdlaneSource_register short), fun long none => stays ?_,
      fun long j bit below => writes j ?_⟩
    · rw [rdlaneSource_mask long, none, List.find?_eq_none]
      simp
    · rw [rdlaneSource_mask long]
      exact find?_lane_eq_some.mpr ⟨bit, below⟩

end Sys2Proof
end

section
/-!
PROOFS. Branches, calls and returns (R145, R146).
-/

namespace Sys2Proof.Machine

open Sys2Proof

/-- What a transfer leaves (R144): the lanes of its mask go to their targets and the other issuing lanes step. -/
theorem transfer_spec (s : State) (m : Word) (tgt : Nat → Nat) :
    let t := s.transfer m tgt
    (framed s t ∧ sameV s t ∧ sameU s t ∧ sameP s t ∧ sameFlags s t) ∧ goes s t fun l => if m.getLsbD l then some (tgt l) else none := by
  obtain ⟨frame, go, v, u, p, flags⟩ := retireTo_spec s fun l => if m.getLsbD l then some (tgt l) else none
  exact ⟨⟨frame, v, u, p, flags⟩, go⟩

theorem relTarget_eq (pc : Nat) (imm : Word) : relTarget pc imm = wrap ((pc : Int) + imm.toInt) 48 := by
  rw [relTarget, sext_eq_toInt _ (by decide), BitVec.ofNat_toNat, BitVec.setWidth_eq]

/-- A mask of lanes of another mask. -/
theorem mkMask_and_bit (m : Word) (p : Nat → Bool) (l : Nat) : (mkMask fun k => m.getLsbD k && p k).getLsbD l = (m.getLsbD l && p l) := by
  by_cases h : l < 32
  · exact mkMask_bit _ h
  · rw [BitVec.getLsbD_of_ge _ _ (not_lt.mp h), BitVec.getLsbD_of_ge _ _ (not_lt.mp h), Bool.false_and]

theorem brcTaken_bit (f : Fields) (v : View) (l : Nat) :
    (brcTaken f v).getLsbD l = true ↔ v.act.getLsbD l = true ∧ (f.sub = 0#4 ↔ v.a f l = 0#32) := by
  rw [brcTaken, mkMask_and_bit, Bool.and_eq_true]
  refine and_congr_right fun _ => ?_
  rw [beq_iff_eq, Bool.eq_iff_iff, beq_iff_eq, beq_iff_eq]
  exact iff_comm

/-! ### `call` -/

/-- The group of a `call` once the active lanes have their return address. -/
def Group.withReturn (g : Group) (d : Nat) (m : Word) (ra : Nat) : Group :=
  (g.setV d m fun _ => BitVec.ofNat 32 ra).setV (d + 1) m fun _ => BitVec.ofNat 32 (bits ra 47 32)

theorem State.writeReturn_eq (s : State) (d : Nat) (m : Word) (ra : Nat) :
    s.writeReturn d m ra = s.setGrp s.cur.gid (s.me.withReturn d m ra) := by
  simp only [State.writeReturn, State.writeV, State.setGrp_cur, State.grp_setGrp, State.setGrp_setGrp]
  rfl

theorem Group.withReturn_vr (g : Group) (d : Nat) (m : Word) (ra n : Nat) {l : Nat} (h : l < 32) :
    (g.withReturn d m ra).vr n l = if m.getLsbD l = true ∧ n = d + 1 then BitVec.ofNat 32 (ra / 2 ^ 32 % 2 ^ 16)
      else if m.getLsbD l = true ∧ n = d then BitVec.ofNat 32 ra else g.vr n l := by
  have high : bits ra 47 32 = ra / 2 ^ 32 % 2 ^ 16 := by rw [bits, Nat.shiftRight_eq_div_pow]
  rw [Group.withReturn, vr_setV _ _ _ _ _ h, vr_setV _ _ _ _ _ h, high]
  simp only [and_comm]

/-- What a call leaves: the return address in its pair, and the transfer. -/
theorem callTransfer_spec (s : State) (d : Nat) (m : Word) (ra : Nat) (tgt : Nat → Nat) :
    let t := (s.writeReturn d m ra).transfer m tgt
    framed s t ∧ sameU s t ∧ sameP s t ∧ sameFlags s t ∧ goes s t (fun l => if m.getLsbD l then some (tgt l) else none)
      ∧ ∀ n l, l < 32 → t.me.vr n l = (s.me.withReturn d m ra).vr n l := by
  rw [State.writeReturn_eq]
  obtain ⟨frame, go, v, u, p, csr⟩ := withMe_retireTo (withMe_setGrp s (s.me.withReturn d m ra))
    (fun l => if m.getLsbD l then some (tgt l) else none) rfl rfl
  exact ⟨frame, sameU_of u rfl, sameP_of p rfl, ⟨congrArg Csrs.fstat csr, congrArg Csrs.ffirst csr⟩, go, fun n l _ => vr_of v n l⟩

end Sys2Proof.Machine

namespace Sys2Proof

open Sys2Proof.Machine

/-- Settles O11: each branch is a transfer of the lanes that take it, and a call one with the return address written first. -/
theorem branchesSendActiveLanes : Obligations.BranchesSendActiveLanes := by
  unfold Obligations.BranchesSendActiveLanes
  intro f s v near far ra quiet
  have target : relTarget s.cur.pc f.imm = near := relTarget_eq _ _
  refine ⟨fun may => ?_, fun may => ?_, fun may => ?_, fun may => ?_, fun may => ?_⟩
  · rw [exec_br, execBr, issued_runs _ may, target]
    exact ⟨_, rfl, transfer_spec s v.act fun _ => near⟩
  · rw [exec_brc, execBrc, issued_runs _ may, target]
    obtain ⟨frame, go⟩ := transfer_spec s (brcTaken f v) fun _ => near
    simp only [brcTaken_bit] at go
    exact ⟨_, rfl, frame, go⟩
  · rw [exec_brx, execBrx, issued_runs _ may]
    exact ⟨_, rfl, transfer_spec s v.act far⟩
  · rw [exec_ret, execRet, issued_runs _ may]
    exact ⟨_, rfl, transfer_spec s v.act far⟩
  · rw [exec_call, execCall, issued_runs _ may, target]
    obtain ⟨frame, u, p, flags, go, words⟩ := callTransfer_spec s f.d.toNat v.act ra fun l => if f.len = .l64 then far l else near
    exact ⟨_, rfl, frame, u, p, flags, go, fun n l lt => (words n l lt).trans (Group.withReturn_vr _ _ _ _ _ lt)⟩

end Sys2Proof
end

section
/-!
PROOFS. `nop` (R148, R269), yield marks (R41, R151) and votes (R151).
-/

namespace Sys2Proof.Machine

open Sys2Proof

/-! ### The step of a sequencer -/

theorem seqRuns_src {i : Instr} {f : Fields} {s : State} {q : Nat} {inClass : Bool} (h : seqRuns i f s q inClass = true) :
    s.cur.src = .seq q := by
  simp only [seqRuns, Bool.and_eq_true, beq_iff_eq] at h
  exact h.1.1.1.1

theorem exec_nop_seqRuns {f : Fields} {s : State} {q : Nat} (h : seqRuns (.nop f) f s q true = true) :
    exec (.nop f) s = .next (s.seqRetire q) := by
  simp only [exec_nop, execNop, seqRuns_src h]
  exact sequenced_runs _ h

/-- A sequencer that steps changes its PC and its place in its clause, and no other sequencer. -/
theorem State.seqRetire_spec (s : State) {q : Nat} (h : q < s.me.seqs.length) :
    let t := s.seqRetire q
    onlyGroup s t ∧ t.me = { s.me with seqs := t.me.seqs } ∧ (nth {} t.me.seqs q).pc = seqPc s.cur.pc s.cur.len
      ∧ ∀ r, r ≠ q → nth {} t.me.seqs r = nth {} s.me.seqs r := by
  intro t
  refine ⟨onlyGroup_setGrp s _, ?_, ?_, fun r other => ?_⟩ <;> simp only [t, State.seqRetire, State.seqTo, me_setGrp]
  · rfl
  · rw [nth_setNth, if_pos ⟨rfl, h⟩]
  · rw [nth_setNth, if_neg fun same => other same.1]
    rfl

/-! ### Yield marks (R41) -/

theorem any_mkLanes {α : Type} {f : Nat → α} {p : α → Bool} : (mkLanes f).any p = true ↔ ∃ l, l < 32 ∧ p (f l) = true := by
  simp [mkLanes, mem_laneNums]

theorem all_mkLanes {α : Type} {f : Nat → α} {p : α → Bool} : (mkLanes f).all p = true ↔ ∀ l, l < 32 → p (f l) = true := by
  simp [mkLanes, mem_laneNums]

/-- Some lane is eligible, and every eligible lane has a yield mark. -/
def Group.AllMarked (g : Group) : Prop :=
  (∃ l, l < 32 ∧ g.eligible (g.lane l) = true) ∧ ∀ l, l < 32 → g.eligible (g.lane l) = true → (g.lane l).mark = true

/-- The lanes of a group that has just rewritten them all. -/
theorem Group.mapLanes_lanes (g : Group) (f : Nat → Lane → Lane) : (g.mapLanes f).lanes = mkLanes (g.mapLanes f).lane :=
  mkLanes_congr fun _ h => (lane_mapLanes g f h).symm

/-- Marks clear exactly where all eligible lanes are marked. -/
theorem Group.clearMarks_iff {g : Group} (lanes : g.lanes = mkLanes g.lane) :
    (g.AllMarked → g.clearMarks = g.mapLanes fun _ n => n.unmarked) ∧ (¬g.AllMarked → g.clearMarks = g) := by
  have test : (g.lanes.any g.eligible && g.lanes.all fun n => !g.eligible n || n.mark) = true ↔ g.AllMarked := by
    rw [lanes, Bool.and_eq_true, any_mkLanes, all_mkLanes, Group.AllMarked]
    refine and_congr Iff.rfl (forall₂_congr fun l _ => ?_)
    cases g.eligible (g.lane l) <;> simp
  exact ⟨fun all => if_pos (test.mpr all), fun some => if_neg fun all => some (test.mp all)⟩

/-- Whether a lane is eligible has nothing to do with marks. -/
theorem Group.eligible_unmarked {g h : Group} {m n : Lane} (lanes : g.lanes.map Lane.unmarked = h.lanes.map Lane.unmarked)
    (lane : m.unmarked = n.unmarked) : g.eligible m = h.eligible n := by
  have pc : m.pc = n.pc := Lane.pc_of_unmarked lane
  have ready : m.ready = n.ready := (congrArg Lane.ready lane :)
  have missed : ∀ k : Group, (k.lanes.any fun x => x.miss.isSome && x.pc == n.pc)
      = (k.lanes.map Lane.unmarked).any fun x => x.miss.isSome && x.pc == n.pc := fun k => by rw [List.any_map]; rfl
  rw [Group.eligible, Group.eligible, pc, ready, missed g, missed h, lanes]

/-- Clearing marks leaves each lane as eligible as before. -/
theorem Group.clearMarks_eligible {g : Group} (lanes : g.lanes = mkLanes g.lane) {l : Nat} (h : l < 32) :
    g.clearMarks.eligible (g.clearMarks.lane l) = g.eligible (g.lane l) := by
  refine Group.eligible_unmarked ?_ (g.clearMarks_unmarked h)
  rcases g.clearMarks_cases with e | e <;> rw [e]
  rw [Group.mapLanes, lanes]
  rfl

theorem Group.eligible_of_lanes {g h : Group} (e : g.lanes = h.lanes) (n : Lane) : g.eligible n = h.eligible n := by
  rw [Group.eligible, Group.eligible, e]

theorem State.moveLanes_lanes (s : State) (f : Nat → Lane → Lane) : (s.moveLanes f).me.lanes = (s.me.mapLanes f).clearMarks.lanes := by
  rw [State.moveLanes, me_setGrp]
  rfl

/-- Whether a lane is eligible after an issue has rewritten the lanes, as if no marks had cleared. -/
theorem State.moveLanes_eligible (s : State) (f : Nat → Lane → Lane) {l : Nat} (h : l < 32) :
    (s.moveLanes f).me.eligible ((s.moveLanes f).me.lane l) = (s.me.mapLanes f).eligible ((s.me.mapLanes f).lane l) := by
  rw [Group.eligible_of_lanes (s.moveLanes_lanes f), Group.lane, s.moveLanes_lanes f]
  exact Group.clearMarks_eligible (s.me.mapLanes_lanes f) h

/-- The yield mark of a lane after an issue has rewritten the lanes: as the rewriting gave it, unless all eligible lanes were marked. -/
theorem State.moveLanes_mark (s : State) (f : Nat → Lane → Lane) {l : Nat} (h : l < 32) :
    ((s.moveLanes f).me.lane l).mark = true ↔ (f l (s.me.lane l)).mark = true ∧ ¬(s.me.mapLanes f).AllMarked := by
  obtain ⟨clears, keeps⟩ := Group.clearMarks_iff (s.me.mapLanes_lanes f)
  rw [Group.lane, s.moveLanes_lanes f]
  by_cases marked : (s.me.mapLanes f).AllMarked
  · rw [clears marked, ← Group.lane, lane_mapLanes _ _ h]
    simp [Lane.unmarked, marked]
  · rw [keeps marked, ← Group.lane, lane_mapLanes _ _ h]
    simp [marked]

/-- What the step to the successor makes of lane `l`. -/
def State.retiredLane (s : State) (l : Nat) (n : Lane) : Lane := if s.cur.lanes.getLsbD l then s.cur.stepLane n else n

theorem State.retire_eq_moveLanes (s : State) : s.retire = s.moveLanes s.retiredLane := rfl

theorem State.retiredLane_mark (s : State) (l : Nat) (n : Lane) : (s.retiredLane l n).mark = n.mark := by
  unfold State.retiredLane
  split <;> rfl

/-- The yield mark of a lane after the step to the successor: it stands, unless all lanes that are then eligible were marked (R41). -/
theorem State.retire_mark (s : State) {l : Nat} (h : l < 32) :
    (s.retire.me.lane l).mark = true ↔ (s.me.lane l).mark = true
      ∧ ¬((∃ k, k < 32 ∧ s.retire.me.eligible (s.retire.me.lane k) = true)
        ∧ ∀ k, k < 32 → s.retire.me.eligible (s.retire.me.lane k) = true → (s.me.lane k).mark = true) := by
  rw [s.retire_eq_moveLanes, s.moveLanes_mark _ h, s.retiredLane_mark]
  refine and_congr_right fun _ => not_congr (and_congr (exists_congr fun k => and_congr_right fun lt => ?_) (forall₂_congr fun k lt => ?_))
  · rw [s.moveLanes_eligible _ lt]
  · rw [s.moveLanes_eligible _ lt, lane_mapLanes _ _ lt, s.retiredLane_mark]

theorem Group.marked_mark (g : Group) (m : Word) {l : Nat} (h : l < 32) :
    ((g.marked m).lane l).mark = ((g.lane l).mark || m.getLsbD l) := by
  rw [Group.marked, lane_mapLanes _ _ h]
  cases m.getLsbD l <;> simp

/-! ### Votes (R151) -/

/-- The bit that a vote to a predicate gives lane `l`. -/
def voteBit (f : Fields) (v : View) (l : Nat) : Bool :=
  match f.sub.toNat with
  | 0 => voters f v != 0#32
  | 1 => voters f v == v.act
  | _ => voters f v != 0#32 && lowLane (voters f v) == l

theorem exec_vote_uniform {f : Fields} {s : State} (h : Sys2Proof.free (.vote f) f s = true) (sub : f.sub = 2#4) :
    exec (.vote f) s = .next (if (s.view f).any then s.writeU f.d.toNat (voters f (s.view f)) else s).retire := by
  rw [exec_vote, execVote, issued_runs _ h, sub]
  cases (s.view f).any <;> rfl

theorem exec_vote_predicate {f : Fields} {s : State} (h : Sys2Proof.free (.vote f) f s = true) (sub : f.sub ≠ 2#4) :
    exec (.vote f) s = .next (if (s.view f).any
      then s.writeP f.d.toNat (s.view f).act fun l => boolHalf (voteBit f (s.view f) l) else s).retire := by
  rw [exec_vote, execVote, issued_runs _ h]
  cases (s.view f).any with
  | false => rfl
  | true =>
    have other : f.sub.toNat ≠ 2 := fun e => sub (BitVec.eq_of_toNat_eq e)
    simp only [voteBit, Bool.not_true, Bool.false_eq_true, if_false, if_true]
    generalize f.sub.toNat = form at other ⊢
    match form with
    | 0 => rfl
    | 1 => rfl
    | 2 => exact absurd rfl other
    | _ + 3 => rfl

/-- What an instruction leaves that writes one predicate register, where some lane is active, and steps. -/
theorem writeP_retire_spec (s : State) (f : Fields) (n : Nat) (x : Nat → Half) :
    let t := (if (s.view f).any then s.writeP n (s.view f).act x else s).retire
    framed s t ∧ steps s t ∧ sameV s t ∧ sameU s t ∧ sameFlags s t ∧ writesP s t n (s.view f).act x := by
  intro t
  by_cases any : (s.view f).any = true
  · simp only [t, if_pos any]
    obtain ⟨frame, go, v, u, p, csr⟩ := withMe_retireTo (withMe_setGrp s (s.me.setP n (s.view f).act x)) (fun _ => none) rfl rfl
    exact ⟨frame, go, sameV_of v rfl, sameU_of u rfl, ⟨congrArg Csrs.fstat csr, congrArg Csrs.ffirst csr⟩,
      fun k l lt => (pr_of p k l).trans (pr_setP _ _ _ _ _ lt)⟩
  · have act : (s.view f).act = 0#32 := by simpa [View.any] using any
    simp only [t, if_neg any]
    obtain ⟨frame, go, v, u, p, flags⟩ := retire_onlySteps s
    exact ⟨frame, go, v, u, flags, fun k l lt => by rw [p k l lt, act]; simp⟩

/-- An active lane whose bit 0 of `pA` is 1. -/
def votesYes (f : Fields) (v : View) (l : Nat) : Bool := v.act.getLsbD l && (v.g.pr f.a.toNat l).getLsbD 0

theorem voters_bit (f : Fields) (v : View) (l : Nat) : (voters f v).getLsbD l = votesYes f v l := mkMask_and_bit _ _ l

/-- A mask is empty where it has no lane. -/
theorem mask_ne_zero_eq_any (m : Word) : (m != 0#32) = (List.range 32).any fun l => m.getLsbD l := by
  rw [Bool.eq_iff_iff, bne_iff_ne, List.any_eq_true, ← not_iff_not, not_not]
  refine ⟨fun e => by simp [e], fun none => BitVec.eq_of_getLsbD_eq fun l lt => ?_⟩
  simpa using fun bit => none ⟨l, List.mem_range.mpr lt, bit⟩

/-- The lowest lane of a mask that has one: the mask has it, and none below it. -/
theorem lowLane_test_eq (m : Word) (l : Nat) :
    (m != 0#32 && lowLane m == l) = (m.getLsbD l && (List.range l).all fun k => !m.getLsbD k) := by
  have lowest : (m.getLsbD l && (List.range l).all fun k => !m.getLsbD k) = true ↔ (laneNums.find? fun k => m.getLsbD k) = some l := by
    rw [find?_lane_eq_some]
    simp
  rw [Bool.eq_iff_iff, lowest, mask_ne_zero_eq_any, ← laneNums_eq_range, ← List.isSome_find?, lowLane]
  cases laneNums.find? fun k => m.getLsbD k <;> simp

theorem voteBit_any {f : Fields} (v : View) (l : Nat) (sub : f.sub = 0#4) : voteBit f v l = (List.range 32).any (votesYes f v) := by
  rw [voteBit, sub, ← funext (voters_bit f v), ← mask_ne_zero_eq_any]
  rfl

theorem voteBit_all {f : Fields} (v : View) (l : Nat) (sub : f.sub = 1#4) : voteBit f v l = (lanesOf v.act).all (votesYes f v) := by
  have all : (voters f v == v.act) = (lanesOf v.act).all (votesYes f v) := by
    rw [Bool.eq_iff_iff, beq_iff_eq, List.all_eq_true]
    refine ⟨fun e k active => by rw [← voters_bit, e, mem_lanesOf.mp active], fun all => BitVec.eq_of_getLsbD_eq fun k _ => ?_⟩
    rw [voters_bit]
    cases active : v.act.getLsbD k with
    | false => rw [votesYes, active, Bool.false_and]
    | true => exact all k (mem_lanesOf.mpr active)
  rw [voteBit, sub, ← all]
  rfl

theorem voteBit_first {f : Fields} (v : View) (l : Nat) (sub : f.sub = 3#4) :
    voteBit f v l = (votesYes f v l && (List.range l).all fun k => !votesYes f v k) := by
  simp only [← voters_bit, ← lowLane_test_eq]
  rw [voteBit, sub]
  rfl

/-- A vote to a predicate register. -/
theorem exec_vote_predicate_spec {f : Fields} {s : State} (h : Sys2Proof.free (.vote f) f s = true) (sub : f.sub ≠ 2#4) :
    ∃ t, exec (.vote f) s = .next t ∧ framed s t ∧ steps s t ∧ sameV s t ∧ sameU s t ∧ sameFlags s t
      ∧ writesP s t f.d.toNat (s.view f).act fun l => boolHalf (voteBit f (s.view f) l) :=
  ⟨_, exec_vote_predicate h sub, writeP_retire_spec s f _ _⟩

/-- A vote to a uniform register. -/
theorem exec_vote_uniform_spec {f : Fields} {s : State} (h : Sys2Proof.free (.vote f) f s = true) (sub : f.sub = 2#4) :
    ∃ t, exec (.vote f) s = .next t ∧ framed s t ∧ steps s t ∧ sameV s t ∧ sameP s t ∧ sameFlags s t
      ∧ writesU s t f f.d.toNat (voters f (s.view f)) :=
  ⟨_, exec_vote_uniform h sub, writeU_retire_spec s f _ _⟩

end Sys2Proof.Machine

namespace Sys2Proof

open Sys2Proof.Machine

/-- Settles O12: the steps of `nop`, the marks of `yield`, and what `vote` writes in each of its forms. -/
theorem stepsMarksAndVotes : Obligations.StepsMarksAndVotes := by
  unfold Obligations.StepsMarksAndVotes
  intro f s v yes first marked allMarked
  refine ⟨fun may => exec_onlySteps (.inl rfl) may, fun q inside may => ⟨_, exec_nop_seqRuns may, s.seqRetire_spec inside⟩,
    fun may => ?_, fun may => ?_⟩
  · obtain ⟨t, runs, frame, go, vr, u, p, flags⟩ := exec_yield_onlySteps may
    refine ⟨t, runs, frame, go, vr, u, p, flags, fun l lt => ?_⟩
    rw [exec_yield_runs may] at runs
    cases runs
    have mark : ∀ k, k < 32 → ((s.setGrp s.cur.gid (s.me.marked v.act)).me.lane k).mark = marked k := fun k lt => by
      rw [me_setGrp, Group.marked_mark _ _ lt]
    rw [State.retire_mark _ lt, mark l lt]
    refine and_congr_right fun _ => not_congr (and_congr_right fun _ => forall₂_congr fun k lt => ?_)
    rw [mark k lt]
  · by_cases uniform : f.sub = 2#4
    · obtain ⟨t, runs, frame, go, vr, p, flags, u⟩ := exec_vote_uniform_spec may uniform
      exact ⟨t, runs, frame, go, vr, flags, by simp [uniform], by simp [uniform], fun _ => ⟨p, u⟩, by simp [uniform]⟩
    · obtain ⟨t, runs, frame, go, vr, u, flags, p⟩ := exec_vote_predicate_spec may uniform
      refine ⟨t, runs, frame, go, vr, flags, fun sub => ⟨u, ?_⟩, fun sub => ⟨u, ?_⟩, fun sub => absurd sub uniform, fun sub => ⟨u, ?_⟩⟩
      · simp only [voteBit_any _ _ sub] at p
        exact p
      · simp only [voteBit_all _ _ sub] at p
        exact p
      · simp only [voteBit_first _ _ sub] at p
        exact p

end Sys2Proof
end

section
/-!
PROOFS. Instructions that write registers of their group and set sticky flags (R92 to R94), and floating-point operations (R153 to R158).
-/

namespace Sys2Proof.Machine

open Sys2Proof

/-! ### Registers written, sticky flags, and the step -/

/-- Group `h` is `g` but for its registers and the marks of errors in their words. -/
def Group.onlyRegs (g h : Group) : Prop := h = { g with v := h.v, s := h.s, p := h.p, bad := h.bad, weak := h.weak }

namespace Group.onlyRegs

theorem refl (g : Group) : g.onlyRegs g := rfl

theorem trans {g h k : Group} (first : g.onlyRegs h) (second : h.onlyRegs k) : g.onlyRegs k := by
  unfold Group.onlyRegs at *
  rw [first] at second
  exact second

theorem setV (g : Group) (n : Nat) (m : Word) (x : Nat → Word) : g.onlyRegs (g.setV n m x) := rfl
theorem setP (g : Group) (n : Nat) (m : Word) (x : Nat → Half) : g.onlyRegs (g.setP n m x) := rfl
theorem setU (g : Group) (n : Nat) (x : Word) : g.onlyRegs (g.setU n x) := rfl

theorem setRegs (g : Group) (d : Nat) (m : Word) (x : Nat → List Word) (n : Nat) : g.onlyRegs (g.setRegs d m x n) := by
  induction n with
  | zero => exact refl g
  | succ n ih => exact ih.trans (setV _ _ _ _)

/-- A uniform register written by the present issue, where some lane is active. -/
theorem writeU (s : State) (f : Fields) (n : Nat) (x : Word) : s.me.onlyRegs (if (s.view f).any then s.writeU n x else s).me := by
  split
  · rcases writeU_eq s n x with e | ⟨-, e⟩
    · rw [e, me_setGrp]
      split
      · exact refl _
      · exact setU _ _ _
    · rw [e]
      exact refl _
  · exact refl _

variable {g h : Group} (regs : g.onlyRegs h)
include regs

theorem rest : h.rest = g.rest := by rw [regs]; rfl
theorem lanes : h.lanes = g.lanes := by rw [regs]
theorem csr : h.csr = g.csr := by rw [regs]
theorem firstRecord (rank src pc : Nat) (evs : List Ev) : Sys2Proof.firstRecord h rank src pc evs = Sys2Proof.firstRecord g rank src pc evs := by
  rw [regs]; rfl

end Group.onlyRegs

/-- What an instruction leaves that changes registers of its group alone, sets sticky flags, and steps. -/
theorem laneEvents_retire_spec {s r : State} {g : Group} (me : withMe s r g) (regs : s.me.onlyRegs g) (evs : List Ev) :
    let t := (r.laneEvents evs).retire
    framed s t ∧ steps s t ∧ t.me.v = g.v ∧ t.me.s = g.s ∧ t.me.p = g.p ∧ events s t evs := by
  intro t
  obtain ⟨rest, v, u, p, lanes, fstat, ffirst⟩ := recordRanked_spec g s.portHere 0 s.cur.pc evs
  obtain ⟨frame, go, tv, tu, tp, tc⟩ :=
    withMe_retireTo (laneEvents_spec me evs) (fun _ => none) (rest.trans regs.rest) (lanes.trans regs.lanes)
  refine ⟨frame, go, tv.trans v, tu.trans u, tp.trans p, ?_, ?_⟩
  · rw [← regs.csr, ← fstat]
    exact congrArg Csrs.fstat tc
  · rw [← regs.firstRecord, ← ffirst]
    exact congrArg Csrs.ffirst tc

/-- No event: the sticky flags stand. -/
theorem events_nil {s t : State} (flags : sameFlags s t) : events s t [] := by
  obtain ⟨all, first⟩ := allFlags_zero [] nofun
  rw [events, all, first, flags.1, flags.2]
  simp

/-- What an instruction leaves that writes a vector register and sets sticky flags. -/
theorem writeV_laneEvents_spec (s : State) (n : Nat) (m : Word) (x : Nat → Word) (evs : List Ev) :
    let t := ((s.writeV n m x).laneEvents evs).retire
    framed s t ∧ steps s t ∧ sameU s t ∧ sameP s t ∧ events s t evs ∧ writesV s t n m x := by
  intro t
  obtain ⟨frame, go, v, u, p, flags⟩ := laneEvents_retire_spec (withMe_setGrp s (s.me.setV n m x)) (.setV _ _ _ _) evs
  exact ⟨frame, go, sameU_of u rfl, sameP_of p rfl, flags, fun k l lt => (vr_of v k l).trans (vr_setV _ _ _ _ _ lt)⟩

/-- What an instruction leaves that writes a predicate register and sets sticky flags. -/
theorem writeP_laneEvents_spec (s : State) (n : Nat) (m : Word) (x : Nat → Half) (evs : List Ev) :
    let t := ((s.writeP n m x).laneEvents evs).retire
    framed s t ∧ steps s t ∧ sameV s t ∧ sameU s t ∧ writesP s t n m x ∧ events s t evs := by
  intro t
  obtain ⟨frame, go, v, u, p, flags⟩ := laneEvents_retire_spec (withMe_setGrp s (s.me.setP n m x)) (.setP _ _ _ _) evs
  exact ⟨frame, go, sameV_of v rfl, sameU_of u rfl, fun k l lt => (pr_of p k l).trans (pr_setP _ _ _ _ _ lt), flags⟩

/-- What an instruction leaves that writes a uniform register and sets sticky flags, both where some lane is active. -/
theorem writeU_laneEvents_spec (s : State) (f : Fields) (n : Nat) (x : Word) (evs : List Ev) (none : (s.view f).act = 0#32 → evs = []) :
    let t := (if (s.view f).any then (s.writeU n x).laneEvents evs else s).retire
    framed s t ∧ steps s t ∧ sameV s t ∧ sameP s t ∧ writesU s t f n x ∧ events s t evs := by
  intro t
  by_cases any : (s.view f).any = true
  · obtain ⟨g, me, -, -, v, p, -, u⟩ := s.writeU_withMe f n x
    have regs := Group.onlyRegs.writeU s f n x
    rw [me.1] at regs
    rw [if_pos any] at me
    obtain ⟨frame, go, tv, tu, tp, flags⟩ := laneEvents_retire_spec me regs evs
    simp only [t, if_pos any]
    exact ⟨frame, go, sameV_of tv v, sameP_of tp p, fun k => (ur_of tu k).trans (u k), flags⟩
  · have act : (s.view f).act = 0#32 := by simpa [View.any] using any
    obtain ⟨frame, go, v, u, p, flags⟩ := retire_onlySteps s
    simp only [t, if_neg any, none act]
    exact ⟨frame, go, v, p, fun k => by rw [u k, act]; simp, events_nil flags⟩

/-! ### Results of floating-point instructions -/

/-- A floating-point instruction leaves its bits and its flags (R154). -/
theorem fpCompute_computed {i : Instr} {f : Fields} {s : State} (r : View → Nat → FRes) (h : Sys2Proof.free i f s = true) :
    ∃ t, fpCompute i f s r = .next t
      ∧ computed i f s t (fun l => BitVec.ofNat 32 (r (s.view f) l).x) (fun l => (r (s.view f) l).fl) :=
  compute_computed _ _ h

/-- An instruction of the table of R155 to R158 is the operation of its rule on the sources. -/
theorem exec_of_floatRule {i : Instr} {f : Fields} {r : FVal → FVal → FVal → FRes} (s : State) (h : floatRule i = some (f, r)) :
    exec i s = fpOp i f s r := by
  cases i with
  | fadd g | fsub g | fmul g | ffma g | fdiv g | frnd g | frcp g | frsq g | fexp2 g | flog2 g => cases h; rfl
  | _ => cases h

end Sys2Proof.Machine

namespace Sys2Proof

open Sys2Proof.Machine

/-- Settles O7: by the rule's row, and what a floating-point instruction leaves. -/
theorem floatOperationsWriteTheRoundedResult : Obligations.FloatOperationsWriteTheRoundedResult := by
  unfold Obligations.FloatOperationsWriteTheRoundedResult
  intro i f r s rule may
  rw [exec_of_floatRule s rule]
  exact fpCompute_computed _ may

end Sys2Proof
end

section
/-!
PROOFS. Minima, conversions and packings of halves (R157, R161, R162), and the narrow blocks (R163 to R166).
-/

namespace Sys2Proof.Machine

open Sys2Proof

/-- An instruction of the table of R157, R161, R162 and R166 is the one that writes its rule's result. -/
theorem exec_of_convertRule {i : Instr} {f : Fields} {r : View → Nat → FRes} (s : State) (h : convertRule i = some (f, r)) :
    exec i s = fpCompute i f s r := by
  cases i with
  | fmin g | fmax g | fcvt g | hpack g | hunpack g | nbunpack g => cases h; rfl
  | _ => cases h

theorem blockEvents_of_no_lanes {f : Fields} {v : View} (h : v.act = 0#32) : blockEvents f v = [] := by
  rw [blockEvents, h, lanesOf_zero, List.map_nil]

theorem exec_nbscale_spec {f : Fields} {s : State} (h : Sys2Proof.free (.nbscale f) f s = true) :
    ∃ t, exec (.nbscale f) s = .next t ∧ framed s t ∧ steps s t ∧ sameV s t ∧ sameP s t
      ∧ writesU s t f f.d.toNat (BitVec.ofNat 32 (nbScaleWord (mkLanes (blockElem f (s.view f))))) ∧ events s t (blockEvents f (s.view f)) := by
  rw [exec_nbscale, execNbscale, onceOnly, issued_runs _ h]
  exact ⟨_, rfl, writeU_laneEvents_spec s f _ _ _ blockEvents_of_no_lanes⟩

theorem exec_nbpack_spec {f : Fields} {s : State} (h : Sys2Proof.free (.nbpack f) f s = true) :
    ∃ t, exec (.nbpack f) s = .next t ∧ framed s t ∧ steps s t ∧ sameU s t ∧ sameP s t ∧ events s t (blockEvents f (s.view f))
      ∧ writesV s t f.d.toNat (s.view f).act fun l =>
          if l < nbWords f.tyN then BitVec.ofNat 32 (packImage f (s.view f) / 2 ^ (32 * l)) else 0#32 := by
  rw [exec_nbpack, execNbpack, issued_runs _ h]
  exact ⟨_, rfl, writeV_laneEvents_spec s _ _ _ _⟩

end Sys2Proof.Machine

namespace Sys2Proof

open Sys2Proof.Machine

/-- Settles O8: by the rule's row for the results of lanes, and the block that `nbscale` and `nbpack` take from the active lanes. -/
theorem conversionsAndNarrowBlocks : Obligations.ConversionsAndNarrowBlocks := by
  unfold Obligations.ConversionsAndNarrowBlocks
  refine ⟨fun i f r s rule may => ?_, fun f s => ⟨exec_nbscale_spec, exec_nbpack_spec⟩⟩
  rw [exec_of_convertRule s rule]
  exact fpCompute_computed r may

end Sys2Proof
end

section
/-!
PROOFS. Compares and classes of floating-point values (R159, R160).
-/

namespace Sys2Proof.Machine

open Sys2Proof

/-! ### `fcmp` -/

theorem toNat_eq_ite_fNV (b : Bool) : b.toNat = if b then fNV else 0 := by cases b <;> rfl

/-- `fcmp` writes a predicate and never executes uniformly: each active lane has its own event. -/
theorem laneEvs_fcmp (f : Fields) (v : View) (fl : Nat → Nat) : laneEvs (.fcmp f) v fl = (lanesOf v.act).map fun l => ⟨l, fl l⟩ := rfl

theorem exec_fcmp_spec {f : Fields} {s : State} (h : Sys2Proof.free (.fcmp f) f s = true) :
    let a := fun l => fpVal f ((s.view f).a f l)
    let b := fun l => fpVal f ((s.view f).b f l)
    ∃ t, exec (.fcmp f) s = .next t ∧ framed s t ∧ steps s t ∧ sameV s t ∧ sameU s t
      ∧ writesP s t f.d.toNat (s.view f).act (fun l => boolHalf (fpRelation f.sub.toNat (a l) (b l)))
      ∧ events s t ((lanesOf (s.view f).act).map fun l => ⟨l, if fpRelationNv f.sub.toNat (a l) (b l) then fNV else 0⟩) := by
  intro a b
  rw [exec_fcmp, execFcmp, issued_runs _ h]
  simp only [laneEvs_fcmp, toNat_eq_ite_fNV]
  exact ⟨_, rfl, writeP_laneEvents_spec s _ _ _ _⟩

/-! ### `fclass` -/

/-- The highest bit of a fraction, which is a NaN's quiet bit, is clear in the lower half of its values. -/
theorem bit_top_eq_false_iff {x n : Nat} (h : x < 2 ^ n) (pos : x ≠ 0) : bit x (n - 1) = false ↔ x < 2 ^ (n - 1) := by
  cases n with
  | zero => exact absurd (Nat.lt_one_iff.mp h) pos
  | succ n =>
    have two : x / 2 ^ n < 2 := Nat.div_lt_of_lt_mul (by rwa [← pow_succ])
    rw [bit_eq_testBit, Nat.add_sub_cancel, Nat.testBit_eq_decide_div_mod_eq, decide_eq_false_iff_not,
      ← Nat.div_eq_zero_iff_lt (by positivity)]
    generalize x / 2 ^ n = top at two ⊢
    omega

/-- The word of `fclass` has the one bit of the class: the cases of R160 are those of a format's exponent field, fraction and sign. -/
theorem classify_eq_two_pow (f : Fmt) (x : Nat) : f.classify x = 2 ^ classRule f x := by
  have neg : bit x (f.eb + f.fb) = decide (x / 2 ^ (f.eb + f.fb) % 2 = 1) := by
    rw [bit, Nat.shiftRight_eq_div_pow, beq_eq_decide]
  have frac : x % 2 ^ f.fb < 2 ^ f.fb := Nat.mod_lt _ (by positivity)
  unfold Fmt.classify classRule Fmt.val
  rw [neg]
  generalize x / 2 ^ f.fb % 2 ^ f.eb = e
  generalize x % 2 ^ f.fb = m at frac ⊢
  generalize x / 2 ^ (f.eb + f.fb) % 2 = sign
  dsimp only
  by_cases top : e = 2 ^ f.eb - 1
  · rw [if_pos top, if_pos top]
    by_cases zero : m = 0
    · rw [if_pos zero, if_pos zero]
      by_cases n : sign = 1 <;> simp [n]
    · rw [if_neg zero, if_neg zero]
      by_cases quiet : m < 2 ^ (f.fb - 1)
      · simp [quiet, (bit_top_eq_false_iff frac zero).mpr quiet]
      · simp [quiet, mt (bit_top_eq_false_iff frac zero).mp quiet]
  · rw [if_neg top, if_neg top]
    by_cases sub : e = 0
    · rw [if_pos sub, if_pos sub]
      by_cases zero : m = 0 <;> by_cases n : sign = 1 <;> simp [zero, n, frac]
    · rw [if_neg sub, if_neg sub]
      by_cases n : sign = 1 <;> simp [n]

theorem ofNat_two_pow (k : Nat) : BitVec.ofNat 32 (2 ^ k) = BitVec.twoPow 32 k := by
  apply BitVec.eq_of_toNat_eq
  rw [BitVec.toNat_ofNat, BitVec.toNat_twoPow]

theorem exec_fclass_computed {f : Fields} {s : State} (h : Sys2Proof.free (.fclass f) f s = true) :
    ∃ t, exec (.fclass f) s = .next t ∧ computed (.fclass f) f s t
      (fun l => BitVec.twoPow 32 (classRule (fmtOf f.tyN) (fpBits f ((s.view f).a f l)))) (fun _ => 0) := by
  rw [exec_fclass, execFclass]
  simp only [classify_eq_two_pow, ofNat_two_pow]
  exact computeQuiet_computed _ h

end Sys2Proof.Machine

namespace Sys2Proof

open Sys2Proof.Machine

/-- Settles O9: the relation and NV of `fcmp` lane by lane, and the class by the fields of a format's bits. -/
theorem floatComparesAndClasses : Obligations.FloatComparesAndClasses := by
  unfold Obligations.FloatComparesAndClasses
  exact fun f s => ⟨exec_fcmp_spec, exec_fclass_computed⟩

end Sys2Proof
end

section
/-!
PROOFS. The lane instructions that write a register range: `lmv` (R168), `rnd` (R171) and `pvt` (R342).
-/

namespace Sys2Proof.Machine

open Sys2Proof

/-! ### Register ranges -/

/-- Vector registers `d` to `d + n − 1` have the words `x l` in each lane `l` of `m`; every other word is as before. -/
def writesRange (s t : State) (d n : Nat) (m : Word) (x : Nat → Nat → Word) : Prop :=
  ∀ r l, l < 32 → t.me.vr r l = if d ≤ r ∧ r < d + n ∧ m.getLsbD l then x l (r - d) else s.me.vr r l

theorem vr_setRegs (g : Group) (d : Nat) (m : Word) (x : Nat → List Word) (n r : Nat) {l : Nat} (h : l < 32) :
    (g.setRegs d m x n).vr r l = if d ≤ r ∧ r < d + n ∧ m.getLsbD l then nth 0#32 (x l) (r - d) else g.vr r l := by
  induction n with
  | zero => rw [if_neg (by omega)]; rfl
  | succ n ih =>
    rw [Group.setRegs, vr_setV _ _ _ _ _ h, ih]
    by_cases last : r = d + n
    · subst last
      simp
    · rw [if_neg fun k => last k.1]
      have bound : r < d + n ↔ r < d + (n + 1) := by omega
      simp only [bound]

theorem setRegs_s (g : Group) (d : Nat) (m : Word) (x : Nat → List Word) (n : Nat) : (g.setRegs d m x n).s = g.s := by
  induction n with
  | zero => rfl
  | succ n ih => exact ih

theorem setRegs_p (g : Group) (d : Nat) (m : Word) (x : Nat → List Word) (n : Nat) : (g.setRegs d m x n).p = g.p := by
  induction n with
  | zero => rfl
  | succ n ih => exact ih

theorem writesRange_of_setRegs {s t : State} {d n : Nat} {m : Word} {x : Nat → List Word} {y : Nat → Nat → Word}
    (v : t.me.v = (s.me.setRegs d m x n).v) (words : ∀ l i, i < n → nth 0#32 (x l) i = y l i) : writesRange s t d n m y := by
  intro r l lt
  rw [vr_of v, vr_setRegs _ _ _ _ _ _ lt]
  split
  next inside => exact words l _ (by omega)
  next => rfl

/-- What an instruction leaves that writes a range of registers in its active lanes. -/
theorem setRegs_retire_spec (s : State) (d n : Nat) (m : Word) {x : Nat → List Word} {y : Nat → Nat → Word}
    (words : ∀ l i, i < n → nth 0#32 (x l) i = y l i) :
    let t := (s.setGrp s.cur.gid (s.me.setRegs d m x n)).retire
    framed s t ∧ steps s t ∧ sameU s t ∧ sameP s t ∧ sameFlags s t ∧ writesRange s t d n m y := by
  intro t
  have regs := Group.onlyRegs.setRegs s.me d m x n
  obtain ⟨frame, go, v, u, p, csr⟩ := withMe_retireTo (withMe_setGrp s (s.me.setRegs d m x n)) (fun _ => none) regs.rest regs.lanes
  exact ⟨frame, go, sameU_of u (setRegs_s _ _ _ _ _), sameP_of p (setRegs_p _ _ _ _ _),
    ⟨congrArg Csrs.fstat (csr.trans regs.csr), congrArg Csrs.ffirst (csr.trans regs.csr)⟩, writesRange_of_setRegs v words⟩

/-- The same of one that sets sticky flags. -/
theorem setRegs_laneEvents_spec (s : State) (d n : Nat) (m : Word) {x : Nat → List Word} {y : Nat → Nat → Word} (evs : List Ev)
    (words : ∀ l i, i < n → nth 0#32 (x l) i = y l i) :
    let t := ((s.setGrp s.cur.gid (s.me.setRegs d m x n)).laneEvents evs).retire
    framed s t ∧ steps s t ∧ sameU s t ∧ sameP s t ∧ events s t evs ∧ writesRange s t d n m y := by
  intro t
  obtain ⟨frame, go, v, u, p, flags⟩ := laneEvents_retire_spec (withMe_setGrp s (s.me.setRegs d m x n)) (.setRegs _ _ _ _ _) evs
  exact ⟨frame, go, sameU_of u (setRegs_s _ _ _ _ _), sameP_of p (setRegs_p _ _ _ _ _), flags, writesRange_of_setRegs v words⟩

/-! ### The words of a lane -/

/-- Element `i` of a list built over the numbers below `n`. -/
theorem nth_map_upto {α : Type} (d : α) (g : Nat → α) {n i : Nat} (h : i < n) : nth d ((upto n).map g) i = g i := by
  rw [nth_map d 0 _ _ _ (by simpa using h), upto, nth_rangeFrom, if_pos h, Nat.zero_add]

/-- Result `i` of `lmv` is row `i` of the matrix times the lane's vector. -/
theorem lmvWord_eq (f : Fields) (s : State) (v : View) (l : Nat) {i : Nat} (h : i < lmvN f) :
    nth 0#32 ((lmvLane f (lmvMatrix f s) v l).map fun r => BitVec.ofNat 32 r.x) i
      = BitVec.ofNat 32 (fp32.finish false (fp32.dot f.rm (((upto (lmvN f)).map fun j => lmvWeight f s i j).zip
          ((upto (lmvN f)).map fun j => fp32.val (v.g.vr (f.a.toNat + j) l).toNat)))).x := by
  rw [lmvLane, lmvMatrix, List.map_map, List.map_map, nth_map_upto _ _ h]
  rfl

/-- Word `i` of the four of a Philox counter. -/
def philoxWord (r : Nat × Nat × Nat × Nat) (i : Nat) : Nat := match i with | 0 => r.1 | 1 => r.2.1 | 2 => r.2.2.1 | _ => r.2.2.2

/-- The counter of lane `l`, which `rnd` reads from four registers. -/
def rndCounter (f : Fields) (v : View) (l : Nat) : Nat × Nat × Nat × Nat :=
  let c := fun n => (v.reg f.ua (f.a.toNat + n) l).toNat
  (c 0, c 1, c 2, c 3)

/-- The words of `rnd` are the four of the lane's counter after its rounds. -/
theorem rndWord_eq (f : Fields) (key : Nat) (v : View) (l : Nat) {i : Nat} (h : i < 4) :
    nth 0#32 (rndLane f key v l) i
      = BitVec.ofNat 32 (philoxWord (philox 10 (key % 2 ^ 32) (key / 2 ^ 32) (rndCounter f v l)) i) := by
  match i, h with
  | 0, _ | 1, _ | 2, _ | 3, _ => rfl

/-- The words of `pvt`: the counting lanes below the lane, and all of them. -/
theorem pvtWord_eq (f : Fields) (v : View) (l : Nat) {i : Nat} (h : i < 2) :
    nth 0#32 (pvtLane f v l) i = BitVec.ofNat 32 ((lanesOf v.act).countP fun k => pvtCounts f v k && (i == 1 || k < l)) := by
  match i, h with
  | 0, _ =>
    simp only [pvtLane, nth, List.filter_filter, List.countP_eq_length_filter]
    simp [Bool.and_comm]
  | 1, _ => simp [pvtLane, nth, List.countP_eq_length_filter]

/-! ### The three instructions -/

theorem exec_lmv_spec {f : Fields} {s : State} (h : Sys2Proof.free (.lmv f) f s = true) :
    let v := s.view f
    ∃ t, exec (.lmv f) s = .next t ∧ framed s.choicesMade t ∧ steps s t ∧ sameU s t ∧ sameP s t
      ∧ events s t ((lanesOf v.act).map fun l => ⟨l, (lmvLane f (lmvMatrix f s) v l).foldl (fun m r => m ||| r.fl) 0⟩)
      ∧ writesRange s t f.d.toNat (lmvN f) v.act fun l i => BitVec.ofNat 32 (fp32.finish false (fp32.dot f.rm
          (((upto (lmvN f)).map fun j => lmvWeight f s i j).zip
            ((upto (lmvN f)).map fun j => fp32.val (v.g.vr (f.a.toNat + j) l).toNat)))).x := by
  intro v
  rw [exec_lmv, execLmv, issued_runs _ h]
  exact ⟨_, rfl, setRegs_laneEvents_spec s.choicesMade _ _ _ _ fun l i lt => lmvWord_eq f s v l lt⟩

theorem exec_rnd_spec {f : Fields} {s : State} (h : Sys2Proof.free (.rnd f) f s = true) :
    let v := s.view f
    let key := (s.ctxOf s.me.team).rkey.toNat
    ∃ t, exec (.rnd f) s = .next t ∧ framed s t ∧ steps s t ∧ sameU s t ∧ sameP s t ∧ sameFlags s t
      ∧ writesRange s t f.d.toNat 4 v.act fun l i =>
          BitVec.ofNat 32 (philoxWord (philox 10 (key % 2 ^ 32) (key / 2 ^ 32) (rndCounter f v l)) i) := by
  intro v key
  rw [exec_rnd, execRnd, issued_runs _ h]
  exact ⟨_, rfl, setRegs_retire_spec s _ _ _ fun l i lt => rndWord_eq f key v l lt⟩

theorem exec_pvt_spec {f : Fields} {s : State} (h : Sys2Proof.free (.pvt f) f s = true) :
    let v := s.view f
    ∃ t, exec (.pvt f) s = .next t ∧ framed s t ∧ steps s t ∧ sameU s t ∧ sameP s t ∧ sameFlags s t
      ∧ writesRange s t f.d.toNat 2 v.act fun l i =>
          BitVec.ofNat 32 ((lanesOf v.act).countP fun k => pvtCounts f v k && (i == 1 || k < l)) := by
  intro v
  rw [exec_pvt, execPvt, issued_runs _ h]
  exact ⟨_, rfl, setRegs_retire_spec s _ _ _ fun l i lt => pvtWord_eq f v l lt⟩

end Sys2Proof.Machine

namespace Sys2Proof

open Sys2Proof.Machine

/-- Settles O10: each instruction by the words that its lanes' lists hold, and what writing a range leaves. -/
theorem registerRangesOfLaneComputations : Obligations.RegisterRangesOfLaneComputations := by
  unfold Obligations.RegisterRangesOfLaneComputations
  exact fun f s => ⟨exec_lmv_spec, exec_rnd_spec, exec_pvt_spec⟩

end Sys2Proof
end

section
/-!
PROOFS. The predicate instructions (R196, R197) and `cmp` (R138).
-/

namespace Sys2Proof.Machine

open Sys2Proof

/-! ### Predicates written in active lanes -/

theorem boolHalf_cases (b : Bool) : boolHalf b = 1#16 ∨ boolHalf b = 0#16 := by cases b <;> simp [boolHalf]

theorem boolHalf_eq_one {b : Bool} : boolHalf b = 1#16 ↔ b = true := by cases b <;> simp [boolHalf]

theorem ofNat_two_pow_half (k : Nat) : BitVec.ofNat 16 (2 ^ k) = BitVec.twoPow 16 k := by
  apply BitVec.eq_of_toNat_eq
  rw [BitVec.toNat_ofNat, BitVec.toNat_twoPow]

/-- A predicate instruction is the one that writes its predicate in each active lane. -/
theorem exec_of_predRule {i : Instr} {f : Fields} {x : View → Nat → Half} (s : State) (h : predRule i = some (f, x)) :
    exec i s = predicateOnly i f s x := by
  cases i with
  | pand g | por g | pxor g | pnot g | pmov g => cases h; rfl
  | pset g => cases h; simp only [exec_pset, execPset, BitVec.ofNat_toNat]
  | pbit g =>
    cases h
    simp only [exec_pbit, execPbit, ← ofNat_two_pow_half]
    rfl
  | _ => cases h

/-! ### Compares -/

theorem relation_iff (sub : Nat) (a b : Int) : relation sub a b = true ↔ cmpRule sub a b := by
  match sub with
  | 0 | 1 | 2 | 3 | 4 | _ + 5 => simp [relation, cmpRule]

/-- `cmp` writes whether the relation of its values holds. -/
theorem exec_cmp_spec {f : Fields} {s : State} (h : Sys2Proof.free (.cmp f) f s = true) :
    ∃ t, exec (.cmp f) s = .next t ∧ framed s t ∧ steps s t ∧ sameV s t ∧ sameU s t ∧ sameFlags s t
      ∧ writesP s t f.d.toNat (s.view f).act fun l =>
        boolHalf (relation f.sub.toNat (intVal f.tyN ((s.view f).a f l)) (intVal f.tyN ((s.view f).b f l))) :=
  predicateOnly_spec (fun v l => boolHalf (relation f.sub.toNat (intVal f.tyN (v.a f l)) (intVal f.tyN (v.b f l)))) h

/-! ### Votes -/

theorem votesYes_iff {f : Fields} {s : State} {l : Nat} :
    votesYes f (s.view f) l = true ↔ (s.view f).act.getLsbD l = true ∧ (s.me.pr f.a.toNat l).getLsbD 0 = true := by
  rw [votesYes, Bool.and_eq_true, view_g]

/-- The forms of a vote to a predicate, by the lanes that vote yes. -/
theorem voteBit_any_iff {f : Fields} {v : View} {l : Nat} (sub : f.sub = 0#4) : voteBit f v l = true ↔ ∃ k, votesYes f v k = true := by
  rw [voteBit_any v l sub, List.any_eq_true]
  refine exists_congr fun k => ⟨And.right, fun yes => ⟨List.mem_range.mpr ?_, yes⟩⟩
  rw [votesYes, Bool.and_eq_true] at yes
  exact BitVec.lt_of_getLsbD yes.1

theorem voteBit_all_iff {f : Fields} {v : View} {l : Nat} (sub : f.sub = 1#4) :
    voteBit f v l = true ↔ ∀ k, v.act.getLsbD k = true → votesYes f v k = true := by
  simp only [voteBit_all v l sub, List.all_eq_true, mem_lanesOf]

theorem voteBit_first_iff {f : Fields} {v : View} {l : Nat} (sub : f.sub = 3#4) :
    voteBit f v l = true ↔ votesYes f v l = true ∧ ∀ k, k < l → ¬votesYes f v k = true := by
  simp only [voteBit_first v l sub, Bool.and_eq_true, List.all_eq_true, List.mem_range, Bool.not_eq_true', Bool.not_eq_true]

end Sys2Proof.Machine

namespace Sys2Proof

open Sys2Proof.Machine

/-- Settles O6: by the rule's row for the predicate instructions, the relation of `cmp`, and the lanes that vote yes. -/
theorem predicatesAndCompares : Obligations.PredicatesAndCompares := by
  unfold Obligations.PredicatesAndCompares
  refine ⟨fun i f x s rule may => ?_, fun f s may => ?_, ?_⟩
  · rw [exec_of_predRule s rule]
    exact predicateOnly_spec x may
  · obtain ⟨t, runs, frame, go, v, u, flags, p⟩ := exec_cmp_spec may
    exact ⟨t, _, runs, frame, go, v, u, flags, p, fun l =>
      ⟨fun holds => if_pos ((relation_iff _ _ _).mpr holds), fun fails => if_neg fun e => fails ((relation_iff _ _ _).mp e)⟩⟩
  · intro f s may yes
    have voted : ∀ k, yes k ↔ votesYes f (s.view f) k = true := fun k => votesYes_iff.symm
    simp only [voted]
    by_cases uniform : f.sub = 2#4
    · obtain ⟨t, runs, frame, go, v, p, flags, u⟩ := exec_vote_uniform_spec may uniform
      exact ⟨t, runs, frame, go, v, flags, fun other => absurd uniform other, fun _ => ⟨p, _, u, fun l => by rw [voters_bit]⟩⟩
    · obtain ⟨t, runs, frame, go, v, u, flags, p⟩ := exec_vote_predicate_spec may uniform
      refine ⟨t, runs, frame, go, v, flags, fun _ => ⟨u, _, p, fun l _ => ⟨boolHalf_cases _, ?_⟩⟩, fun sub => absurd sub uniform⟩
      simp only [boolHalf_eq_one]
      exact ⟨voteBit_any_iff, voteBit_all_iff, voteBit_first_iff⟩

end Sys2Proof
end

section
/-!
PROOFS. The issue of a team operation by lanes (R177 to R179): what it reads, and its place in the order of its team.
-/

namespace Sys2Proof.Machine

open Sys2Proof

/-! ### What the issue of an operation reads (R179) -/

/-- An operation with operands, translations and a tensor entry read, and else as it was. -/
def TeamOp.ReadAs (o p : TeamOp) : Prop := p = { o with args := p.args, pages := p.pages, tensor := p.tensor }

theorem storeCheck_eq (x : Team) (o : TeamOp) : storeCheck x o =
    if o.policy < 2 || !o.storing then .ok o
    else if x.order.any fun p => opsConflict p.i o.i then .wait
    else if (upto (opRows o.i)).any fun n => o.inside n && x.rowPoison o.i n then .bad 0x11 0 0
    else .ok o := rfl

theorem storeCheck_ok {x : Team} {o p : TeamOp} (h : storeCheck x o = .ok p) : p = o := by
  rw [storeCheck_eq] at h
  split at h
  · exact (Prep.ok.inj h).symm
  · split at h
    · cases h
    · split at h
      · cases h
      · exact (Prep.ok.inj h).symm

theorem transferCheck_ok {who : Issuer} {kind : Kind} {plain : Bool} {x : Team} {o p : TeamOp}
    (h : transferCheck who kind plain x o = .ok p) : p = { o with pages := p.pages } := by
  unfold transferCheck at h
  dsimp only at h
  split at h
  · split at h <;> cases h
  · split at h
    · cases h
    · rw [storeCheck_ok h]

theorem tensorPrep_ok {s : State} {who : Issuer} {f : Fields} {fmt : Nat} {kind : Kind} {o p : TeamOp}
    (h : tensorPrep s who f fmt kind o = .ok p) : o.ReadAs p := by
  unfold tensorPrep at h
  split at h
  next found =>
    unfold tensorWords at found
    dsimp only at found
    subst h
    split at found
    · cases found
    · split at found <;> cases found
  · split at h
    · cases h
    · split at h
      · cases h
      · rw [TeamOp.ReadAs, transferCheck_ok h]

theorem imagePrep_ok {s : State} {who : Issuer} {f : Fields} {o p : TeamOp} (h : imagePrep s who f o = .ok p) : o.ReadAs p := by
  unfold imagePrep at h
  dsimp only at h
  split at h
  · cases h
  · split at h
    · cases h
    · split at h
      · cases h
      · cases h; rfl

/-- The issue of an operation fills in what it reads and no more. -/
theorem prepare_ok {s : State} {who : Issuer} {i : Instr} {o p : TeamOp} (h : prepare s who i o = .ok p) : o.ReadAs p := by
  cases i with
  | mma f =>
    by_cases image : f.sub = 1#4
    · exact imagePrep_ok ((if_pos image).symm.trans h)
    · cases (if_neg image).symm.trans h; rfl
  | tld f | tsv f => exact tensorPrep_ok h
  | accLd f | accSt f =>
    simp only [prepare] at h
    split at h
    · exact tensorPrep_ok h
    · split at h
      · cases h
      · rw [TeamOp.ReadAs, transferCheck_ok h]
  | tpois f => cases h; rfl
  | _ => cases h; rfl

/-! ### The order of a team (R178) -/

/-- The tensor entries that a die keeps are all that the issue of an operation changes before it joins its order (R298). -/
theorem State.keepTensor_eq (s : State) (who : Issuer) (i : Instr) (o : TeamOp) :
    s.keepTensor who i o = { s with ctxs := (s.keepTensor who i o).ctxs, fresh := (s.keepTensor who i o).fresh } := by
  unfold State.keepTensor
  split
  · unfold State.keepEntry
    dsimp only
    split <;> rfl
  · rfl

theorem State.keepTensor_none (s : State) (who : Issuer) (i : Instr) {o : TeamOp} (h : o.tensor = none) : s.keepTensor who i o = s := by
  rw [State.keepTensor, h]

/-- The flag that an operation of the present issue sets. -/
def State.opFlag (s : State) (i : Instr) (f : Fields) : Option Nat := if isLong i then s.flagHere f else none

theorem opHere_flags (s : State) (i : Instr) (f : Fields) (src : Src) :
    (opHere s i f src).flags = (s.opFlag i f).toList.map fun k => (s.cur.gid, k) := by
  unfold opHere State.opFlag
  dsimp only
  split
  · cases s.flagHere f <;> rfl
  · rfl

/-- A group whose flag `k` counts one more. -/
def Group.flagUp (g : Group) (k : Option Nat) : Group := { g with flags := countUp k g.flags }

/-- The flag that an operation sets counts up, and nothing else changes. -/
theorem State.flagsUp_one (s : State) (g : Nat) (k : Option Nat) : let t := s.flagsUp (k.toList.map fun n => (g, n))
    t = { s with groups := t.groups } ∧ t.grp g = (s.grp g).flagUp k ∧ ∀ h, h ≠ g → t.grp h = s.grp h := by
  cases k with
  | none => exact ⟨rfl, rfl, fun _ _ => rfl⟩
  | some n => exact ⟨rfl, State.grp_setGrp _ _ _, fun h other => State.grp_setGrp_ne _ _ other⟩

/-- What is left where an operation has joined an order: the team, and the flag that it set. -/
structure Joins (u t : State) (team g : Nat) (k : Option Nat) (o : TeamOp) : Prop where
  eq : t = { u with groups := t.groups, teams := t.teams, seqno := u.seqno + 1 }
  order : t.team team = { u.team team with order := insertOp { o with id := u.seqno } (u.team team).order }
  others : ∀ x, x ≠ team → t.team x = u.team x
  group : t.grp g = (u.grp g).flagUp k

theorem State.enterOrder_joins (u : State) (team g : Nat) {k : Option Nat} {o : TeamOp} (flags : o.flags = k.toList.map fun n => (g, n)) :
    Joins u (u.enterOrder team o) team g k o := by
  obtain ⟨eq, group, -⟩ := u.flagsUp_one g k
  unfold State.enterOrder
  rw [← flags] at eq group
  generalize u.flagsUp o.flags = w at eq group ⊢
  have teams : ∀ x, w.team x = u.team x := fun x => by rw [eq]; rfl
  have seqno : w.seqno = u.seqno := by rw [eq]
  refine ⟨?_, ?_, fun x other => ?_, group⟩
  · dsimp only
    rw [State.setTeam, eq]
  · refine (State.team_setTeam w team _).trans ?_
    rw [teams, seqno]
  · exact (State.team_setTeam_ne w _ other).trans (teams x)

/-- An operation of the present issue that has read its operands joins the order of its team, and the lanes step. -/
theorem joined_of_read {s u : State} {i : Instr} {f : Fields} {o : TeamOp} (kept : u = { s with ctxs := u.ctxs, fresh := u.fresh })
    (read : (opHere s i f (.lanes (s.view f).act)).ReadAs o) : joined s (u.enterOrder s.me.team o).retire i f o := by
  have flags : o.flags = (s.opFlag i f).toList.map fun k => (s.cur.gid, k) := by rw [read, ← opHere_flags s i f (.lanes (s.view f).act)]
  obtain ⟨eq, team, others, group⟩ := u.enterOrder_joins s.me.team s.cur.gid flags
  generalize u.enterOrder s.me.team o = w at eq team others group ⊢
  have cur : w.cur = s.cur := by rw [eq, kept]
  have mem : w.mem = s.mem := by rw [eq, kept]
  have teams : ∀ x, u.team x = s.team x := fun x => by rw [kept]; rfl
  have seqno : u.seqno = s.seqno := by rw [kept]
  have me : w.me = s.me.flagUp (s.opFlag i f) := by rw [me_of_cur cur, group, kept]; rfl
  have after := retire_steppedFrom w
  obtain ⟨go, quiet⟩ := retire_after (s := s) cur mem (by rw [me]; rfl) (by rw [me]; rfl)
  refine ⟨go, quiet, ?_, fun x other => ?_, ?_, by rw [read]; rfl, by rw [read]; rfl, by rw [read]; rfl, by rw [read]; rfl, by rw [read]; rfl⟩
  · rw [after.team, team, teams, seqno]
  · rw [after.team, others x other, teams]
  · rw [show w.retire.me.flags = w.me.flags from (congrArg Group.flags after.rest :), me, Group.flagUp, State.opFlag]
    cases isLong i <;> rfl

/-! ### The issue by lanes (R177) -/

theorem exec_of_isTeamOp {i : Instr} {f : Fields} (s : State) (team : isTeamOp i = true) (fields : fieldsOf i = some f) :
    exec i s = teamOp i f s := by
  cases i with
  | mma | tld | tsv | tzero | tpois | accLd | accSt | accZero | rowMax | rowSum | rowExp | rowScale | rowAdd | rowCvt => cases fields; rfl
  | _ => cases team

/-- A team operation whose operands its issue reads joins the order of its team, and the lanes step. -/
theorem teamOp_enters {i : Instr} {f : Fields} {o : TeamOp} {s : State} (h : Sys2Proof.free i f s = true) (act : (s.view f).act ≠ 0#32)
    (found : prepare s (laneIssuer s (s.view f)) i (opHere s i f (.lanes (s.view f).act)) = .ok o) :
    teamOp i f s = .next ((s.keepTensor (laneIssuer s (s.view f)) i o).enterOrder s.me.team o).retire := by
  have lanes := (runs_split h).1
  have go := runs_of_free (chk := fun v l => (prepare s (laneIssuer s v) i (opHere s i f (.lanes v.act))).check s l) h
    fun l _ => by rw [found]; rfl
  unfold teamOp
  split
  next src => simp [ofLanes, src] at lanes
  · rw [issuedChk_runs _ go, (any_iff s f).mpr act]
    simp only [found, Bool.not_true, Bool.false_eq_true, if_false]
    rfl

/-- A short team operation without an active lane only steps. -/
theorem teamOp_idle {i : Instr} {f : Fields} {s : State} (h : Sys2Proof.free i f s = true) (short : isLong i = false)
    (none' : (s.view f).act = 0#32) : teamOp i f s = .next s.retire := by
  have lanes := (runs_split h).1
  have any : (s.view f).any = false := by rw [View.any, none', bne_self_eq_false]
  have go := runs_of_free (chk := fun v l => (prepare s (laneIssuer s v) i (opHere s i f (.lanes v.act))).check s l) h
    fun l active => by simp [none'] at active
  unfold teamOp
  split
  next src => simp [ofLanes, src] at lanes
  · rw [issuedChk_runs _ go]
    simp only [any, short, Bool.not_false, Bool.false_eq_true, if_false, if_true]

theorem teamOp_joined {i : Instr} {f : Fields} {o : TeamOp} {s : State} (h : Sys2Proof.free i f s = true) (act : (s.view f).act ≠ 0#32)
    (found : prepare s (laneIssuer s (s.view f)) i (opHere s i f (.lanes (s.view f).act)) = .ok o) :
    ∃ t, teamOp i f s = .next t ∧ joined s t i f o :=
  ⟨_, teamOp_enters h act found, joined_of_read (s.keepTensor_eq _ i o) (prepare_ok found)⟩

theorem State.ctxs_enterOrder_retire (u : State) (team g : Nat) {k : Option Nat} {o : TeamOp} (flags : o.flags = k.toList.map fun n => (g, n)) :
    (u.enterOrder team o).retire.ctxs = u.ctxs := by
  rw [(retire_steppedFrom _).only.1, (u.enterOrder_joins team g flags).eq]

/-- A team operation that reads nothing at its issue joins as it stands, and the contexts are as before. -/
theorem teamOp_joined_unread {i : Instr} {f : Fields} {s : State} (h : Sys2Proof.free i f s = true) (act : (s.view f).act ≠ 0#32)
    (found : prepare s (laneIssuer s (s.view f)) i (opHere s i f (.lanes (s.view f).act)) = .ok (opHere s i f (.lanes (s.view f).act))) :
    ∃ t, teamOp i f s = .next t ∧ joined s t i f (opHere s i f (.lanes (s.view f).act)) ∧ t.ctxs = s.ctxs := by
  have run := teamOp_enters h act found
  rw [State.keepTensor_none _ _ _ rfl] at run
  exact ⟨_, run, joined_of_read rfl rfl, s.ctxs_enterOrder_retire _ _ (opHere_flags s i f _)⟩

/-! ### `acc.rd` and `mmask` (R190, R192) -/

theorem exec_accRd_joined {f : Fields} {s : State} (h : Sys2Proof.free (.accRd f) f s = true) (act : (s.view f).act ≠ 0#32) :
    let o := opHere s (.accRd f) f (.lanes (s.view f).act)
    ∃ t, exec (.accRd f) s = .next t ∧ joined s t (.accRd f) f o ∧ t.ctxs = s.ctxs := by
  intro o
  have run : exec (.accRd f) s = .next (s.enterOrder s.me.team o).retire := by
    rw [exec_accRd, execAccRd, issued_runs _ h, if_pos ((any_iff s f).mpr act), view_g]
  exact ⟨_, run, joined_of_read rfl rfl, s.ctxs_enterOrder_retire _ _ (opHere_flags s (.accRd f) f _)⟩

/-- The operation of a `mmask`, with the bits of each lane's predicate. -/
def State.mmaskOp (s : State) (f : Fields) : TeamOp :=
  { opHere s (.mmask f) f (.lanes (s.view f).act) with args := mkLanes (mmaskBits f (s.view f)) }

theorem exec_mmask_joined {f : Fields} {s : State} (h : Sys2Proof.free (.mmask f) f s = true) (act : (s.view f).act ≠ 0#32) :
    ∃ t, exec (.mmask f) s = .next t ∧ joined s t (.mmask f) f (s.mmaskOp f) := by
  have run : exec (.mmask f) s = .next (s.enterOrder s.me.team (s.mmaskOp f)).retire := by
    rw [exec_mmask, execMmask, issued_runs _ h, if_pos ((any_iff s f).mpr act)]
    rfl
  exact ⟨_, run, joined_of_read rfl rfl⟩

theorem exec_mmask_idle {f : Fields} {s : State} (h : Sys2Proof.free (.mmask f) f s = true) (none' : (s.view f).act = 0#32) :
    exec (.mmask f) s = .next s.retire := by
  rw [exec_mmask, execMmask, issued_runs _ h, View.any, none', bne_self_eq_false]
  exact congrArg _ (if_neg Bool.false_ne_true)

end Sys2Proof.Machine

namespace Sys2Proof

open Sys2Proof.Machine

/-- Settles O29: what the issue of an operation fills in, and what joining the order of a team leaves. -/
theorem teamOperationsJoinTheOrder : Obligations.TeamOperationsJoinTheOrder := by
  unfold Obligations.TeamOperationsJoinTheOrder
  refine ⟨?_, ?_, ?_, ?_, ?_⟩
  · intro i f s o which may act
    rcases which with ⟨rfl, registers⟩ | rfl | rfl | rfl | rfl | rfl | rfl | rfl | rfl | rfl
    · exact teamOp_joined_unread may act (if_neg registers)
    iterate 8 · exact teamOp_joined_unread may act rfl
    · exact exec_accRd_joined may act
  · intro f s v may act
    obtain ⟨t, run, joins⟩ := teamOp_joined may act rfl
    exact ⟨t, _, run, joins, rfl⟩
  · intro f s v may act
    obtain ⟨t, run, joins⟩ := exec_mmask_joined may act
    exact ⟨t, _, run, joins, fun l lt => nth_mkLanes 0 _ lt⟩
  · intro i f o s which may act found
    rcases which with rfl | rfl | rfl | rfl | rfl
    iterate 5 · exact teamOp_joined may act found
  · intro i f s which short fields may none'
    obtain ⟨frame, go, v, u, p, flags⟩ := retire_onlySteps s
    refine ⟨s.retire, ?_, frame, go, v, u, p, flags, frame.2.1⟩
    rcases which with team | rfl
    · rw [exec_of_isTeamOp s team fields, teamOp_idle may short none']
    · cases fields
      exact exec_mmask_idle may none'

end Sys2Proof
end

section
/-!
PROOFS. What the effect of an operation of a team's order leaves: its events and errors, the words that it corrects (R175), and its place in
the order (R178).
-/

namespace Sys2Proof.Machine

open Sys2Proof

/-! ### Events and errors -/

/-- Records and logs of groups and cores may have changed, and no completion flag. -/
structure Recorded (s t : State) : Prop where
  eq : t = { s with groups := t.groups, cores := t.cores }
  flags : ∀ g, (t.grp g).flags = (s.grp g).flags

namespace Recorded

theorem refl (s : State) : Recorded s s := ⟨rfl, fun _ => rfl⟩

theorem trans {s t u : State} (a : Recorded s t) (b : Recorded t u) : Recorded s u :=
  ⟨by rw [b.eq, a.eq], fun g => (b.flags g).trans (a.flags g)⟩

theorem setGrp {s : State} {g : Nat} {h : Group} (flags : h.flags = (s.grp g).flags) : Recorded s (s.setGrp g h) := by
  refine ⟨rfl, fun k => ?_⟩
  by_cases same : k = g
  · rw [same, State.grp_setGrp, flags]
  · rw [State.grp_setGrp_ne _ _ same]

theorem setCore (s : State) (c : Nat) (x : CoreSt) : Recorded s (s.setCore c x) := ⟨rfl, fun _ => rfl⟩

theorem team {s t : State} (h : Recorded s t) (k : Nat) : t.team k = s.team k := by rw [h.eq]; rfl

theorem mem {s t : State} (h : Recorded s t) : t.mem = s.mem := by rw [h.eq]

end Recorded

theorem State.opEvents_recorded (s : State) (o : TeamOp) (evs : List Ev) : Recorded s (s.opEvents o evs) := by
  unfold State.opEvents
  extract_lets evs g
  split
  · exact .setGrp (congrArg Group.flags (recordRanked_spec g _ _ _ evs).1 :)
  · exact .refl s

theorem State.logError_recorded (s : State) (gid rank pc : Nat) (e : Contained) : Recorded s (s.logError gid rank pc e) := by
  unfold State.logError
  dsimp only
  split
  · exact .setGrp rfl
  · exact .setCore s _ _

theorem State.opError_recorded (s : State) (o : TeamOp) (e : Option Contained) : Recorded s (s.opError o e) := by
  cases e with
  | none => exact .refl s
  | some e => exact s.logError_recorded _ _ _ e

theorem State.countCorrected_recorded (s : State) (core n : Nat) : Recorded s (s.countCorrected core n) := by
  unfold State.countCorrected
  dsimp only
  split
  · exact .refl s
  · exact .setCore s _ _

/-! ### The frame of an effect -/

/-- A team without its tiles, accumulator rows and mask rows. -/
def Team.unworked (x : Team) : Team := { x with tiles := [], acc := [], mb := [] }

/-- No team but one has changed, this one in tiles, accumulator rows and mask rows at most, and no completion flag. -/
structure TakesEffect (team : Nat) (s t : State) : Prop where
  own : (t.team team).unworked = (s.team team).unworked
  others : ∀ u, u ≠ team → t.team u = s.team u
  flags : ∀ g, (t.grp g).flags = (s.grp g).flags

namespace TakesEffect

theorem trans {team : Nat} {s t u : State} (a : TakesEffect team s t) (b : TakesEffect team t u) : TakesEffect team s u :=
  ⟨b.own.trans a.own, fun x n => (b.others x n).trans (a.others x n), fun g => (b.flags g).trans (a.flags g)⟩

/-- What leaves the teams and the completion flags is part of any effect. -/
theorem of_teams {team : Nat} {s t : State} (teams : t.teams = s.teams) (flags : ∀ g, (t.grp g).flags = (s.grp g).flags) :
    TakesEffect team s t := by
  have same : ∀ u, t.team u = s.team u := fun u => by rw [State.team, teams]; rfl
  exact ⟨by rw [same], fun u _ => same u, flags⟩

theorem of_recorded {team : Nat} {s t : State} (h : Recorded s t) : TakesEffect team s t := .of_teams (by rw [h.eq]) h.flags

theorem setTeam {team : Nat} {s : State} {y : Team} (own : y.unworked = (s.team team).unworked) : TakesEffect team s (s.setTeam team y) :=
  ⟨by rw [State.team_setTeam, own], fun _ n => State.team_setTeam_ne _ _ n, fun _ => rfl⟩

end TakesEffect

/-! ### Words that an operation corrects (R175) -/

/-- A tile in which the words that an operation reads are corrected, and an accumulator row. -/
def Tile.corrected (y : Tile) (u : Nat × (Nat → Nat → Bool)) : Tile :=
  { y with ce := y.ce.filter (!(y.ce.filter (elemRead u)).contains ·), ceS := y.ceS.filter (!(y.ceS.filter (scaleRead u)).contains ·) }

def AccRow.corrected (y : AccRow) (used : Nat → Bool) : AccRow := { y with ce := y.ce.filter (!(y.ce.filter used).contains ·) }

/-- A team's tiles and rows after the corrections of an operation. -/
def Team.corrected (x : Team) (o : TeamOp) : Team :=
  { x with tiles := x.tiles.map fun e => (e.1, e.2.corrected (tileUse x o e.1))
           acc := x.acc.map fun e => (e.1, e.2.corrected (accUse x o e.1)) }

theorem State.correctOp_cases (s : State) (t : Nat) (o : TeamOp) :
    s.correctOp t o = s ∨ ∃ n, s.correctOp t o = (s.setTeam t ((s.team t).corrected o)).countCorrected (coreOf t) n := by
  unfold State.correctOp
  dsimp only
  split
  · exact .inl rfl
  · exact .inr ⟨_, rfl⟩

theorem Tile.corrected_unread (y : Tile) {u : Nat × (Nat → Nat → Bool)} (h : ∀ i k, u.2 i k = false) : y.corrected u = y := by
  have elem : ∀ w, elemRead u w = false := fun w => by simp [elemRead, h]
  have scale : ∀ w, scaleRead u w = false := fun w => by simp [scaleRead, h]
  simp [Tile.corrected, elem, scale]

theorem AccRow.corrected_unread (y : AccRow) {used : Nat → Bool} (h : ∀ c, used c = false) : y.corrected used = y := by
  simp [AccRow.corrected, h]

theorem Tab.find_map {α : Type} (t : Tab α) (g : Nat → α → α) (n : Nat) :
    Tab.find (t.map fun e => (e.1, g e.1 e.2)) n = (Tab.find t n).map (g n) := by
  induction t with
  | nil => rfl
  | cons e t ih =>
    simp only [List.map_cons, Tab.find]
    split
    next same => rw [same]; rfl
    next => exact ih

theorem Tab.get_map {α : Type} (d : α) (t : Tab α) (g : Nat → α → α) (n : Nat) (h : g n d = d) :
    Tab.get d (t.map fun e => (e.1, g e.1 e.2)) n = g n (Tab.get d t n) := by
  rw [Tab.get, Tab.get, Tab.find_map]
  cases Tab.find t n with
  | none => exact h.symm
  | some x => rfl

theorem Team.row_corrected (x : Team) (o : TeamOp) (r : Nat) : (x.corrected o).row r = (x.row r).corrected (accUse x o r) :=
  Tab.get_map ({} : AccRow) x.acc (fun n y => y.corrected (accUse x o n)) r rfl

theorem Team.tile_corrected (x : Team) (o : TeamOp) (n : Nat) : (x.corrected o).tile n = (x.tile n).corrected (tileUse x o n) :=
  Tab.get_map ({} : Tile) x.tiles (fun n y => y.corrected (tileUse x o n)) n rfl

/-- An operation that reads no tile leaves the tiles as they were, and one that reads no row the rows. -/
theorem Team.corrected_tiles {x : Team} {o : TeamOp} (h : ∀ n i k, (tileUse x o n).2 i k = false) : (x.corrected o).tiles = x.tiles := by
  simp only [Team.corrected, fun (e : Nat × Tile) => e.2.corrected_unread (h e.1), List.map_id']

theorem Team.corrected_acc {x : Team} {o : TeamOp} (h : ∀ r c, accUse x o r c = false) : (x.corrected o).acc = x.acc := by
  simp only [Team.corrected, fun (e : Nat × AccRow) => e.2.corrected_unread (h e.1), List.map_id']

/-- What the corrections of an operation leave of its team: the values of all words, and what it does not read. -/
structure Corrects (x y : Team) (o : TeamOp) : Prop where
  rest : y = { x with tiles := y.tiles, acc := y.acc }
  row : ∀ r, (y.row r).plain = (x.row r).plain
  tile : ∀ n, (y.tile n).plain = (x.tile n).plain
  tiles : (∀ n i k, (tileUse x o n).2 i k = false) → y.tiles = x.tiles
  acc : (∀ r c, accUse x o r c = false) → y.acc = x.acc

theorem Corrects.refl (x : Team) (o : TeamOp) : Corrects x x o := ⟨rfl, fun _ => rfl, fun _ => rfl, fun _ => rfl, fun _ => rfl⟩

theorem Team.corrected_corrects (x : Team) (o : TeamOp) : Corrects x (x.corrected o) o :=
  ⟨rfl, fun r => by rw [x.row_corrected]; rfl, fun n => by rw [x.tile_corrected]; rfl, Team.corrected_tiles, Team.corrected_acc⟩

theorem State.correctOp_spec (s : State) (team : Nat) (o : TeamOp) : let t := s.correctOp team o
    t = { s with groups := t.groups, teams := t.teams, cores := t.cores } ∧ TakesEffect team s t ∧ Corrects (s.team team) (t.team team) o := by
  intro t
  rcases s.correctOp_cases team o with e | ⟨n, e⟩
  · rw [show t = s from e]
    exact ⟨rfl, .of_recorded (.refl s), .refl _ o⟩
  · have counted : Recorded (s.setTeam team ((s.team team).corrected o)) t := by
      rw [show t = _ from e]
      exact State.countCorrected_recorded _ _ _
    have own : t.team team = (s.team team).corrected o := (counted.team team).trans (State.team_setTeam _ _ _)
    refine ⟨?_, (TakesEffect.setTeam (y := (s.team team).corrected o) rfl).trans (.of_recorded counted),
      by rw [own]; exact Team.corrected_corrects _ o⟩
    rw [counted.eq]
    rfl

/-! ### Start and end (R178) -/

theorem State.flagsDown_eq (s : State) (fl : List (Nat × Nat)) : s.flagsDown fl = { s with groups := (s.flagsDown fl).groups } :=
  List.foldlRecOn (motive := fun t : State => t = { s with groups := t.groups }) fl _ rfl fun _ e _ _ => by rw [e]; rfl

/-- An operation that leaves the order of its team: the order is without it, and its flag counts down. -/
theorem State.leaveOrder_spec (u : State) (team : Nat) (o : TeamOp) : let t := u.leaveOrder team o
    t = { u with groups := t.groups, teams := t.teams }
      ∧ t.team team = { u.team team with order := (u.team team).order.filter (·.id != o.id) }
      ∧ (∀ x, x ≠ team → t.team x = u.team x)
      ∧ (o.flags = [] → ∀ g, (t.grp g).flags = (u.grp g).flags)
      ∧ ∀ g n, o.flags = [(g, n)] → (t.grp g).flags = countDown (some n) (u.grp g).flags := by
  intro t
  let w := u.setTeam team { u.team team with order := (u.team team).order.filter (·.id != o.id) }
  have eq : t = { w with groups := t.groups } := w.flagsDown_eq o.flags
  have teams : ∀ x, t.team x = w.team x := fun x => by rw [eq]; rfl
  refine ⟨by rw [eq]; rfl, ?_, fun x other => ?_, fun none' g => ?_, fun g n one => ?_⟩
  · rw [teams, State.team_setTeam]
  · rw [teams, State.team_setTeam_ne _ _ other]
  · rw [show t = w.flagsDown o.flags from rfl, none']
    rfl
  · rw [show t = w.flagsDown o.flags from rfl, one]
    exact congrArg Group.flags (State.grp_setGrp _ _ _)

/-- An operation whose effect is confined to its team is finished when it has left the order. -/
theorem TakesEffect.finished {team : Nat} {o : TeamOp} {s u : State} (h : TakesEffect team s u) : finished s (u.leaveOrder team o) team o := by
  obtain ⟨-, own, others, quiet, down⟩ := u.leaveOrder_spec team o
  have order : (u.team team).order = (s.team team).order := (congrArg Team.order h.own :)
  refine ⟨by rw [own, order], fun x n => (others x n).trans (h.others x n), fun none' g => (quiet none' g).trans (h.flags g), fun g n one => ?_⟩
  rw [down g n one, h.flags]

/-- An operation of an order, where it is the long-latency operation `o` that runs from now on. -/
def State.started (s : State) (o p : TeamOp) : TeamOp :=
  if p.id == o.id then { p with started := true, due := (s.dueAt o.gid (opLeast s o)).1, dueNs := (s.dueAt o.gid (opLeast s o)).2 } else p

/-- Operation `o` stands at place `k` of its team's order, has not started, and may start. -/
structure MayStart (s : State) (team k : Nat) (o : TeamOp) : Prop where
  found : (s.team team).order[k]? = some o
  fresh : o.started = false
  may : canStart s team o ((s.team team).order.take k) = true

namespace MayStart

variable {s : State} {team k : Nat} {o : TeamOp}

theorem exec_short (h : MayStart s team k o) (short : isLong o.i = false) :
    exec (.teamOpStart team k) s = .next ((s.applyOp team o).leaveOrder team o) := by
  simp only [exec_teamOpStart, execTeamOpStart, h.found, h.fresh, h.may, short, Bool.not_true, Bool.or_self, Bool.false_eq_true, if_false]

theorem exec_long (h : MayStart s team k o) (long : isLong o.i = true) :
    exec (.teamOpStart team k) s = .next (s.setTeam team { s.team team with order := (s.team team).order.map (s.started o) }) := by
  simp only [exec_teamOpStart, execTeamOpStart, h.found, h.fresh, h.may, long, Bool.not_true, Bool.or_self, Bool.false_eq_true, if_false, if_true]
  rfl

end MayStart

/-- A short operation that has started and left its order, with the tiles, rows and mask rows of `y`. -/
structure Worked (s t : State) (team k : Nat) (o : TeamOp) (y : Team) : Prop where
  starts : exec (.teamOpStart team k) s = .next t ∧ finished s t team o
  mem : t.mem = s.mem
  spad : (t.team team).spad = (s.team team).spad
  tiles : (t.team team).tiles = y.tiles
  acc : (t.team team).acc = y.acc
  mb : (t.team team).mb = y.mb

theorem Worked.row {s t : State} {team k : Nat} {o : TeamOp} {y : Team} (h : Worked s t team k o y) (r : Nat) : (t.team team).row r = y.row r := by
  rw [Team.row, h.acc]; rfl

theorem Worked.tile {s t : State} {team k : Nat} {o : TeamOp} {y : Team} (h : Worked s t team k o y) (n : Nat) :
    (t.team team).tile n = y.tile n := by
  rw [Team.tile, h.tiles]; rfl

/-- The team of an operation once its words have been corrected. -/
def State.opTeam (s : State) (team : Nat) (o : TeamOp) : Team := (s.correctOp team o).team team

theorem State.opTeam_corrects (s : State) (team : Nat) (o : TeamOp) : Corrects (s.team team) (s.opTeam team o) o := (s.correctOp_spec team o).2.2

/-- A short operation that, after its corrections, makes its team `y` and records events and errors. -/
theorem MayStart.worked {s : State} {team k : Nat} {o : TeamOp} {y : Team} (h : MayStart s team k o) (short : isLong o.i = false)
    (rest : y.unworked = (s.opTeam team o).unworked) (effect : Recorded ((s.correctOp team o).setTeam team y) (s.applyOp team o)) :
    ∃ t, Worked s t team k o y := by
  obtain ⟨eq, corrected, -⟩ := s.correctOp_spec team o
  have takes : TakesEffect team s (s.applyOp team o) := (corrected.trans (.setTeam rest)).trans (.of_recorded effect)
  obtain ⟨left, own, -⟩ := (s.applyOp team o).leaveOrder_spec team o
  rw [effect.team, State.team_setTeam] at own
  refine ⟨_, ⟨h.exec_short short, takes.finished⟩, ?_, ?_, by rw [own], by rw [own], by rw [own]⟩
  · rw [left, effect.mem, State.setTeam_mem, eq]
  · rw [own]
    exact (congrArg Team.spad (rest.trans corrected.own) :)

end Sys2Proof.Machine
end

section
/-!
PROOFS. What the short operations of a team's order make of tiles, accumulator rows and mask rows (R188, R191, R192, R194, R195).
-/

namespace Sys2Proof.Machine

open Sys2Proof

/-! ### Rows written -/

/-- Rows put over a range of numbers. -/
theorem Team.row_putRows (x : Team) (d : Nat) (g : Nat → AccRow) (a n r : Nat) :
    (x.putRows ((rangeFrom a n).map fun i => (d + i, g i))).row r = if d + a ≤ r ∧ r < d + a + n then g (r - d) else x.row r := by
  induction n generalizing a x with
  | zero => exact (if_neg (by omega)).symm
  | succ n ih =>
    have step : x.putRows ((rangeFrom a (n + 1)).map fun i => (d + i, g i))
      = (x.putRows [(d + a, g a)]).putRows ((rangeFrom (a + 1) n).map fun i => (d + i, g i)) := rfl
    have one : (x.putRows [(d + a, g a)]).row r = if r = d + a then g a else x.row r := by
      by_cases here : r = d + a
      · rw [if_pos here, here]; exact Tab.get_set _ _ _ _
      · rw [if_neg here]; exact Tab.get_set_ne _ _ _ here
    rw [step, ih, one]
    by_cases here : r = d + a
    · rw [if_neg (by omega), if_pos here, if_pos (by omega), show r - d = a by omega]
    · rw [if_neg here]
      exact if_congr (by omega) rfl rfl

theorem Team.row_putRows_upto (x : Team) (d n : Nat) (g : Nat → AccRow) (r : Nat) :
    (x.putRows ((upto n).map fun i => (d + i, g i))).row r = if d ≤ r ∧ r < d + n then g (r - d) else x.row r :=
  x.row_putRows d g 0 n r

/-- What a row holds where no single-bit error counts: its elements, and its poison. -/
theorem AccRow.all_of_plain {r q : AccRow} (h : r.plain = q.plain) : r.all = q.all := (congrArg AccRow.all h :)
theorem AccRow.at_of_plain {r q : AccRow} (h : r.plain = q.plain) (c : Nat) : r.at c = q.at c := (congrArg (AccRow.at · c) h :)
theorem AccRow.pois_of_plain {r q : AccRow} (h : r.plain = q.plain) : r.pois = q.pois := (congrArg AccRow.pois h :)

/-! ### Operations that read nothing (R188, R191, R192) -/

section

variable {s : State} {team k : Nat} {o : TeamOp} {f : Fields}

theorem MayStart.tzero (h : MayStart s team k o) (i : o.i = .tzero f) :
    ∃ t, Worked s t team k o { s.opTeam team o with tiles := Tab.set (s.opTeam team o).tiles f.d.toNat {} } :=
  h.worked (by rw [i]; rfl) rfl (by simp only [State.applyOp, i]; exact .refl _)

/-- The row-poison bits that `tpois` leaves. -/
def tpoisTile (y : Tile) (f : Fields) (m : Nat) : Tile :=
  { y with pois := if f.c = 0#8 then y.pois ||| m else y.pois - (y.pois &&& m) }

theorem MayStart.tpois (h : MayStart s team k o) (i : o.i = .tpois f) :
    ∃ t, Worked s t team k o { s.opTeam team o with
      tiles := Tab.set (s.opTeam team o).tiles f.d.toNat (tpoisTile ((s.opTeam team o).tile f.d.toNat) f (nth 0 o.args 0)) } :=
  h.worked (by rw [i]; rfl) rfl (by simp only [State.applyOp, i]; exact .refl _)

theorem MayStart.accZero (h : MayStart s team k o) (i : o.i = .accZero f) :
    ∃ t, Worked s t team k o ((s.opTeam team o).putRows ((rangeFrom f.d.toNat f.b.toNat).map fun r => (r, {}))) :=
  h.worked (by rw [i]; rfl) rfl (by simp only [State.applyOp, i]; exact .refl _)

/-- The mask rows of a team with the bits that one lane of `mmask` writes. -/
def mmaskPut (o : TeamOp) (f : Fields) (mb : Tab DWord) (l : Nat) : Tab DWord :=
  let h := bits f.imm.toNat 2 2
  let q := bits f.imm.toNat 1 0
  Tab.set mb (32 * h + l) (BitVec.ofNat 64 (putBits (Tab.get 0#64 mb (32 * h + l)).toNat (16 * q + 15) (16 * q) (nth 0 o.args l)))

theorem MayStart.mmask (h : MayStart s team k o) (i : o.i = .mmask f) {act : Word} (src : o.src = .lanes act) :
    ∃ t, Worked s t team k o { s.opTeam team o with mb := (lanesOf act).foldl (mmaskPut o f) (s.opTeam team o).mb } :=
  h.worked (by rw [i]; rfl) rfl (by simp only [State.applyOp, i, applyMmask, src]; exact .refl _)

/-- An operation that reads neither tiles nor rows finds its team as it was. -/
theorem State.opTeam_unread (tiles : ∀ n i j, (tileUse (s.team team) o n).2 i j = false) (rows : ∀ r c, accUse (s.team team) o r c = false) :
    s.opTeam team o = s.team team := by
  have corrects := s.opTeam_corrects team o
  rw [corrects.rest, corrects.tiles tiles, corrects.acc rows]

/-- A bit of the mask rows after one lane of `mmask`. -/
theorem mmaskPut_bit (mb : Tab DWord) {l r j : Nat} (lane : l < 32) (col : j < 64) :
    (Tab.get 0#64 (mmaskPut o f mb l) r).getLsbD j = if r / 32 = bits f.imm.toNat 2 2 ∧ r % 32 = l ∧ j / 16 = bits f.imm.toNat 1 0
      then (nth 0 o.args l).testBit (j % 16) else (Tab.get 0#64 mb r).getLsbD j := by
  unfold mmaskPut
  dsimp only
  generalize bits f.imm.toNat 2 2 = h
  generalize bits f.imm.toNat 1 0 = q
  by_cases here : r = 32 * h + l
  · rw [here, Tab.get_set, BitVec.getLsbD_ofNat, decide_eq_true col, Bool.true_and, testBit_putBits _ _ (16 * q) 15]
    by_cases within : j / 16 = q
    · rw [if_pos (by omega), if_pos (by omega), show j - 16 * q = j % 16 by omega]
    · rw [if_neg (by omega), if_neg (by omega)]
      rfl
  · rw [Tab.get_set_ne _ _ _ here, if_neg (by omega)]

/-- A bit of the mask rows after lanes of `mmask`. -/
theorem mmaskPuts_bit (ls : List Nat) (lanes : ∀ l ∈ ls, l < 32) (mb : Tab DWord) {r j : Nat} (col : j < 64) :
    (Tab.get 0#64 (ls.foldl (mmaskPut o f) mb) r).getLsbD j
      = if r / 32 = bits f.imm.toNat 2 2 ∧ r % 32 ∈ ls ∧ j / 16 = bits f.imm.toNat 1 0
        then (nth 0 o.args (r % 32)).testBit (j % 16) else (Tab.get 0#64 mb r).getLsbD j := by
  induction ls generalizing mb with
  | nil => exact (if_neg fun e => List.not_mem_nil e.2.1).symm
  | cons l ls ih =>
    rw [List.foldl_cons, ih (fun m hm => lanes m (List.mem_cons_of_mem _ hm)), mmaskPut_bit mb (lanes l List.mem_cons_self) col]
    by_cases later : r % 32 ∈ ls
    · by_cases field : r / 32 = bits f.imm.toNat 2 2 ∧ j / 16 = bits f.imm.toNat 1 0
      · rw [if_pos ⟨field.1, later, field.2⟩, if_pos ⟨field.1, List.mem_cons_of_mem _ later, field.2⟩]
      · rw [if_neg fun e => field ⟨e.1, e.2.2⟩, if_neg fun e => field ⟨e.1, e.2.2⟩, if_neg fun e => field ⟨e.1, e.2.2⟩]
    · rw [if_neg fun e => later e.2.1]
      by_cases here : r % 32 = l
      · simp [here]
      · simp [here, later]

/-! ### Reductions of rows (R194) -/

/-- The row that `row.max` or `row.sum` leaves: a result for each row read, and beyond them what stood there. -/
def reducedRow (x : Team) (f : Fields) (op : List Word → FRes) : AccRow :=
  let rs := (rangeFrom f.a.toNat f.c.toNat).map fun r => op (x.row r).all
  let old := x.row f.d.toNat
  { e := (upto 64).map fun c => if c < f.c.toNat then BitVec.ofNat 32 (nth ⟨0, 0⟩ rs c).x else nth 0#32 old.e c
    pois := old.pois || (rangeFrom f.a.toNat f.c.toNat).any fun r => (x.row r).pois
    ue := old.ue.filter (f.c.toNat ≤ ·)
    ce := old.ce.filter (f.c.toNat ≤ ·) }

theorem reducedRow_at (x : Team) (f : Fields) (op : List Word → FRes) {c : Nat} (h : c < 64) :
    (reducedRow x f op).at c = if c < f.c.toNat then BitVec.ofNat 32 (op (x.row (f.a.toNat + c)).all).x else (x.row f.d.toNat).at c := by
  have errors : (reducedRow x f op).ue.contains c = (decide (f.c.toNat ≤ c) && (x.row f.d.toNat).ue.contains c) := by
    rw [Bool.eq_iff_iff]
    simp [reducedRow, and_comm]
  rw [AccRow.at, errors]
  simp only [reducedRow, nth_map_upto _ _ h]
  by_cases inside : c < f.c.toNat
  · have read : nth ⟨0, 0⟩ ((rangeFrom f.a.toNat f.c.toNat).map fun r => op (x.row r).all) c = op (x.row (f.a.toNat + c)).all := by
      rw [nth_map _ 0 _ _ _ (by rwa [rangeFrom_length]), nth_rangeFrom, if_pos inside]
    rw [if_pos inside, if_pos inside, read, decide_eq_false (Nat.not_le.mpr inside)]
    rfl
  · rw [if_neg inside, if_neg inside, decide_eq_true (Nat.not_lt.mp inside), Bool.true_and]
    rfl

theorem applyReduce_recorded (s : State) (t : Nat) (o : TeamOp) (f : Fields) (op : List Word → FRes) :
    Recorded (s.setTeam t ((s.team t).putRows [(f.d.toNat, reducedRow (s.team t) f op)])) (applyReduce s t o f op) :=
  (State.opEvents_recorded _ _ _).trans (State.opError_recorded _ _ _)

theorem Team.row_putRows_one (x : Team) (d : Nat) (y : AccRow) (r : Nat) : (x.putRows [(d, y)]).row r = if r = d then y else x.row r := by
  by_cases here : r = d
  · rw [if_pos here, here]; exact Tab.get_set _ _ _ _
  · rw [if_neg here]; exact Tab.get_set_ne _ _ _ here

/-- What a row instruction leaves besides the `n` rows from `d` on: memory, the tiles, and every other row. -/
def OtherRows (s t : State) (team d n : Nat) : Prop :=
  (∀ r, r < d ∨ d + n ≤ r → ((t.team team).row r).plain = ((s.team team).row r).plain) ∧ (t.team team).tiles = (s.team team).tiles

theorem MayStart.reduces (h : MayStart s team k o) (short : isLong o.i = false) {op : List Word → FRes}
    (effect : s.applyOp team o = applyReduce (s.correctOp team o) team o f op) (untiled : ∀ n i j, (tileUse (s.team team) o n).2 i j = false) :
    ∃ t, (exec (.teamOpStart team k) s = .next t ∧ finished s t team o) ∧ t.mem = s.mem ∧ OtherRows s t team f.d.toNat 1
      ∧ ∀ c, c < 64 → ((t.team team).row f.d.toNat).at c = if c < f.c.toNat then
          BitVec.ofNat 32 (op ((s.team team).row (f.a.toNat + c)).all).x else ((s.team team).row f.d.toNat).at c := by
  have corrects := s.opTeam_corrects team o
  obtain ⟨t, worked⟩ := h.worked (y := (s.opTeam team o).putRows [(f.d.toNat, reducedRow (s.opTeam team o) f op)]) short rfl
    (by rw [effect]; exact applyReduce_recorded _ _ _ _ _)
  refine ⟨t, worked.starts, worked.mem, ⟨fun r other => ?_, worked.tiles.trans (corrects.tiles untiled)⟩, fun c lt => ?_⟩
  · rw [worked.row, Team.row_putRows_one, if_neg (by omega), corrects.row]
  · rw [worked.row, Team.row_putRows_one, if_pos rfl, reducedRow_at _ _ _ lt, AccRow.all_of_plain (corrects.row _),
      AccRow.at_of_plain (corrects.row _)]

/-! ### Row instructions that write a row for each row read (R194) -/

/-- The row that such an instruction writes for its row `i`. -/
def eachRow (x : Team) (f : Fields) (op : Nat → List Word → List FRes) (other : Nat → Option Nat) (i : Nat) : AccRow :=
  { e := (op i (x.row (f.a.toNat + i)).all).map fun r => BitVec.ofNat 32 r.x
    pois := (x.row (f.a.toNat + i)).pois || (match (other i).map x.row with | some y => y.pois | none => false) }

theorem applyEach_recorded (s : State) (t : Nat) (o : TeamOp) (f : Fields) (op : Nat → List Word → List FRes) (other : Nat → Option Nat)
    (oneCol : Bool) : Recorded (s.setTeam t ((s.team t).putRows ((upto f.c.toNat).map fun i => (f.d.toNat + i, eachRow (s.team t) f op other i))))
      (applyEach s t o f op other oneCol) := by
  have recorded := fun u : State => fun evs e => (u.opEvents_recorded o evs).trans (State.opError_recorded _ o e)
  unfold applyEach
  dsimp only
  rw [List.map_map]
  exact recorded _ _ _

theorem MayStart.each (h : MayStart s team k o) (short : isLong o.i = false) {op : Nat → List Word → List FRes} {other : Nat → Option Nat}
    {oneCol : Bool} (effect : s.applyOp team o = applyEach (s.correctOp team o) team o f op other oneCol)
    (untiled : ∀ n i j, (tileUse (s.team team) o n).2 i j = false) {res : Nat → Nat → FRes}
    (each : ∀ i, op i ((s.team team).row (f.a.toNat + i)).all = (upto 64).map (res i)) :
    ∃ t, (exec (.teamOpStart team k) s = .next t ∧ finished s t team o) ∧ t.mem = s.mem ∧ OtherRows s t team f.d.toNat f.c.toNat
      ∧ ∀ i c, i < f.c.toNat → c < 64 → ((t.team team).row (f.d.toNat + i)).at c = BitVec.ofNat 32 (res i c).x := by
  have corrects := s.opTeam_corrects team o
  obtain ⟨t, worked⟩ := h.worked (y := (s.opTeam team o).putRows
    ((upto f.c.toNat).map fun i => (f.d.toNat + i, eachRow (s.opTeam team o) f op other i))) short rfl
    (by rw [effect]; exact applyEach_recorded _ _ _ _ _ _ _)
  refine ⟨t, worked.starts, worked.mem, ⟨fun r out => ?_, worked.tiles.trans (corrects.tiles untiled)⟩, fun i c inside lt => ?_⟩
  · rw [worked.row, Team.row_putRows_upto, if_neg (by omega), corrects.row]
  · rw [worked.row, Team.row_putRows_upto, if_pos (by omega), Nat.add_sub_cancel_left]
    have row : (eachRow (s.opTeam team o) f op other i).at c = nth 0#32 (eachRow (s.opTeam team o) f op other i).e c := rfl
    rw [row, eachRow, AccRow.all_of_plain (corrects.row _), each, List.map_map, nth_map_upto _ _ lt]
    rfl

/-- The factor of `row.exp`, and the one of row `j` in `row.scale`. -/
def expFactor (f : Fields) : Nat := if f.len = .l64 then 0x3F800000 else f.imm.toNat
def scaleFactor (x : Team) (f : Fields) (j : Nat) : Nat := if f.len = .l64 then ((x.row f.b.toNat).at j).toNat else f.imm.toNat

theorem MayStart.rowExp (h : MayStart s team k o) (i : o.i = .rowExp f) :
    let x := s.team team
    ∃ t, (exec (.teamOpStart team k) s = .next t ∧ finished s t team o) ∧ t.mem = s.mem ∧ OtherRows s t team f.d.toNat f.c.toNat
      ∧ ∀ i c, i < f.c.toNat → c < 64 → ((t.team team).row (f.d.toNat + i)).at c = BitVec.ofNat 32
          (rowExpElem (expFactor f) ((x.row (f.a.toNat + i)).at c).toNat ((x.row f.b.toNat).at i).toNat).x := by
  refine h.each (op := fun j xs => xs.map fun w => rowExpElem (expFactor f) w.toNat (((s.opTeam team o).row f.b.toNat).at j).toNat)
    (other := fun _ => some f.b.toNat) (oneCol := true) (by rw [i]; rfl) (by simp only [State.applyOp, i]; rfl)
    (fun n a b => by simp only [tileUse, i]) fun j => ?_
  rw [AccRow.at_of_plain ((s.opTeam_corrects team o).row f.b.toNat), AccRow.all, List.map_map]
  rfl

theorem MayStart.rowScale (h : MayStart s team k o) (i : o.i = .rowScale f) :
    let x := s.team team
    ∃ t, (exec (.teamOpStart team k) s = .next t ∧ finished s t team o) ∧ t.mem = s.mem ∧ OtherRows s t team f.d.toNat f.c.toNat
      ∧ ∀ i c, i < f.c.toNat → c < 64 → ((t.team team).row (f.d.toNat + i)).at c = BitVec.ofNat 32
          (fp32.mul 0 (fp32.val ((x.row (f.a.toNat + i)).at c).toNat) (fp32.val (scaleFactor x f i))).x := by
  refine h.each (op := fun j xs => xs.map fun w => fp32.mul 0 (fp32.val w.toNat) (fp32.val (scaleFactor (s.opTeam team o) f j)))
    (other := fun _ => if f.len = .l64 then some f.b.toNat else none) (oneCol := true) (by rw [i]; rfl) (by simp only [State.applyOp, i]; rfl)
    (fun n a b => by simp only [tileUse, i]) fun j => ?_
  rw [scaleFactor, AccRow.at_of_plain ((s.opTeam_corrects team o).row f.b.toNat), AccRow.all, List.map_map]
  rfl

theorem MayStart.rowAdd (h : MayStart s team k o) (i : o.i = .rowAdd f) :
    let x := s.team team
    ∃ t, (exec (.teamOpStart team k) s = .next t ∧ finished s t team o) ∧ t.mem = s.mem ∧ OtherRows s t team f.d.toNat f.c.toNat
      ∧ ∀ i c, i < f.c.toNat → c < 64 → ((t.team team).row (f.d.toNat + i)).at c = BitVec.ofNat 32
          (fp32.add 0 (fp32.val ((x.row (f.a.toNat + i)).at c).toNat) (fp32.val ((x.row (f.b.toNat + i)).at c).toNat)).x := by
  refine h.each (op := fun j xs => (xs.zip ((s.opTeam team o).row (f.b.toNat + j)).all).map fun w =>
      fp32.add 0 (fp32.val w.1.toNat) (fp32.val w.2.toNat))
    (other := fun j => some (f.b.toNat + j)) (oneCol := false) (by rw [i]; rfl) (by simp only [State.applyOp, i]; rfl)
    (fun n a b => by simp only [tileUse, i]) fun j => ?_
  rw [AccRow.all_of_plain ((s.opTeam_corrects team o).row _), AccRow.all, AccRow.all, List.zip_map', List.map_map]
  rfl

/-! ### Cells of a list of bytes, and of lists of one length -/

theorem readCell_cellsFrom (bs : List Byte) (a x : Nat) : readCell (cellsFrom a bs) x = if a ≤ x then nth 0#8 bs (x - a) else 0#8 := by
  induction bs generalizing a with
  | nil => simp [cellsFrom, readCell, nth]
  | cons b bs ih =>
    have rest : ∀ (at' : a ≠ x), (if a + 1 ≤ x then nth 0#8 bs (x - (a + 1)) else 0#8) = if a ≤ x then nth 0#8 (b :: bs) (x - a) else 0#8 := fun at' => by
      by_cases later : a + 1 ≤ x
      · rw [if_pos later, if_pos (by omega), show x - a = (x - (a + 1)) + 1 by omega, nth]
      · rw [if_neg later, if_neg (by omega)]
    rw [cellsFrom]
    by_cases zero : b = 0#8
    · rw [if_pos zero, ih]
      by_cases here : a = x
      · rw [← here, if_neg (by omega), if_pos (Nat.le_refl a), Nat.sub_self, nth, zero]
      · exact rest here
    · rw [if_neg zero, readCell]
      by_cases here : a = x
      · rw [if_pos here, ← here, if_pos (Nat.le_refl a), Nat.sub_self, nth]
      · rw [if_neg here, ← rest here, ih]
        by_cases before : x < a
        · rw [if_pos before, if_neg (by omega)]
        · rw [if_neg before]

theorem nth_append {α : Type} (d : α) (xs ys : List α) (i : Nat) :
    nth d (xs ++ ys) i = if i < xs.length then nth d xs i else nth d ys (i - xs.length) := by
  induction xs generalizing i with
  | nil => simp
  | cons x xs ih =>
    cases i with
    | zero => rfl
    | succ i => simp only [List.cons_append, nth, ih, List.length_cons, Nat.add_lt_add_iff_right, Nat.add_sub_add_right]

/-- Element `j` of part `i` of a list made of parts of `n` elements. -/
theorem nth_flatMap_rangeFrom {α : Type} (d : α) (g : Nat → List α) {n : Nat} (len : ∀ i, (g i).length = n) (a m : Nat) {i j : Nat} (part : i < m)
    (elem : j < n) : nth d ((rangeFrom a m).flatMap g) (n * i + j) = nth d (g (a + i)) j := by
  induction m generalizing a i with
  | zero => exact absurd part (Nat.not_lt_zero i)
  | succ m ih =>
    rw [rangeFrom, List.flatMap_cons, nth_append, len]
    cases i with
    | zero => rw [if_pos (by omega)]; simp
    | succ i =>
      rw [if_neg (by rw [Nat.mul_succ]; omega), show n * (i + 1) + j - n = n * i + j by rw [Nat.mul_succ]; omega, ih (a + 1) (by omega)]
      rw [Nat.add_right_comm, Nat.add_assoc]

theorem nth_flatMap_upto {α : Type} (d : α) (g : Nat → List α) {n m i j : Nat} (len : ∀ i, (g i).length = n) (part : i < m) (elem : j < n) :
    nth d ((upto m).flatMap g) (n * i + j) = nth d (g i) j := by
  rw [upto, nth_flatMap_rangeFrom d g len 0 m part elem, Nat.zero_add]

theorem length_flatMap_upto {α : Type} (g : Nat → List α) {n : Nat} (len : ∀ i, (g i).length = n) (m : Nat) : ((upto m).flatMap g).length = m * n := by
  simp [List.length_flatMap, len]

theorem readCells_eq {m : List Host.Cell} {a : Nat} {bs : List Byte} (h : ∀ j, j < bs.length → readCell m (a + j) = nth 0#8 bs j) :
    readCells m a bs.length = bs := by
  induction bs generalizing a with
  | nil => rfl
  | cons b bs ih =>
    rw [readCells, List.length_cons, rangeFrom, List.map_cons]
    refine congrArg₂ List.cons (h 0 (Nat.zero_lt_succ _)) (ih fun j lt => ?_)
    rw [Nat.add_right_comm, Nat.add_assoc]
    exact h (j + 1) (Nat.succ_lt_succ lt)

/-! ### `row.cvt` (R195) -/

/-- The tile that `row.cvt` makes of 64 rows. -/
def cvtTile (x : Team) (f : Fields) : Tile :=
  let rs := (upto 64).map fun i => cvtRow f.tyN (x.row (f.a.toNat + i)).all
  { elem := cellsFrom 0 (rs.flatMap (·.1))
    scale := ((upto 64).flatMap fun i => (upto (nth ([], [], 0) rs i).2.1.length).map fun b =>
      (2 * i + b, nth 0#32 (nth ([], [], 0) rs i).2.1 b)).foldl (fun m e => Tab.set m e.1 e.2) []
    pois := natOfBits ((upto 64).map fun i => (x.row (f.a.toNat + i)).pois) }

theorem applyRowCvt_recorded (s : State) (t : Nat) (o : TeamOp) (f : Fields) :
    Recorded (s.setTeam t { s.team t with tiles := Tab.set (s.team t).tiles f.d.toNat (cvtTile (s.team t) f) }) (applyRowCvt s t o f) :=
  (State.opEvents_recorded _ _ _).trans (State.opError_recorded _ _ _)

/-- An element of a row as `row.cvt` converts it to FP16 or BF16. -/
def cvtElem (ty : Nat) (w : Word) : FRes := (fmtOf ty).finish false ((fmtOf ty).put 0 (fp32.val w.toNat))

theorem cvtRow_half {ty : Nat} (half : isNb ty = false) (r : AccRow) :
    (cvtRow ty r.all).1 = (upto 64).flatMap fun c => leBytes 2 (cvtElem ty (r.at c)).x := by
  rw [cvtRow, half, AccRow.all, List.map_map]
  exact List.flatMap_map _ _ _

theorem cvtTile_cell (x : Team) {f : Fields} (half : isNb f.tyN = false) {i c j : Nat} (row : i < 64) (col : c < 64) (byte : j < 2) :
    readCell (cvtTile x f).elem (128 * i + 2 * c + j) = nth 0#8 (leBytes 2 (cvtElem f.tyN ((x.row (f.a.toNat + i)).at c)).x) j := by
  have bytes : ∀ r : AccRow, (cvtRow f.tyN r.all).1.length = 128 := fun r => by
    rw [cvtRow_half half, length_flatMap_upto _ (fun _ => leBytes_length 2 _)]
  rw [cvtTile, readCell_cellsFrom, if_pos (Nat.zero_le _), Nat.sub_zero, List.flatMap_map, Nat.add_assoc,
    nth_flatMap_upto _ _ (fun _ => bytes _) row (by omega), cvtRow_half half, nth_flatMap_upto _ _ (fun _ => leBytes_length 2 _) col byte]

/-- What an operation that writes tile `n` leaves: memory, the scratchpad, the rows and every other tile. -/
def OtherTiles (s t : State) (team n : Nat) : Prop :=
  t.mem = s.mem ∧ (t.team team).spad = (s.team team).spad ∧ (∀ r, ((t.team team).row r).plain = ((s.team team).row r).plain)
    ∧ ∀ m, m ≠ n → (t.team team).tile m = (s.team team).tile m

/-- One tile is replaced by an operation that reads none. -/
theorem Worked.tileSet {t : State} {n : Nat} {z : Tile}
    (h : Worked s t team k o { s.opTeam team o with tiles := Tab.set (s.opTeam team o).tiles n z })
    (untiled : ∀ m i j, (tileUse (s.team team) o m).2 i j = false) : OtherTiles s t team n ∧ (t.team team).tile n = z := by
  have corrects := s.opTeam_corrects team o
  refine ⟨⟨h.mem, h.spad, fun r => by rw [h.row]; exact corrects.row r, fun m other => ?_⟩, (h.tile n).trans (Tab.get_set _ _ _ _)⟩
  rw [h.tile, Team.tile, Tab.get_set_ne _ _ _ other, corrects.tiles untiled]
  rfl

theorem MayStart.rowCvt (h : MayStart s team k o) (i : o.i = .rowCvt f) (half : isNb f.tyN = false) :
    ∃ t, (exec (.teamOpStart team k) s = .next t ∧ finished s t team o) ∧ OtherTiles s t team f.d.toNat
      ∧ ∀ i c, i < 64 → c < 64 → readCells ((t.team team).tile f.d.toNat).elem (128 * i + 2 * c) 2
        = leBytes 2 (cvtElem f.tyN (((s.team team).row (f.a.toNat + i)).at c)).x := by
  obtain ⟨t, worked⟩ := h.worked (y := { s.opTeam team o with
    tiles := Tab.set (s.opTeam team o).tiles f.d.toNat (cvtTile (s.opTeam team o) f) }) (by rw [i]; rfl) rfl
    (by simp only [State.applyOp, i]; exact applyRowCvt_recorded _ _ _ _)
  obtain ⟨others, tile⟩ := worked.tileSet fun m a b => by simp only [tileUse, i]
  refine ⟨t, worked.starts, others, fun j c row col => ?_⟩
  rw [tile, ← AccRow.at_of_plain ((s.opTeam_corrects team o).row (f.a.toNat + j)) c]
  refine (congrArg _ (leBytes_length 2 _).symm).trans (readCells_eq fun b byte => cvtTile_cell _ half row col ?_)
  rwa [leBytes_length] at byte

end

end Sys2Proof.Machine
end

section
/-!
PROOFS. What a store of a team's order does to memory where the ticket unit does not hold it: records of lines and bytes written (R180, R187, R189).
-/

namespace Sys2Proof.Machine

open Sys2Proof

/-! ### Records of lines -/

/-- Records and marks of lines, and write filters, may have changed: every line has its owner, and no completion flag counts. -/
structure LinesNoted (s t : State) : Prop where
  eq : t = { s with side := t.side, groups := t.groups }
  own : ∀ key a, ownLine s key a → ownLine t key a
  flags : ∀ g, (t.grp g).flags = (s.grp g).flags

namespace LinesNoted

theorem refl (s : State) : LinesNoted s s := ⟨rfl, fun _ _ => id, fun _ => rfl⟩

theorem trans {s t u : State} (a : LinesNoted s t) (b : LinesNoted t u) : LinesNoted s u :=
  ⟨by rw [b.eq, a.eq], fun k x h => b.own k x (a.own k x h), fun g => (b.flags g).trans (a.flags g)⟩

theorem setGrp {s : State} {g : Nat} {x : Group} (flags : x.flags = (s.grp g).flags) : LinesNoted s (s.setGrp g x) :=
  ⟨rfl, fun _ _ => id, (Recorded.setGrp flags).flags⟩

/-- A side-band word that keeps the line's owner and key. -/
theorem setSide {s : State} {l : Nat} {x : Side} (key : x.key = (s.sideOf l).key) (gen : x.gen = (s.sideOf l).gen) :
    LinesNoted s (s.setSide l x) := by
  refine ⟨rfl, fun k a own => ?_, fun _ => rfl⟩
  obtain ⟨mine, new⟩ := own
  by_cases here : a / 64 = l
  · exact ⟨by rw [here, State.sideOf_setSide, key, ← here, mine], by rw [here, State.sideOf_setSide, gen, ← here, new]; rfl⟩
  · exact ⟨by rw [State.sideOf_setSide_ne _ _ here, mine], by rw [State.sideOf_setSide_ne _ _ here, new]; rfl⟩

theorem mem {s t : State} (h : LinesNoted s t) : t.mem = s.mem := by rw [h.eq]

theorem teams {s t : State} (h : LinesNoted s t) : t.teams = s.teams := by rw [h.eq]

theorem holdsOp {s t : State} (h : LinesNoted s t) (team : Nat) (o : TeamOp) : t.holdsOp team o = s.holdsOp team o := by rw [h.eq]; rfl

theorem ctxOf {s t : State} (h : LinesNoted s t) (team : Nat) : t.ctxOf team = s.ctxOf team := by rw [h.eq]; rfl

/-- Steps that note lines, from each state in which an operation is not held. -/
theorem foldl {α : Type} {f : State → α → State} {team : Nat} {o : TeamOp} (h : ∀ s x, s.holdsOp team o = false → LinesNoted s (f s x)) (xs : List α)
    (s : State) (unheld : s.holdsOp team o = false) : LinesNoted s (xs.foldl f s) :=
  List.foldlRecOn (motive := fun t : State => LinesNoted s t) xs f (.refl s) fun t ht x _ =>
    ht.trans (h t x ((ht.holdsOp team o).trans unheld))

end LinesNoted

theorem State.closeLine_linesNoted (s : State) (l : Nat) : LinesNoted s (s.closeLine l) := by
  unfold State.closeLine
  dsimp only
  split
  · exact .setSide rfl rfl
  · exact .refl s

theorem State.closeOwn_linesNoted (s : State) (gid l : Nat) : LinesNoted s (s.closeOwn gid l) := by
  unfold State.closeOwn
  split
  · exact s.closeLine_linesNoted l
  · exact .refl s

theorem State.closeFilter_linesNoted (s : State) (gid : Nat) : LinesNoted s (s.closeFilter gid) :=
  (List.foldlRecOn (motive := fun t : State => LinesNoted s t) _ _ (.refl s) fun t ht l _ => ht.trans (t.closeOwn_linesNoted gid l)).trans
    (.setGrp rfl)

theorem State.enterFilter_linesNoted (s : State) (gid l : Nat) : LinesNoted s (s.enterFilter gid l) := by
  unfold State.enterFilter
  dsimp only
  split
  · exact .refl s
  · split
    · split
      · exact .setGrp rfl
      · exact (s.closeOwn_linesNoted gid _).trans (.setGrp ((s.closeOwn_linesNoted gid _).flags gid).symm)
    · exact .setGrp rfl

theorem State.openLine_linesNoted (s : State) (gid l : Nat) : LinesNoted s (s.openLine gid l) := by
  unfold State.openLine
  dsimp only
  split
  · exact .refl s
  · split
    · exact .setSide rfl rfl
    · split
      · exact (LinesNoted.setSide (x := { s.sideOf l with opn := true, gid := gid }) rfl rfl).trans (State.enterFilter_linesNoted _ _ _)
      · exact .refl s

theorem State.opRelease_linesNoted (s : State) (o : TeamOp) (f : Fields) : LinesNoted s (s.opRelease o f) := by
  unfold State.opRelease
  split
  · split
    · exact .refl s
    · exact s.closeFilter_linesNoted _
  · exact .refl s

/-- Lines of a poisoned row are marked where no store of the operation is held. -/
theorem State.markRuns_linesNoted {s : State} {team : Nat} {o : TeamOp} (i : Nat) (unheld : s.holdsOp team o = false) :
    LinesNoted s (s.markRuns team o i) := by
  refine .foldl (o := o) (team := team) (fun s r unheld => .foldl (o := o) (team := team) (fun s p unheld => ?_) _ s unheld) _ s unheld
  dsimp only
  rw [unheld]
  split
  · exact .refl s
  · exact .setSide rfl rfl

/-- No byte of memory, no team and no completion flag differs. -/
structure Aftermath (s t : State) : Prop where
  mem : t.mem = s.mem
  teams : t.teams = s.teams
  flags : ∀ g, (t.grp g).flags = (s.grp g).flags

theorem Aftermath.trans {s t u : State} (a : Aftermath s t) (b : Aftermath t u) : Aftermath s u :=
  ⟨b.mem.trans a.mem, b.teams.trans a.teams, fun g => (b.flags g).trans (a.flags g)⟩

theorem Aftermath.of_recorded {s t : State} (h : Recorded s t) : Aftermath s t := ⟨h.mem, by rw [h.eq], h.flags⟩

theorem State.choicesMade_aftermath (s : State) : Aftermath s s.choicesMade := ⟨rfl, rfl, fun _ => rfl⟩

theorem storeEnd_aftermath {s : State} {team : Nat} {o : TeamOp} (x : Team) (id : Nat) (unheld : s.holdsOp team o = false) :
    Aftermath s (storeEnd s team x o id) := by
  unfold storeEnd
  dsimp only
  split
  · have marked := LinesNoted.foldl (team := team) (o := o) (fun s i unheld => s.markRuns_linesNoted i unheld)
      ((upto (opRows o.i)).filter fun i => o.inside i && x.rowPoison o.i i) s unheld
    exact ⟨marked.mem, marked.teams, marked.flags⟩
  · split
    · exact .of_recorded (s.opError_recorded o _)
    · exact ⟨rfl, rfl, fun _ => rfl⟩

/-! ### Bytes written -/

/-- The bytes at which `C` holds are those of `bs`, which lie from `lo` on; memory is else as before. -/
structure Stores (key lo : Nat) (bs : List Byte) (C : Nat → Prop) (s t : State) : Prop where
  eq : t = { s with mem := t.mem, side := t.side, groups := t.groups }
  wf : Memory.wf t.mem = true
  own : ∀ a, ownLine s key a → ownLine t key a
  flags : ∀ g, (t.grp g).flags = (s.grp g).flags
  new : ∀ a, C a → readCell t.mem a = nth 0#8 bs (a - lo)
  old : ∀ a, ¬C a → readCell t.mem a = readCell s.mem a

namespace Stores

variable {key lo : Nat} {bs : List Byte} {C D : Nat → Prop} {s t u : State}

theorem trans (a : Stores key lo bs C s t) (b : Stores key lo bs D t u) : Stores key lo bs (fun x => C x ∨ D x) s u where
  eq := by rw [b.eq, a.eq]
  wf := b.wf
  own x h := b.own x (a.own x h)
  flags g := (b.flags g).trans (a.flags g)
  new x h := by
    by_cases later : D x
    · exact b.new x later
    · exact (b.old x later).trans (a.new x (h.resolve_right later))
  old x h := (b.old x fun d => h (.inr d)).trans (a.old x fun c => h (.inl c))

theorem of_linesNoted (wf : Memory.wf s.mem = true) (h : LinesNoted s t) : Stores key lo bs (fun _ => False) s t where
  eq := by rw [h.eq]
  wf := by rwa [h.mem]
  own := h.own key
  flags := h.flags
  new _ no := no.elim
  old _ _ := by rw [h.mem]

theorem congr (h : Stores key lo bs C s t) (same : ∀ a, C a ↔ D a) : Stores key lo bs D s t :=
  ⟨h.eq, h.wf, h.own, h.flags, fun a d => h.new a ((same a).mpr d), fun a d => h.old a fun c => d ((same a).mp c)⟩

theorem holdsOp (h : Stores key lo bs C s t) (team : Nat) (o : TeamOp) : t.holdsOp team o = s.holdsOp team o := by rw [h.eq]; rfl

theorem ctxOf (h : Stores key lo bs C s t) (team : Nat) : t.ctxOf team = s.ctxOf team := by rw [h.eq]; rfl

theorem teams (h : Stores key lo bs C s t) : t.teams = s.teams := by rw [h.eq]

end Stores

/-- A line of a key stays its own when another write under the key covers it. -/
theorem State.writeLine_own {s : State} {key : Nat} (line pa : Nat) (bs : List Byte) {a : Nat} (own : ownLine s key a) :
    ownLine (s.writeLine key line pa bs) key a := by
  simp only [State.writeLine]
  generalize List.map _ (rangeFrom (64 * line) 64) = bytes
  by_cases here : a / 64 = line
  · rw [ownLine, here, State.sideOf_setSide, sideWritten]
    exact ⟨rfl, rfl⟩
  · rw [ownLine, State.sideOf_setSide_ne _ _ here]
    exact own

theorem State.writeAs_own {s : State} {key : Nat} (pa : Nat) (bs : List Byte) {a : Nat} (own : ownLine s key a) :
    ownLine (s.writeAs key pa bs) key a := by
  unfold State.writeAs
  split
  · exact own
  · exact List.foldlRecOn (motive := fun t : State => ownLine t key a) _ _ own fun t ht l _ => t.writeLine_own l pa bs ht

theorem nth_drop {α : Type} (d : α) (n i : Nat) (xs : List α) : nth d (xs.drop n) i = nth d xs (n + i) := by
  induction n generalizing xs with
  | zero => rw [List.drop_zero, Nat.zero_add]
  | succ n ih =>
    cases xs with
    | nil => rw [List.drop_nil]; cases n + 1 + i <;> cases i <;> rfl
    | cons x xs => rw [List.drop_succ_cons, ih, Nat.add_right_comm]; rfl

/-- A part of `bs` written at its place. -/
theorem State.writeAs_stores {s : State} {key lo q n : Nat} {bs : List Byte} (wf : Memory.wf s.mem = true) (some' : 0 < n)
    (within : q + n ≤ bs.length) (own : ∀ j, j < bs.length → ownLine s key (lo + j)) :
    Stores key lo bs (fun a => lo + q ≤ a ∧ a < lo + q + n) s (s.writeAs key (lo + q) ((bs.drop q).take n)) := by
  have only := s.writeAs_onlyMemory key (lo + q) ((bs.drop q).take n)
  have length : ((bs.drop q).take n).length = n := by rw [List.length_take, List.length_drop]; omega
  have cells := s.readCell_writeAs_own key (lo + q) ((bs.drop q).take n) (List.ne_nil_of_length_pos (by omega)) wf
    fun j lt => by rw [Nat.add_assoc]; exact own (q + j) (by omega)
  rw [length] at cells
  have groups : (s.writeAs key (lo + q) ((bs.drop q).take n)).groups = s.groups := by rw [only]
  exact {
    eq := by rw [groups]; exact only
    wf := s.writeAs_wf _ _ _ wf
    own := fun a => s.writeAs_own _ _
    flags := fun g => by rw [State.grp, groups]; rfl
    new := fun a here => by
      rw [cells, if_pos here, nth_take _ _ _ _ (by omega), nth_drop]
      exact congrArg (nth 0#8 bs) (by omega)
    old := fun a away => by rw [cells, if_neg away] }

/-! ### Pieces of lines -/

theorem mem_linePieces {va n : Nat} {p : Nat × Nat} (h : p ∈ linePieces va n) : va ≤ p.1 ∧ 0 < p.2 ∧ p.1 + p.2 ≤ va + n := by
  unfold linePieces at h
  split at h
  · simp at h
  · obtain ⟨l, inside, rfl⟩ := List.mem_map.mp h
    rw [mem_rangeFrom] at inside
    simp only [Nat.max_def, Nat.min_def]
    split <;> split <;> omega

theorem exists_linePiece {va n x : Nat} (lo : va ≤ x) (hi : x < va + n) : ∃ p ∈ linePieces va n, p.1 ≤ x ∧ x < p.1 + p.2 := by
  rw [linePieces, if_neg (by omega)]
  refine ⟨_, List.mem_map.mpr ⟨x / 64, by rw [mem_rangeFrom]; omega, rfl⟩, ?_⟩
  simp only [Nat.max_def, Nat.min_def]
  split <;> split <;> omega

/-- Pieces written one after another, by steps that need the bytes' lines to be the writer's own and nothing to be held. -/
theorem Stores.pieces {team : Nat} {o : TeamOp} {key lo : Nat} {bs : List Byte} {f : State → Nat × Nat → State} {C : Nat × Nat → Nat → Prop}
    (ps : List (Nat × Nat)) (step : ∀ p ∈ ps, ∀ s : State, s.holdsOp team o = false → (s.ctxOf team).key = key → Memory.wf s.mem = true →
      (∀ j, j < bs.length → ownLine s key (lo + j)) → Stores key lo bs (C p) s (f s p))
    (s : State) (unheld : s.holdsOp team o = false) (mine : (s.ctxOf team).key = key) (wf : Memory.wf s.mem = true)
    (own : ∀ j, j < bs.length → ownLine s key (lo + j)) : Stores key lo bs (fun a => ∃ p ∈ ps, C p a) s (ps.foldl f s) := by
  induction ps generalizing s with
  | nil => exact (Stores.of_linesNoted wf (.refl s)).congr fun a => by simp
  | cons p ps ih =>
    have first := step p List.mem_cons_self s unheld mine wf own
    have rest := ih (fun q m => step q (List.mem_cons_of_mem p m)) (f s p) ((first.holdsOp team o).trans unheld)
      (by rw [first.ctxOf, mine]) first.wf fun j lt => first.own _ (own j lt)
    exact (first.trans rest).congr fun a => by simp

/-- A run of bytes in one page, written on the matrix path: its bytes, and no other, in the lines of the team's own key. -/
theorem State.matrixWrite_stores {s : State} {team : Nat} {o : TeamOp} (plain : Bool) {va base : Nat} {bs : List Byte}
    (unheld : s.holdsOp team o = false) (wf : Memory.wf s.mem = true) (page : va / 65536 = (va + bs.length - 1) / 65536)
    (fits : va + bs.length ≤ 2 ^ 48) (found : o.pages.find? (fun p => p.1 == va / 65536) = some (va / 65536, base))
    (own : ∀ j, j < bs.length → ownLine s (s.ctxOf team).key (base + va % 65536 + j)) :
    Stores (s.ctxOf team).key (base + va % 65536) bs (fun a => base + va % 65536 ≤ a ∧ a < base + va % 65536 + bs.length) s
      (s.matrixWrite team o plain va bs) := by
  refine (Stores.pieces (team := team) (o := o) (C := fun p a => base + va % 65536 + (p.1 - va) ≤ a ∧ a < base + va % 65536 + (p.1 - va) + p.2)
    (linePieces va bs.length) (fun p m u unheld mine wf own => ?_) s unheld rfl wf own).congr fun a => ⟨?_, fun inside => ?_⟩
  · obtain ⟨first, some', last⟩ := mem_linePieces m
    have same : p.1 % 2 ^ 48 = p.1 := Nat.mod_eq_of_lt (by omega)
    have look : pageLook o.pages (p.1 % 2 ^ 48) = base + va % 65536 + (p.1 - va) := by
      rw [same, pageLook, show p.1 / 65536 = va / 65536 by omega, found]
      dsimp only
      omega
    have written := u.writeAs_stores (key := (s.ctxOf team).key) (q := p.1 - va) (n := p.2) wf some' (by omega) own
    have noted : ∀ {w : State}, LinesNoted (u.writeAs (s.ctxOf team).key (base + va % 65536 + (p.1 - va)) ((bs.drop (p.1 - va)).take p.2)) w →
        Stores (s.ctxOf team).key (base + va % 65536) bs
          (fun a => base + va % 65536 + (p.1 - va) ≤ a ∧ a < base + va % 65536 + (p.1 - va) + p.2) u w :=
      fun h => (written.trans (.of_linesNoted written.wf h)).congr fun a => iff_of_eq (or_false _)
    dsimp only
    rw [unheld, look, mine]
    simp only [Bool.false_eq_true, if_false]
    split
    · exact noted (State.closeLine_linesNoted _ _)
    · split
      · exact written
      · split
        · exact noted (State.openLine_linesNoted _ _ _)
        · exact noted (State.closeLine_linesNoted _ _)
  · rintro ⟨p, m, lo, hi⟩
    obtain ⟨first, -, last⟩ := mem_linePieces m
    omega
  · obtain ⟨p, m, lo, hi⟩ := exists_linePiece (va := va) (n := bs.length) (x := va + (a - (base + va % 65536))) (by omega) (by omega)
    obtain ⟨first, -, -⟩ := mem_linePieces m
    exact ⟨p, m, by omega, by omega⟩

end Sys2Proof.Machine
end

section
/-!
PROOFS. The stores `tsv` and `acc.st` of one row in one page (R187, R189), and every short operation of a team's order when it starts (R178).
-/

namespace Sys2Proof.Machine

open Sys2Proof

/-! ### Bytes of a value -/

theorem leVal_lt (bs : List Byte) : leVal bs < 2 ^ (8 * bs.length) := by
  induction bs with
  | nil => exact Nat.zero_lt_one
  | cons b bs ih =>
    rw [leVal, List.length_cons, Nat.mul_succ, Nat.pow_add]
    have := b.isLt
    omega

theorem leBytes_leVal (bs : List Byte) : leBytes bs.length (leVal bs) = bs := by
  induction bs with
  | nil => rfl
  | cons b bs ih =>
    have low : BitVec.ofNat 8 (b.toNat + 256 * leVal bs) = b := BitVec.eq_of_toNat_eq (by rw [BitVec.toNat_ofNat]; have := b.isLt; omega)
    have high : (b.toNat + 256 * leVal bs) / 256 = leVal bs := by have := b.isLt; omega
    rw [leVal, List.length_cons, leBytes, low, high, ih]

theorem length_readCells (m : List Host.Cell) (a n : Nat) : (readCells m a n).length = n := by rw [readCells, List.length_map, rangeFrom_length]

theorem nth_readCells (m : List Host.Cell) {a n j : Nat} (h : j < n) : nth 0#8 (readCells m a n) j = readCell m (a + j) := by
  rw [readCells, nth_map _ 0 _ _ _ (by rwa [rangeFrom_length]), nth_rangeFrom, if_pos h]

/-- A run without bits beyond the tensor is stored as its bytes. -/
theorem runStored_whole (s : State) (key : Nat) (o : TeamOp) {ty : Nat} {r : Run} (whole : elemBits ty * r.elems = 8 * r.n) {bs : List Byte}
    (length : bs.length = r.n) : runStored s key o ty r (leVal bs) = bs := by
  have memory : leVal (s.runBytes key o.pages r) < 2 ^ (8 * r.n) := by
    have lt := leVal_lt (s.runBytes key o.pages r)
    rwa [State.runBytes, List.length_map, rangeFrom_length] at lt
  have value : leVal bs < 2 ^ (8 * r.n) := length ▸ leVal_lt bs
  rw [runStored, whole, Nat.div_eq_of_lt memory, Nat.mod_eq_of_lt value, Nat.zero_mul, Nat.zero_add, ← length, leBytes_leVal]

/-- No element of a tile of FP16 or BF16 without uncorrectable words is replaced. -/
theorem Tile.runVal_clean {y : Tile} {ty : Nat} (half : isNb ty = false) (clean : y.ue = []) (i : Nat) (r : Run) :
    y.runVal ty i r = leVal (readCells y.elem (rowBytes ty * i + r.off) r.n) := by
  have kept : ∀ k, y.replaced ty i k = false := fun k => by simp [Tile.replaced, half, clean]
  rw [Tile.runVal]
  refine List.foldlRecOn (motive := (· = _)) _ _ rfl fun v hv k _ => ?_
  rw [kept, Bool.and_false, hv]
  rfl

/-! ### Stores of one row -/

section
variable {s : State} {team k : Nat} {o : TeamOp} {f : Fields}

theorem State.correctOp_ctxOf (s : State) (team : Nat) (o : TeamOp) : (s.correctOp team o).ctxOf team = s.ctxOf team := by
  obtain ⟨eq, takes, -⟩ := s.correctOp_spec team o
  have ctx : ((s.correctOp team o).team team).ctx = (s.team team).ctx := (congrArg Team.ctx takes.own :)
  rw [State.ctxOf, ctx, eq]
  rfl

theorem State.correctOp_holdsOp (s : State) (team : Nat) (o : TeamOp) : (s.correctOp team o).holdsOp team o = s.holdsOp team o := by
  obtain ⟨eq, takes, -⟩ := s.correctOp_spec team o
  have work : ((s.correctOp team o).team team).work = (s.team team).work := (congrArg Team.work takes.own :)
  have launch : ((s.correctOp team o).team team).launch = (s.team team).launch := (congrArg Team.launch takes.own :)
  have block : ((s.correctOp team o).team team).block = (s.team team).block := (congrArg Team.block takes.own :)
  have launches : (s.correctOp team o).launches = s.launches := by rw [eq]
  simp only [State.holdsOp, State.heldBlock, State.det, State.holds, State.correctOp_ctxOf, work, launch, block, launches]

/-- A store writes the rows that it would write without the corrections. -/
theorem State.opTeam_storeRows (s : State) (team : Nat) (o : TeamOp) : storeRows (s.opTeam team o) o = storeRows (s.team team) o := by
  have corrects := s.opTeam_corrects team o
  have tile := fun n => (congrArg Tile.pois (corrects.tile n) :)
  have row := fun r => AccRow.pois_of_plain (corrects.row r)
  have poison : ∀ i, (s.opTeam team o).rowPoison o.i i = (s.team team).rowPoison o.i i := fun i => by
    unfold Team.rowPoison
    split
    · exact congrArg (bit · i) (tile _)
    · exact row _
    · rfl
  simp only [storeRows, poison]

/-- A run that is stored, by a short operation that does nothing else to memory or to its team. -/
theorem MayStart.stores (h : MayStart s team k o) (short : isLong o.i = false) {key lo : Nat} {bs : List Byte} {C : Nat → Prop} {u : State}
    (stored : Stores key lo bs C (s.correctOp team o) u) (after : Aftermath u (s.applyOp team o)) :
    ∃ t, (exec (.teamOpStart team k) s = .next t ∧ finished s t team o)
      ∧ (∀ a, C a → readCell t.mem a = nth 0#8 bs (a - lo)) ∧ ∀ a, ¬C a → readCell t.mem a = readCell s.mem a := by
  obtain ⟨eq, corrected, -⟩ := s.correctOp_spec team o
  have takes : TakesEffect team s (s.applyOp team o) :=
    corrected.trans (.of_teams (after.teams.trans stored.teams) fun g => (after.flags g).trans (stored.flags g))
  obtain ⟨left, -⟩ := (s.applyOp team o).leaveOrder_spec team o
  have mem : ((s.applyOp team o).leaveOrder team o).mem = u.mem := by rw [left]; exact after.mem
  have before : (s.correctOp team o).mem = s.mem := by rw [eq]
  exact ⟨_, ⟨h.exec_short short, takes.finished⟩, fun a c => by rw [mem, stored.new a c], fun a c => by rw [mem, stored.old a c, before]⟩

/-- A store of one row of one run of elements in one page, whose lines are the team's own and which the ticket unit does not hold. -/
structure StoresRun (s : State) (team : Nat) (o : TeamOp) (i : Nat) (r : Run) (base : Nat) : Prop where
  unheld : s.holdsOp team o = false
  rows : storeRows (s.team team) o = [i]
  runs : o.runsAt i = [r]
  elements : r.scale = none
  bytes : 0 < r.n
  page : r.va / 65536 = (r.va + r.n - 1) / 65536
  fits : r.va + r.n ≤ 2 ^ 48
  wf : Memory.wf s.mem = true
  found : o.pages.find? (fun p => p.1 == r.va / 65536) = some (r.va / 65536, base)
  own : ∀ j, j < r.n → ownLine s (s.ctxOf team).key (base + r.va % 65536 + j)

/-- The state in which such a store has closed what its release closes, and writes its bytes. -/
def State.rowStored (s : State) (team : Nat) (o : TeamOp) (f : Fields) (r : Run) (bs : List Byte) : State :=
  ((s.correctOp team o).opRelease o f).matrixWrite team o (!f.mod.getLsbD 3) r.va bs

theorem StoresRun.stores {i base : Nat} {r : Run} (h : StoresRun s team o i r base) (f : Fields) {bs : List Byte} (some' : 0 < bs.length)
    (most : bs.length ≤ r.n) : Stores (s.ctxOf team).key (base + r.va % 65536) bs
      (fun a => base + r.va % 65536 ≤ a ∧ a < base + r.va % 65536 + bs.length) (s.correctOp team o) (s.rowStored team o f r bs) := by
  obtain ⟨eq, -, -⟩ := s.correctOp_spec team o
  have wf : Memory.wf (s.correctOp team o).mem = true := by rw [eq]; exact h.wf
  have own : ∀ a, ownLine s (s.ctxOf team).key a → ownLine (s.correctOp team o) (s.ctxOf team).key a := fun a => by rw [eq]; exact id
  have released := (s.correctOp team o).opRelease_linesNoted o f
  have key : ((s.correctOp team o).opRelease o f).ctxOf team = s.ctxOf team := (released.ctxOf team).trans (s.correctOp_ctxOf team o)
  have first := Stores.of_linesNoted (key := (s.ctxOf team).key) (lo := base + r.va % 65536) (bs := bs) wf released
  have page := h.page
  have fits := h.fits
  have second := State.matrixWrite_stores (s := (s.correctOp team o).opRelease o f) (team := team) (o := o) (bs := bs) (!f.mod.getLsbD 3)
    (by rw [released.holdsOp, State.correctOp_holdsOp, h.unheld]) first.wf (by omega) (by omega) h.found
    fun j lt => by rw [key]; exact first.own _ (own _ (h.own j (by omega)))
  rw [key] at second
  exact (first.trans second).congr fun a => iff_of_eq (false_or _)

theorem StoresRun.rowStored_unheld {i base : Nat} {r : Run} (h : StoresRun s team o i r base) (f : Fields) {bs : List Byte} (some' : 0 < bs.length)
    (most : bs.length ≤ r.n) : (s.rowStored team o f r bs).holdsOp team o = false := by
  rw [(h.stores f some' most).holdsOp, State.correctOp_holdsOp, h.unheld]

/-- After the bytes of its row, `tsv` leaves memory and its team as they are. -/
theorem StoresRun.tsv_aftermath {i base : Nat} {r : Run} (h : StoresRun s team o i r base) {bs : List Byte}
    (data : runStored ((s.correctOp team o).opRelease o f) (s.ctxOf team).key o f.tyN r (((s.opTeam team o).tile f.d.toNat).runVal f.tyN i r) = bs)
    (some' : 0 < bs.length) (most : bs.length ≤ r.n) :
    Aftermath (s.rowStored team o f r bs) (applyTsv (s.correctOp team o) team o f) := by
  have unheld := h.rowStored_unheld f some' most
  have rows : storeRows ((s.correctOp team o).team team) o = [i] := (s.opTeam_storeRows team o).trans h.rows
  unfold applyTsv
  dsimp only
  rw [rows, State.correctOp_ctxOf]
  simp only [List.foldl_cons, List.foldl_nil, h.runs, h.elements]
  rw [show (s.correctOp team o).team team = s.opTeam team o from rfl, data]
  exact (((storeEnd_aftermath _ _ unheld).trans (.of_recorded (State.opEvents_recorded _ _ _))).trans
    (.of_recorded (State.opError_recorded _ _ _))).trans (State.choicesMade_aftermath _)

/-- So does `acc.st`. -/
theorem StoresRun.accSt_aftermath {i base : Nat} {r : Run} (h : StoresRun s team o i r base) {bs : List Byte}
    (data : (((s.opTeam team o).row (f.d.toNat + i)).all.flatMap fun w => leBytes 4 w.toNat).take r.n = bs)
    (some' : 0 < bs.length) (most : bs.length ≤ r.n) :
    Aftermath (s.rowStored team o f r bs) (applyAccSt (s.correctOp team o) team o f) := by
  have unheld := h.rowStored_unheld f some' most
  have rows : storeRows ((s.correctOp team o).team team) o = [i] := (s.opTeam_storeRows team o).trans h.rows
  unfold applyAccSt
  dsimp only
  rw [rows]
  simp only [List.foldl_cons, List.foldl_nil, h.runs]
  rw [show (s.correctOp team o).team team = s.opTeam team o from rfl, data]
  exact ((storeEnd_aftermath _ _ unheld).trans (.of_recorded (State.opEvents_recorded _ _ _))).trans (.of_recorded (State.opError_recorded _ _ _))

/-- `tsv`: of a whole row of FP16 or BF16 without uncorrectable words, the bytes of the tile (R187). -/
theorem MayStart.tsv {i base : Nat} {r : Run} (h : MayStart s team k o) (tsv : o.i = .tsv f) (run : StoresRun s team o i r base) :
    ∃ t, (exec (.teamOpStart team k) s = .next t ∧ finished s t team o)
      ∧ (f.tyN = 8 ∨ f.tyN = 9 → r.n = 128 → r.elems = 64 → r.off = 0 → ((s.team team).tile f.d.toNat).ue = [] →
        ∀ j, j < 128 → readCell t.mem (base + r.va % 65536 + j) = readCell ((s.team team).tile f.d.toNat).elem (128 * i + j))
      ∧ ∀ a, a < base + r.va % 65536 ∨ base + r.va % 65536 + r.n ≤ a → readCell t.mem a = readCell s.mem a := by
  let bs := runStored ((s.correctOp team o).opRelease o f) (s.ctxOf team).key o f.tyN r (((s.opTeam team o).tile f.d.toNat).runVal f.tyN i r)
  have length : bs.length = r.n := leBytes_length _ _
  have some' : 0 < bs.length := length ▸ run.bytes
  obtain ⟨t, starts, new, old⟩ := h.stores (by rw [tsv]; rfl) (run.stores f some' (Nat.le_of_eq length))
    (by simp only [State.applyOp, tsv]; exact run.tsv_aftermath rfl some' (Nat.le_of_eq length))
  refine ⟨t, starts, fun type whole elems off clean j lt => ?_, fun a away => old a (by omega)⟩
  have same := (s.opTeam_corrects team o).tile f.d.toNat
  have elem : ((s.opTeam team o).tile f.d.toNat).elem = ((s.team team).tile f.d.toNat).elem := (congrArg Tile.elem same :)
  have ue : ((s.opTeam team o).tile f.d.toNat).ue = [] := (congrArg Tile.ue same :).trans clean
  have half : isNb f.tyN = false ∧ rowBytes f.tyN = 128 ∧ elemBits f.tyN = 16 := by rcases type with e | e <;> rw [e] <;> exact ⟨rfl, rfl, rfl⟩
  obtain ⟨half, row, bits⟩ := half
  have data : bs = readCells ((s.team team).tile f.d.toNat).elem (128 * i) 128 := by
    show runStored _ _ _ _ _ _ = _
    rw [Tile.runVal_clean half ue, elem, row, off, Nat.add_zero, whole]
    exact runStored_whole _ _ _ (by rw [bits, elems, whole]) (by rw [length_readCells, whole])
  rw [new _ (by omega), Nat.add_sub_cancel_left, data, nth_readCells _ lt]

/-- `acc.st`: of a whole row, its elements (R189). -/
theorem MayStart.accSt {i base : Nat} {r : Run} (h : MayStart s team k o) (accSt : o.i = .accSt f) (run : StoresRun s team o i r base) :
    ∃ t, (exec (.teamOpStart team k) s = .next t ∧ finished s t team o)
      ∧ (r.n = 256 → ∀ c, c < 64 → readCells t.mem (base + r.va % 65536 + 4 * c) 4
        = leBytes 4 (((s.team team).row (f.d.toNat + i)).at c).toNat)
      ∧ ∀ a, a < base + r.va % 65536 ∨ base + r.va % 65536 + r.n ≤ a → readCell t.mem a = readCell s.mem a := by
  let x := (s.opTeam team o).row (f.d.toNat + i)
  let bs := (x.all.flatMap fun w => leBytes 4 w.toNat).take r.n
  have elements : (x.all.flatMap fun w => leBytes 4 w.toNat) = (upto 64).flatMap fun c => leBytes 4 (x.at c).toNat := List.flatMap_map _ _ _
  have length : bs.length = min r.n 256 := by
    show (List.take _ _).length = _
    rw [List.length_take, elements, length_flatMap_upto _ fun _ => leBytes_length 4 _]
  have bytes := run.bytes
  have some' : 0 < bs.length := by omega
  have most : bs.length ≤ r.n := by omega
  obtain ⟨t, starts, new, old⟩ := h.stores (by rw [accSt]; rfl) (run.stores f some' most)
    (by simp only [State.applyOp, accSt]; exact run.accSt_aftermath rfl some' most)
  refine ⟨t, starts, fun whole c lt => ?_, fun a away => old a (by omega)⟩
  have same : x.at c = ((s.team team).row (f.d.toNat + i)).at c := AccRow.at_of_plain ((s.opTeam_corrects team o).row _) c
  rw [← same]
  refine (congrArg _ (leBytes_length 4 (x.at c).toNat).symm).trans (readCells_eq fun j byte => ?_)
  rw [leBytes_length] at byte
  rw [new _ (by omega), show base + r.va % 65536 + 4 * c + j - (base + r.va % 65536) = 4 * c + j by omega]
  show nth 0#8 (List.take _ _) _ = _
  rw [nth_take _ _ _ _ (by omega), elements, nth_flatMap_upto _ _ (fun _ => leBytes_length 4 _) lt byte]

/-- A long operation that starts is marked in its order, and is not complete before the cycle of its start (R178). -/
theorem MayStart.runs (h : MayStart s team k o) (long : isLong o.i = true) : ∃ t, exec (.teamOpStart team k) s = .next t ∧ t.mem = s.mem
    ∧ (t.team team).acc = (s.team team).acc ∧ (t.team team).tiles = (s.team team).tiles
    ∧ ∃ p, (t.team team).order[k]? = some p ∧ p.i = o.i ∧ p.started = true ∧ (s.core (o.gid / 16)).cycle ≤ p.due := by
  refine ⟨_, h.exec_long long, rfl, by rw [State.team_setTeam], by rw [State.team_setTeam], s.started o o, ?_, ?_⟩
  · rw [State.team_setTeam, List.getElem?_map, h.found]
    rfl
  · rw [State.started, beq_self_eq_true, if_pos rfl]
    exact ⟨rfl, rfl, Nat.le_add_right _ _⟩

/-! ### Operations that read nothing, in their teams -/

/-- These operations read neither tiles nor rows, so nothing of their team is corrected. -/
theorem State.opTeam_same (s : State) (team : Nat) (which : o.i = .tzero f ∨ o.i = .tpois f ∨ o.i = .accZero f ∨ o.i = .mmask f) :
    s.opTeam team o = s.team team := by
  rcases which with i | i | i | i
  iterate 4 · exact State.opTeam_unread (fun _ _ _ => by simp only [tileUse, i]) fun _ _ => by simp only [accUse, i]

/-- One tile of a team is replaced. -/
theorem Worked.onlyTile {t : State} {n : Nat} {z : Tile}
    (h : Worked s t team k o { s.team team with tiles := Tab.set (s.team team).tiles n z }) :
    (OtherTiles s t team n ∧ (t.team team).acc = (s.team team).acc) ∧ (t.team team).tile n = z := by
  refine ⟨⟨⟨h.mem, h.spad, fun r => by rw [h.row]; rfl, fun m other => ?_⟩, h.acc⟩, (h.tile n).trans (Tab.get_set _ _ _ _)⟩
  rw [h.tile]
  exact Tab.get_set_ne _ _ _ other

theorem Team.row_clearRows (x : Team) (a n r : Nat) :
    (x.putRows ((rangeFrom a n).map fun r => (r, {}))).row r = if a ≤ r ∧ r < a + n then {} else x.row r := by
  have rows := x.row_putRows 0 (fun _ => {}) a n r
  simpa only [Nat.zero_add] using rows

end

end Sys2Proof.Machine

namespace Sys2Proof

open Sys2Proof.Machine

/-- Settles O31: each short operation runs from the state in which its words are corrected, changes its own team or memory, and leaves the order; a
stored row is written line by line at its place in the page. -/
theorem shortTeamOperationsTakeEffect : Obligations.ShortTeamOperationsTakeEffect := by
  unfold Obligations.ShortTeamOperationsTakeEffect
  intro team k o f s found fresh may x starts otherRows otherTiles only marks
  have h : MayStart s team k o := ⟨found, fresh, may⟩
  refine ⟨fun i => ?_, fun i => ?_, fun i => ?_, fun act i src => ?_, fun i => ?_, fun i => ?_, h.rowExp, h.rowScale, h.rowAdd, fun i type => ?_,
    ?_, h.runs⟩
  · obtain ⟨t, worked⟩ := h.tzero i
    rw [s.opTeam_same team (.inl i)] at worked
    exact ⟨t, worked.starts, worked.onlyTile⟩
  · obtain ⟨t, worked⟩ := h.tpois i
    rw [s.opTeam_same team (.inr (.inl i))] at worked
    exact ⟨t, worked.starts, worked.onlyTile⟩
  · obtain ⟨t, worked⟩ := h.accZero i
    rw [s.opTeam_same team (.inr (.inr (.inl i)))] at worked
    refine ⟨t, worked.starts, worked.mem, worked.tiles, fun r out => ?_, fun r lo hi => ?_⟩
    · rw [worked.row, Team.row_clearRows, if_neg (by omega)]
    · rw [worked.row, Team.row_clearRows, if_pos ⟨lo, hi⟩]
  · obtain ⟨t, worked⟩ := h.mmask i src
    rw [s.opTeam_same team (.inr (.inr (.inr i)))] at worked
    refine ⟨t, worked.starts, worked.mem, worked.acc, worked.tiles, fun r j row col => ?_⟩
    rw [worked.mb, mmaskPuts_bit _ (fun l m => BitVec.lt_of_getLsbD (mem_lanesOf.mp m)) _ col]
    exact if_congr (by rw [mem_lanesOf]) rfl rfl
  · exact h.reduces (by rw [i]; rfl) (by simp only [State.applyOp, i]) fun _ _ _ => by simp only [tileUse, i]
  · exact h.reduces (by rw [i]; rfl) (op := rowTotal) (by simp only [State.applyOp, i]) fun _ _ _ => by simp only [tileUse, i]
  · exact h.rowCvt i (by rcases type with e | e <;> rw [e] <;> rfl)
  · intro i r base which unheld rows runs elements bytes page fits wf found pa own
    have run : StoresRun s team o i r base := ⟨unheld, rows, runs, elements, bytes, page, fits, wf, found, own⟩
    rcases which with tsv | accSt
    · obtain ⟨t, starts, data, outside⟩ := h.tsv tsv run
      exact ⟨t, starts, fun _ => data, fun e => absurd (tsv.symm.trans e) nofun, outside⟩
    · obtain ⟨t, starts, data, outside⟩ := h.accSt accSt run
      exact ⟨t, starts, fun e => absurd (accSt.symm.trans e) nofun, fun _ => data, outside⟩

end Sys2Proof
end

section
/-!
PROOFS. Accesses of lanes that may not be made: the fault of the lowest such lane (R216, R423).
-/

namespace Sys2Proof.Machine

open Sys2Proof

/-! ### The first lane that does not pass -/

theorem laneNums_pairwise : laneNums.Pairwise (· < ·) := by decide

theorem lanesOf_pairwise (m : Word) : (lanesOf m).Pairwise (· < ·) := laneNums_pairwise.filter _

/-- Among ascending lanes the answer is that of the first one that does not pass. -/
theorem firstCheck_first {chk : Nat → Check} {ls : List Nat} (sorted : ls.Pairwise (· < ·)) {l : Nat} (m : l ∈ ls)
    (before : ∀ j ∈ ls, j < l → chk j = .ok) (stops : chk l ≠ .ok) : firstCheck chk ls = chk l := by
  induction ls with
  | nil => exact absurd m List.not_mem_nil
  | cons k ls ih =>
    rcases List.mem_cons.mp m with rfl | later
    · rw [firstCheck]
      split
      · next pass => exact absurd pass stops
      · rfl
    · rw [firstCheck, before k List.mem_cons_self (List.rel_of_pairwise_cons sorted later)]
      exact ih sorted.of_cons later fun j hj => before j (List.mem_cons_of_mem k hj)

theorem firstCheck_ok {chk : Nat → Check} {ls : List Nat} (h : firstCheck chk ls = .ok) : ∀ l ∈ ls, chk l = .ok := by
  induction ls with
  | nil => exact fun l m => absurd m List.not_mem_nil
  | cons k ls ih =>
    rw [firstCheck] at h
    split at h
    · next pass => exact List.forall_mem_cons.mpr ⟨pass, ih h⟩
    · next stops => exact absurd h stops

/-- A lane whose register words are good answers by the instruction's own tests (R124). -/
theorem laneTest_of_free {i : Instr} {f : Fields} {s : State} (h : Sys2Proof.free i f s = true) {l : Nat} (act : (s.view f).act.getLsbD l = true)
    (chk : Nat → Check) : laneTest s i (s.view f) chk l = chk l := by
  obtain ⟨-, -, -, -, -, tests, -⟩ := runs_split h
  have pass := firstCheck_ok tests l (mem_lanesOf.mpr act)
  unfold laneTest at pass ⊢
  split at pass
  · exact absurd pass nofun
  · next good => exact if_neg good

/-- With nothing in the way of its word, an instruction takes the trap of the lowest lane that does not pass its tests (R216). -/
theorem issuedChk_traps {i : Instr} {f : Fields} {s : State} {chk : View → Nat → Check} (k : View → State) {l : Nat} {r : TrapInfo}
    {log : Option Contained} (h : Sys2Proof.free i f s = true) (act : (s.view f).act.getLsbD l = true)
    (before : ∀ j, j < l → (s.view f).act.getLsbD j = true → chk (s.view f) j = .ok) (fault : chk (s.view f) l = .trap r log) :
    issuedChk i f s chk k = .next (s.trapLogged r log) := by
  have first : firstCheck (laneTest s i (s.view f) (chk (s.view f))) (lanesOf (s.view f).act) = .trap r log := by
    rw [firstCheck_first (lanesOf_pairwise _) (mem_lanesOf.mpr act), laneTest_of_free h act, fault]
    · exact fun j m lt => (laneTest_of_free h (mem_lanesOf.mp m) _).trans (before j lt (mem_lanesOf.mp m))
    · rw [laneTest_of_free h act, fault]
      exact nofun
  obtain ⟨lanes, bound, word, ready, debug, -, -⟩ := runs_split h
  simp only [State.me] at bound
  unfold issuedChk
  split
  · simp [ofLanes, *] at lanes
  · simp [bound, word, ready, debug, first]

/-! ### A trap of the present issue (R370) -/

/-- The issuing group is frozen with a record; no register, no byte of memory, no core and no lane's PC has changed. -/
def Trapped (s t : State) (r : TrapInfo) : Prop :=
  t.me.trap.frozen = some r ∧ quiet s t ∧ t.cores = s.cores ∧ ∀ l, l < 32 → (t.me.lane l).pc = (s.me.lane l).pc

theorem raise_frozen {s : State} {gid : Nat} (t : TrapInfo) (h : (s.grp gid).trap.frozen = none) :
    ((raise s gid t).grp gid).trap.frozen = some t := by
  rw [raise_eq, h, Option.isSome_none, if_neg Bool.false_ne_true, withdraw_trap, State.grp_setGrp]
  rfl

theorem MayFreeze.cores {gid : Nat} {s t : State} (h : MayFreeze gid s t) : t.cores = s.cores := by rw [h.eq]

/-- A trap after a change that leaves the registers, the sticky flags and the lanes of the issuing group, memory and the cores. -/
theorem trapNow_trapped {s u : State} (r : TrapInfo) (mem : u.mem = s.mem) (cores : u.cores = s.cores)
    (unfrozen : u.me.trap.frozen = none) (lanes : u.me.lanes = s.me.lanes)
    (regs : u.me.v = s.me.v ∧ u.me.s = s.me.s ∧ u.me.p = s.me.p ∧ u.me.csr.fstat = s.me.csr.fstat ∧ u.me.csr.ffirst = s.me.csr.ffirst) :
    Trapped s (u.trapNow r) r := by
  have h : MayFreeze u.cur.gid u (u.trapNow r) := raise_mayFreeze u u.cur.gid r
  have me : (u.trapNow r).me = (u.trapNow r).grp u.cur.gid := me_of_cur h.cur
  have same := h.regs
  rw [← me, ← State.me] at same
  simp only [Group.regs, Prod.mk.injEq] at same
  obtain ⟨v', p', q', csr⟩ := same
  obtain ⟨v, p, q, fstat, ffirst⟩ := regs
  refine ⟨?_, ⟨sameV_of v' v, sameU_of p' p, sameP_of q' q, ?_, fun a => by rw [h.mem, mem]⟩, h.cores.trans cores, fun l lt => ?_⟩
  · rw [me]
    exact raise_frozen r unfrozen
  · rw [sameFlags, csr]
    exact ⟨fstat, ffirst⟩
  · rw [me, h.pc lt, ← State.me, Group.lane, Group.lane, lanes]

theorem trapLogged_trapped {s : State} (r : TrapInfo) (log : Option Contained) (unfrozen : s.me.trap.frozen = none) :
    Trapped s (s.trapLogged r log) r := by
  cases log with
  | some e =>
    have me := me_setGrp s (logRanked s.me s.portHere s.cur.pc e)
    exact trapNow_trapped (u := s.setGrp s.cur.gid (logRanked s.me s.portHere s.cur.pc e)) r rfl rfl (by rw [me]; exact unfrozen)
      (by rw [me]; rfl) (by rw [me]; exact ⟨rfl, rfl, rfl, rfl, rfl⟩)
  | none => exact trapNow_trapped (u := s) r rfl rfl unfrozen rfl ⟨rfl, rfl, rfl, rfl, rfl⟩

/-! ### The tests of an access (R423) -/

section
variable {f : Fields} {a : AccSpec} {s : State} {l : Nat}

theorem accessTests_global (w : a.w = .global) (v : View) : accessTests f a s v l = globalTests s v a l (v.gaddr f l) := by
  simp only [accessTests, w]

theorem accessTests_own (w : a.w = .own) (v : View) :
    accessTests f a s v l = localTests s v.gid a 0x0D (s.window v.g.team) (some v.g.team) l (v.laddr f l) := by
  simp only [accessTests, w]

theorem accessTests_const (w : a.w = .const) (v : View) : accessTests f a s v l = localTests s v.gid a 0x0E 65536 none l (v.laddr f l) := by
  simp only [accessTests, w]

theorem accessTests_unplaced (w : a.w = .cluster) {v : View} (none' : s.placed v.gid f.row.toNat f.col.toNat = none) :
    accessTests f a s v l = .trap (s.laneTrap 0x0F l 0) none := by
  simp only [accessTests, w, none']

theorem accessTests_placed (w : a.w = .cluster) {v : View} {t : Nat} (found : s.placed v.gid f.row.toNat f.col.toNat = some t) :
    accessTests f a s v l = localTests s v.gid a 0x0D (s.window t) (some t) l (v.laddr f l) := by
  simp only [accessTests, w, found]

theorem globalTests_misaligned {v : View} {x : Nat} (h : x % a.k ≠ 0) : globalTests s v a l x = .trap (s.laneTrap 0x0C l x) none := if_pos h

/-- An aligned access answers by its translation. -/
theorem globalTests_fault {v : View} {x c : Nat} (aligned : x % a.k = 0) (h : s.xlate v.gid x a.kind = .fault c) :
    globalTests s v a l x = .trap (s.laneTrap c l x) none := by
  simp only [globalTests, aligned, h, ne_eq, not_true_eq_false, if_false]

theorem globalTests_tier {v : View} {x pa : Nat} (aligned : x % a.k = 0) (probe : a.probe = false) (h : s.xlate v.gid x a.kind = .tier pa) :
    globalTests s v a l x = .trap (s.laneTrap 0x22 l x) none := by
  simp only [globalTests, aligned, h, probe, ne_eq, not_true_eq_false, if_false, Bool.false_eq_true, fTier]

theorem globalTests_hit {v : View} {x pa : Nat} (aligned : x % a.k = 0) (h : s.xlate v.gid x a.kind = .hit pa) :
    globalTests s v a l x = markTests s v a l x pa := by
  simp only [globalTests, aligned, h, ne_eq, not_true_eq_false, if_false]

theorem markTests_marked {v : View} {x pa : Nat} (debug : dataMatch s v a.kind l x a.k = none) (reads : a.poison = true)
    (marked : lineMarked s v.gid l pa = true) :
    markTests s v a l x pa = .trap (s.laneTrap 0x10 l x) (if (s.sideOf (pa / 64)).ue then some (lineError x) else none) := by
  simp only [markTests, debug, reads, marked, Bool.and_self, if_true]

theorem markTests_races {v : View} {x pa g : Nat} (debug : dataMatch s v a.kind l x a.k = none)
    (clean : (a.poison && lineMarked s v.gid l pa) = false) (plain : a.plain = true) (race : raceWith s v l pa = some g) :
    markTests s v a l x pa = .trap { s.laneTrap 0x14 l (x - x % 64) with gid := g, supp := true } none := by
  simp only [markTests, debug, clean, plain, race, Bool.false_eq_true, if_false, if_true]

theorem markTests_ok {v : View} {x pa : Nat} (debug : dataMatch s v a.kind l x a.k = none)
    (clean : a.poison = true → lineMarked s v.gid l pa = false) (calm : a.plain = true → raceWith s v l pa = none) :
    markTests s v a l x pa = .ok := by
  have unmarked : (a.poison && lineMarked s v.gid l pa) = false := by
    rw [Bool.and_eq_false_imp]
    exact clean
  have unraced : (if a.plain then raceWith s v l pa else none) = none := by
    split
    · next plain => exact calm plain
    · rfl
  simp only [markTests, debug, unmarked, unraced, Bool.false_eq_true, if_false]

theorem localTests_outside {gid code len : Nat} {team : Option Nat} {y : Int} (h : y < 0 ∨ (len : Int) < y + a.k) :
    localTests s gid a code len team l y = .trap (s.laneTrap code l (wrap y 48)) none := by
  simp only [localTests, Bool.or_eq_true, decide_eq_true_eq, h, if_true]

theorem localTests_ok {gid code len : Nat} {team : Option Nat} {y : Int} (lo : 0 ≤ y) (hi : y + a.k ≤ len) (aligned : y.toNat % a.k = 0)
    (clean : ∀ t, team = some t → a.poison = true → wordMarked s gid l t y.toNat a.k = false) :
    localTests s gid a code len team l y = .ok := by
  have inside : ¬(y < 0 ∨ (len : Int) < y + a.k) := by omega
  simp only [localTests, Bool.or_eq_true, decide_eq_true_eq, inside, aligned, ne_eq, not_true_eq_false, if_false]
  cases team with
  | none => rfl
  | some t =>
    have unmarked : (a.poison && wordMarked s gid l t y.toNat a.k) = false := by
      rw [Bool.and_eq_false_imp]
      exact clean t rfl
    simp only [unmarked, Bool.false_eq_true, if_false]

/-- An access that may be made passes its tests. -/
theorem accessTests_ok (h : mayAccess f a s l) : accessTests f a s (s.view f) l = .ok := by
  unfold mayAccess at h
  dsimp only at h
  split at h
  · next w =>
    obtain ⟨aligned, pa, hit, debug, clean, calm⟩ := h
    rw [accessTests_global w, globalTests_hit aligned hit, markTests_ok debug clean calm]
  · next w =>
    obtain ⟨⟨lo, hi, aligned⟩, clean⟩ := h
    rw [accessTests_own w, localTests_ok lo hi aligned]
    rintro t ⟨⟩
    exact clean
  · next w =>
    obtain ⟨lo, hi, aligned⟩ := h
    exact (accessTests_const w _).trans (localTests_ok lo hi aligned nofun)
  · next w =>
    obtain ⟨t, found, ⟨lo, hi, aligned⟩, clean⟩ := h
    rw [accessTests_placed w found, localTests_ok lo hi aligned]
    rintro t ⟨⟩
    exact clean

end

/-! ### The instructions that access memory lane by lane -/

/-- The instructions that access memory lane by lane, with what their tests depend on. -/
def Accesses (i : Instr) (f : Fields) (a : AccSpec) (s : State) : Prop :=
  (i = .ld f ∧ a = ldSpec f) ∨ (i = .st f ∧ a = stSpec f) ∨ (i = .stGDirect f ∧ a = stSpec f)
    ∨ (i = .atom f ∧ a = atomSpec f s (s.view f)) ∨ (i = .red f ∧ a = redSpec f)

section
variable {i : Instr} {f : Fields} {a : AccSpec} {s : State}

theorem Accesses.probe (h : Accesses i f a s) : a.probe = false := by
  rcases h with ⟨-, rfl⟩ | ⟨-, rfl⟩ | ⟨-, rfl⟩ | ⟨-, rfl⟩ | ⟨-, rfl⟩ <;> rfl

theorem Accesses.exec (h : Accesses i f a s) :
    ∃ chk k, Machine.exec i s = issuedChk i f s chk k ∧ chk (s.view f) = accessTests f a s (s.view f) := by
  rcases h with ⟨rfl, rfl⟩ | ⟨rfl, rfl⟩ | ⟨rfl, rfl⟩ | ⟨rfl, rfl⟩ | ⟨rfl, rfl⟩
  · exact ⟨_, _, exec_ld f s, rfl⟩
  · exact ⟨_, _, exec_st f s, rfl⟩
  · exact ⟨_, _, exec_stGDirect f s, rfl⟩
  · exact ⟨_, _, exec_atom f s, rfl⟩
  · exact ⟨_, _, exec_red f s, rfl⟩

/-- The lowest lane whose tests answer a fault raises it. -/
theorem Accesses.traps (h : Accesses i f a s) (may : Sys2Proof.free i f s = true) (unfrozen : s.me.trap.frozen = none) {l : Nat}
    (act : (s.view f).act.getLsbD l = true) (before : ∀ j, j < l → (s.view f).act.getLsbD j = true → mayAccess f a s j) {r : TrapInfo}
    {log : Option Contained} (fault : accessTests f a s (s.view f) l = .trap r log) : ∃ t, Machine.exec i s = .next t ∧ Trapped s t r := by
  obtain ⟨chk, k, eq, tests⟩ := h.exec
  refine ⟨_, eq.trans (issuedChk_traps k may act (fun j lt on => ?_) ?_), trapLogged_trapped r log unfrozen⟩
  · rw [tests]
    exact accessTests_ok (before j lt on)
  · rw [tests]
    exact fault

end

theorem wrap_lt (y : Int) (n : Nat) : wrap y n < 2 ^ n := by
  have pos : (0 : Int) < (2 ^ n : Nat) := by exact_mod_cast Nat.two_pow_pos n
  have lt := Int.emod_lt_of_pos y pos
  have nonneg := Int.emod_nonneg y pos.ne'
  unfold wrap
  omega

end Sys2Proof.Machine

namespace Sys2Proof

open Sys2Proof.Machine

/-- Settles O22: the tests of the lowest lane that may not access answer its fault, whatever the instruction. -/
theorem accessFaultsAreOfTheLowestLane : Obligations.AccessFaultsAreOfTheLowestLane := by
  unfold Obligations.AccessFaultsAreOfTheLowestLane
  intro i f a s l v x y traps which may unfrozen act before
  have access : Accesses i f a s := which
  have trap : ∀ {r : TrapInfo} {log : Option Contained}, accessTests f a s v l = .trap r log → r.lane = l → r.pc = s.cur.pc →
      traps r.code r.addr r.gid := by
    intro r log fault lane pc
    obtain ⟨t, run, frozen, still, cores, pcs⟩ := access.traps may unfrozen act before fault
    exact ⟨t, r, run, frozen, rfl, lane, rfl, rfl, pc, still, cores, pcs⟩
  have addr : ∀ {z : Nat}, z < 2 ^ 48 → z % 2 ^ 48 = z := Nat.mod_eq_of_lt
  have small : x < 2 ^ 48 := wrap_lt _ _
  have line : x - x % 64 < 2 ^ 48 := lt_of_le_of_lt (Nat.sub_le _ _) small
  have here : ∀ code, traps code (x % 2 ^ 48) 0 → traps code x 0 := fun code h => addr small ▸ h
  have window : ∀ code, traps code (wrap y 48 % 2 ^ 48) 0 → traps code (wrap y 48) 0 := fun code h => addr (wrap_lt y 48) ▸ h
  refine ⟨fun w off => ?_, fun w aligned c fault => ?_, fun w aligned pa tier => ?_,
    fun pa w aligned hit debug => ⟨fun reads marked => ?_, fun clean plain g race => ?_⟩, fun w out => ?_, fun w out => ?_, fun w none' => ?_⟩
  · exact here _ (trap ((accessTests_global w v).trans (globalTests_misaligned off)) rfl rfl)
  · exact here _ (trap ((accessTests_global w v).trans (globalTests_fault aligned fault)) rfl rfl)
  · exact here _ (trap ((accessTests_global w v).trans (globalTests_tier aligned access.probe tier)) rfl rfl)
  · exact here _ (trap ((accessTests_global w v).trans ((globalTests_hit aligned hit).trans (markTests_marked debug reads marked))) rfl rfl)
  · have raced := trap ((accessTests_global w v).trans ((globalTests_hit aligned hit).trans (markTests_races debug clean plain race))) rfl rfl
    exact addr line ▸ raced
  · exact window _ (trap ((accessTests_own w v).trans (localTests_outside out)) rfl rfl)
  · exact window _ (trap ((accessTests_const w v).trans (localTests_outside out)) rfl rfl)
  · exact trap (accessTests_unplaced w none') rfl rfl

end Sys2Proof
end

section
/-!
PROOFS. Fences and `commit` (R229, R250, R339), and the stores that enter the queue (R220, R225, R226).
-/

namespace Sys2Proof.Machine

open Sys2Proof

/-! ### Lines that a fence closes (R250) -/

/-- A side-band word whose record is closed. -/
def Side.closed (x : Side) : Side := { x with opn := false }

@[simp] theorem Side.closed_gid (x : Side) : x.closed.gid = x.gid := rfl
@[simp] theorem Side.closed_closed (x : Side) : x.closed.closed = x.closed := rfl

theorem State.sideOf_closeLine (s : State) (l : Nat) : (s.closeLine l).sideOf l = (s.sideOf l).closed := by
  simp only [State.closeLine]
  split
  · rw [State.sideOf_setSide]
    rfl
  · next shut => rw [Side.closed, ← Bool.eq_false_iff.mpr shut]

theorem State.sideOf_closeOwn (s : State) (gid l n : Nat) :
    (s.closeOwn gid l).sideOf n = if n = l ∧ (s.sideOf n).gid = gid then (s.sideOf n).closed else s.sideOf n := by
  unfold State.closeOwn
  by_cases own : (s.sideOf l).gid = gid
  · rw [if_pos own]
    by_cases here : n = l
    · subst here
      rw [if_pos ⟨rfl, own⟩, State.sideOf_closeLine]
    · rw [s.closeLine_other here, if_neg fun h => here h.1]
  · rw [if_neg own, if_neg]
    rintro ⟨rfl, mine⟩
    exact own mine

theorem State.sideOf_closeOwns (gid n : Nat) (ls : List Nat) (s : State) : (ls.foldl (fun t l => t.closeOwn gid l) s).sideOf n
    = if n ∈ ls ∧ (s.sideOf n).gid = gid then (s.sideOf n).closed else s.sideOf n := by
  induction ls generalizing s with
  | nil => simp
  | cons l ls ih =>
    rw [List.foldl_cons, ih, State.sideOf_closeOwn]
    by_cases own : (s.sideOf n).gid = gid
    · by_cases here : n = l
      · subst here
        simp [own]
      · simp [own, here]
    · simp [own]

/-- The lines of a group's write filter whose record names the group close, and no other. -/
theorem State.sideOf_closeFilter (s : State) (gid n : Nat) : (s.closeFilter gid).sideOf n
    = if n ∈ (s.grp gid).filter ∧ (s.sideOf n).gid = gid then (s.sideOf n).closed else s.sideOf n :=
  State.sideOf_closeOwns gid n _ s

theorem State.cur_closeFilter (s : State) (gid : Nat) : (s.closeFilter gid).cur = s.cur := by
  obtain ⟨t, only, eq⟩ := s.closeFilter_eq gid
  rw [eq, only]
  rfl

theorem exec_fence_runs {f : Fields} {s : State} (h : Sys2Proof.free (.fence f) f s = true) :
    exec (.fence f) s = .next (if (s.view f).any then s.closeFilter s.cur.gid else s).retire := by
  rw [exec_fence, execFence, onceOnly, issued_runs _ h]
  rfl

/-! ### `commit` (R339) -/

/-- A lane of a `commit`: an issuing one steps, and an active one stops where it is told to. -/
def State.commitLane (s : State) (f : Fields) (stop : Bool) (l : Nat) (n : Lane) : Lane :=
  if s.cur.lanes.getLsbD l then
    if stop && (s.view f).act.getLsbD l then { s.cur.stepLane n with wait := .commit } else s.cur.stepLane n
  else n

theorem exec_commit_runs {f : Fields} {s : State} (h : Sys2Proof.free (.commit f) f s = true) :
    exec (.commit f) s = .next (s.moveLanes (s.commitLane f (s.ctxOf s.me.team).committing)) := by
  rw [exec_commit, execCommit, issued_runs _ h]
  rfl

theorem State.commitLane_pc (s : State) (f : Fields) (stop : Bool) (l : Nat) (n : Lane) :
    (s.commitLane f stop l n).pc = if s.cur.lanes.getLsbD l then lpcOf (seqPc s.cur.pc s.cur.len) else n.pc := by
  unfold State.commitLane
  split
  · split <;> rfl
  · rfl

/-- An active lane is an issuing one (R65). -/
theorem view_act_issues {s : State} {f : Fields} {l : Nat} (act : (s.view f).act.getLsbD l = true) : s.cur.lanes.getLsbD l = true := by
  rw [view_act_result, guardMask, mkMask_bit _ (BitVec.lt_of_getLsbD act), Bool.and_eq_true] at act
  exact act.1

theorem State.commitLane_wait {s : State} {f : Fields} {l : Nat} (act : (s.view f).act.getLsbD l = true) (stop : Bool) (n : Lane) :
    (s.commitLane f stop l n).wait = if stop = true then .commit else n.wait := by
  unfold State.commitLane
  rw [view_act_issues act, act, Bool.and_true, if_pos rfl]
  split <;> rfl

/-! ### Entries of the store queue (R220, R225) -/

/-- What stores leave that enter the queue, where the issuing group then has its lanes stepped and its registers as before. -/
theorem enqueued_setGrp {s : State} (es : List SqEntry) {h : Group} (rest : h.rest = s.me.rest)
    (regs : h.v = s.me.v ∧ h.s = s.me.s ∧ h.p = s.me.p ∧ h.csr.fstat = s.me.csr.fstat ∧ h.csr.ffirst = s.me.csr.ffirst)
    (pcs : ∀ l, l < 32 → (h.lane l).pc = if s.cur.lanes.getLsbD l then lpcOf (seqPc s.cur.pc s.cur.len) else (s.me.lane l).pc) :
    enqueued s ((s.enqueue es).setGrp s.cur.gid h) es := by
  have me : ((s.enqueue es).setGrp s.cur.gid h).me = h := me_setGrp (s.enqueue es) h
  obtain ⟨v, u, p, fstat, ffirst⟩ := regs
  refine ⟨rfl, fun g ne => State.grp_setGrp_ne _ _ ne, fun c ne => State.core_setCore_ne s _ ne, State.core_setCore s _ _, by rw [me, rest],
    fun l lt => by rw [me]; exact pcs l lt, sameV_of (h := h) (by rw [me]) v, sameU_of (h := h) (by rw [me]) u, sameP_of (h := h) (by rw [me]) p,
    ?_, fun _ => rfl⟩
  rw [sameFlags, me]
  exact ⟨fstat, ffirst⟩

theorem retire_enqueue (s : State) (es : List SqEntry) : enqueued s (s.enqueue es).retire es := by
  obtain ⟨h, eq, rest, v, u, p, csr, -, pcs⟩ := retireTo_eq (s.enqueue es) fun _ => none
  rw [State.retire, eq]
  exact enqueued_setGrp es rest ⟨v, u, p, congrArg Csrs.fstat csr, congrArg Csrs.ffirst csr⟩ pcs

theorem nth_laneAddrs (s : State) {v : View} (f : Fields) (w : Where) (k : Kind) {l : Nat} (act : v.act.getLsbD l = true) :
    nth 0 (laneAddrs s v f w k) l = if w = .global then (s.xlate v.gid (v.gaddr f l) k).pa else 0 := by
  rw [laneAddrs, nth_mkLanes _ _ (BitVec.lt_of_getLsbD act), act, Bool.and_true]
  exact if_congr beq_iff_eq rfl rfl

theorem View.addr_eq (v : View) (f : Fields) (w : Where) (l : Nat) : v.addr f w l = if w = .global then v.gaddr f l else (v.laddr f l).toNat := by
  cases w <;> rfl

/-- The entries of a store's active lanes are those of the rule. -/
theorem storeRule_eq (f : Fields) (kind : StKind) (w : Where) (k : Kind) (bytes : Nat → List Byte) (s : State) :
    storeRule f kind w k bytes s = (lanesOf (s.view f).act).map fun l =>
      { gid := s.cur.gid, lane := l, space := spaceOf f w s (s.view f), va := (s.view f).addr f w l
        pa := nth 0 (laneAddrs s (s.view f) f w k) l, bytes := bytes l, kind := kind, rel := f.scope, ord := s.seqno } :=
  List.map_congr_left fun l m => by
    rw [nth_laneAddrs s f w k (mem_lanesOf.mp m), View.addr_eq]
    rfl

section
variable {f : Fields} {s : State}

theorem exec_st_enqueues (h : Sys2Proof.free (.st f) f s = true) (may : ∀ l, (s.view f).act.getLsbD l = true → mayAccess f (stSpec f) s l) :
    exec (.st f) s
      = .next (s.enqueue (storeRule f .plain (whereLd f) .write (fun l => leBytes (accSize f.tyN) ((s.view f).c f l).toNat) s)).retire := by
  rw [exec_st, execSt, issuedChk_runs _ (runs_of_free h fun l act => accessTests_ok (may l act)), storeRule_eq]
  rfl

theorem exec_stGDirect_enqueues (h : Sys2Proof.free (.stGDirect f) f s = true)
    (may : ∀ l, (s.view f).act.getLsbD l = true → mayAccess f (stSpec f) s l) :
    exec (.stGDirect f) s
      = .next (s.enqueue (storeRule f .direct (whereLd f) .write (fun l => leBytes (accSize f.tyN) ((s.view f).c f l).toNat) s)).retire := by
  rw [exec_stGDirect, execStGDirect, issuedChk_runs _ (runs_of_free h fun l act => accessTests_ok (may l act)), storeRule_eq]
  rfl

theorem exec_red_enqueues (h : Sys2Proof.free (.red f) f s = true) (normal : s.det s.me.team = false)
    (may : ∀ l, (s.view f).act.getLsbD l = true → mayAccess f (redSpec f) s l) :
    exec (.red f) s = .next (s.enqueue (storeRule f (.red (f.sub.toNat % 8) f.tyN) (whereAtom f) .both
      (fun l => leBytes 4 ((s.view f).c f l).toNat) s)).retire := by
  rw [exec_red, execRed, issuedChk_runs _ (runs_of_free h fun l act => accessTests_ok (may l act)), storeRule_eq, view_g, normal]
  rfl

end

/-! ### `spill` (R220, R372) -/

/-- A transfer whose lines are all translated reaches every register. -/
theorem reach_all {s : State} {gid addr : Nat} {k : Kind} (n j : Nat)
    (h : ∀ i, j ≤ i → i < j + n → ∃ pa, s.xlate gid ((addr + 128 * i) % 2 ^ 48) k = .hit pa) : reach s gid addr k j n = .all := by
  induction n generalizing j with
  | zero => rfl
  | succ n ih =>
    obtain ⟨pa, hit⟩ := h j le_rfl (by omega)
    rw [reach, hit]
    exact ih (j + 1) fun i lo hi => h i (by omega) (by omega)

theorem startReg_fresh {s : State} (f : Fields) (h : s.me.trap.kLanes &&& s.cur.lanes = 0#32) : startReg (s.view f) = 0 := by
  simp only [startReg, view_g, view_iss, h, bne_self_eq_false, Bool.false_eq_true, if_false]

/-- Every word of the range that lane `l` stores may be written. -/
def MaySpill (f : Fields) (s : State) : Prop :=
  let addr := rangeAddr f (s.view f)
  ∀ j, j < f.b.toNat → ∃ pa, s.xlate s.cur.gid ((addr + 128 * j) % 2 ^ 48) .write = .hit pa
    ∧ ∀ l, (s.view f).act.getLsbD l = true → dataMatch s (s.view f) .write l ((addr + 128 * j + 4 * l) % 2 ^ 48) 4 = none
      ∧ raceWith s (s.view f) l (pa + 4 * l) = none

theorem firstCheck_of_ok {chk : Nat → Check} {ls : List Nat} (h : ∀ l ∈ ls, chk l = .ok) : firstCheck chk ls = .ok := by
  induction ls with
  | nil => rfl
  | cons l ls ih =>
    rw [firstCheck, h l List.mem_cons_self]
    exact ih fun m hm => h m (List.mem_cons_of_mem l hm)

section
variable {f : Fields} {s : State} (may : MaySpill f s) (begins : s.me.trap.kLanes &&& s.cur.lanes = 0#32)
include may

theorem MaySpill.reach : reach s s.cur.gid (rangeAddr f (s.view f)) .write 0 f.b.toNat = .all :=
  reach_all _ 0 fun j _ lt => (may j (by omega)).imp fun _ h => h.1

include begins

theorem MaySpill.tests (aligned : rangeAddr f (s.view f) % 128 = 0) {l : Nat} (act : (s.view f).act.getLsbD l = true) :
    transferTests f .write s (s.view f) l = .ok := by
  have words : wordTests s (s.view f) .write (rangeAddr f (s.view f)) l (rangeFrom 0 f.b.toNat) = .ok :=
    firstCheck_of_ok fun j m => by
      obtain ⟨pa, hit, clear⟩ := may j (by rw [mem_rangeFrom] at m; omega)
      obtain ⟨debug, calm⟩ := clear l act
      have at' : regPa s (s.view f).gid (rangeAddr f (s.view f)) .write j = pa := by rw [regPa, view_gid, hit]; rfl
      rw [at']
      exact markTests_ok debug nofun fun _ => calm
  simp only [transferTests, startReg_fresh f begins, aligned, ne_eq, not_true_eq_false, if_false, view_gid, Nat.sub_zero,
    may.reach, Reach.stop, words]

/-- The entries of a `spill`, by registers and within a register by lanes. -/
theorem exec_spill_enqueues (h : Sys2Proof.free (.spill f) f s = true) (act : (s.view f).act ≠ 0#32) (aligned : rangeAddr f (s.view f) % 128 = 0) :
    exec (.spill f) s
      = .next ((s.enqueue (spillEntries f s (s.view f) (rangeAddr f (s.view f)) 0 f.b.toNat)).moreLines (.spill f)).retire := by
  have any : (s.view f).any = true := (any_iff s f).mpr act
  have pass : ∀ l, (s.view f).act.getLsbD l = true → transferTests f .write s (s.view f) l = .ok :=
    fun l on => may.tests begins aligned on
  rw [exec_spill, execSpill, issuedChk_runs _ (runs_of_free h pass)]
  simp only [any, Bool.not_true, Bool.false_eq_true, if_false, startReg_fresh f begins, view_gid, Nat.sub_zero, may.reach,
    Reach.stop, transferEnd]

end

theorem insertNum_length (n : Nat) (ns : List Nat) : (insertNum n ns).length ≤ ns.length + 1 := by
  induction ns with
  | nil => exact le_rfl
  | cons m ns ih =>
    rw [insertNum]
    split
    · exact le_rfl
    · split <;> simp only [List.length_cons] <;> omega

theorem sortNums_length (ns : List Nat) : (sortNums ns).length ≤ ns.length := by
  induction ns with
  | nil => exact le_rfl
  | cons n ns ih => exact (insertNum_length n _).trans (Nat.succ_le_succ ih)

/-- A `spill` needs the lines of its range alone. -/
theorem neededLines_spill (f : Fields) : (neededLines (.spill f)).length ≤ f.b.toNat := by
  refine (sortNums_length _).trans ?_
  by_cases none' : f.b.toNat = 0 <;> simp [staticRegs, desc, fieldsOf, fieldRegs, none']

/-- A group with its fast buffer and its count of misses as another has them. -/
def Group.linesFrom (g x : Group) : Group := { g with fb := x.fb, csr := { g.csr with fbmiss := x.csr.fbmiss } }

/-- Stores that enter the queue, lines of the fast buffer that are touched, and the step. -/
theorem retire_enqueue_moreLines (s : State) (es : List SqEntry) (i : Instr) : let t := ((s.enqueue es).moreLines i).retire
    enqueued s (t.linesOf s) es ∧ ((neededLines i).length ≤ 32 → t.me.fb = s.me.fb ∧ t.me.csr.fbmiss = s.me.csr.fbmiss) := by
  obtain ⟨fb, miss, lines⟩ := s.me.indexLines_eq ((neededLines i).drop 32)
  obtain ⟨h, eq, rest, v, u, p, csr, -, pcs⟩ := retireTo_eq ((s.enqueue es).moreLines i) fun _ => none
  have touched : ((s.enqueue es).moreLines i).me = s.me.indexLines ((neededLines i).drop 32) := me_setGrp (s.enqueue es) _
  have moved : ((s.enqueue es).moreLines i).retire = (s.enqueue es).setGrp s.cur.gid h := eq.trans (State.setGrp_setGrp _ _ _ _)
  have me : ((s.enqueue es).setGrp s.cur.gid h).me = h := me_setGrp (s.enqueue es) h
  rw [touched] at rest v u p csr pcs
  intro t
  rw [show t = (s.enqueue es).setGrp s.cur.gid h from moved, State.linesOf, me, State.setGrp_setGrp]
  refine ⟨enqueued_setGrp es ?_ ⟨?_, ?_, ?_, ?_, ?_⟩ fun l lt => (pcs l lt).trans (by rw [lines]; rfl), fun short => ?_⟩
  · exact (congrArg (Group.linesFrom · s.me) (rest.trans (congrArg Group.rest lines)) :)
  · rw [v, lines]
  · rw [u, lines]
  · rw [p, lines]
  · rw [csr, lines]
  · rw [csr, lines]
  · rw [List.drop_eq_nil_of_le short] at rest
    exact ⟨(congrArg Group.fb rest :), (congrArg (·.csr.fbmiss) rest :)⟩

end Sys2Proof.Machine

namespace Sys2Proof

open Sys2Proof.Machine

/-- Settles O27: a fence leaves what `closeFilter` leaves, and the lanes of a `commit` move as `commitLane` says. -/
theorem fencesCloseTheWriteFilter : Obligations.FencesCloseTheWriteFilter := by
  unfold Obligations.FencesCloseTheWriteFilter
  refine ⟨fun f s may => ?_, fun f s may => ?_⟩
  · rw [exec_fence_runs may]
    by_cases act : (s.view f).act = 0#32
    · have none' : (s.view f).any = false := by simp [View.any, act]
      have after := retire_steppedFrom s
      refine ⟨_, rfl, ?_⟩
      rw [none', if_neg Bool.false_ne_true, if_pos act]
      obtain ⟨go, still⟩ := retire_after (s := s) (u := s) rfl rfl rfl rfl
      refine ⟨go, still, (congrArg Group.filter after.rest :), fun n => ?_⟩
      rw [if_neg fun h => h.1 act, after.only.1]
      rfl
    · have any : (s.view f).any = true := (any_iff s f).mpr act
      have me := s.me_closeFilter
      have after := retire_steppedFrom (s.closeFilter s.cur.gid)
      refine ⟨_, rfl, ?_⟩
      rw [any, if_pos rfl, if_neg act]
      obtain ⟨go, still⟩ := retire_after (s := s) (s.cur_closeFilter _) (s.closeFilter_mem _) (by rw [me]; rfl) (by rw [me]; rfl)
      refine ⟨go, still, (congrArg Group.filter (after.rest.trans (congrArg Group.rest me)) :), fun n => ?_⟩
      rw [after.only.1]
      refine (s.sideOf_closeFilter s.cur.gid n).trans ?_
      simp only [ne_eq, act, not_false_eq_true, true_and]
      rfl
  · obtain ⟨h, eq, rest, v, u, p, csr, -, pcs⟩ := moveLanes_eq s (s.commitLane f (s.ctxOf s.me.team).committing)
    obtain ⟨-, lanes⟩ := s.moveLanes_me (s.commitLane f (s.ctxOf s.me.team).committing)
    have me : (s.moveLanes (s.commitLane f (s.ctxOf s.me.team).committing)).me = h := by rw [eq, me_setGrp]
    refine ⟨_, exec_commit_runs may, ?_, fun l lt => ?_, quiet_of_regs ?_ (by rw [eq]; rfl), fun l act => ?_⟩
    · rw [eq]
      exact framed_setGrp s rest
    · rw [me, pcs l lt, State.commitLane_pc]
      rfl
    · rw [me, Group.regs, v, u, p, csr]
      rfl
    · rw [Lane.wait_of_unmarked (lanes l (BitVec.lt_of_getLsbD act)), State.commitLane_wait act]

/-- Settles O24: the entries of the rule enter the queue, and nothing else changes but for the step. -/
theorem storesEnterTheQueue : Obligations.StoresEnterTheQueue := by
  unfold Obligations.StoresEnterTheQueue
  intro f s v addr
  refine ⟨fun may access => ⟨_, exec_st_enqueues may access, retire_enqueue _ _⟩,
    fun may access => ⟨_, exec_stGDirect_enqueues may access, retire_enqueue _ _⟩,
    fun may normal access => ⟨_, exec_red_enqueues may normal access, retire_enqueue _ _⟩, fun may act begins aligned words => ?_⟩
  obtain ⟨entered, lines⟩ := retire_enqueue_moreLines s (spillEntries f s v addr 0 f.b.toNat) (.spill f)
  exact ⟨_, exec_spill_enqueues words begins may act aligned, fun short => lines ((neededLines_spill f).trans short), entered⟩

end Sys2Proof
end

section
/-!
PROOFS. A performed store writes its own bytes and no others (R220, R221, R226, R254).
-/

namespace Sys2Proof.Machine

open Sys2Proof

/-! ### One word of memory (R226) -/

/-- Bytes of lines of the reader's own are those of memory (R212). -/
theorem State.bytesAs_own {s : State} {key pa n : Nat} (own : ∀ j, j < n → ownLine s key (pa + j)) : s.bytesAs key pa n = readCells s.mem pa n :=
  List.map_congr_left fun a m => by
    rw [mem_rangeFrom] at m
    have mine := own (a - pa) (by omega)
    rw [show pa + (a - pa) = a by omega] at mine
    exact State.byteAs_own mine

/-- An aligned word lies in one line. -/
theorem ownLine_word {s : State} {key pa : Nat} (aligned : pa % 4 = 0) (own : ownLine s key pa) {j : Nat} (lt : j < 4) : ownLine s key (pa + j) := by
  rwa [ownLine, show (pa + j) / 64 = pa / 64 by omega]

/-- The bytes from `pa` on are `bs`; every other byte of `m` is as in `m0` (R221). -/
def WordWritten (m0 m : List Host.Cell) (pa : Nat) (w : Word) : Prop :=
  readCells m pa 4 = leBytes 4 w.toNat ∧ ∀ a, a < pa ∨ pa + 4 ≤ a → readCell m a = readCell m0 a

theorem State.writeAs_word {s : State} {key pa : Nat} (w : Word) (wf : Memory.wf s.mem = true) (aligned : pa % 4 = 0) (own : ownLine s key pa) :
    WordWritten s.mem (s.writeAs key pa (leBytes 4 w.toNat)).mem pa w := by
  have cells := s.readCell_writeAs_own key pa (leBytes 4 w.toNat) (List.ne_nil_of_length_pos (by simp)) wf fun j lt =>
    ownLine_word aligned own (by simpa using lt)
  rw [leBytes_length] at cells
  refine ⟨(congrArg _ (leBytes_length 4 w.toNat).symm).trans (readCells_eq fun j lt => ?_), fun a out => ?_⟩
  · rw [leBytes_length] at lt
    rw [cells, if_pos (by omega), Nat.add_sub_cancel_left]
  · rw [cells, if_neg (by omega)]

theorem State.wordAt_own {s : State} {key pa : Nat} (aligned : pa % 4 = 0) (own : ownLine s key pa) :
    s.wordAt key .global pa = BitVec.ofNat 32 (leVal (readCells s.mem pa 4)) := by
  rw [State.wordAt, State.bytesAs_own fun j lt => ownLine_word aligned own lt]

/-- An atomic step on a word of the lane's own: the old word, and memory with the new one (R226). -/
theorem State.atomStep_own {s : State} {key pa : Nat} (op ty : Nat) (v v2 : Word) (wf : Memory.wf s.mem = true) (aligned : pa % 4 = 0)
    (own : ownLine s key pa) : let w := BitVec.ofNat 32 (leVal (readCells s.mem pa 4)); let r := s.atomStep key op ty .global pa v v2
    r.1 = w ∧ WordWritten s.mem r.2.mem pa (atomWord op ty w v v2) := by
  intro w r
  have old : s.wordAt key .global pa = w := State.wordAt_own aligned own
  have new : r.2 = s.writeAs key pa (leBytes 4 (atomWord op ty w v v2).toNat) := by rw [← old]; rfl
  rw [new]
  exact ⟨old, State.writeAs_word _ wf aligned own⟩

/-! ### Lines noted beside a store (R249, R250) -/

theorem State.closeLines_mem (ls : List Nat) (s : State) : (ls.foldl State.closeLine s).mem = s.mem :=
  List.foldlRecOn (motive := fun t : State => t.mem = s.mem) ls _ rfl fun t ht l _ => (t.closeLine_mem l).trans ht

theorem State.openLines_mem (s : State) (gid pa n : Nat) : (s.openLines gid pa n).mem = s.mem := by
  unfold State.openLines
  split
  · rfl
  · exact List.foldlRecOn (motive := fun t : State => t.mem = s.mem) _ _ rfl fun t ht l _ => (t.openLine_linesNoted gid l).mem.trans ht

theorem State.releaseFirst_linesNoted (s : State) (e : SqEntry) : LinesNoted s (s.releaseFirst e) := by
  unfold State.releaseFirst
  split
  · exact s.closeFilter_linesNoted _
  · exact .refl s

theorem LinesNoted.team {s t : State} (h : LinesNoted s t) (k : Nat) : t.team k = s.team k := by rw [State.team, h.teams, State.team]

theorem State.overHeld_mem (s : State) (t pa n : Nat) : (s.overHeld t pa n).mem = s.mem := by
  unfold State.overHeld
  split <;> rfl

theorem State.overHeld_cores (s : State) (t pa n : Nat) : (s.overHeld t pa n).cores = s.cores := by
  unfold State.overHeld
  split <;> rfl

/-! ### What a store writes -/

/-- A store that is no reduction. -/
def SqEntry.puts (e : SqEntry) : Prop := e.kind = .plain ∨ e.kind = .direct ∨ e.kind = .spill

section
variable {s : State} {e : SqEntry} {key : Nat} {opens : Bool}

theorem State.writeStore_global_mem (puts : e.puts) (space : e.space = .global) :
    (s.writeStore key opens e).mem = (s.writeAs key e.pa e.bytes).mem := by
  have marked := ((s.writeAs key e.pa e.bytes).lineStored_onlySide e).mem
  have noted : s.writeStore key opens e = (let t := (s.writeAs key e.pa e.bytes).lineStored e
      if opens && e.rel.isNone then t.openLines e.gid e.pa e.bytes.length
      else if e.rel.isNone then (rangeFrom (e.pa / 64) 1).foldl State.closeLine t else t) := by
    rcases puts with kind | kind | kind <;> simp only [State.writeStore, kind, space]
  rw [noted]
  dsimp only
  split
  · rw [State.openLines_mem, marked]
  · split
    · rw [State.closeLines_mem, marked]
    · exact marked

theorem State.writeStore_spad {w : Nat} (puts : e.puts) (space : e.space = .spad w) : s.writeStore key opens e = s.spadWrite w e.va e.bytes := by
  rcases puts with kind | kind | kind <;> simp only [State.writeStore, kind, space]

theorem State.writeStore_red {op ty : Nat} (kind : e.kind = .red op ty) (space : e.space = .global) :
    s.writeStore key opens e = (s.atomStep key op ty .global e.pa (BitVec.ofNat 32 (leVal e.bytes)) 0#32).2 := by
  simp only [State.writeStore, kind, space, SqEntry.at]

/-- A performed global store: memory is as its writing leaves it. -/
theorem State.performStore_global_mem (space : e.space = .global) :
    (s.performStore key opens e).mem = ((s.releaseFirst e).writeStore key opens e).mem := by
  simp only [State.performStore, space, beq_self_eq_true, if_true, State.overHeld_mem]

theorem State.performStore_spad {w : Nat} (space : e.space = .spad w) : s.performStore key opens e = (s.releaseFirst e).writeStore key opens e := by
  have other : (e.space == .global) = false := by rw [space]; rfl
  simp only [State.performStore, other, Bool.false_eq_true, if_false]

end

theorem State.performStore_cores (s : State) (key : Nat) (opens : Bool) (e : SqEntry) : (s.performStore key opens e).cores = s.cores := by
  have stored : ((s.releaseFirst e).writeStore key opens e).cores = s.cores := by
    rw [((s.releaseFirst_performs e).trans (State.writeStore_performs _ key opens e)).eq]
  unfold State.performStore
  dsimp only
  split
  · rw [State.overHeld_cores, stored]
  · exact stored

/-- The ticket unit takes a store behind those that it holds of the team (R254). -/
theorem State.holdStore_spec (s : State) (e : SqEntry) : let t := s.holdStore e
    t.mem = s.mem ∧ t.cores = s.cores ∧ (t.team (s.grp e.gid).team).held = (s.team (s.grp e.gid).team).held ++ [e] := by
  have noted := s.releaseFirst_linesNoted e
  have team := (s.releaseFirst_performs e).groups e.gid
  unfold State.holdStore
  dsimp only
  rw [State.team_armTicket, State.mem_armTicket, State.armTicket_eq, team, State.team_setTeam, noted.team]
  exact ⟨noted.mem, by rw [State.setTeam, noted.eq], rfl⟩

theorem State.finishStore_cores (s : State) (held : Bool) (e : SqEntry) : (s.finishStore held e).cores = s.cores := by
  unfold State.finishStore
  split
  · exact (s.holdStore_spec e).2.1
  · exact s.performStore_cores _ _ e

/-! ### STORE_PERFORM -/

/-- The state with entry `k` out of a core's store queue. -/
def State.unqueuedStore (s : State) (core k : Nat) : State := s.setCore core { s.core core with sq := dropNth (s.core core).sq k }

section
variable {core k : Nat} {e : SqEntry} {s : State} (found : (s.core core).sq[k]? = some e) (ready : storeReady s core k e = true)
include found ready

theorem exec_storePerform_runs : exec (.storePerform core k) s = .next ((s.unqueuedStore core k).finishStore (s.holdsBack e) e) := by
  rw [exec_storePerform, execStorePerform]
  simp only [found, ready, Bool.not_true, Bool.false_eq_true, if_false]
  rfl

/-- The entry leaves the queue, and what comes of it depends on the state without it alone. -/
theorem storePerform_leaves {P : State → Prop} (h : P ((s.unqueuedStore core k).finishStore (s.holdsBack e) e)) :
    ∃ t, (exec (.storePerform core k) s = .next t ∧ (t.core core).sq = dropNth (s.core core).sq k) ∧ P t := by
  refine ⟨_, ⟨exec_storePerform_runs found ready, ?_⟩, h⟩
  rw [State.core, State.finishStore_cores, ← State.core, State.unqueuedStore, State.core_setCore]

end

section
variable {s : State} {e : SqEntry}

/-- A store that is not held writes as if its lines closed first. -/
theorem State.finishStore_global_mem (free : s.holdsBack e = false) (space : e.space = .global) (u : State) :
    ∃ opens, (u.finishStore (s.holdsBack e) e).mem = ((u.releaseFirst e).writeStore (u.sqKey e) opens e).mem := by
  rw [free]
  exact ⟨_, State.performStore_global_mem space⟩

theorem State.holdsBack_global (h : s.holdsBack e = true) : e.space = .global := by
  simp only [State.holdsBack, Bool.and_eq_true, beq_iff_eq] at h
  exact h.1.1.2

theorem State.holdsBack_red {op ty : Nat} (kind : e.kind = .red op ty) : s.holdsBack e = false := by
  rw [State.holdsBack, kind]
  rfl

/-- A performed plain store writes its bytes. -/
theorem State.finishStore_puts {core k : Nat} (puts : e.puts) (space : e.space = .global) (free : s.holdsBack e = false) (some' : e.bytes ≠ [])
    (wf : Memory.wf s.mem = true) (own : ∀ j, j < e.bytes.length → ownLine s (s.keyOf e.gid) (e.pa + j)) (a : Nat) :
    readCell ((s.unqueuedStore core k).finishStore (s.holdsBack e) e).mem a
      = if e.pa ≤ a ∧ a < e.pa + e.bytes.length then nth 0#8 e.bytes (a - e.pa) else readCell s.mem a := by
  have noted := (s.unqueuedStore core k).releaseFirst_linesNoted e
  obtain ⟨opens, mem⟩ := State.finishStore_global_mem free space (s.unqueuedStore core k)
  have key : (s.unqueuedStore core k).sqKey e = s.keyOf e.gid := rfl
  rw [mem, key, State.writeStore_global_mem puts space, State.readCell_writeAs_own _ _ _ _ some' (by rw [noted.mem]; exact wf)
    (fun j lt => noted.own _ _ (own j lt)), noted.mem]
  rfl

/-- A performed store into a window writes its bytes there, and no byte of memory. -/
theorem State.finishStore_spad {core k w : Nat} (puts : e.puts) (space : e.space = .spad w) (wf : Memory.wf (s.team w).spad = true) :
    let t := (s.unqueuedStore core k).finishStore (s.holdsBack e) e
    t.mem = s.mem ∧ ∀ a, readCell (t.team w).spad a
      = if e.va ≤ a ∧ a < e.va + e.bytes.length then nth 0#8 e.bytes (a - e.va) else readCell (s.team w).spad a := by
  have noted := (s.unqueuedStore core k).releaseFirst_linesNoted e
  have free : s.holdsBack e = false := Bool.eq_false_iff.mpr fun held => by simp [State.holdsBack_global held] at space
  intro t
  have wrote : t = ((s.unqueuedStore core k).releaseFirst e).spadWrite w e.va e.bytes := by
    show (s.unqueuedStore core k).finishStore (s.holdsBack e) e = _
    rw [free]
    exact (State.performStore_spad space).trans (State.writeStore_spad puts space)
  rw [wrote]
  refine ⟨noted.mem, fun a => ?_⟩
  rw [State.spadWrite, State.team_setTeam, noted.team]
  exact readCell_writeCells _ _ _ wf a

/-- A performed reduction combines its operand with the word that is there. -/
theorem State.finishStore_red {core k op ty : Nat} (kind : e.kind = .red op ty) (space : e.space = .global) (aligned : e.pa % 4 = 0)
    (own : ownLine s (s.keyOf e.gid) e.pa) (wf : Memory.wf s.mem = true) :
    WordWritten s.mem ((s.unqueuedStore core k).finishStore (s.holdsBack e) e).mem e.pa
      (atomWord op ty (BitVec.ofNat 32 (leVal (readCells s.mem e.pa 4))) (BitVec.ofNat 32 (leVal e.bytes)) 0#32) := by
  have noted := (s.unqueuedStore core k).releaseFirst_linesNoted e
  obtain ⟨opens, mem⟩ := State.finishStore_global_mem (State.holdsBack_red kind) space (s.unqueuedStore core k)
  have same : ((s.unqueuedStore core k).releaseFirst e).mem = s.mem := noted.mem
  obtain ⟨-, written⟩ := State.atomStep_own (s := (s.unqueuedStore core k).releaseFirst e) op ty (BitVec.ofNat 32 (leVal e.bytes)) 0#32
    (by rw [same, wf]) aligned (noted.own _ _ own)
  rw [same] at written
  rw [mem, State.writeStore_red kind space]
  exact written

end

end Sys2Proof.Machine

namespace Sys2Proof

open Sys2Proof.Machine

/-- Settles O25: a store that leaves the queue is performed by its kind and space, or held. -/
theorem storePerformWritesItsBytes : Obligations.StorePerformWritesItsBytes := by
  unfold Obligations.StorePerformWritesItsBytes
  intro core k e s found ready performed plain
  refine ⟨fun puts space free some' wf own => ?_, fun w puts space wf => ?_, fun op ty kind space aligned own wf => ?_, fun held => ?_⟩
  · exact storePerform_leaves found ready (State.finishStore_puts puts space free some' wf own)
  · obtain ⟨mem, spad⟩ := State.finishStore_spad (core := core) (k := k) puts space wf
    refine storePerform_leaves found ready ?_
    exact ⟨fun a => by rw [mem], spad⟩
  · exact storePerform_leaves found ready (State.finishStore_red kind space aligned own wf)
  · obtain ⟨mem, -, taken⟩ := (s.unqueuedStore core k).holdStore_spec e
    have holds : (s.unqueuedStore core k).finishStore (s.holdsBack e) e = (s.unqueuedStore core k).holdStore e := by rw [held]; rfl
    refine storePerform_leaves found ready ?_
    rw [holds]
    exact ⟨fun a => by rw [mem]; rfl, taken⟩

end Sys2Proof
end

section
/-!
PROOFS. Deterministic atomics: their staging, and the order in which staged entries are applied (R227, R228).
-/

namespace Sys2Proof.Machine

open Sys2Proof

/-! ### The order of entries (R227) -/

/-- What an entry is sorted by. -/
def stagedKey (e : Staged) : List Nat :=
  if e.space == .global then [1, e.block, e.flush, e.role, e.lane, e.ord] else [0, e.flush, e.block, e.role, e.lane, e.ord]

/-- An entry comes no later than another. -/
abbrev StagedBefore : Staged → Staged → Prop := stagedKey ⁻¹'o (· ≤ ·)

theorem stagedLe_eq (a b : Staged) : stagedLe a b = decide (StagedBefore a b) := rfl

theorem insertStaged_eq (e : Staged) (es : List Staged) : insertStaged e es = es.orderedInsert StagedBefore e := by
  induction es with
  | nil => rfl
  | cons x es ih =>
    rw [insertStaged, List.orderedInsert, stagedLe_eq, ih]
    exact if_congr decide_eq_true_iff rfl rfl

/-- Entries are sorted by insertion. -/
theorem sortStaged_eq (es : List Staged) : sortStaged es = es.insertionSort StagedBefore := by
  induction es with
  | nil => rfl
  | cons e es ih => rw [sortStaged, insertStaged_eq, ih, List.insertionSort_cons]

theorem sortStaged_perm (es : List Staged) : (sortStaged es).Perm es := sortStaged_eq es ▸ es.perm_insertionSort StagedBefore

theorem sortStaged_sorted (es : List Staged) : (sortStaged es).Pairwise StagedBefore := sortStaged_eq es ▸ es.pairwise_insertionSort StagedBefore

theorem le_of_cons_le_cons {n : Nat} {x y : List Nat} (h : n :: x ≤ n :: y) : x ≤ y :=
  not_lt.mp fun lt => not_lt.mpr h (List.cons_lt_cons_self.mpr lt)

/-- Global entries are in the order of block, flush, role, lane and issue. -/
theorem StagedBefore.of_global {a b : Staged} (ha : a.space = .global) (hb : b.space = .global) (h : StagedBefore a b) :
    [a.block, a.flush, a.role, a.lane, a.ord] ≤ [b.block, b.flush, b.role, b.lane, b.ord] := by
  simp only [Order.Preimage, stagedKey, ha, hb, beq_self_eq_true, if_true] at h
  exact le_of_cons_le_cons h

/-! ### Entries leave the teams that handed them over -/

/-- A team but for the entries of `es` among those that it has handed over. -/
def Team.without (x : Team) (es : List Staged) : Team := { x with handed := x.handed.filter (!es.contains ·) }

theorem Team.without_without (x : Team) (es : List Staged) : (x.without es).without es = x.without es := by
  simp only [Team.without, List.filter_filter, Bool.and_self]

theorem State.takeHanded_cons (s : State) (t : Nat) (ts : List Nat) (es : List Staged) :
    s.takeHanded (t :: ts) es = (s.setTeam t ((s.team t).without es)).takeHanded ts es := rfl

theorem State.takeHanded_team (ts : List Nat) (es : List Staged) (s : State) (u : Nat) :
    (s.takeHanded ts es).team u = if u ∈ ts then (s.team u).without es else s.team u := by
  induction ts generalizing s with
  | nil => rfl
  | cons t ts ih =>
    rw [State.takeHanded_cons, ih]
    by_cases here : u = t
    · subst here
      simp [Team.without_without]
    · simp [here, State.team_setTeam_ne _ _ here]

theorem State.takeHanded_eq (s : State) (ts : List Nat) (es : List Staged) : s.takeHanded ts es = { s with teams := (s.takeHanded ts es).teams } :=
  List.foldlRecOn (motive := fun t : State => t = { s with teams := t.teams }) ts _ rfl fun t ht u _ => by rw [ht]; rfl

/-! ### States whose bytes are the same -/

/-- Two states hold the same bytes, in lines of the same owners and keys. -/
structure SameBytes (s t : State) : Prop where
  mem : t.mem = s.mem
  pkg : t.pkg = s.pkg
  key : ∀ l, (t.sideOf l).key = (s.sideOf l).key
  gen : ∀ l, (t.sideOf l).gen = (s.sideOf l).gen

namespace SameBytes

theorem refl (s : State) : SameBytes s s := ⟨rfl, rfl, fun _ => rfl, fun _ => rfl⟩

theorem trans {s t u : State} (a : SameBytes s t) (b : SameBytes t u) : SameBytes s u :=
  ⟨b.mem.trans a.mem, b.pkg.trans a.pkg, fun l => (b.key l).trans (a.key l), fun l => (b.gen l).trans (a.gen l)⟩

variable {s t : State} (h : SameBytes s t)
include h

theorem keyGenOf (key : Nat) : t.keyGenOf key = s.keyGenOf key := by rw [State.keyGenOf, h.pkg]; rfl

theorem byteAs (key pa : Nat) : t.byteAs key pa = s.byteAs key pa := by
  simp only [State.byteAs, State.block16, h.mem, h.key, h.gen, h.keyGenOf]

theorem bytesAs (key pa n : Nat) : t.bytesAs key pa n = s.bytesAs key pa n := by
  simp only [State.bytesAs, funext (h.byteAs key)]

theorem withMem (m : List Host.Cell) : SameBytes { s with mem := m } { t with mem := m } := ⟨rfl, h.pkg, h.key, h.gen⟩

/-- A side-band word set in both states, to the same owner and key. -/
theorem setSide (l : Nat) {x y : Side} (key : y.key = x.key) (gen : y.gen = x.gen) : SameBytes (s.setSide l x) (t.setSide l y) := by
  refine ⟨h.mem, h.pkg, fun m => ?_, fun m => ?_⟩
  all_goals by_cases here : m = l
  · rw [here, State.sideOf_setSide, State.sideOf_setSide, key]
  · rw [State.sideOf_setSide_ne _ _ here, State.sideOf_setSide_ne _ _ here, h.key]
  · rw [here, State.sideOf_setSide, State.sideOf_setSide, gen]
  · rw [State.sideOf_setSide_ne _ _ here, State.sideOf_setSide_ne _ _ here, h.gen]

theorem writeLine (key line pa : Nat) (bs : List Byte) : SameBytes (s.writeLine key line pa bs) (t.writeLine key line pa bs) := by
  simp only [State.writeLine, h.byteAs, h.mem, h.keyGenOf]
  exact (h.withMem _).setSide line rfl rfl

omit h in
theorem writeLines (key pa : Nat) (bs : List Byte) (ls : List Nat) {s t : State} (h : SameBytes s t) :
    SameBytes (ls.foldl (fun u l => u.writeLine key l pa bs) s) (ls.foldl (fun u l => u.writeLine key l pa bs) t) := by
  induction ls generalizing s t with
  | nil => exact h
  | cons l ls ih =>
    rw [List.foldl_cons, List.foldl_cons]
    exact ih (h.writeLine key l pa bs)

theorem writeAs (key pa : Nat) (bs : List Byte) : SameBytes (s.writeAs key pa bs) (t.writeAs key pa bs) := by
  unfold State.writeAs
  split
  · exact h
  · exact writeLines key pa bs _ h

end SameBytes

theorem State.closeFilter_sameBytes (s : State) (gid : Nat) : SameBytes s (s.closeFilter gid) := by
  obtain ⟨t, only, eq⟩ := s.closeFilter_eq gid
  refine ⟨s.closeFilter_mem gid, by rw [eq, only]; rfl, fun l => ?_, fun l => ?_⟩
  all_goals
    rw [State.sideOf_closeFilter]
    split <;> rfl

/-! ### Applied entries -/

/-- An entry of `red` at global memory. -/
def Staged.reduces (e : Staged) : Prop := e.atom = none ∧ e.space = .global

/-- A reduction of the word that is there under a key (R226). -/
def State.reduce (s : State) (key : Nat) (e : Staged) : State :=
  s.writeAs key e.pa (leBytes 4 (atomWord e.op e.ty (BitVec.ofNat 32 (leVal (s.bytesAs key e.pa 4))) e.opnd e.opnd2).toNat)

theorem SameBytes.reduce {s t : State} (h : SameBytes s t) (key : Nat) (e : Staged) : SameBytes (s.reduce key e) (t.reduce key e) := by
  simp only [State.reduce, h.bytesAs]
  exact h.writeAs _ _ _

theorem State.applyStaged_reduces (s : State) {e : Staged} (h : e.reduces) :
    s.applyStaged e = (if e.rel then s.closeFilter e.gid else s).reduce (s.ctx e.ctx).key e := by
  obtain ⟨atom, space⟩ := h
  have ctx : (if e.rel then s.closeFilter e.gid else s).ctx e.ctx = s.ctx e.ctx := by
    split
    · rw [State.ctx, (s.closeFilter_performs e.gid).eq, ← State.ctx]
      rfl
    · rfl
  simp only [State.applyStaged, atom, space, ctx]
  rfl

theorem State.applyAll_cons_reduces (s : State) {e : Staged} (es : List Staged) (h : e.reduces) : s.applyAll (e :: es) = (s.applyStaged e).applyAll es := by
  simp only [State.applyAll, h.1]

/-- Entries of `red` are applied one after another, each to the word that the ones before it have left. -/
theorem State.applyAll_sameBytes (ctxs : Tab Ctx) (es : List Staged) {s t : State} (h : SameBytes s t) (same : t.ctxs = ctxs)
    (reduces : ∀ e ∈ es, e.reduces) : SameBytes (es.foldl (fun u e => u.reduce (Tab.get {} ctxs e.ctx).key e) s) (t.applyAll es) := by
  induction es generalizing s t with
  | nil => exact h
  | cons e es ih =>
    have first := reduces e List.mem_cons_self
    have closed : SameBytes t (if e.rel then t.closeFilter e.gid else t) := by
      split
      · exact t.closeFilter_sameBytes _
      · exact .refl t
    have key : Tab.get {} ctxs e.ctx = t.ctx e.ctx := by rw [State.ctx, same]
    rw [List.foldl_cons, State.applyAll_cons_reduces t es first]
    refine ih ?_ (by rw [(t.applyStaged_performs e).eq, same]) fun x m => reduces x (List.mem_cons_of_mem e m)
    rw [State.applyStaged_reduces t first, key]
    exact (h.trans closed).reduce _ e

/-! ### STAGED_ENTRY_APPLY -/

theorem State.settleTicket_eq (s : State) (k : Nat) : s.settleTicket k = { s with launches := (s.settleTicket k).launches } := by
  unfold State.settleTicket
  split
  · split <;> rfl
  · rfl

/-- The entries that a cluster has handed over and that may be applied now. -/
def State.applicable (s : State) (ts : List Nat) : List Staged := ts.flatMap fun u => (s.team u).handed.filter fun e => s.canApply e u

/-- Of the entries in order, the first one that waits and all behind it. -/
def State.waitingStaged (s : State) (ts : List Nat) : List Staged := (sortStaged (s.applicable ts)).dropWhile s.stagedReady

theorem State.readyStaged_append (s : State) (ts : List Nat) : s.readyStaged ts ++ s.waitingStaged ts = sortStaged (s.applicable ts) :=
  List.takeWhile_append_dropWhile

theorem State.stagedReady_of_ready {s : State} {ts : List Nat} {e : Staged} (m : e ∈ s.readyStaged ts) : s.stagedReady e = true :=
  List.mem_takeWhile_imp m

theorem State.stagedReady_of_waiting {s : State} {ts : List Nat} {e : Staged} (m : e ∈ (s.waitingStaged ts).head?) : s.stagedReady e = false := by
  have first := List.head?_dropWhile_not s.stagedReady (sortStaged (s.applicable ts))
  rw [← State.waitingStaged, Option.mem_def.mp m] at first
  exact first

theorem exec_stagedEntryApply_runs {team : Nat} {s : State} (bound : (s.team team).bound = true) : exec (.stagedEntryApply team) s
    = .next (((s.takeHanded (s.clusterOf team) (s.readyStaged (s.clusterOf team))).applyAll (s.readyStaged (s.clusterOf team))).settleTicket
        (s.team team).launch) := by
  rw [exec_stagedEntryApply, execStagedEntryApply, bound]
  rfl

/-! ### Staging (R227, R228) -/

/-- What the rule says of the entries that an instruction stages. -/
def StagesRule (f : Fields) (s : State) (atom : Option (Nat × Nat)) (es : List Staged) : Prop :=
  let v := s.view f
  let x := s.team s.me.team
  es.map (·.lane) = lanesOf v.act
    ∧ ∀ e ∈ es, e.role = s.me.role ∧ e.ord = s.seqno ∧ e.block = x.block ∧ e.ctx = x.ctx ∧ e.op = f.sub.toNat % 8 ∧ e.ty = f.tyN
      ∧ e.space = spaceOf f (whereAtom f) s v ∧ e.opnd = v.c f e.lane ∧ e.atom = atom
      ∧ e.va = (if whereAtom f = .global then v.gaddr f e.lane else (v.laddr f e.lane).toNat)
      ∧ (whereAtom f = .global → e.pa = (s.xlate s.cur.gid (v.gaddr f e.lane) .both).pa)

theorem stagedEntries_rule (f : Fields) (atom : Bool) (s : State) :
    StagesRule f s (if atom then some (s.cur.gid, s.seqno) else none) (stagedEntries f atom s (s.view f)) := by
  refine ⟨?_, fun e m => ?_⟩
  · simp only [stagedEntries, List.map_map, Function.comp_def, List.map_id']
  · obtain ⟨l, on, rfl⟩ := List.mem_map.mp m
    refine ⟨rfl, rfl, rfl, rfl, rfl, rfl, rfl, rfl, rfl, View.addr_eq _ _ _ _, fun w => ?_⟩
    exact (nth_laneAddrs s f _ _ (mem_lanesOf.mp on)).trans (if_pos w)

theorem stagedEntries_ne_nil {f : Fields} {s : State} (atom : Bool) (act : (s.view f).act ≠ 0#32) : stagedEntries f atom s (s.view f) ≠ [] := by
  intro empty
  have none' : lanesOf (s.view f).act = [] := List.map_eq_nil_iff.mp empty
  refine act (BitVec.eq_of_getLsbD_eq fun l _ => ?_)
  rw [BitVec.getLsbD_zero, Bool.eq_false_iff]
  intro on
  have m := mem_lanesOf.mpr on
  rw [none'] at m
  exact List.not_mem_nil m

/-- What staging leaves: the entries in the team's buffer; the group as it was, with its lines closed or not. -/
structure Stages (s t : State) (es : List Staged) : Prop where
  cur : t.cur = s.cur
  mem : t.mem = s.mem
  seqno : t.seqno = s.seqno
  me : t.me = s.me ∨ t.me = s.me.unfiltered
  staged : (t.team s.me.team).staged = (s.team s.me.team).staged ++ es

theorem Stages.of_me {α : Type} {s t : State} {es : List Staged} (h : Stages s t es) (g : Group → α) (same : g s.me.unfiltered = g s.me) :
    g t.me = g s.me := by
  rcases h.me with e | e <;> rw [e]
  exact same

theorem State.stage_stages (s : State) (f : Fields) {es : List Staged} (some' : es ≠ []) : Stages s (s.stage f (s.view f) es) es := by
  have any : es.isEmpty = false := List.isEmpty_eq_false_iff.mpr some'
  unfold State.stage
  simp only [any, Bool.not_false, Bool.and_true, Bool.false_eq_true, if_false, view_gid, view_g]
  have closed : ∀ u : State, u.cur = s.cur → u.mem = s.mem → u.seqno = s.seqno → u.teams = s.teams → (u.me = s.me ∨ u.me = s.me.unfiltered) →
      Stages s ((u.setTeam s.me.team { u.team s.me.team with staged := (u.team s.me.team).staged ++ es }).armTicket s.me.team) es := by
    intro u cur mem seqno teams me
    have team : u.team s.me.team = s.team s.me.team := by rw [State.team, teams, State.team]
    rw [State.armTicket_eq]
    refine ⟨cur, mem, seqno, me, ?_⟩
    rw [← team]
    exact congrArg Team.staged (State.team_setTeam u _ _)
  split
  · obtain ⟨t, only, eq⟩ := s.closeFilter_eq s.cur.gid
    exact closed _ (s.cur_closeFilter _) (s.closeFilter_mem _) (by rw [eq, only]; rfl) (by rw [eq, only]; rfl) (.inr s.me_closeFilter)
  · exact closed s rfl rfl rfl rfl (.inl rfl)

/-- A long-latency instruction that joins the group's operations: its flag counts one more (R61, R346). -/
def Group.joined (g : Group) (p : Pend) : Group := { g with ops := g.ops ++ [p], flags := countUp p.flag g.flags }

theorem State.issueOp_eq (s : State) (gid : Nat) (p : Pend) : s.issueOp gid p = { s.setGrp gid ((s.grp gid).joined p) with seqno := s.seqno + 1 } := by
  unfold State.issueOp Group.joined countUp
  cases p.flag <;> rfl

/-- The pending operation of a staged `atom`. -/
def State.stagedAtom (s : State) (f : Fields) : Pend :=
  { accessPend (.atom f) f (atomSpec f s (s.view f)) s (s.view f) with
    val := mkLanes ((s.view f).c f), val2 := mkLanes (casNew f (s.view f)), staged := true }

section
variable {f : Fields} {s : State} (det : s.det s.me.team = true)
include det

theorem exec_atom_stages (h : Sys2Proof.free (.atom f) f s = true) (act : (s.view f).act ≠ 0#32)
    (may : ∀ l, (s.view f).act.getLsbD l = true → mayAccess f (atomSpec f s (s.view f)) s l) : exec (.atom f) s
      = .next ((s.stage f (s.view f) (stagedEntries f true s (s.view f))).issueOp s.cur.gid (s.stagedAtom f)).retire := by
  have any : (s.view f).any = true := (any_iff s f).mpr act
  rw [exec_atom, execAtom, issuedChk_runs _ (runs_of_free (chk := fun v => accessTests f (atomSpec f s v) s v) h fun l on => accessTests_ok (may l on))]
  simp only [view_g, det, any, Bool.and_self, if_true]
  rfl

theorem exec_red_stages (h : Sys2Proof.free (.red f) f s = true) (may : ∀ l, (s.view f).act.getLsbD l = true → mayAccess f (redSpec f) s l) :
    exec (.red f) s = .next { s.stage f (s.view f) (stagedEntries f false s (s.view f)) with seqno := s.seqno + 1 }.retire := by
  rw [exec_red, execRed, issuedChk_runs _ (runs_of_free h fun l on => accessTests_ok (may l on)), view_g, det, if_pos rfl]

end

/-- A staged `atom` is pending until its entries have been applied. -/
theorem stagedAtom_after {s : State} {f : Fields} {es : List Staged} {u : State} (h : Stages s u es) :
    let t := (u.issueOp s.cur.gid (s.stagedAtom f)).retire
    steps s t ∧ quiet s t ∧ (t.team s.me.team).staged = (s.team s.me.team).staged ++ es ∧ t.me.ops = s.me.ops ++ [s.stagedAtom f]
      ∧ t.me.flags = countUp (s.flagHere f) s.me.flags := by
  have grp : u.grp s.cur.gid = u.me := by rw [State.me, h.cur]
  have me : (u.issueOp s.cur.gid (s.stagedAtom f)).me = u.me.joined (s.stagedAtom f) := by
    rw [State.issueOp_eq, grp, ← h.cur]
    exact me_setGrp u _
  have after := retire_steppedFrom (u.issueOp s.cur.gid (s.stagedAtom f))
  obtain ⟨go, still⟩ := retire_after (s := s) (u := u.issueOp s.cur.gid (s.stagedAtom f)) h.cur h.mem
    (by rw [me]; exact h.of_me Group.regs rfl) (by rw [me]; exact h.of_me Group.lanes rfl)
  refine ⟨go, still, (congrArg Team.staged (after.team _)).trans h.staged, (congrArg Group.ops after.rest :).trans ?_,
    (congrArg Group.flags after.rest :).trans ?_⟩
  · rw [me, ← h.of_me Group.ops rfl]
    rfl
  · rw [me, ← h.of_me Group.flags rfl]
    rfl

/-- Staged reductions leave nothing pending. -/
theorem stagedRed_after {s u : State} {es : List Staged} (h : Stages s u es) (n : Nat) : let t := { u with seqno := n }.retire
    steps s t ∧ quiet s t ∧ (t.team s.me.team).staged = (s.team s.me.team).staged ++ es ∧ t.me.ops = s.me.ops ∧ t.me.flags = s.me.flags := by
  have after := retire_steppedFrom { u with seqno := n }
  obtain ⟨go, still⟩ := retire_after (s := s) (u := { u with seqno := n }) h.cur h.mem (h.of_me Group.regs rfl) (h.of_me Group.lanes rfl)
  exact ⟨go, still, (congrArg Team.staged (after.team _)).trans h.staged, (congrArg Group.ops after.rest :).trans (h.of_me Group.ops rfl),
    (congrArg Group.flags after.rest :).trans (h.of_me Group.flags rfl)⟩

/-! ### `aflush` (R228) -/

/-- A team whose staged entries are handed over as flush `n`. -/
def Team.flushed (x : Team) (n : Nat) : Team := { x with handed := x.handed ++ x.staged.map fun e => { e with flush := n }, staged := [] }

theorem exec_aflush_runs {f : Fields} {s : State} (h : Sys2Proof.free (.aflush f) f s = true) : exec (.aflush f) s
    = .next (if s.det s.me.team = true ∧ (s.view f).act ≠ 0#32 then s.flushStaged s.me.team else s).retire := by
  rw [exec_aflush, execAflush, onceOnly, issued_runs _ h, view_g]
  by_cases act : (s.view f).act = 0#32
  · simp [View.any, act]
  · by_cases det : s.det s.me.team = true <;> simp [View.any, act, det]

theorem State.flushStaged_eq (s : State) (t : Nat) : s.flushStaged t = { s.setTeam t ((s.team t).flushed s.seqno) with seqno := s.seqno + 1 } := rfl

end Sys2Proof.Machine

namespace Sys2Proof

open Sys2Proof.Machine

/-- The entries of a cluster are applied in order as far as none of them waits (R227, R314). -/
theorem stagedEntryApply_applies (team : Nat) (s : State) (bound : (s.team team).bound = true)
    (reds : ∀ u ∈ s.clusterOf team, ∀ e ∈ (s.team u).handed, e.atom = none ∧ e.space = .global) :
    ∃ (t : State) (es rest : List Staged), exec (.stagedEntryApply team) s = .next t
      ∧ (es ++ rest).Perm ((s.clusterOf team).flatMap fun u => (s.team u).handed.filter fun e => s.canApply e u)
      ∧ (es ++ rest).Pairwise (fun a b => [a.block, a.flush, a.role, a.lane, a.ord] ≤ [b.block, b.flush, b.role, b.lane, b.ord])
      ∧ (∀ e ∈ es, s.stagedReady e = true) ∧ (∀ e ∈ rest.head?, s.stagedReady e = false)
      ∧ (∀ u ∈ s.clusterOf team, (t.team u).handed = (s.team u).handed.filter fun e => !es.contains e)
      ∧ t.mem = (es.foldl (fun u e => u.writeAs (s.ctx e.ctx).key e.pa
          (leBytes 4 (atomWord e.op e.ty (BitVec.ofNat 32 (leVal (u.bytesAs (s.ctx e.ctx).key e.pa 4))) e.opnd e.opnd2).toNat)) s).mem := by
  have perm := sortStaged_perm (s.applicable (s.clusterOf team))
  have reduces : ∀ e ∈ sortStaged (s.applicable (s.clusterOf team)), e.reduces := fun e m => by
    obtain ⟨u, mine, m⟩ := List.mem_flatMap.mp (perm.mem_iff.mp m)
    exact reds u mine e (List.mem_of_mem_filter m)
  have ready : ∀ e ∈ s.readyStaged (s.clusterOf team), e.reduces := fun e m => reduces e ((List.takeWhile_prefix _).subset m)
  have taken := s.takeHanded_eq (s.clusterOf team) (s.readyStaged (s.clusterOf team))
  have applied := State.applyAll_performs (s.readyStaged (s.clusterOf team)) (s.takeHanded (s.clusterOf team) (s.readyStaged (s.clusterOf team)))
  refine ⟨_, s.readyStaged (s.clusterOf team), s.waitingStaged (s.clusterOf team), exec_stagedEntryApply_runs bound, ?_, ?_,
    fun e => State.stagedReady_of_ready, fun e => State.stagedReady_of_waiting, fun u m => ?_, ?_⟩
  · rw [State.readyStaged_append]
    exact perm
  · rw [State.readyStaged_append]
    exact (sortStaged_sorted _).imp_of_mem fun ha hb => StagedBefore.of_global (reduces _ ha).2 (reduces _ hb).2
  · have same : ((s.takeHanded (s.clusterOf team) (s.readyStaged (s.clusterOf team))).team u).handed
        = ((s.team u).without (s.readyStaged (s.clusterOf team))).handed := by rw [State.takeHanded_team, if_pos m]
    rw [State.settleTicket_eq]
    exact (congrArg Team.handed (applied.teams u) :).trans same
  · rw [State.settleTicket_eq]
    exact (State.applyAll_sameBytes s.ctxs _ (s := s) (by rw [taken]; exact ⟨rfl, rfl, fun _ => rfl, fun _ => rfl⟩) (by rw [taken]) ready).mem

/-- Settles O26: what staging and flushing leave of the team's buffer, and the application of its entries in their order. -/
theorem deterministicAtomicsAreStagedAndApplied : Obligations.DeterministicAtomicsAreStagedAndApplied := by
  unfold Obligations.DeterministicAtomicsAreStagedAndApplied
  refine ⟨?_, stagedEntryApply_applies⟩
  intro f s v x entries
  refine ⟨fun may det act access => ?_, fun may det act access => ?_, fun may => ?_⟩
  · obtain ⟨go, still, staged, ops, flags⟩ := stagedAtom_after (f := f) (s.stage_stages f (stagedEntries_ne_nil true act))
    exact ⟨_, _, s.stagedAtom f, exec_atom_stages det may act access, go, still, staged, stagedEntries_rule f true s, ops, rfl, rfl, rfl, rfl, rfl, flags⟩
  · obtain ⟨go, still, staged, ops, flags⟩ := stagedRed_after (s.stage_stages f (stagedEntries_ne_nil false act)) (s.seqno + 1)
    exact ⟨_, _, exec_red_stages det may access, go, still, staged, stagedEntries_rule f false s, ops, flags⟩
  · refine ⟨_, exec_aflush_runs may, ?_⟩
    by_cases flushes : s.det s.me.team = true ∧ v.act ≠ 0#32
    · have after := retire_steppedFrom (s.flushStaged s.me.team)
      have team : (s.flushStaged s.me.team).retire.team s.me.team = x.flushed s.seqno := (after.team _).trans (State.team_setTeam s _ _)
      obtain ⟨go, still⟩ := retire_after (s := s) (u := s.flushStaged s.me.team) rfl rfl rfl rfl
      rw [if_pos flushes, if_pos flushes, if_pos flushes, team]
      exact ⟨go, still, rfl, rfl⟩
    · have after := retire_steppedFrom s
      obtain ⟨go, still⟩ := retire_after (s := s) (u := s) rfl rfl rfl rfl
      rw [if_neg flushes, if_neg flushes, if_neg flushes, after.team]
      exact ⟨go, still, rfl, rfl⟩

end Sys2Proof
end

section
/-!
PROOFS. Long-latency accesses that complete: what each writes (R219, R223, R226, R232, R334), and what a lane reads (R221).
-/

namespace Sys2Proof.Machine

open Sys2Proof

/-! ### An operation leaves its group (R61, R346) -/

/-- A group that an operation has left. -/
def Group.finished (g : Group) (ord : Nat) (flag : Option Nat) : Group :=
  { g with ops := g.ops.filter (·.ord != ord), flags := countDown flag g.flags }

theorem State.opDone_eq {s : State} {gid ord : Nat} {q : Pend} (found : (s.grp gid).ops.find? (·.ord == ord) = some q) :
    s.opDone gid ord = s.setGrp gid ((s.grp gid).finished ord q.flag) := by
  simp only [State.opDone, found]
  cases flag : q.flag <;> rfl

section
variable {s : State} {gid k : Nat} {p : Pend} (h : mayComplete s gid k p)
include h

theorem exec_longLatencyCompletion_completes :
    exec (.longLatencyCompletion (.group gid k)) s = .next ((pendEffect s gid p).opDone gid p.ord) := by
  obtain ⟨found, act, unstaged, time, ready⟩ := h
  rw [exec_longLatencyCompletion, execLongLatencyCompletion, completeGroupOp]
  simp only [found, time, act, unstaged, ready, Bool.not_true, Bool.or_self, Bool.false_eq_true, if_false]

/-- A completion writes what its instruction writes, and the operation leaves the group. -/
theorem completion_leaves {u : State} (effect : pendEffect s gid p = u) (ops : (u.grp gid).ops = (s.grp gid).ops)
    (flags : (u.grp gid).flags = (s.grp gid).flags) :
    ∃ t, (exec (.longLatencyCompletion (.group gid k)) s = .next t ∧ left s t gid p) ∧ t = { u with groups := t.groups }
      ∧ (t.grp gid).v = (u.grp gid).v ∧ (t.grp gid).p = (u.grp gid).p := by
  have run := exec_longLatencyCompletion_completes h
  have m : p ∈ (s.grp gid).ops := List.mem_of_getElem? h.1
  have present : ((s.grp gid).ops.find? (·.ord == p.ord)).isSome = true := List.find?_isSome.mpr ⟨p, m, beq_self_eq_true p.ord⟩
  obtain ⟨q, found⟩ := Option.isSome_iff_exists.mp present
  rw [effect, State.opDone_eq (ops ▸ found)] at run
  refine ⟨_, ⟨run, ?_⟩, rfl, by rw [State.grp_setGrp]; rfl, by rw [State.grp_setGrp]; rfl⟩
  rw [left, State.grp_setGrp, found, ← ops, ← flags]
  exact ⟨rfl, rfl⟩

end

/-! ### Readers that have seen held stores (R236) -/

/-- Two states differ in who has seen the stores that the ticket unit holds. -/
def OnlySeen (s t : State) : Prop := t = { s with teams := t.teams, launches := t.launches }

namespace OnlySeen

theorem trans {s t u : State} (a : OnlySeen s t) (b : OnlySeen t u) : OnlySeen s u := by
  unfold OnlySeen at *
  rw [a] at b
  exact b

theorem foldl {α : Type} {f : State → α → State} (h : ∀ s x, OnlySeen s (f s x)) (xs : List α) (s : State) : OnlySeen s (xs.foldl f s) :=
  List.foldlRecOn (motive := fun (t : State) => OnlySeen s t) xs f rfl fun t ht x _ => ht.trans (h t x)

variable {s t : State} (h : OnlySeen s t)
include h

theorem mem : t.mem = s.mem := by rw [h]
theorem grp (g : Nat) : t.grp g = s.grp g := by rw [h]; rfl

end OnlySeen

theorem State.markSeen_onlySeen (s : State) (t who pa n : Nat) : OnlySeen s (s.markSeen t who pa n) := by
  unfold State.markSeen
  split <;> rfl

theorem State.lanesSeen_onlySeen (s : State) (gid : Nat) (p : Pend) (n : Nat) : OnlySeen s (s.lanesSeen gid p n) := by
  unfold State.lanesSeen
  split
  · exact .foldl (fun t l => t.markSeen_onlySeen _ _ _ _) _ _
  · rfl

/-- A state with bytes in the constant store of a core (R232). -/
def State.constWritten (s : State) (c x : Nat) (bs : List Byte) : State :=
  s.setCore c { s.core c with kst := writeCells (s.core c).kst x bs }

/-! ### Loads (R219, R223, R334) -/

section
variable {s : State} {gid k : Nat} {p : Pend} {f : Fields} (h : mayComplete s gid k p)
include h

/-- A completion that replaces its group by one with the same operations and flags, beside marks of what was seen and free choices. -/
theorem completion_writes {u : State} {g : Group} (effect : pendEffect s gid p = u) (mem : u.mem = s.mem) (grp : u.grp gid = g)
    (ops : g.ops = (s.grp gid).ops) (flags : g.flags = (s.grp gid).flags) :
    ∃ t, (exec (.longLatencyCompletion (.group gid k)) s = .next t ∧ left s t gid p) ∧ t.mem = s.mem
      ∧ (∀ n l, (t.grp gid).vr n l = g.vr n l) ∧ ∀ n l, (t.grp gid).pr n l = g.pr n l := by
  obtain ⟨t, done, only, v, q⟩ := completion_leaves h effect (by rw [grp, ops]) (by rw [grp, flags])
  refine ⟨t, done, by rw [only]; exact mem, fun n l => ?_, fun n l => ?_⟩
  · rw [vr_of v, grp]
  · rw [pr_of q, grp]

theorem completion_ld (i : p.i = .ld f) :
    ∃ t, (exec (.longLatencyCompletion (.group gid k)) s = .next t ∧ left s t gid p) ∧ t.mem = s.mem
      ∧ (∀ n l, l < 32 → (t.grp gid).pr n l = (s.grp gid).pr n l)
      ∧ ∀ n l, l < 32 → (t.grp gid).vr n l
          = if n = f.d.toNat ∧ p.act.getLsbD l = true then loadedWord s gid p f.tyN l else (s.grp gid).vr n l := by
  have seen := s.lanesSeen_onlySeen gid p (accSize f.tyN)
  obtain ⟨t, done, mem, v, q⟩ := completion_writes h (u := completeLd s gid p f)
    (g := (s.grp gid).setV f.d.toNat p.act (loadedWord s gid p f.tyN)) (by rw [pendEffect, i]) seen.mem
    (by rw [completeLd, State.grp_choicesMade, State.grp_setGrp, seen.grp]) rfl rfl
  exact ⟨t, done, mem, fun n l _ => q n l, fun n l lt => (v n l).trans (vr_setV _ _ _ _ _ lt)⟩

theorem completion_ldProbe (i : p.i = .ldProbe f) :
    ∃ t, (exec (.longLatencyCompletion (.group gid k)) s = .next t ∧ left s t gid p) ∧ t.mem = s.mem
      ∧ (∀ n l, l < 32 → (t.grp gid).vr n l = if n = f.d.toNat ∧ p.act.getLsbD l = true ∧ p.far.getLsbD l = false then
            loadedWord s gid p f.tyN l else (s.grp gid).vr n l)
      ∧ ∀ n l, l < 32 → (t.grp gid).pr n l = if n ≠ 15 ∧ n = f.c.toNat ∧ p.act.getLsbD l = true then
            (if p.far.getLsbD l then 1#16 else 0#16) else (s.grp gid).pr n l := by
  have seen := s.lanesSeen_onlySeen gid { p with act := p.act &&& ~~~p.far } (accSize f.tyN)
  obtain ⟨t, done, mem, v, q⟩ := completion_writes h (u := completeProbe s gid p f)
    (g := ((s.grp gid).setV f.d.toNat (p.act &&& ~~~p.far) (loadedWord s gid p f.tyN)).setP f.c.toNat p.act fun l => boolHalf (p.far.getLsbD l))
    (by rw [pendEffect, i]) seen.mem (by rw [completeProbe, State.grp_choicesMade, State.grp_setGrp, seen.grp]) rfl rfl
  refine ⟨t, done, mem, fun n l lt => ?_, fun n l lt => ?_⟩
  · rw [v, vr_setP, vr_setV _ _ _ _ _ lt, BitVec.getLsbD_and, BitVec.getLsbD_not]
    simp only [lt, decide_true, Bool.true_and, Bool.and_eq_true, Bool.not_eq_true']
  · rw [q, pr_setP _ _ _ _ _ lt]
    rfl

theorem completion_slotLd (i : p.i = .slotLd f) :
    ∃ t, (exec (.longLatencyCompletion (.group gid k)) s = .next t ∧ left s t gid p) ∧ t.mem = s.mem
      ∧ ∀ n l, l < 32 → (t.grp gid).vr n l
          = if p.act.getLsbD l = true ∧ n = f.d.toNat + 1 then BitVec.ofNat 32 (leVal (s.bytesAs (s.keyOf gid) (nth 0 p.pa l) 8) / 2 ^ 32)
            else if p.act.getLsbD l = true ∧ n = f.d.toNat then BitVec.ofNat 32 (leVal (s.bytesAs (s.keyOf gid) (nth 0 p.pa l) 8))
            else (s.grp gid).vr n l := by
  obtain ⟨t, done, mem, v, -⟩ := completion_writes h (u := completeSlotLd s gid p f) (by rw [pendEffect, i]) rfl (State.grp_setGrp s gid _) rfl rfl
  refine ⟨t, done, mem, fun n l lt => ?_⟩
  rw [v, Group.setRegs, vr_setV _ _ _ _ _ lt, Group.setRegs, vr_setV _ _ _ _ _ lt]
  exact if_congr and_comm rfl (if_congr and_comm rfl rfl)

/-! ### `fill` -/

omit h in
/-- The registers of a `fill` from `j` on, each with its own line. -/
theorem vr_fillRegs (g : Group) (j n r : Nat) {l : Nat} (lt : l < 32) : (fillRegs s gid p f g (rangeFrom j n)).vr r l
    = if (f.d.toNat + j ≤ r ∧ r < f.d.toNat + j + n) ∧ p.act.getLsbD l = true then
        BitVec.ofNat 32 (leVal (s.laneBytes gid l p.ord .global (nth 0 p.pa (r - f.d.toNat) + 4 * l) 4)) else g.vr r l := by
  induction n generalizing g j with
  | zero => exact (if_neg (by omega)).symm
  | succ n ih =>
    rw [rangeFrom, fillRegs, ih, vr_setV _ _ _ _ _ lt]
    by_cases here : r = f.d.toNat + j
    · subst here
      rw [if_neg fun e => absurd e.1.1 (by omega), Nat.add_sub_cancel_left]
      exact if_congr (and_congr_left' (by omega)) rfl rfl
    · rw [if_neg (c := r = f.d.toNat + j ∧ _) fun e => here e.1]
      exact if_congr (and_congr_left' (by omega)) rfl rfl

omit h in
theorem fillRegs_onlyRegs (js : List Nat) (g : Group) : g.onlyRegs (fillRegs s gid p f g js) := by
  induction js generalizing g with
  | nil => exact .refl g
  | cons j js ih => exact (Group.onlyRegs.setV _ _ _ _).trans (ih _)

theorem completion_fill (i : p.i = .fill f) (start : p.k = 0) :
    ∃ t, (exec (.longLatencyCompletion (.group gid k)) s = .next t ∧ left s t gid p) ∧ t.mem = s.mem
      ∧ ∀ n l, l < 32 → (t.grp gid).vr n l = if f.d.toNat ≤ n ∧ n < f.d.toNat + p.pa.length ∧ p.act.getLsbD l = true then
            BitVec.ofNat 32 (leVal (s.laneBytes gid l p.ord .global (nth 0 p.pa (n - f.d.toNat) + 4 * l) 4)) else (s.grp gid).vr n l := by
  have seen : OnlySeen s ((rangeFrom 0 p.pa.length).foldl (fun t j => (lanesOf p.act).foldl (fun t l =>
      t.markSeen (s.grp gid).team (readerOf gid l) (nth 0 p.pa j + 4 * l) 4) t) s) :=
    .foldl (fun t j => .foldl (fun t l => t.markSeen_onlySeen _ _ _ _) _ _) _ _
  have regs := fillRegs_onlyRegs (s := s) (gid := gid) (p := p) (f := f) (rangeFrom 0 p.pa.length) (s.grp gid)
  obtain ⟨t, done, mem, v, -⟩ := completion_writes h (u := completeFill s gid p f)
    (g := fillRegs s gid p f (s.grp gid) (rangeFrom 0 p.pa.length)) (by rw [pendEffect, i])
    (by rw [completeFill, start, Nat.sub_zero]; exact seen.mem)
    (by rw [completeFill, start, Nat.sub_zero, State.grp_choicesMade, State.grp_setGrp, seen.grp]) (by rw [regs]) (by rw [regs])
  refine ⟨t, done, mem, fun n l lt => ?_⟩
  rw [v, vr_fillRegs _ _ _ _ lt, Nat.add_zero]
  exact if_congr and_assoc rfl rfl

/-! ### The constant store (R232) -/

omit h in
theorem State.kst_constWritten {s t : State} {c x : Nat} {bs : List Byte} (only : t = { s.constWritten c x bs with groups := t.groups }) :
    (t.core c).kst = writeCells (s.core c).kst x bs := by
  have cores : t.cores = (s.constWritten c x bs).cores := by rw [only]
  rw [State.core, cores, ← State.core, State.constWritten, State.core_setCore]

theorem completion_cstLd (i : p.i = .cstLd f) (wf : Memory.wf (s.core (gid / 16)).kst = true) :
    ∃ t, (exec (.longLatencyCompletion (.group gid k)) s = .next t ∧ left s t gid p) ∧ t.mem = s.mem ∧ (t.grp gid).v = (s.grp gid).v
      ∧ ∀ x, readCell (t.core (gid / 16)).kst x = if f.imm.toNat % 65536 ≤ x ∧ x < f.imm.toNat % 65536 + cstBytes f then
            s.byteAs (s.keyOf gid) (pagePa (nth 0 p.va 0) p.pa (x - f.imm.toNat % 65536)) else readCell (s.core (gid / 16)).kst x := by
  have effect : pendEffect s gid p = s.constWritten (gid / 16) (f.imm.toNat % 65536)
      ((rangeFrom 0 (cstBytes f)).map fun x => s.byteAs (s.keyOf gid) (pagePa (nth 0 p.va 0) p.pa x)) := by
    rw [pendEffect, i]
    exact if_neg h.2.1
  obtain ⟨t, done, only, v, -⟩ := completion_leaves h effect rfl rfl
  refine ⟨t, done, by rw [only]; rfl, v, fun x => ?_⟩
  rw [State.kst_constWritten only, readCell_writeCells _ _ _ wf, List.length_map, rangeFrom_length]
  refine ite_congr rfl (fun inside => ?_) fun _ => rfl
  have lt : x - f.imm.toNat % 65536 < cstBytes f := by omega
  rw [nth_map _ 0 _ _ _ (by rwa [rangeFrom_length]), nth_rangeFrom, if_pos lt, Nat.zero_add]

/-! ### `atom` (R226) -/

omit h in
theorem lanesOf_twoPow {l : Nat} (lt : l < 32) : lanesOf (BitVec.twoPow 32 l) = [l] := by
  interval_cases l <;> decide

omit h in
/-- Lines closed before an ordered `atom` leave the group's operations, its flags and its registers. -/
theorem State.closedFirst (s : State) (gid : Nat) (c : Bool) : let u := if c then s.closeFilter gid else s
    LinesNoted s u ∧ (u.grp gid = s.grp gid ∨ u.grp gid = (s.grp gid).unfiltered) := by
  intro u
  cases c with
  | false => exact ⟨.refl s, .inl rfl⟩
  | true =>
    obtain ⟨t, only, eq⟩ := s.closeFilter_eq gid
    exact ⟨s.closeFilter_linesNoted gid, .inr (by show (s.closeFilter gid).grp gid = _; rw [eq, State.grp_setGrp])⟩

theorem completion_atom {l : Nat} (i : p.i = .atom f) (space : p.space = .global) (act : p.act = BitVec.twoPow 32 l) (lt : l < 32)
    (aligned : p.at l % 4 = 0) (own : ownLine s (s.keyOf gid) (p.at l)) (wf : Memory.wf s.mem = true) :
    let w := BitVec.ofNat 32 (leVal (readCells s.mem (p.at l) 4))
    ∃ t, (exec (.longLatencyCompletion (.group gid k)) s = .next t ∧ left s t gid p)
      ∧ (∀ n j, j < 32 → (t.grp gid).vr n j = if n = f.d.toNat ∧ j = l then w else (s.grp gid).vr n j)
      ∧ WordWritten s.mem t.mem (p.at l) (atomWord (f.sub.toNat % 8) f.tyN w (nth 0#32 p.val l) (nth 0#32 p.val2 l)) := by
  intro w
  obtain ⟨noted, grp⟩ := s.closedFirst gid (f.scope.isSome && p.act != 0#32)
  generalize closed : (if (f.scope.isSome && p.act != 0#32) = true then s.closeFilter gid else s) = u at noted grp
  have key : u.keyOf gid = s.keyOf gid := by
    rcases grp with e | e <;> rw [State.keyOf, State.keyOf, e, noted.ctxOf]
    rfl
  obtain ⟨old, written⟩ := State.atomStep_own (s := u) (f.sub.toNat % 8) f.tyN (nth 0#32 p.val l) (nth 0#32 p.val2 l)
    (by rw [noted.mem, wf]) aligned (noted.own _ _ own)
  rw [noted.mem] at old written
  generalize step : u.atomStep (s.keyOf gid) (f.sub.toNat % 8) f.tyN .global (p.at l) (nth 0#32 p.val l) (nth 0#32 p.val2 l) = r at old written
  have groups : r.2.grp gid = u.grp gid := by
    rw [← step, State.atomStep, State.putWord, (u.writeAs_onlyMemory _ _ _)]
    rfl
  have effect : pendEffect s gid p = r.2.setGrp gid ((u.grp gid).setV f.d.toNat p.act fun j => Tab.get 0#32 [(l, r.1)] j) := by
    rw [← groups, pendEffect, i]
    have lanes : lanesOf p.act = [l] := by rw [act, lanesOf_twoPow lt]
    simp only [completeAtom, closed, key, lanes, atomLanes, space, step]
  obtain ⟨t, done, only, v, -⟩ := completion_leaves h effect (by rw [State.grp_setGrp]; rcases grp with e | e <;> rw [e] <;> rfl)
    (by rw [State.grp_setGrp]; rcases grp with e | e <;> rw [e] <;> rfl)
  rw [State.grp_setGrp] at v
  have mem : t.mem = r.2.mem := by rw [only]; rfl
  refine ⟨t, done, fun n j hj => ?_, by rw [mem]; exact written⟩
  have before : (u.grp gid).vr n j = (s.grp gid).vr n j := by rcases grp with e | e <;> rw [e]; rfl
  rw [vr_of v, vr_setV _ _ _ _ _ hj, act, BitVec.getLsbD_twoPow, before]
  by_cases same : j = l
  · subst same
    simp [hj, Tab.get, Tab.find, old, w]
  · simp [same, Ne.symm same]

end

/-! ### What a lane reads (R221) -/

/-- A lane without an earlier store in the queue reads what its team sees. -/
theorem State.laneBytes_unqueued {s : State} {gid l ord : Nat} (none' : ∀ e ∈ (s.core (gid / 16)).sq, e.gid = gid → e.lane = l → ord ≤ e.ord)
    (pa n : Nat) : s.laneBytes gid l ord .global pa n = s.teamBytes (s.grp gid).team (readerOf gid l) (s.keyOf gid) pa n := by
  refine List.foldlRecOn (motive := (· = s.teamBytes (s.grp gid).team (readerOf gid l) (s.keyOf gid) pa n)) (s.core (coreOf gid)).sq _ rfl
    fun bs eq e m => ?_
  rw [if_neg]
  · exact eq
  · simp only [Bool.and_eq_true, beq_iff_eq, decide_eq_true_eq]
    rintro ⟨⟨⟨mine, lane⟩, -⟩, earlier⟩
    exact absurd (none' e m mine lane) (Nat.not_le.mpr earlier)

/-- A team for which nothing is held sees memory. -/
theorem State.teamBytes_unheld {s : State} {t : Nat} (held : (s.team t).held = []) (free : s.heldBlock t = false) (who key pa n : Nat) :
    s.teamBytes t who key pa n = s.bytesAs key pa n := by
  simp only [State.teamBytes, held, free, List.foldl_nil, Bool.false_eq_true, if_false]

end Sys2Proof.Machine

namespace Sys2Proof

open Sys2Proof.Machine

/-- Settles O23: each completion by what its instruction writes, and a lane's bytes by what its team sees where nothing is queued or held. -/
theorem loadsCompleteWithTheirValue : Obligations.LoadsCompleteWithTheirValue := by
  unfold Obligations.LoadsCompleteWithTheirValue
  refine ⟨?_, fun gid l ord pa n s none' held free own => ?_⟩
  · intro gid k p f s may g key done loaded
    exact ⟨completion_ld may, completion_ldProbe may, completion_fill may, completion_slotLd may, completion_cstLd may,
      fun l i space act lt aligned own wf => completion_atom may i space act lt aligned own wf⟩
  · rw [State.laneBytes_unqueued none', State.teamBytes_unheld held free, State.bytesAs_own own]

end Sys2Proof
end
